-- ==== Sys2Proof/Word.lean ====
section
/-! DEFINITION. The word types of the Laminawick and the ranges of its unit numbers (spec 00 R5, R6; 01 R11). -/

namespace Sys2Proof

/-- One byte, the smallest addressable unit (00 R6). -/
abbrev Byte := BitVec 8

/-- A 64-bit scalar value (12 R227). -/
abbrev Word := BitVec 64

/-- Number of a scalar register, x0 to x31 (12 R227). -/
abbrev XIx := BitVec 5

/-- Number of a vector register, v0 to v63 (12 R227). -/
abbrev VIx := BitVec 6

/-- Number of a scale register, k0 to k15 (12 R227). -/
abbrev KIx := BitVec 4

/-- Number of a segment register, g0 to g15 (01 R21). -/
abbrev GIx := BitVec 4

/-- The H field of the R and T formats (12 R237). -/
abbrev Hint := BitVec 2

/-- Cores of the device (01 R11). -/
def numCores : Nat := 384

/-- Clusters of the device (00 R2). -/
def numClusters : Nat := 48

/-- Dies of the device (00 R2). -/
def numDies : Nat := 4

/-- Hart slots of a core (01 R11). -/
def numSlots : Nat := 8

/-- Queue blocks of the control window (26 R375). -/
def numQueues : Nat := 38

/-- Zilaux Links of the module (00 R3). -/
def numLinks : Nat := 18

end Sys2Proof
end

