-- ==== Sys2Proof/Config.lean ====
section
/-! DEFINITION. What the spec leaves open and an implementation fixes. Every constant here is opaque: nothing in
Lean can evaluate it or prove a value of it, so a theorem holds whatever it is. Each is named in a row of
notes/assumptions. -/

namespace Sys2Proof.Config

/-- FREE (DESIGN CHOICE, log entry 9): the n-th free choice of the machine, taken modulo the number of candidates.
Used for the way a cache replaces (03 R47), the filter entry replaced (04 R86), the order of the elements of the
`.any` forms (06 R121) and the value of a new identifier's salt. -/
opaque freeChoice : Nat → Nat

/-- FREE (DESIGN CHOICE, log entry 7): the cycles that the n-th step of the machine takes (12 R229 `cyc`). -/
opaque stepCycles : Nat → Nat

/-- FREE (DESIGN CHOICE, log entry 8): the result code of a special function outside its exact cases
(15 R279). Arguments: the number of the function, the format code, the operand's code. The spec bounds its error
and leaves its value open; it is a fixed function of the operand. -/
opaque specialResult : Nat → Nat → Nat → Nat

/-- FREE (DESIGN CHOICE, log entry 6): byte i of a scratchpad grant at its placement (24: "Grant contents at placement
are not defined"); the first argument is the free counter at the placement. -/
opaque grantByte : Nat → Nat → Byte

/-- FREE (log entry 10): whether the boot ROM's ML-DSA-87 check of the image succeeds (27 R385). -/
opaque signatureValid : List Byte → Bool

/-- FREE (log entry 10): whether the image has the form that the boot ROM requires (27 R384, berr 0x02); the spec
does not give that form. -/
opaque imageWellFormed : List Byte → Bool

/-- FREE (log entry 10): the version in the accepted image's header (27 R384 fwver); the header's layout is not
given. -/
opaque imageVersion : List Byte → BitVec 32

/-- FREE (log entry 10): the 16-byte device serial number (27 R389). -/
opaque serialNumber : BitVec 128

/-- FREE (log entry 10): the ML-DSA-87 public identity key, 2,592 bytes, byte by byte (27 R389). -/
opaque identityKey : Nat → Byte

/-- FREE (log entry 10): byte i of the identity key's signature over a digest (27 R389). -/
opaque attestSignature : BitVec 512 → Nat → Byte

/-- FREE (log entry 10): the key that a bring-up takes from the device's random source (27 R390): the 64 bytes of
AES-256-XTS, the data key first. The argument names the bring-up. -/
opaque xtsKey : Nat → BitVec 512

/-- FREE (log entry 10): what a device reader finds in byte i of a protected unit after a host write
(27 R390: unspecified); the second argument is the free counter at the write. -/
opaque scrambledByte : (u : Nat) → Nat → (i : Nat) → Byte

/-- FREE (log entry 12): supervisor g0, g1 and tvec as the firmware image loads them at bring-up
(10 R188, 12 R229 reset `fw`). -/
opaque fwSg0 : List Byte → BitVec 128
opaque fwSg1 : List Byte → BitVec 128
opaque fwTvec : List Byte → Word

/-- FREE (log entry 12): root and format of the firmware's own descriptor for space 0 (04 R77). -/
opaque fwSpace0 : List Byte → BitVec 128

end Sys2Proof.Config
end

