-- ==== Sys2Proof/Syntax.lean ====
section
/-! DEFINITION. The instructions of ZVA level 3 and the device's own steps: one constructor for each row of the
opcode table (spec 12 R231 to R236; 95_what_each_step_holds.md for the rows that are steps of the device or acts of
the host). Fields that name a fixed set of things are inductive types; raw numbers stay bit vectors. -/

namespace Sys2Proof

/-- The orientation of an access to the virtual space (02 R29): M-format O = 00 or 01. -/
inductive Orient where
  | row
  | col
  deriving DecidableEq, Repr

/-- The order of an indexed form (17 R312, R317): O = 00 `.ord`, 01 `.any`. -/
inductive Order where
  | ord
  | any
  deriving DecidableEq, Repr

/-- The five scopes (00 R4), coded 000 to 100 in FENCE and BAR (12 R235). -/
inductive Scope where
  | h
  | c
  | k
  | d
  | s
  deriving DecidableEq, Repr

/-- The four scopes of an atomic (12 R233). -/
inductive AScope where
  | c
  | k
  | d
  | s
  deriving DecidableEq, Repr

/-- The kinds of FENCE (12 R235): 01 `.rel`, 10 `.acq`, 11 `.ar`. -/
inductive FenceKind where
  | rel
  | acq
  | ar
  deriving DecidableEq, Repr

/-- A half of a segment register (12 R235) or of a scale register (11 R202). -/
inductive Half where
  | lo
  | hi
  deriving DecidableEq, Repr

/-- The rounding code in bits [2:0] of a rounding major (12 R236); `frm` is code 110. -/
inductive RCode where
  | rne
  | rtz
  | rdn
  | rup
  | rto
  | sr
  | frm
  deriving DecidableEq, Repr

/-- The conditions of VCMP (12 R234). -/
inductive Cond where
  | eq
  | ne
  | lt
  | le
  | gt
  | ge
  | uo
  | or
  deriving DecidableEq, Repr

/-- The assigned control registers (12 R228). -/
inductive CReg where
  | vl
  | vm
  | vs
  | vt
  | vstart
  | vrep
  | vsr
  | frm
  | fflags
  | mrow
  | mcol
  | mdep
  | bthr
  | lpart
  | hartid
  | regionid
  | cyc
  | tcause
  | tepc
  | tval
  | tvec
  | tstat
  deriving DecidableEq, Repr

/-- Where a scalar atomic acts (12 R233): memory through a segment at a scope and an orientation, or the scratchpad. -/
inductive AmoLoc where
  | mem (sc : AScope) (o : Orient) (g : GIx)
  | sp
  deriving DecidableEq, Repr

/-- The width of a scalar atomic (12 R233): w = 1 is 32 bits, w = 0 is 64 bits. -/
inductive AmoWidth where
  | w64
  | w32
  deriving DecidableEq, Repr

/-- The dataflow of a matrix instruction (18 R330). -/
inductive Flow where
  | ip
  | op
  | rw
  deriving DecidableEq, Repr

/-- An A or B operand of a matrix instruction (18 R328, R329): a register group, or a scratchpad tile named by an
even scalar pair. -/
inductive MatOp where
  | reg (v : VIx)
  | sp (x : XIx)
  deriving DecidableEq, Repr

/-- The three defined forms of KMOV (16 R303). -/
inductive KmovForm where
  | kk (d a : KIx)
  | vk (d : VIx) (a : KIx) (m : BitVec 2)
  | kv (d : KIx) (a : VIx) (m : BitVec 2)
  deriving DecidableEq, Repr

/-- A cache or a merge target of the memory hierarchy (03 R42): used by the device's own steps. -/
inductive Level where
  | l1
  | l2
  | home
  deriving DecidableEq, Repr

/-- A structure that an error-correcting code protects (03 R61, 05 R114). -/
inductive EccPlace where
  | l1
  | l2
  | l1i
  | metadata
  | home
  | scratchpad
  | storeBuffer
  | indexScratchpad
  deriving DecidableEq, Repr

/-- A request that arrives from a peer (26 R382, 07 R138) at a device physical address. The atomics carry their width. -/
inductive PeerReq where
  | read (pa len : Nat)
  | write (pa : Nat) (bytes : List Byte)
  | atomic (op : BitVec 4) (w : AmoWidth) (pa : Nat) (v c : Word)
  deriving DecidableEq, Repr

/-- The instructions and steps of the opcode table, one constructor for each row. -/
inductive Instr where
  /-- ADD (R255): Writes the 64-bit wrapping sum of two scalar registers to x(D). -/
  | add (h : Hint) (d a b : XIx)
  /-- SUB (R255): Writes the 64-bit wrapping difference of two scalar registers to x(D). -/
  | sub (h : Hint) (d a b : XIx)
  /-- AND (R255): Writes the bitwise AND of two scalar registers to x(D). -/
  | and (h : Hint) (d a b : XIx)
  /-- OR (R255): Writes the bitwise OR of two scalar registers to x(D). -/
  | or (h : Hint) (d a b : XIx)
  /-- XOR (R255): Writes the bitwise XOR of two scalar registers to x(D). -/
  | xor (h : Hint) (d a b : XIx)
  /-- SLL (R255): Shifts x(A) left by x(B) mod 64. -/
  | sll (h : Hint) (d a b : XIx)
  /-- SRL (R255): Shifts x(A) right logically by x(B) mod 64. -/
  | srl (h : Hint) (d a b : XIx)
  /-- SRA (R255): Shifts x(A) right arithmetically by x(B) mod 64. -/
  | sra (h : Hint) (d a b : XIx)
  /-- SLT (R255): Writes 1 when x(A) is less than x(B) as signed values, else 0. -/
  | slt (h : Hint) (d a b : XIx)
  /-- SLTN (R255): Writes 1 when x(A) is less than x(B) as unsigned values, else 0. -/
  | sltn (h : Hint) (d a b : XIx)
  /-- MIN (R255): Writes the signed lesser of two scalar registers. -/
  | min (h : Hint) (d a b : XIx)
  /-- MAX (R255): Writes the signed greater of two scalar registers. -/
  | max (h : Hint) (d a b : XIx)
  /-- MINN (R255): Writes the unsigned lesser of two scalar registers. -/
  | minn (h : Hint) (d a b : XIx)
  /-- MAXN (R255): Writes the unsigned greater of two scalar registers. -/
  | maxn (h : Hint) (d a b : XIx)
  /-- CLZ (R255): Counts the leading zero bits of x(A). -/
  | clz (h : Hint) (d a : XIx)
  /-- CTZ (R255): Counts the trailing zero bits of x(A). -/
  | ctz (h : Hint) (d a : XIx)
  /-- POPC (R255): Counts the one bits of x(A). -/
  | popc (h : Hint) (d a : XIx)
  /-- MUL (R255): Writes the low 64 bits of the product of two scalar registers. -/
  | mul (h : Hint) (d a b : XIx)
  /-- MULH (R255): Writes the high 64 bits of the signed product. -/
  | mulh (h : Hint) (d a b : XIx)
  /-- MULHN (R255): Writes the high 64 bits of the unsigned product. -/
  | mulhn (h : Hint) (d a b : XIx)
  /-- DIV (R256): Signed division rounded toward zero; divisor zero writes all ones and raises DZ without trapping. -/
  | div (h : Hint) (d a b : XIx)
  /-- DIVN (R256): Unsigned division; divisor zero writes all ones and raises DZ. -/
  | divn (h : Hint) (d a b : XIx)
  /-- REM (R256): Signed remainder taking the sign of the dividend; divisor zero writes all ones with DZ. -/
  | rem (h : Hint) (d a b : XIx)
  /-- REMN (R256): Unsigned remainder; divisor zero writes all ones with DZ. -/
  | remn (h : Hint) (d a b : XIx)
  /-- ADDI (R257): Adds a sign-extended 13-bit immediate to x(A). -/
  | addi (imm : BitVec 13) (a d : XIx)
  /-- ANDI (R257): ANDs x(A) with a sign-extended immediate. -/
  | andi (imm : BitVec 13) (a d : XIx)
  /-- ORI (R257): ORs x(A) with a sign-extended immediate. -/
  | ori (imm : BitVec 13) (a d : XIx)
  /-- XORI (R257): XORs x(A) with a sign-extended immediate. -/
  | xori (imm : BitVec 13) (a d : XIx)
  /-- SLTI (R257): Writes 1 when x(A) is below the immediate as signed values. -/
  | slti (imm : BitVec 13) (a d : XIx)
  /-- SLTIN (R257): Writes 1 when x(A) is below the sign-extended immediate as unsigned values. -/
  | sltin (imm : BitVec 13) (a d : XIx)
  /-- SLLI (R257): Shifts x(A) left by an immediate of 0 to 63. -/
  | slli (n : BitVec 6) (a d : XIx)
  /-- SRLI (R257): Shifts x(A) right logically by an immediate. -/
  | srli (n : BitVec 6) (a d : XIx)
  /-- SRAI (R257): Shifts x(A) right arithmetically by an immediate. -/
  | srai (n : BitVec 6) (a d : XIx)
  /-- LIH (R258): Shifts x(D) left by 19 and adds an unsigned 19-bit immediate. -/
  | lih (imm : BitVec 19) (d : XIx)
  /-- ADDPC (R258): Writes PC plus four times a signed word offset to x(D). -/
  | addpc (imm : BitVec 19) (d : XIx)
  /-- LDB (R259): Loads a byte through a segment and sign-extends it. -/
  | ldb (off : BitVec 8) (o : Orient) (g : GIx) (base d : XIx)
  /-- LDH (R259): Loads a half through a segment and sign-extends it. -/
  | ldh (off : BitVec 8) (o : Orient) (g : GIx) (base d : XIx)
  /-- LDW (R259): Loads a word through a segment and sign-extends it. -/
  | ldw (off : BitVec 8) (o : Orient) (g : GIx) (base d : XIx)
  /-- LDD (R259): Loads a doubleword through a segment. -/
  | ldd (off : BitVec 8) (o : Orient) (g : GIx) (base d : XIx)
  /-- LDBN (R259): Loads a byte through a segment and zero-extends it. -/
  | ldbn (off : BitVec 8) (o : Orient) (g : GIx) (base d : XIx)
  /-- LDHN (R259): Loads a half through a segment and zero-extends it. -/
  | ldhn (off : BitVec 8) (o : Orient) (g : GIx) (base d : XIx)
  /-- LDWN (R259): Loads a word through a segment and zero-extends it. -/
  | ldwn (off : BitVec 8) (o : Orient) (g : GIx) (base d : XIx)
  /-- STB (R259): Stores the low byte of x(D), performed at retirement. -/
  | stb (off : BitVec 8) (o : Orient) (g : GIx) (base d : XIx)
  /-- STH (R259): Stores the low half of x(D). -/
  | sth (off : BitVec 8) (o : Orient) (g : GIx) (base d : XIx)
  /-- STW (R259): Stores the low word of x(D). -/
  | stw (off : BitVec 8) (o : Orient) (g : GIx) (base d : XIx)
  /-- STD (R259): Stores the doubleword of x(D). -/
  | std (off : BitVec 8) (o : Orient) (g : GIx) (base d : XIx)
  /-- AMOADD (R261): Scalar atomic add at the scope's level or in a scratchpad bank, returning the old value. -/
  | amoadd (loc : AmoLoc) (w : AmoWidth) (base d : XIx)
  /-- AMOAND (R261): Scalar atomic AND returning the old value. -/
  | amoand (loc : AmoLoc) (w : AmoWidth) (base d : XIx)
  /-- AMOOR (R261): Scalar atomic OR returning the old value. -/
  | amoor (loc : AmoLoc) (w : AmoWidth) (base d : XIx)
  /-- AMOXOR (R261): Scalar atomic XOR returning the old value. -/
  | amoxor (loc : AmoLoc) (w : AmoWidth) (base d : XIx)
  /-- AMOMIN (R261): Scalar atomic signed minimum returning the old value. -/
  | amomin (loc : AmoLoc) (w : AmoWidth) (base d : XIx)
  /-- AMOMAX (R261): Scalar atomic signed maximum returning the old value. -/
  | amomax (loc : AmoLoc) (w : AmoWidth) (base d : XIx)
  /-- AMOMINN (R261): Scalar atomic unsigned minimum returning the old value. -/
  | amominn (loc : AmoLoc) (w : AmoWidth) (base d : XIx)
  /-- AMOMAXN (R261): Scalar atomic unsigned maximum returning the old value. -/
  | amomaxn (loc : AmoLoc) (w : AmoWidth) (base d : XIx)
  /-- AMOSWP (R261): Scalar atomic swap returning the old value. -/
  | amoswp (loc : AmoLoc) (w : AmoWidth) (base d : XIx)
  /-- AMOCAS (R261): Scalar atomic compare-and-swap using the even pair x(D), x(D+1). -/
  | amocas (loc : AmoLoc) (w : AmoWidth) (base d : XIx)
  /-- AMOFADD (R264): Scalar atomic floating add rounded to nearest even, returning the old value. -/
  | amofadd (loc : AmoLoc) (w : AmoWidth) (base d : XIx)
  /-- BEQ (R265): Branches when two scalar registers are equal. -/
  | beq (off : BitVec 13) (b a : XIx)
  /-- BNE (R265): Branches when two scalar registers differ. -/
  | bne (off : BitVec 13) (b a : XIx)
  /-- BLT (R265): Branches when x(A) is less than x(B) signed. -/
  | blt (off : BitVec 13) (b a : XIx)
  /-- BGE (R265): Branches when x(A) is at least x(B) signed. -/
  | bge (off : BitVec 13) (b a : XIx)
  /-- BLTN (R265): Branches when x(A) is less than x(B) unsigned. -/
  | bltn (off : BitVec 13) (b a : XIx)
  /-- BGEN (R265): Branches when x(A) is at least x(B) unsigned. -/
  | bgen (off : BitVec 13) (b a : XIx)
  /-- JAL (R266): Jumps by a signed word offset and links PC+4 in x(D). -/
  | jal (imm : BitVec 19) (d : XIx)
  /-- JALR (R266): Jumps to x(A) plus an immediate and links PC+4 in x(D). -/
  | jalr (imm : BitVec 13) (a d : XIx)
  /-- MFC (R268): Moves a control register to x(D); fflags resynchronises the hart. -/
  | mfc (c : CReg) (d : XIx)
  /-- MTC (R268): Writes x(A) to the RW fields of a control register in program order. -/
  | mtc (c : CReg) (a : XIx)
  /-- MFG (R269): Moves one 64-bit half of a segment register to x(D). -/
  | mfg (h : Hint) (half : Half) (g : GIx) (d : XIx)
  /-- MTG (R269): Writes one 64-bit half of a segment register; g0 is privileged in user mode. -/
  | mtg (h : Hint) (half : Half) (g : GIx) (b : XIx)
  /-- TRAP (R270): Takes an explicit trap, cause 0x04, which firmware classes as fatal. -/
  | trap (h : Hint)
  /-- BRK (R270): Takes a breakpoint trap, cause 0x03. -/
  | brk (h : Hint)
  /-- RTS (R189): Returns from a trap to tepc, restoring privilege and user g0 and g1. -/
  | rts (h : Hint)
  /-- FENCE (R349): Performs a release, an acquire, or both at the named scope. -/
  | fence (h : Hint) (sc : Scope) (k : FenceKind)
  /-- WAITC (R347): Waits until each class has at most the given count of operations outstanding, trapping on a pending command failure. -/
  | waitc (l st c m : BitVec 4)
  /-- WAITA (R348): Sleeps until a scratchpad word equals x(B). -/
  | waita (h : Hint) (d a b : XIx)
  /-- WAITA_ANY (R348): Sleeps until a scratchpad word equals x(B) or its complement. -/
  | waitaAny (h : Hint) (d a b : XIx)
  /-- BAR (R350): Releases, arrives at a barrier of the scope's instance, departs when all participants arrive, then acquires. -/
  | bar (h : Hint) (sc : Scope)
  /-- VSETL (R274): Sets vl to the lesser of x(A) and the capacity of vB's tag. -/
  | vsetl (h : Hint) (d a : XIx) (b : VIx)
  /-- VTAG (R275): Sets a vector register's tag without changing its bits. -/
  | vtag (t : BitVec 8) (d : VIx)
  /-- VAND (R280): Bitwise AND of element codes. -/
  | vand (h : Hint) (d a b : VIx)
  /-- VOR (R280): Bitwise OR of element codes. -/
  | vor (h : Hint) (d a b : VIx)
  /-- VXOR (R280): Bitwise XOR of element codes. -/
  | vxor (h : Hint) (d a b : VIx)
  /-- VNOT (R280): Bitwise complement of element codes. -/
  | vnot (h : Hint) (d a : VIx)
  /-- VSHL (R280): Shifts integer elements left by per-element counts. -/
  | vshl (h : Hint) (d a b : VIx)
  /-- VSHR (R280): Shifts integer elements right logically. -/
  | vshr (h : Hint) (d a b : VIx)
  /-- VSHRA (R280): Shifts integer elements right arithmetically. -/
  | vshra (h : Hint) (d a b : VIx)
  /-- VWSL (R281): Shifts the first vl elements left as one bit string. -/
  | vwsl (h : Hint) (d a : VIx) (b : XIx)
  /-- VWSR (R281): Shifts the first vl elements right as one bit string. -/
  | vwsr (h : Hint) (d a : VIx) (b : XIx)
  /-- VFSL (R281): Funnel-shifts vD up, filling from the high end of vA. -/
  | vfsl (h : Hint) (d a : VIx) (b : XIx)
  /-- VFSR (R281): Funnel-shifts vD down, filling from the low end of vA. -/
  | vfsr (h : Hint) (d a : VIx) (b : XIx)
  /-- VSEL (R283): Selects each element from vA or vB by the mask. -/
  | vsel (h : Hint) (d a b : VIx)
  /-- VMOV (R283): Copies active element codes of vA to vD. -/
  | vmov (h : Hint) (d a : VIx)
  /-- VSPLAT (R283): Writes the low bits of x(A) into every active element. -/
  | vsplat (h : Hint) (d : VIx) (a : XIx)
  /-- VMVX (R285): Moves element x(B) of vA to x(D) and resynchronises. -/
  | vmvx (h : Hint) (d : XIx) (a : VIx) (b : XIx)
  /-- VMXV (R285): Moves x(A) into element x(B) of vD. -/
  | vmxv (h : Hint) (d : VIx) (a b : XIx)
  /-- VSLU (R286): Slides elements up by a count, inserting a scalar code. -/
  | vslu (h : Hint) (d a : VIx) (b : XIx)
  /-- VSLD (R286): Slides elements down by a count, inserting a scalar code. -/
  | vsld (h : Hint) (d a : VIx) (b : XIx)
  /-- VPERM (R287): Permutes elements of vA by indices in vB. -/
  | vperm (h : Hint) (d a b : VIx)
  /-- VREV (R287): Reverses the first vl elements of vA. -/
  | vrev (h : Hint) (d a : VIx)
  /-- VMCNT (R289): Counts active set mask bits into x(D). -/
  | vmcnt (h : Hint) (d : XIx) (a : VIx)
  /-- VMFST (R289): Writes the index of the first active set mask bit to x(D). -/
  | vmfst (h : Hint) (d : XIx) (a : VIx)
  /-- VRAND (R288): Bitwise AND reduction of active codes into element 0. -/
  | vrand (h : Hint) (d a : VIx)
  /-- VROR (R288): Bitwise OR reduction of active codes into element 0. -/
  | vror (h : Hint) (d a : VIx)
  /-- VRXOR (R288): Bitwise XOR reduction of active codes into element 0. -/
  | vrxor (h : Hint) (d a : VIx)
  /-- VIDX (R284): Writes start plus i times step into each active integer element. -/
  | vidx (step : BitVec 9) (start : BitVec 10) (d : VIx)
  /-- VCMP (R282): Compares elements exactly and writes mask bits for the condition. -/
  | vcmp (h : Hint) (c : Cond) (d a b : VIx)
  /-- VBANY (R290): Branches when any active mask bit is set, resynchronising. -/
  | vbany (off : BitVec 13) (a : VIx)
  /-- VBNONE (R290): Branches when no active mask bit is set, resynchronising. -/
  | vbnone (off : BitVec 13) (a : VIx)
  /-- VADD (R277): Element-wise add, delivered to the destination tag with one rounding. -/
  | vadd (h : Hint) (r : RCode) (d a b : VIx)
  /-- VSUB (R277): Element-wise subtract a minus b. -/
  | vsub (h : Hint) (r : RCode) (d a b : VIx)
  /-- VRSUB (R277): Element-wise reverse subtract b minus a. -/
  | vrsub (h : Hint) (r : RCode) (d a b : VIx)
  /-- VMUL (R277): Element-wise multiply. -/
  | vmul (h : Hint) (r : RCode) (d a b : VIx)
  /-- VMULH (R277): Element-wise integer high product. -/
  | vmulh (h : Hint) (r : RCode) (d a b : VIx)
  /-- VDIV (R277): Element-wise divide. -/
  | vdiv (h : Hint) (r : RCode) (d a b : VIx)
  /-- VREM (R277): Element-wise remainder with truncated quotient. -/
  | vrem (h : Hint) (r : RCode) (d a b : VIx)
  /-- VMIN (R277): Element-wise minimum. -/
  | vmin (h : Hint) (r : RCode) (d a b : VIx)
  /-- VMAX (R277): Element-wise maximum. -/
  | vmax (h : Hint) (r : RCode) (d a b : VIx)
  /-- VABS (R277): Element-wise absolute value. -/
  | vabs (h : Hint) (r : RCode) (d a : VIx)
  /-- VNEG (R277): Element-wise negation. -/
  | vneg (h : Hint) (r : RCode) (d a : VIx)
  /-- VFMA (R277): Fused a times b plus d, rounded once. -/
  | vfma (h : Hint) (r : RCode) (d a b : VIx)
  /-- VFMS (R277): Fused a times b minus d, rounded once. -/
  | vfms (h : Hint) (r : RCode) (d a b : VIx)
  /-- VFNMA (R277): Fused minus a times b plus d, rounded once. -/
  | vfnma (h : Hint) (r : RCode) (d a b : VIx)
  /-- VFNMS (R277): Fused minus a times b minus d, rounded once. -/
  | vfnms (h : Hint) (r : RCode) (d a b : VIx)
  /-- VSQRT (R279): Correctly rounded element-wise square root. -/
  | vsqrt (h : Hint) (r : RCode) (d a : VIx)
  /-- VRCP (R279): Correctly rounded element-wise reciprocal. -/
  | vrcp (h : Hint) (r : RCode) (d a : VIx)
  /-- VRSQ (R279): Element-wise reciprocal square root within its bound. -/
  | vrsq (h : Hint) (r : RCode) (d a : VIx)
  /-- VEXP2 (R279): Element-wise power of two within its bound. -/
  | vexp2 (h : Hint) (r : RCode) (d a : VIx)
  /-- VLOG2 (R279): Element-wise base-2 logarithm within its bound. -/
  | vlog2 (h : Hint) (r : RCode) (d a : VIx)
  /-- VSIN (R279): Element-wise sine within its bound. -/
  | vsin (h : Hint) (r : RCode) (d a : VIx)
  /-- VCOS (R279): Element-wise cosine within its bound. -/
  | vcos (h : Hint) (r : RCode) (d a : VIx)
  /-- VTANH (R279): Element-wise hyperbolic tangent within its bound. -/
  | vtanh (h : Hint) (r : RCode) (d a : VIx)
  /-- VRSUM (R288): Sums active elements plus the start value into element 0 in canonical or lane order. -/
  | vrsum (h : Hint) (r : RCode) (d a : VIx)
  /-- VRMIN (R288): Minimum reduction into element 0. -/
  | vrmin (h : Hint) (r : RCode) (d a : VIx)
  /-- VRMAX (R288): Maximum reduction into element 0. -/
  | vrmax (h : Hint) (r : RCode) (d a : VIx)
  /-- VRDOT (R288): Dot-product reduction of vA and vB into element 0. -/
  | vrdot (h : Hint) (r : RCode) (d a b : VIx)
  /-- VUNPK (R300): Unpacks bit fields from vA into elements of vD. -/
  | vunpk (h : Hint) (d a : VIx) (b : XIx)
  /-- VPKB (R300): Packs the low bits of elements of vA into fields of vD. -/
  | vpkb (h : Hint) (d a : VIx) (b : XIx)
  /-- VLUT (R301): Replaces each index with an entry of a 256-entry register-group table. -/
  | vlut (h : Hint) (d a b : VIx)
  /-- VEXPD (R302): Expands a packed run into the active positions of vD. -/
  | vexpd (h : Hint) (d a : VIx)
  /-- VCMPR (R302): Compresses the active elements of vA into a packed run. -/
  | vcmpr (h : Hint) (d a : VIx)
  /-- KMOV (R303): Moves scale bytes between scale registers or a 64-byte window and a vector register. -/
  | kmov (h : Hint) (f : KmovForm)
  /-- VCVT (R294): Converts each element to the destination format with one rounding. -/
  | vcvt (h : Hint) (r : RCode) (d a : VIx)
  /-- VQMX (R295): Quantises blocks of 32 into a block-scaled format, writing scales. -/
  | vqmx (h : Hint) (r : RCode) (d a : VIx)
  /-- VDQMX (R297): Dequantises plain MX codes with scales from a named scale register and half. -/
  | vdqmx (h : Hint) (r : RCode) (d a : VIx) (k : KIx) (half : Half)
  /-- VQEF (R298): Quantises FP32 plus residual to MXFP8 and rewrites the residual. -/
  | vqef (h : Hint) (r : RCode) (d a b : VIx)
  /-- VLD (R311): Unit-stride vector load, row or column oriented. -/
  | vld (off : BitVec 8) (o : Orient) (g : GIx) (base : XIx) (d : VIx)
  /-- VST (R311): Unit-stride vector store, row or column oriented. -/
  | vst (off : BitVec 8) (o : Orient) (g : GIx) (base : XIx) (d : VIx)
  /-- VLDS (R311): Strided vector load using vs. -/
  | vlds (off : BitVec 8) (o : Orient) (g : GIx) (base : XIx) (d : VIx)
  /-- VSTS (R311): Strided vector store using vs. -/
  | vsts (off : BitVec 8) (o : Orient) (g : GIx) (base : XIx) (d : VIx)
  /-- VLD2 (R311): Two-dimensional vector load using vs, vt and mrow. -/
  | vld2 (off : BitVec 8) (o : Orient) (g : GIx) (base : XIx) (d : VIx)
  /-- VST2 (R311): Two-dimensional vector store using vs, vt and mrow. -/
  | vst2 (off : BitVec 8) (o : Orient) (g : GIx) (base : XIx) (d : VIx)
  /-- VLDX (R312): Indexed vector load, ordered or unordered. -/
  | vldx (x : VIx) (o : Order) (g : GIx) (base : XIx) (d : VIx)
  /-- VSTX (R312): Indexed vector store, ordered or unordered. -/
  | vstx (x : VIx) (o : Order) (g : GIx) (base : XIx) (d : VIx)
  /-- VLDF (R313): Fault-only-first load that truncates vl at the first failing element above vstart. -/
  | vldf (off : BitVec 8) (o : Orient) (g : GIx) (base : XIx) (d : VIx)
  /-- VLDW (R314): Loads a whole vector register as 8-byte words. -/
  | vldw (off : BitVec 8) (g : GIx) (base : XIx) (d : VIx)
  /-- VSTW (R314): Stores a whole vector register as 8-byte words. -/
  | vstw (off : BitVec 8) (g : GIx) (base : XIx) (d : VIx)
  /-- VAMOADD (R317): Vector atomic add per element, returning old values. -/
  | vamoadd (sc : AScope) (o : Order) (g : GIx) (base : XIx) (d : VIx)
  /-- VAMOMIN (R317): Vector atomic minimum per element. -/
  | vamomin (sc : AScope) (o : Order) (g : GIx) (base : XIx) (d : VIx)
  /-- VAMOMAX (R317): Vector atomic maximum per element. -/
  | vamomax (sc : AScope) (o : Order) (g : GIx) (base : XIx) (d : VIx)
  /-- VAMOAND (R317): Vector atomic AND per element. -/
  | vamoand (sc : AScope) (o : Order) (g : GIx) (base : XIx) (d : VIx)
  /-- VAMOOR (R317): Vector atomic OR per element. -/
  | vamoor (sc : AScope) (o : Order) (g : GIx) (base : XIx) (d : VIx)
  /-- VAMOXOR (R317): Vector atomic XOR per element. -/
  | vamoxor (sc : AScope) (o : Order) (g : GIx) (base : XIx) (d : VIx)
  /-- VAMOSWP (R317): Vector atomic swap per element. -/
  | vamoswp (sc : AScope) (o : Order) (g : GIx) (base : XIx) (d : VIx)
  /-- VAMOFADD (R317): Vector atomic floating add per element. -/
  | vamofadd (sc : AScope) (o : Order) (g : GIx) (base : XIx) (d : VIx)
  /-- KLD (R315): Loads the 256 bytes of a scale register. -/
  | kld (off : BitVec 8) (g : GIx) (base : XIx) (d : KIx)
  /-- KST (R315): Stores the 256 bytes of a scale register. -/
  | kst (off : BitVec 8) (g : GIx) (base : XIx) (d : KIx)
  /-- VPF (R316): Prefetches lines into the L1 with no architectural effect. -/
  | vpf (off : BitVec 8) (o : Orient) (g : GIx) (base : XIx)
  /-- SPLD (R320): Loads a vector register from the scratchpad under a walk descriptor. -/
  | spld (h : Hint) (d : VIx) (a b : XIx)
  /-- SPST (R320): Stores a vector register to the scratchpad under a walk descriptor. -/
  | spst (h : Hint) (d : VIx) (a b : XIx)
  /-- SXINS (R321): Inserts keys and values into the index scratchpad. -/
  | sxins (h : Hint) (d a b : VIx)
  /-- SXLKP (R321): Looks keys up in the index scratchpad. -/
  | sxlkp (h : Hint) (d a b : VIx)
  /-- SXACC (R321): Accumulates values into index-scratchpad entries, inserting absent keys. -/
  | sxacc (h : Hint) (d a b : VIx)
  /-- SXDRN (R321): Removes and returns the entries with the least keys in ascending order. -/
  | sxdrn (h : Hint) (d b : VIx)
  /-- SXCLR (R321): Invalidates every entry of the index-scratchpad grant. -/
  | sxclr (h : Hint)
  /-- MSHAPE (R324): Sets mrow, mcol and mdep. -/
  | mshape (depth : BitVec 4) (cols rows : BitVec 7)
  /-- MMA (R329): Issues a matrix multiply-accumulate into a D group under a chosen dataflow. -/
  | mma (h : Hint) (z : Bool) (df : Flow) (d : VIx) (a b : MatOp)
  /-- MMAS (R335): Issues a 2:4 structured-sparse matrix multiply-accumulate. -/
  | mmas (h : Hint) (z : Bool) (df : Flow) (d a : VIx) (b : MatOp)
  /-- MLAST (R336): Fills a sparse-metadata register group through a last. -/
  | mlast (h : Hint) (g : GIx) (d : VIx) (b : XIx)
  /-- XCP (R341): Checks and issues one copy command from eight scalar registers. -/
  | xcp (h : Hint) (a : XIx)
  /-- XCPM (R341): Issues a copy command with a follow-on matrix instruction. -/
  | xcpm (h : Hint) (a : XIx)
  /-- XCHAIN (R344): Issues a chain of copy-command records read from memory. -/
  | xchain (h : Hint) (g : GIx) (a : XIx)
  /-- XSTAT (R346): Reports outstanding counts and any pending command failure. -/
  | xstat (h : Hint) (d : XIx)
  /-- SPAWN (R351): Releases at device scope and pushes a tack record onto the region's ring. -/
  | spawn (h : Hint) (g : GIx) (a : XIx)
  /-- JOIN (R160): Decrements the parent's join counter and pushes the parent when it reaches zero. -/
  | join (h : Hint)
  /-- ENDT (R160): Ends the current tack and pops the next, idles, or retires the hart. -/
  | endt (h : Hint)
  /-- TACK_POP (R173): An idle hart waiting in ENDT pops a newly pushed tack. -/
  | tackPop (core slot : Nat)
  /-- WAITA_WAKE (R163): A sleeping hart wakes when its eyelet is written with the awaited value. -/
  | waitaWake (core slot : Nat)
  /-- BARRIER_DEPART (R350): Waiting participants depart once all have arrived, idled or retired, and acquire. -/
  | barrierDepart (core slot : Nat)
  /-- RING_FULL_DEADLOCK (R162): When every working hart waits on a full ring, the fault domain ends with fcause 0x13. -/
  | ringFullDeadlock (blk : Nat)
  /-- LOAD_COMPLETE (R308): A load's data arrives and its pending destination register is written. -/
  | loadComplete (core slot : Nat)
  /-- MATRIX_COMPLETE (R333): A retired matrix instruction writes its D group and accrues its flags. -/
  | matrixComplete (core slot : Nat)
  /-- FOLLOW_ON_ISSUE (R342): Once a command's operands land, its follow-on matrix instruction reaches the array. -/
  | followOnIssue (core slot : Nat)
  /-- FOLLOW_ON_COMPLETE (R147): A follow-on matrix instruction writes its D group or fails. -/
  | followOnComplete (core slot : Nat)
  /-- COPY_ACQUIRE (R143): A command with an acquire flag waits for older accesses and invalidates caches at its scope. -/
  | copyAcquire (core slot : Nat)
  /-- COPY_TRANSFER (R343): The engine checks and performs one element transfer of a command, failing the command on the first failure. -/
  | copyTransfer (core slot : Nat)
  /-- COPY_RELEASE (R143): After its last payload write a flagged command performs its release. -/
  | copyRelease (core slot : Nat)
  /-- EYELET_WRITE (R69): The engine writes the eyelet value, or its complement on failure, as one 64-bit write. -/
  | eyeletWrite (core slot : Nat)
  /-- CHAIN_RECORD_READ (R344): After a record's last stage, the engine reads the next chain record. -/
  | chainRecordRead (core slot : Nat)
  /-- WALK_COMPLETE (R81): A page-table walk ends with a result that fills the caches or fails the request. -/
  | walkComplete (core : Nat) (space : BitVec 16) (va : Nat)
  /-- PROBE_ACKNOWLEDGEMENT (R89): An acknowledged probe moves pending or replaying entries to acked. -/
  | probeAcknowledgement (core : Nat) (space : BitVec 16) (va : Nat)
  /-- PROBE_REFUSAL (R89): A refused probe moves its entries to faulted. -/
  | probeRefusal (core : Nat) (space : BitVec 16) (va : Nat)
  /-- FAULT_ENTRY_POST (R112): A tracked fault entry is posted to its die's host fault ring when room appears. -/
  | faultEntryPost (die : Nat)
  /-- STORE_BUFFER_DRAIN (R99): An acked entry whose older entries are free is written into the L1 and freed. -/
  | storeBufferDrain (core idx : Nat)
  /-- DEFERRED_STORE_TRAP (R102): A hart with a faulted entry takes trap 0x0C at its next boundary. -/
  | deferredStoreTrap (core slot : Nat)
  /-- CACHE_FILL (R46): A fill lands and merges under the dirty mask, setting the valid bit. -/
  | cacheFill (core : Nat)
  /-- EVICTION (R47): A cache evicts a slot or frame, writing back its dirty bytes. -/
  | eviction (level : Level) (unit : Nat) (space : BitVec 16) (addr : Nat)
  /-- WRITE_BACK_MERGE (R48): A write-back arriving at the next level is merged under its byte mask. -/
  | writeBackMerge (level : Level) (unit : Nat)
  /-- BYPASS_WRITE_ACK (R50): The home slice acknowledges a bypassing write. -/
  | bypassWriteAck (core : Nat)
  /-- NAME_RECALL (R92): A home die recalls a name record, clearing cf and dropping the page's lines. -/
  | nameRecall (die idx : Nat)
  /-- ECC_ERROR (R61): An error-correcting code corrects, discards or poisons a word on read. -/
  | eccError (place : EccPlace) (unit : Nat) (space : BitVec 16) (addr : Nat) (fixable : Bool)
  /-- FAULT_DOMAIN_END (R156): A fatal fault stops every hart of the domain and ends its regions in state 5. -/
  | faultDomainEnd (core slot : Nat)
  /-- LAUNCH_PACKET_TAKE (R168): The front end takes a packet, checks it and accepts or refuses it. -/
  | launchPacketTake (q : Nat)
  /-- LAUNCH_PLACEMENT (R170): A waiting launch is placed on cores once its whole placement is possible. -/
  | launchPlacement
  /-- LAUNCH_AGING (R171): A waiting launch's effective priority rises for each full 2^24 cycles waited. -/
  | launchAging (idx cycles : Nat)
  /-- PREEMPTION (R192): The front end stops a victim hart's issue and drains its retired work. -/
  | preemption (blk : Nat)
  /-- CONTEXT_SAVE (R194): After draining, the save engine writes the context and frees the slot. -/
  | contextSave (core slot : Nat)
  /-- CONTEXT_RESTORE (R196): A pre-empted hart is restored on its core and slot and resumes. -/
  | contextRestore (core slot : Nat)
  /-- REGION_RETIRE (R155): When nlive and nchild reach zero the region is released and enters its end state. -/
  | regionRetire (blk : Nat)
  /-- ARBITER_EPOCH (R177): At each 1,024-cycle epoch the current arbiter recomputes every core's grant. -/
  | arbiterEpoch (die : Nat) (demand : List Nat)
  /-- QUEUE_DOORBELL (R375): A host write of a host-fed tail rings the queue's doorbell, setting err on overrun. -/
  | queueDoorbell (q : Nat) (tail : BitVec 32)
  /-- QUEUE_HEAD_WRITE (R376): A host write of a device-fed head frees room and ends the outstanding interrupt. -/
  | queueHeadWrite (q : Nat) (head : BitVec 32)
  /-- QUEUE_ERR_CLEAR (R375): Writing one to err clears it. -/
  | queueErrClear (q : Nat)
  /-- QUEUE_ENABLE (R377): A write of en starts or stops the device's use of a queue. -/
  | queueEnable (q : Nat) (en : Bool)
  /-- REGISTER_WRITE (R374): A host write to a control-window register with no behaviour of its own. -/
  | registerWrite (off : Nat) (val : BitVec 64)
  /-- HOST_MEMORY_READ (R139): A host read through the memory window is performed at the home slice. -/
  | hostMemoryRead (off len : Nat)
  /-- HOST_MEMORY_WRITE (R139): A host posted write through the memory window is performed at the home slice. -/
  | hostMemoryWrite (off : Nat) (bytes : List Byte) (relaxed : Bool)
  /-- DEVICE_RESET (R385): Reset starts every die at 1.0 GHz awaiting a firmware image. -/
  | deviceReset
  /-- BOOT_DOORBELL (R385): The host writes the image length and verification begins. -/
  | bootDoorbell (len : Nat)
  /-- IMAGE_VERIFY_COMPLETE (R385): The boot ROM finishes checking the image, entering reduced service or halting. -/
  | imageVerifyComplete
  /-- GDDR_TRAINING_COMPLETE (R387): Training ends; the device stops taking work and waits for live regions to retire, or halts. -/
  | gddrTrainingComplete (ok : Bool)
  /-- FULL_SERVICE_CHANGE (R388): With no region live, the clock rises, the SRAM window is discarded and phase becomes 3. -/
  | fullServiceChange
  /-- LINK_BRINGUP (R390): The link ends verify each other's attestation and agree keys. -/
  | linkBringup (link : Nat)
  /-- LINK_FLIT_RECEIVE (R382): A flit arrives from a link; a failing one is resent. -/
  | linkFlitReceive (link : Nat) (ok : Bool)
  /-- PEER_REQUEST (R382): A request arriving from a peer is performed at the home slice. -/
  | peerRequest (req : PeerReq)
  /-- LINK_FAILURE (R382): A link goes down; requests move to other links or, with none left, fail. -/
  | linkFailure (link : Nat)
  /-- TARGET_ACKNOWLEDGEMENT (R122): The target of a non-idempotent or device-class access, or the host completer of host-window writes, acknowledges the access, so the next such access may be sent and a waiting release may complete. -/
  | targetAcknowledgement (core : Nat)
  /-- LOAD_OBJECT (R356): Command 0x01 checks and loads a code object, returning a handle. -/
  | loadObject
  /-- UNLOAD (R199): Command 0x02 unloads an object or returns busy with the holder count. -/
  | unload
  /-- RANGE_HOLD (R94): Command 0x03 performs the six-step shootdown of a virtual range. -/
  | rangeHold
  /-- RANGE_FREE (R94): Command 0x04 lets waiting walks, probes and enumerations proceed. -/
  | rangeFree
  /-- SPACE_UPDATE (R96): Command 0x05 drains, holds the whole space, writes its descriptor and frees it. -/
  | spaceUpdate
  /-- RESOLVE_RETRY (R113): Command 0x06 with retry resumes precise requesters and replays the page's store-buffer entries. -/
  | resolveRetry
  /-- RESOLVE_FAIL (R113): Command 0x06 with fail delivers every requester as a fatal fault and discards entries. -/
  | resolveFail
  /-- END_REGION (R380): Command 0x07 ends a region and its descendants in state 6. -/
  | endRegion
  /-- SET_SAVE_POOL (R198): Command 0x08 sets the save pool when no save area is allocated. -/
  | setSavePool
  /-- ATTEST (R389): Command 0x09 writes a signed attestation report over a nonce. -/
  | attest
  /-- PROTECT (R390): Command 0x0A encrypts later GDDR 7 writes of a range with AES-256-XTS. -/
  | protect
  deriving DecidableEq, Repr

end Sys2Proof
end

