-- ==== Sys2Proof/WellFormed.lean ====
section
/-! DEFINITION. Which instructions of the syntax are well formed: the pairing rules of the registers that an encoding
admits (spec 12 R233, R238 check 3; 15 R286; 17 R317, R319; 18 R328, R329, R336; 19 R341), and for the device's own
steps, unit numbers that exist (00 R2, 01 R11, 26 R375). -/

namespace Sys2Proof

/-- An even register number, where a pair is named (12 R238 check 3). -/
def evenNum {n : Nat} (r : BitVec n) : Bool := r.toNat % 2 == 0

/-- A hart of the device: core 0 to 383, slot 0 to 7 (01 R11). -/
def okHart (core slot : Nat) : Bool := decide (core < numCores) && decide (slot < numSlots)

/-- A unit number of a cache level: a core for the L1, a cluster for the L2, a die for the home slices. -/
def okUnit : Level → Nat → Bool
  | .l1, u => decide (u < numCores)
  | .l2, u => decide (u < numClusters)
  | .home, u => decide (u < numDies)

/-- A scratchpad tile of a matrix instruction names an even scalar pair (18 R328). -/
def MatOp.wf : MatOp → Bool
  | .reg _ => true
  | .sp x => evenNum x

/-- The well-formed instructions. -/
def Instr.wf : Instr → Bool
  | .add _ _ _ _ => true
  | .sub _ _ _ _ => true
  | .and _ _ _ _ => true
  | .or _ _ _ _ => true
  | .xor _ _ _ _ => true
  | .sll _ _ _ _ => true
  | .srl _ _ _ _ => true
  | .sra _ _ _ _ => true
  | .slt _ _ _ _ => true
  | .sltn _ _ _ _ => true
  | .min _ _ _ _ => true
  | .max _ _ _ _ => true
  | .minn _ _ _ _ => true
  | .maxn _ _ _ _ => true
  | .clz _ _ _ => true
  | .ctz _ _ _ => true
  | .popc _ _ _ => true
  | .mul _ _ _ _ => true
  | .mulh _ _ _ _ => true
  | .mulhn _ _ _ _ => true
  | .div _ _ _ _ => true
  | .divn _ _ _ _ => true
  | .rem _ _ _ _ => true
  | .remn _ _ _ _ => true
  | .addi _ _ _ => true
  | .andi _ _ _ => true
  | .ori _ _ _ => true
  | .xori _ _ _ => true
  | .slti _ _ _ => true
  | .sltin _ _ _ => true
  | .slli _ _ _ => true
  | .srli _ _ _ => true
  | .srai _ _ _ => true
  | .lih _ _ => true
  | .addpc _ _ => true
  | .ldb _ _ _ _ _ => true
  | .ldh _ _ _ _ _ => true
  | .ldw _ _ _ _ _ => true
  | .ldd _ _ _ _ _ => true
  | .ldbn _ _ _ _ _ => true
  | .ldhn _ _ _ _ _ => true
  | .ldwn _ _ _ _ _ => true
  | .stb _ _ _ _ _ => true
  | .sth _ _ _ _ _ => true
  | .stw _ _ _ _ _ => true
  | .std _ _ _ _ _ => true
  | .amoadd _ _ _ _ => true
  | .amoand _ _ _ _ => true
  | .amoor _ _ _ _ => true
  | .amoxor _ _ _ _ => true
  | .amomin _ _ _ _ => true
  | .amomax _ _ _ _ => true
  | .amominn _ _ _ _ => true
  | .amomaxn _ _ _ _ => true
  | .amoswp _ _ _ _ => true
  | .amocas _ _ _ d => evenNum d
  | .amofadd _ _ _ _ => true
  | .beq _ _ _ => true
  | .bne _ _ _ => true
  | .blt _ _ _ => true
  | .bge _ _ _ => true
  | .bltn _ _ _ => true
  | .bgen _ _ _ => true
  | .jal _ _ => true
  | .jalr _ _ _ => true
  | .mfc _ _ => true
  | .mtc _ _ => true
  | .mfg _ _ _ _ => true
  | .mtg _ _ _ _ => true
  | .trap _ => true
  | .brk _ => true
  | .rts _ => true
  | .fence _ _ _ => true
  | .waitc _ _ _ _ => true
  | .waita _ _ _ _ => true
  | .waitaAny _ _ _ _ => true
  | .bar _ _ => true
  | .vsetl _ _ _ _ => true
  | .vtag _ _ => true
  | .vand _ _ _ _ => true
  | .vor _ _ _ _ => true
  | .vxor _ _ _ _ => true
  | .vnot _ _ _ => true
  | .vshl _ _ _ _ => true
  | .vshr _ _ _ _ => true
  | .vshra _ _ _ _ => true
  | .vwsl _ _ _ _ => true
  | .vwsr _ _ _ _ => true
  | .vfsl _ _ _ _ => true
  | .vfsr _ _ _ _ => true
  | .vsel _ _ _ _ => true
  | .vmov _ _ _ => true
  | .vsplat _ _ _ => true
  | .vmvx _ _ _ _ => true
  | .vmxv _ _ _ _ => true
  | .vslu _ _ _ b => evenNum b
  | .vsld _ _ _ b => evenNum b
  | .vperm _ _ _ _ => true
  | .vrev _ _ _ => true
  | .vmcnt _ _ _ => true
  | .vmfst _ _ _ => true
  | .vrand _ _ _ => true
  | .vror _ _ _ => true
  | .vrxor _ _ _ => true
  | .vidx _ _ _ => true
  | .vcmp _ _ _ _ _ => true
  | .vbany _ _ => true
  | .vbnone _ _ => true
  | .vadd _ _ _ _ _ => true
  | .vsub _ _ _ _ _ => true
  | .vrsub _ _ _ _ _ => true
  | .vmul _ _ _ _ _ => true
  | .vmulh _ _ _ _ _ => true
  | .vdiv _ _ _ _ _ => true
  | .vrem _ _ _ _ _ => true
  | .vmin _ _ _ _ _ => true
  | .vmax _ _ _ _ _ => true
  | .vabs _ _ _ _ => true
  | .vneg _ _ _ _ => true
  | .vfma _ _ _ _ _ => true
  | .vfms _ _ _ _ _ => true
  | .vfnma _ _ _ _ _ => true
  | .vfnms _ _ _ _ _ => true
  | .vsqrt _ _ _ _ => true
  | .vrcp _ _ _ _ => true
  | .vrsq _ _ _ _ => true
  | .vexp2 _ _ _ _ => true
  | .vlog2 _ _ _ _ => true
  | .vsin _ _ _ _ => true
  | .vcos _ _ _ _ => true
  | .vtanh _ _ _ _ => true
  | .vrsum _ _ _ _ => true
  | .vrmin _ _ _ _ => true
  | .vrmax _ _ _ _ => true
  | .vrdot _ _ _ _ _ => true
  | .vunpk _ _ _ _ => true
  | .vpkb _ _ _ _ => true
  | .vlut _ _ _ _ => true
  | .vexpd _ _ _ => true
  | .vcmpr _ _ _ => true
  | .kmov _ _ => true
  | .vcvt _ _ _ _ => true
  | .vqmx _ _ _ _ => true
  | .vdqmx _ _ _ _ _ _ => true
  | .vqef _ _ _ _ _ => true
  | .vld _ _ _ _ _ => true
  | .vst _ _ _ _ _ => true
  | .vlds _ _ _ _ _ => true
  | .vsts _ _ _ _ _ => true
  | .vld2 _ _ _ _ _ => true
  | .vst2 _ _ _ _ _ => true
  | .vldx _ _ _ _ _ => true
  | .vstx _ _ _ _ _ => true
  | .vldf _ _ _ _ _ => true
  | .vldw _ _ _ _ => true
  | .vstw _ _ _ _ => true
  | .vamoadd _ _ _ _ d => evenNum d
  | .vamomin _ _ _ _ d => evenNum d
  | .vamomax _ _ _ _ d => evenNum d
  | .vamoand _ _ _ _ d => evenNum d
  | .vamoor _ _ _ _ d => evenNum d
  | .vamoxor _ _ _ _ d => evenNum d
  | .vamoswp _ _ _ _ d => evenNum d
  | .vamofadd _ _ _ _ d => evenNum d
  | .kld _ _ _ _ => true
  | .kst _ _ _ _ => true
  | .vpf _ _ _ _ => true
  | .spld _ _ a _ => evenNum a
  | .spst _ _ a _ => evenNum a
  | .sxins _ _ _ _ => true
  | .sxlkp _ _ _ _ => true
  | .sxacc _ _ _ _ => true
  | .sxdrn _ _ _ => true
  | .sxclr _ => true
  | .mshape _ _ _ => true
  | .mma _ _ _ _ a b => a.wf && b.wf
  | .mmas _ _ _ _ _ b => b.wf
  | .mlast _ _ _ b => evenNum b
  | .xcp _ a => a.toNat % 8 == 0
  | .xcpm _ a => a.toNat % 8 == 0
  | .xchain _ _ _ => true
  | .xstat _ _ => true
  | .spawn _ _ _ => true
  | .join _ => true
  | .endt _ => true
  | .tackPop core slot => okHart core slot
  | .waitaWake core slot => okHart core slot
  | .barrierDepart core slot => okHart core slot
  | .ringFullDeadlock _ => true
  | .loadComplete core slot => okHart core slot
  | .matrixComplete core slot => okHart core slot
  | .followOnIssue core slot => okHart core slot
  | .followOnComplete core slot => okHart core slot
  | .copyAcquire core slot => okHart core slot
  | .copyTransfer core slot => okHart core slot
  | .copyRelease core slot => okHart core slot
  | .eyeletWrite core slot => okHart core slot
  | .chainRecordRead core slot => okHart core slot
  | .walkComplete core _ _ => decide (core < numCores)
  | .probeAcknowledgement core _ _ => decide (core < numCores)
  | .probeRefusal core _ _ => decide (core < numCores)
  | .faultEntryPost die => decide (die < numDies)
  | .storeBufferDrain core _ => decide (core < numCores)
  | .deferredStoreTrap core slot => okHart core slot
  | .cacheFill core => decide (core < numCores)
  | .eviction level unit _ _ => okUnit level unit
  | .writeBackMerge level unit => okUnit level unit
  | .bypassWriteAck core => decide (core < numCores)
  | .nameRecall die _ => decide (die < numDies)
  | .eccError _ _ _ _ _ => true
  | .faultDomainEnd core slot => okHart core slot
  | .launchPacketTake q => decide (q < 16)
  | .launchPlacement => true
  | .launchAging _ _ => true
  | .preemption _ => true
  | .contextSave core slot => okHart core slot
  | .contextRestore core slot => okHart core slot
  | .regionRetire _ => true
  | .arbiterEpoch die _ => decide (die < numDies)
  | .queueDoorbell q _ => decide (q < numQueues)
  | .queueHeadWrite q _ => decide (q < numQueues)
  | .queueErrClear q => decide (q < numQueues)
  | .queueEnable q _ => decide (q < numQueues)
  | .registerWrite _ _ => true
  | .hostMemoryRead _ _ => true
  | .hostMemoryWrite _ _ _ => true
  | .loadObject => true
  | .unload => true
  | .rangeHold => true
  | .rangeFree => true
  | .spaceUpdate => true
  | .resolveRetry => true
  | .resolveFail => true
  | .endRegion => true
  | .setSavePool => true
  | .attest => true
  | .protect => true
  | .deviceReset => true
  | .bootDoorbell _ => true
  | .imageVerifyComplete => true
  | .gddrTrainingComplete _ => true
  | .fullServiceChange => true
  | .linkBringup link => decide (link < numLinks)
  | .linkFlitReceive link _ => decide (link < numLinks)
  | .peerRequest _ => true
  | .linkFailure link => decide (link < numLinks)
  | .targetAcknowledgement core => decide (core < numCores)

end Sys2Proof
end

