-- ==== Sys2Proof/Decode.lean ====
section
/-! DEFINITION. From a 32-bit word to an instruction and back (spec 12 R231 to R238). `decode` makes checks 1 to 4 of
R238 and names the first that fails; checks 5 and 6 belong to the instruction's meaning. `encode` is written from the
same tables. The rows that are steps of the device have no word. -/

namespace Sys2Proof

/-- Which of checks 1 to 4 of R238 refuses a word. -/
inductive DecodeError where
  | majorUnassigned
  | functionUnassigned
  | fieldMustBeZero
  | fieldUndefined
  deriving DecidableEq, Repr

/-- The result of decoding one word. -/
abbrev DecodeResult := Except DecodeError Instr

/-! ### Fields of a word, numbered as in R231 -/

/-- Bits [hi:lo] of a word, as a number. -/
def wordField (w hi lo : Nat) : Nat := w / 2 ^ lo % 2 ^ (hi + 1 - lo)

/-- Field D, bits [12:7]. -/
def fieldD (w : Nat) : Nat := wordField w 12 7

/-- Field A, bits [18:13]. -/
def fieldA (w : Nat) : Nat := wordField w 18 13

/-- Field B, bits [24:19]. -/
def fieldB (w : Nat) : Nat := wordField w 24 19

/-- Field F, bits [29:25]. -/
def fieldF (w : Nat) : Nat := wordField w 29 25

/-- Field H, bits [31:30]. -/
def fieldH (w : Nat) : Hint := BitVec.ofNat 2 (wordField w 31 30)

/-- The vector register in a field of 6 bits. -/
def vreg (n : Nat) : VIx := BitVec.ofNat 6 n

/-- A scalar register field must have bit 5 clear (R238 check 3). -/
def xreg (n : Nat) : Except DecodeError XIx :=
  if n < 32 then .ok (BitVec.ofNat 5 n) else .error .fieldMustBeZero

/-- A k or g field must be below 16 (R238 check 3). -/
def kreg (n : Nat) : Except DecodeError (BitVec 4) :=
  if n < 16 then .ok (BitVec.ofNat 4 n) else .error .fieldMustBeZero

/-- A scalar register that names a pair must be even (R238 check 3). -/
def xpair (n : Nat) : Except DecodeError XIx :=
  if n < 32 && n % 2 == 0 then .ok (BitVec.ofNat 5 n) else .error .fieldMustBeZero

/-- A field that must be zero (R238 check 3). -/
def mustBeZero (n : Nat) : Except DecodeError Unit :=
  if n = 0 then .ok () else .error .fieldMustBeZero

/-- Orientation field O of a form that is not indexed: 10 and 11 are never defined (R238 check 4). -/
def orientOf (n : Nat) : Except DecodeError Orient :=
  if n = 0 then .ok .row else if n = 1 then .ok .col else .error .fieldUndefined

/-- Order field O of an indexed form (R312). -/
def orderOf (n : Nat) : Except DecodeError Order :=
  if n = 0 then .ok .ord else if n = 1 then .ok .any else .error .fieldUndefined

/-- A row-only form: any other O is not defined for it (R29, R238 check 4). -/
def rowOnly (n : Nat) : Except DecodeError Unit :=
  if n = 0 then .ok () else .error .fieldUndefined

/-- The five-scope code of FENCE and BAR (R235). -/
def scopeOf : Nat → Except DecodeError Scope
  | 0 => .ok .h
  | 1 => .ok .c
  | 2 => .ok .k
  | 3 => .ok .d
  | 4 => .ok .s
  | _ => .error .fieldUndefined

/-- The two-bit scope code of an atomic (R233). -/
def ascopeOf : Nat → AScope
  | 0 => .c
  | 1 => .k
  | 2 => .d
  | _ => .s

/-- The FENCE kind (R235); 00 is not defined (R238 check 4). -/
def fenceKindOf : Nat → Except DecodeError FenceKind
  | 1 => .ok .rel
  | 2 => .ok .acq
  | 3 => .ok .ar
  | _ => .error .fieldUndefined

/-- The dataflow field df (R330); 11 is not defined (R238 check 4). -/
def flowOf : Nat → Except DecodeError Flow
  | 0 => .ok .ip
  | 1 => .ok .op
  | 2 => .ok .rw
  | _ => .error .fieldUndefined

/-- The rounding code (R236). -/
def rcodeOf : Nat → RCode
  | 0 => .rne
  | 1 => .rtz
  | 2 => .rdn
  | 3 => .rup
  | 4 => .rto
  | 5 => .sr
  | _ => .frm

/-- The condition codes of VCMP (R234). -/
def condOf : Nat → Except DecodeError Cond
  | 0 => .ok .eq
  | 1 => .ok .ne
  | 2 => .ok .lt
  | 3 => .ok .le
  | 4 => .ok .gt
  | 5 => .ok .ge
  | 6 => .ok .uo
  | 7 => .ok .or
  | _ => .error .functionUnassigned

/-- The control-register numbers (R228); the others are not assigned. -/
def cregOf : Nat → Except DecodeError CReg
  | 0 => .ok .vl
  | 1 => .ok .vm
  | 2 => .ok .vs
  | 3 => .ok .vt
  | 4 => .ok .vstart
  | 5 => .ok .vrep
  | 6 => .ok .vsr
  | 7 => .ok .frm
  | 8 => .ok .fflags
  | 9 => .ok .mrow
  | 10 => .ok .mcol
  | 11 => .ok .mdep
  | 12 => .ok .bthr
  | 16 => .ok .lpart
  | 17 => .ok .hartid
  | 18 => .ok .regionid
  | 19 => .ok .cyc
  | 24 => .ok .tcause
  | 25 => .ok .tepc
  | 26 => .ok .tval
  | 27 => .ok .tvec
  | 28 => .ok .tstat
  | _ => .error .fieldMustBeZero

/-- Which half a bit selects. -/
def halfOf (n : Nat) : Half := if n = 0 then .lo else .hi

/-- A matrix operand: with the sp bit set, the field names an even scalar pair (R328). -/
def matOpOf (sp n : Nat) : Except DecodeError MatOp :=
  if sp = 0 then .ok (.reg (vreg n)) else (xpair n).map .sp

/-- Major 0x01: the register forms (R255). -/
def decodeScalar (w : Nat) : DecodeResult :=
  match fieldF w with
  | 0 => do let d ← xreg (fieldD w); let a ← xreg (fieldA w); let b ← xreg (fieldB w); pure (.add (fieldH w) d a b)
  | 1 => do let d ← xreg (fieldD w); let a ← xreg (fieldA w); let b ← xreg (fieldB w); pure (.sub (fieldH w) d a b)
  | 2 => do let d ← xreg (fieldD w); let a ← xreg (fieldA w); let b ← xreg (fieldB w); pure (.and (fieldH w) d a b)
  | 3 => do let d ← xreg (fieldD w); let a ← xreg (fieldA w); let b ← xreg (fieldB w); pure (.or (fieldH w) d a b)
  | 4 => do let d ← xreg (fieldD w); let a ← xreg (fieldA w); let b ← xreg (fieldB w); pure (.xor (fieldH w) d a b)
  | 5 => do let d ← xreg (fieldD w); let a ← xreg (fieldA w); let b ← xreg (fieldB w); pure (.sll (fieldH w) d a b)
  | 6 => do let d ← xreg (fieldD w); let a ← xreg (fieldA w); let b ← xreg (fieldB w); pure (.srl (fieldH w) d a b)
  | 7 => do let d ← xreg (fieldD w); let a ← xreg (fieldA w); let b ← xreg (fieldB w); pure (.sra (fieldH w) d a b)
  | 8 => do let d ← xreg (fieldD w); let a ← xreg (fieldA w); let b ← xreg (fieldB w); pure (.slt (fieldH w) d a b)
  | 9 => do let d ← xreg (fieldD w); let a ← xreg (fieldA w); let b ← xreg (fieldB w); pure (.sltn (fieldH w) d a b)
  | 10 => do let d ← xreg (fieldD w); let a ← xreg (fieldA w); let b ← xreg (fieldB w); pure (.min (fieldH w) d a b)
  | 11 => do let d ← xreg (fieldD w); let a ← xreg (fieldA w); let b ← xreg (fieldB w); pure (.max (fieldH w) d a b)
  | 12 => do let d ← xreg (fieldD w); let a ← xreg (fieldA w); let b ← xreg (fieldB w); pure (.minn (fieldH w) d a b)
  | 13 => do let d ← xreg (fieldD w); let a ← xreg (fieldA w); let b ← xreg (fieldB w); pure (.maxn (fieldH w) d a b)
  | 14 => do let d ← xreg (fieldD w); let a ← xreg (fieldA w); mustBeZero (fieldB w); pure (.clz (fieldH w) d a)
  | 15 => do let d ← xreg (fieldD w); let a ← xreg (fieldA w); mustBeZero (fieldB w); pure (.ctz (fieldH w) d a)
  | 16 => do let d ← xreg (fieldD w); let a ← xreg (fieldA w); mustBeZero (fieldB w); pure (.popc (fieldH w) d a)
  | 17 => do let d ← xreg (fieldD w); let a ← xreg (fieldA w); let b ← xreg (fieldB w); pure (.mul (fieldH w) d a b)
  | 18 => do let d ← xreg (fieldD w); let a ← xreg (fieldA w); let b ← xreg (fieldB w); pure (.mulh (fieldH w) d a b)
  | 19 => do let d ← xreg (fieldD w); let a ← xreg (fieldA w); let b ← xreg (fieldB w); pure (.mulhn (fieldH w) d a b)
  | 20 => do let d ← xreg (fieldD w); let a ← xreg (fieldA w); let b ← xreg (fieldB w); pure (.div (fieldH w) d a b)
  | 21 => do let d ← xreg (fieldD w); let a ← xreg (fieldA w); let b ← xreg (fieldB w); pure (.divn (fieldH w) d a b)
  | 22 => do let d ← xreg (fieldD w); let a ← xreg (fieldA w); let b ← xreg (fieldB w); pure (.rem (fieldH w) d a b)
  | 23 => do let d ← xreg (fieldD w); let a ← xreg (fieldA w); let b ← xreg (fieldB w); pure (.remn (fieldH w) d a b)
  | _ => .error .functionUnassigned

/-- Major 0x2B: TRAP, BRK, RTS (R270). -/
def decodeTrap (w : Nat) : DecodeResult :=
  match fieldF w with
  | 0 => do mustBeZero (fieldD w); mustBeZero (fieldA w); mustBeZero (fieldB w); pure (.trap (fieldH w))
  | 1 => do mustBeZero (fieldD w); mustBeZero (fieldA w); mustBeZero (fieldB w); pure (.brk (fieldH w))
  | 2 => do mustBeZero (fieldD w); mustBeZero (fieldA w); mustBeZero (fieldB w); pure (.rts (fieldH w))
  | _ => .error .functionUnassigned

/-- Major 0x2E: WAITA (R348). -/
def decodeWaita (w : Nat) : DecodeResult :=
  match fieldF w with
  | 0 => do let d ← xreg (fieldD w); let a ← xreg (fieldA w); let b ← xreg (fieldB w); pure (.waita (fieldH w) d a b)
  | 1 => do let d ← xreg (fieldD w); let a ← xreg (fieldA w); let b ← xreg (fieldB w); pure (.waitaAny (fieldH w) d a b)
  | _ => .error .functionUnassigned

/-- Major 0x30: VSETL (R274). -/
def decodeVsetl (w : Nat) : DecodeResult :=
  match fieldF w with
  | 0 => do let d ← xreg (fieldD w); let a ← xreg (fieldA w); pure (.vsetl (fieldH w) d a (vreg (fieldB w)))
  | _ => .error .functionUnassigned

/-- Major 0x32: logic, shifts, moves, slides, permutes, masks (R280 to R289). -/
def decodeLogic (w : Nat) : DecodeResult :=
  match fieldF w with
  | 0 => pure (.vand (fieldH w) (vreg (fieldD w)) (vreg (fieldA w)) (vreg (fieldB w)))
  | 1 => pure (.vor (fieldH w) (vreg (fieldD w)) (vreg (fieldA w)) (vreg (fieldB w)))
  | 2 => pure (.vxor (fieldH w) (vreg (fieldD w)) (vreg (fieldA w)) (vreg (fieldB w)))
  | 3 => do mustBeZero (fieldB w); pure (.vnot (fieldH w) (vreg (fieldD w)) (vreg (fieldA w)))
  | 4 => pure (.vshl (fieldH w) (vreg (fieldD w)) (vreg (fieldA w)) (vreg (fieldB w)))
  | 5 => pure (.vshr (fieldH w) (vreg (fieldD w)) (vreg (fieldA w)) (vreg (fieldB w)))
  | 6 => pure (.vshra (fieldH w) (vreg (fieldD w)) (vreg (fieldA w)) (vreg (fieldB w)))
  | 7 => do let b ← xreg (fieldB w); pure (.vwsl (fieldH w) (vreg (fieldD w)) (vreg (fieldA w)) b)
  | 8 => do let b ← xreg (fieldB w); pure (.vwsr (fieldH w) (vreg (fieldD w)) (vreg (fieldA w)) b)
  | 9 => do let b ← xreg (fieldB w); pure (.vfsl (fieldH w) (vreg (fieldD w)) (vreg (fieldA w)) b)
  | 10 => do let b ← xreg (fieldB w); pure (.vfsr (fieldH w) (vreg (fieldD w)) (vreg (fieldA w)) b)
  | 11 => pure (.vsel (fieldH w) (vreg (fieldD w)) (vreg (fieldA w)) (vreg (fieldB w)))
  | 12 => do mustBeZero (fieldB w); pure (.vmov (fieldH w) (vreg (fieldD w)) (vreg (fieldA w)))
  | 13 => do let a ← xreg (fieldA w); mustBeZero (fieldB w); pure (.vsplat (fieldH w) (vreg (fieldD w)) a)
  | 14 => do let d ← xreg (fieldD w); let b ← xreg (fieldB w); pure (.vmvx (fieldH w) d (vreg (fieldA w)) b)
  | 15 => do let a ← xreg (fieldA w); let b ← xreg (fieldB w); pure (.vmxv (fieldH w) (vreg (fieldD w)) a b)
  | 16 => do let b ← xpair (fieldB w); pure (.vslu (fieldH w) (vreg (fieldD w)) (vreg (fieldA w)) b)
  | 17 => do let b ← xpair (fieldB w); pure (.vsld (fieldH w) (vreg (fieldD w)) (vreg (fieldA w)) b)
  | 18 => pure (.vperm (fieldH w) (vreg (fieldD w)) (vreg (fieldA w)) (vreg (fieldB w)))
  | 19 => do mustBeZero (fieldB w); pure (.vrev (fieldH w) (vreg (fieldD w)) (vreg (fieldA w)))
  | 20 => do let d ← xreg (fieldD w); mustBeZero (fieldB w); pure (.vmcnt (fieldH w) d (vreg (fieldA w)))
  | 21 => do let d ← xreg (fieldD w); mustBeZero (fieldB w); pure (.vmfst (fieldH w) d (vreg (fieldA w)))
  | 22 => do mustBeZero (fieldB w); pure (.vrand (fieldH w) (vreg (fieldD w)) (vreg (fieldA w)))
  | 23 => do mustBeZero (fieldB w); pure (.vror (fieldH w) (vreg (fieldD w)) (vreg (fieldA w)))
  | 24 => do mustBeZero (fieldB w); pure (.vrxor (fieldH w) (vreg (fieldD w)) (vreg (fieldA w)))
  | _ => .error .functionUnassigned

/-- Majors 0x38 to 0x3E: the rounding arithmetic forms (R276 to R288). -/
def decodeArith (w : Nat) : DecodeResult :=
  match fieldF w with
  | 0 => pure (.vadd (fieldH w) (rcodeOf (w % 8)) (vreg (fieldD w)) (vreg (fieldA w)) (vreg (fieldB w)))
  | 1 => pure (.vsub (fieldH w) (rcodeOf (w % 8)) (vreg (fieldD w)) (vreg (fieldA w)) (vreg (fieldB w)))
  | 2 => pure (.vrsub (fieldH w) (rcodeOf (w % 8)) (vreg (fieldD w)) (vreg (fieldA w)) (vreg (fieldB w)))
  | 3 => pure (.vmul (fieldH w) (rcodeOf (w % 8)) (vreg (fieldD w)) (vreg (fieldA w)) (vreg (fieldB w)))
  | 4 => pure (.vmulh (fieldH w) (rcodeOf (w % 8)) (vreg (fieldD w)) (vreg (fieldA w)) (vreg (fieldB w)))
  | 5 => pure (.vdiv (fieldH w) (rcodeOf (w % 8)) (vreg (fieldD w)) (vreg (fieldA w)) (vreg (fieldB w)))
  | 6 => pure (.vrem (fieldH w) (rcodeOf (w % 8)) (vreg (fieldD w)) (vreg (fieldA w)) (vreg (fieldB w)))
  | 7 => pure (.vmin (fieldH w) (rcodeOf (w % 8)) (vreg (fieldD w)) (vreg (fieldA w)) (vreg (fieldB w)))
  | 8 => pure (.vmax (fieldH w) (rcodeOf (w % 8)) (vreg (fieldD w)) (vreg (fieldA w)) (vreg (fieldB w)))
  | 9 => do mustBeZero (fieldB w); pure (.vabs (fieldH w) (rcodeOf (w % 8)) (vreg (fieldD w)) (vreg (fieldA w)))
  | 10 => do mustBeZero (fieldB w); pure (.vneg (fieldH w) (rcodeOf (w % 8)) (vreg (fieldD w)) (vreg (fieldA w)))
  | 11 => pure (.vfma (fieldH w) (rcodeOf (w % 8)) (vreg (fieldD w)) (vreg (fieldA w)) (vreg (fieldB w)))
  | 12 => pure (.vfms (fieldH w) (rcodeOf (w % 8)) (vreg (fieldD w)) (vreg (fieldA w)) (vreg (fieldB w)))
  | 13 => pure (.vfnma (fieldH w) (rcodeOf (w % 8)) (vreg (fieldD w)) (vreg (fieldA w)) (vreg (fieldB w)))
  | 14 => pure (.vfnms (fieldH w) (rcodeOf (w % 8)) (vreg (fieldD w)) (vreg (fieldA w)) (vreg (fieldB w)))
  | 15 => do mustBeZero (fieldB w); pure (.vsqrt (fieldH w) (rcodeOf (w % 8)) (vreg (fieldD w)) (vreg (fieldA w)))
  | 16 => do mustBeZero (fieldB w); pure (.vrcp (fieldH w) (rcodeOf (w % 8)) (vreg (fieldD w)) (vreg (fieldA w)))
  | 17 => do mustBeZero (fieldB w); pure (.vrsq (fieldH w) (rcodeOf (w % 8)) (vreg (fieldD w)) (vreg (fieldA w)))
  | 18 => do mustBeZero (fieldB w); pure (.vexp2 (fieldH w) (rcodeOf (w % 8)) (vreg (fieldD w)) (vreg (fieldA w)))
  | 19 => do mustBeZero (fieldB w); pure (.vlog2 (fieldH w) (rcodeOf (w % 8)) (vreg (fieldD w)) (vreg (fieldA w)))
  | 20 => do mustBeZero (fieldB w); pure (.vsin (fieldH w) (rcodeOf (w % 8)) (vreg (fieldD w)) (vreg (fieldA w)))
  | 21 => do mustBeZero (fieldB w); pure (.vcos (fieldH w) (rcodeOf (w % 8)) (vreg (fieldD w)) (vreg (fieldA w)))
  | 22 => do mustBeZero (fieldB w); pure (.vtanh (fieldH w) (rcodeOf (w % 8)) (vreg (fieldD w)) (vreg (fieldA w)))
  | 23 => do mustBeZero (fieldB w); pure (.vrsum (fieldH w) (rcodeOf (w % 8)) (vreg (fieldD w)) (vreg (fieldA w)))
  | 24 => do mustBeZero (fieldB w); pure (.vrmin (fieldH w) (rcodeOf (w % 8)) (vreg (fieldD w)) (vreg (fieldA w)))
  | 25 => do mustBeZero (fieldB w); pure (.vrmax (fieldH w) (rcodeOf (w % 8)) (vreg (fieldD w)) (vreg (fieldA w)))
  | 26 => pure (.vrdot (fieldH w) (rcodeOf (w % 8)) (vreg (fieldD w)) (vreg (fieldA w)) (vreg (fieldB w)))
  | _ => .error .functionUnassigned

/-- Major 0x40: bit fields, tables, expand and compress, scale moves (R299 to R303). -/
def decodeTransform (w : Nat) : DecodeResult :=
  match fieldF w with
  | 0 => do let b ← xreg (fieldB w); pure (.vunpk (fieldH w) (vreg (fieldD w)) (vreg (fieldA w)) b)
  | 1 => do let b ← xreg (fieldB w); pure (.vpkb (fieldH w) (vreg (fieldD w)) (vreg (fieldA w)) b)
  | 2 => pure (.vlut (fieldH w) (vreg (fieldD w)) (vreg (fieldA w)) (vreg (fieldB w)))
  | 3 => do mustBeZero (fieldB w); pure (.vexpd (fieldH w) (vreg (fieldD w)) (vreg (fieldA w)))
  | 4 => do mustBeZero (fieldB w); pure (.vcmpr (fieldH w) (vreg (fieldD w)) (vreg (fieldA w)))
  | 5 => do
      let m := BitVec.ofNat 2 (fieldB w / 4 % 4)
      mustBeZero (fieldB w / 16)
      match fieldB w % 4 with
      | 0 => do mustBeZero (fieldB w / 4 % 4); let d ← kreg (fieldD w); let a ← kreg (fieldA w); pure (.kmov (fieldH w) (.kk d a))
      | 1 => do let a ← kreg (fieldA w); pure (.kmov (fieldH w) (.vk (vreg (fieldD w)) a m))
      | 2 => do let d ← kreg (fieldD w); pure (.kmov (fieldH w) (.kv d (vreg (fieldA w)) m))
      | _ => .error .fieldMustBeZero
  | _ => .error .functionUnassigned

/-- Majors 0x48 to 0x4E: conversion and quantisation (R294 to R298). -/
def decodeConvert (w : Nat) : DecodeResult :=
  match fieldF w with
  | 0 => do mustBeZero (fieldB w); pure (.vcvt (fieldH w) (rcodeOf (w % 8)) (vreg (fieldD w)) (vreg (fieldA w)))
  | 1 => do mustBeZero (fieldB w); pure (.vqmx (fieldH w) (rcodeOf (w % 8)) (vreg (fieldD w)) (vreg (fieldA w)))
  | 2 => do mustBeZero (fieldB w / 32); pure (.vdqmx (fieldH w) (rcodeOf (w % 8)) (vreg (fieldD w)) (vreg (fieldA w)) (BitVec.ofNat 4 (fieldB w % 16)) (halfOf (fieldB w / 16)))
  | 3 => pure (.vqef (fieldH w) (rcodeOf (w % 8)) (vreg (fieldD w)) (vreg (fieldA w)) (vreg (fieldB w)))
  | _ => .error .functionUnassigned

/-- Major 0x5F: scratchpad and index scratchpad (R319 to R322). -/
def decodeScratch (w : Nat) : DecodeResult :=
  match fieldF w with
  | 0 => do let a ← xpair (fieldA w); let b ← xreg (fieldB w); pure (.spld (fieldH w) (vreg (fieldD w)) a b)
  | 1 => do let a ← xpair (fieldA w); let b ← xreg (fieldB w); pure (.spst (fieldH w) (vreg (fieldD w)) a b)
  | 2 => pure (.sxins (fieldH w) (vreg (fieldD w)) (vreg (fieldA w)) (vreg (fieldB w)))
  | 3 => pure (.sxlkp (fieldH w) (vreg (fieldD w)) (vreg (fieldA w)) (vreg (fieldB w)))
  | 4 => pure (.sxacc (fieldH w) (vreg (fieldD w)) (vreg (fieldA w)) (vreg (fieldB w)))
  | 5 => do mustBeZero (fieldA w); pure (.sxdrn (fieldH w) (vreg (fieldD w)) (vreg (fieldB w)))
  | 6 => do mustBeZero (fieldD w); mustBeZero (fieldA w); mustBeZero (fieldB w); pure (.sxclr (fieldH w))
  | _ => .error .functionUnassigned

/-- Major 0x63: MLAST (R336). -/
def decodeMlast (w : Nat) : DecodeResult :=
  match fieldF w with
  | 0 => do mustBeZero (fieldA w / 16); let b ← xpair (fieldB w); pure (.mlast (fieldH w) (BitVec.ofNat 4 (fieldA w)) (vreg (fieldD w)) b)
  | _ => .error .functionUnassigned

/-- Major 0x68: the copy engine (R341, R346). -/
def decodeEngine (w : Nat) : DecodeResult :=
  match fieldF w with
  | 0 => do mustBeZero (fieldD w); mustBeZero (fieldB w); mustBeZero (fieldA w % 8); let a ← xreg (fieldA w); pure (.xcp (fieldH w) a)
  | 1 => do mustBeZero (fieldD w); mustBeZero (fieldB w); mustBeZero (fieldA w % 8); let a ← xreg (fieldA w); pure (.xcpm (fieldH w) a)
  | 2 => do mustBeZero (fieldD w); let a ← xreg (fieldA w); let g ← kreg (fieldB w); pure (.xchain (fieldH w) g a)
  | 3 => do let d ← xreg (fieldD w); mustBeZero (fieldA w); mustBeZero (fieldB w); pure (.xstat (fieldH w) d)
  | _ => .error .functionUnassigned

/-- Major 0x69: tacks (R351). -/
def decodeTack (w : Nat) : DecodeResult :=
  match fieldF w with
  | 0 => do mustBeZero (fieldD w); let a ← xreg (fieldA w); let g ← kreg (fieldB w); pure (.spawn (fieldH w) g a)
  | 1 => do mustBeZero (fieldD w); mustBeZero (fieldA w); mustBeZero (fieldB w); pure (.join (fieldH w))
  | 2 => do mustBeZero (fieldD w); mustBeZero (fieldA w); mustBeZero (fieldB w); pure (.endt (fieldH w))
  | _ => .error .functionUnassigned

/-- Major 0x1B: the scalar atomics (R233); with sp = 1, g, O and scope must be zero (R263). -/
def decodeAmo (w : Nat) : DecodeResult := do
  let wd : AmoWidth := if wordField w 30 30 = 0 then .w64 else .w32
  let base : XIx := BitVec.ofNat 5 (wordField w 17 13)
  let sp := wordField w 31 31
  let o := wordField w 23 22
  let sc := wordField w 29 28
  let op := wordField w 27 24
  if 11 ≤ op then .error .functionUnassigned
  let d ← if op = 9 then xpair (fieldD w) else xreg (fieldD w)
  let loc : AmoLoc ←
    if sp = 1 then do
      mustBeZero (wordField w 21 18); mustBeZero o; mustBeZero sc
      pure AmoLoc.sp
    else do
      let o ← orientOf o
      pure (AmoLoc.mem (ascopeOf sc) o (BitVec.ofNat 4 (wordField w 21 18)))
  match op with
  | 0 => pure (.amoadd loc wd base d)
  | 1 => pure (.amoand loc wd base d)
  | 2 => pure (.amoor loc wd base d)
  | 3 => pure (.amoxor loc wd base d)
  | 4 => pure (.amomin loc wd base d)
  | 5 => pure (.amomax loc wd base d)
  | 6 => pure (.amominn loc wd base d)
  | 7 => pure (.amomaxn loc wd base d)
  | 8 => pure (.amoswp loc wd base d)
  | 9 => pure (.amocas loc wd base d)
  | _ => pure (.amofadd loc wd base d)

/-- Major 0x5B: the VAMO family (R233, R317). -/
def decodeVamo (w : Nat) : DecodeResult := do
  mustBeZero (wordField w 31 29)
  mustBeZero (fieldD w % 2)
  let o ← orderOf (wordField w 23 22)
  let sc := ascopeOf (wordField w 28 27)
  let g : GIx := BitVec.ofNat 4 (wordField w 21 18)
  let base : XIx := BitVec.ofNat 5 (wordField w 17 13)
  let d := vreg (fieldD w)
  match wordField w 26 24 with
  | 0 => pure (.vamoadd sc o g base d)
  | 1 => pure (.vamomin sc o g base d)
  | 2 => pure (.vamomax sc o g base d)
  | 3 => pure (.vamoand sc o g base d)
  | 4 => pure (.vamoor sc o g base d)
  | 5 => pure (.vamoxor sc o g base d)
  | 6 => pure (.vamoswp sc o g base d)
  | _ => pure (.vamofadd sc o g base d)

/-- The M-format fields shared by loads and stores (R231, R232). -/
structure MFields where
  off : BitVec 8
  o : Nat
  g : GIx
  base : XIx

/-- Reads the M-format fields. -/
def mFields (w : Nat) : MFields :=
  ⟨BitVec.ofNat 8 (wordField w 31 24), wordField w 23 22, BitVec.ofNat 4 (wordField w 21 18),
    BitVec.ofNat 5 (wordField w 17 13)⟩

/-- A scalar load or store (R259). -/
def decodeScalarMem (mk : BitVec 8 → Orient → GIx → XIx → XIx → Instr) (w : Nat) : DecodeResult := do
  let d ← xreg (fieldD w)
  let o ← orientOf (mFields w).o
  pure (mk (mFields w).off o (mFields w).g (mFields w).base d)

/-- A unit, strided or two-dimensional vector access, or VLDF (R311, R313). -/
def decodeVectorMem (mk : BitVec 8 → Orient → GIx → XIx → VIx → Instr) (w : Nat) : DecodeResult := do
  let o ← orientOf (mFields w).o
  pure (mk (mFields w).off o (mFields w).g (mFields w).base (vreg (fieldD w)))

/-- An indexed vector access (R312). -/
def decodeIndexed (mk : VIx → Order → GIx → XIx → VIx → Instr) (w : Nat) : DecodeResult := do
  mustBeZero (wordField w 31 30)
  let o ← orderOf (mFields w).o
  pure (mk (vreg (wordField w 29 24)) o (mFields w).g (mFields w).base (vreg (fieldD w)))

/-- A whole-register access, row only (R314). -/
def decodeWhole (mk : BitVec 8 → GIx → XIx → VIx → Instr) (w : Nat) : DecodeResult := do
  rowOnly (mFields w).o
  pure (mk (mFields w).off (mFields w).g (mFields w).base (vreg (fieldD w)))

/-- A scale-register access, row only (R315). -/
def decodeScale (mk : BitVec 8 → GIx → XIx → KIx → Instr) (w : Nat) : DecodeResult := do
  let d ← kreg (fieldD w)
  rowOnly (mFields w).o
  pure (mk (mFields w).off (mFields w).g (mFields w).base d)

/-- An I-format form with a signed immediate (R257, R266). -/
def decodeImm (mk : BitVec 13 → XIx → XIx → Instr) (w : Nat) : DecodeResult := do
  let d ← xreg (fieldD w)
  let a ← xreg (fieldA w)
  pure (mk (BitVec.ofNat 13 (wordField w 31 19)) a d)

/-- An immediate shift; imm13[12:6] must be zero (R257). -/
def decodeShift (mk : BitVec 6 → XIx → XIx → Instr) (w : Nat) : DecodeResult := do
  mustBeZero (wordField w 31 25)
  let d ← xreg (fieldD w)
  let a ← xreg (fieldA w)
  pure (mk (BitVec.ofNat 6 (fieldB w)) a d)

/-- A U-format form with a scalar destination (R258, R266). -/
def decodeUpper (mk : BitVec 19 → XIx → Instr) (w : Nat) : DecodeResult := do
  let d ← xreg (fieldD w)
  pure (mk (BitVec.ofNat 19 (wordField w 31 13)) d)

/-- A scalar branch (R265). -/
def decodeBranch (mk : BitVec 13 → XIx → XIx → Instr) (w : Nat) : DecodeResult := do
  let a ← xreg (fieldD w)
  let b ← xreg (fieldA w)
  pure (mk (BitVec.ofNat 13 (wordField w 31 19)) b a)

/-- A branch on a mask; B must be zero (R290). -/
def decodeMaskBranch (mk : BitVec 13 → VIx → Instr) (w : Nat) : DecodeResult := do
  mustBeZero (fieldA w)
  pure (mk (BitVec.ofNat 13 (wordField w 31 19)) (vreg (fieldD w)))

/-- MFG and MTG (R235): F[1] selects the direction, F[0] the half, F[4:2] is zero. -/
def decodeSegMove (w : Nat) : DecodeResult := do
  mustBeZero (fieldF w / 4)
  let g ← kreg (fieldA w)
  let half := halfOf (fieldF w % 2)
  if fieldF w / 2 % 2 = 0 then do
    mustBeZero (fieldB w)
    let d ← xreg (fieldD w)
    pure (.mfg (fieldH w) half g d)
  else do
    mustBeZero (fieldD w)
    let b ← xreg (fieldB w)
    pure (.mtg (fieldH w) half g b)

/-- FENCE (R235, R349). -/
def decodeFence (w : Nat) : DecodeResult := do
  mustBeZero (fieldD w); mustBeZero (fieldA w); mustBeZero (fieldB w)
  let k ← fenceKindOf (wordField w 26 25)
  let sc ← scopeOf (wordField w 29 27)
  pure (.fence (fieldH w) sc k)

/-- BAR (R235, R350). -/
def decodeBar (w : Nat) : DecodeResult := do
  mustBeZero (fieldD w); mustBeZero (fieldA w); mustBeZero (fieldB w)
  mustBeZero (wordField w 26 25)
  let sc ← scopeOf (wordField w 29 27)
  pure (.bar (fieldH w) sc)

/-- WAITC (R235, R347). -/
def decodeWaitc (w : Nat) : DecodeResult := do
  mustBeZero (fieldD w); mustBeZero (wordField w 31 29)
  pure (.waitc (BitVec.ofNat 4 (wordField w 16 13)) (BitVec.ofNat 4 (wordField w 20 17))
    (BitVec.ofNat 4 (wordField w 24 21)) (BitVec.ofNat 4 (wordField w 28 25)))

/-- MMA (R231, R329). -/
def decodeMma (w : Nat) : DecodeResult := do
  let df ← flowOf (wordField w 26 25)
  let a ← matOpOf (wordField w 27 27) (fieldA w)
  let b ← matOpOf (wordField w 28 28) (fieldB w)
  pure (.mma (fieldH w) (wordField w 29 29 == 1) df (vreg (fieldD w)) a b)

/-- MMAS (R335); Asp = 1 is refused with the same cause that order 2 of R332 gives. -/
def decodeMmas (w : Nat) : DecodeResult := do
  let df ← flowOf (wordField w 26 25)
  mustBeZero (wordField w 27 27)
  let b ← matOpOf (wordField w 28 28) (fieldB w)
  pure (.mmas (fieldH w) (wordField w 29 29 == 1) df (vreg (fieldD w)) (vreg (fieldA w)) b)

/-- A word, read as a number, to an instruction: the opcode map of R234. -/
def decodeNat (w : Nat) : DecodeResult :=
  match w % 128 with
  | 0x01 => decodeScalar w
  | 0x02 => decodeImm .addi w
  | 0x03 => decodeImm .andi w
  | 0x04 => decodeImm .ori w
  | 0x05 => decodeImm .xori w
  | 0x06 => decodeImm .slti w
  | 0x07 => decodeImm .sltin w
  | 0x08 => decodeShift .slli w
  | 0x09 => decodeShift .srli w
  | 0x0A => decodeShift .srai w
  | 0x0B => decodeUpper .lih w
  | 0x0C => decodeUpper .addpc w
  | 0x10 => decodeScalarMem .ldb w
  | 0x11 => decodeScalarMem .ldh w
  | 0x12 => decodeScalarMem .ldw w
  | 0x13 => decodeScalarMem .ldd w
  | 0x14 => decodeScalarMem .ldbn w
  | 0x15 => decodeScalarMem .ldhn w
  | 0x16 => decodeScalarMem .ldwn w
  | 0x17 => decodeScalarMem .stb w
  | 0x18 => decodeScalarMem .sth w
  | 0x19 => decodeScalarMem .stw w
  | 0x1A => decodeScalarMem .std w
  | 0x1B => decodeAmo w
  | 0x20 => decodeBranch .beq w
  | 0x21 => decodeBranch .bne w
  | 0x22 => decodeBranch .blt w
  | 0x23 => decodeBranch .bge w
  | 0x24 => decodeBranch .bltn w
  | 0x25 => decodeBranch .bgen w
  | 0x26 => decodeUpper .jal w
  | 0x27 => decodeImm .jalr w
  | 0x28 => do mustBeZero (fieldA w); mustBeZero (wordField w 31 24); let d ← xreg (fieldD w); let c ← cregOf (wordField w 23 19); pure (.mfc c d)
  | 0x29 => do mustBeZero (fieldD w); mustBeZero (wordField w 31 24); let a ← xreg (fieldA w); let c ← cregOf (wordField w 23 19); pure (.mtc c a)
  | 0x2A => decodeSegMove w
  | 0x2B => decodeTrap w
  | 0x2C => decodeFence w
  | 0x2D => decodeWaitc w
  | 0x2E => decodeWaita w
  | 0x2F => decodeBar w
  | 0x30 => decodeVsetl w
  | 0x31 => do mustBeZero (fieldA w); mustBeZero (wordField w 31 27); pure (.vtag (BitVec.ofNat 8 (wordField w 26 19)) (vreg (fieldD w)))
  | 0x32 => decodeLogic w
  | 0x33 => pure (.vidx (BitVec.ofNat 9 (wordField w 31 23)) (BitVec.ofNat 10 (wordField w 22 13)) (vreg (fieldD w)))
  | 0x34 => do let c ← condOf (fieldF w); pure (.vcmp (fieldH w) c (vreg (fieldD w)) (vreg (fieldA w)) (vreg (fieldB w)))
  | 0x35 => decodeMaskBranch .vbany w
  | 0x36 => decodeMaskBranch .vbnone w
  | 0x38 => decodeArith w
  | 0x39 => decodeArith w
  | 0x3A => decodeArith w
  | 0x3B => decodeArith w
  | 0x3C => decodeArith w
  | 0x3D => decodeArith w
  | 0x3E => decodeArith w
  | 0x40 => decodeTransform w
  | 0x48 => decodeConvert w
  | 0x49 => decodeConvert w
  | 0x4A => decodeConvert w
  | 0x4B => decodeConvert w
  | 0x4C => decodeConvert w
  | 0x4D => decodeConvert w
  | 0x4E => decodeConvert w
  | 0x50 => decodeVectorMem .vld w
  | 0x51 => decodeVectorMem .vst w
  | 0x52 => decodeVectorMem .vlds w
  | 0x53 => decodeVectorMem .vsts w
  | 0x54 => decodeVectorMem .vld2 w
  | 0x55 => decodeVectorMem .vst2 w
  | 0x56 => decodeIndexed .vldx w
  | 0x57 => decodeIndexed .vstx w
  | 0x58 => decodeVectorMem .vldf w
  | 0x59 => decodeWhole .vldw w
  | 0x5A => decodeWhole .vstw w
  | 0x5B => decodeVamo w
  | 0x5C => decodeScale .kld w
  | 0x5D => decodeScale .kst w
  | 0x5E => do mustBeZero (fieldD w); let o ← orientOf (mFields w).o; pure (.vpf (mFields w).off o (mFields w).g (mFields w).base)
  | 0x5F => decodeScratch w
  | 0x60 => do mustBeZero (fieldD w); mustBeZero (wordField w 31 31); pure (.mshape (BitVec.ofNat 4 (wordField w 30 27)) (BitVec.ofNat 7 (wordField w 26 20)) (BitVec.ofNat 7 (wordField w 19 13)))
  | 0x61 => decodeMma w
  | 0x62 => decodeMmas w
  | 0x63 => decodeMlast w
  | 0x68 => decodeEngine w
  | 0x69 => decodeTack w
  | _ => .error .majorUnassigned

/-- Decodes one instruction word (R231). -/
def decode (w : BitVec 32) : DecodeResult := decodeNat w.toNat

/-- Decodes the little-endian bytes of one instruction (R231): the word, and the bytes after it. -/
def decodeBytes : List Byte → Option (DecodeResult × List Byte)
  | b0 :: b1 :: b2 :: b3 :: rest => some (decode (b3 ++ b2 ++ b1 ++ b0), rest)
  | _ => none

/-! ### The encoder, from the same tables -/

/-- Code of an orientation in field O. -/
def Orient.code : Orient → Nat
  | .row => 0
  | .col => 1

/-- Code of an order in field O. -/
def Order.code : Order → Nat
  | .ord => 0
  | .any => 1

/-- Code of a scope in FENCE and BAR (R235). -/
def Scope.code : Scope → Nat
  | .h => 0
  | .c => 1
  | .k => 2
  | .d => 3
  | .s => 4

/-- Code of an atomic's scope (R233). -/
def AScope.code : AScope → Nat
  | .c => 0
  | .k => 1
  | .d => 2
  | .s => 3

/-- Code of a FENCE kind (R235). -/
def FenceKind.code : FenceKind → Nat
  | .rel => 1
  | .acq => 2
  | .ar => 3

/-- Code of a dataflow (R330). -/
def Flow.code : Flow → Nat
  | .ip => 0
  | .op => 1
  | .rw => 2

/-- Code of a rounding suffix (R211, R236). -/
def RCode.code : RCode → Nat
  | .rne => 0
  | .rtz => 1
  | .rdn => 2
  | .rup => 3
  | .rto => 4
  | .sr => 5
  | .frm => 6

/-- Code of a condition (R234). -/
def Cond.code : Cond → Nat
  | .eq => 0
  | .ne => 1
  | .lt => 2
  | .le => 3
  | .gt => 4
  | .ge => 5
  | .uo => 6
  | .or => 7

/-- Code of a half. -/
def Half.code : Half → Nat
  | .lo => 0
  | .hi => 1

/-- Number of a control register (R228). -/
def CReg.num : CReg → Nat
  | .vl => 0
  | .vm => 1
  | .vs => 2
  | .vt => 3
  | .vstart => 4
  | .vrep => 5
  | .vsr => 6
  | .frm => 7
  | .fflags => 8
  | .mrow => 9
  | .mcol => 10
  | .mdep => 11
  | .bthr => 12
  | .lpart => 16
  | .hartid => 17
  | .regionid => 18
  | .cyc => 19
  | .tcause => 24
  | .tepc => 25
  | .tval => 26
  | .tvec => 27
  | .tstat => 28

/-- The R format (R231). -/
def encR (op d a b f : Nat) (h : Hint) : Nat :=
  op + d * 2 ^ 7 + a * 2 ^ 13 + b * 2 ^ 19 + f * 2 ^ 25 + h.toNat * 2 ^ 30

/-- The I and B formats (R231): a 13-bit field above two register fields. -/
def encI (op d a imm : Nat) : Nat := op + d * 2 ^ 7 + a * 2 ^ 13 + imm * 2 ^ 19

/-- The U format (R231). -/
def encU (op d imm : Nat) : Nat := op + d * 2 ^ 7 + imm * 2 ^ 13

/-- The M format (R231). -/
def encM (op d base g o off : Nat) : Nat :=
  op + d * 2 ^ 7 + base * 2 ^ 13 + g * 2 ^ 18 + o * 2 ^ 22 + off * 2 ^ 24

/-- A scalar atomic (R233). -/
def encAmo (loc : AmoLoc) (w : AmoWidth) (base d : XIx) (op : Nat) : Nat :=
  let wbit := match w with | .w64 => 0 | .w32 => 1
  match loc with
  | .mem sc o g => encM 0x1B d.toNat base.toNat g.toNat o.code (op + sc.code * 2 ^ 4 + wbit * 2 ^ 6)
  | .sp => encM 0x1B d.toNat base.toNat 0 0 (op + wbit * 2 ^ 6 + 2 ^ 7)

/-- The field and the sp bit of a matrix operand (R328). -/
def MatOp.field : MatOp → Nat
  | .reg v => v.toNat
  | .sp x => x.toNat

/-- Whether a matrix operand lies in the scratchpad. -/
def MatOp.spBit : MatOp → Nat
  | .reg _ => 0
  | .sp _ => 1

/-- The T format (R231). -/
def encT (op d a b df asp bsp z : Nat) (h : Hint) : Nat :=
  op + d * 2 ^ 7 + a * 2 ^ 13 + b * 2 ^ 19 + df * 2 ^ 25 + asp * 2 ^ 27 + bsp * 2 ^ 28 + z * 2 ^ 29 + h.toNat * 2 ^ 30

/-- The fields of KMOV: D, A and B (R303). -/
def encKmov (h : Hint) : KmovForm → Nat
  | .kk d a => encR 0x40 d.toNat a.toNat 0 5 h
  | .vk d a m => encR 0x40 d.toNat a.toNat (1 + 4 * m.toNat) 5 h
  | .kv d a m => encR 0x40 d.toNat a.toNat (2 + 4 * m.toNat) 5 h

/-- The word of an instruction, as a number; 0 for a step of the device, which has no word. -/
def encodeNat : Instr → Nat
  | .add h d a b => encR 0x01 d.toNat a.toNat b.toNat 0 h
  | .sub h d a b => encR 0x01 d.toNat a.toNat b.toNat 1 h
  | .and h d a b => encR 0x01 d.toNat a.toNat b.toNat 2 h
  | .or h d a b => encR 0x01 d.toNat a.toNat b.toNat 3 h
  | .xor h d a b => encR 0x01 d.toNat a.toNat b.toNat 4 h
  | .sll h d a b => encR 0x01 d.toNat a.toNat b.toNat 5 h
  | .srl h d a b => encR 0x01 d.toNat a.toNat b.toNat 6 h
  | .sra h d a b => encR 0x01 d.toNat a.toNat b.toNat 7 h
  | .slt h d a b => encR 0x01 d.toNat a.toNat b.toNat 8 h
  | .sltn h d a b => encR 0x01 d.toNat a.toNat b.toNat 9 h
  | .min h d a b => encR 0x01 d.toNat a.toNat b.toNat 10 h
  | .max h d a b => encR 0x01 d.toNat a.toNat b.toNat 11 h
  | .minn h d a b => encR 0x01 d.toNat a.toNat b.toNat 12 h
  | .maxn h d a b => encR 0x01 d.toNat a.toNat b.toNat 13 h
  | .clz h d a => encR 0x01 d.toNat a.toNat 0 14 h
  | .ctz h d a => encR 0x01 d.toNat a.toNat 0 15 h
  | .popc h d a => encR 0x01 d.toNat a.toNat 0 16 h
  | .mul h d a b => encR 0x01 d.toNat a.toNat b.toNat 17 h
  | .mulh h d a b => encR 0x01 d.toNat a.toNat b.toNat 18 h
  | .mulhn h d a b => encR 0x01 d.toNat a.toNat b.toNat 19 h
  | .div h d a b => encR 0x01 d.toNat a.toNat b.toNat 20 h
  | .divn h d a b => encR 0x01 d.toNat a.toNat b.toNat 21 h
  | .rem h d a b => encR 0x01 d.toNat a.toNat b.toNat 22 h
  | .remn h d a b => encR 0x01 d.toNat a.toNat b.toNat 23 h
  | .addi imm a d => encI 0x02 d.toNat a.toNat imm.toNat
  | .andi imm a d => encI 0x03 d.toNat a.toNat imm.toNat
  | .ori imm a d => encI 0x04 d.toNat a.toNat imm.toNat
  | .xori imm a d => encI 0x05 d.toNat a.toNat imm.toNat
  | .slti imm a d => encI 0x06 d.toNat a.toNat imm.toNat
  | .sltin imm a d => encI 0x07 d.toNat a.toNat imm.toNat
  | .slli n a d => encI 0x08 d.toNat a.toNat n.toNat
  | .srli n a d => encI 0x09 d.toNat a.toNat n.toNat
  | .srai n a d => encI 0x0A d.toNat a.toNat n.toNat
  | .lih imm d => encU 0x0B d.toNat imm.toNat
  | .addpc imm d => encU 0x0C d.toNat imm.toNat
  | .ldb off o g base d => encM 0x10 d.toNat base.toNat g.toNat o.code off.toNat
  | .ldh off o g base d => encM 0x11 d.toNat base.toNat g.toNat o.code off.toNat
  | .ldw off o g base d => encM 0x12 d.toNat base.toNat g.toNat o.code off.toNat
  | .ldd off o g base d => encM 0x13 d.toNat base.toNat g.toNat o.code off.toNat
  | .ldbn off o g base d => encM 0x14 d.toNat base.toNat g.toNat o.code off.toNat
  | .ldhn off o g base d => encM 0x15 d.toNat base.toNat g.toNat o.code off.toNat
  | .ldwn off o g base d => encM 0x16 d.toNat base.toNat g.toNat o.code off.toNat
  | .stb off o g base d => encM 0x17 d.toNat base.toNat g.toNat o.code off.toNat
  | .sth off o g base d => encM 0x18 d.toNat base.toNat g.toNat o.code off.toNat
  | .stw off o g base d => encM 0x19 d.toNat base.toNat g.toNat o.code off.toNat
  | .std off o g base d => encM 0x1A d.toNat base.toNat g.toNat o.code off.toNat
  | .amoadd loc w base d => encAmo loc w base d 0
  | .amoand loc w base d => encAmo loc w base d 1
  | .amoor loc w base d => encAmo loc w base d 2
  | .amoxor loc w base d => encAmo loc w base d 3
  | .amomin loc w base d => encAmo loc w base d 4
  | .amomax loc w base d => encAmo loc w base d 5
  | .amominn loc w base d => encAmo loc w base d 6
  | .amomaxn loc w base d => encAmo loc w base d 7
  | .amoswp loc w base d => encAmo loc w base d 8
  | .amocas loc w base d => encAmo loc w base d 9
  | .amofadd loc w base d => encAmo loc w base d 10
  | .beq off b a => encI 0x20 a.toNat b.toNat off.toNat
  | .bne off b a => encI 0x21 a.toNat b.toNat off.toNat
  | .blt off b a => encI 0x22 a.toNat b.toNat off.toNat
  | .bge off b a => encI 0x23 a.toNat b.toNat off.toNat
  | .bltn off b a => encI 0x24 a.toNat b.toNat off.toNat
  | .bgen off b a => encI 0x25 a.toNat b.toNat off.toNat
  | .jal imm d => encU 0x26 d.toNat imm.toNat
  | .jalr imm a d => encI 0x27 d.toNat a.toNat imm.toNat
  | .mfc c d => encI 0x28 d.toNat 0 c.num
  | .mtc c a => encI 0x29 0 a.toNat c.num
  | .mfg h half g d => encR 0x2A d.toNat g.toNat 0 half.code h
  | .mtg h half g b => encR 0x2A 0 g.toNat b.toNat (2 + half.code) h
  | .trap h => encR 0x2B 0 0 0 0 h
  | .brk h => encR 0x2B 0 0 0 1 h
  | .rts h => encR 0x2B 0 0 0 2 h
  | .fence h sc k => encR 0x2C 0 0 0 (k.code + 4 * sc.code) h
  | .waitc l st c m => encU 0x2D 0 (l.toNat + st.toNat * 2 ^ 4 + c.toNat * 2 ^ 8 + m.toNat * 2 ^ 12)
  | .waita h d a b => encR 0x2E d.toNat a.toNat b.toNat 0 h
  | .waitaAny h d a b => encR 0x2E d.toNat a.toNat b.toNat 1 h
  | .bar h sc => encR 0x2F 0 0 0 (4 * sc.code) h
  | .vsetl h d a b => encR 0x30 d.toNat a.toNat b.toNat 0 h
  | .vtag t d => encI 0x31 d.toNat 0 t.toNat
  | .vand h d a b => encR 0x32 d.toNat a.toNat b.toNat 0 h
  | .vor h d a b => encR 0x32 d.toNat a.toNat b.toNat 1 h
  | .vxor h d a b => encR 0x32 d.toNat a.toNat b.toNat 2 h
  | .vnot h d a => encR 0x32 d.toNat a.toNat 0 3 h
  | .vshl h d a b => encR 0x32 d.toNat a.toNat b.toNat 4 h
  | .vshr h d a b => encR 0x32 d.toNat a.toNat b.toNat 5 h
  | .vshra h d a b => encR 0x32 d.toNat a.toNat b.toNat 6 h
  | .vwsl h d a b => encR 0x32 d.toNat a.toNat b.toNat 7 h
  | .vwsr h d a b => encR 0x32 d.toNat a.toNat b.toNat 8 h
  | .vfsl h d a b => encR 0x32 d.toNat a.toNat b.toNat 9 h
  | .vfsr h d a b => encR 0x32 d.toNat a.toNat b.toNat 10 h
  | .vsel h d a b => encR 0x32 d.toNat a.toNat b.toNat 11 h
  | .vmov h d a => encR 0x32 d.toNat a.toNat 0 12 h
  | .vsplat h d a => encR 0x32 d.toNat a.toNat 0 13 h
  | .vmvx h d a b => encR 0x32 d.toNat a.toNat b.toNat 14 h
  | .vmxv h d a b => encR 0x32 d.toNat a.toNat b.toNat 15 h
  | .vslu h d a b => encR 0x32 d.toNat a.toNat b.toNat 16 h
  | .vsld h d a b => encR 0x32 d.toNat a.toNat b.toNat 17 h
  | .vperm h d a b => encR 0x32 d.toNat a.toNat b.toNat 18 h
  | .vrev h d a => encR 0x32 d.toNat a.toNat 0 19 h
  | .vmcnt h d a => encR 0x32 d.toNat a.toNat 0 20 h
  | .vmfst h d a => encR 0x32 d.toNat a.toNat 0 21 h
  | .vrand h d a => encR 0x32 d.toNat a.toNat 0 22 h
  | .vror h d a => encR 0x32 d.toNat a.toNat 0 23 h
  | .vrxor h d a => encR 0x32 d.toNat a.toNat 0 24 h
  | .vidx step start d => 0x33 + d.toNat * 2 ^ 7 + start.toNat * 2 ^ 13 + step.toNat * 2 ^ 23
  | .vcmp h c d a b => encR 0x34 d.toNat a.toNat b.toNat c.code h
  | .vbany off a => encI 0x35 a.toNat 0 off.toNat
  | .vbnone off a => encI 0x36 a.toNat 0 off.toNat
  | .vadd h r d a b => encR (0x38 + r.code) d.toNat a.toNat b.toNat 0 h
  | .vsub h r d a b => encR (0x38 + r.code) d.toNat a.toNat b.toNat 1 h
  | .vrsub h r d a b => encR (0x38 + r.code) d.toNat a.toNat b.toNat 2 h
  | .vmul h r d a b => encR (0x38 + r.code) d.toNat a.toNat b.toNat 3 h
  | .vmulh h r d a b => encR (0x38 + r.code) d.toNat a.toNat b.toNat 4 h
  | .vdiv h r d a b => encR (0x38 + r.code) d.toNat a.toNat b.toNat 5 h
  | .vrem h r d a b => encR (0x38 + r.code) d.toNat a.toNat b.toNat 6 h
  | .vmin h r d a b => encR (0x38 + r.code) d.toNat a.toNat b.toNat 7 h
  | .vmax h r d a b => encR (0x38 + r.code) d.toNat a.toNat b.toNat 8 h
  | .vabs h r d a => encR (0x38 + r.code) d.toNat a.toNat 0 9 h
  | .vneg h r d a => encR (0x38 + r.code) d.toNat a.toNat 0 10 h
  | .vfma h r d a b => encR (0x38 + r.code) d.toNat a.toNat b.toNat 11 h
  | .vfms h r d a b => encR (0x38 + r.code) d.toNat a.toNat b.toNat 12 h
  | .vfnma h r d a b => encR (0x38 + r.code) d.toNat a.toNat b.toNat 13 h
  | .vfnms h r d a b => encR (0x38 + r.code) d.toNat a.toNat b.toNat 14 h
  | .vsqrt h r d a => encR (0x38 + r.code) d.toNat a.toNat 0 15 h
  | .vrcp h r d a => encR (0x38 + r.code) d.toNat a.toNat 0 16 h
  | .vrsq h r d a => encR (0x38 + r.code) d.toNat a.toNat 0 17 h
  | .vexp2 h r d a => encR (0x38 + r.code) d.toNat a.toNat 0 18 h
  | .vlog2 h r d a => encR (0x38 + r.code) d.toNat a.toNat 0 19 h
  | .vsin h r d a => encR (0x38 + r.code) d.toNat a.toNat 0 20 h
  | .vcos h r d a => encR (0x38 + r.code) d.toNat a.toNat 0 21 h
  | .vtanh h r d a => encR (0x38 + r.code) d.toNat a.toNat 0 22 h
  | .vrsum h r d a => encR (0x38 + r.code) d.toNat a.toNat 0 23 h
  | .vrmin h r d a => encR (0x38 + r.code) d.toNat a.toNat 0 24 h
  | .vrmax h r d a => encR (0x38 + r.code) d.toNat a.toNat 0 25 h
  | .vrdot h r d a b => encR (0x38 + r.code) d.toNat a.toNat b.toNat 26 h
  | .vunpk h d a b => encR 0x40 d.toNat a.toNat b.toNat 0 h
  | .vpkb h d a b => encR 0x40 d.toNat a.toNat b.toNat 1 h
  | .vlut h d a b => encR 0x40 d.toNat a.toNat b.toNat 2 h
  | .vexpd h d a => encR 0x40 d.toNat a.toNat 0 3 h
  | .vcmpr h d a => encR 0x40 d.toNat a.toNat 0 4 h
  | .kmov h f => encKmov h f
  | .vcvt h r d a => encR (0x48 + r.code) d.toNat a.toNat 0 0 h
  | .vqmx h r d a => encR (0x48 + r.code) d.toNat a.toNat 0 1 h
  | .vdqmx h r d a k half => encR (0x48 + r.code) d.toNat a.toNat (k.toNat + 16 * half.code) 2 h
  | .vqef h r d a b => encR (0x48 + r.code) d.toNat a.toNat b.toNat 3 h
  | .vld off o g base d => encM 0x50 d.toNat base.toNat g.toNat o.code off.toNat
  | .vst off o g base d => encM 0x51 d.toNat base.toNat g.toNat o.code off.toNat
  | .vlds off o g base d => encM 0x52 d.toNat base.toNat g.toNat o.code off.toNat
  | .vsts off o g base d => encM 0x53 d.toNat base.toNat g.toNat o.code off.toNat
  | .vld2 off o g base d => encM 0x54 d.toNat base.toNat g.toNat o.code off.toNat
  | .vst2 off o g base d => encM 0x55 d.toNat base.toNat g.toNat o.code off.toNat
  | .vldx x o g base d => encM 0x56 d.toNat base.toNat g.toNat o.code x.toNat
  | .vstx x o g base d => encM 0x57 d.toNat base.toNat g.toNat o.code x.toNat
  | .vldf off o g base d => encM 0x58 d.toNat base.toNat g.toNat o.code off.toNat
  | .vldw off g base d => encM 0x59 d.toNat base.toNat g.toNat 0 off.toNat
  | .vstw off g base d => encM 0x5A d.toNat base.toNat g.toNat 0 off.toNat
  | .vamoadd sc o g base d => encM 0x5B d.toNat base.toNat g.toNat o.code (0 + sc.code * 2 ^ 3)
  | .vamomin sc o g base d => encM 0x5B d.toNat base.toNat g.toNat o.code (1 + sc.code * 2 ^ 3)
  | .vamomax sc o g base d => encM 0x5B d.toNat base.toNat g.toNat o.code (2 + sc.code * 2 ^ 3)
  | .vamoand sc o g base d => encM 0x5B d.toNat base.toNat g.toNat o.code (3 + sc.code * 2 ^ 3)
  | .vamoor sc o g base d => encM 0x5B d.toNat base.toNat g.toNat o.code (4 + sc.code * 2 ^ 3)
  | .vamoxor sc o g base d => encM 0x5B d.toNat base.toNat g.toNat o.code (5 + sc.code * 2 ^ 3)
  | .vamoswp sc o g base d => encM 0x5B d.toNat base.toNat g.toNat o.code (6 + sc.code * 2 ^ 3)
  | .vamofadd sc o g base d => encM 0x5B d.toNat base.toNat g.toNat o.code (7 + sc.code * 2 ^ 3)
  | .kld off g base d => encM 0x5C d.toNat base.toNat g.toNat 0 off.toNat
  | .kst off g base d => encM 0x5D d.toNat base.toNat g.toNat 0 off.toNat
  | .vpf off o g base => encM 0x5E 0 base.toNat g.toNat o.code off.toNat
  | .spld h d a b => encR 0x5F d.toNat a.toNat b.toNat 0 h
  | .spst h d a b => encR 0x5F d.toNat a.toNat b.toNat 1 h
  | .sxins h d a b => encR 0x5F d.toNat a.toNat b.toNat 2 h
  | .sxlkp h d a b => encR 0x5F d.toNat a.toNat b.toNat 3 h
  | .sxacc h d a b => encR 0x5F d.toNat a.toNat b.toNat 4 h
  | .sxdrn h d b => encR 0x5F d.toNat 0 b.toNat 5 h
  | .sxclr h => encR 0x5F 0 0 0 6 h
  | .mshape depth cols rows => encU 0x60 0 (rows.toNat + cols.toNat * 2 ^ 7 + depth.toNat * 2 ^ 14)
  | .mma h z df d a b => encT 0x61 d.toNat a.field b.field df.code a.spBit b.spBit z.toNat h
  | .mmas h z df d a b => encT 0x62 d.toNat a.toNat b.field df.code 0 b.spBit z.toNat h
  | .mlast h g d b => encR 0x63 d.toNat g.toNat b.toNat 0 h
  | .xcp h a => encR 0x68 0 a.toNat 0 0 h
  | .xcpm h a => encR 0x68 0 a.toNat 0 1 h
  | .xchain h g a => encR 0x68 0 a.toNat g.toNat 2 h
  | .xstat h d => encR 0x68 d.toNat 0 0 3 h
  | .spawn h g a => encR 0x69 0 a.toNat g.toNat 0 h
  | .join h => encR 0x69 0 0 0 1 h
  | .endt h => encR 0x69 0 0 0 2 h
  | .tackPop _ _ => 0
  | .waitaWake _ _ => 0
  | .barrierDepart _ _ => 0
  | .ringFullDeadlock _ => 0
  | .loadComplete _ _ => 0
  | .matrixComplete _ _ => 0
  | .followOnIssue _ _ => 0
  | .followOnComplete _ _ => 0
  | .copyAcquire _ _ => 0
  | .copyTransfer _ _ => 0
  | .copyRelease _ _ => 0
  | .eyeletWrite _ _ => 0
  | .chainRecordRead _ _ => 0
  | .walkComplete _ _ _ => 0
  | .probeAcknowledgement _ _ _ => 0
  | .probeRefusal _ _ _ => 0
  | .faultEntryPost _ => 0
  | .storeBufferDrain _ _ => 0
  | .deferredStoreTrap _ _ => 0
  | .cacheFill _ => 0
  | .eviction _ _ _ _ => 0
  | .writeBackMerge _ _ => 0
  | .bypassWriteAck _ => 0
  | .nameRecall _ _ => 0
  | .eccError _ _ _ _ _ => 0
  | .faultDomainEnd _ _ => 0
  | .launchPacketTake _ => 0
  | .launchPlacement => 0
  | .launchAging _ _ => 0
  | .preemption _ => 0
  | .contextSave _ _ => 0
  | .contextRestore _ _ => 0
  | .regionRetire _ => 0
  | .arbiterEpoch _ _ => 0
  | .queueDoorbell _ _ => 0
  | .queueHeadWrite _ _ => 0
  | .queueErrClear _ => 0
  | .queueEnable _ _ => 0
  | .registerWrite _ _ => 0
  | .hostMemoryRead _ _ => 0
  | .hostMemoryWrite _ _ _ => 0
  | .loadObject => 0
  | .unload => 0
  | .rangeHold => 0
  | .rangeFree => 0
  | .spaceUpdate => 0
  | .resolveRetry => 0
  | .resolveFail => 0
  | .endRegion => 0
  | .setSavePool => 0
  | .attest => 0
  | .protect => 0
  | .deviceReset => 0
  | .bootDoorbell _ => 0
  | .imageVerifyComplete => 0
  | .gddrTrainingComplete _ => 0
  | .fullServiceChange => 0
  | .linkBringup _ => 0
  | .linkFlitReceive _ _ => 0
  | .peerRequest _ => 0
  | .linkFailure _ => 0
  | .targetAcknowledgement _ => 0

/-- The word of a well-formed instruction. -/
def encode (i : Instr) : BitVec 32 := BitVec.ofNat 32 (encodeNat i)

/-- Whether a row of the table has an instruction word; the device's own steps have none. -/
def Instr.hasWord : Instr → Bool
  | .add _ _ _ _ => true
  | .sub _ _ _ _ => true
  | .and _ _ _ _ => true
  | .or _ _ _ _ => true
  | .xor _ _ _ _ => true
  | .sll _ _ _ _ => true
  | .srl _ _ _ _ => true
  | .sra _ _ _ _ => true
  | .slt _ _ _ _ => true
  | .sltn _ _ _ _ => true
  | .min _ _ _ _ => true
  | .max _ _ _ _ => true
  | .minn _ _ _ _ => true
  | .maxn _ _ _ _ => true
  | .clz _ _ _ => true
  | .ctz _ _ _ => true
  | .popc _ _ _ => true
  | .mul _ _ _ _ => true
  | .mulh _ _ _ _ => true
  | .mulhn _ _ _ _ => true
  | .div _ _ _ _ => true
  | .divn _ _ _ _ => true
  | .rem _ _ _ _ => true
  | .remn _ _ _ _ => true
  | .addi _ _ _ => true
  | .andi _ _ _ => true
  | .ori _ _ _ => true
  | .xori _ _ _ => true
  | .slti _ _ _ => true
  | .sltin _ _ _ => true
  | .slli _ _ _ => true
  | .srli _ _ _ => true
  | .srai _ _ _ => true
  | .lih _ _ => true
  | .addpc _ _ => true
  | .ldb _ _ _ _ _ => true
  | .ldh _ _ _ _ _ => true
  | .ldw _ _ _ _ _ => true
  | .ldd _ _ _ _ _ => true
  | .ldbn _ _ _ _ _ => true
  | .ldhn _ _ _ _ _ => true
  | .ldwn _ _ _ _ _ => true
  | .stb _ _ _ _ _ => true
  | .sth _ _ _ _ _ => true
  | .stw _ _ _ _ _ => true
  | .std _ _ _ _ _ => true
  | .amoadd _ _ _ _ => true
  | .amoand _ _ _ _ => true
  | .amoor _ _ _ _ => true
  | .amoxor _ _ _ _ => true
  | .amomin _ _ _ _ => true
  | .amomax _ _ _ _ => true
  | .amominn _ _ _ _ => true
  | .amomaxn _ _ _ _ => true
  | .amoswp _ _ _ _ => true
  | .amocas _ _ _ _ => true
  | .amofadd _ _ _ _ => true
  | .beq _ _ _ => true
  | .bne _ _ _ => true
  | .blt _ _ _ => true
  | .bge _ _ _ => true
  | .bltn _ _ _ => true
  | .bgen _ _ _ => true
  | .jal _ _ => true
  | .jalr _ _ _ => true
  | .mfc _ _ => true
  | .mtc _ _ => true
  | .mfg _ _ _ _ => true
  | .mtg _ _ _ _ => true
  | .trap _ => true
  | .brk _ => true
  | .rts _ => true
  | .fence _ _ _ => true
  | .waitc _ _ _ _ => true
  | .waita _ _ _ _ => true
  | .waitaAny _ _ _ _ => true
  | .bar _ _ => true
  | .vsetl _ _ _ _ => true
  | .vtag _ _ => true
  | .vand _ _ _ _ => true
  | .vor _ _ _ _ => true
  | .vxor _ _ _ _ => true
  | .vnot _ _ _ => true
  | .vshl _ _ _ _ => true
  | .vshr _ _ _ _ => true
  | .vshra _ _ _ _ => true
  | .vwsl _ _ _ _ => true
  | .vwsr _ _ _ _ => true
  | .vfsl _ _ _ _ => true
  | .vfsr _ _ _ _ => true
  | .vsel _ _ _ _ => true
  | .vmov _ _ _ => true
  | .vsplat _ _ _ => true
  | .vmvx _ _ _ _ => true
  | .vmxv _ _ _ _ => true
  | .vslu _ _ _ _ => true
  | .vsld _ _ _ _ => true
  | .vperm _ _ _ _ => true
  | .vrev _ _ _ => true
  | .vmcnt _ _ _ => true
  | .vmfst _ _ _ => true
  | .vrand _ _ _ => true
  | .vror _ _ _ => true
  | .vrxor _ _ _ => true
  | .vidx _ _ _ => true
  | .vcmp _ _ _ _ _ => true
  | .vbany _ _ => true
  | .vbnone _ _ => true
  | .vadd _ _ _ _ _ => true
  | .vsub _ _ _ _ _ => true
  | .vrsub _ _ _ _ _ => true
  | .vmul _ _ _ _ _ => true
  | .vmulh _ _ _ _ _ => true
  | .vdiv _ _ _ _ _ => true
  | .vrem _ _ _ _ _ => true
  | .vmin _ _ _ _ _ => true
  | .vmax _ _ _ _ _ => true
  | .vabs _ _ _ _ => true
  | .vneg _ _ _ _ => true
  | .vfma _ _ _ _ _ => true
  | .vfms _ _ _ _ _ => true
  | .vfnma _ _ _ _ _ => true
  | .vfnms _ _ _ _ _ => true
  | .vsqrt _ _ _ _ => true
  | .vrcp _ _ _ _ => true
  | .vrsq _ _ _ _ => true
  | .vexp2 _ _ _ _ => true
  | .vlog2 _ _ _ _ => true
  | .vsin _ _ _ _ => true
  | .vcos _ _ _ _ => true
  | .vtanh _ _ _ _ => true
  | .vrsum _ _ _ _ => true
  | .vrmin _ _ _ _ => true
  | .vrmax _ _ _ _ => true
  | .vrdot _ _ _ _ _ => true
  | .vunpk _ _ _ _ => true
  | .vpkb _ _ _ _ => true
  | .vlut _ _ _ _ => true
  | .vexpd _ _ _ => true
  | .vcmpr _ _ _ => true
  | .kmov _ _ => true
  | .vcvt _ _ _ _ => true
  | .vqmx _ _ _ _ => true
  | .vdqmx _ _ _ _ _ _ => true
  | .vqef _ _ _ _ _ => true
  | .vld _ _ _ _ _ => true
  | .vst _ _ _ _ _ => true
  | .vlds _ _ _ _ _ => true
  | .vsts _ _ _ _ _ => true
  | .vld2 _ _ _ _ _ => true
  | .vst2 _ _ _ _ _ => true
  | .vldx _ _ _ _ _ => true
  | .vstx _ _ _ _ _ => true
  | .vldf _ _ _ _ _ => true
  | .vldw _ _ _ _ => true
  | .vstw _ _ _ _ => true
  | .vamoadd _ _ _ _ _ => true
  | .vamomin _ _ _ _ _ => true
  | .vamomax _ _ _ _ _ => true
  | .vamoand _ _ _ _ _ => true
  | .vamoor _ _ _ _ _ => true
  | .vamoxor _ _ _ _ _ => true
  | .vamoswp _ _ _ _ _ => true
  | .vamofadd _ _ _ _ _ => true
  | .kld _ _ _ _ => true
  | .kst _ _ _ _ => true
  | .vpf _ _ _ _ => true
  | .spld _ _ _ _ => true
  | .spst _ _ _ _ => true
  | .sxins _ _ _ _ => true
  | .sxlkp _ _ _ _ => true
  | .sxacc _ _ _ _ => true
  | .sxdrn _ _ _ => true
  | .sxclr _ => true
  | .mshape _ _ _ => true
  | .mma _ _ _ _ _ _ => true
  | .mmas _ _ _ _ _ _ => true
  | .mlast _ _ _ _ => true
  | .xcp _ _ => true
  | .xcpm _ _ => true
  | .xchain _ _ _ => true
  | .xstat _ _ => true
  | .spawn _ _ _ => true
  | .join _ => true
  | .endt _ => true
  | .tackPop _ _ => false
  | .waitaWake _ _ => false
  | .barrierDepart _ _ => false
  | .ringFullDeadlock _ => false
  | .loadComplete _ _ => false
  | .matrixComplete _ _ => false
  | .followOnIssue _ _ => false
  | .followOnComplete _ _ => false
  | .copyAcquire _ _ => false
  | .copyTransfer _ _ => false
  | .copyRelease _ _ => false
  | .eyeletWrite _ _ => false
  | .chainRecordRead _ _ => false
  | .walkComplete _ _ _ => false
  | .probeAcknowledgement _ _ _ => false
  | .probeRefusal _ _ _ => false
  | .faultEntryPost _ => false
  | .storeBufferDrain _ _ => false
  | .deferredStoreTrap _ _ => false
  | .cacheFill _ => false
  | .eviction _ _ _ _ => false
  | .writeBackMerge _ _ => false
  | .bypassWriteAck _ => false
  | .nameRecall _ _ => false
  | .eccError _ _ _ _ _ => false
  | .faultDomainEnd _ _ => false
  | .launchPacketTake _ => false
  | .launchPlacement => false
  | .launchAging _ _ => false
  | .preemption _ => false
  | .contextSave _ _ => false
  | .contextRestore _ _ => false
  | .regionRetire _ => false
  | .arbiterEpoch _ _ => false
  | .queueDoorbell _ _ => false
  | .queueHeadWrite _ _ => false
  | .queueErrClear _ => false
  | .queueEnable _ _ => false
  | .registerWrite _ _ => false
  | .hostMemoryRead _ _ => false
  | .hostMemoryWrite _ _ _ => false
  | .loadObject => false
  | .unload => false
  | .rangeHold => false
  | .rangeFree => false
  | .spaceUpdate => false
  | .resolveRetry => false
  | .resolveFail => false
  | .endRegion => false
  | .setSavePool => false
  | .attest => false
  | .protect => false
  | .deviceReset => false
  | .bootDoorbell _ => false
  | .imageVerifyComplete => false
  | .gddrTrainingComplete _ => false
  | .fullServiceChange => false
  | .linkBringup _ => false
  | .linkFlitReceive _ _ => false
  | .peerRequest _ => false
  | .linkFailure _ => false
  | .targetAcknowledgement _ => false

/-- The bytes of a word, least significant first (R6, R231). -/
def wordBytes (w : Nat) : List Byte :=
  [BitVec.ofNat 8 w, BitVec.ofNat 8 (w / 2 ^ 8), BitVec.ofNat 8 (w / 2 ^ 16), BitVec.ofNat 8 (w / 2 ^ 24)]

/-- The instruction that the decoder reads from the opcode table's word `w`; a row of the table has 32 bits, the one
word of the instruction, and bits above `nbits` are zero. -/
def decodeTableWord (nbits w : Nat) : Option Instr :=
  match decodeBytes (wordBytes (w % 2 ^ nbits)) with
  | some (.ok i, []) => some i
  | _ => none

end Sys2Proof
end

