-- ==== Sys2Proof/Machine/State.lean ====
section
/-! DEFINITION. The state of the machine as plain data: everything INVENTORY.md lists under State, and the model's
own scheduling fields. Names follow the spec; each docstring names the rule of spec/ that gives the field. -/

namespace Sys2Proof.Machine

/-! ## Memory -/

/-- Bytes by address: addresses strictly rising, no entry equal to the byte an unlisted address reads as. -/
abbrev Memory := List Host.Cell

/-- The tile class of a page (02 R26). -/
inductive TClass where
  | untiled
  | t32
  | t16
  | t8
  deriving DecidableEq, Repr

/-- The memory class of a page (04 R82). -/
inductive MClass where
  | normal
  | nonIdempotent
  | device
  deriving DecidableEq, Repr

/-- The attributes of a leaf (04 R79). -/
structure Attr where
  mc : MClass
  skew : BitVec 2
  tclass : TClass
  r : Bool
  w : Bool
  x : Bool
  s : Bool
  deriving DecidableEq, Repr

/-- A leaf translation (04 R75): log2 of the page size is 12, 16, 21 or 30. -/
structure Leaf where
  space : BitVec 16
  vbase : Nat
  lg : Nat
  frame : Nat
  attr : Attr
  /-- Whether a write may be made under it without another walk: D of an Sv57 leaf (04 R83, R88). -/
  d : Bool
  deriving DecidableEq, Repr

/-- An entry of a walk cache (04 R75): the table entry of `level` found at `key`, the bits above its index. -/
structure WalkEntry where
  space : BitVec 16
  level : Nat
  key : Nat
  entry : BitVec 64
  deriving DecidableEq, Repr

/-- A valid permission-filter entry (04 R85). -/
structure FilterEntry where
  space : BitVec 16
  vbase : Nat
  lg : Nat
  attr : Attr
  cf : Bool
  pd : Bool
  deriving DecidableEq, Repr

/-- A record of a name directory (04 R91). -/
structure NameRec where
  space : BitVec 16
  vbase : Nat
  frame : Nat
  lg : Nat
  /-- Bank skew and tile class of its leaf, by which its lines find their home slice (03 R57, R58). -/
  skew : BitVec 2
  tclass : TClass
  deriving DecidableEq, Repr

/-- One 128-byte slot (03 R43). -/
structure Row where
  valid : Bool
  dirty : BitVec 128
  poison : BitVec 16
  data : BitVec 1024
  /-- Blocks of the regions that wrote its dirty bytes, rising (26 R382). -/
  writers : List Nat
  deriving DecidableEq, Repr

/-- The rows of one way that hold one line of an untiled page, or the frame of one tiled block (03 R44). -/
structure Frame where
  space : BitVec 16
  base : Nat
  tclass : TClass
  way : Nat
  colValid : BitVec 128
  rows : List Row
  deriving DecidableEq, Repr

/-- A set-associative array: its resident slots and frames. -/
abbrev Cache := List Frame

/-- The slots of one home slice that hold one line of an untiled page, or the frame of one tiled block (03 R57): its
physical base, its slice among those of the package, and the dirty mask of every row that is resident, rows rising. The
bytes themselves stand once, in the memory that the slice serves. -/
structure HomeFrame where
  base : Nat
  tclass : TClass
  slice : Nat
  rows : List (Nat × BitVec 128)
  deriving DecidableEq, Repr

/-- One slot on its way to the next level (03 R47), with the virtual address of its first byte. -/
structure WriteBack where
  space : BitVec 16
  va : Nat
  tclass : TClass
  dirty : BitVec 128
  poison : BitVec 16
  data : BitVec 1024
  writers : List Nat
  deriving DecidableEq, Repr

/-- A write on its way to a home slice or to a target (03 R50, R52, R53): who sent it and what it writes. -/
structure SentWrite where
  slot : Nat
  /-- Block of the region that made it (26 R382), and the number of its store in its hart's stores class (19 R347). -/
  blk : Nat
  nth : Nat
  space : BitVec 16
  va : Nat
  pa : Nat
  bytes : List Byte
  poison : Bool
  /-- Bank skew and tile class of its leaf, by which its line finds its home slice (03 R58); none where its page is not of the
  normal class, so that no slice holds it (03 R52). -/
  home : Option (BitVec 2 × TClass)
  deriving DecidableEq, Repr

/-- A fill in flight (03 R46): the line that it will bring into the L1. -/
structure FillReq where
  space : BitVec 16
  va : Nat
  col : Bool
  attr : Attr
  deriving DecidableEq, Repr

/-- The state of a store-buffer entry (05 R99); a free entry is not listed. -/
inductive SbState where
  | pending
  | acked
  | faulted
  | reported
  | replaying
  deriving DecidableEq, Repr

/-- An entry of the late-fault store buffer (05 R97, R107). `idx` is its place, 0 to 127. -/
structure SbEntry where
  idx : Nat
  slot : Nat
  seq : Nat
  pc : Word
  space : BitVec 16
  va : Nat
  mask : BitVec 128
  data : BitVec 1024
  poison : BitVec 16
  hostq : Nat
  efirst : Nat
  elast : Nat
  ew : Nat
  gseg : Nat
  orient : Bool
  state : SbState
  inner : Nat
  wres : Nat
  level : Nat
  ord : Bool
  /-- MODEL'S OWN: the number of its store instruction in its hart's stores class (19 R347). -/
  nth : Nat
  /-- Privilege of the store, for its probe (04 R89): true when user. -/
  user : Bool
  /-- Tile class of the page, for the line written at the drain; base and log2 of the size of the page that its probe
  names (04 R89). -/
  tclass : TClass
  pbase : Nat
  plg : Nat
  /-- Segment offset of its lowest element, and that element's address (05 R103). -/
  off : Word
  eva : Nat
  deriving DecidableEq, Repr

/-! ## Accesses -/

/-- One access, as its fault record names it (05 R108). -/
structure Acc where
  core : Nat
  slot : Nat
  space : BitVec 16
  user : Bool
  /-- 0 load, 1 store, 2 atomic, 3 fetch, 4 copy engine. -/
  kind : Nat
  gseg : Nat
  /-- Offset and address of the first byte of its element, in the view in which the instruction names it: what a fault
  record holds (05 R108). -/
  off : Word
  rva : Nat
  /-- Address of the bytes themselves in that view, whose page a host entry names (05 R112), and where they lie: their
  cell in a tiled page (02 R28), once that is known. -/
  pva : Nat
  va : Nat
  elem : Nat
  ew : Nat
  col : Bool
  /-- Whether a host entry made for it has it as requester (10 R185). -/
  requester : Bool
  deriving DecidableEq, Repr

/-- One access of an element that has passed its checks, with what it stores; `last` is the highest element that has
bits in it, where narrow elements share a byte (17 R306). -/
structure Piece where
  i : Nat
  last : Nat
  a : Acc
  e : FilterEntry
  cell : Nat
  n : Nat
  x : Nat
  deriving DecidableEq, Repr

/-- A vector store that has passed its checks and waits (05 R97): the accesses that it has not performed, each with
whether it goes to the store buffer; the element that failed its checks, if one did; and whether it has performed any. -/
structure Paused where
  todo : List (Piece × Bool)
  bad : Option Nat
  begun : Bool
  /-- The element that failed at its segment or its orientation: the pages of those below were confirmed first, and it leaves
  nothing in the store buffer (01 R23, 02 R31). -/
  early : Option Nat
  deriving DecidableEq, Repr

/-! ## Harts -/

/-- A vector register (12 R227, 10 R193): contents, tag, valid length in units of 64 bytes, dirty bit. -/
structure VReg where
  bits : BitVec 16384
  tag : BitVec 8
  len : Nat
  dirty : Bool
  deriving DecidableEq, Repr

/-- A scale register (12 R227, 10 R193). -/
structure KReg where
  bits : BitVec 2048
  dirty : Bool
  /-- MODEL'S OWN: the save area holds an image of it from an earlier save of the same hart (10 R193). -/
  image : Bool
  deriving DecidableEq, Repr

/-- The control registers of a hart (12 R228, R229). -/
structure Ctrl where
  vl : Word
  vm : Word
  vs : Word
  vt : Word
  vstart : Word
  vrep : Word
  vsr : Word
  frm : Word
  fflags : Word
  mrow : Word
  mcol : Word
  mdep : Word
  bthr : Word
  tcause : Word
  tepc : Word
  tval : Word
  tstat : Word
  tvec : Word
  deriving DecidableEq, Repr

/-- A retired load whose destination is still pending (15 R272, 17 R308): the register's new value. -/
inductive PendingLoad where
  | v (d : VIx) (val : VReg)
  /-- SXLKP and SXDRN write two registers (17 R322). -/
  | vv (d e : VIx) (x y : VReg)
  | k (d : KIx) (val : KReg)
  deriving DecidableEq, Repr

/-- A register that an instruction not yet retired has written in part, with what it held before: the prior value, and of a
vector register the prior tag with it (10 R180). -/
inductive RegPrior where
  | x (d : XIx) (val : Word)
  | v (d : VIx) (val : VReg)
  | k (d : KIx) (val : KReg)
  deriving DecidableEq, Repr

/-- What an instruction that is not retired has written so far, as it was before (10 R180): its sequence number, its register
and `vstart`. -/
structure Begun where
  seq : Nat
  reg : RegPrior
  vstart : Word
  deriving DecidableEq, Repr

/-- A retired matrix instruction whose D group is pending (18 R333): the new registers and the flags it accrues. -/
structure PendingMat where
  dst : Nat
  vals : List VReg
  flags : BitVec 8
  deriving DecidableEq, Repr

/-- What a hart is doing. -/
inductive Run where
  /-- It issues. -/
  | running
  /-- Asleep in WAITA (08 R163), with the operands of the instruction. -/
  | asleep (any : Bool) (d a b : XIx)
  /-- Arrived at a BAR of this scope (19 R350). -/
  | barrier (sc : Scope)
  /-- Idle in ENDT (08 R160); the number orders idle harts by how long they have waited (09 R173). -/
  | idle (since : Nat)
  /-- Waiting on a full ring in SPAWN or JOIN (08 R162) to push this record. -/
  | ringWait (r : Nat)
  /-- In a recoverable trap, waiting for the host (10 R191). -/
  | hostWait
  /-- Stopped for pre-emption, draining (10 R192), and whether at a WAITA that slept. -/
  | draining (asleep : Bool)
  deriving DecidableEq, Repr

/-- The record of one trap (05 R108), without the fields that the hart itself gives (seq, pc, core, slot). -/
structure FRec where
  cause : Nat
  inner : Nat := 0
  word : BitVec 32 := 0
  elem : Nat := 0
  elast : Nat := 0
  ew : Nat := 0
  gseg : Nat := 0
  off : Word := 0
  va : Nat := 0
  space : BitVec 16 := 0
  hostq : Nat := 0
  level : Nat := 0
  wres : Nat := 0
  orient : Bool := false
  kind : Nat := 0
  deferred : Bool := false
  rep : Bool := false
  nmore : Nat := 0
  deriving DecidableEq, Repr

/-- The stages of a copy command (07 R144). -/
inductive Stage where
  /-- The record of a chain is to be read (19 R344). -/
  | record
  | acquire
  | transfer
  | release
  | eyelet
  /-- Every stage of the command has taken effect; only its follow-on may be open. -/
  | done
  deriving DecidableEq, Repr

/-- Where a follow-on matrix instruction stands (07 R147). -/
inductive FollowStage where
  | waiting
  | issued (m : PendingMat)
  | closed
  deriving DecidableEq, Repr

/-- The follow-on of a command: its instruction, and the registers that it reads as they stood at its XCPM, or when its
record was read, but for the scale registers, which stand as at the XCHAIN (19 R342, 16 R292). -/
structure Follow where
  instr : Instr
  x : Vector Word 32
  v : Vector VReg 64
  k : Vector KReg 16
  ctl : Ctrl
  /-- Its number in its hart's matrix class (19 R347). -/
  nth : Nat
  /-- What its command has written into the scratchpad of its core, by physical byte, the latest first (19 R342). -/
  own : List (Nat × Byte)
  stage : FollowStage
  deriving DecidableEq, Repr

/-- An outstanding copy command (19 R338 to R345). -/
structure Cmd where
  slot : Nat
  /-- Its number in its hart's copies class (19 R347). -/
  nth : Nat
  /-- c0 to c7. -/
  c : List Word
  /-- Sixteen segment registers as they stood at issue (01 R25). -/
  segs : List (BitVec 128)
  /-- A chain's segment and the offset of the record being performed. -/
  chain : Option (BitVec 128 × Nat)
  vsr : Word
  /-- The scale registers at its issue, which the follow-ons of a chain's records read (16 R292). -/
  ks : Vector KReg 16
  space : BitVec 16
  user : Bool
  blk : Nat
  stage : Stage
  /-- Next element: row and column. -/
  r : Nat
  j : Nat
  /-- Snapshots of the lasts it names (02 R41). -/
  srcLast : Option (BitVec 512)
  dstLast : Option (BitVec 512)
  /-- MODEL'S OWN: word 0 as the command's record has it, where the command runs without the release or the eyelet that its
  record asks for, since they fail their checks (19 R343, R345). -/
  word0 : Option Word := none
  /-- Flags of the conversions written so far (19 R340). -/
  flags : BitVec 8
  /-- The failure it has met. -/
  failed : Option FRec
  follow : Option Follow
  deriving DecidableEq, Repr

/-- A failed copy command that no instruction has consumed (19 R345): its record, and the command as it is issued
again; `lost` says that its follow-on will not write its D group; `resolved` that the host has answered its page's entry
with "retry" (05 R113). -/
structure CmdFailure where
  frec : FRec
  cmd : Cmd
  lost : Bool
  resolved : Bool
  deriving DecidableEq, Repr

/-- A trap that the firmware is handling (10 R190). -/
structure Handling where
  frec : FRec
  /-- The pc that its fault record names (05 R103, R108). -/
  recPc : Word
  /-- PC at the trap, which a return from it resumes. -/
  pc : Word
  /-- Taken in supervisor mode (10 R188). -/
  nested : Bool
  /-- Whether no answer of the host is awaited any more (10 R190, R191): it was "retry", or the trap is of stores whose own
  entries in the buffer still hold it (05 R104). -/
  retry : Bool
  deriving DecidableEq, Repr

/-- A hart (08 R151). -/
structure Hart where
  x : Vector Word 32
  v : Vector VReg 64
  k : Vector KReg 16
  g : Vector (BitVec 128) 16
  /-- Supervisor g0 and g1 (10 R188). -/
  sg0 : BitVec 128
  sg1 : BitVec 128
  pc : Word
  /-- true in user mode. -/
  user : Bool
  ctl : Ctrl
  /-- Sequence number (05 R110). -/
  seq : Nat
  /-- Current-tack address (08 R151). -/
  tack : Word
  /-- Region block and space tag of its region (08 R153, 01 R12). -/
  blk : Nat
  space : BitVec 16
  run : Run
  /-- Whether it holds work (08 R160). -/
  works : Bool
  /-- Context save area (10 R194). -/
  area : Nat
  loads : List PendingLoad
  mats : List PendingMat
  fail : Option CmdFailure
  trap : Option Handling
  /-- Age for the issue selector (09 R174). -/
  age : Nat
  /-- The vector store at the hart's pc, paused (05 R97). -/
  placed : Option Paused
  /-- Whether an element of the ordered store at the hart's pc has entered the buffer (05 R98). -/
  ordered : Bool
  /-- Flags of the completed elements of the instruction at the hart's pc, which accrue when it retires (12 R230). -/
  owed : BitVec 8
  /-- The record that the JOIN at the hart's pc has still to push: its decrement has been performed (08 R160, R162). -/
  push : Option Nat
  /-- The parent record that the JOIN at the hart's pc has read from a page that is not of the normal class; it does not
  read it again (08 R160). -/
  parent : Option Nat
  /-- MODEL'S OWN: the sequence number of an instruction that has waited after an access to a page that is not of the normal
  class. While it is the hart's own, that instruction is run to its end before a pre-emption (10 R192 step 1). -/
  pinned : Option Nat
  /-- The history-buffer entry of the vector load at the hart's pc that has written elements of its destination and waits: it
  has read a page that is not of the normal class (10 R180, R192). -/
  prior : Option Begun
  /-- MODEL'S OWN: operations issued so far in the stores, copies and matrix classes (19 R347). -/
  nst : Nat
  ncp : Nat
  nmx : Nat
  deriving DecidableEq, Repr

/-! ## Cores, clusters, dies -/

/-- The grants of one region on a core (01 R18, R20; 03 R62, R72): first unit, units, index units and entries. -/
structure Grant where
  blk : Nat
  b : Nat
  units : Nat
  ixUnits : Nat
  /-- Valid entries of the index scratchpad, keys strictly rising. -/
  table : List (Nat × Word)
  /-- Keys whose entry holds poison (03 R61). -/
  tablePoison : List Nat
  deriving DecidableEq, Repr

/-- A core. -/
structure Core where
  /-- Partition code: p = 2^lpart (08 R152). -/
  lpart : Nat
  l1 : Cache
  l1i : Cache
  meta1 : Cache
  filter : List FilterEntry
  sb : List SbEntry
  /-- Scratchpad bytes by physical byte number, 0 to 1,015,807 (03 R62). -/
  sp : Memory
  /-- Physical words of the scratchpad that hold poison, rising (03 R61). -/
  spPoison : List Nat
  grants : List Grant
  fills : List FillReq
  wbq : List WriteBack
  bypass : List SentWrite
  target : List SentWrite
  cmds : List Cmd
  /-- Engine rotation (09 R175) and last slot picked (09 R174). -/
  engTurn : Nat
  lastPick : Nat
  /-- Issue cycles of every 16 that the arbiter allows (09 R177). -/
  q : Nat
  /-- The largest pwr among the regions whose harts issued matrix or vector work in this epoch; 0 with none (09 R177). -/
  worked : Nat
  deriving DecidableEq, Repr

/-- A cluster. -/
structure Cluster where
  l2 : Cache
  wbq : List WriteBack
  deriving DecidableEq, Repr

/-- An unresolved host fault (05 R112). -/
structure HostFault where
  id : Nat
  va : Nat
  space : BitVec 16
  core : Nat
  slot : Nat
  wres : Nat
  level : Nat
  kind : Nat
  waits : Nat
  posted : Bool
  /-- Position in the order in which entries were made. -/
  order : Nat
  deriving DecidableEq, Repr

/-- A die. -/
structure Die where
  tcache : List Leaf
  wcache : List WalkEntry
  names : List NameRec
  faults : List HostFault
  nextOrder : Nat
  throttled : Word
  deriving DecidableEq, Repr

/-! ## Translation, front end, host interface -/

/-- A range hold in force (04 R94). -/
structure Hold where
  space : BitVec 16
  base : Nat
  lg : Nat
  deriving DecidableEq, Repr

structure Xlat where
  /-- Space descriptors that are not zero, by tag (04 R77). -/
  spaces : List (Nat × BitVec 128)
  holds : List Hold
  deriving DecidableEq, Repr

/-- Effective fields of a region (08 R153, R154; 09 R167). -/
structure Fields where
  blk : Nat
  parent : Nat
  tqbase : Nat
  tqsz : Nat
  space : BitVec 16
  fdom : Nat
  ovr : BitVec 8
  hmax : Nat
  lp : Nat
  spb : Nat
  ixu : Nat
  pwr : Nat
  prio : Nat
  deriving DecidableEq, Repr

/-- A launch accepted into state 1 (09 R166). -/
structure Launch where
  f : Fields
  rid : Nat
  queue : Nat
  tag : BitVec 32
  entry : Word
  n : Nat
  args : List Word
  binds : List (BitVec 128)
  cobj : Nat
  span : Nat
  /-- Cycles it has waited (09 R171). -/
  waited : Nat
  deriving DecidableEq, Repr

/-- A region in state 2 or 3, or one whose end is still to be written. -/
structure Region where
  f : Fields
  rid : Nat
  queue : Nat
  tag : BitVec 32
  cobj : Nat
  /-- Placement order (09 R172). -/
  placed : Nat
  cores : List Nat
  /-- State 5 or 6 that it is ending in (08 R156, 26 R380). -/
  ending : Option Nat
  /-- A write-back that it issued to a lost peer was discarded (26 R382). -/
  lost : Bool
  deriving DecidableEq, Repr

/-- One who asked for a page that the host fails (05 R113): its block, cause, pc, core and slot. -/
structure Requester where
  blk : Nat
  cause : Nat
  pc : Word
  core : Nat
  slot : Nat
  deriving DecidableEq, Repr

/-- A pre-empted hart whose context is in its save area (10 R192, R194). -/
structure SavedHart where
  core : Nat
  slot : Nat
  blk : Nat
  area : Nat
  works : Bool
  /-- Whether it was saved asleep in WAITA (10 R195, wait = 01). -/
  asleep : Bool
  /-- The resolution that arrived while it was saved, acted on at its restore (10 R196, R200): with retry; with fail,
  the end of its domain. -/
  resolved : Bool
  failed : Option Requester
  /-- As in `Hart`. -/
  ordered : Bool
  owed : BitVec 8
  push : Option Nat
  parent : Option Nat
  /-- Trap being handled and pending command failure. -/
  trap : Option Handling
  fail : Option CmdFailure
  g0 : BitVec 128
  /-- MODEL'S OWN: which scale registers have an image in the area, the reported entries whose images it holds, and the
  counts of its classes (19 R347). -/
  images : List Bool
  stores : List SbEntry
  nst : Nat
  ncp : Nat
  nmx : Nat
  deriving DecidableEq, Repr

/-- A loaded code object (20 R357). -/
structure Obj where
  handle : Nat
  space : BitVec 16
  base : Nat
  len : Nat
  level : Nat
  vldep : Bool
  vregs : Nat
  spbytes : Nat
  ixent : Nat
  deriving DecidableEq, Repr

structure FrontEnd where
  launches : List Launch
  regions : List Region
  nextPlaced : Nat
  /-- Base and length of the save pool (10 R198). -/
  pool : Option (Nat × Nat)
  /-- Allocated areas: base and length. -/
  areas : List (Nat × Nat)
  saved : List SavedHart
  objects : List Obj
  /-- Launch-queue rotation (09 R166). -/
  rr : Nat
  deriving DecidableEq, Repr

/-- A queue block (26 R375), its outstanding interrupt (R376) and the entries held for it (R377). -/
structure Queue where
  base : Word
  tail : BitVec 32
  head : BitVec 32
  vec : BitVec 6
  ie : Bool
  en : Bool
  lsz : BitVec 4
  err : Bool
  /-- MODEL'S OWN: a tail beyond the capacity was found, and tail has not been written since. -/
  stuck : Bool
  outstanding : Bool
  held : List (BitVec 128)
  deriving DecidableEq, Repr

/-- A link (26 R382, 27 R390). -/
structure Link where
  up : Bool
  failures : Nat
  deriving DecidableEq, Repr

structure HostIf where
  queues : List (Nat × Queue)
  /-- Whether the command unit has taken the command at the head of ring 32 and not completed it (26 R379, 27 R387). -/
  current : Bool
  peers : List (Nat × Word)
  linkId : BitVec 16
  links : List (Nat × Link)
  /-- MSI-X messages sent, newest first: the vector and the queue. -/
  msix : List (Nat × Nat)
  /-- Bytes that the last read by the host or a peer returned (07 R138, R139). -/
  lastRead : List Byte
  deriving DecidableEq, Repr

/-- What the control window's status area shows (27 R383, R384), and bring-up. -/
structure Status where
  fwver : BitVec 32
  berr : BitVec 8
  phase : BitVec 4
  bootLen : Nat
  /-- The bytes of the accepted image. -/
  image : List Byte
  measurement : BitVec 512
  corrected : BitVec 64
  uncorrected : BitVec 64
  evCount : BitVec 32
  events : List (Nat × Word)
  /-- Protected ranges: base and length (27 R390). -/
  prot : List (Nat × Nat)
  /-- Training is over and the change of R387 is due. -/
  trained : Bool
  sg0 : BitVec 128
  sg1 : BitVec 128
  tvec : Word
  deriving DecidableEq, Repr

/-! ## The machine -/

/-- Whose turn it is (MODEL'S OWN, log entry 1): a hart, an event of the opcode table, the command unit, or the front
end, which ends the domain of a region that lost a write-back (26 R382). A ready hart's turn is an issue cycle of its core,
in which the selector picks among the ready harts (09 R174) whose slots are not in `late`: operands or units that are not
there in time are timing, which the model leaves to the action (log entry 92). -/
inductive Action where
  | hart (core slot : Nat) (late : List Nat)
  | event (i : Instr)
  | commandUnit
  | lostRegion
  deriving DecidableEq, Repr

/-- The machine. -/
structure State where
  /-- MODEL'S OWN: what moves next; empty lets the rotation choose. -/
  agenda : List Action
  turn : Nat
  /-- MODEL'S OWN: key (core times 8 plus slot) of the hart whose instruction is being executed. -/
  cur : Nat
  /-- MODEL'S OWN: steps taken, and how many had been when the device last left reset (log entry 7). -/
  ticks : Nat
  leftReset : Nat
  /-- MODEL'S OWN: how many free choices have been made (log entry 9). -/
  free : Nat
  /-- Device memory as the home slices serve it, by device physical address (01 R14, 03 R57). -/
  mem : Memory
  /-- Device words (address divided by 8) that hold poison, rising (03 R61). -/
  poison : List Nat
  /-- What the memory-side SRAM caches hold (03 R42, R57). -/
  home : List HomeFrame
  harts : List (Nat × Hart)
  cores : List (Nat × Core)
  clusters : List (Nat × Cluster)
  dies : List (Nat × Die)
  xlat : Xlat
  fe : FrontEnd
  io : HostIf
  sts : Status
  deriving DecidableEq, Repr

/-- Reasons to stop that are not traps of the device. -/
inductive Fault where
  /-- Raised by every meaning of a hart's instruction when `cur` names no started hart. Safe: the device has no
  such step, since a core issues only from started harts (09 R174). -/
  | noHart
  deriving DecidableEq, Repr

/-- Reasons not to give a step a meaning. -/
inductive Refusal where
  /-- Raised by `exec` alone, for an instruction that has no meaning yet. Safe. -/
  | notModelled (mnemonic : String)
  deriving DecidableEq, Repr

/-! ## Reset -/

/-- A vector register at launch (12 R227, 10 R193). -/
def VReg.reset : VReg := { bits := 0, tag := 0, len := 0, dirty := false }

/-- A scale register at launch (12 R227). -/
def KReg.reset : KReg := { bits := 0, dirty := false, image := false }

/-- Control registers at launch (12 R229). -/
def Ctrl.reset : Ctrl :=
  { vl := 0, vm := 0, vs := 0, vt := 0, vstart := 0, vrep := 0, vsr := 0, frm := 0, fflags := 0, mrow := 0,
    mcol := 0, mdep := 0, bthr := 0, tcause := 0, tepc := 0, tval := 0, tstat := 0, tvec := 0 }

/-- A hart at its start, before a launch gives it its entry, its arguments and its region (08 R157). -/
def Hart.reset : Hart :=
  { x := Vector.replicate 32 0, v := Vector.replicate 64 VReg.reset, k := Vector.replicate 16 KReg.reset,
    g := Vector.replicate 16 0, sg0 := 0, sg1 := 0, pc := 0, user := true, ctl := Ctrl.reset, seq := 0, tack := 0,
    blk := 0, space := 0, run := .running, works := true, area := 0, loads := [], mats := [], fail := none,
    trap := none, age := 0, placed := none, ordered := false, owed := 0, push := none, parent := none,
    pinned := none, prior := none, nst := 0, ncp := 0, nmx := 0 }

/-- A core after device reset. -/
def Core.reset : Core :=
  { lpart := 0, l1 := [], l1i := [], meta1 := [], filter := [], sb := [], sp := [], spPoison := [], grants := [],
    fills := [], wbq := [], bypass := [], target := [], cmds := [], engTurn := 0, lastPick := 0,
    q := 16, worked := 0 }

/-- A cluster after device reset. -/
def Cluster.reset : Cluster := { l2 := [], wbq := [] }

/-- A die after device reset. -/
def Die.reset : Die := { tcache := [], wcache := [], names := [], faults := [], nextOrder := 0, throttled := 0 }

/-- A queue block after device reset (26 R375). -/
def Queue.reset : Queue :=
  { base := 0, tail := 0, head := 0, vec := 0, ie := false, en := false, lsz := 0, err := false,
    stuck := false, outstanding := false, held := [] }

/-- A link before bring-up (log entry 20). -/
def Link.reset : Link := { up := false, failures := 0 }

/-- The machine right after device reset: phase 0, every die waiting for a firmware image (27 R385), no hart
started, nothing cached, nothing listed in memory. -/
def State.reset : State :=
  { agenda := [], turn := 0, cur := 0, ticks := 0, leftReset := 0, free := 0, mem := [], poison := [], home := [],
    harts := [], cores := [], clusters := [], dies := [],
    xlat := { spaces := [], holds := [] },
    fe := { launches := [], regions := [], nextPlaced := 0, pool := none, areas := [], saved := [],
            objects := [], rr := 0 },
    io := { queues := [], current := false, peers := [], linkId := 0, links := [], msix := [], lastRead := [] },
    sts := { fwver := 0, berr := 0, phase := 0, bootLen := 0, image := [], measurement := 0, corrected := 0,
             uncorrected := 0, evCount := 0, events := [], prot := [], trained := false, sg0 := 0, sg1 := 0,
             tvec := 0 } }

end Sys2Proof.Machine
end

