-- ==== Sys2Proof/Machine/Bits.lean ====
section
/-! DEFINITION. Bits, bytes, tables by key and memory: the plain data operations that every other file uses.
A number's bit field is written `fld n hi lo`, as the spec writes [hi:lo]. -/

namespace Sys2Proof.Machine

/-! ## Bit fields -/

/-- Bits [hi:lo] of a number (spec 00 R6). -/
def fld (n hi lo : Nat) : Nat := (n >>> lo) % 2 ^ (hi + 1 - lo)

/-- Bit i of a number. -/
def bit (n i : Nat) : Bool := n.testBit i

/-- Two's complement value of the low w bits of n (00 R6). -/
def sgn (w n : Nat) : Int :=
  let m := n % 2 ^ w
  if m < 2 ^ (w - 1) then (m : Int) else (m : Int) - (2 ^ w : Nat)

/-- The low w bits of an integer, as a number. -/
def wrap (w : Nat) (i : Int) : Nat := (i % ((2 ^ w : Nat) : Int)).toNat

/-- The low w bits of n, sign-extended to 64 bits (14 R259). -/
def sext64 (w n : Nat) : Word := BitVec.ofInt 64 (sgn w n)

/-- Element i of width w of a number (00 R6). -/
def elt (n w i : Nat) : Nat := (n >>> (i * w)) % 2 ^ w

/-- Replaces bits [lo+w-1:lo] of n by the low w bits of x. -/
def put (n lo w x : Nat) : Nat :=
  let lowPart := n % 2 ^ lo
  let highPart := n >>> (lo + w)
  (highPart <<< (lo + w)) + ((x % 2 ^ w) <<< lo) + lowPart

/-- Replaces element i of width w. -/
def putElt (n w i x : Nat) : Nat := put n (i * w) w x

/-- A mask of n ones. -/
def ones (n : Nat) : Nat := 2 ^ n - 1

/-- Integer logarithm: the position of the highest set bit; 0 for 0. Structural on the fuel. -/
def lg2 (n : Nat) : Nat := Nat.log2 n

/-- ceil(a / b). -/
def cdiv (a b : Nat) : Nat := (a + b - 1) / b

/-! ## Bytes -/

/-- The number whose bytes, least significant first, are given (00 R6: little-endian). -/
def ofBytes : List Byte → Nat
  | [] => 0
  | b :: t => b.toNat + 256 * ofBytes t

/-- The n low bytes of a number, least significant first. -/
def toBytes : Nat → Nat → List Byte
  | 0, _ => []
  | n + 1, x => BitVec.ofNat 8 x :: toBytes n (x / 256)

/-! ## Tables by key, keys rising -/

/-- The value at a key. -/
def aget {α : Type} : List (Nat × α) → Nat → Option α
  | [], _ => none
  | (k, v) :: t, i => if k = i then some v else aget t i

/-- Sets the value at a key. -/
def aset {α : Type} : List (Nat × α) → Nat → α → List (Nat × α)
  | [], i, x => [(i, x)]
  | (k, v) :: t, i, x =>
    if i < k then (i, x) :: (k, v) :: t
    else if k = i then (i, x) :: t
    else (k, v) :: aset t i x

/-- Removes a key. -/
def adel {α : Type} : List (Nat × α) → Nat → List (Nat × α)
  | [], _ => []
  | (k, v) :: t, i => if k = i then adel t i else (k, v) :: adel t i

/-- Inserts a number in a rising list without repeats. -/
def nins : List Nat → Nat → List Nat
  | [], i => [i]
  | k :: t, i => if i < k then i :: k :: t else if k = i then k :: t else k :: nins t i

/-- Removes a number from a list. -/
def ndel (l : List Nat) (i : Nat) : List Nat := l.filter (fun k => k ≠ i)

/-! ## Memory -/

/-- What an unlisted address reads as (DESIGN CHOICE, unsafe, log entry 5: the spec gives device memory no
contents at power-on). -/
def Memory.background : Byte := 0

/-- One byte of memory. -/
def Memory.get (m : Memory) (a : Nat) : Byte := (aget m a).getD Memory.background

/-- Writes one byte; writing what an unlisted address reads as removes the entry. -/
def Memory.set (m : Memory) (a : Nat) (b : Byte) : Memory :=
  if b = Memory.background then adel m a else aset m a b

/-- Whether addresses rise strictly from above `lo` and no entry equals the background. -/
def Memory.wfFrom : Option Nat → Memory → Bool
  | _, [] => true
  | lo, (a, b) :: t =>
    (match lo with
     | none => true
     | some l => decide (l < a)) && decide (b ≠ Memory.background) && Memory.wfFrom (some a) t

/-- The canonical form of memory. -/
def Memory.wf (m : Memory) : Bool := Memory.wfFrom none m

/-- n bytes from a. -/
def Memory.read (m : Memory) (a : Nat) : Nat → List Byte
  | 0 => []
  | n + 1 => m.get a :: Memory.read m (a + 1) n

/-- Writes bytes from a. -/
def Memory.write (m : Memory) (a : Nat) : List Byte → Memory
  | [] => m
  | b :: t => Memory.write (m.set a b) (a + 1) t

/-- Writes the bytes from a whose mask bits are set (03 R48). -/
def Memory.writeMasked (m : Memory) (a : Nat) (mask : Nat) : List Byte → Memory
  | [] => m
  | b :: t => Memory.writeMasked (if mask % 2 = 1 then m.set a b else m) (a + 1) (mask / 2) t

/-- A little-endian number of n bytes at a. -/
def Memory.num (m : Memory) (a n : Nat) : Nat := ofBytes (m.read a n)

/-- Writes a little-endian number of n bytes at a. -/
def Memory.setNum (m : Memory) (a n x : Nat) : Memory := m.write a (toBytes n x)

/-! ## Lists -/

/-- Position 0 .. n-1, rising. -/
def upto (n : Nat) : List Nat := List.range n

/-- The entry at index i, or a default. -/
def nth {α : Type} (l : List α) (i : Nat) (d : α) : α := l.getD i d

/-- Removes and returns the j-th entry of a list. -/
def pick {α : Type} : List α → Nat → Option (α × List α)
  | [], _ => none
  | a :: t, 0 => some (a, t)
  | a :: t, j + 1 => (pick t j).map fun p => (p.1, a :: p.2)

/-- A permutation of a list that free choices fix: the n-th choice picks among what is left (06 R121, `.any`). -/
def shuffle {α : Type} (f : Nat → Nat) : Nat → Nat → List α → List α
  | 0, _, l => l
  | fuel + 1, n, l =>
    match l with
    | [] => []
    | _ =>
      match pick l (f n % l.length) with
      | none => l
      | some (a, rest) => a :: shuffle f fuel (n + 1) rest

end Sys2Proof.Machine
end

