-- ==== Sys2Proof/Machine/Ops.lean ====
section
/-! DEFINITION. The named operations over the parts of the state: units and harts, registers, segments, the outcome
of an operation that may trap or wait, host fault entries, events, and taking a trap and returning from one. -/

namespace Sys2Proof.Machine

/-- The outcome of a meaning. -/
abbrev Out := Host.Outcome State Fault Refusal

/-! ## Units -/

/-- Key of a hart: core and slot. -/
def hkey (core slot : Nat) : Nat := core * 8 + slot

/-- Core of a hart's key. -/
def coreOf (key : Nat) : Nat := key / 8

/-- Slot of a hart's key. -/
def slotOf (key : Nat) : Nat := key % 8

/-- Cluster of a core, 0 to 47 (01 R11). -/
def clusterOf (core : Nat) : Nat := core / 8

/-- Die of a core (01 R11). -/
def dieOf (core : Nat) : Nat := core / 96

/-- The hart of a key, if one is started. -/
def State.hart? (s : State) (key : Nat) : Option Hart := aget s.harts key

/-- Replaces the hart of a key. -/
def State.setHart (s : State) (key : Nat) (h : Hart) : State := { s with harts := aset s.harts key h }

/-- The hart whose instruction is being executed. -/
def State.me (s : State) : Option Hart := aget s.harts s.cur

/-- Replaces that hart. -/
def State.setMe (s : State) (h : Hart) : State := { s with harts := aset s.harts s.cur h }

/-- A core. -/
def State.core (s : State) (c : Nat) : Core := (aget s.cores c).getD Core.reset

/-- Replaces a core. -/
def State.setCore (s : State) (c : Nat) (x : Core) : State := { s with cores := aset s.cores c x }

/-- A cluster. -/
def State.cluster (s : State) (c : Nat) : Cluster := (aget s.clusters c).getD Cluster.reset

/-- Replaces a cluster. -/
def State.setCluster (s : State) (c : Nat) (x : Cluster) : State := { s with clusters := aset s.clusters c x }

/-- A die. -/
def State.die (s : State) (d : Nat) : Die := (aget s.dies d).getD Die.reset

/-- Replaces a die. -/
def State.setDie (s : State) (d : Nat) (x : Die) : State := { s with dies := aset s.dies d x }

/-- A queue block. -/
def State.queue (s : State) (q : Nat) : Queue := (aget s.io.queues q).getD Queue.reset

/-- Replaces a queue block. -/
def State.setQueue (s : State) (q : Nat) (x : Queue) : State :=
  { s with io := { s.io with queues := aset s.io.queues q x } }

/-- The core and the slot of the current hart. -/
def State.myCore (s : State) : Nat := coreOf s.cur
def State.mySlot (s : State) : Nat := slotOf s.cur

/-- A free choice among n candidates, and the machine with the choice spent (log entry 9). -/
def State.choose (s : State) (n : Nat) : Nat × State :=
  (Config.freeChoice s.free % n, { s with free := s.free + 1 })

/-- Block of the region whose hart has a slot. -/
def State.blkAt (s : State) (core slot : Nat) : Nat :=
  match s.hart? (hkey core slot) with
  | some h => h.blk
  | none => 0

/-- A meaning of an instruction of a hart: it needs the hart. -/
def withHart (s : State) (k : Hart → Out) : Out :=
  match s.me with
  | some h => k h
  | none => .fault .noHart

/-! ## Registers -/

/-- Reads x(i); x0 reads zero (12 R227). -/
def Hart.getX (h : Hart) (i : XIx) : Word := if i = 0 then 0 else h.x.get ⟨i.toNat, i.isLt⟩

/-- Writes x(i); a write to x0 is discarded (12 R227). -/
def Hart.setX (h : Hart) (i : XIx) (w : Word) : Hart :=
  if i = 0 then h else { h with x := h.x.set i.toNat w i.isLt }

/-- Vector register n; registers above 63 do not exist and read as at launch. -/
def Hart.getV (h : Hart) (n : Nat) : VReg := if hn : n < 64 then h.v.get ⟨n, hn⟩ else VReg.reset

/-- Writes vector register n. -/
def Hart.setV (h : Hart) (n : Nat) (r : VReg) : Hart := if hn : n < 64 then { h with v := h.v.set n r hn } else h

/-- Scale register n. -/
def Hart.getK (h : Hart) (n : Nat) : KReg := if hn : n < 16 then h.k.get ⟨n, hn⟩ else KReg.reset

/-- Writes scale register n: all its bytes, so it becomes dirty (10 R193). -/
def Hart.setK (h : Hart) (n : Nat) (b : BitVec 2048) : Hart :=
  if hn : n < 16 then { h with k := h.k.set n { h.k[n] with bits := b, dirty := true } hn } else h

/-- Segment register n as the hart's mode names it (10 R188). -/
def Hart.getG (h : Hart) (n : Nat) : BitVec 128 :=
  if h.user then (if hn : n < 16 then h.g.get ⟨n, hn⟩ else 0)
  else if n = 0 then h.sg0
  else if n = 1 then h.sg1
  else if hn : n < 16 then h.g.get ⟨n, hn⟩ else 0

/-- Writes segment register n as the hart's mode names it. -/
def Hart.setG (h : Hart) (n : Nat) (w : BitVec 128) : Hart :=
  if h.user then (if hn : n < 16 then { h with g := h.g.set n w hn } else h)
  else if n = 0 then { h with sg0 := w }
  else if n = 1 then { h with sg1 := w }
  else if hn : n < 16 then { h with g := h.g.set n w hn } else h

/-- Space tag of the hart's accesses: 0 in supervisor mode (10 R188). -/
def Hart.spaceTag (h : Hart) : BitVec 16 := if h.user then h.space else 0

/-- Writes the low bits of a register and marks its first n bytes as written (10 R193). -/
def VReg.write (r : VReg) (bits : Nat) (n : Nat) : VReg :=
  { r with bits := BitVec.ofNat 16384 bits, len := max r.len (cdiv n 64), dirty := true }

/-- Vector length in bits of a core (08 R152). -/
def Core.vlen (c : Core) : Nat := 16384 / 2 ^ c.lpart

/-- Partition of a core (08 R152). -/
def Core.part (c : Core) : Nat := 2 ^ c.lpart

/-- An instruction that is done: the pc moves on and one more instruction has retired (05 R110). -/
def Hart.retire (h : Hart) : Hart := { h with pc := h.pc + 4, seq := h.seq + 1 }

/-- One more operation of the stores class (17 R310). -/
def Hart.countStore (h : Hart) : Hart := { h with nst := h.nst + 1 }

/-- One more operation of the matrix class (18 R333). -/
def Hart.countMat (h : Hart) : Hart := { h with nmx := h.nmx + 1 }

/-- An instruction that is done and goes on elsewhere. -/
def Hart.retireTo (h : Hart) (pc : Word) : Hart := { h with pc := pc, seq := h.seq + 1 }

/-! ## Segment registers (01 R21) -/

def segLimit (g : BitVec 128) : Nat := fld g.toNat 120 64
def segBound (g : BitVec 128) : Bool := bit g.toNat 63
def segX (g : BitVec 128) : Bool := bit g.toNat 62
def segW (g : BitVec 128) : Bool := bit g.toNat 61
def segR (g : BitVec 128) : Bool := bit g.toNat 60
def segBase (g : BitVec 128) : Nat := fld g.toNat 56 6 * 64

/-- The fields of a segment register that are not reserved; reserved ones read as zero (01 R21). -/
def segMask : BitVec 128 := BitVec.ofNat 128 ((ones 57 <<< 64) ||| (0xF <<< 60) ||| (ones 51 <<< 6))

/-! ## Operations that may trap or wait -/

/-- Why an operation does not go on: it traps, or it waits and is tried again at the hart's next turn. -/
inductive Stop where
  | trap (t : FRec)
  | wait
  deriving DecidableEq, Repr

/-- The outcome of an operation on the state. -/
inductive Res (α : Type) where
  | ok (a : α) (s : State)
  | stop (e : Stop) (s : State)

/-- The state that an operation leaves. -/
def Res.state {α : Type} (r : Res α) : State :=
  match r with
  | .ok _ s => s
  | .stop _ s => s

/-- Goes on with the value when there is one. -/
def Res.bind {α β : Type} (r : Res α) (f : α → State → Res β) : Res β :=
  match r with
  | .ok a s => f a s
  | .stop e s => .stop e s

/-! ## Device memory, events -/

/-- n bytes of device memory. -/
def State.readPA (s : State) (pa n : Nat) : Nat := s.mem.num pa n

/-- Writes bytes of device memory; a word that they cover whole holds no poison any more (log entry 22). -/
def State.writePA (s : State) (pa : Nat) (b : List Byte) : State :=
  { s with
    mem := s.mem.write pa b
    poison := s.poison.filter fun w => !(decide (pa ≤ 8 * w) && decide (8 * w + 8 ≤ pa + b.length)) }

/-- Writes an n-byte number. -/
def State.setPA (s : State) (pa n x : Nat) : State := s.writePA pa (toBytes n x)

/-- Logs an event (27 R391): kind, die and detail. -/
def State.logEvent (s : State) (kind die detail : Nat) : State :=
  let e : Word := BitVec.ofNat 64 (kind <<< 56 ||| (die % 4) <<< 54 ||| detail % 2 ^ 52)
  { s with sts := { s.sts with
      events := aset s.sts.events (s.sts.evCount.toNat % 256) e
      evCount := s.sts.evCount + 1 } }

/-- Region of a block address. -/
def State.region (s : State) (blk : Nat) : Option Region := s.fe.regions.find? fun r => r.f.blk = blk

/-- Replaces a region. -/
def State.setRegion (s : State) (r : Region) : State :=
  { s with fe := { s.fe with regions := s.fe.regions.map fun q => if q.f.blk = r.f.blk then r else q } }

/-- The grant of a region on a core. -/
def Core.grant (c : Core) (blk : Nat) : Option Grant := c.grants.find? fun g => g.blk = blk

/-- Replaces a grant. -/
def Core.setGrant (c : Core) (g : Grant) : Core :=
  { c with grants := c.grants.map fun q => if q.blk = g.blk then g else q }

/-! ## Host fault entries (05 R112) -/

/-- The base of the 4 KiB page of an address. -/
def page4k (va : Nat) : Nat := va / 4096 * 4096

/-- The lowest number of a range of n that a list lacks. -/
def lowestFree (l : List Nat) : Nat → Nat → Option Nat
  | 0, _ => none
  | n + 1, i => if i ∈ l then lowestFree l n (i + 1) else some i

/-- A failing walk result, a name conflict or a refused probe makes an entry, or its requester joins the one of the
page; `waits` counts those who joined, not the one who made it (25, step S5). Answers the entry's id; none when 4,096
entries are unresolved, and the requester waits. -/
def State.hostFault (s : State) (core slot : Nat) (space : BitVec 16) (va wres level kind : Nat)
    (requester : Bool) : Option (Nat × State) :=
  let d := dieOf core
  let x := s.die d
  match x.faults.find? fun f => f.space = space ∧ f.va = page4k va with
  | some f =>
    if requester then
      let f' := { f with waits := min 255 (f.waits + 1) }
      some (f.id, s.setDie d { x with faults := x.faults.map fun q => if q.id = f.id then f' else q })
    else some (f.id, s)
  | none =>
    match lowestFree (x.faults.map (·.id)) 4096 0 with
    | none => none
    | some id =>
      let f : HostFault := { id := id, va := page4k va, space := space, core := core, slot := slot, wres := wres,
                             level := level, kind := kind, waits := 0, posted := false,
                             order := x.nextOrder }
      some (id, s.setDie d { x with faults := x.faults ++ [f], nextOrder := x.nextOrder + 1 })

/-! ## Pending registers -/

/-- Delivers one pending load. -/
def Hart.deliver (h : Hart) : PendingLoad → Hart
  | .v d val => h.setV d.toNat val
  | .vv d e x y => (h.setV d.toNat x).setV e.toNat y
  | .k d val => if hn : d.toNat < 16 then { h with k := h.k.set d.toNat val hn } else h

/-- Delivers every pending load, oldest first (17 R308). -/
def Hart.settleLoads (h : Hart) : Hart := { h.loads.foldl Hart.deliver h with loads := [] }

/-- Writes consecutive vector registers from n. -/
def Hart.setGroup (h : Hart) (n : Nat) : List VReg → Hart
  | [] => h
  | r :: t => Hart.setGroup (h.setV n r) (n + 1) t

/-- Accrues flags (11 R206). -/
def Hart.accrue (h : Hart) (f : BitVec 8) : Hart :=
  { h with ctl := { h.ctl with fflags := h.ctl.fflags ||| (f.setWidth 64) } }

/-- Completes one matrix instruction: its D group and its flags (18 R333, R334). -/
def Hart.finishMat (h : Hart) (m : PendingMat) : Hart := (h.setGroup m.dst m.vals).accrue m.flags

/-- Completes every pending matrix instruction. -/
def Hart.settleMats (h : Hart) : Hart := { h.mats.foldl Hart.finishMat h with mats := [] }

/-- Delivers everything retired instructions still owe the hart's registers. -/
def Hart.settle (h : Hart) : Hart := h.settleLoads.settleMats

/-- Writes the D groups of the follow-ons of a slot that have issued (10 R181). -/
def Core.settleFollows (c : Core) (slot : Nat) (h : Hart) : Core × Hart :=
  let step := fun (acc : List Cmd × Hart) (m : Cmd) =>
    match m.follow with
    | some f =>
      if m.slot = slot then
        match f.stage with
        | .issued p => (acc.1 ++ [{ m with follow := some { f with stage := .closed } }], acc.2.finishMat p)
        | _ => (acc.1 ++ [m], acc.2)
      else (acc.1 ++ [m], acc.2)
    | none => (acc.1 ++ [m], acc.2)
  let r := c.cmds.foldl step ([], h)
  let open' := fun (m : Cmd) => m.stage ≠ .done || (match m.follow with
    | some f => f.stage ≠ .closed
    | none => false)
  ({ c with cmds := r.1.filter open' }, r.2)

/-! ## Taking a trap and returning from one -/

/-- The 64-byte fault record (05 R108). -/
def recordBits (t : FRec) (seq : Nat) (pc : Word) (core slot : Nat) : Nat :=
  t.cause % 256 + (t.inner % 256) <<< 8 + t.rep.toNat <<< 19 + t.deferred.toNat <<< 20 + (t.kind % 8) <<< 21
    + t.orient.toNat <<< 24 + (t.wres % 16) <<< 25 + (t.level % 8) <<< 29 + (t.gseg % 16) <<< 96
    + (t.ew % 256) <<< 104 + (t.nmore % 65536) <<< 112 + (slot % 8) <<< 128 + (core % 512) <<< 131
    + (t.hostq % 65536) <<< 160 + t.space.toNat <<< 176 + (t.elast % 2 ^ 32) <<< 192 + (t.elem % 2 ^ 32) <<< 224
    + pc.toNat <<< 256 + t.off.toNat <<< 320 + (t.va % 2 ^ 57) <<< 384 + (seq % 2 ^ 64) <<< 448

/-- `tval` of a trap (10 R187). -/
def trapValue (t : FRec) : Word :=
  if t.cause = 0x01 ∨ t.cause = 0x02 then BitVec.ofNat 64 t.word.toNat
  else if 0x07 ≤ t.cause ∧ t.cause ≤ 0x0F then BitVec.ofNat 64 t.va
  else if t.cause = 0x05 ∨ t.cause = 0x06 ∨ t.cause = 0x10 ∨ t.cause = 0x11 then t.off
  else if t.cause = 0x13 then BitVec.ofNat 64 t.va
  else 0

/-- The hart as it enters a trap (10 R186, R187), whose record names a pc: tcause, tepc, tval and tstat.pp, supervisor mode,
and the pc at tvec, an offset in the supervisor g0. The answer "retry" to a command's failure may have come before its trap
(05 R113). -/
def Hart.enterTrap (h : Hart) (t : FRec) (recPc : Word) : Hart :=
  { h with
    ctl := { h.ctl with
      tcause := BitVec.ofNat 64 t.cause
      tepc := h.pc
      tval := trapValue t
      tstat := if h.user then 0 else 1 }
    trap := some { frec := t, recPc := recPc, pc := h.pc, nested := !h.user,
                   retry := t.cause = 0x0C || (t.cause = 0x13 && h.fail.any (·.resolved)) }
    user := false
    run := .running
    placed := none
    pinned := none
    prior := none
    pc := h.ctl.tvec }

/-- Takes a trap on the current hart (10 R186), with the pc and sequence number that its record names: what retired
instructions owe is delivered (R181), the record goes to the fault-record slot of the save area, and the hart enters
the handler. A trap in supervisor mode is marked nested and logged, and the domain ends at the hart's next step
(R188). -/
def takeTrapAs (t : FRec) (seq : Nat) (pc : Word) (s : State) : State :=
  match s.me with
  | none => s
  | some h0 =>
    let c := (s.core s.myCore).settleFollows s.mySlot h0.settle
    let h := c.2
    let s := s.setCore s.myCore c.1
    let s := s.setPA (h.area + 0x40) 64 (recordBits t seq pc s.myCore s.mySlot)
    let s := if h.user then s else s.logEvent 0x02 (dieOf s.myCore) s.myCore
    s.setMe (h.enterTrap t pc)

/-- Takes a trap at the current hart's own instruction. -/
def takeTrap (t : FRec) (s : State) : State :=
  match s.me with
  | none => s
  | some h => takeTrapAs t h.seq h.pc s

/-- Returns from a trap (10 R189): the privilege is tstat.pp, the user g0 and g1 are named again, and the hart goes
on at tepc. -/
def Hart.leaveTrap (h : Hart) : Hart :=
  { h with user := h.ctl.tstat.toNat % 2 = 0, pc := h.ctl.tepc, trap := none, run := .running }

/-- A trap that an instruction raises: the next state is that of the trap's entry. -/
def trapOut (t : FRec) (s : State) : Out := .next (takeTrap t s)

/-- A hart whose instruction has accessed some pages; `off` says that one of them is not of the normal class. -/
def Hart.pin (h : Hart) (off : Bool) : Hart := if off then { h with pinned := some h.seq } else h

/-- Keeps what a register held before the instruction at the hart's pc wrote its first elements (10 R180). -/
def Hart.keepPrior (h : Hart) (p : RegPrior) : Hart :=
  if h.prior.any fun q => q.seq = h.seq then h
  else { h with prior := some { seq := h.seq, reg := p, vstart := h.ctl.vstart } }

/-- Gives a register its prior value, a vector register its prior tag with it (10 R180). -/
def Hart.giveBack (h : Hart) : RegPrior → Hart
  | .x d val => h.setX d val
  | .v d val => h.setV d.toNat val
  | .k d val => h.deliver (.k d val)

/-- Unwinds the instruction at the hart's pc, when a trap that is not its own is taken there (10 R180): what retired loads owe
is delivered, and what the instruction has written so far returns to its prior value, `vstart` too. -/
def Hart.unwind (h : Hart) : Hart :=
  match h.prior with
  | none => h
  | some b =>
    if b.seq ≠ h.seq then h
    else
      let g := h.settleLoads.giveBack b.reg
      { g with ctl := { g.ctl with vstart := b.vstart }, prior := none }

/-- Ends an operation: it goes on, traps, or waits at its instruction. -/
def finish (r : Res Unit) : Out :=
  match r with
  | .ok _ s => .next s
  | .stop (.trap t) s => trapOut t s
  | .stop .wait s => .next s

/-- The trap of an illegal word (12 R238), with its word for tval. -/
def illegal (i : Instr) : FRec := { cause := 0x01, word := BitVec.ofNat 32 (encodeNat i) }

/-- The trap of a privileged instruction (10 R189, 14 R268). -/
def privilegedTrap (i : Instr) : FRec := { cause := 0x02, word := BitVec.ofNat 32 (encodeNat i) }

/-! ## Completions and interrupts (26 R375 to R378) -/

/-- Capacity of a queue. Codes 9 to 15 of lsz, which R375 does not give, count as 8 (log entry 140). -/
def Queue.cap (q : Queue) : Nat := 2 ^ (min q.lsz.toNat 8 + 4)

/-- Entries in the ring: tail minus head, modulo 2^32. -/
def Queue.used (q : Queue) : Nat := (q.tail - q.head).toNat

/-- Whether a device-fed queue can take an entry in this phase (26 R375, R377). -/
def State.canPost (s : State) (q : Nat) : Bool :=
  let x := s.queue q
  x.en && decide (x.used < x.cap) && (decide (s.sts.phase = 2) || decide (s.sts.phase = 3))

/-- Where a host bus address stands in `State.mem`: in the host window, which takes 50 bits (01 R16); beyond the physical
address space those that no window reaches, which the device's own accesses name in full (26 R375; log entry 110). -/
def hostPA (bus : Nat) : Nat :=
  let b := bus % 2 ^ 64
  if b < 2 ^ 50 then 0x8000000000000 + b else 2 ^ 52 + b

/-- Writes one 16-byte entry, advances tail, and sends the message when one is due (26 R376). -/
def State.post (s : State) (q : Nat) (e : BitVec 128) : State :=
  let x := s.queue q
  let s := s.setPA (hostPA (x.base.toNat + 16 * (x.tail.toNat % x.cap))) 16 e.toNat
  let send := x.ie && !x.outstanding
  let s := s.setQueue q { x with tail := x.tail + 1, outstanding := x.outstanding || send }
  if send then { s with io := { s.io with msix := (x.vec.toNat, q) :: s.io.msix } } else s

/-- Posts an entry, or holds it in order behind those already held (26 R377). -/
def State.postOrHold (s : State) (q : Nat) (e : BitVec 128) : State :=
  let x := s.queue q
  if x.held.isEmpty && s.canPost q then s.post q e
  else s.setQueue q { x with held := x.held ++ [e] }

/-- Posts the entries held for a queue while it has room. -/
def State.postHeldFuel (q : Nat) : Nat → State → State
  | 0, s => s
  | n + 1, s =>
    let x := s.queue q
    match x.held with
    | [] => s
    | e :: t =>
      if s.canPost q then State.postHeldFuel q n ((s.setQueue q { x with held := t }).post q e) else s

/-- Posts what a queue's held entries can now be given room. -/
def State.postHeld (s : State) (q : Nat) : State := State.postHeldFuel q (s.queue q).held.length s

/-- A completion entry (26 R378). -/
def completion (tag : BitVec 32) (status state fcause result : Nat) : BitVec 128 :=
  BitVec.ofNat 128 (result % 2 ^ 64 + (fcause % 256) <<< 76 + (state % 16) <<< 84 + (status % 256) <<< 88
    + tag.toNat <<< 96)

end Sys2Proof.Machine
end

