-- ==== Sys2Proof/Machine/CtlWin.lean ====
section
/-! DEFINITION. The ranges of the device physical space (spec 01 R14) and the control window (26 R374 to R377, R381; 27
R383, R384): what each register reads as and what a write does to it. -/

namespace Sys2Proof.Machine

/-! ## Ranges of the device physical space (01 R14) -/

def gddrSize : Nat := 0x3000000000
def sramBase : Nat := 0x10000000000
def sramSize : Nat := 0x40000000
def ctlBase : Nat := 0x20000000000
def ctlSize : Nat := 0x100000000
def hostBase : Nat := 0x8000000000000
def peerBase : Nat := 0xC000000000000

def inGddr (pa : Nat) : Bool := pa < gddrSize
def inSram (pa : Nat) : Bool := sramBase ≤ pa && pa < sramBase + sramSize
def inCtl (pa : Nat) : Bool := ctlBase ≤ pa && pa < ctlBase + ctlSize
def inHost (pa : Nat) : Bool := hostBase ≤ pa && pa < peerBase
def inPeer (pa : Nat) : Bool := peerBase ≤ pa && pa < 2 ^ 52
/-- A host or peer window address (01 R16). -/
def inWindow (pa : Nat) : Bool := hostBase ≤ pa && pa < 2 ^ 52

/-! ## The registers of the control window -/

/-- Kind of a queue block (26 R375): 0 launch, 1 completion, 2 command, 3 fault. -/
def queueKind (q : Nat) : Nat := if q < 16 then 0 else if q < 32 then 1 else if q = 32 then 2 else if q = 33 then 1 else 3

/-- Launch and command queues are host-fed. -/
def hostFed (q : Nat) : Bool := queueKind q = 0 || queueKind q = 2

/-- The device status word (27 R384). -/
def State.statusWord (s : State) : Nat :=
  s.sts.phase.toNat <<< 8 + s.sts.berr.toNat <<< 16 + s.sts.fwver.toNat <<< 32

/-- The low word of a queue block. -/
def Queue.config (x : Queue) (q : Nat) : Nat :=
  x.err.toNat <<< 3 + queueKind q <<< 4 + x.lsz.toNat <<< 8 + x.en.toNat <<< 12 + x.ie.toNat <<< 13
    + x.vec.toNat <<< 14

/-- A 64-bit word of the control window at an offset that is a multiple of 8. Every other offset reads as zero (26 R374), so
that no offset shows the entries of a permission filter, which firmware reads for diagnosis (04 R85) at a place that no
section gives: the model gives them none (log entry 113). -/
def State.ctlWord (s : State) (o : Nat) : Nat :=
  if o = 0 then s.statusWord
  else if 0x10 ≤ o ∧ o < 0x30 then (s.die ((o - 0x10) / 8)).throttled.toNat
  else if 0x40 ≤ o ∧ o < 0x80 then elt s.sts.measurement.toNat 64 ((o - 0x40) / 8)
  else if o = 0x80 then s.sts.corrected.toNat
  else if o = 0x88 then s.sts.uncorrected.toNat
  else if o = 0x100 then s.sts.evCount.toNat
  else if 0x800 ≤ o ∧ o < 0x1000 then ((aget s.sts.events ((o - 0x800) / 8)).getD 0).toNat
  else if 0x1000 ≤ o ∧ o < 0x1000 + 0x20 * numQueues then
    let q := (o - 0x1000) / 0x20
    let x := s.queue q
    if o % 0x20 = 0 then x.config q
    else if o % 0x20 = 0x10 then x.head.toNat + x.tail.toNat <<< 32
    else if o % 0x20 = 0x18 then x.base.toNat
    else 0
  else if 0x2000 ≤ o ∧ o < 0x4000 then ((aget s.io.peers ((o - 0x2000) / 8)).getD 0).toNat
  else if o = 0x4000 then s.io.linkId.toNat
  else 0

/-- n bytes of the control window, one after the other. -/
def State.ctlRead (s : State) (o : Nat) : Nat → List Byte
  | 0 => []
  | n + 1 => BitVec.ofNat 8 (elt (s.ctlWord (o / 8 * 8)) 8 (o % 8)) :: State.ctlRead s (o + 1) n

/-- The check of a host-fed queue that is on: a tail beyond its capacity sets err, and the device takes nothing more until
err has been cleared and tail written again (26 R375). In phase 4 (`dead`) it has no effect. -/
def Queue.check (x : Queue) (dead : Bool) : Queue :=
  if x.en && !dead && decide (x.cap < x.used) then { x with err := true, stuck := true } else x

/-- The doorbell: a write of a host-fed tail (26 R375, R377). While the queue is off the tail is kept and the check is
made when it comes on. A write before err is cleared counts as the rewriting that R375 asks for too (log entry 109). -/
def Queue.ring (x : Queue) (tail : BitVec 32) (dead : Bool) : Queue :=
  Queue.check { x with tail := tail, stuck := false } dead

/-- Phase 4: no queue is served (26 R377, 27 R385). -/
def State.dead (s : State) : Bool := s.sts.phase = 4

/-- A write of a queue's tail. -/
def State.writeTail (s : State) (q : Nat) (tail : BitVec 32) : State :=
  if q < numQueues ∧ hostFed q then s.setQueue q ((s.queue q).ring tail s.dead) else s

/-- A write of a device-fed head: room is freed and the outstanding interrupt ends (26 R376). -/
def State.writeHead (s : State) (q : Nat) (head : BitVec 32) : State :=
  if q < numQueues ∧ !hostFed q then
    (s.setQueue q { s.queue q with head := head, outstanding := false }).postHeld q
  else s

/-- A write of one to err clears it (26 R375). -/
def State.clearErr (s : State) (q : Nat) : State :=
  if q < numQueues then s.setQueue q { s.queue q with err := false } else s

/-- A write of en (26 R377): a host-fed queue that comes on is checked against its capacity; a device-fed one takes
the entries held for it. -/
def State.writeEn (s : State) (q : Nat) (en : Bool) : State :=
  if q < numQueues then
    let x := { s.queue q with en := en }
    let x := if en && hostFed q then x.check s.dead else x
    (s.setQueue q x).postHeld q
  else s

/-- The fields of a queue block that have no behaviour of their own: vec and lsz, kept while en = 1, and ie. -/
def State.writeConfig (s : State) (q : Nat) (w : Nat) : State :=
  let x := s.queue q
  let x := { x with ie := bit w 13 }
  let x := if x.en then x else { x with vec := BitVec.ofNat 6 (fld w 19 14), lsz := BitVec.ofNat 4 (fld w 11 8) }
  s.setQueue q x

/-- Bits of a peer-table entry that can be written (26 R381). -/
def peerMask : Nat := 2 ^ 63 + ones 18 <<< 26 + ones 16

/-- The boot doorbell (27 R383, R385): outside phase 0 it is ignored. -/
def State.ringBoot (s : State) (len : Nat) : State :=
  if s.sts.phase = 0 then { s with sts := { s.sts with phase := 1, bootLen := len } } else s

/-- A 64-bit write at an offset of the control window that is a multiple of 8. -/
def State.ctlWrite (s : State) (o : Nat) (w : Nat) : State :=
  if o = 8 then s.ringBoot w
  else if 0x1000 ≤ o ∧ o < 0x1000 + 0x20 * numQueues then
    let q := (o - 0x1000) / 0x20
    if o % 0x20 = 0 then
      let s := s.writeConfig q w
      let s := if bit w 3 then s.clearErr q else s
      if bit w 12 = (s.queue q).en then s else s.writeEn q (bit w 12)
    else if o % 0x20 = 0x10 then
      if hostFed q then s.writeTail q (BitVec.ofNat 32 (fld w 63 32)) else s.writeHead q (BitVec.ofNat 32 (fld w 31 0))
    else if o % 0x20 = 0x18 then
      let x := s.queue q
      if x.en then s else s.setQueue q { x with base := BitVec.ofNat 64 (w / 4096 * 4096) }
    else s
  else if 0x2000 ≤ o ∧ o < 0x4000 then
    { s with io := { s.io with peers := aset s.io.peers ((o - 0x2000) / 8) (BitVec.ofNat 64 (w &&& peerMask)) } }
  else if o = 0x4000 then { s with io := { s.io with linkId := BitVec.ofNat 16 w } }
  else s

/-! ## What stands at a physical address (01 R14) -/

/-- The number that n bytes at a physical address stand for: registers of the control window, or device memory. -/
def State.targetRead (s : State) (pa n : Nat) : Nat :=
  if inCtl pa then ofBytes (s.ctlRead (pa - ctlBase) n) else s.readPA pa n

/-- Poison of the word at a physical address; a register holds none. -/
def State.poisonAt (s : State) (pa : Nat) : Bool := !inCtl pa && decide (pa / 8 ∈ s.poison)

/-- A write under a byte mask of the control register at an offset that is a multiple of 8: its other bytes are kept, the
one bit that a write of one clears is not written by a write that leaves its byte out, and the half of a head and tail word
that is not written has no behaviour. -/
def State.ctlWriteMasked (s : State) (o mask x : Nat) : State :=
  let w := (upto 8).foldl (fun w k => if bit mask k then putElt w 8 k (elt x 8 k) else w) (s.ctlWord o)
  if 0x1000 ≤ o ∧ o < 0x1000 + 0x20 * numQueues then
    if o % 0x20 = 0 then s.ctlWrite o (if bit mask 0 then w else put w 3 1 0)
    else if o % 0x20 = 0x10 then
      let half := if hostFed ((o - 0x1000) / 0x20) then fld mask 7 4 else fld mask 3 0
      if half = 0 then s else s.ctlWrite o w
    else s.ctlWrite o w
  else s.ctlWrite o w

/-- Writes bytes under a mask to n control registers one after the other, from an offset that is a multiple of 8. -/
def State.ctlWriteWords (s : State) (o mask x n : Nat) : State :=
  (upto n).foldl (fun (s : State) i =>
    if elt mask 8 i = 0 then s else s.ctlWriteMasked (o + 8 * i) (elt mask 8 i) (elt x 64 i)) s

/-- Writes n bytes to control registers. -/
def State.ctlWriteRun (s : State) (o n x : Nat) : State :=
  let k := o % 8
  s.ctlWriteWords (o - k) (ones n <<< k) (x <<< (8 * k)) (cdiv (k + n) 8)

/-- Writes n bytes at a physical address. -/
def State.targetWrite (s : State) (pa n x : Nat) : State :=
  if inCtl pa then s.ctlWriteRun (pa - ctlBase) n x else s.writePA pa (toBytes n x)

end Sys2Proof.Machine
end

