-- ==== Sys2Proof/Machine/Walk.lean ====
section
/-! DEFINITION. Translation at the memory side (spec 04): walks of both table formats, translation and walk caches,
range holds, absent ranges, and the name directories. -/

namespace Sys2Proof.Machine

/-! ## Tile classes (02 R26) -/

/-- Side of a block in elements; an untiled line stands for a block of one row. -/
def TClass.rows : TClass → Nat
  | .untiled => 1
  | .t32 => 32
  | .t16 => 64
  | .t8 => 128

/-- Element width of a class in bytes; 0 for untiled. -/
def TClass.width : TClass → Nat
  | .untiled => 0
  | .t32 => 4
  | .t16 => 2
  | .t8 => 1

/-- Bytes of one block, or of one line. -/
def TClass.block (t : TClass) : Nat := t.rows * 128

/-- The class coded in a leaf (04 R79). -/
def TClass.ofCode (n : Nat) : TClass :=
  if n = 1 then .t32 else if n = 2 then .t16 else if n = 3 then .t8 else .untiled

/-- ColCell (02 R28): the cell that a column-view address names. -/
def colCell (t : TClass) (va : Nat) : Nat :=
  match t with
  | .untiled => va
  | t =>
    let blk := va / t.block * t.block
    let v := va - blk
    let x := v / 128
    let y := v % 128 / t.width
    blk + y * 128 + x * t.width + v % t.width

/-! ## Ranges that hold nothing (01 R16, R17) -/

/-- Reduced service: phase 2 (27 R386). -/
def State.reduced (s : State) : Bool := s.sts.phase = 2

/-- Whether a frame lies in a reserved range, in the SRAM window outside reduced service, or in GDDR 7 in reduced
service (01 R17, 27 R386). -/
def State.absentFrame (s : State) (pa : Nat) : Bool :=
  if inGddr pa then s.sts.phase ≠ 3
  else if inSram pa then !s.reduced
  else !(inCtl pa || inWindow pa)

/-- Whether a peer refuses an address: the entry of its window leads nowhere, no link of its mask is up, or the
offset is beyond 192 GiB (01 R16, 26 R381, R382). -/
def State.peerRefuses (s : State) (pa : Nat) : Bool :=
  inPeer pa &&
    (let n := (pa - peerBase) / 2 ^ 40
     let e := ((aget s.io.peers n).getD 0).toNat
     let links := fld e 43 26
     !bit e 63 || decide (gddrSize ≤ (pa - peerBase) % 2 ^ 40)
       || !(upto numLinks).any fun j => bit links j && ((aget s.io.links j).getD Link.reset).up)

/-! ## Range holds (04 R94) -/

/-- Whether a hold covers an address of a space. -/
def State.held (s : State) (space : BitVec 16) (va : Nat) : Bool :=
  s.xlat.holds.any fun h => h.space = space && h.base ≤ va && va < h.base + 2 ^ h.lg

/-- Whether a hold overlaps a range. -/
def State.heldRange (s : State) (space : BitVec 16) (va n : Nat) : Bool :=
  s.xlat.holds.any fun h => h.space = space && h.base < va + n && va < h.base + 2 ^ h.lg

/-- Whether a hold overlaps the page of a leaf: its page is then one of the range, which no core enumerates and no
filter or translation cache keeps (04 R94 steps 2 and 5, R95; log entry 98). -/
def State.heldPage (s : State) (l : Leaf) : Bool := s.heldRange l.space l.vbase (2 ^ l.lg)

/-! ## Walks (04 R76 to R84) -/

/-- The kinds of a walk; a probe says whether its store was made in user mode (04 R89). -/
inductive WalkKind where
  | read
  | write
  | fetch
  | atomic
  | probe (user : Bool)
  deriving DecidableEq, Repr

/-- How a walk ends. -/
inductive WalkRes where
  | leaf (l : Leaf)
  | pending (l : Leaf) (level : Nat)
  | fail (wres level : Nat)
  deriving DecidableEq, Repr

/-- The space descriptor of a tag (04 R77). -/
def State.spaceDesc (s : State) (space : BitVec 16) : BitVec 128 := (aget s.xlat.spaces space.toNat).getD 0

/-- log2 of the page size of a leaf at a level (04 R78). -/
def levelLg (lvl : Nat) : Nat := 12 + 9 * lvl

def mclassOf (n : Nat) : MClass := if n = 1 then .nonIdempotent else if n = 2 then .device else .normal

/-- Attributes of a device-format leaf (04 R79). -/
def leafAttr (e : Nat) : Attr :=
  { mc := mclassOf (fld e 62 61), skew := BitVec.ofNat 2 (fld e 60 59), tclass := TClass.ofCode (fld e 58 57),
    r := bit e 2, w := bit e 3, x := bit e 4, s := bit e 8 }

/-- The sixteen members of the contiguous group of a level-0 entry (04 R80). -/
def groupMembers (rd : Nat → Nat) (table va : Nat) : List Nat :=
  let i0 := va / 4096 % 512 / 16 * 16
  (upto 16).map fun j => rd (table + 8 * (i0 + j))

/-- Reserved bits of leaves and pending leaves. -/
def leafReserved (e : Nat) : Bool := fld e 56 52 ≠ 0 || fld e 7 5 ≠ 0

/-- Reserved bits of any member of the group (04 R80). -/
def groupReserved (ms : List Nat) : Bool := ms.any fun e => fld e 1 0 ≥ 2 && leafReserved e

/-- Whether the group holds together (04 R80). -/
def groupOk (ms : List Nat) : Bool :=
  match ms with
  | [] => false
  | e0 :: _ =>
    ms.all (fun e => bit e 63 && fld e 1 0 == fld e0 1 0 && fld e 62 57 == fld e0 62 57 && fld e 8 2 == fld e0 8 2)
      && decide (2 ≤ fld e0 1 0)
      && (fld e0 1 0 == 3 ||
          (fld e0 51 12 % 16 == 0 &&
            (upto 16).all fun j => fld (ms.getD j 0) 51 12 == fld e0 51 12 + j))

/-- The remaining conditions of code 0x3 (04 R81). -/
def leafMalformed (e lvl : Nat) (ms : List Nat) : Bool :=
  let frame := fld e 51 12 * 4096
  let wide := fld e 58 57 ≥ 2
  (lvl ≠ 0 && bit e 63) || fld e 62 61 = 3 || fld e 60 59 = 3
    || (wide && lvl = 0 && !bit e 63)
    || (lvl ≠ 0 && fld e 1 0 = 2 && frame % 2 ^ levelLg lvl ≠ 0)
    || (lvl = 0 && bit e 63 && !groupOk ms)
    || (fld e 1 0 = 2 && !bit e 8 && inCtl frame)

/-- The walk of a device-format table from a level down, as R81's function states it. Answers the result and the
table entries passed, for the walk caches. -/
def walkDevice (absent : Nat → Bool) (rd : Nat → Nat) (space : BitVec 16) (va : Nat) (kind : WalkKind) :
    Nat → Nat → Nat → List WalkEntry → WalkRes × List WalkEntry
  | 0, lvl, _, acc => (.fail 0x3 lvl, acc)
  | fuel + 1, lvl, table, acc =>
    let e := rd (table + 8 * (va / 2 ^ levelLg lvl % 512))
    let ty := fld e 1 0
    if ty = 0 then (.fail 0x1 lvl, acc)
    else if ty = 1 then
      if lvl = 0 then (.fail 0x3 lvl, acc)
      else if fld e 63 52 ≠ 0 || fld e 8 2 ≠ 0 then (.fail 0x4 lvl, acc)
      else
        walkDevice absent rd space va kind fuel (lvl - 1) (fld e 51 12 * 4096)
          ({ space := space, level := lvl, key := va / 2 ^ levelLg lvl, entry := BitVec.ofNat 64 e } :: acc)
    else if lvl ≥ 3 then (.fail 0x3 lvl, acc)
    else if leafReserved e then (.fail 0x4 lvl, acc)
    else
      let ms := if lvl = 0 && bit e 63 then groupMembers rd table va else []
      if groupReserved ms then (.fail 0x4 lvl, acc)
      else if leafMalformed e lvl ms then (.fail 0x3 lvl, acc)
      else
        let lg := if lvl = 0 && bit e 63 then 16 else levelLg lvl
        let frame := fld e 51 12 * 4096 / 2 ^ lg * 2 ^ lg
        let l : Leaf := { space := space, vbase := va / 2 ^ lg * 2 ^ lg, lg := lg, frame := frame,
                          attr := leafAttr e, d := true }
        if ty = 3 then (.pending { l with frame := 0 } lvl, acc)
        else if absent (fld e 51 12 * 4096) then (.fail 0x5 lvl, acc)
        else
          match kind with
          | .probe user => if bit e 3 && !(user && bit e 8) then (.leaf l, acc) else (.fail 0x9 lvl, acc)
          | _ => (.leaf l, acc)

/-- Attributes of an Sv57 leaf (04 R83). -/
def svAttr (e : Nat) : Attr :=
  { mc := mclassOf (fld e 62 61), skew := 1, tclass := .untiled, r := bit e 1, w := bit e 2, x := bit e 3,
    s := !bit e 4 }

/-- Whether the kind of walk writes (04 R83: D = 0 on a write or a probe). -/
def WalkKind.writes : WalkKind → Bool
  | .write => true
  | .atomic => true
  | .probe _ => true
  | _ => false

/-- The walk of an Sv57 table through the host window (04 R83). Conditions are checked in the order of R81: type,
reserved bits, malformed, range, host bit, rights (log entry 13). The model's choices, which R83 leaves open (log entry
79): a table's PPN names a page of the host's memory, a leaf's PPN a device frame as it stands, a valid entry without
rights at level 0, which leads nowhere, is malformed, and bits PBMT, A, D and U of an entry that leads to a table, of which
R83's conditions do not speak, are ignored. -/
def walkSv57 (absent : Nat → Bool) (rd : Nat → Nat) (space : BitVec 16) (va : Nat) (kind : WalkKind) :
    Nat → Nat → Nat → List WalkEntry → WalkRes × List WalkEntry
  | 0, lvl, _, acc => (.fail 0x3 lvl, acc)
  | fuel + 1, lvl, table, acc =>
    let e := rd (table + 8 * (va / 2 ^ levelLg lvl % 512))
    let isLeaf := bit e 1 || bit e 2 || bit e 3
    let ppn := fld e 53 10
    if !bit e 0 then (.fail 0x1 lvl, acc)
    else if isLeaf && lvl ≥ 3 then (.fail 0x3 lvl, acc)
    else if !isLeaf && lvl = 0 then (.fail 0x3 lvl, acc)
    else if fld e 60 54 ≠ 0 || (bit e 2 && !bit e 1) then (.fail 0x4 lvl, acc)
    else if !isLeaf then
      if bit e 63 then (.fail 0x3 lvl, acc)
      else if 2 ^ 40 ≤ ppn then (.fail 0x5 lvl, acc)
      else
        walkSv57 absent rd space va kind fuel (lvl - 1) (hostPA (ppn * 4096))
          ({ space := space, level := lvl, key := va / 2 ^ levelLg lvl, entry := BitVec.ofNat 64 e } :: acc)
    else
      let napot := bit e 63
      let lg := if napot then 16 else levelLg lvl
      let frame := ppn * 4096 / 2 ^ lg * 2 ^ lg
      if napot && (lvl ≠ 0 || ppn % 16 ≠ 8) then (.fail 0x3 lvl, acc)
      else if fld e 62 61 = 3 || (!napot && ppn * 4096 % 2 ^ levelLg lvl ≠ 0)
          || (bit e 4 && inCtl frame) then (.fail 0x3 lvl, acc)
      else if 2 ^ 40 ≤ ppn || absent frame then (.fail 0x5 lvl, acc)
      else if !bit e 6 || (kind.writes && !bit e 7) then (.fail 0x6 lvl, acc)
      else
        let l : Leaf := { space := space, vbase := va / 2 ^ lg * 2 ^ lg, lg := lg, frame := frame, attr := svAttr e,
                          d := bit e 7 }
        match kind with
        | .probe user => if bit e 2 && (bit e 4 || !user) then (.leaf l, acc) else (.fail 0x9 lvl, acc)
        | _ => (.leaf l, acc)

/-- The lowest level whose table entry for an address the walk caches hold (04 R75). -/
def walkCacheHit (w : List WalkEntry) (space : BitVec 16) (va : Nat) : Option WalkEntry :=
  ([1, 2, 3, 4].filterMap fun lvl =>
    w.find? fun e => e.space = space && e.level = lvl && e.key = va / 2 ^ levelLg lvl).head?

/-- A walk of a space's tables on a die, from the walk caches or the root. R81 has no result for a poisoned word in an entry,
and the rules of poison speak of instructions: the model's walk reads the bytes and does not ask for poison (log entry
114). -/
def State.walkTables (s : State) (die : Nat) (space : BitVec 16) (va : Nat) (kind : WalkKind) :
    WalkRes × List WalkEntry :=
  let d := (s.spaceDesc space).toNat
  if !bit d 0 || fld d 2 1 > 1 then (.fail 0x7 4, [])
  else
    let rd := fun a => s.targetRead a 8
    let hit := walkCacheHit (s.die die).wcache space va
    if fld d 2 1 = 0 then
      match hit with
      | some e => walkDevice s.absentFrame rd space va kind 5 (e.level - 1) (fld e.entry.toNat 51 12 * 4096) []
      | none => walkDevice s.absentFrame rd space va kind 5 4 (fld d 51 12 * 4096) []
    else
      match hit with
      | some e =>
        walkSv57 s.absentFrame rd space va kind 5 (e.level - 1) (hostPA (fld e.entry.toNat 53 10 * 4096)) []
      | none => walkSv57 s.absentFrame rd space va kind 5 4 (fld d 51 12 * 4096) []

/-- The translation-cache entry of an address (04 R75). -/
def State.tcacheHit (s : State) (die : Nat) (space : BitVec 16) (va : Nat) : Option Leaf :=
  (s.die die).tcache.find? fun l => l.space = space && l.vbase ≤ va && va < l.vbase + 2 ^ l.lg

/-- Keeps the leaf and the table entries of a walk that succeeded (04 R75); at most 65,536 leaves. The spec does not say
which a full cache drops: the model drops the one kept longest (log entry 83). -/
def State.keepWalk (s : State) (die : Nat) (l : Leaf) (es : List WalkEntry) : State :=
  let d := s.die die
  s.setDie die { d with
    tcache := (l :: d.tcache.filter (fun q => !(q.space = l.space && q.vbase = l.vbase && q.lg = l.lg))).take 65536
    wcache := es ++ d.wcache.filter fun q => es.all fun e => !(q.space = e.space && q.level = e.level && q.key = e.key) }

/-- The physical address of a virtual one under a leaf. -/
def Leaf.pa (l : Leaf) (va : Nat) : Nat := l.frame + (va - l.vbase)

/-- Level of the entry that gave a leaf of 2^lg bytes (04 R78, R80). -/
def lgLevel (lg : Nat) : Nat := if lg = 30 then 2 else if lg = 21 then 1 else 0

/-- A leaf whose peer refuses the address is result 0x8 of the walk (04 R81, 26 R381). -/
def State.orRefused (s : State) (va : Nat) (w : WalkRes) : WalkRes :=
  match w with
  | .leaf l => if s.peerRefuses (l.pa va) then .fail 0x8 (lgLevel l.lg) else w
  | _ => w

/-- A walk of a space on a die, and the table entries that it passed. -/
def State.walk (s : State) (die : Nat) (space : BitVec 16) (va : Nat) (kind : WalkKind) :
    WalkRes × List WalkEntry :=
  let r := s.walkTables die space va kind
  (s.orRefused va r.1, r.2)

/-- The translation-cache entry that answers a request: a write is not answered by an entry without D (04 R75, R83). -/
def State.cachedLeaf (s : State) (die : Nat) (space : BitVec 16) (va : Nat) (kind : WalkKind) : Option Leaf :=
  (s.tcacheHit die space va).filter fun l => l.d || !kind.writes

/-- Translates an address for a request of a core's die: the translation cache, else a walk (04 R74). A fresh walk is
asked for by `fresh`. Only a walk that succeeds is kept. -/
def State.translate (s : State) (die : Nat) (space : BitVec 16) (va : Nat) (kind : WalkKind) (fresh : Bool) :
    WalkRes × State :=
  match (if fresh then none else s.cachedLeaf die space va kind) with
  | some l => (s.orRefused va (.leaf l), s)
  | none =>
    let r := s.walk die space va kind
    match r.1 with
    | .leaf l => (.leaf l, s.keepWalk die l r.2)
    | w => (w, s)

/-! ## Names (04 R90, R91) -/

/-- The home die of an address (01 R15; 01 R14 for the SRAM window). For the host and peer windows, whose frames have no
home die in the package, and for a frame of more than 64 KiB, whose addresses have several, the directory that keeps the
record is the model's choice: that of bits [17:16] of the frame's base (log entry 80). -/
def homeDie (pa : Nat) : Nat := if inSram pa then (pa - sramBase) / 0x10000000 else pa / 65536 % 4

/-- Whether a leaf's frame overlaps a record's. -/
def NameRec.overlaps (n : NameRec) (l : Leaf) : Bool :=
  decide (n.frame < l.frame + 2 ^ l.lg) && decide (l.frame < n.frame + 2 ^ n.lg)

/-- Whether a record gives the bytes the same name as a leaf does (04 R90). -/
def NameRec.sameName (n : NameRec) (l : Leaf) : Bool :=
  decide (n.space = l.space) && decide (n.vbase + l.frame = l.vbase + n.frame)

/-- Every name record of the package. -/
def State.names (s : State) : List NameRec := (upto numDies).flatMap fun d => (s.die d).names

/-- Whether a leaf's name conflicts with a record (04 R91). -/
def State.nameConflict (s : State) (l : Leaf) : Bool := s.names.any fun n => n.overlaps l && !n.sameName l

/-- The record of a leaf. -/
def Leaf.record (l : Leaf) : NameRec :=
  { space := l.space, vbase := l.vbase, frame := l.frame, lg := l.lg, skew := l.attr.skew, tclass := l.attr.tclass }

/-- Whether n bytes from an address meet a home frame. -/
def HomeFrame.meets (f : HomeFrame) (pa n : Nat) : Bool :=
  decide (f.base < pa + n) && decide (pa < f.base + f.tclass.block)

/-- The home slices drop what they hold of a range (03 R58, 04 R92, R94). -/
def State.dropHome (s : State) (pa n : Nat) : State := { s with home := s.home.filter fun f => !f.meets pa n }

/-- Whether a record names the leaf's frame already, as the leaf does (04 R91). -/
def State.isNamed (s : State) (l : Leaf) : Bool := s.names.any fun n => n.overlaps l && n.sameName l

/-- Makes a record of the leaf's name in the directory of its frame's home die (04 R91). Lines that the home slices hold of
the frame are dropped, since the new record may place them elsewhere (03 R58). -/
def State.registerName (s : State) (l : Leaf) : State :=
  let d := homeDie l.frame
  let s := s.dropHome l.frame (2 ^ l.lg)
  let x := s.die d
  s.setDie d { x with names := x.names ++ [l.record] }

/-- The frame that a recorded name gives an address (04 R92: a write-back goes out under a recorded name). -/
def State.namedPA (s : State) (space : BitVec 16) (va : Nat) : Option Nat :=
  (s.names.find? fun n => n.space = space && n.vbase ≤ va && va < n.vbase + 2 ^ n.lg).map
    fun n => n.frame + (va - n.vbase)

end Sys2Proof.Machine
end

