-- ==== Sys2Proof/Machine/Cache.lean ====
section
/-! DEFINITION. The L1 and L2 data caches, the instruction and metadata caches (spec 03): presence, frames, fills,
write-backs, release and acquire steps, and the preparation of atomics. -/

namespace Sys2Proof.Machine

/-! ## Fault records of accesses -/

/-- Permission, orientation and other page faults (05 R111): va, off, elem, ew, gseg, space, kind. -/
def Acc.fault (a : Acc) (cause : Nat) : FRec :=
  { cause := cause, va := a.rva, off := a.off, elem := a.elem, ew := a.ew, gseg := a.gseg, space := a.space,
    kind := a.kind }

/-- Segment and alignment faults (05 R111): off, elem, ew, gseg, kind; orient too for 0x05. -/
def Acc.segFault (a : Acc) (cause : Nat) : FRec :=
  { cause := cause, off := a.off, elem := a.elem, ew := a.ew, gseg := a.gseg, kind := a.kind,
    orient := cause = 0x05 && a.col }

/-- Translation not present (05 R111): a host entry is made or joined; with 4,096 unresolved entries it waits. -/
def absentFault {α : Type} (a : Acc) (wres level : Nat) (s : State) : Res α :=
  match s.hostFault a.core a.slot a.space a.pva wres level a.kind a.requester with
  | none => .stop .wait s
  | some (id, s) =>
    .stop (.trap { a.fault 0x0B with orient := a.col, level := level, wres := wres, hostq := id, rep := true }) s

/-- Synonym fault (04 R91, 05 R111): the host entry is a notice. -/
def nameFault {α : Type} (a : Acc) (s : State) : Res α :=
  match s.hostFault a.core a.slot a.space a.pva 0xF 7 a.kind a.requester with
  | none => .stop .wait s
  | some (id, s) => .stop (.trap { a.fault 0x0D with wres := 0xF, hostq := id }) s

/-! ## Slots -/

/-- Byte k of a slot. -/
def Row.byte (r : Row) (k : Nat) : Byte := BitVec.ofNat 8 (elt r.data.toNat 8 k)

/-- A mask of n bits from bit k. -/
def runMask (k n : Nat) : Nat := ones n <<< k

/-- Word bits (one for 8 bytes) of the words that a byte mask covers whole. -/
def wholeWords (mask : Nat) : Nat :=
  (upto 16).foldl (fun a w => if elt mask 8 w = 0xFF then a ||| 2 ^ w else a) 0

/-- Word bits of the words that a byte mask touches. -/
def touchedWords (mask : Nat) : Nat :=
  (upto 16).foldl (fun a w => if elt mask 8 w ≠ 0 then a ||| 2 ^ w else a) 0

/-- Replaces the bytes of `old` whose mask bits are set by those of `new`; n bytes are looked at. -/
def mergeBytes (mask old new : Nat) (n : Nat) : Nat :=
  (upto n).foldl (fun a k => if bit mask k then putElt a 8 k (elt new 8 k) else a) old

/-- Poison of a slot after bytes are written to it: a word written whole takes the poison of what is written, one
written in part keeps its own as well (log entry 22). -/
def mergePoison (mask old new : Nat) : Nat :=
  let whole := wholeWords mask
  ((old &&& (ones 16 ^^^ whole)) ||| (new &&& touchedWords mask)) % 2 ^ 16

/-- A slot that holds nothing. -/
def Row.empty : Row := { valid := false, dirty := 0, poison := 0, data := 0, writers := [] }

/-- Writes bytes of some regions into a slot under a mask and marks them dirty (03 R45, R48). -/
def Row.write (r : Row) (mask data poison : Nat) (blks : List Nat) : Row :=
  { r with data := BitVec.ofNat 1024 (mergeBytes mask r.data.toNat data 128),
           poison := BitVec.ofNat 16 (mergePoison mask r.poison.toNat poison),
           dirty := r.dirty ||| BitVec.ofNat 128 mask, writers := blks.foldl nins r.writers }

/-- Fills bytes of a slot: every byte of the mask whose dirty bit is clear (03 R46). -/
def Row.fill (r : Row) (mask data poison : Nat) : Row :=
  let m := mask &&& (ones 128 ^^^ r.dirty.toNat)
  { r with data := BitVec.ofNat 1024 (mergeBytes m r.data.toNat data 128),
           poison := BitVec.ofNat 16 (mergePoison m r.poison.toNat poison) }

/-! ## Frames and arrays (03 R43 to R45) -/

/-- Index of the row that holds an address. -/
def Frame.rowOf (f : Frame) (va : Nat) : Nat := (va - f.base) / 128

def Frame.covers (f : Frame) (space : BitVec 16) (va : Nat) : Bool :=
  f.space = space && f.base ≤ va && va < f.base + f.tclass.block

def Frame.row (f : Frame) (i : Nat) : Row := nth f.rows i Row.empty

def Frame.setRow (f : Frame) (i : Nat) (r : Row) : Frame := { f with rows := f.rows.set i r }

/-- Whether a byte's column is valid. -/
def Frame.colHit (f : Frame) (va : Nat) : Bool :=
  f.tclass ≠ .untiled && bit f.colValid.toNat (va % 128 / f.tclass.width)

/-- Whether a byte is present (03 R45). -/
def Frame.present (f : Frame) (va : Nat) : Bool :=
  let r := f.row (f.rowOf va)
  bit r.dirty.toNat (va % 128) || r.valid || f.colHit va

/-- Whether n bytes of one slot are all present. -/
def Frame.presentRun (f : Frame) (va n : Nat) : Bool := (upto n).all fun k => f.present (va + k)

/-- Byte and poison at an address of the frame. -/
def Frame.byte (f : Frame) (va : Nat) : Byte × Bool :=
  let r := f.row (f.rowOf va)
  (r.byte (va % 128), bit r.poison.toNat (va % 128 / 8))

/-- The frame or slot that holds an address. -/
def Cache.find (c : Cache) (space : BitVec 16) (va : Nat) : Option Frame := c.find? fun f => f.covers space va

/-- Replaces the frame with the same space, base and way. -/
def Cache.replace (c : Cache) (f : Frame) : Cache :=
  c.map fun g => if g.space = f.space && g.base = f.base && g.way = f.way then f else g

/-- Whether two frames would share a slot of one way: their set ranges meet. -/
def setsMeet (sets : Nat) (f : Frame) (base n : Nat) : Bool :=
  let a := f.base / 128 % sets
  let b := base / 128 % sets
  decide (a < b + n) && decide (b < a + f.tclass.rows)

/-- Chooses the way for a new frame: a way whose slots are free, else a free choice (03 R47). -/
def Cache.chooseWay (c : Cache) (sets base n : Nat) (s : State) : Nat × State :=
  match (upto 16).find? fun w => !c.any fun f => f.way = w && setsMeet sets f base n with
  | some w => (w, s)
  | none => s.choose 16

/-- Claims a frame: what its slots held is answered, to be written back (03 R44). -/
def Cache.claim (c : Cache) (sets : Nat) (space : BitVec 16) (base : Nat) (t : TClass) (way : Nat) :
    Cache × List Frame :=
  let gone := c.filter fun f => f.way = way && setsMeet sets f base t.rows
  let stay := c.filter fun f => !(f.way = way && setsMeet sets f base t.rows)
  ({ space := space, base := base, tclass := t, way := way, colValid := 0,
     rows := List.replicate t.rows Row.empty } :: stay, gone)

/-- The write-backs of a frame's dirty slots (03 R47). -/
def Frame.writeBacks (f : Frame) : List WriteBack :=
  (upto f.tclass.rows).filterMap fun i =>
    let r := f.row i
    if r.dirty = 0 then none
    else some { space := f.space, va := f.base + 128 * i, tclass := f.tclass, dirty := r.dirty, poison := r.poison,
                data := r.data, writers := r.writers }

/-- Bytes of row i that are valid: of its own line, and of its column lines (03 R45). -/
def Frame.validBytes (f : Frame) (i : Nat) : Nat :=
  if (f.row i).valid then ones 128
  else if f.tclass = .untiled then 0
  else (upto f.tclass.rows).foldl (fun m x =>
    if bit f.colValid.toNat x then m ||| runMask (x * f.tclass.width) f.tclass.width else m) 0

/-- The poison bits of a row that stand for a word with a present byte; a word that holds nothing has none (03 R61). -/
def Frame.trimRow (f : Frame) (i : Nat) : Row :=
  let r := f.row i
  if r.poison = 0 then r
  else { r with poison := r.poison &&& BitVec.ofNat 16 (touchedWords (r.dirty.toNat ||| f.validBytes i)) }

/-- Drops the poison of the words that a frame holds no byte of. -/
def Frame.trim (f : Frame) : Frame := { f with rows := (upto f.rows.length).map f.trimRow }

/-- A frame whose dirty bytes have been sent: its masks are clear (03 R47); bytes that were present only as dirty
ones stay present when their line is valid. -/
def Frame.clean (f : Frame) : Frame :=
  Frame.trim { f with rows := f.rows.map fun r => { r with dirty := 0, writers := [] } }

/-- Drops every present byte that is not dirty (03 R54). -/
def Frame.dropClean (f : Frame) : Frame :=
  Frame.trim { f with colValid := 0, rows := f.rows.map fun r => { r with valid := false } }

/-- Whether a frame holds anything. -/
def Frame.live (f : Frame) : Bool := f.colValid ≠ 0 || f.rows.any fun r => r.valid || r.dirty ≠ 0

/-! ## The home slices (03 R42, R57, R58) -/

/-- The home slice of an address (03 R58). -/
def homeSlice (pa : Nat) (skew : BitVec 2) (t : TClass) : Nat :=
  let a := pa / 2 ^ 18 * 65536 + pa % 65536
  let un := a / t.block
  if skew = 0 then un % 32
  else if skew = 1 then (un ^^^ (un / 32) ^^^ (un / 1024)) % 32
  else un % 31

/-- Slots of one home slice: 8 MiB of 128 bytes. -/
def homeSlots : Nat := 65536

/-- Bank skew and tile class by which an access that knows no leaf finds its slice: those of the record of its page, else,
where no page names it, an untiled page of linear skew (log entry 81). -/
def State.homeShape (s : State) (pa : Nat) : BitVec 2 × TClass :=
  match s.names.find? fun n => decide (n.frame ≤ pa) && decide (pa < n.frame + 2 ^ n.lg) with
  | some n => (n.skew, n.tclass)
  | none => (0, .untiled)

/-- Slots that the frames of a slice fill. -/
def homeUsed (l : List HomeFrame) (slice : Nat) : Nat :=
  (l.filter fun f => f.slice = slice).foldl (fun n f => n + f.tclass.rows) 0

/-- A slice writes frames back, each a free choice, until it has room for n slots (03 R47). -/
def State.homeRoom (slice n : Nat) : Nat → State → State
  | 0, s => s
  | fuel + 1, s =>
    if homeUsed s.home slice + n ≤ homeSlots then s
    else
      let mine := s.home.filter fun f => f.slice = slice
      let r := s.choose mine.length
      match mine[r.1]? with
      | some f => State.homeRoom slice n fuel { r.2 with home := r.2.home.filter fun g => g ≠ f }
      | none => r.2

/-- Marks one row of a frame resident, with the bytes of a mask dirty. -/
def HomeFrame.touch (f : HomeFrame) (i mask : Nat) : HomeFrame :=
  let old := ((aget f.rows i).getD 0).toNat
  { f with rows := aset f.rows i (BitVec.ofNat 128 (old ||| mask)) }

/-- Marks every row of a frame resident. -/
def HomeFrame.touchAll (f : HomeFrame) : HomeFrame :=
  (upto f.tclass.rows).foldl (fun (g : HomeFrame) i => g.touch i 0) f

/-- Claims the frame of a GDDR 7 address in its home slice, by a bank skew and a tile class, and changes it. -/
def State.claimHome (s : State) (skew : BitVec 2) (t : TClass) (pa : Nat) (f : HomeFrame → HomeFrame) : State :=
  let slice := 32 * homeDie pa + homeSlice pa skew t
  let base := pa / t.block * t.block
  let s := State.homeRoom slice t.rows s.home.length (s.dropHome base t.block)
  { s with home := s.home ++ [f { base := base, tclass := t, slice := slice, rows := [] }] }

/-- Changes one frame of the home slices. -/
def State.mapHome (s : State) (g : HomeFrame) (f : HomeFrame → HomeFrame) : State :=
  { s with home := s.home.map fun q => if q = g then f q else q }

/-- Finds or claims the frame of a GDDR 7 address in its home slice, and changes it. -/
def State.onHome (s : State) (pa : Nat) (f : HomeFrame → HomeFrame) : State :=
  match s.home.find? fun g => g.meets pa 1 with
  | some g => s.mapHome g f
  | none => let p := s.homeShape pa; s.claimHome p.1 p.2 pa f

/-- Bank skew and tile class of a leaf, by which its lines find their home slice (03 R58). -/
def Leaf.homeShape (l : Leaf) : BitVec 2 × TClass := (l.attr.skew, l.attr.tclass)

/-- As `onHome`, for an access whose leaf is known: the frame is one of the leaf's bank skew and tile class (03 R58). -/
def State.onHomeOf (s : State) (p : BitVec 2 × TClass) (pa : Nat) (f : HomeFrame → HomeFrame) : State :=
  let slice := 32 * homeDie pa + homeSlice pa p.1 p.2
  match s.home.find? fun g => g.meets pa 1 && g.tclass = p.2 && g.slice = slice with
  | some g => s.mapHome g f
  | none => s.claimHome p.1 p.2 pa f

/-- Marks a line resident in its home slice, with the bytes written dirty. -/
def State.touchHome (s : State) (pa mask : Nat) : State :=
  if inGddr pa && s.sts.phase = 3 then s.onHome pa fun f => f.touch ((pa - f.base) / 128) mask else s

/-- As `touchHome`, for an access whose leaf is known. -/
def State.touchHomeOf (s : State) (p : BitVec 2 × TClass) (pa mask : Nat) : State :=
  if inGddr pa && s.sts.phase = 3 then s.onHomeOf p pa fun f => f.touch ((pa - f.base) / 128) mask else s

/-- Marks the line of an access under a leaf read at its home slice: a column line that is not there has its whole block
read. -/
def State.readHome (s : State) (l : Leaf) (cell : Nat) (col : Bool) : State :=
  let pa := l.pa cell
  if inGddr pa && s.sts.phase = 3 then
    s.onHomeOf l.homeShape pa fun f => if col then f.touchAll else f.touch ((pa - f.base) / 128) 0
  else s

/-- Merges the bytes of a line at their home under a mask, with their poison (03 R48, R61): in device memory, or in the
registers of the control window, which a supervisor page of the normal class may map (01 R14). `l` is the leaf of their page,
where a walk has found it. -/
def State.mergeHome (s : State) (pa : Nat) (w : WriteBack) (l : Option Leaf) : State :=
  let m := w.dirty.toNat
  if inCtl pa then s.ctlWriteWords (pa - ctlBase) m w.data.toNat 16
  else
  let keep := s.poison.filter fun k => !(pa / 8 ≤ k && k < pa / 8 + 16 && bit (wholeWords m) (k - pa / 8))
  let add := (upto 16).filter fun k => bit (w.poison.toNat &&& touchedWords m) k
  let s := { s with mem := s.mem.writeMasked pa m (toBytes 128 w.data.toNat),
                    poison := add.foldl (fun p k => nins p (pa / 8 + k)) keep }
  match l with
  | some l => s.touchHomeOf l.homeShape pa m
  | none => s.touchHome pa m

/-- Marks the live regions whose write-back to a lost peer was discarded (26 R382). -/
def State.loseFor (s : State) (blks : List Nat) : State :=
  { s with fe := { s.fe with regions := s.fe.regions.map fun r =>
      if r.f.blk ∈ blks then { r with lost := true } else r } }

/-- A write-back from an L2 arrives at its home slice (03 R47, R48): it goes out under the recorded name (04 R92),
else under the translation in force; to a peer that cannot be reached it is discarded (26 R382). -/
def State.writeBackHome (s : State) (cluster : Nat) (w : WriteBack) : State :=
  let dest := match s.namedPA w.space w.va with
    | some pa => some (pa, none)
    | none =>
      match s.translate (cluster / 12) w.space w.va .read false with
      | (.leaf l, _) => some (l.pa w.va, some l)
      | _ => none
  match dest with
  | none => s
  | some (pa, l) => if s.peerRefuses pa then s.loseFor w.writers else s.mergeHome pa w l

/-- Merges what an L2 has sent, in the order in which it was sent (22 R366). -/
def State.drainL2 (s : State) (cluster : Nat) : State :=
  let c := s.cluster cluster
  let s := s.setCluster cluster { c with wbq := [] }
  c.wbq.foldl (fun s w => s.writeBackHome cluster w) s

/-! ## The L2 -/

/-- Finds or claims the frame of an address in an L2; what it evicts is sent home. -/
def State.l2Frame (s : State) (cluster : Nat) (space : BitVec 16) (va : Nat) (t : TClass) : Frame × State :=
  let c := s.cluster cluster
  match Cache.find c.l2 space va with
  | some f => (f, s)
  | none =>
    let base := va / t.block * t.block
    let w := Cache.chooseWay c.l2 4096 base t.rows s
    let r := Cache.claim c.l2 4096 space base t w.1
    let c := { c with l2 := r.1, wbq := c.wbq ++ r.2.flatMap Frame.writeBacks }
    let f : Frame := { space := space, base := base, tclass := t, way := w.1, colValid := 0,
                       rows := List.replicate t.rows Row.empty }
    (f, w.2.setCluster cluster c)

/-- Replaces a frame of an L2. -/
def State.putL2 (s : State) (cluster : Nat) (f : Frame) : State :=
  let c := s.cluster cluster
  s.setCluster cluster { c with l2 := Cache.replace c.l2 f }

/-- A write-back from an L1 arrives at the L2: its bytes are merged under the mask and dirty there (03 R48). -/
def State.writeBackL2 (s : State) (cluster : Nat) (w : WriteBack) : State :=
  let r := s.l2Frame cluster w.space w.va w.tclass
  let f := r.1
  let i := f.rowOf w.va
  r.2.putL2 cluster (f.setRow i ((f.row i).write w.dirty.toNat w.data.toNat w.poison.toNat w.writers))

/-- Merges what an L1 has sent, in the order in which it was sent. -/
def State.drainL1 (s : State) (core : Nat) : State :=
  let c := s.core core
  let s := s.setCore core { c with wbq := [] }
  c.wbq.foldl (fun s w => s.writeBackL2 (clusterOf core) w) s

/-! ## Bypassing and target writes in flight (03 R50, R52) -/

/-- Performs one sent write at its home slice or target. One to a peer that can no longer be reached is discarded and its
region's domain ends, as for a write-back: R382 names reads, atomics and write-backs alone (log entry 142). -/
def State.performSent (s : State) (w : SentWrite) : State :=
  if s.peerRefuses w.pa then s.loseFor [w.blk]
  else
    let s := if inCtl w.pa then s.ctlWriteRun (w.pa - ctlBase) w.bytes.length (ofBytes w.bytes) else s.writePA w.pa w.bytes
    let s := if w.poison && !inCtl w.pa then { s with poison := nins s.poison (w.pa / 8) } else s
    match w.home with
    | some p => s.touchHomeOf p w.pa (runMask (w.pa % 128) w.bytes.length)
    | none => s

/-- Acknowledges every bypassing write of a core. -/
def State.ackBypass (s : State) (core : Nat) : State :=
  let c := s.core core
  if c.bypass.isEmpty then s else c.bypass.foldl State.performSent (s.setCore core { c with bypass := [] })

/-- Acknowledges every bypassing write of the cores of a cluster: its L2 takes no copy of a line behind a write to it
that is on its way (03 R50). -/
def State.ackCluster (s : State) (cluster : Nat) : State :=
  (upto 8).foldl (fun (s : State) i => s.ackBypass (8 * cluster + i)) s

/-- Acknowledges every write of a core to a device-class or non-idempotent page. -/
def State.ackTarget (s : State) (core : Nat) : State :=
  let c := s.core core
  if c.target.isEmpty then s else c.target.foldl State.performSent (s.setCore core { c with target := [] })

/-! ## Writing into the L1 and the L2 (03 R45, R60) -/

/-- Finds or claims the frame of an address in an L1; what it evicts is sent to the L2. -/
def State.l1Frame (s : State) (core : Nat) (space : BitVec 16) (va : Nat) (t : TClass) : Frame × State :=
  let c := s.core core
  match Cache.find c.l1 space va with
  | some f => (f, s)
  | none =>
    let base := va / t.block * t.block
    let w := Cache.chooseWay c.l1 128 base t.rows s
    let r := Cache.claim c.l1 128 space base t w.1
    let c := { c with l1 := r.1, wbq := c.wbq ++ r.2.flatMap Frame.writeBacks }
    let f : Frame := { space := space, base := base, tclass := t, way := w.1, colValid := 0,
                       rows := List.replicate t.rows Row.empty }
    (f, w.2.setCore core c)

/-- Replaces a frame of an L1. -/
def State.putL1 (s : State) (core : Nat) (f : Frame) : State :=
  let c := s.core core
  s.setCore core { c with l1 := Cache.replace c.l1 f }

/-- The core's metadata cache drops the line of an address that the core writes (03 R60). -/
def State.dropMeta (s : State) (core : Nat) (space : BitVec 16) (va : Nat) : State :=
  let c := s.core core
  s.setCore core { c with meta1 := c.meta1.filter fun f => !f.covers space va }

/-- Writes n bytes of one slot into the L1: write-allocate, no fetch (03 R45). -/
def State.writeL1 (s : State) (core : Nat) (space : BitVec 16) (va : Nat) (t : TClass) (mask data poison blk : Nat) :
    State :=
  let r := s.l1Frame core space va t
  let i := r.1.rowOf va
  (r.2.putL1 core (r.1.setRow i ((r.1.row i).write mask data poison [blk]))).dropMeta core space va

/-- Writes a run of n bytes of one slot into the L1. -/
def State.writeL1Run (s : State) (core : Nat) (space : BitVec 16) (va : Nat) (t : TClass) (n x : Nat)
    (poison : Bool) (blk : Nat) : State :=
  let o := va % 128
  s.writeL1 core space va t (runMask o n) (x <<< (8 * o)) (if poison then ones 16 else 0) blk

/-- A core writes a run of bytes of one slot into its cluster's L2. -/
def State.writeL2Run (s : State) (core : Nat) (space : BitVec 16) (va : Nat) (t : TClass) (n x : Nat)
    (poison : Bool) (blk : Nat) : State :=
  let o := va % 128
  (s.writeBackL2 (clusterOf core) {
    space := space, va := va / 128 * 128, tclass := t, dirty := BitVec.ofNat 128 (runMask o n),
    poison := if poison then BitVec.ofNat 16 (ones 16) else 0, data := BitVec.ofNat 1024 (x <<< (8 * o)),
    writers := [blk] }).dropMeta core space va

/-! ## The store buffer's drain, and stores that a hold or a recall meets (05 R97 to R99; 04 R92, R94, R95) -/

/-- Whether an address of a space lies in a range. -/
def inRange (space space' : BitVec 16) (va base n : Nat) : Bool := space = space' && base ≤ va && va < base + n

/-- The address, in the row view, of byte k of an entry: of its cell where the entry holds a column line (02 R28, R33). -/
def SbEntry.cell (e : SbEntry) (k : Nat) : Nat := if e.orient then colCell e.tclass (e.va + k) else e.va + k

/-- The byte of an entry that holds a row-view address; `colCell` changes the view in both directions (02 R34). -/
def SbEntry.slotOf (e : SbEntry) (va : Nat) : Option Nat :=
  let a := if e.orient then colCell e.tclass va else va
  if e.va = a / 128 * 128 then some (a % 128) else none

/-- Whether an entry holds the byte at a row-view address of a space. -/
def SbEntry.covers (e : SbEntry) (space : BitVec 16) (va : Nat) : Bool :=
  e.space = space &&
    match e.slotOf va with
    | some k => bit e.mask.toNat k
    | none => false

/-- Whether any byte of an entry lies in a range of a space. -/
def SbEntry.within (e : SbEntry) (space : BitVec 16) (base n : Nat) : Bool :=
  if e.orient then (upto 128).any fun k => bit e.mask.toNat k && inRange e.space space (e.cell k) base n
  else inRange e.space space e.va base n

/-- Whether two entries have a line in common, or a byte where a row line and a column line cross (02 R34). -/
def SbEntry.sharesLine (e q : SbEntry) : Bool :=
  q.space = e.space && ((q.va = e.va && q.orient = e.orient) ||
    ((q.orient || e.orient) && (upto 128).any fun k => bit e.mask.toNat k && q.covers e.space (e.cell k)))

/-- What an entry writes in each 128-byte row that it reaches: the row's address, and mask, data and poison within it. -/
def SbEntry.rowsOf (e : SbEntry) : List (Nat × Nat × Nat × Nat) :=
  if e.orient then
    let w := e.tclass.width
    (upto e.tclass.rows).filterMap fun y =>
      let m := e.mask.toNat >>> (y * w) % 2 ^ w
      let va := e.cell (y * w)
      let o := va % 128
      if m = 0 then none
      else some (va / 128 * 128, m <<< o, (e.data.toNat >>> (8 * y * w) % 2 ^ (8 * w)) <<< (8 * o),
        if bit e.poison.toNat (y * w / 8) then 2 ^ (o / 8) else 0)
  else [(e.va, e.mask.toNat, e.data.toNat, e.poison.toNat)]

/-- Entries of a page in a core's buffer, of any hart and in any state. -/
def Core.bufferedPage (c : Core) (space : BitVec 16) (vbase n : Nat) : Bool :=
  c.sb.any fun e => inRange e.space space e.va vbase n

def FilterEntry.covers (e : FilterEntry) (space : BitVec 16) (va : Nat) : Bool :=
  e.space = space && e.vbase ≤ va && va < e.vbase + 2 ^ e.lg

/-- Confirms a page that no buffered entry touches any more (05 R99, 04 R88). -/
def State.confirmPage (s : State) (core : Nat) (space : BitVec 16) (va : Nat) : State :=
  let c := s.core core
  let up := fun (e : FilterEntry) =>
    if e.covers space va && !e.pd && e.attr.w && !c.bufferedPage e.space e.vbase (2 ^ e.lg)
        && s.names.any (fun n => n.space = e.space && n.vbase ≤ va && va < n.vbase + 2 ^ n.lg)
    then { e with cf := true } else e
  s.setCore core { c with filter := c.filter.map up }

/-- A page that takes an entry is no longer confirmed, until no entry of it is left (05 R99). -/
def State.unconfirm (s : State) (core : Nat) (space : BitVec 16) (va : Nat) : State :=
  let c := s.core core
  if c.filter.any fun e => e.cf && e.covers space va then
    s.setCore core { c with filter := c.filter.map fun e => if e.covers space va then { e with cf := false } else e }
  else s

/-- Writes an acked entry into the L1 under its mask and frees it (05 R99, R114). -/
def State.drainEntry (s : State) (core : Nat) (e : SbEntry) : State :=
  let s := e.rowsOf.foldl (fun (s : State) r =>
    s.writeL1 core e.space r.1 e.tclass r.2.1 r.2.2.1 r.2.2.2 (s.blkAt core e.slot)) (s.ackBypass core)
  let c := s.core core
  (s.setCore core { c with sb := c.sb.filter fun q => q.idx ≠ e.idx }).confirmPage core e.space e.va

/-- Whether two entries belong to one ordered store. -/
def SbEntry.sameOrdered (e q : SbEntry) : Bool := e.ord && q.ord && q.slot = e.slot && q.seq = e.seq

/-- Whether the elements of an entry reach into a span of elements. -/
def SbEntry.reaches (e : SbEntry) (r : Nat × Nat) : Bool := e.efirst ≤ r.2 && r.1 ≤ e.elast

/-- The span of elements that grows from one span by every entry of an ordered store whose elements reach into it, until
none does: at most `fuel` times. -/
def spanOf (es : List SbEntry) : Nat → Nat × Nat → Nat × Nat
  | 0, r => r
  | fuel + 1, r =>
    spanOf es fuel (es.foldl (fun r q => if q.reaches r then (min r.1 q.efirst, max r.2 q.elast) else r) r)

/-- The entries that are written in one step with an entry. An entry is written whole (05 R97), and the elements of an
ordered form are written in element order (05 R98, 06 R121): lines whose elements interleave are written together, so that no
agent sees a higher element without the lower ones. That they are is the model's reading (log entry 111). -/
def Core.drainGroup (c : Core) (e : SbEntry) : List SbEntry :=
  if e.ord then
    let others := c.sb.filter fun q => q.idx ≠ e.idx && e.sameOrdered q
    let r := spanOf others others.length (e.efirst, e.elast)
    e :: others.filter fun q => q.reaches r
  else [e]

/-- Whether the entries that are written together are all acknowledged, every older entry of the same hart and of their lines
is free, and for an ordered form every entry of the same store with a lower element is written with them or free (05 R98,
R99). -/
def Core.drainable (c : Core) (e : SbEntry) : Bool :=
  (c.drainGroup e).all fun g => g.state = .acked &&
    !c.sb.any fun q => q.slot = g.slot && q.idx ≠ g.idx &&
      ((g.sharesLine q && q.seq < g.seq) ||
        (g.sameOrdered q && q.efirst < g.efirst && !(c.drainGroup e).any fun m => m.idx = q.idx))

/-- Writes the entries that are written together with an entry into the L1 and frees them (05 R99). -/
def State.drainGroup (s : State) (core : Nat) (e : SbEntry) : State :=
  ((s.core core).drainGroup e).foldl (fun s q => s.drainEntry core q) s

/-- Drains the acked entries of a range that can be drained. -/
def State.drainRange (core : Nat) (space : BitVec 16) (base n : Nat) : Nat → State → State
  | 0, s => s
  | fuel + 1, s =>
    let c := s.core core
    match c.sb.find? fun e => c.drainable e && e.within space base n with
    | some e => State.drainRange core space base n fuel (s.drainGroup core e)
    | none => s

/-- An acked entry that an older one keeps from draining asks again under the tables that follow: its acknowledgement
ends with its page's name (log entry 82). -/
def SbEntry.askAgain (space : BitVec 16) (base n : Nat) (e : SbEntry) : SbEntry :=
  if e.state = .acked && e.within space base n then { e with state := .pending } else e

/-- An access of a paused store, on a page of the normal class, after its page's name has been recalled: the page is no
longer confirmed, so the access goes to the buffer (04 R92, 05 R98). -/
def Piece.recalled (space : BitVec 16) (base n : Nat) (p : Piece × Bool) : Piece × Bool :=
  (p.1, p.2 || (p.1.e.attr.mc = .normal && inRange p.1.a.space space p.1.cell base n))

/-- A paused store meets a hold or a recall of a range. One that has performed no element checks afresh (04 R86), and so does
one that may leave nothing in the buffer, from `vstart` on (01 R23). Another that has begun meets a recall only, since a hold
waits until nothing of the range is left of it (R94 steps 2 and 4). -/
def State.settlePaused (core : Nat) (space : BitVec 16) (base n : Nat) (s : State) (slot : Nat) : State :=
  let key := hkey core slot
  match s.hart? key with
  | none => s
  | some h =>
    match h.placed with
    | none => s
    | some p =>
      if !p.todo.any fun q => inRange q.1.a.space space q.1.cell base n then s
      else if !p.begun || p.early.isSome then s.setHart key { h with placed := none }
      else s.setHart key { h with placed := some { p with todo := p.todo.map (Piece.recalled space base n) } }

/-- The stores of a core that a hold or a recall of a range meets: acknowledged ones reach the L1 (R94 step 2). -/
def State.settleStores (s : State) (core : Nat) (space : BitVec 16) (base n : Nat) : State :=
  let s := State.drainRange core space base n (s.core core).sb.length s
  let s := (upto 8).foldl (State.settlePaused core space base n) s
  let c := s.core core
  s.setCore core { c with sb := c.sb.map (SbEntry.askAgain space base n) }

/-! ## Recall of a name (04 R92) -/

/-- Every L1 of the package writes back and drops the lines of a range of a space; then the instruction and metadata
caches drop theirs (04 R92, R94 step 3). -/
def State.flushL1Range (s : State) (core : Nat) (space : BitVec 16) (base n : Nat) : State :=
  let c := s.core core
  let hit := fun f : Frame => inRange f.space space f.base base n || inRange f.space space base f.base f.tclass.block
  let out := (c.l1.filter hit).flatMap Frame.writeBacks
  let c := { c with l1 := c.l1.filter fun f => !hit f, l1i := c.l1i.filter fun f => !hit f,
                    meta1 := c.meta1.filter fun f => !hit f, wbq := c.wbq ++ out }
  (s.setCore core c).drainL1 core

/-- Every L2 writes back and drops the lines of a range of a space. -/
def State.flushL2Range (s : State) (cluster : Nat) (space : BitVec 16) (base n : Nat) : State :=
  let c := s.cluster cluster
  let hit := fun f : Frame => inRange f.space space f.base base n || inRange f.space space base f.base f.tclass.block
  let out := (c.l2.filter hit).flatMap Frame.writeBacks
  (s.setCluster cluster { c with l2 := c.l2.filter fun f => !hit f, wbq := c.wbq ++ out }).drainL2 cluster

/-- Every cache of the package writes back and drops a range of a space. -/
def State.flushRange (s : State) (space : BitVec 16) (base n : Nat) : State :=
  let s := (s.cores.map (·.1)).foldl (fun s c => s.flushL1Range c space base n) s
  (s.clusters.map (·.1)).foldl (fun s c => s.flushL2Range c space base n) s

/-- Recall of a name record (04 R92), which its directory makes when it needs room (`State.makeRoom`): acknowledged stores
reach the L1, every core clears cf for the page, every cache drops its lines, the home slices theirs, and the record is
freed. -/
def State.recallName (s : State) (die : Nat) (n : NameRec) : State :=
  let clear := fun (s : State) (k : Nat) =>
    let c := s.core k
    let unconfirm := fun (e : FilterEntry) =>
      if inRange e.space n.space e.vbase n.vbase (2 ^ n.lg) || inRange e.space n.space n.vbase e.vbase (2 ^ e.lg)
      then { e with cf := false } else e
    s.setCore k { c with filter := c.filter.map unconfirm }
  let s := (s.cores.map (·.1)).foldl (fun s c => s.settleStores c n.space n.vbase (2 ^ n.lg)) s
  let s := (s.cores.map (·.1)).foldl clear s
  let s := s.flushRange n.space n.vbase (2 ^ n.lg)
  let s := s.dropHome n.frame (2 ^ n.lg)
  let d := s.die die
  s.setDie die { d with names := d.names.filter fun m => m ≠ n }

/-- Whether a directory has no room for another record (04 R91). -/
def Die.namesFull (d : Die) : Bool := decide (16384 ≤ d.names.length)

/-- Makes room in the directory of a frame's home die: one that is full recalls a record, a free choice (04 R92). -/
def State.makeRoom (s : State) (pa : Nat) : State :=
  let die := homeDie pa
  let d := s.die die
  if !d.namesFull then s
  else
    let r := s.choose d.names.length
    match d.names[r.1]? with
    | some n => r.2.recallName die n
    | none => r.2

/-- Registers a leaf's name: one that is recorded stays as it is, and for another room is made (04 R91, R92); none on a
conflict. -/
def State.name (s : State) (l : Leaf) : Option State :=
  if s.nameConflict l then none
  else if s.isNamed l then some s
  else some ((s.makeRoom l.frame).registerName l)

/-! ## Filling (03 R45, R46; 06 R129) -/

/-- The cells of the line that an access names: addresses of its runs and their length. A row line is one run of 128
bytes; a column line is one run of the class width in each row (02 R33). -/
def lineRuns (t : TClass) (va : Nat) (col : Bool) : List (Nat × Nat) :=
  if col && t ≠ .untiled then
    let base := va / t.block * t.block
    let x := va % 128 / t.width
    (upto t.rows).map fun y => (base + y * 128 + x * t.width, t.width)
  else [(va / 128 * 128, 128)]

/-- Reads n bytes at their home with their poison, word by word: the number and the poison bits of the words of the 128-byte
slot. -/
def State.homeRun (s : State) (pa n : Nat) : Nat × Nat :=
  (s.targetRead pa n, (upto 16).foldl (fun a w =>
    if pa / 128 * 128 + 8 * w + 8 ≤ pa ∨ pa + n ≤ pa / 128 * 128 + 8 * w then a
    else if s.poisonAt (pa / 128 * 128 + 8 * w) then a ||| 2 ^ w else a) 0)

/-- Marks a line of a frame valid. -/
def Frame.markValid (f : Frame) (va : Nat) (col : Bool) : Frame :=
  if col && f.tclass ≠ .untiled then
    { f with colValid := f.colValid ||| BitVec.ofNat 128 (2 ^ (va % 128 / f.tclass.width)) }
  else
    let i := f.rowOf va
    f.setRow i { f.row i with valid := true }

/-- Translates an access for a fill, an atomic, a bypass or a transfer, with the checks that the memory side makes:
a range hold makes it wait, a walk that fails is a translation fault. -/
def reach (a : Acc) (kind : WalkKind) (s : State) : Res Leaf :=
  if s.held a.space a.va then .stop .wait s
  else
    match s.translate (dieOf a.core) a.space a.va kind false with
    | (.leaf l, s') => if s.heldPage l then .stop .wait s else .ok l s'
    | (.pending l lvl, s') => if s.heldPage l then .stop .wait s else absentFault a 0x2 lvl s'
    | (.fail w lvl, s) => absentFault a w lvl s

/-- As `reach`, and the name is recorded or refused (04 R91). -/
def reachNamed (a : Acc) (kind : WalkKind) (s : State) : Res Leaf :=
  (reach a kind s).bind fun l s =>
    match s.name l with
    | none => nameFault a s
    | some s => .ok l s

/-- Fills the line of an access into the L2 from its home slice. -/
def fillL2 (a : Acc) (t : TClass) (s : State) : Res Unit :=
  let k := clusterOf a.core
  (reachNamed a .read ((s.ackCluster k).drainL2 k)).bind fun l s =>
    let r := s.l2Frame k a.space a.va t
    let s := r.2.drainL2 k
    let f := (lineRuns t a.va a.col).foldl (fun (f : Frame) (run : Nat × Nat) =>
      let d := s.homeRun (l.pa run.1) run.2
      let o := run.1 % 128
      let i := f.rowOf run.1
      f.setRow i ((f.row i).fill (runMask o run.2) (d.1 <<< (8 * o)) d.2)) r.1
    .ok () ((s.putL2 k (f.markValid a.va a.col)).readHome l a.va a.col)

/-- Makes runs of bytes of the line of an access present in the L2: a hit where all of them are (03 R45), else the line is
filled. -/
def needL2 (a : Acc) (t : TClass) (runs : List (Nat × Nat)) (s : State) : Res Unit :=
  let s := s.drainL1 a.core
  match Cache.find (s.cluster (clusterOf a.core)).l2 a.space a.va with
  | some f => if runs.all fun r => f.presentRun r.1 r.2 then .ok () s else fillL2 a t s
  | none => fillL2 a t s

/-- Fills the line of an access into the L1 from the L2. -/
def fillL1 (a : Acc) (t : TClass) (s : State) : Res Unit :=
  (needL2 a t (lineRuns t a.va a.col) (s.ackBypass a.core)).bind fun _ s =>
    match Cache.find (s.cluster (clusterOf a.core)).l2 a.space a.va with
    | none => .ok () s
    | some g =>
      let r := s.l1Frame a.core a.space a.va t
      let s := r.2.drainL1 a.core
      let f := (lineRuns t a.va a.col).foldl (fun (f : Frame) run =>
        let i := f.rowOf run.1
        let src := g.row (g.rowOf run.1)
        f.setRow i ((f.row i).fill (runMask (run.1 % 128) run.2) src.data.toNat src.poison.toNat)) r.1
      .ok () (s.putL1 a.core (f.markValid a.va a.col))

/-- Whether the line of an orientation that holds an address is valid in a frame. -/
def Frame.lineValid (f : Frame) (va : Nat) (col : Bool) : Bool :=
  if col && f.tclass ≠ .untiled then f.colHit va else (f.row (f.rowOf va)).valid

/-- Makes the line of an access's orientation valid in the L1: an atomic is performed in that line, although the other
line of a tiled block may make its bytes present already (03 R55). -/
def needLine (a : Acc) (t : TClass) (s : State) : Res Unit :=
  match Cache.find (s.core a.core).l1 a.space a.va with
  | some f => if f.lineValid a.va a.col then .ok () s else fillL1 a t s
  | none => fillL1 a t s

/-- Makes n bytes at an address present in the L1, filling the line of the access's orientation (03 R45). A row read hits on
cells of column lines that were filled at different times, as R45 has it, and may then mix bytes that R117 keeps apart: the
model follows R45 (log entry 134). -/
def needL1 (a : Acc) (t : TClass) (n : Nat) (s : State) : Res Unit :=
  match Cache.find (s.core a.core).l1 a.space a.va with
  | some f => if f.presentRun a.va n then .ok () s else fillL1 a t s
  | none => fillL1 a t s

/-- The bytes of a run of one slot in a frame, with the poison of any word that they touch. -/
def Frame.run (f : Frame) (va n : Nat) : Nat × Bool :=
  let r := f.row (f.rowOf va)
  ((r.data.toNat >>> (8 * (va % 128))) % 2 ^ (8 * n),
   (upto 16).any fun w => bit r.poison.toNat w && w * 8 < va % 128 + n && va % 128 < w * 8 + 8)

/-- Reads n bytes of one slot through the L1 (06 R129). -/
def readL1 (a : Acc) (t : TClass) (n : Nat) (s : State) : Res (Nat × Bool) :=
  (needL1 a t n s).bind fun _ s =>
    match Cache.find (s.core a.core).l1 a.space a.va with
    | some f => .ok (f.run a.va n) s
    | none => .ok (0, false) s

/-! ## Scopes (03 R53 to R55) -/

/-- Writes back every dirty slot of a space in an L1 to the L2. -/
def State.cleanL1 (s : State) (core : Nat) (space : BitVec 16) : State :=
  let c := s.core core
  let out := (c.l1.filter fun f => f.space = space).flatMap Frame.writeBacks
  let c := { c with l1 := c.l1.map (fun (f : Frame) => if f.space = space then f.clean else f), wbq := c.wbq ++ out }
  let c := { c with l1 := c.l1.filter Frame.live }
  (s.setCore core c).drainL1 core

/-- Writes back every dirty slot of a space in an L2 to its home slice. -/
def State.cleanL2 (s : State) (cluster : Nat) (space : BitVec 16) : State :=
  let c := s.cluster cluster
  let out := (c.l2.filter fun f => f.space = space).flatMap Frame.writeBacks
  let c := { c with l2 := c.l2.map (fun (f : Frame) => if f.space = space then f.clean else f), wbq := c.wbq ++ out }
  let c := { c with l2 := c.l2.filter Frame.live }
  (s.setCluster cluster c).drainL2 cluster

/-- Steps 1 and 2 of a release at a scope, and the acknowledgements that a release waits for (03 R53, 06 R125). -/
def State.releaseSteps (s : State) (core : Nat) (space : BitVec 16) (sc : Scope) : State :=
  let s := (s.ackBypass core).ackTarget core
  match sc with
  | .h => s
  | .c => s
  | .k => s.cleanL1 core space
  | .d => (s.cleanL1 core space).cleanL2 (clusterOf core) space
  | .s => (s.cleanL1 core space).cleanL2 (clusterOf core) space

/-- The steps of an acquire at a scope (03 R54); a fill in flight is discarded (R46). -/
def State.acquireSteps (s : State) (core : Nat) (space : BitVec 16) (sc : Scope) : State :=
  let drop := fun (c : Cache) => (c.map fun f => if f.space = space then f.dropClean else f).filter Frame.live
  let l1 := fun (s : State) =>
    let c := s.core core
    s.setCore core { c with l1 := drop c.l1, meta1 := c.meta1.filter fun f => f.space ≠ space,
                            fills := c.fills.filter fun f => f.space ≠ space }
  match sc with
  | .h => s
  | .c => s
  | .k => l1 s
  | _ =>
    let s := l1 s
    let k := s.cluster (clusterOf core)
    s.setCluster (clusterOf core) { k with l2 := drop k.l2 }

/-- The preparation of an atomic in the L1: the line, or the whole frame of a tiled block, is written back and dropped
(03 R55). -/
def State.prepL1 (s : State) (core : Nat) (space : BitVec 16) (va : Nat) : State :=
  let c := s.core core
  match Cache.find c.l1 space va with
  | none => s.drainL1 core
  | some f =>
    (s.setCore core { c with l1 := c.l1.filter (fun g => g ≠ f), wbq := c.wbq ++ f.writeBacks }).drainL1 core

/-- The preparation of an atomic in the L2. -/
def State.prepL2 (s : State) (cluster : Nat) (space : BitVec 16) (va : Nat) : State :=
  let c := s.cluster cluster
  match Cache.find c.l2 space va with
  | none => s.drainL2 cluster
  | some f =>
    (s.setCluster cluster { c with l2 := c.l2.filter (fun g => g ≠ f), wbq := c.wbq ++ f.writeBacks }).drainL2 cluster

/-! ## Instruction and metadata caches (03 R59, R60) -/

/-- Reads a 4-byte word through the instruction cache, which is filled from the L2 in row lines. The spec gives no
replacement policy for it: the model drops the line that was filled first (log entry 83). -/
def fetchL1I (a : Acc) (t : TClass) (s : State) : Res (Nat × Bool) :=
  let hit := fun (s : State) => Cache.find (s.core a.core).l1i a.space a.va
  match hit s with
  | some f => .ok (f.run a.va 4) s
  | none =>
    (needL2 a t (lineRuns t a.va a.col) s).bind fun _ s =>
      match Cache.find (s.cluster (clusterOf a.core)).l2 a.space a.va with
      | none => .ok (0, false) s
      | some g =>
        let i := g.rowOf a.va
        let line : Frame := { space := a.space, base := a.va / 128 * 128, tclass := .untiled, way := 0, colValid := 0,
                              rows := [{ g.row i with valid := true, dirty := 0, writers := [] }] }
        let c := s.core a.core
        .ok (line.run a.va 4) (s.setCore a.core { c with l1i := (line :: c.l1i).take 512 })

/-- Reads n bytes of metadata of one line through the sparse-metadata cache, which is filled as a load is. Here too the
line that was filled first is dropped (log entry 83). -/
def readMeta (a : Acc) (t : TClass) (n : Nat) (s : State) : Res (Nat × Bool) :=
  match Cache.find (s.core a.core).meta1 a.space a.va with
  | some f => .ok (f.run a.va n) s
  | none =>
    let a' := { a with va := a.va / 128 * 128 }
    (readL1 a' t 128 s).bind fun d s =>
      match Cache.find (s.core a.core).l1 a.space a.va with
      | none => .ok (d.1 >>> (8 * (a.va % 128)) % 2 ^ (8 * n), d.2) s
      | some f =>
        let line : Frame := { space := a.space, base := a.va / 128 * 128, tclass := .untiled, way := 0, colValid := 0,
                              rows := [{ f.row (f.rowOf a.va) with valid := true, dirty := 0, writers := [] }] }
        let c := s.core a.core
        .ok (line.run a.va n) (s.setCore a.core { c with meta1 := (line :: c.meta1).take 256 })

/-- Drops every line of an instruction cache (03 R59). -/
def State.flushL1I (s : State) (core : Nat) : State := s.setCore core { s.core core with l1i := [] }

/-- Drops every line of every instruction cache (20 R357). -/
def State.flushAllL1I (s : State) : State := (s.cores.map (·.1)).foldl State.flushL1I s

end Sys2Proof.Machine
end

