-- ==== Sys2Proof/Machine/Access.lean ====
section
/-! DEFINITION. Accesses to the virtual space from the core's side: the segment checks (spec 01 R22), the permission
filter and the page checks (04 R86 to R89; 02 R31), the late-fault store buffer (05 R97 to R105), and reading, writing
and updating one run of bytes. -/

namespace Sys2Proof.Machine

/-- What an access asks for. -/
inductive Rw where
  | read
  | write
  | both
  | exec
  deriving DecidableEq, Repr

/-- A request as an instruction makes it: segment, offset, bytes, alignment, element, element width in bits. -/
structure Req where
  rw : Rw
  g : Nat
  off : Word
  n : Nat
  align : Nat
  elem : Nat
  ew : Nat
  col : Bool
  deriving DecidableEq, Repr

/-- Kind in a fault record (05 R108). -/
def Rw.kind : Rw → Nat
  | .read => 0
  | .write => 1
  | .both => 2
  | .exec => 3

def Rw.walk : Rw → WalkKind
  | .read => .read
  | .write => .write
  | .both => .atomic
  | .exec => .fetch

/-- The rights an access lacks, in the order of 01 R22 check 2: none, or the cause. -/
def Rw.denied (k : Rw) (r w x : Bool) : Option Nat :=
  match k with
  | .read => if r then none else some 0x07
  | .write => if w then none else some 0x08
  | .both => if !r then some 0x07 else if !w then some 0x08 else none
  | .exec => if x then none else some 0x09

/-- The segment checks (01 R22): none, or the cause of the first that fails. -/
def segCheck (g : BitVec 128) (r : Req) : Option Nat :=
  let o := r.off.toNat
  if !segBound g || decide (segLimit g < o + r.n) || decide (2 ^ 57 < segBase g + o + r.n) then some 0x06
  else
    match r.rw.denied (segR g) (segW g) (segX g) with
    | some c => some c
    | none => if o % r.align ≠ 0 then some 0x05 else none

/-- The access of a request by a hart at a key. -/
def Req.acc (r : Req) (h : Hart) (key : Nat) (requester : Bool) : Acc :=
  { core := coreOf key, slot := slotOf key, space := h.spaceTag, user := h.user, kind := r.rw.kind, gseg := r.g,
    off := r.off, rva := segBase (h.getG r.g) + r.off.toNat, pva := segBase (h.getG r.g) + r.off.toNat,
    va := segBase (h.getG r.g) + r.off.toNat, elem := r.elem, ew := r.ew, col := r.col, requester := requester }

/-! ## The store buffer's bytes (05 R97, R100) -/

/-- The youngest entry of a slot that holds a byte. -/
def newestFor (sb : List SbEntry) (slot : Nat) (space : BitVec 16) (va : Nat) : Option SbEntry :=
  sb.foldl (fun best e =>
    if e.slot = slot && e.covers space va then
      match best with
      | some b => if b.seq ≤ e.seq then some e else best
      | none => some e
    else best) none

/-- A byte of a hart that its own buffered entries supply, with its poison (05 R100). -/
def Core.forward (c : Core) (slot : Nat) (space : BitVec 16) (va : Nat) : Option (Byte × Bool) :=
  (newestFor c.sb slot space va).bind fun e => (e.slotOf va).map fun k =>
    (BitVec.ofNat 8 (elt e.data.toNat 8 k), bit e.poison.toNat (k / 8))

/-- Whether n bytes all come from a hart's own entries. -/
def Core.forwardsAll (c : Core) (slot : Nat) (space : BitVec 16) (va n : Nat) : Bool :=
  (upto n).all fun k => (c.forward slot space (va + k)).isSome

/-! ## The permission filter (04 R85 to R88) -/

/-- Whether two filter entries are of one page. -/
def FilterEntry.samePage (e q : FilterEntry) : Bool := q.space = e.space && q.vbase = e.vbase && q.lg = e.lg

/-- Puts an entry in a core's filter, over one of the same page, else in a free place, else over a free choice among those
that are not of the batch of pages that its instruction is checking (04 R86). -/
def State.fillFilter (s : State) (core : Nat) (e : FilterEntry) (batch : List FilterEntry := []) : State :=
  let c := s.core core
  let rest := c.filter.filter fun q => !e.samePage q
  if rest.length < 512 then s.setCore core { c with filter := e :: rest }
  else
    let old := rest.filter fun q => !batch.any q.samePage
    let r := s.choose old.length
    r.2.setCore core { c with filter := e :: rest.filter fun q => old[r.1]? ≠ some q }

/-- Fills the filter with the leaf of a walk that succeeded, confirmed where R88 lets it be (04 R88): its entry. A name
conflict leaves the page unconfirmed (R91) and makes or joins a host entry, as every conflict does (05 R112), on which no
requester waits, since the access goes on (log entry 112). None when 4,096 entries are unresolved, and the fill waits. -/
def confirmedFill (core slot va kind : Nat) (l : Leaf) (s : State) (batch : List FilterEntry := []) :
    Option (FilterEntry × State) :=
  let e : FilterEntry := { space := l.space, vbase := l.vbase, lg := l.lg, attr := l.attr, cf := false, pd := false }
  if l.attr.w && l.d && !(s.core core).bufferedPage l.space l.vbase (2 ^ l.lg) then
    match s.name l with
    | some s => let e := { e with cf := true }; some (e, s.fillFilter core e batch)
    | none => (s.hostFault core slot l.space va 0xF 7 kind false).map fun r => (e, r.2.fillFilter core e batch)
  else some (e, s.fillFilter core e batch)

/-- Walks for a page and fills the filter (04 R86 to R88). A pending leaf fills with pd; `needs` says that the access
needs the page's data, and then a pending leaf fails at presence (R87). -/
def walkFill (a : Acc) (kind : WalkKind) (fresh needs : Bool) (s : State) (batch : List FilterEntry := []) :
    Res FilterEntry :=
  if s.held a.space a.va then .stop .wait s
  else
    match s.translate (dieOf a.core) a.space a.va kind fresh with
    | (.leaf l, s') =>
      if s.heldPage l then .stop .wait s
      else
        match confirmedFill a.core a.slot a.pva a.kind l s' batch with
        | some r => .ok r.1 r.2
        | none => .stop .wait s
    | (.pending l lvl, s') =>
      if s.heldPage l then .stop .wait s
      else if needs then absentFault a 0x2 lvl s'
      else
        let e : FilterEntry := { space := l.space, vbase := l.vbase, lg := l.lg, attr := l.attr, cf := false,
                                 pd := true }
        .ok e (s'.fillFilter a.core e batch)
    | (.fail w lvl, s) => absentFault a w lvl s

/-- The row-view address that an access reaches: its cell in a tiled page for a column access (02 R28). -/
def cellOf (a : Acc) (e : FilterEntry) : Nat := if a.col then colCell e.attr.tclass a.va else a.va

/-- Whether an access needs the page's data: a store does not, nor does a load whose bytes all come from its hart's
own entries (04 R87). -/
def needsData (a : Acc) (rw : Rw) (e : FilterEntry) (n : Nat) (s : State) : Bool :=
  match rw with
  | .write => false
  | .read => !(s.core a.core).forwardsAll a.slot a.space (cellOf a e) n
  | _ => true

/-- Presence (02 R31 check 1): the filter's entry of the page. -/
def present (a : Acc) (rw : Rw) (n : Nat) (s : State) (batch : List FilterEntry := []) : Res FilterEntry :=
  let found := match (s.core a.core).filter.find? fun e => e.covers a.space a.va with
    | some e => Res.ok e s
    | none => walkFill a rw.walk false false s batch
  found.bind fun e s => if e.pd && needsData a rw e n s then walkFill a rw.walk true true s batch else .ok e s

/-- Rights (02 R31 check 2, 04 R87). -/
def rightsCheck (a : Acc) (rw : Rw) (e : FilterEntry) : Option FRec :=
  let ok := !(e.attr.s && a.user)
  (rw.denied (ok && e.attr.r) (ok && e.attr.w) (ok && e.attr.x)).map a.fault

/-- Orientation (02 R30, R31 check 3). -/
def orientCheck (a : Acc) (e : FilterEntry) : Option FRec :=
  if a.col && (e.attr.tclass = .untiled || a.ew ≠ 8 * e.attr.tclass.width) then
    some { a.fault 0x0A with orient := true }
  else none

/-- Rights, then orientation. -/
def entryCheck (a : Acc) (rw : Rw) (e : FilterEntry) : Option FRec :=
  match rightsCheck a rw e with
  | some t => some t
  | none => orientCheck a e

/-- The first of some checks that fails. -/
def firstSome {α : Type} : List (Option α) → Option α
  | [] => none
  | some a :: _ => some a
  | none :: t => firstSome t

/-- All checks of one access: R22, then R31 and R87. Answers the access, the page's entry and the cell's address. -/
def checkReq (r : Req) (h : Hart) (requester : Bool) (s : State) (batch : List FilterEntry := []) :
    Res (Acc × FilterEntry × Nat) :=
  let a := r.acc h s.cur requester
  match segCheck (h.getG r.g) r with
  | some c => .stop (.trap (if c = 0x05 ∨ c = 0x06 then a.segFault c else a.fault c)) s
  | none =>
    (present a r.rw r.n s batch).bind fun e s =>
      match entryCheck a r.rw e with
      | some t => .stop (.trap t) s
      | none => .ok (a, e, cellOf a e) s

/-! ## Reading a run of bytes of one slot -/

/-- A byte that a cache holds. -/
def Cache.byteOf (l : List Frame) (space : BitVec 16) (va : Nat) : Option (Byte × Bool) :=
  (Cache.find l space va).bind fun f => if f.present va then some (f.byte va) else none

/-- The byte as the cluster's L2, or else the home slice, holds it. -/
def State.l2Byte (s : State) (core : Nat) (l : Leaf) (va : Nat) : Byte × Bool :=
  match Cache.byteOf (s.cluster (clusterOf core)).l2 l.space va with
  | some b => b
  | none => (BitVec.ofNat 8 (s.targetRead (l.pa va) 1), s.poisonAt (l.pa va))

/-- The byte nearest to a core that its L1 or its cluster's L2 holds. -/
def State.cachedByte (s : State) (core : Nat) (space : BitVec 16) (va : Nat) : Option (Byte × Bool) :=
  match Cache.byteOf (s.core core).l1 space va with
  | some b => some b
  | none => Cache.byteOf (s.cluster (clusterOf core)).l2 space va

/-- The byte nearest to a core, without allocating: L1, L2, home slice (03 R50, 06 R129). -/
def State.nearByte (s : State) (core : Nat) (l : Leaf) (va : Nat) : Byte × Bool :=
  match Cache.byteOf (s.core core).l1 l.space va with
  | some b => b
  | none => s.l2Byte core l va

/-- Reads n bytes that are not in the buffer, by class and by bypass. A bypassing read whose bytes are all in the L1 or the
L2 is served from there; another allocates nothing (03 R50). -/
def readBelow (a : Acc) (e : FilterEntry) (cell n : Nat) (bypass : Bool) (s : State) : Res (Nat × Bool) :=
  let a' := { a with va := cell }
  if e.attr.mc ≠ .normal then
    (reach a' .read (s.ackTarget a.core)).bind fun l s =>
      .ok (s.targetRead (l.pa cell) n, (upto n).any fun k => s.poisonAt (l.pa cell + k)) s
  else if bypass then
    let s := (s.ackBypass a.core).drainL1 a.core
    let hit := (upto n).filterMap fun k => s.cachedByte a.core a.space (cell + k)
    if hit.length = n then .ok (ofBytes (hit.map (·.1)), hit.any (·.2)) s
    else
      (reach a' .read (s.drainL2 (clusterOf a.core))).bind fun l s =>
        let b := (upto n).map fun k => s.nearByte a.core l (cell + k)
        .ok (ofBytes (b.map (·.1)), b.any (·.2)) (s.readHome l cell a.col)
  else readL1 a' e.attr.tclass n s

/-- Lays the bytes that the hart's own entries supply over a number (05 R100). -/
def Core.overlay (c : Core) (slot : Nat) (space : BitVec 16) (va n : Nat) (x : Nat) : Nat :=
  (upto n).foldl (fun x k =>
    match c.forward slot space (va + k) with
    | some b => putElt x 8 k b.1.toNat
    | none => x) x

/-- Whether any of n bytes comes from a poisoned word of the hart's own entries. -/
def Core.overlayPoison (c : Core) (slot : Nat) (space : BitVec 16) (va n : Nat) : Bool :=
  (upto n).any fun k =>
    match c.forward slot space (va + k) with
    | some b => b.2
    | none => false

/-- Reads n bytes of one slot for a hart (06 R118, R129), before poison is looked at. -/
def readRaw (a : Acc) (e : FilterEntry) (cell n : Nat) (bypass : Bool) (s : State) : Res (Nat × Bool) :=
  let c := s.core a.core
  if c.forwardsAll a.slot a.space cell n then
    .ok (c.overlay a.slot a.space cell n 0, c.overlayPoison a.slot a.space cell n) s
  else
    (readBelow a e cell n bypass s).bind fun d s =>
      .ok (c.overlay a.slot a.space cell n d.1, d.2 || c.overlayPoison a.slot a.space cell n) s

/-- Reads n bytes of one slot; a poisoned word traps (05 R115). -/
def readCell (a : Acc) (e : FilterEntry) (cell n : Nat) (bypass : Bool) (s : State) : Res Nat :=
  (readRaw a e cell n bypass s).bind fun d s =>
    if d.2 then .stop (.trap (a.fault 0x0F)) s else .ok d.1 s

/-! ## Probes (04 R89) -/

/-- Whether a probe of a store would be acknowledged, its leaf, or the refusal. -/
inductive ProbeRes where
  | ack (l : Leaf)
  | refuse (wres level : Nat)
  | conflict
  /-- A range hold overlaps the page, and the probe waits (04 R94 step 1, R95). -/
  | held
  deriving DecidableEq, Repr

/-- The translator's answer to a probe: a fresh walk of kind probe, then the name (04 R89, R91). -/
def State.probe (s : State) (core : Nat) (space : BitVec 16) (va : Nat) (user : Bool) : ProbeRes × State :=
  match s.translate (dieOf core) space va (.probe user) true with
  | (.leaf l, s') =>
    if s.heldPage l then (.held, s)
    else
      match s'.name l with
      | some s => (.ack l, s)
      | none => (.conflict, s')
  | (.pending l lvl, s') => if s.heldPage l then (.held, s) else (.refuse 0x2 lvl, s')
  | (.fail w lvl, s) => (.refuse w lvl, s)

/-- Clears pd in the page's entry, or refills it, and confirms the page when no entry of it is buffered (04 R89). -/
def State.acknowledge (s : State) (core : Nat) (l : Leaf) : State :=
  let busy := (s.core core).bufferedPage l.space l.vbase (2 ^ l.lg)
  s.fillFilter core { space := l.space, vbase := l.vbase, lg := l.lg, attr := l.attr, cf := !busy && l.attr.w,
                      pd := false }

/-- An access that needs its page confirmed before it is performed: an atomic, or a store to a page that is not of
the normal class (05 R98, 14 R262). It probes and waits; a refusal traps precisely. -/
def confirm (a : Acc) (e : FilterEntry) (s : State) : Res Unit :=
  if e.cf then .ok () s
  else if s.held a.space a.va then .stop .wait s
  else
    match s.probe a.core a.space a.va a.user with
    | (.ack l, s) => .ok () (s.acknowledge a.core l)
    | (.refuse w lvl, s) => absentFault a w lvl s
    | (.conflict, s) => nameFault a s
    | (.held, s) => .stop .wait s

/-! ## Writing (05 R98, R99) -/

/-- The limit of a hart's entries at the core's partition (05 R97). -/
def Core.sbLimit (c : Core) : Nat := 128 / c.part

/-- Entries of a slot. -/
def Core.sbOf (c : Core) (slot : Nat) : List SbEntry := c.sb.filter fun e => e.slot = slot

/-- The address of a cell in the view of an access: a column access names column lines (02 R33), and `colCell` changes
the view in both directions (02 R34). -/
def lineAddr (col : Bool) (t : TClass) (cell : Nat) : Nat := if col then colCell t cell else cell

/-- Puts n bytes of one slot into the buffer: the entry of this store and of the line that the access's orientation
names, or a new one (05 R97). None when the hart holds its limit. Its element range runs to `last`, the highest element in
the bytes (05 R107). -/
def Core.buffer (c : Core) (a : Acc) (seq nth : Nat) (pc : Word) (cell n x last : Nat) (p : FilterEntry) (ord : Bool) :
    Option Core :=
  let view := lineAddr a.col p.attr.tclass cell
  let line := view / 128 * 128
  let o := view % 128
  let mine := fun e : SbEntry => e.slot = a.slot && e.seq = seq && e.space = a.space && e.va = line
  match c.sb.find? mine with
  | some e =>
    let e' := { e with
      mask := e.mask ||| BitVec.ofNat 128 (runMask o n)
      data := BitVec.ofNat 1024 (put e.data.toNat (8 * o) (8 * n) x)
      efirst := min e.efirst a.elem
      elast := max e.elast last
      off := if a.elem < e.efirst then a.off else e.off
      eva := if a.elem < e.efirst then a.rva else e.eva }
    some { c with sb := c.sb.map fun q => if q.idx = e.idx then e' else q }
  | none =>
    if c.sbLimit ≤ (c.sbOf a.slot).length then none
    else
      match lowestFree (c.sb.map (·.idx)) 128 0 with
      | none => none
      | some i =>
        some { c with sb := c.sb ++ [{
          idx := i, slot := a.slot, seq := seq, pc := pc, space := a.space, va := line,
          mask := BitVec.ofNat 128 (runMask o n), data := BitVec.ofNat 1024 ((x % 2 ^ (8 * n)) <<< (8 * o)), poison := 0,
          hostq := 0xFFFF, efirst := a.elem, elast := last, ew := a.ew, gseg := a.gseg, orient := a.col,
          state := .pending, inner := 0, wres := 0, level := 7, ord := ord, nth := nth, user := a.user,
          tclass := p.attr.tclass, pbase := p.vbase, plg := p.lg, off := a.off, eva := a.rva }] }

/-- Writes n bytes of one slot to a confirmed page of the normal class: the L1, or past it when the store bypasses
(03 R45, R50). When a bypassing write is performed, the spec leaves open towards younger stores: the model has those of
the core acknowledged before any other write of the core is performed (log entry 84). -/
def writeConfirmed (a : Acc) (e : FilterEntry) (cell n x nth : Nat) (bypass : Bool) (s : State) : Res Unit :=
  let t := e.attr.tclass
  let blk := s.blkAt a.core a.slot
  if bypass then
    let s := s.drainL1 a.core
    match Cache.find (s.core a.core).l1 a.space cell with
    | some _ => .ok () ((s.ackBypass a.core).writeL1Run a.core a.space cell t n x false blk)
    | none =>
      match Cache.find (s.cluster (clusterOf a.core)).l2 a.space cell with
      | some _ => .ok () ((s.ackBypass a.core).writeL2Run a.core a.space cell t n x false blk)
      | none =>
        (reachNamed { a with va := cell } .write (s.drainL2 (clusterOf a.core))).bind fun l s =>
          let c := s.core a.core
          let w : SentWrite := { slot := a.slot, blk := blk, nth := nth, space := a.space, va := cell, pa := l.pa cell,
                                 bytes := toBytes n x, poison := false, home := some l.homeShape }
          .ok () ((s.setCore a.core { c with bypass := c.bypass ++ [w] }).dropMeta a.core a.space cell)
  else .ok () ((s.ackBypass a.core).writeL1Run a.core a.space cell t n x false blk)

/-- Writes n bytes at the target of a page that is not of the normal class: one at a time, in program order (03 R52,
06 R122). R122 orders one hart's own accesses; between harts of one core the spec gives no order, and the model has every
earlier write of the core acknowledged first (log entry 121). -/
def writeTarget (a : Acc) (e : FilterEntry) (cell n x nth : Nat) (s : State) : Res Unit :=
  (confirm a e s).bind fun _ s =>
    (reach { a with va := cell } .write (s.ackTarget a.core)).bind fun l s =>
      if inCtl (l.pa cell) then .ok () (s.targetWrite (l.pa cell) n x)
      else
        let c := s.core a.core
        .ok () (s.setCore a.core { c with
          target := [{ slot := a.slot, blk := s.blkAt a.core a.slot, nth := nth, space := a.space, va := cell,
                       pa := l.pa cell, bytes := toBytes n x, poison := false, home := none }] })

/-- Whether a store to a page goes to the buffer (05 R98). -/
def buffers (e : FilterEntry) : Bool := !e.cf && e.attr.mc = .normal

/-- Performs one store of n bytes of one slot by the hart: buffered, confirmed or at its target. `forced` sends it to
the buffer although its page is confirmed (an ordered form, 05 R98): the page is then confirmed again only when no entry
of it is left (R99). `last` is the highest element in the bytes. An element of an ordered form comes after every lower one
(06 R121): what the core has sent is performed first, and an element that does not enter the buffer waits for those that
did. -/
def writeCell (a : Acc) (e : FilterEntry) (cell n x last : Nat) (bypass ord forced : Bool) (h : Hart) (s : State) :
    Res Unit :=
  let s := if ord then (s.ackBypass a.core).ackTarget a.core else s
  if e.attr.mc ≠ .normal then
    if ord && (s.core a.core).sb.any (fun q => q.slot = a.slot && q.seq = h.seq) then .stop .wait s
    else writeTarget a e cell n x h.nst s
  else if buffers e || forced then
    match (s.core a.core).buffer a h.seq h.nst h.pc cell n x last e ord with
    | some c => .ok () ((s.setCore a.core c).unconfirm a.core a.space cell)
    | none => .stop .wait s
  else writeConfirmed a e cell n x h.nst bypass s

/-! ## Atomics (03 R55, 14 R262) -/

/-- Whether n bytes overlap an entry of the hart (05 R100). -/
def Core.overlapsOwn (c : Core) (slot : Nat) (space : BitVec 16) (va n : Nat) : Bool :=
  (upto n).any fun k => (newestFor c.sb slot space (va + k)).isSome

/-- Reads and updates n bytes indivisibly at the level of a scope, on a page that is confirmed. `f` gives the new value,
or none for no write; `walk` is the kind of walk that a device-scope access makes. -/
def performAtomic (walk : WalkKind) (a : Acc) (e : FilterEntry) (cell n : Nat) (sc : AScope) (f : Nat → Option Nat)
    (s : State) : Res Nat :=
  let k := clusterOf a.core
  let t := e.attr.tclass
  let a' := { a with va := cell }
  let normal := e.attr.mc = .normal
  let blk := s.blkAt a.core a.slot
  let s := s.ackBypass a.core
  let poisoned : State → Res Nat := fun s => .stop (.trap (a.fault 0x0F)) s
  let atHome := fun (s : State) =>
    (reachNamed a' walk s).bind fun l s =>
      let pa := l.pa cell
      if (upto n).any (fun i => s.poisonAt (pa + i)) then poisoned s
      else
        let m := s.targetRead pa n
        let s := if normal then s.readHome l cell a.col else s
        match f m with
        | none => .ok m s
        | some x =>
          let s := (s.targetWrite pa n x).dropMeta a.core a.space cell
          .ok m (if normal then s.touchHomeOf l.homeShape pa (runMask (pa % 128) n) else s)
  if !normal then atHome (s.ackTarget a.core)
  else
    match sc with
    | .c =>
      ((needLine a' t s).bind fun _ s => readL1 a' t n s).bind fun d s =>
        if d.2 then poisoned s
        else
          match f d.1 with
          | none => .ok d.1 s
          | some x => .ok d.1 (s.writeL1Run a.core a.space cell t n x false blk)
    | .k =>
      (needL2 a' t [(cell, n)] (s.prepL1 a.core a.space cell)).bind fun _ s =>
        match Cache.find (s.cluster k).l2 a.space cell with
        | none => .ok 0 s
        | some g =>
          let d := g.run cell n
          if d.2 then poisoned s
          else
            match f d.1 with
            | none => .ok d.1 s
            | some x => .ok d.1 (s.writeL2Run a.core a.space cell t n x false blk)
    | .d => atHome ((s.prepL1 a.core a.space cell).prepL2 k a.space cell)
    | .s => atHome ((s.prepL1 a.core a.space cell).prepL2 k a.space cell)

/-- An atomic by a hart: it waits while it overlaps an entry of the hart's, and for its page to be confirmed. -/
def atomicCell (a : Acc) (e : FilterEntry) (cell n : Nat) (sc : AScope) (f : Nat → Option Nat) (s : State) :
    Res Nat :=
  if (s.core a.core).overlapsOwn a.slot a.space cell n then .stop .wait s
  else (confirm a e s).bind fun _ s => performAtomic .atomic a e cell n sc f s

/-! ## Releases that wait for the buffer (03 R53 step 3, 05 R101) -/

/-- Whether a hart holds any buffered entry. -/
def Core.bufferHolds (c : Core) (slot : Nat) : Bool := c.sb.any fun e => e.slot = slot

/-- A release at a scope by the current hart: it waits while the hart holds an entry, then takes its steps. -/
def release (sc : Scope) (h : Hart) (s : State) : Res Unit :=
  if (s.core s.myCore).bufferHolds s.mySlot then .stop .wait s
  else .ok () (s.releaseSteps s.myCore h.spaceTag sc)

/-- What an acquire does once no entry holds it: the core's accesses in flight are performed, then its steps. -/
def State.fenceAcquire (s : State) (core : Nat) (space : BitVec 16) (sc : Scope) : State :=
  ((s.ackBypass core).ackTarget core).acquireSteps core space sc

/-- An acquire at a scope by the current hart: every older access is performed first (06 R125), so it waits while the
hart holds an entry (log entry 96). -/
def acquire (sc : Scope) (h : Hart) (s : State) : Res Unit :=
  if (s.core s.myCore).bufferHolds s.mySlot then .stop .wait s
  else .ok () (s.fenceAcquire s.myCore h.spaceTag sc)

/-! ## The deferred store trap (05 R102, R103) -/

/-- The record of a deferred store trap (05 R103), over the entries that become reported. -/
def deferredRecord (rep : List SbEntry) : FRec :=
  match rep.foldl (fun (best : Option SbEntry) e =>
      match best with
      | some b => if e.seq < b.seq || (e.seq = b.seq && e.efirst < b.efirst) then some e else some b
      | none => some e) none with
  | none => { cause := 0x0C }
  | some e =>
    { cause := 0x0C, inner := e.inner, va := e.eva, off := e.off, elem := e.efirst,
      elast := (rep.filter fun q => q.seq = e.seq).foldl (fun m q => max m q.elast) 0, ew := e.ew, gseg := e.gseg,
      space := e.space, orient := e.orient, level := e.level, wres := e.wres, hostq := e.hostq,
      nmore := rep.length - 1, kind := 5, deferred := true, rep := e.inner = 0x0B }

/-- Takes the deferred store trap of the current hart (05 R102, R103): its faulted entries become reported, and its
instruction that is not retired is unwound (10 R180), but for a store paused under R97, which keeps what it has placed. The
record names the store instruction, so its pc and sequence number stand in the record in place of the hart's. -/
def takeDeferred (s : State) : State :=
  let c := s.core s.myCore
  let rep := c.sb.map fun e => if e.slot = s.mySlot && e.state = .faulted then { e with state := .reported } else e
  let mine := rep.filter fun e => e.slot = s.mySlot && e.state = .reported
  let t := deferredRecord mine
  let oldest := mine.foldl (fun (best : Option SbEntry) e =>
      match best with
      | some b => if e.seq < b.seq then some e else some b
      | none => some e) none
  let s := s.setCore s.myCore { c with sb := rep }
  let s := match s.me with
    | some h => s.setMe h.unwind
    | none => s
  match oldest with
  | some e => takeTrapAs t e.seq e.pc s
  | none => s

/-- Whether the current hart has a faulted entry, so that a deferred store trap is due (05 R102). -/
def State.deferredDue (s : State) : Bool :=
  (s.core s.myCore).sb.any fun e => e.slot = s.mySlot && e.state = .faulted

end Sys2Proof.Machine
end

