-- ==== Sys2Proof/Machine/Num.lean ====
section
/-! DEFINITION. Element formats and their values (spec 11 R201 to R210): tags, exact dyadic numbers, decoding of every
format, and exact arithmetic on the values. -/

namespace Sys2Proof.Machine

/-! ## Formats (11 R201) -/

/-- The element formats, in the order of their codes. -/
inductive Fmt where
  | i8
  | i16
  | i32
  | i64
  | n8
  | n16
  | n32
  | n64
  | f16
  | bf16
  | f32
  | f64
  | e4m3
  | e5m2
  | e3m2
  | e2m3
  | e2m1
  | mi8
  | ts8
  | m1
  deriving DecidableEq, Repr

/-- The format of an unscaled code 0x00 to 0x13. -/
def Fmt.ofCode (c : Nat) : Option Fmt :=
  [Fmt.i8, .i16, .i32, .i64, .n8, .n16, .n32, .n64, .f16, .bf16, .f32, .f64, .e4m3, .e5m2, .e3m2, .e2m3, .e2m1, .mi8,
   .ts8, .m1][c]?

/-- Width in bits. -/
def Fmt.width : Fmt → Nat
  | .i8 => 8
  | .i16 => 16
  | .i32 => 32
  | .i64 => 64
  | .n8 => 8
  | .n16 => 16
  | .n32 => 32
  | .n64 => 64
  | .f16 => 16
  | .bf16 => 16
  | .f32 => 32
  | .f64 => 64
  | .e4m3 => 8
  | .e5m2 => 8
  | .e3m2 => 6
  | .e2m3 => 6
  | .e2m1 => 4
  | .mi8 => 8
  | .ts8 => 8
  | .m1 => 1

def Fmt.isSigned : Fmt → Bool
  | .i8 => true
  | .i16 => true
  | .i32 => true
  | .i64 => true
  | _ => false

def Fmt.isNatural : Fmt → Bool
  | .n8 => true
  | .n16 => true
  | .n32 => true
  | .n64 => true
  | _ => false

/-- Integer class. -/
def Fmt.isInt (f : Fmt) : Bool := f.isSigned || f.isNatural

/-- IEEE class. -/
def Fmt.isIeee : Fmt → Bool
  | .f16 => true
  | .bf16 => true
  | .f32 => true
  | .f64 => true
  | _ => false

/-- Formats with an exponent and a fraction: exponent bits, fraction bits, bias (11 R205, R207). -/
def Fmt.float : Fmt → Option (Nat × Nat × Nat)
  | .f16 => some (5, 10, 15)
  | .bf16 => some (8, 7, 127)
  | .f32 => some (8, 23, 127)
  | .f64 => some (11, 52, 1023)
  | .e4m3 => some (4, 3, 7)
  | .e5m2 => some (5, 2, 15)
  | .e3m2 => some (3, 2, 3)
  | .e2m3 => some (2, 3, 1)
  | .e2m1 => some (2, 1, 1)
  | _ => none

/-- Formats that hold an infinity. -/
def Fmt.hasInf (f : Fmt) : Bool := f.isIeee || f = .e5m2

/-- MX element and twin-shift formats: those a block-scaled tag can name (11 R202). -/
def Fmt.isMx : Fmt → Bool
  | .e4m3 => true
  | .e5m2 => true
  | .e3m2 => true
  | .e2m3 => true
  | .e2m1 => true
  | .mi8 => true
  | .ts8 => true
  | _ => false

/-- Canonical quiet NaN of a format that has one (11 R205); e5m2 takes the code of the same shape (11 R216). -/
def Fmt.qnan : Fmt → Nat
  | .f16 => 0x7E00
  | .bf16 => 0x7FC0
  | .f32 => 0x7FC00000
  | .f64 => 0x7FF8000000000000
  | .e5m2 => 0x7E
  | .e4m3 => 0x7F
  | _ => 0

/-! ## Tags (11 R201, R202) -/

/-- A tag: its format and, when block-scaled, the scale register and the half. -/
structure Tag where
  fmt : Fmt
  scale : Option (Nat × Nat)
  deriving DecidableEq, Repr

/-- The tag of a code; codes 0x14 to 0x1F are not defined. -/
def Tag.ofCode (c : Nat) : Option Tag :=
  if c < 0x20 then (Fmt.ofCode c).map fun f => { fmt := f, scale := none }
  else if c < 0x100 then
    ([Fmt.e4m3, .e5m2, .e3m2, .e2m3, .e2m1, .mi8, .ts8][(c - 0x20) / 32]?).map fun f =>
      { fmt := f, scale := some ((c - 0x20) % 32 / 2, (c - 0x20) % 2) }
  else none

def Tag.width (t : Tag) : Nat := t.fmt.width

/-- Elements that a register of V bits holds (11 R203). -/
def Tag.capacity (t : Tag) (v : Nat) : Nat :=
  match t.scale with
  | none => v / t.width
  | some _ => min (v / t.width) 4096

/-- Whether a tag is an unscaled integer tag. -/
def Tag.isInt (t : Tag) : Bool := t.fmt.isInt

/-! ## Exact values -/

/-- A dyadic number: sign, magnitude and exponent of two. A zero keeps its sign. -/
structure Dy where
  neg : Bool
  mag : Nat
  exp : Int
  deriving DecidableEq, Repr

/-- A value of some format: finite, infinite, or a NaN with its sign, its fraction aligned to 52 bits, and whether it
signals (11 R205, R216). -/
inductive Val where
  | fin (d : Dy)
  | inf (neg : Bool)
  | nan (neg : Bool) (frac : Nat) (signals : Bool)
  deriving DecidableEq, Repr

def Val.isNan : Val → Bool
  | .nan _ _ _ => true
  | _ => false

def Val.isInf : Val → Bool
  | .inf _ => true
  | _ => false

def Val.signals : Val → Bool
  | .nan _ _ s => s
  | _ => false

def Val.neg : Val → Bool
  | .fin d => d.neg
  | .inf n => n
  | .nan n _ _ => n

/-- Whether a value is a zero of either sign. -/
def Val.isZero : Val → Bool
  | .fin d => d.mag = 0
  | _ => false

/-- The quiet NaN that a scale of 0xFF widens to (11 R208). -/
def Val.quiet : Val := .nan false (2 ^ 51) false

/-- The integer of a dyadic number with exponent e or less taken out: mag · 2^(exp − e), exact when e ≤ exp. -/
def Dy.at (d : Dy) (e : Int) : Int :=
  let m : Int := (d.mag : Int) * (2 : Int) ^ (d.exp - e).toNat
  if d.neg then -m else m

/-- The dyadic number of an integer at an exponent. -/
def Dy.ofInt (i : Int) (e : Int) : Dy := { neg := i < 0, mag := i.natAbs, exp := e }

/-- Exact product. -/
def Dy.mul (a b : Dy) : Dy := { neg := a.neg != b.neg, mag := a.mag * b.mag, exp := a.exp + b.exp }

/-- Exact sum; the sign of an exact zero is `z` unless both operands are negative zeros or negative. -/
def Dy.add (z : Bool) (a b : Dy) : Dy :=
  if a.mag = 0 && b.mag = 0 then { neg := if a.neg = b.neg then a.neg else z, mag := 0, exp := 0 }
  else
    let e := min a.exp b.exp
    let i := a.at e + b.at e
    if i = 0 then { neg := z, mag := 0, exp := 0 } else Dy.ofInt i e

/-- Negation. -/
def Dy.flip (d : Dy) : Dy := { d with neg := !d.neg }

/-- Scaling by a power of two. -/
def Dy.shift (d : Dy) (k : Int) : Dy := { d with exp := d.exp + k }

/-- Comparison of the values: less. -/
def Dy.lt (a b : Dy) : Bool :=
  let e := min a.exp b.exp
  decide (a.at e < b.at e)

/-- Comparison of the values: equal, zeros of either sign alike. -/
def Dy.eq (a b : Dy) : Bool :=
  let e := min a.exp b.exp
  decide (a.at e = b.at e)

/-- The quotient of magnitudes with 140 bits and more, and a last bit that says whether something is left over. -/
def Dy.div (a b : Dy) : Dy :=
  let k := 140 + Nat.log2 b.mag
  let n := a.mag * 2 ^ k
  let q := n / b.mag
  let r := n % b.mag
  { neg := a.neg != b.neg, mag := 2 * q + (if r = 0 then 0 else 1), exp := a.exp - b.exp - (k : Int) - 1 }

/-- The largest number whose square is at most n, bit by bit from bit k down. -/
def isqrtBits (n : Nat) : Nat → Nat → Nat
  | 0, r => r
  | k + 1, r => if (r + 2 ^ k) * (r + 2 ^ k) ≤ n then isqrtBits n k (r + 2 ^ k) else isqrtBits n k r

/-- The square root of a nonnegative number with 140 bits and more, and a last bit for what is left over. -/
def Dy.sqrt (a : Dy) : Dy :=
  let odd : Nat := (a.exp % 2).toNat
  let m := a.mag * 2 ^ odd * 2 ^ 280
  let e := (a.exp - odd) / 2 - 140
  let r := isqrtBits m (Nat.log2 m / 2 + 2) 0
  { neg := a.neg, mag := 2 * r + (if r * r = m then 0 else 1), exp := e - 1 }

/-! ## Decoding (11 R204 to R209) -/

/-- Value of a code of a format with exponent and fraction. -/
def decodeFloat (f : Fmt) (eb mb bias code : Nat) : Val :=
  let s := bit code (eb + mb)
  let e := code / 2 ^ mb % 2 ^ eb
  let m := code % 2 ^ mb
  let top := e = 2 ^ eb - 1
  if f.hasInf && top then
    if m = 0 then .inf s else .nan s (m * 2 ^ (52 - mb)) (f.isIeee && m < 2 ^ (mb - 1))
  else if f = .e4m3 && top && m = 7 then .nan s (m * 2 ^ (52 - mb)) false
  else if e = 0 then .fin { neg := s, mag := m, exp := 1 - (bias : Int) - mb }
  else .fin { neg := s, mag := 2 ^ mb + m, exp := (e : Int) - bias - mb }

/-- A term of a twin-shift code in units of 2^−6 (11 R209). -/
def ts8Term (n : Nat) : Int :=
  let sh := n % 8
  let m : Int := if sh = 7 then 0 else (2 ^ (6 - sh) : Nat)
  if n / 8 % 2 = 1 then -m else m

/-- Value of a twin-shift code (11 R209). -/
def decodeTs8 (code : Nat) : Dy :=
  let a := code / 16 % 16
  let b := code % 16
  let v := ts8Term a + ts8Term b
  if a % 8 = 7 && b % 8 = 7 then { neg := a / 8 = 1 && b / 8 = 1, mag := 0, exp := 0 }
  else if v = 0 then { neg := false, mag := 0, exp := 0 }
  else Dy.ofInt v (-6)

/-- Value of a code of a format. -/
def Fmt.value (f : Fmt) (code : Nat) : Val :=
  match f.float with
  | some p => decodeFloat f p.1 p.2.1 p.2.2 code
  | none =>
    if f = .ts8 then .fin (decodeTs8 code)
    else if f = .mi8 then .fin (Dy.ofInt (sgn 8 code) (-6))
    else if f.isSigned then .fin (Dy.ofInt (sgn f.width code) 0)
    else .fin { neg := false, mag := code % 2 ^ f.width, exp := 0 }

/-- Value of an element under a scale byte (11 R208). -/
def scaled (s : Nat) (v : Val) : Val :=
  if s = 0xFF then Val.quiet
  else
    match v with
    | .fin d => .fin (d.shift ((s : Int) - 127))
    | v => v

/-- The integer that an integer code stands for (11 R204). -/
def Fmt.int (f : Fmt) (code : Nat) : Int :=
  if f.isSigned then sgn f.width code else ((code % 2 ^ f.width : Nat) : Int)

end Sys2Proof.Machine
end

