-- ==== Sys2Proof/Machine/Flags.lean ====
section
/-! DEFINITION. Rounding, conversion and the five flags (spec 11 R206, R211 to R219): every flag computation of the
floating, MX and integer destinations. -/

namespace Sys2Proof.Machine

/-! ## Flags (11 R206; 12 R229) -/

def fNX : Nat := 1
def fUF : Nat := 2
def fOF : Nat := 4
def fDZ : Nat := 8
def fNV : Nat := 16

/-- Rounding modes (11 R211). -/
inductive RMode where
  | rne
  | rtz
  | rdn
  | rup
  | rto
  | sr
  deriving DecidableEq, Repr

/-- A mode with the dither of its element (11 R213, R214). -/
structure Rnd where
  mode : RMode
  dither : Nat
  deriving DecidableEq, Repr

def Rnd.rne : Rnd := { mode := .rne, dither := 0 }
def Rnd.rto : Rnd := { mode := .rto, dither := 0 }

/-! ## The dither (11 R214) -/

/-- Reverses n bits. -/
def bitReverse : Nat → Nat → Nat
  | 0, _ => 0
  | n + 1, x => (x % 2) * 2 ^ n + bitReverse n (x / 2)

/-- D(i). -/
def ditherEntry (i : Nat) : Nat := bitReverse 12 (i % 4096) * 16 + i % 16

/-- Dither(e) under a seed. -/
def dither (e seed : Nat) : Nat := ditherEntry ((e + seed) % 4096)

/-! ## Choosing between two neighbours (11 R213) -/

/-- Whether the farther neighbour `hi` is taken: `up` is the fraction (|x| − |lo|) / (|hi| − |lo|) as a numerator over
`den`; `loOdd` says whether lo has the odd last bit; ts8 ties go to the smaller magnitude. -/
def takeHi (r : Rnd) (neg : Bool) (num den : Nat) (loOdd ts : Bool) : Bool :=
  match r.mode with
  | .rtz => false
  | .rdn => neg
  | .rup => !neg
  | .rne => if 2 * num = den then (if ts then false else loOdd) else decide (den < 2 * num)
  | .rto => !loOdd
  | .sr => decide (65536 ≤ 65536 * num / den + r.dither)

/-- The grid of a format near a magnitude: exponent of the unit. -/
structure Grid where
  q : Int
  deriving DecidableEq, Repr

/-- floor(log2) of a positive dyadic magnitude. -/
def Dy.top (d : Dy) : Int := (Nat.log2 d.mag : Int) + d.exp

/-- A magnitude as whole units of 2^q, and what is left over as a fraction num/den. -/
def Dy.units (d : Dy) (q : Int) : Nat × Nat × Nat :=
  if q ≤ d.exp then (d.mag * 2 ^ (d.exp - q).toNat, 0, 1)
  else
    let den := 2 ^ (q - d.exp).toNat
    (d.mag / den, d.mag % den, den)

/-- Whole units after rounding at unit 2^q, and whether the value was exact. -/
def roundUnits (r : Rnd) (d : Dy) (q : Int) : Nat × Bool :=
  let u := d.units q
  if u.2.1 = 0 then (u.1, true)
  else (if takeHi r d.neg u.2.1 u.2.2 (u.1 % 2 = 1) false then u.1 + 1 else u.1, false)

/-- Whether a mode takes an overflow to infinity (11 R213). -/
def toInfinity (m : RMode) (neg : Bool) : Bool :=
  match m with
  | .rne => true
  | .sr => true
  | .rup => !neg
  | .rdn => neg
  | _ => false

/-! ## Rounding to a format with exponent and fraction -/

/-- The code of n units of 2^q, n at most 2^(mb+1), in a format. -/
def packFloat (eb mb bias : Nat) (neg : Bool) (n : Nat) (q : Int) : Nat :=
  let s := neg.toNat * 2 ^ (eb + mb)
  if n < 2 ^ mb then s + n
  else if n = 2 ^ (mb + 1) then s + (q + mb + bias + 1).toNat * 2 ^ mb
  else s + (q + mb + bias).toNat * 2 ^ mb + (n - 2 ^ mb)

/-- The largest finite code of a format, without its sign (11 R205, R207). -/
def maxFinite (f : Fmt) (eb mb : Nat) : Nat :=
  if f.hasInf then (2 ^ eb - 1) * 2 ^ mb - 1
  else if f = .e4m3 then 0x7E
  else 2 ^ (eb + mb) - 1

/-- Round to a floating format (11 R213): the code and the flags. The value is finite and not zero. -/
def roundFloat (f : Fmt) (eb mb bias : Nat) (r : Rnd) (d : Dy) : Nat × Nat :=
  let qmin : Int := 1 - (bias : Int) - mb
  let q := max (d.top - mb) qmin
  let u := roundUnits r d q
  let code := packFloat eb mb bias d.neg u.1 q
  let sbit := d.neg.toNat * 2 ^ (eb + mb)
  let big := maxFinite f eb mb
  if big < code - sbit then
    -- past the extreme: overflow with unbounded exponent
    let res := if f.hasInf && toInfinity r.mode d.neg then sbit + (2 ^ eb - 1) * 2 ^ mb else sbit + big
    (res, fOF + fNX)
  else if u.2 then (code, 0)
  else
    -- tininess after rounding to the precision with unbounded exponent; on the exact value in sr
    let tiny :=
      if r.mode = .sr then decide (d.top < qmin + mb)
      else
        let w := roundUnits r d (d.top - mb)
        decide (d.top < qmin + mb) && !(decide (w.1 = 2 ^ (mb + 1)) && decide (d.top + 1 = qmin + mb))
    (code, fNX + (if tiny then fUF else 0))

/-! ## Rounding to integers and mi8 -/

/-- Beyond(F, s) in units (11 R212). -/
def beyondUnits (f : Fmt) (neg : Bool) : Nat :=
  if f.isNatural then (if neg then 1 else 2 ^ f.width)
  else if neg then 2 ^ (f.width - 1) + 1
  else 2 ^ (f.width - 1)

/-- Round to an integer format or mi8: units of 1 or of 2^−6 (11 R213). -/
def roundFixed (f : Fmt) (r : Rnd) (d : Dy) : Nat × Nat :=
  let q : Int := if f = .mi8 then -6 else 0
  let u := roundUnits r d q
  let lim := beyondUnits f d.neg
  let n := if lim ≤ u.1 then lim - 1 else u.1
  let i : Int := if d.neg then -(n : Int) else n
  let code := wrap f.width i
  if lim ≤ u.1 then (code, fOF + fNX + (if f.isInt then fNV else 0))
  else if u.2 then (code, 0)
  else (code, fNX + (if u.1 = 0 then fUF else 0))

/-! ## Rounding to ts8 (11 R209, R210) -/

/-- The magnitudes of ts8 in units of 2^−6, rising, with their canonical codes for the positive sign. -/
def ts8Grid : List (Nat × Nat) :=
  let single := fun c : Nat => (2 ^ (6 - c), c * 16 + 7)
  -- two-term codes: larger term in field one; equal signs first, then opposite signs
  let equal := (upto 7).flatMap fun a => (upto 7).filterMap fun b =>
    if a ≤ b then some (2 ^ (6 - a) + 2 ^ (6 - b), a * 16 + b) else none
  let oppo := (upto 7).flatMap fun a => (upto 7).filterMap fun b =>
    if a < b then some (2 ^ (6 - a) - 2 ^ (6 - b), a * 16 + 8 + b) else none
  (upto 129).filterMap fun m =>
    if m = 0 then some (0, 0x77)
    else
      match ((upto 7).map single).find? (fun p => p.1 = m) with
      | some p => some p
      | none =>
        match equal.find? (fun p => p.1 = m) with
        | some p => some p
        | none => oppo.find? (fun p => p.1 = m)

/-- The code of a grid magnitude with a sign: both sign bits flip; a zero has the codes 0x77 and 0xFF. -/
def ts8Code (neg : Bool) (p : Nat × Nat) : Nat := if neg then p.2 ^^^ 0x88 else p.2

/-- Round to ts8 (11 R213). -/
def roundTs8 (r : Rnd) (d : Dy) : Nat × Nat :=
  let u := d.units (-6)
  let g := ts8Grid
  let lo := (g.filter fun p => p.1 ≤ u.1).getLast?.getD (0, 0x77)
  if lo.1 = u.1 && u.2.1 = 0 then (ts8Code d.neg lo, 0)
  else
    match g.find? fun p => u.1 < p.1 with
    | none => (ts8Code d.neg lo, fOF + fNX)
    | some hi =>
      let den := (hi.1 - lo.1) * u.2.2
      let num := (u.1 - lo.1) * u.2.2 + u.2.1
      let y := if takeHi r d.neg num den false true then hi else lo
      (ts8Code d.neg y, fNX + (if y.1 = 0 then fUF else 0))

/-! ## Round and Convert (11 R213, R215, R216) -/

/-- A zero of a format with a sign, where the format has one. -/
def zeroCode (f : Fmt) (neg : Bool) : Nat :=
  match f.float with
  | some p => neg.toNat * 2 ^ (p.1 + p.2.1)
  | none => if f = .ts8 then (if neg then 0xFF else 0x77) else 0

/-- Round a finite value to a format: the code and the flags. -/
def roundTo (f : Fmt) (r : Rnd) (d : Dy) : Nat × Nat :=
  if d.mag = 0 then (zeroCode f d.neg, 0)
  else
    match f.float with
    | some p => roundFloat f p.1 p.2.1 p.2.2 r d
    | none => if f = .ts8 then roundTs8 r d else roundFixed f r d

/-- The saturated code of an infinity in a format that has none (11 R215). -/
def saturated (f : Fmt) (neg : Bool) : Nat :=
  match f.float with
  | some p => neg.toNat * 2 ^ (p.1 + p.2.1) + maxFinite f p.1 p.2.1
  | none =>
    if f = .ts8 then (if neg then 0x88 else 0x00)
    else
      let n := beyondUnits f neg - 1
      wrap f.width (if neg then -(n : Int) else n)

/-- Convert (11 R215, R216): the code and the flags. -/
def convert (f : Fmt) (r : Rnd) (v : Val) : Nat × Nat :=
  match v with
  | .fin d => roundTo f r d
  | .inf neg =>
    if f.hasInf then
      match f.float with
      | some p => (neg.toNat * 2 ^ (p.1 + p.2.1) + (2 ^ p.1 - 1) * 2 ^ p.2.1, 0)
      | none => (0, 0)
    else (saturated f neg, fNV)
  | .nan neg frac sig =>
    let nv := if sig then fNV else 0
    if f.hasInf then
      match f.float with
      | some p =>
        let fr := frac / 2 ^ (52 - p.2.1)
        let fr := if fr = 0 then 2 ^ (p.2.1 - 1) else fr
        (neg.toNat * 2 ^ (p.1 + p.2.1) + (2 ^ p.1 - 1) * 2 ^ p.2.1 + fr, nv)
      | none => (0, nv)
    else if f = .e4m3 then (if neg then 0xFF else 0x7F, nv)
    else if f = .mi8 then (0, fNV)
    else if f = .ts8 then (if neg then 0xFF else 0x77, fNV)
    else if f.isInt then (0, fNV)
    else (saturated f neg, fNV)

/-- A value rounded with rto to an intermediate format, and the flags of that (11 R217). Infinities and NaNs pass. -/
def throughC (c : Fmt) (v : Val) : Val × Nat :=
  match v with
  | .fin d => let p := roundTo c Rnd.rto d; (c.value p.1, p.2)
  | v => (v, 0)

/-- Rounds a result to a destination through the computation format C (11 R217, R219): with no intermediate when the
destination is C or an integer. The flags compare the exact value with the result (R206): a rounding to C that is inexact
or tiny shows in the rounding that follows it, and only one past the extreme of C is added to that one's. -/
def deliver (c dst : Fmt) (r : Rnd) (v : Val) : Nat × Nat :=
  if dst = c || dst.isInt then convert dst r v
  else
    let m := throughC c v
    let p := convert dst r m.1
    (p.1, p.2 ||| (if m.2 &&& fOF ≠ 0 then fOF ||| fNX else 0))

/-- Saturates an integer to an integer format, without flags (11 R204). -/
def satInt (f : Fmt) (i : Int) : Nat :=
  let lo : Int := if f.isSigned then -((2 ^ (f.width - 1) : Nat) : Int) else 0
  let hi : Int := if f.isSigned then ((2 ^ (f.width - 1) : Nat) : Int) - 1 else ((2 ^ f.width : Nat) : Int) - 1
  wrap f.width (max lo (min hi i))

/-! ## Floating operations (11 R205, R206; 15 R277) -/

/-- An operation's result: a value, or the canonical quiet NaN, with flags. -/
structure FRes where
  v : Val
  flags : Nat
  deriving DecidableEq, Repr

/-- The flag of a signalling operand. -/
def sigFlag (vs : List Val) : Nat := if vs.any Val.signals then fNV else 0

/-- The quiet NaN of an invalid operation. -/
def invalid : FRes := { v := Val.quiet, flags := fNV }

/-- Product of values. -/
def mulV (a b : Val) : FRes :=
  match a, b with
  | .fin x, .fin y => { v := .fin (x.mul y), flags := 0 }
  | _, _ =>
    if a.isNan || b.isNan then { v := Val.quiet, flags := sigFlag [a, b] }
    else if a.isZero || b.isZero then invalid
    else { v := .inf (a.neg != b.neg), flags := 0 }

/-- Sum of values; `down` says that the mode is rdn, in which an exact zero sum of opposite signs is −0. -/
def addV (down : Bool) (a b : Val) : FRes :=
  match a, b with
  | .fin x, .fin y => { v := .fin (x.add down y), flags := 0 }
  | _, _ =>
    if a.isNan || b.isNan then { v := Val.quiet, flags := sigFlag [a, b] }
    else
      match a, b with
      | .inf s, .inf t => if s = t then { v := .inf s, flags := 0 } else invalid
      | .inf s, _ => { v := .inf s, flags := 0 }
      | _, .inf t => { v := .inf t, flags := 0 }
      | _, _ => invalid

/-- Negation of a value. -/
def negV : Val → Val
  | .fin d => .fin d.flip
  | .inf n => .inf (!n)
  | .nan n f s => .nan (!n) f s

/-- Product and sum of values with one rounding to come (fused). -/
def fmaV (down : Bool) (a b c : Val) : FRes :=
  if a.isNan || b.isNan || c.isNan then
    -- 0 × ∞ with a quiet NaN addend is still an invalid product (11 R206)
    let bad := (a.isZero && b.isInf) || (a.isInf && b.isZero)
    { v := Val.quiet, flags := sigFlag [a, b, c] ||| (if bad then fNV else 0) }
  else
    let p := mulV a b
    if p.v.isNan then p
    else
      let r := addV down p.v c
      { r with flags := r.flags ||| p.flags }

/-- Quotient of values. -/
def divV (a b : Val) : FRes :=
  if a.isNan || b.isNan then { v := Val.quiet, flags := sigFlag [a, b] }
  else
    match a, b with
    | .inf _, .inf _ => invalid
    | .inf s, _ => { v := .inf (s != b.neg), flags := 0 }
    | _, .inf t => { v := .fin { neg := a.neg != t, mag := 0, exp := 0 }, flags := 0 }
    | .fin x, .fin y =>
      if y.mag = 0 then
        if x.mag = 0 then invalid else { v := .inf (x.neg != y.neg), flags := fDZ }
      else if x.mag = 0 then { v := .fin { neg := x.neg != y.neg, mag := 0, exp := 0 }, flags := 0 }
      else { v := .fin (x.div y), flags := 0 }
    | _, _ => invalid

/-- Square root of a value. -/
def sqrtV (a : Val) : FRes :=
  match a with
  | .nan _ _ s => { v := Val.quiet, flags := if s then fNV else 0 }
  | .inf neg => if neg then invalid else { v := .inf false, flags := 0 }
  | .fin d =>
    if d.mag = 0 then { v := a, flags := 0 }
    else if d.neg then invalid
    else { v := .fin d.sqrt, flags := 0 }

/-- One value below another, both not NaN; −0 below +0 when asked (11 R223). -/
def ltV (zeros : Bool) (a b : Val) : Bool :=
  match a, b with
  | .inf s, .inf t => s && !t
  | .inf s, _ => s
  | _, .inf t => !t
  | .fin x, .fin y =>
    if x.mag = 0 && y.mag = 0 then zeros && x.neg && !y.neg else x.lt y
  | _, _ => false

/-- Two values equal, both not NaN; zeros of either sign are. -/
def eqV (a b : Val) : Bool :=
  match a, b with
  | .inf s, .inf t => s = t
  | .fin x, .fin y => x.eq y
  | _, _ => false

end Sys2Proof.Machine
end

