-- ==== Sys2Proof/Machine/Operands.lean ====
section
/-! DEFINITION. Operand forms of the vector instructions (spec 12 R239; 15 R271 to R273): waiting for pending
registers, the issue checks in their order, active elements, reading elements and writing results. -/

namespace Sys2Proof.Machine

/-! ## Pending registers (15 R272, 07 R147, 09 R176) -/

/-- The D group of a follow-on. -/
def Follow.group (f : Follow) : List Nat :=
  match f.instr with
  | .mma _ _ _ d _ _ => (upto 8).map (· + d.toNat)
  | .mmas _ _ _ d _ _ => (upto 8).map (· + d.toNat)
  | _ => []

/-- The D group of a follow-on that has not closed. -/
def Cmd.pendingGroup (c : Cmd) : List Nat :=
  match c.follow with
  | none => []
  | some f => if f.stage = .closed then [] else f.group

/-- Vector registers of a slot that wait for a follow-on. -/
def Core.pendingFollows (c : Core) (slot : Nat) : List Nat :=
  (c.cmds.filter fun m => m.slot = slot).flatMap Cmd.pendingGroup

/-- Word cN of a command (19 R338). -/
def Cmd.word (m : Cmd) (i : Nat) : Nat := (m.c.getD i 0).toNat

/-- Whether its c0 asks for an acquire. -/
def Cmd.acq (m : Cmd) : Bool := bit (m.word 0) 27

/-- Whether a stage of a command has begun (19 R345); a chain has begun once its first record has been read. -/
def Cmd.begun (m : Cmd) : Bool :=
  let moved := match m.stage with
    | .record => false
    | .acquire => false
    | .transfer => m.acq || m.r ≠ 0 || m.j ≠ 0
    | _ => true
  moved || (m.chain.isSome && m.c.any (· ≠ 0))

/-- Vector registers of a slot that wait for the follow-on of a command that a pending failure holds back (19 R345). -/
def Core.heldFollows (c : Core) (slot : Nat) : List Nat :=
  (c.cmds.filter fun m => m.slot = slot && !m.begun).flatMap Cmd.pendingGroup

/-- Whether two lists of register numbers meet. -/
def meets (a b : List Nat) : Bool := a.any fun n => n ∈ b

/-- The trap that delivers a pending command failure (19 R345, 05 R111). -/
def failureTrap (f : CmdFailure) : FRec := { f.frec with cause := 0x13, kind := 0, off := 0, elem := 0, ew := 0, gseg := 0 }

/-- Whether a failed command's follow-on was to write one of these registers. -/
def CmdFailure.blocks (f : CmdFailure) (reads : List Nat) : Bool :=
  match f.cmd.follow with
  | some w => f.lost && meets reads w.group
  | none => false

/-- Registers that a pending load will write; a pending scale register counts as every register, since any tag may
name it (16 R292). -/
def PendingLoad.waitsFor (p : PendingLoad) (regs : List Nat) : Bool :=
  match p with
  | .v d _ => d.toNat ∈ regs
  | .vv d e _ _ => d.toNat ∈ regs || e.toNat ∈ regs
  | .k _ _ => true

/-- Registers of the D group of a pending matrix instruction. -/
def PendingMat.group (m : PendingMat) : List Nat := (upto m.vals.length).map (m.dst + ·)

/-- Completes what older loads and matrix instructions owe, when an instruction that touches these registers has to
wait for one of them (15 R272). -/
def Hart.settleFor (h : Hart) (regs : List Nat) : Hart :=
  if h.loads.any (fun p => p.waitsFor regs) || h.mats.any (fun m => meets m.group regs) then h.settle else h

/-- The mask register, when the mask is on (12 R230). -/
def Hart.maskRegs (h : Hart) : List Nat := if bit h.ctl.vm.toNat 6 then [h.ctl.vm.toNat % 64] else []

/-- An instruction that reads a register of a failed command's group: a check of R238 that fails decides, else it takes
the failure's trap (12 R238, 19 R345). `o` is what it comes to without the failure. -/
def blockedOut (f : CmdFailure) (s : State) (o : Out) : Out :=
  let checkFails : Bool := match o with
    | .next t => (t.me.bind (·.trap)).any fun q => q.frec.cause = 0x01 || q.frec.cause = 0x12
    | _ => false
  if checkFails then o else trapOut (failureTrap f) s

/-- Goes on with an instruction that reads and writes these vector registers: it waits for a follow-on that is to write
one of them, traps at a read of a register whose command failed or is held behind the failure (19 R345; log entry 143), and
otherwise completes the older loads and matrix instructions that it has to wait for. -/
def withRegs (reads writes : List Nat) (s : State) (k : Hart → State → Out) : Out :=
  withHart s fun h =>
    let waits := meets (reads ++ writes) ((s.core s.myCore).pendingFollows s.mySlot)
    match h.fail with
    | some f =>
      if f.blocks reads || meets reads ((s.core s.myCore).heldFollows s.mySlot) then blockedOut f s (k h s)
      else if waits then .next s
      else k (h.settleFor (reads ++ writes)) s
    | none => if waits then .next s else k (h.settleFor (reads ++ writes)) s

/-- As `withRegs`, for an instruction that reads the mask too. -/
def withVec (reads writes : List Nat) (s : State) (k : Hart → State → Out) : Out :=
  withHart s fun h => withRegs (reads ++ h.maskRegs) writes s k

/-! ## Control fields (12 R229) -/

def Hart.vl (h : Hart) : Nat := h.ctl.vl.toNat % 2 ^ 32
def Hart.vstart (h : Hart) : Nat := h.ctl.vstart.toNat % 2 ^ 32
def Hart.maskOn (h : Hart) : Bool := bit h.ctl.vm.toNat 6
def Hart.maskReg (h : Hart) : Nat := h.ctl.vm.toNat % 64
def Hart.seed (h : Hart) : Nat := h.ctl.vsr.toNat % 2 ^ 32
def Hart.salt (h : Hart) : Nat := fld h.ctl.vsr.toNat 47 32
def Hart.srOn (h : Hart) : Bool := bit h.ctl.vsr.toNat 48
/-- Arithmetic-trap enables in the order of the flags (11 R226). -/
def Hart.trapEnables (h : Hart) : Nat := fld h.ctl.frm.toNat 12 8

/-- The tag of vector register n. -/
def Hart.tag (h : Hart) (n : Nat) : Option Tag := Tag.ofCode (h.getV n).tag.toNat

/-- Vector length in bits of the current hart's core. -/
def State.vlen (s : State) : Nat := (s.core s.myCore).vlen

/-- Sets vstart. -/
def Hart.setVstart (h : Hart) (n : Nat) : Hart := { h with ctl := { h.ctl with vstart := BitVec.ofNat 64 n } }

/-- Sets vl. -/
def Hart.setVl (h : Hart) (n : Nat) : Hart := { h with ctl := { h.ctl with vl := BitVec.ofNat 64 n } }

/-- A vector instruction that is done: vstart is 0 (10 R183), and it retires. -/
def Hart.vdone (h : Hart) : Hart := (h.setVstart 0).retire

/-! ## Rounding modes (11 R211, 12 R236) -/

/-- Mode of a code of frm; none for 110 and 111. -/
def modeOfCode (c : Nat) : Option RMode := [RMode.rne, .rtz, .rdn, .rup, .rto, .sr][c]?

/-- The mode that an instruction's rounding code gives; sr rounds as rne with the enable clear. -/
def Hart.mode (h : Hart) (r : RCode) : Option RMode :=
  let m := match r with
    | .rne => some RMode.rne
    | .rtz => some .rtz
    | .rdn => some .rdn
    | .rup => some .rup
    | .rto => some .rto
    | .sr => some .sr
    | .frm => modeOfCode (h.ctl.frm.toNat % 8)
  m.map fun m => if m = .sr && !h.srOn then .rne else m

/-- Whether the mode is usable with a destination format (15 R273 order 4). -/
def Hart.modeOk (h : Hart) (r : RCode) (dst : Fmt) : Bool :=
  match h.mode r with
  | none => false
  | some m => !(m = .rto && dst = .ts8)

/-- The rounding of destination element i of a register (11 R214). -/
def Hart.rnd (h : Hart) (m : RMode) (i : Nat) : Rnd := { mode := m, dither := dither (i + h.salt) h.seed }

/-! ## The issue checks (15 R273) -/

/-- What an instruction asks of the checks: whether vstart must be 0, whether the tags are permitted, whether it reads
the mask, whether the rounding mode is usable, and the capacities of the registers it indexes. -/
structure VReq where
  zeroStart : Bool
  tags : Bool
  mask : Bool
  round : Bool
  caps : List Nat
  deriving DecidableEq, Repr

/-- Whether the mask register is tagged m1 when the mask is in use (12 R230). -/
def Hart.maskOk (h : Hart) : Bool := !h.maskOn || (h.getV h.maskReg).tag = 0x13

/-- The checks in order: none, or the trap. -/
def vcheck (i : Instr) (h : Hart) (q : VReq) : Option FRec :=
  if q.zeroStart && h.ctl.vstart ≠ 0 then some (illegal i)
  else if !q.tags then some (illegal i)
  else if q.mask && !h.maskOk then some (illegal i)
  else if !q.round then some (illegal i)
  else if q.caps.any fun c => c < h.vl then some { cause := 0x12 }
  else none

/-- Runs a meaning after its checks. -/
def checked (c : Option FRec) (s : State) (k : Out) : Out :=
  match c with
  | some t => trapOut t s
  | none => k

/-! ## Elements (11 R202, 12 R239) -/

/-- Code of element i of width w. -/
def VReg.code (r : VReg) (w i : Nat) : Nat := elt r.bits.toNat w i

/-- The scale byte of element i under a tag. -/
def Hart.scaleByte (h : Hart) (t : Tag) (i : Nat) : Nat :=
  match t.scale with
  | none => 127
  | some (k, half) => elt (h.getK k).bits.toNat 8 (128 * half + i / 32)

/-- Elem(v, i): the value of a code at element i under a tag. -/
def Hart.valueOf (h : Hart) (t : Tag) (i code : Nat) : Val :=
  match t.scale with
  | none => t.fmt.value code
  | some _ => scaled (h.scaleByte t i) (t.fmt.value code)

/-- Elem(v, i) of register n. -/
def Hart.elem (h : Hart) (n : Nat) (t : Tag) (i : Nat) : Val := h.valueOf t i ((h.getV n).code t.width i)

/-- Whether mask bit i lets an element take part. -/
def Hart.maskBit (h : Hart) (i : Nat) : Bool := !h.maskOn || bit (h.getV h.maskReg).bits.toNat i

/-- Active(i) (12 R239). -/
def Hart.active (h : Hart) (i : Nat) : Bool := h.vstart ≤ i && i < h.vl && h.maskBit i

/-- The active elements, rising. -/
def Hart.actives (h : Hart) : List Nat := (upto h.vl).filter h.active

/-- A register after codes are written into some of its elements of width w (10 R193). -/
def VReg.putAll (r : VReg) (w : Nat) (es : List (Nat × Nat)) : VReg :=
  match es with
  | [] => r
  | _ =>
    let bits := es.foldl (fun b (e : Nat × Nat) => putElt b w e.1 e.2) r.bits.toNat
    let last := es.foldl (fun m (e : Nat × Nat) => max m (e.1 + 1)) 0
    r.write bits (cdiv (last * w) 8)

/-- A register of v bits without the bits above its last whole element of width w (11 R203). -/
def VReg.tail (r : VReg) (v w : Nat) : VReg :=
  if v % w = 0 then r else { r with bits := BitVec.ofNat 16384 (r.bits.toNat % 2 ^ (v / w * w)) }

/-- Register d without those bits, when any of its elements is written. -/
def Hart.trimV (h : Hart) (v d w : Nat) (written : Bool) : Hart :=
  if v % w = 0 || !written then h else h.setV d ((h.getV d).tail v w)

/-- Writes codes into elements of register d. -/
def Hart.putElems (h : Hart) (d w : Nat) (es : List (Nat × Nat)) : Hart := h.setV d ((h.getV d).putAll w es)

/-- One element's result: its code, the flags it raises, and flags that never trap (11 R204). -/
structure ERes where
  code : Nat
  flags : Nat
  quiet : Nat
  deriving DecidableEq, Repr

def ERes.pure (c : Nat) : ERes := { code := c, flags := 0, quiet := 0 }

/-- Writes the results of active elements into register d, or takes the arithmetic trap at the lowest element that
raises an enabled flag (11 R226). -/
def deliverElems (d w : Nat) (es : List (Nat × ERes)) (h : Hart) (s : State) : Out :=
  match es.find? fun e => e.2.flags &&& h.trapEnables ≠ 0 with
  | some e => trapOut { cause := 0x14, elem := e.1 } s
  | none =>
    let fl := es.foldl (fun f (e : Nat × ERes) => f ||| e.2.flags ||| e.2.quiet) 0
    let h := ((h.putElems d w (es.map fun e => (e.1, e.2.code))).trimV s.vlen d w !es.isEmpty).accrue (BitVec.ofNat 8 fl)
    .next (s.setMe h.vdone)

/-- An element-wise instruction over the active elements: every source is read before any element is written. -/
def elementwise (d w : Nat) (f : Nat → ERes) (h : Hart) (s : State) : Out :=
  deliverElems d w (h.actives.map fun i => (i, f i)) h s

/-- Writes a result of a scalar register by a vector instruction. -/
def vToX (d : XIx) (w : Word) (h : Hart) (s : State) : Out := .next (s.setMe ((h.setX d w).vdone))

/-- A code extended to 64 bits as its tag says: sign for iN, zeros otherwise (15 R285). -/
def extendCode (f : Fmt) (code : Nat) : Word := if f.isSigned then sext64 f.width code else BitVec.ofNat 64 code

/-- An index or key of an integer register as an integer (17 R304, R321). -/
def Hart.index (h : Hart) (n : Nat) (f : Fmt) (i : Nat) : Int := f.int ((h.getV n).code f.width i)

/-- Consecutive register numbers. -/
def group (n k : Nat) : List Nat := (upto k).map (n + ·)

end Sys2Proof.Machine
end

