-- ==== Sys2Proof/Machine/Scratch.lean ====
section
/-! DEFINITION. Scratchpad addresses, descriptors and bytes (spec 01 R18, R19; 03 R62 to R67). -/

namespace Sys2Proof.Machine

/-- Length in bytes of a grant (01 R18). -/
def Grant.bytes (g : Grant) : Nat := g.units * 32768

/-- The grant of the hart's region on its core, or one of no units. -/
def Core.grantOf (c : Core) (blk : Nat) : Grant :=
  (c.grant blk).getD { blk := blk, b := 0, units := 0, ixUnits := 0, table := [], tablePoison := [] }

/-- Whether an address has a reserved bit set: [63:31] or [29] (01 R18). -/
def spReserved (a : Word) : Bool := fld a.toNat 63 31 ≠ 0 || bit a.toNat 29

/-- The far bit, and the offset, of a scratchpad address. -/
def spFar (a : Word) : Bool := bit a.toNat 30
def spOffset (a : Word) : Nat := fld a.toNat 19 0

/-- Device number of the core that a far address names; none for clusters 12 to 15 (01 R18, R19). -/
def spTarget (a : Word) : Option Nat :=
  let n := a.toNat
  if fld n 26 23 < 12 then some (fld n 28 27 * 96 + fld n 26 23 * 8 + fld n 22 20) else none

/-- The conditions of R19 for an instruction operand of n bytes. -/
def spNearOk (g : Grant) (a : Word) (n : Nat) : Bool :=
  !spReserved a && !spFar a && decide (spOffset a + n ≤ g.bytes)

/-- A descriptor (03 R63). -/
def descReserved (d : Word) : Bool := fld d.toNat 63 45 ≠ 0
def descRot (d : Word) : Nat := fld d.toNat 44 40
def descTpitch (d : Word) : Nat := fld d.toNat 39 20
def descRpitch (d : Word) : Nat := fld d.toNat 19 0

/-- SpOff (03 R64). -/
def spOff (a d : Word) (t i j : Nat) : Nat :=
  let rp := descRpitch d
  let wj := j / 8
  let wj := if descRot d ≠ 0 then (wj + i * descRot d) % (rp / 8) else wj
  spOffset a + t * descTpitch d + i * rp + 8 * wj + j % 8

/-- The conditions of R64 on a descriptor alone: reserved bits, and a rotation with an unusable row pitch. -/
def descFits (d : Word) : Bool :=
  !descReserved d && (descRot d = 0 || (descRpitch d ≠ 0 && descRpitch d % 8 = 0))

/-- The conditions of R64 that do not concern one byte. -/
def descOk (a d : Word) : Bool := !spReserved a && !spFar a && descFits d

/-- The conditions of R64 and R19 for byte j of row i of tile t. -/
def spByteOk (g : Grant) (a d : Word) (t i j : Nat) : Bool :=
  (descRot d = 0 || decide (j < descRpitch d)) && decide (spOff a d t i j < g.bytes)

/-- Physical byte number of a grant offset (03 R62). -/
def Grant.phys (g : Grant) (o : Nat) : Nat := g.b * 32768 + o

/-- n bytes of a grant from an offset. -/
def Core.spRead (c : Core) (g : Grant) (o n : Nat) : Nat := c.sp.num (g.phys o) n

/-- Whether any of n bytes lies in a poisoned word (03 R61). -/
def Core.spPoisoned (c : Core) (g : Grant) (o n : Nat) : Bool :=
  c.spPoison.any fun w => decide (g.phys o < 8 * w + 8) && decide (8 * w < g.phys o + n)

/-- Writes bytes of a grant; a word written whole holds no poison any more (log entry 22). -/
def Core.spWrite (c : Core) (g : Grant) (o : Nat) (b : List Byte) : Core :=
  let p := g.phys o
  { c with sp := c.sp.write p b,
           spPoison := c.spPoison.filter fun w => !(decide (p ≤ 8 * w) && decide (8 * w + 8 ≤ p + b.length)) }

/-- The bank of a physical word (03 R62). -/
def spBank (word : Nat) : Nat := word % 31

/-- A scratchpad-bounds trap (05 R111): off and elem. -/
def spBounds (a : Word) (elem : Nat) : FRec := { cause := 0x10, off := a, elem := elem }

/-- The scratchpad address of byte j of row i of tile 0; the base address where the descriptor or the grant's
20-bit offset cannot express one. -/
def spAddrOf (a d : Word) (i j : Nat) : Word :=
  if descFits d && (descRot d = 0 || decide (j < descRpitch d)) && decide (spOff a d 0 i j < 2 ^ 20) then
    BitVec.ofNat 64 (a.toNat / 2 ^ 20 * 2 ^ 20 + spOff a d 0 i j)
  else a

end Sys2Proof.Machine
end

