-- ==== Sys2Proof/Machine/Scalar.lean ====
section
/-! DEFINITION. Scalar arithmetic, immediates, loads, stores and atomics (spec 14 R254 to R264). -/

namespace Sys2Proof.Machine

/-! ## Register forms (14 R255, R256) -/

/-- Writes x(D) and goes on. -/
def writeX (d : XIx) (f : Hart → Word) (s : State) : Out :=
  withHart s fun h => .next (s.setMe ((h.setX d (f h)).retire))

/-- The shape of a form of two registers. -/
def alu (d a b : XIx) (f : Word → Word → Word) (s : State) : Out := writeX d (fun h => f (h.getX a) (h.getX b)) s

def execAdd (d a b : XIx) (s : State) : Out := alu d a b (fun x y => x + y) s
def execSub (d a b : XIx) (s : State) : Out := alu d a b (fun x y => x - y) s
def execAnd (d a b : XIx) (s : State) : Out := alu d a b (fun x y => x &&& y) s
def execOr (d a b : XIx) (s : State) : Out := alu d a b (fun x y => x ||| y) s
def execXor (d a b : XIx) (s : State) : Out := alu d a b (fun x y => x ^^^ y) s
def execSll (d a b : XIx) (s : State) : Out := alu d a b (fun x y => x <<< (y.toNat % 64)) s
def execSrl (d a b : XIx) (s : State) : Out := alu d a b (fun x y => x >>> (y.toNat % 64)) s
def execSra (d a b : XIx) (s : State) : Out := alu d a b (fun x y => x.sshiftRight (y.toNat % 64)) s

/-- 1 or 0. -/
def flag (b : Bool) : Word := if b then 1 else 0

def execSlt (d a b : XIx) (s : State) : Out := alu d a b (fun x y => flag (x.slt y)) s
def execSltn (d a b : XIx) (s : State) : Out := alu d a b (fun x y => flag (x.ult y)) s
def execMin (d a b : XIx) (s : State) : Out := alu d a b (fun x y => if x.slt y then x else y) s
def execMax (d a b : XIx) (s : State) : Out := alu d a b (fun x y => if x.slt y then y else x) s
def execMinn (d a b : XIx) (s : State) : Out := alu d a b (fun x y => if x.ult y then x else y) s
def execMaxn (d a b : XIx) (s : State) : Out := alu d a b (fun x y => if x.ult y then y else x) s

/-- Zero bits above the highest one bit; 64 for 0. -/
def clz64 (x : Word) : Nat := if x = 0 then 64 else 63 - Nat.log2 x.toNat

/-- Zero bits below the lowest one bit among the low n bits; n for 0. -/
def ctzBelow : Nat → Nat → Nat
  | 0, _ => 0
  | n + 1, x => if x % 2 = 1 then 0 else 1 + ctzBelow n (x / 2)

/-- Number of one bits among the low n bits. -/
def popBelow : Nat → Nat → Nat
  | 0, _ => 0
  | n + 1, x => x % 2 + popBelow n (x / 2)

def execClz (d a : XIx) (s : State) : Out := writeX d (fun h => BitVec.ofNat 64 (clz64 (h.getX a))) s
def execCtz (d a : XIx) (s : State) : Out := writeX d (fun h => BitVec.ofNat 64 (ctzBelow 64 (h.getX a).toNat)) s
def execPopc (d a : XIx) (s : State) : Out := writeX d (fun h => BitVec.ofNat 64 (popBelow 64 (h.getX a).toNat)) s
def execMul (d a b : XIx) (s : State) : Out := alu d a b (fun x y => x * y) s
def execMulh (d a b : XIx) (s : State) : Out :=
  alu d a b (fun x y => BitVec.ofInt 64 (x.toInt * y.toInt / ((2 ^ 64 : Nat) : Int))) s
def execMulhn (d a b : XIx) (s : State) : Out := alu d a b (fun x y => BitVec.ofNat 64 (x.toNat * y.toNat / 2 ^ 64)) s

/-- A division: by zero it writes all ones and accrues DZ, and it never traps (14 R256). -/
def division (d a b : XIx) (f : Word → Word → Word) (s : State) : Out :=
  withHart s fun h =>
    if h.getX b = 0 then
      .next (s.setMe (((h.setX d (BitVec.allOnes 64)).accrue (BitVec.ofNat 8 fDZ)).retire))
    else .next (s.setMe ((h.setX d (f (h.getX a) (h.getX b))).retire))

def execDiv (d a b : XIx) (s : State) : Out := division d a b (fun x y => BitVec.ofInt 64 (x.toInt.tdiv y.toInt)) s
def execDivn (d a b : XIx) (s : State) : Out := division d a b (fun x y => BitVec.ofNat 64 (x.toNat / y.toNat)) s
def execRem (d a b : XIx) (s : State) : Out := division d a b (fun x y => BitVec.ofInt 64 (x.toInt.tmod y.toInt)) s
def execRemn (d a b : XIx) (s : State) : Out := division d a b (fun x y => BitVec.ofNat 64 (x.toNat % y.toNat)) s

/-! ## Immediate forms (14 R257, R258) -/

/-- imm13 sign-extended. -/
def imm64 (imm : BitVec 13) : Word := imm.signExtend 64

def execAddi (imm : BitVec 13) (a d : XIx) (s : State) : Out := writeX d (fun h => h.getX a + imm64 imm) s
def execAndi (imm : BitVec 13) (a d : XIx) (s : State) : Out := writeX d (fun h => h.getX a &&& imm64 imm) s
def execOri (imm : BitVec 13) (a d : XIx) (s : State) : Out := writeX d (fun h => h.getX a ||| imm64 imm) s
def execXori (imm : BitVec 13) (a d : XIx) (s : State) : Out := writeX d (fun h => h.getX a ^^^ imm64 imm) s
def execSlti (imm : BitVec 13) (a d : XIx) (s : State) : Out := writeX d (fun h => flag ((h.getX a).slt (imm64 imm))) s
def execSltin (imm : BitVec 13) (a d : XIx) (s : State) : Out := writeX d (fun h => flag ((h.getX a).ult (imm64 imm))) s
def execSlli (n : BitVec 6) (a d : XIx) (s : State) : Out := writeX d (fun h => h.getX a <<< n.toNat) s
def execSrli (n : BitVec 6) (a d : XIx) (s : State) : Out := writeX d (fun h => h.getX a >>> n.toNat) s
def execSrai (n : BitVec 6) (a d : XIx) (s : State) : Out := writeX d (fun h => (h.getX a).sshiftRight n.toNat) s
def execLih (imm : BitVec 19) (d : XIx) (s : State) : Out :=
  writeX d (fun h => h.getX d * BitVec.ofNat 64 (2 ^ 19) + imm.setWidth 64) s
def execAddpc (imm : BitVec 19) (d : XIx) (s : State) : Out := writeX d (fun h => h.pc + 4 * imm.signExtend 64) s

/-! ## Loads and stores (14 R259, R260) -/

/-- The offset of an M-format access: x(base) + off8 · s (12 R232). -/
def mOffset (h : Hart) (base : XIx) (off : BitVec 8) (n : Nat) : Word :=
  h.getX base + off.signExtend 64 * BitVec.ofNat 64 n

/-- The request of a scalar access of n bytes. -/
def scalarReq (rw : Rw) (h : Hart) (off : BitVec 8) (o : Orient) (g : GIx) (base : XIx) (n : Nat) : Req :=
  { rw := rw, g := g.toNat, off := mOffset h base off n, n := n, align := n, elem := 0, ew := 8 * n, col := o = .col }

/-- The shape of a scalar load: the checks, the read, and x(D) from the n bytes. -/
def load (n : Nat) (ext : Nat → Word) (off : BitVec 8) (o : Orient) (g : GIx) (base d : XIx) (s : State) : Out :=
  withHart s fun h =>
    finish ((checkReq (scalarReq .read h off o g base n) h true s).bind fun c s =>
      (readCell c.1 c.2.1 c.2.2 n false s).bind fun x s => .ok () (s.setMe ((h.setX d (ext x)).retire)))

def execLdb (off : BitVec 8) (o : Orient) (g : GIx) (base d : XIx) (s : State) : Out :=
  load 1 (sext64 8) off o g base d s
def execLdh (off : BitVec 8) (o : Orient) (g : GIx) (base d : XIx) (s : State) : Out :=
  load 2 (sext64 16) off o g base d s
def execLdw (off : BitVec 8) (o : Orient) (g : GIx) (base d : XIx) (s : State) : Out :=
  load 4 (sext64 32) off o g base d s
def execLdd (off : BitVec 8) (o : Orient) (g : GIx) (base d : XIx) (s : State) : Out :=
  load 8 (BitVec.ofNat 64) off o g base d s
def execLdbn (off : BitVec 8) (o : Orient) (g : GIx) (base d : XIx) (s : State) : Out :=
  load 1 (BitVec.ofNat 64) off o g base d s
def execLdhn (off : BitVec 8) (o : Orient) (g : GIx) (base d : XIx) (s : State) : Out :=
  load 2 (BitVec.ofNat 64) off o g base d s
def execLdwn (off : BitVec 8) (o : Orient) (g : GIx) (base d : XIx) (s : State) : Out :=
  load 4 (BitVec.ofNat 64) off o g base d s

/-- The shape of a scalar store. -/
def store (n : Nat) (off : BitVec 8) (o : Orient) (g : GIx) (base d : XIx) (s : State) : Out :=
  withHart s fun h =>
    finish ((checkReq (scalarReq .write h off o g base n) h true s).bind fun c s =>
      (writeCell c.1 c.2.1 c.2.2 n ((h.getX d).toNat % 2 ^ (8 * n)) 0 false false false h s).bind fun _ s =>
        .ok () (s.setMe h.countStore.retire))

def execStb (off : BitVec 8) (o : Orient) (g : GIx) (base d : XIx) (s : State) : Out := store 1 off o g base d s
def execSth (off : BitVec 8) (o : Orient) (g : GIx) (base d : XIx) (s : State) : Out := store 2 off o g base d s
def execStw (off : BitVec 8) (o : Orient) (g : GIx) (base d : XIx) (s : State) : Out := store 4 off o g base d s
def execStd (off : BitVec 8) (o : Orient) (g : GIx) (base d : XIx) (s : State) : Out := store 8 off o g base d s

/-! ## Atomics (14 R261 to R264) -/

/-- An update: the new code at the location, or none for no write, and the flags it raises. -/
abbrev Update := Nat → Option Nat × Nat

/-- Bytes of an atomic's width. -/
def amoBytes : AmoWidth → Nat
  | .w32 => 4
  | .w64 => 8

/-- The floating add of atomics: nearest even, subnormals kept, the canonical quiet NaN for a NaN operand (14 R264,
03 R67). -/
def floatAdd (f : Fmt) (m v : Nat) : Nat × Nat :=
  let r := addV false (f.value m) (f.value v)
  let c := convert f Rnd.rne r.v
  (c.1, r.flags ||| c.2)

/-- A scratchpad atomic in its bank (14 R263). Of an address that is both out of bounds and misaligned, the bounds decide
(log entry 17). One whose flags meet the trap enables traps and writes nothing (11 R226): R264 exempts AMOFADD in memory
alone. -/
def amoScratch (n : Nat) (u : Update) (base : XIx) (h : Hart) (s : State) : Res (Nat × Nat) :=
  let c := s.core s.myCore
  let g := c.grantOf h.blk
  let a := h.getX base
  if !spNearOk g a n then .stop (.trap (spBounds a 0)) s
  else if spOffset a % n ≠ 0 then .stop (.trap { cause := 0x05, off := a, ew := 8 * n, kind := 2 }) s
  else if c.spPoisoned g (spOffset a) n then .stop (.trap { cause := 0x0F, off := a, ew := 8 * n, kind := 2 }) s
  else
    let m := c.spRead g (spOffset a) n
    match u m with
    | (some x, fl) =>
      if fl &&& h.trapEnables ≠ 0 then .stop (.trap { cause := 0x14 }) s
      else .ok (m, fl) (s.setCore s.myCore (c.spWrite g (spOffset a) (toBytes n x)))
    | (none, fl) => .ok (m, fl) s

/-- A memory atomic (14 R262). -/
def amoMemory (n : Nat) (sc : AScope) (o : Orient) (g : GIx) (u : Update) (base : XIx) (h : Hart) (s : State) :
    Res (Nat × Nat) :=
  let r : Req := { rw := .both, g := g.toNat, off := h.getX base, n := n, align := n, elem := 0, ew := 8 * n,
                   col := o = .col }
  (checkReq r h true s).bind fun c s =>
    (atomicCell c.1 c.2.1 c.2.2 n sc (fun m => (u m).1) s).bind fun m s => .ok (m, (u m).2) s

/-- The shape of a scalar atomic: x(D) receives the old value, sign-extended from its width. -/
def amo (loc : AmoLoc) (w : AmoWidth) (u : Hart → Update) (base d : XIx) (s : State) : Out :=
  withHart s fun h =>
    let n := (amoBytes w)
    let r := match loc with
      | .sp => amoScratch n (u h) base h s
      | .mem sc o g => amoMemory n sc o g (u h) base h s
    finish (r.bind fun m s =>
      .ok () (s.setMe (((h.setX d (sext64 (8 * n) m.1)).accrue (BitVec.ofNat 8 m.2)).retire)))

/-- An integer update of W bits by a function of the old value and the operand x(D). -/
def amoInt (loc : AmoLoc) (w : AmoWidth) (f : Nat → Nat → Nat) (base d : XIx) (s : State) : Out :=
  amo loc w (fun h m => (some (f m ((h.getX d).toNat % 2 ^ (8 * (amoBytes w))) % 2 ^ (8 * (amoBytes w))), 0)) base d s

/-- The lesser or greater of two signed codes of W bits. -/
def sMin (w a b : Nat) : Nat := if sgn w b < sgn w a then b else a
def sMax (w a b : Nat) : Nat := if sgn w a < sgn w b then b else a

def execAmoadd (loc : AmoLoc) (w : AmoWidth) (base d : XIx) (s : State) : Out := amoInt loc w (fun m v => m + v) base d s
def execAmoand (loc : AmoLoc) (w : AmoWidth) (base d : XIx) (s : State) : Out :=
  amoInt loc w (fun m v => m &&& v) base d s
def execAmoor (loc : AmoLoc) (w : AmoWidth) (base d : XIx) (s : State) : Out :=
  amoInt loc w (fun m v => m ||| v) base d s
def execAmoxor (loc : AmoLoc) (w : AmoWidth) (base d : XIx) (s : State) : Out :=
  amoInt loc w (fun m v => m ^^^ v) base d s
def execAmomin (loc : AmoLoc) (w : AmoWidth) (base d : XIx) (s : State) : Out :=
  amoInt loc w (sMin (8 * (amoBytes w))) base d s
def execAmomax (loc : AmoLoc) (w : AmoWidth) (base d : XIx) (s : State) : Out :=
  amoInt loc w (sMax (8 * (amoBytes w))) base d s
def execAmominn (loc : AmoLoc) (w : AmoWidth) (base d : XIx) (s : State) : Out := amoInt loc w min base d s
def execAmomaxn (loc : AmoLoc) (w : AmoWidth) (base d : XIx) (s : State) : Out := amoInt loc w max base d s
def execAmoswp (loc : AmoLoc) (w : AmoWidth) (base d : XIx) (s : State) : Out := amoInt loc w (fun _ v => v) base d s

/-- AMOCAS: x(D) is compared and x(D+1) is stored; with D = 0 the compare value is zero. -/
def execAmocas (loc : AmoLoc) (w : AmoWidth) (base d : XIx) (s : State) : Out :=
  let k := 2 ^ (8 * (amoBytes w))
  amo loc w (fun h m =>
    (if m = (h.getX d).toNat % k then some ((h.getX (d + 1)).toNat % k) else none, 0)) base d s

/-- AMOFADD in memory (R264) or in a bank, where only f32 exists (R263). -/
def execAmofadd (loc : AmoLoc) (w : AmoWidth) (base d : XIx) (s : State) : Out :=
  let f := match w with
    | .w32 => Fmt.f32
    | .w64 => Fmt.f64
  let go := amo loc w (fun h m =>
    let r := floatAdd f m ((h.getX d).toNat % 2 ^ f.width)
    (some r.1, r.2)) base d s
  match loc, w with
  | .sp, .w64 => withHart s fun _ => trapOut (illegal (.amofadd loc w base d)) s
  | _, _ => go

end Sys2Proof.Machine
end

