-- ==== Sys2Proof/Machine/Branch.lean ====
section
/-! DEFINITION. Branches and jumps (spec 14 R265 to R267). -/

namespace Sys2Proof.Machine

/-- The trap of a misaligned target: it is the branch's own, and off holds the target (14 R267, 01 R24). -/
def badTarget (t : Word) : FRec := { cause := 0x05, off := t, ew := 32, kind := 3 }

/-- Goes to a target, if it is aligned. -/
def jumpTo (t : Word) (h : Hart) (s : State) : Out :=
  if t.toNat % 4 ≠ 0 then trapOut (badTarget t) s else .next (s.setMe (h.retireTo t))

/-- The target of a branch: PC + 4 · off13. -/
def branchTarget (h : Hart) (off : BitVec 13) : Word := h.pc + 4 * off.signExtend 64

/-- The shape of a branch. -/
def branch (off : BitVec 13) (b a : XIx) (c : Word → Word → Bool) (s : State) : Out :=
  withHart s fun h =>
    if c (h.getX a) (h.getX b) then jumpTo (branchTarget h off) h s else .next (s.setMe h.retire)

def execBeq (off : BitVec 13) (b a : XIx) (s : State) : Out := branch off b a (fun x y => x == y) s
def execBne (off : BitVec 13) (b a : XIx) (s : State) : Out := branch off b a (fun x y => x != y) s
def execBlt (off : BitVec 13) (b a : XIx) (s : State) : Out := branch off b a (fun x y => x.slt y) s
def execBge (off : BitVec 13) (b a : XIx) (s : State) : Out := branch off b a (fun x y => !x.slt y) s
def execBltn (off : BitVec 13) (b a : XIx) (s : State) : Out := branch off b a (fun x y => x.ult y) s
def execBgen (off : BitVec 13) (b a : XIx) (s : State) : Out := branch off b a (fun x y => !x.ult y) s

def execJal (imm : BitVec 19) (d : XIx) (s : State) : Out :=
  withHart s fun h => jumpTo (h.pc + 4 * imm.signExtend 64) (h.setX d (h.pc + 4)) s

def execJalr (imm : BitVec 13) (a d : XIx) (s : State) : Out :=
  withHart s fun h => jumpTo (h.getX a + imm64 imm) (h.setX d (h.pc + 4)) s

end Sys2Proof.Machine
end

