-- ==== Sys2Proof/Machine/Special.lean ====
section
/-! DEFINITION. The special functions that are not correctly rounded (spec 15 R279): exact cases, special values and
flags as the spec states them, and elsewhere a free value of the operand within the bound that the spec sets. -/

namespace Sys2Proof.Machine

/-- VRSQ to VTANH. -/
inductive Sfn where
  | rsq
  | exp2
  | log2
  | sin
  | cos
  | tanh
  deriving DecidableEq, Repr

def Sfn.num : Sfn → Nat
  | .rsq => 17
  | .exp2 => 18
  | .log2 => 19
  | .sin => 20
  | .cos => 21
  | .tanh => 22

/-- A dyadic number with its factors of two taken out of the magnitude, at most n of them. -/
def Dy.odd : Nat → Dy → Dy
  | 0, d => d
  | n + 1, d => if d.mag % 2 = 0 && d.mag ≠ 0 then Dy.odd n { d with mag := d.mag / 2, exp := d.exp + 1 } else d

/-- The exact value of a function at a finite operand that is not zero, where R279 names one. A power of two that lies beyond
every format stands for those that lie further out, which convert alike. -/
def Sfn.exact (f : Sfn) (d : Dy) : Option Dy :=
  let o := d.odd 1200
  match f with
  | .rsq => if !o.neg && o.mag = 1 && o.exp % 2 = 0 then some { neg := false, mag := 1, exp := -(o.exp / 2) } else none
  | .exp2 => if 0 ≤ o.exp then some { neg := false, mag := 1, exp := max (-2000) (min 2000 (o.at 0)) } else none
  | .log2 => if !o.neg && o.mag = 1 then some (Dy.ofInt o.exp 0) else none
  | _ => none

/-- Whether a code of a floating format is subnormal. -/
def isSubnormal (c : Fmt) (code : Nat) : Bool :=
  match c.float with
  | some p => code / 2 ^ p.2.1 % 2 ^ p.1 = 0 && code % 2 ^ p.2.1 ≠ 0
  | none => false

/-! ## Bracketing the true value

The true value of a function is bracketed in fixed point with 1,536 fraction bits, and y is then a free choice among
the values of C that lie within the bound of R279 (log entry 8). -/

/-- Fraction bits. -/
def fracBits : Nat := 1536

/-- One, in fixed point. -/
def fxOne : Int := ((2 ^ fracBits : Nat) : Int)

/-- Product in fixed point. -/
def fxMul (a b : Int) : Int := a * b / fxOne

/-- x + x^(1+s)/... : the sum of n terms of a series in which term k+1 is term k times `step` over `den k`. -/
def fxSeries (step : Int) (den : Nat → Int) : Nat → Nat → Int → Int
  | 0, _, _ => 0
  | n + 1, k, t => t + fxSeries step den n (k + 1) (fxMul t step / den k)

/-- e^x for x from 0 to 1. -/
def fxExp (x : Int) : Int := fxSeries x (fun k => (k : Int) + 1) 320 0 fxOne

/-- The inverse hyperbolic (or, with alternating signs, trigonometric) tangent of 1/q: n terms. -/
def fxAtanInv (alternate : Bool) (q : Nat) : Nat → Nat → Int → Int
  | 0, _, _ => 0
  | n + 1, k, t =>
    let x := t / (2 * (k : Int) + 1)
    (if alternate && k % 2 = 1 then -x else x) + fxAtanInv alternate q n (k + 1) (t / ((q * q : Nat) : Int))

/-- ln 2 = 2 · artanh(1/3). -/
def fxLn2 : Int := 2 * fxAtanInv false 3 500 0 (fxOne / 3)

/-- π = 16 · arctan(1/5) − 4 · arctan(1/239). -/
def fxPi : Int := 16 * fxAtanInv true 5 340 0 (fxOne / 5) - 4 * fxAtanInv true 239 110 0 (fxOne / 239)

/-- sin x for |x| at most 2. -/
def fxSin (x : Int) : Int := fxSeries (-(fxMul x x)) (fun k => (2 * (k : Int) + 2) * (2 * (k : Int) + 3)) 170 0 x

/-- cos x for |x| at most 2. -/
def fxCos (x : Int) : Int := fxSeries (-(fxMul x x)) (fun k => (2 * (k : Int) + 1) * (2 * (k : Int) + 2)) 170 0 fxOne

/-- n bits of log2 of m, m from 1 to 2, by repeated squaring: the bits as a number. -/
def fxLog2 : Nat → Int → Nat → Nat
  | 0, _, acc => acc
  | n + 1, m, acc =>
    let q := fxMul m m
    if 2 * fxOne ≤ q then fxLog2 n (q / 2) (2 * acc + 1) else fxLog2 n q (2 * acc)

/-- Squares n times. -/
def fxSquare : Nat → Int → Int
  | 0, x => x
  | n + 1, x => fxSquare n (fxMul x x)

/-- sin (q = 0) or cos (q = 1) of a: a is reduced by multiples of π/2. -/
def fxSinCos (q : Nat) (a : Int) : Int :=
  let half := fxPi / 2
  let k := a / half
  let x := a - k * half
  match ((k + q) % 4).toNat with
  | 0 => fxSin x
  | 1 => fxCos x
  | 2 => -fxSin x
  | _ => -fxCos x

/-- tanh a, short of 1 where a is large. -/
def fxTanh (a : Int) : Int :=
  let x := (a.natAbs : Int)
  let t := if 64 * fxOne ≤ x then fxOne - 1
    else
      let e := fxSquare 8 (fxExp (2 * x / 256))
      (e - fxOne) * fxOne / (e + fxOne)
  if a < 0 then -t else t

/-- A value just below another in magnitude. -/
def Dy.below (d : Dy) : Dy := { d with mag := d.mag * 2 ^ 301 - 1, exp := d.exp - 301 }

/-- A magnitude that is known to lie below a bound. -/
def Dy.under (d b : Dy) : Dy :=
  let e := min d.exp b.exp
  if (b.at e).natAbs ≤ (d.at e).natAbs then { b with neg := d.neg }.below else d

/-- A value within 2^−300 of the true one relatively; |sin a| and |tanh a| stay below |a|, and |cos a| below 1. -/
def Sfn.near (f : Sfn) (d : Dy) : Dy :=
  let a := d.at (-(fracBits : Int))
  match f with
  | .rsq => (Dy.div { neg := false, mag := 1, exp := 0 } d).sqrt
  | .exp2 =>
    let n := max (-1400) (min 1400 (a / fxOne))
    let x := a % fxOne
    { neg := false, mag := (fxExp (fxMul x fxLn2)).toNat, exp := n - fracBits }
  | .log2 =>
    let e := d.top
    let m := (d.shift (-e)).at (-(fracBits : Int))
    let l := e * ((2 ^ 400 : Nat) : Int) + fxLog2 400 m 0
    Dy.ofInt l (-400)
  | .sin => (Dy.ofInt (fxSinCos 0 a) (-(fracBits : Int))).under d
  | .cos => (Dy.ofInt (fxSinCos 1 a) (-(fracBits : Int))).under { neg := false, mag := 1, exp := 0 }
  | .tanh => (Dy.ofInt (fxTanh a) (-(fracBits : Int))).under d

/-- Units in the last place by which y may differ (15 R279). -/
def Sfn.bound (f : Sfn) (c : Fmt) : Nat :=
  match f with
  | .rsq => 1
  | .tanh => 2
  | _ => if c = .f64 then 2 else 1

/-- Exponent of the unit in the last place of C at a value. -/
def ulpExp (c : Fmt) (t : Dy) : Int :=
  match c.float with
  | some p => max (t.top - (p.2.1 : Int)) (1 - (p.2.2 : Int) - (p.2.1 : Int))
  | none => t.exp

/-- Whether a code of C lies within b units in the last place of a value, on its side of zero. -/
def inBound (c : Fmt) (b : Nat) (t : Dy) (code : Nat) : Bool :=
  match c.value code with
  | .fin x =>
    let u := ulpExp c t
    let e := min x.exp (min t.exp u)
    x.neg = t.neg && decide ((x.at e - t.at e).natAbs ≤ b * 2 ^ (u - e).toNat)
  | _ => false

/-- The code of y in C at an inexact case: a free choice among the codes within the bound of the true value, a fixed
function of the operand and of C (log entry 8). -/
def Sfn.free (f : Sfn) (c : Fmt) (code : Nat) (d : Dy) : Nat :=
  let t := f.near d
  let lo := (roundTo c { mode := .rtz, dither := 0 } t).1
  let sbit := 2 ^ (c.width - 1)
  let b := f.bound c
  let least := lo % sbit - min (2 * b) (lo % sbit)
  let l := ((upto (4 * b + 1)).map fun k => lo / sbit * sbit + least + k).filter (inBound c b t)
  l.getD (Config.specialResult f.num c.width code % l.length) lo

/-- Flags of a result y in C: UF when it is subnormal, OF with NX when VEXP2 overflows, NX unless the case is exact. -/
def Sfn.flagsOf (f : Sfn) (c : Fmt) (code : Nat) (exact : Bool) : Nat :=
  (if exact then 0 else fNX) ||| (if isSubnormal c code then fUF else 0)
    ||| (if f = .exp2 && (c.value code).isInf then fOF else 0)

/-- Whether a magnitude is past every finite value of C. -/
def pastRange (c : Fmt) (d : Dy) : Bool :=
  match c.float with
  | some p => decide (((2 ^ p.1 - 1 : Nat) : Int) - ((p.2.2 : Nat) : Int) ≤ d.top)
  | none => false

/-- y in C and its flags, for a value of the operand (15 R279). VEXP2 of an integer whose power of two lies below the least
subnormal of C is an exact case of the table that C cannot hold: the model takes it as inexact, a free choice within the
bound, with NX (log entry 124). -/
def Sfn.y (f : Sfn) (c : Fmt) (v : Val) : Val × Nat :=
  match v with
  | .nan _ _ sig => (Val.quiet, if sig then fNV else 0)
  | .inf neg =>
    match f with
    | .rsq => if neg then (Val.quiet, fNV) else (.fin { neg := false, mag := 0, exp := 0 }, 0)
    | .exp2 => if neg then (.fin { neg := false, mag := 0, exp := 0 }, 0) else (.inf false, 0)
    | .log2 => if neg then (Val.quiet, fNV) else (.inf false, 0)
    | .sin => (Val.quiet, fNV)
    | .cos => (Val.quiet, fNV)
    | .tanh => (.fin { neg := neg, mag := 1, exp := 0 }, 0)
  | .fin d =>
    if d.mag = 0 then
      match f with
      | .rsq => (.inf d.neg, fDZ)
      | .exp2 => (.fin { neg := false, mag := 1, exp := 0 }, 0)
      | .log2 => (.inf true, fDZ)
      | .sin => (v, 0)
      | .cos => (.fin { neg := false, mag := 1, exp := 0 }, 0)
      | .tanh => (v, 0)
    else if d.neg && (f = .rsq || f = .log2) then (Val.quiet, fNV)
    else
      let code := (convert c Rnd.rne v).1
      let inexact :=
        if f = .exp2 && pastRange c (f.near d) then (.inf false, fOF ||| fNX)
        else let y := f.free c code d; (c.value y, f.flagsOf c y false)
      match f.exact d with
      | some e =>
        -- exact in C, or beyond its range: overflow is an infinity with OF and NX, underflow an inexact case
        let p := convert c Rnd.rne (.fin e)
        if p.2 = 0 then (.fin e, f.flagsOf c p.1 true)
        else if p.2 &&& fOF ≠ 0 then (.inf false, fOF ||| fNX)
        else inexact
      | none => inexact

end Sys2Proof.Machine
end

