-- ==== Sys2Proof/Machine/System.lean ====
section
/-! DEFINITION. Control and segment registers, TRAP, BRK and RTS (spec 12 R228 to R230; 14 R268 to R270). -/

namespace Sys2Proof.Machine

/-- The bits of a control register that MTC writes (12 R229). -/
def ctlMask : CReg → Word
  | .vl => BitVec.ofNat 64 (ones 32)
  | .vm => BitVec.ofNat 64 (ones 7)
  | .vs => BitVec.allOnes 64
  | .vt => BitVec.allOnes 64
  | .vstart => BitVec.ofNat 64 (ones 32)
  | .vrep => 1
  | .vsr => BitVec.ofNat 64 (ones 49)
  | .frm => 0x1F07
  | .fflags => 0x1F
  | .mrow => 0x7F
  | .mcol => 0x7F
  | .mdep => 0x1FF
  | .bthr => BitVec.ofNat 64 (ones 32)
  | .lpart => 0
  | .hartid => 0
  | .regionid => 0
  | .cyc => 0
  | .tcause => 0xFF
  | .tepc => BitVec.allOnes 64
  | .tval => BitVec.allOnes 64
  | .tvec => BitVec.allOnes 64 - 3
  | .tstat => 1

/-- Whether a control register is the supervisor's (12 R228). -/
def supervisorOnly : CReg → Bool
  | .tcause => true
  | .tepc => true
  | .tval => true
  | .tvec => true
  | .tstat => true
  | _ => false

/-- Cycles that the machine's steps have taken (12 R229 `cyc`; log entry 7). -/
def cyclesTo : Nat → Nat
  | 0 => 0
  | n + 1 => cyclesTo n + Config.stepCycles n

/-- The location of a hart (12 R229 `hartid`, 01 R11). -/
def hartId (key : Nat) : Nat :=
  let c := coreOf key
  slotOf key + (c % 8) <<< 3 + (c % 96 / 8) <<< 6 + dieOf c <<< 10

/-- Value of a control register as MFC reads it. -/
def State.readCtl (s : State) (h : Hart) : CReg → Word
  | .vl => h.ctl.vl
  | .vm => h.ctl.vm
  | .vs => h.ctl.vs
  | .vt => h.ctl.vt
  | .vstart => h.ctl.vstart
  | .vrep => h.ctl.vrep
  | .vsr => h.ctl.vsr
  | .frm => h.ctl.frm
  | .fflags => h.ctl.fflags
  | .mrow => h.ctl.mrow
  | .mcol => h.ctl.mcol
  | .mdep => h.ctl.mdep
  | .bthr => h.ctl.bthr
  | .lpart => BitVec.ofNat 64 ((s.core s.myCore).lpart % 4)
  | .hartid => BitVec.ofNat 64 (hartId s.cur)
  | .regionid => BitVec.ofNat 64 (fld (s.readPA h.blk 64) 255 236)
  | .cyc => BitVec.ofNat 64 (cyclesTo s.ticks - cyclesTo s.leftReset)
  | .tcause => h.ctl.tcause
  | .tepc => h.ctl.tepc
  | .tval => h.ctl.tval
  | .tvec => h.ctl.tvec
  | .tstat => h.ctl.tstat

/-- The control registers after a write of the fields that can be written. -/
def Ctrl.write (c : Ctrl) (r : CReg) (w : Word) : Ctrl :=
  let w := w &&& ctlMask r
  match r with
  | .vl => { c with vl := w }
  | .vm => { c with vm := w }
  | .vs => { c with vs := w }
  | .vt => { c with vt := w }
  | .vstart => { c with vstart := w }
  | .vrep => { c with vrep := w }
  | .vsr => { c with vsr := w }
  | .frm => { c with frm := w }
  | .fflags => { c with fflags := w }
  | .mrow => { c with mrow := w }
  | .mcol => { c with mcol := w }
  | .mdep => { c with mdep := w }
  | .bthr => { c with bthr := w }
  | .lpart => c
  | .hartid => c
  | .regionid => c
  | .cyc => c
  | .tcause => { c with tcause := w }
  | .tepc => { c with tepc := w }
  | .tval => { c with tval := w }
  | .tvec => { c with tvec := w }
  | .tstat => { c with tstat := w }

/-- MFC (14 R268). MFC of `fflags` first lets every older matrix instruction write its D group (18 R334). -/
def execMfc (c : CReg) (d : XIx) (s : State) : Out :=
  withHart s fun h =>
    if supervisorOnly c && h.user then trapOut (privilegedTrap (.mfc c d)) s
    else
      let h := if c = .fflags then h.settleMats else h
      .next (s.setMe ((h.setX d (s.readCtl h c)).retire))

/-- MTC (14 R268). MTC of `fflags` replaces the flags; those of older matrix instructions are in by then (log entry
11). -/
def execMtc (c : CReg) (a : XIx) (s : State) : Out :=
  withHart s fun h =>
    if supervisorOnly c && h.user then trapOut (privilegedTrap (.mtc c a)) s
    else
      let h := if c = .fflags then h.settleMats else h
      .next (s.setMe { h with ctl := h.ctl.write c (h.getX a) }.retire)

/-- A half of a segment register. -/
def segHalf (g : BitVec 128) (half : Half) : Word :=
  match half with
  | .lo => g.setWidth 64
  | .hi => (g >>> 64).setWidth 64

/-- A segment register with one half replaced; reserved bits stay zero (01 R21, 14 R269). -/
def setHalf (g : BitVec 128) (half : Half) (w : Word) : BitVec 128 :=
  let x := match half with
    | .lo => put g.toNat 0 64 w.toNat
    | .hi => put g.toNat 64 64 w.toNat
  BitVec.ofNat 128 x &&& segMask

/-- MFG (14 R269). -/
def execMfg (half : Half) (g : GIx) (d : XIx) (s : State) : Out :=
  writeX d (fun h => segHalf (h.getG g.toNat) half) s

/-- MTG (14 R269); to g0 in user mode it is privileged (01 R21). -/
def execMtg (hi : Hint) (half : Half) (g : GIx) (b : XIx) (s : State) : Out :=
  withHart s fun h =>
    if g = 0 && h.user then trapOut (privilegedTrap (.mtg hi half g b)) s
    else .next (s.setMe (h.setG g.toNat (setHalf (h.getG g.toNat) half (h.getX b))).retire)

/-- TRAP (14 R270): explicit trap, cause 0x04. -/
def execTrap (s : State) : Out := withHart s fun _ => trapOut { cause := 0x04 } s

/-- BRK (14 R270): breakpoint, cause 0x03. -/
def execBrk (s : State) : Out := withHart s fun _ => trapOut { cause := 0x03 } s

/-- RTS (10 R189, 14 R270). It retires at its own place and goes on at tepc. R24 and R267 give the misaligned PC that a branch
or a jump produces to that instruction; they do not name RTS: with bits [1:0] of tepc nonzero the model's RTS completes, and
the fetch at tepc takes 0x05, with tepc as the trapping PC (log entry 118). -/
def execRts (hi : Hint) (s : State) : Out :=
  withHart s fun h =>
    if h.user then trapOut (privilegedTrap (.rts hi)) s
    else .next (s.setMe { h.leaveTrap with seq := h.seq + 1 })

end Sys2Proof.Machine
end

