-- ==== Sys2Proof/Machine/VecCfg.lean ====
section
/-! DEFINITION. VSETL and VTAG (spec 15 R274, R275). -/

namespace Sys2Proof.Machine

/-- VSETL: vl is the lesser of the count and the capacity; it reads only a tag, so it waits for nothing. -/
def execVsetl (hi : Hint) (d a : XIx) (b : VIx) (s : State) : Out :=
  withHart s fun h =>
    match h.tag b.toNat with
    | none => trapOut (illegal (.vsetl hi d a b)) s
    | some t =>
      let vl := min (h.getX a).toNat (t.capacity s.vlen)
      .next (s.setMe (((h.setVl vl).setX d (BitVec.ofNat 64 vl)).vdone))

/-- VTAG: only the tag changes, so vstart stays as it was (DEDUCED, log 24). A code that names no format is
illegal. -/
def execVtag (t : BitVec 8) (d : VIx) (s : State) : Out :=
  withRegs [] [d.toNat] s fun h s =>
    match Tag.ofCode t.toNat with
    | none => trapOut (illegal (.vtag t d)) s
    | some _ => .next (s.setMe (h.setV d.toNat { h.getV d.toNat with tag := t }).retire)

end Sys2Proof.Machine
end

