-- ==== Sys2Proof/Machine/VecArith.lean ====
section
/-! DEFINITION. Vector arithmetic, special functions and the reductions that round (spec 15 R276 to R279, R288; 11 R219
to R223). -/

namespace Sys2Proof.Machine

/-! ## Tags and the computation format (15 R276, 11 R219) -/

/-- Whether a tag is there and has a property. -/
def tagIs (t : Option Tag) (p : Tag → Bool) : Bool :=
  match t with
  | some t => p t
  | none => false

/-- A source tag of arithmetic: integer, IEEE, or MX, plain or block-scaled. -/
def srcOk (t : Tag) : Bool := t.fmt ≠ .m1

/-- A destination tag of arithmetic: integer, IEEE, or unscaled MX. -/
def dstOk (t : Tag) : Bool := t.fmt ≠ .m1 && t.scale = none

/-- A tag, or the m1 tag for a code that names none. -/
def tagD (t : Option Tag) : Tag := t.getD { fmt := .m1, scale := none }

/-- The tag of a register, or m1. -/
def Hart.tagAt (h : Hart) (n : Nat) : Tag := tagD (h.tag n)

/-- Whether a tag makes the computation format f64. -/
def wide (t : Tag) : Bool :=
  t.fmt = .f64 || t.fmt = .i32 || t.fmt = .n32 || t.fmt = .i64 || t.fmt = .n64

/-- The computation format C. -/
def compFmt (srcs : List Tag) (dst : Tag) : Fmt :=
  if srcs.any (fun t => t.scale ≠ none) || (dst :: srcs).any wide then .f64 else .f32

/-- A source element as C takes it: exactly, except that an i64 or n64 value that f64 cannot hold is rounded with rto
and raises NX (11 R219). -/
def Hart.source (h : Hart) (n : Nat) (i : Nat) : Val × Nat :=
  let t := h.tagAt n
  let v := h.elem n t i
  if t.fmt = .i64 || t.fmt = .n64 then throughC .f64 v else (v, 0)

/-- The integer of element i of register n. -/
def Hart.intAt (h : Hart) (n : Nat) (i : Nat) : Int :=
  let t := h.tagAt n
  t.fmt.int ((h.getV n).code t.width i)

/-! ## The shape of an element-wise operation (15 R271, R277) -/

/-- Sources of an operation: its registers in the order in which `a`, `b` and `d` name them. -/
abbrev Ints := Nat → Int
abbrev Vals := Nat → Val

/-- What an operation does: on integers of a width, with its quiet flags; and on values, where the first argument says
whether the mode is rdn. -/
structure ArithOp where
  int : Nat → Ints → Int × Nat
  val : Bool → Vals → FRes

/-- Which tags an operation accepts, and whether it rounds (12 R236). -/
inductive ArithTags where
  /-- integer, IEEE or MX sources into any destination but a block-scaled one -/
  | mixed
  /-- integer sources of the destination's width, integer destination -/
  | ints
  /-- every tag the destination's own, integer or IEEE; nothing rounds -/
  | own
  deriving DecidableEq, Repr

def ArithTags.ok (k : ArithTags) (d : Option Tag) (srcs : List (Option Tag)) : Bool :=
  match k with
  | .mixed => srcs.all (fun t => tagIs t srcOk) && tagIs d dstOk
  | .ints => tagIs d Tag.isInt && srcs.all fun t => tagIs t fun t => t.isInt && t.width = (tagD d).width
  | .own => tagIs d (fun t => t.isInt || t.fmt.isIeee) && srcs.all fun t => t = d

/-- Whether every tag of an instruction is an integer one. -/
def Hart.allInt (h : Hart) (regs : List Nat) : Bool := regs.all fun n => (h.tagAt n).isInt

/-- The mode of an instruction, rne where it reads none. -/
def Hart.modeD (h : Hart) (r : RCode) : RMode := (h.mode r).getD .rne

/-- Result of element i of an operation on registers `srcs` into d. -/
def arithElem (op : ArithOp) (r : RCode) (d : Nat) (srcs : List Nat) (h : Hart) (i : Nat) : ERes :=
  let dst := (h.tagAt d).fmt
  if h.allInt (d :: srcs) then
    let x := op.int dst.width fun k => h.intAt (nth srcs k 0) i
    { code := wrap dst.width x.1, flags := 0, quiet := x.2 }
  else
    let m := h.modeD r
    let vs := srcs.map fun n => h.source n i
    let x := op.val (m = .rdn) fun k => (nth vs k (Val.quiet, 0)).1
    let p := deliver (compFmt (srcs.map h.tagAt) (h.tagAt d)) dst (h.rnd m i) x.v
    { code := p.1, flags := vs.foldl (fun f v => f ||| v.2) (x.flags ||| p.2), quiet := 0 }

/-- The issue checks of an arithmetic instruction. -/
def arithReq (k : ArithTags) (r : RCode) (d : Nat) (srcs : List Nat) (h : Hart) (s : State) : VReq :=
  { zeroStart := false, tags := k.ok (h.tag d) (srcs.map h.tag), mask := true,
    round := k = .own || h.allInt (d :: srcs) || h.modeOk r (h.tagAt d).fmt,
    caps := (d :: srcs).map fun n => (h.tagAt n).capacity s.vlen }

/-- An element-wise operation on registers `srcs` into d. -/
def arith (i : Instr) (k : ArithTags) (r : RCode) (d : VIx) (srcs : List VIx) (op : ArithOp) (s : State) : Out :=
  let ns := srcs.map BitVec.toNat
  withVec ns [d.toNat] s fun h s =>
    checked (vcheck i h (arithReq k r d.toNat ns h s)) s
      (elementwise d.toNat (h.tagAt d.toNat).width (arithElem op r d.toNat ns h) h s)

/-! ## The operations (15 R277, R278) -/

def opAdd : ArithOp := { int := fun _ x => (x 0 + x 1, 0), val := fun dn x => addV dn (x 0) (x 1) }
def opSub : ArithOp := { int := fun _ x => (x 0 - x 1, 0), val := fun dn x => addV dn (x 0) (negV (x 1)) }
def opRsub : ArithOp := { int := fun _ x => (x 1 - x 0, 0), val := fun dn x => addV dn (x 1) (negV (x 0)) }
def opMul : ArithOp := { int := fun _ x => (x 0 * x 1, 0), val := fun _ x => mulV (x 0) (x 1) }

/-- High product: the floor of a · b / 2^w. -/
def opMulh : ArithOp := { int := fun w x => (x 0 * x 1 / ((2 ^ w : Nat) : Int), 0), val := fun _ _ => invalid }

/-- Integer division by zero writes all ones and raises DZ, which never traps (11 R204). -/
def opDiv : ArithOp :=
  { int := fun _ x => if x 1 = 0 then (-1, fDZ) else ((x 0).tdiv (x 1), 0), val := fun _ x => divV (x 0) (x 1) }

/-- The remainder of values: a − b · trunc(a / b), with the sign of a when it is zero. -/
def remV (a b : Val) : FRes :=
  if a.isNan || b.isNan then { v := Val.quiet, flags := sigFlag [a, b] }
  else
    match a, b with
    | .fin x, .fin y =>
      if y.mag = 0 then invalid
      else
        let e := min x.exp y.exp
        let i := (x.at e).tmod (y.at e)
        { v := .fin (if i = 0 then { neg := x.neg, mag := 0, exp := 0 } else Dy.ofInt i e), flags := 0 }
    | .fin x, .inf _ => { v := .fin x, flags := 0 }
    | _, _ => invalid

def opRem : ArithOp :=
  { int := fun _ x => if x 1 = 0 then (-1, fDZ) else ((x 0).tmod (x 1), 0), val := fun _ x => remV (x 0) (x 1) }

/-- The lesser or the greater of two values: −0 below +0, and a NaN for a NaN. -/
def pickV (greater : Bool) (a b : Val) : FRes :=
  if a.isNan || b.isNan then { v := Val.quiet, flags := sigFlag [a, b] }
  else { v := if ltV true a b = greater then b else a, flags := 0 }

def opMin : ArithOp := { int := fun _ x => (min (x 0) (x 1), 0), val := fun _ x => pickV false (x 0) (x 1) }
def opMax : ArithOp := { int := fun _ x => (max (x 0) (x 1), 0), val := fun _ x => pickV true (x 0) (x 1) }

/-- A value with its sign bit cleared. -/
def absV : Val → Val
  | .fin d => .fin { d with neg := false }
  | .inf _ => .inf false
  | .nan _ f s => .nan false f s

/-- A change of the sign bit alone; a NaN gives the canonical one. -/
def signV (f : Val → Val) (a : Val) : FRes :=
  if a.isNan then { v := Val.quiet, flags := sigFlag [a] } else { v := f a, flags := 0 }

def opAbs : ArithOp := { int := fun _ x => (((x 0).natAbs : Int), 0), val := fun _ x => signV absV (x 0) }
def opNeg : ArithOp := { int := fun _ x => (-(x 0), 0), val := fun _ x => signV negV (x 0) }

/-- A fused form: whether the product and the addend are negated. -/
def opFused (np nd : Bool) : ArithOp :=
  { int := fun _ x => ((if np then -(x 0 * x 1) else x 0 * x 1) + (if nd then -(x 2) else x 2), 0)
    val := fun dn x => fmaV dn (if np then negV (x 0) else x 0) (x 1) (if nd then negV (x 2) else x 2) }

def execVadd (hi : Hint) (r : RCode) (d a b : VIx) (s : State) : Out :=
  arith (.vadd hi r d a b) .mixed r d [a, b] opAdd s
def execVsub (hi : Hint) (r : RCode) (d a b : VIx) (s : State) : Out :=
  arith (.vsub hi r d a b) .mixed r d [a, b] opSub s
def execVrsub (hi : Hint) (r : RCode) (d a b : VIx) (s : State) : Out :=
  arith (.vrsub hi r d a b) .mixed r d [a, b] opRsub s
def execVmul (hi : Hint) (r : RCode) (d a b : VIx) (s : State) : Out :=
  arith (.vmul hi r d a b) .mixed r d [a, b] opMul s
def execVmulh (hi : Hint) (r : RCode) (d a b : VIx) (s : State) : Out :=
  arith (.vmulh hi r d a b) .ints r d [a, b] opMulh s
def execVdiv (hi : Hint) (r : RCode) (d a b : VIx) (s : State) : Out :=
  arith (.vdiv hi r d a b) .mixed r d [a, b] opDiv s
def execVrem (hi : Hint) (r : RCode) (d a b : VIx) (s : State) : Out :=
  arith (.vrem hi r d a b) .mixed r d [a, b] opRem s
def execVmin (hi : Hint) (r : RCode) (d a b : VIx) (s : State) : Out :=
  arith (.vmin hi r d a b) .own r d [a, b] opMin s
def execVmax (hi : Hint) (r : RCode) (d a b : VIx) (s : State) : Out :=
  arith (.vmax hi r d a b) .own r d [a, b] opMax s
def execVabs (hi : Hint) (r : RCode) (d a : VIx) (s : State) : Out :=
  arith (.vabs hi r d a) .own r d [a] opAbs s
def execVneg (hi : Hint) (r : RCode) (d a : VIx) (s : State) : Out :=
  arith (.vneg hi r d a) .own r d [a] opNeg s
def execVfma (hi : Hint) (r : RCode) (d a b : VIx) (s : State) : Out :=
  arith (.vfma hi r d a b) .mixed r d [a, b, d] (opFused false false) s
def execVfms (hi : Hint) (r : RCode) (d a b : VIx) (s : State) : Out :=
  arith (.vfms hi r d a b) .mixed r d [a, b, d] (opFused false true) s
def execVfnma (hi : Hint) (r : RCode) (d a b : VIx) (s : State) : Out :=
  arith (.vfnma hi r d a b) .mixed r d [a, b, d] (opFused true false) s
def execVfnms (hi : Hint) (r : RCode) (d a b : VIx) (s : State) : Out :=
  arith (.vfnms hi r d a b) .mixed r d [a, b, d] (opFused true true) s

/-! ## Special functions (15 R279) -/

/-- Tags of a special function: IEEE or MX into IEEE or unscaled MX. -/
def specialTags (d a : Option Tag) : Bool :=
  tagIs a (fun t => t.fmt ≠ .m1 && !t.isInt) && tagIs d (fun t => t.fmt ≠ .m1 && !t.isInt && t.scale = none)

/-- The shape of a special function (15 R279): `f` answers what element i becomes, from C and the operand. It counts as one
that rounds, and so reads `frm` under code 110 (12 R236), even where y is written as it stands (log entry 104). -/
def special (i : Instr) (r : RCode) (d a : VIx) (f : Fmt → Fmt → Rnd → Val → ERes) (s : State) : Out :=
  withVec [a.toNat] [d.toNat] s fun h s =>
    let td := h.tagAt d.toNat
    let ta := h.tagAt a.toNat
    let q : VReq := { zeroStart := false, tags := specialTags (h.tag d.toNat) (h.tag a.toNat), mask := true,
                      round := h.modeOk r td.fmt, caps := [td, ta].map fun t => t.capacity s.vlen }
    checked (vcheck i h q) s
      (elementwise d.toNat td.width
        (fun e => f (compFmt [ta] td) td.fmt (h.rnd (h.modeD r) e) (h.elem a.toNat ta e)) h s)

/-- A correctly rounded function: its exact result goes through `Deliver`. -/
def exactly (f : Val → FRes) (c dst : Fmt) (r : Rnd) (v : Val) : ERes :=
  let x := f v
  let p := deliver c dst r x.v
  { code := p.1, flags := x.flags ||| p.2, quiet := 0 }

/-- 1/a. -/
def rcpV (a : Val) : FRes := divV (.fin { neg := false, mag := 1, exp := 0 }) a

/-- A function within a bound: y as it stands in C, else converted to the destination (15 R279). That the flags of this
conversion (OF, UF, NX) are raised beside those of R279's list, which gives OF to VEXP2 overflow alone, is the model's reading
(log entry 123). -/
def within (f : Sfn) (c dst : Fmt) (r : Rnd) (v : Val) : ERes :=
  let y := f.y c v
  let p := if dst = c then convert c Rnd.rne y.1 else convert dst r y.1
  { code := p.1, flags := y.2 ||| p.2, quiet := 0 }

def execVsqrt (hi : Hint) (r : RCode) (d a : VIx) (s : State) : Out :=
  special (.vsqrt hi r d a) r d a (exactly sqrtV) s
def execVrcp (hi : Hint) (r : RCode) (d a : VIx) (s : State) : Out :=
  special (.vrcp hi r d a) r d a (exactly rcpV) s
def execVrsq (hi : Hint) (r : RCode) (d a : VIx) (s : State) : Out :=
  special (.vrsq hi r d a) r d a (within .rsq) s
def execVexp2 (hi : Hint) (r : RCode) (d a : VIx) (s : State) : Out :=
  special (.vexp2 hi r d a) r d a (within .exp2) s
def execVlog2 (hi : Hint) (r : RCode) (d a : VIx) (s : State) : Out :=
  special (.vlog2 hi r d a) r d a (within .log2) s
def execVsin (hi : Hint) (r : RCode) (d a : VIx) (s : State) : Out :=
  special (.vsin hi r d a) r d a (within .sin) s
def execVcos (hi : Hint) (r : RCode) (d a : VIx) (s : State) : Out :=
  special (.vcos hi r d a) r d a (within .cos) s
def execVtanh (hi : Hint) (r : RCode) (d a : VIx) (s : State) : Out :=
  special (.vtanh hi r d a) r d a (within .tanh) s

/-! ## Sums and dot products (15 R288; 11 R221, R222) -/

/-- A value with the flags raised so far. -/
abbrev FVal := Val × Nat

/-- −0.0, which adds nothing. -/
def negZero : FVal := (.fin { neg := true, mag := 0, exp := 0 }, 0)

/-- A sum rounded to C with rne. -/
def addC (c : Fmt) (a b : FVal) : FVal :=
  let r := addV false a.1 b.1
  let p := convert c Rnd.rne r.v
  (c.value p.1, a.2 ||| b.2 ||| r.flags ||| p.2)

/-- A product rounded to C with rne. -/
def mulC (c : Fmt) (a b : FVal) : FVal :=
  let r := mulV a.1 b.1
  let p := convert c Rnd.rne r.v
  (c.value p.1, a.2 ||| b.2 ||| r.flags ||| p.2)

/-- Node j of the next level adds nodes 2j and 2j+1. -/
def pairUp {α : Type} (f : α → α → α) : List α → List α
  | a :: b :: t => f a b :: pairUp f t
  | l => l

/-- The root of a tree of `lvl` levels; `zero` adds nothing. -/
def treeSum {α : Type} (f : α → α → α) (zero : α) : Nat → List α → α
  | 0, l => l.headD zero
  | lvl + 1, l => treeSum f zero lvl (pairUp f l)

/-- `CanonSum` (11 R221) of an addition. `v i` adds nothing where element i is inactive or not below n. -/
def canonSum {α : Type} (f : α → α → α) (zero start : α) (n : Nat) (v : Nat → α) : α :=
  (upto (cdiv n 32)).foldl (fun t b => f t (treeSum f zero 5 ((upto 32).map fun j => v (32 * b + j)))) start

/-- The sum in lane order (11 R222) over 2^k accumulators, the start value last. With n = 0 it is the start value
(15 R288). -/
def laneSum {α : Type} (f : α → α → α) (zero start : α) (n k : Nat) (v : Nat → α) : α :=
  if n = 0 then start
  else
    let m := 2 ^ k
    let accs := (upto m).map fun j => (upto (cdiv (n - j) m)).foldl (fun t q => f t (v (j + q * m))) zero
    f (treeSum f zero k accs) start

/-- The sum in the order that `vrep` chooses, for sources of registers `srcs`. -/
def Hart.sumOrder {α : Type} (h : Hart) (vlen : Nat) (srcs : List Nat) (f : α → α → α) (zero start : α) (v : Nat → α) : α :=
  if bit h.ctl.vrep.toNat 0 then canonSum f zero start h.vl v
  else laneSum f zero start h.vl (laneLog vlen (srcs.foldl (fun w n => max w (h.tagAt n).width) 1)) v
where
  /-- log2 of the number of accumulators at a vector length and a width. -/
  laneLog (vlen w : Nat) : Nat := Nat.log2 (vlen / (8 * w))

/-- What active element i adds to a sum: the element, or the product of two. -/
def Hart.addend (h : Hart) (c : Fmt) (srcs : List Nat) (i : Nat) : FVal :=
  match srcs with
  | [a, b] => mulC c (h.source a i) (h.source b i)
  | [a] => h.source a i
  | _ => negZero

/-- The lower of two elements, where there are any. -/
def lowerOf (a b : Option Nat) : Option Nat :=
  match a, b with
  | some i, some j => some (min i j)
  | some i, none => some i
  | none, j => j

/-- A partial sum for the trap of R226: its value, the lowest active element that it takes in, and the lowest one that has
raised an enabled flag. An active element raises the flags of every operation that takes it in, which is the model's reading
(log entry 31). -/
structure Traced where
  v : Val
  low : Option Nat
  bad : Option Nat
  deriving DecidableEq, Repr

/-- The value of an operation on partial sums, with the flags that it raises itself. -/
def Traced.of (enables : Nat) (v : FVal) (low bad : Option Nat) : Traced :=
  { v := v.1, low := low, bad := if v.2 &&& enables = 0 then bad else lowerOf bad low }

/-- The addition of partial sums. -/
def Traced.add (enables : Nat) (c : Fmt) (a b : Traced) : Traced :=
  Traced.of enables (addC c (a.v, 0) (b.v, 0)) (lowerOf a.low b.low) (lowerOf a.bad b.bad)

/-- Result of a sum reduction of registers `srcs`, one for VRSUM and two for VRDOT. -/
def sumElem (r : RCode) (d : Nat) (srcs : List Nat) (h : Hart) (s : State) : ERes :=
  let dst := (h.tagAt d).fmt
  if h.allInt (d :: srcs) then
    let one := fun i => srcs.foldl (fun x n => x * h.intAt n i) 1
    ERes.pure (wrap dst.width (h.actives.foldl (fun t i => t + one i) (h.intAt d 0)))
  else
    let c := compFmt (srcs.map h.tagAt) (h.tagAt d)
    let t := h.sumOrder s.vlen srcs (addC c) negZero (h.source d 0) fun i => if h.active i then h.addend c srcs i else negZero
    let p := deliver c dst (h.rnd (h.modeD r) 0) t.1
    { code := p.1, flags := t.2 ||| p.2, quiet := 0 }

/-- The element that the arithmetic trap of a sum reduction names (11 R226): the lowest active one that raises an enabled
flag, by itself or in an operation that takes it in; 0 where none does, and the start value alone raises it. -/
def sumTrapElem (r : RCode) (d : Nat) (srcs : List Nat) (h : Hart) (s : State) : Nat :=
  let c := compFmt (srcs.map h.tagAt) (h.tagAt d)
  let zero : Traced := { v := negZero.1, low := none, bad := none }
  let t := h.sumOrder s.vlen srcs (Traced.add h.trapEnables c) zero { v := (h.source d 0).1, low := none, bad := none }
    fun i => if h.active i then Traced.of h.trapEnables (h.addend c srcs i) (some i) none else zero
  let p := deliver c (h.tagAt d).fmt (h.rnd (h.modeD r) 0) t.v
  ((Traced.of h.trapEnables (t.v, p.2) t.low t.bad).bad).getD 0

/-- The shape of a reduction into element 0 of vD: `vstart` must be 0, and only the sources are indexed. `start` says
that element 0 of vD is the start value, so that it is read; `bad` is the element that its arithmetic trap names. -/
def reduction (i : Instr) (k : ArithTags) (r : RCode) (start : Bool) (d : VIx) (srcs : List VIx)
    (f : Hart → State → ERes) (bad : Hart → State → Nat) (s : State) : Out :=
  let ns := srcs.map BitVec.toNat
  withVec (if start then d.toNat :: ns else ns) [d.toNat] s fun h s =>
    let q := { arithReq k r d.toNat ns h s with
               zeroStart := true, caps := ns.map fun n => (h.tagAt n).capacity s.vlen }
    checked (vcheck i h q) s <|
      if (f h s).flags &&& h.trapEnables = 0 then deliverElems d.toNat (h.tagAt d.toNat).width [(0, f h s)] h s
      else trapOut { cause := 0x14, elem := bad h s } s

/-- Result of VRMIN or VRMAX (11 R223). -/
def extremeElem (greater : Bool) (a : Nat) (h : Hart) : ERes :=
  let t := h.tagAt a
  if t.isInt then
    let f := t.fmt
    let worst : Int := if greater then f.int (if f.isSigned then 2 ^ (f.width - 1) else 0)
      else f.int (if f.isSigned then 2 ^ (f.width - 1) - 1 else 2 ^ f.width - 1)
    ERes.pure (wrap f.width (h.actives.foldl
      (fun m i => if greater then max m (h.intAt a i) else min m (h.intAt a i)) worst))
  else
    let vs := h.actives.map fun i => h.elem a t i
    if vs.any Val.isNan then { code := t.fmt.qnan, flags := sigFlag vs, quiet := 0 }
    else ERes.pure (convert t.fmt Rnd.rne (vs.foldl (fun m v => (pickV greater m v).v) (.inf greater))).1

/-- The element that the arithmetic trap of VRMIN or VRMAX names: the lowest active signalling NaN (11 R223, R226). -/
def extremeTrapElem (a : Nat) (h : Hart) : Nat :=
  (h.actives.find? fun i => sigFlag [h.elem a (h.tagAt a) i] ≠ 0).getD 0

def execVrsum (hi : Hint) (r : RCode) (d a : VIx) (s : State) : Out :=
  reduction (.vrsum hi r d a) .mixed r true d [a] (sumElem r d.toNat [a.toNat]) (sumTrapElem r d.toNat [a.toNat]) s
def execVrdot (hi : Hint) (r : RCode) (d a b : VIx) (s : State) : Out :=
  reduction (.vrdot hi r d a b) .mixed r true d [a, b] (sumElem r d.toNat [a.toNat, b.toNat])
    (sumTrapElem r d.toNat [a.toNat, b.toNat]) s
def execVrmin (hi : Hint) (r : RCode) (d a : VIx) (s : State) : Out :=
  reduction (.vrmin hi r d a) .own r false d [a] (fun h _ => extremeElem false a.toNat h) (fun h _ => extremeTrapElem a.toNat h) s
def execVrmax (hi : Hint) (r : RCode) (d a : VIx) (s : State) : Out :=
  reduction (.vrmax hi r d a) .own r false d [a] (fun h _ => extremeElem true a.toNat h) (fun h _ => extremeTrapElem a.toNat h) s

end Sys2Proof.Machine
end

