-- ==== Sys2Proof/Machine/VecLogic.lean ====
section
/-! DEFINITION. Vector logic and shifts, whole-register shifts, compare, select, moves, indices, slides, permutes, the
reductions of logic, mask counts and the branches on mask (spec 15 R280 to R290). -/

namespace Sys2Proof.Machine

/-- Whether registers carry tags of one width. -/
def Hart.oneWidth (h : Hart) (regs : List Nat) : Bool :=
  match regs with
  | [] => true
  | n :: _ => regs.all fun k => tagIs (h.tag k) fun t => t.width = (h.tagAt n).width

/-- Whether a register carries an integer tag. -/
def Hart.intTag (h : Hart) (n : Nat) : Bool := tagIs (h.tag n) Tag.isInt

/-- Whether a register is tagged m1. -/
def Hart.maskTag (h : Hart) (n : Nat) : Bool := (h.getV n).tag = 0x13

/-- Capacities of registers. -/
def Hart.caps (h : Hart) (s : State) (regs : List Nat) : List Nat := regs.map fun n => (h.tagAt n).capacity s.vlen

/-- Code of element i of register n. -/
def Hart.codeAt (h : Hart) (n i : Nat) : Nat := (h.getV n).code (h.tagAt n).width i

/-- The checks of an instruction that moves codes and reads the mask. -/
def codeReq (zero tags : Bool) (caps : List Nat) : VReq :=
  { zeroStart := zero, tags := tags, mask := true, round := true, caps := caps }

/-- An element-wise instruction on codes: `f i` is the code of active element i. -/
def codes (i : Instr) (d : VIx) (srcs : List VIx) (zero : Bool) (tags : Hart → Bool) (f : Hart → Nat → Nat)
    (s : State) : Out :=
  let ns := srcs.map BitVec.toNat
  withVec ns [d.toNat] s fun h s =>
    checked (vcheck i h (codeReq zero (tags h) (h.caps s (d.toNat :: ns)))) s
      (elementwise d.toNat (h.tagAt d.toNat).width (fun e => ERes.pure (f h e)) h s)

/-! ## Logic and shifts (15 R280) -/

def execVand (hi : Hint) (d a b : VIx) (s : State) : Out :=
  codes (.vand hi d a b) d [a, b] false (fun h => h.oneWidth [d.toNat, a.toNat, b.toNat])
    (fun h i => h.codeAt a.toNat i &&& h.codeAt b.toNat i) s

def execVor (hi : Hint) (d a b : VIx) (s : State) : Out :=
  codes (.vor hi d a b) d [a, b] false (fun h => h.oneWidth [d.toNat, a.toNat, b.toNat])
    (fun h i => h.codeAt a.toNat i ||| h.codeAt b.toNat i) s

def execVxor (hi : Hint) (d a b : VIx) (s : State) : Out :=
  codes (.vxor hi d a b) d [a, b] false (fun h => h.oneWidth [d.toNat, a.toNat, b.toNat])
    (fun h i => h.codeAt a.toNat i ^^^ h.codeAt b.toNat i) s

def execVnot (hi : Hint) (d a : VIx) (s : State) : Out :=
  codes (.vnot hi d a) d [a] false (fun h => h.oneWidth [d.toNat, a.toNat])
    (fun h i => ones (h.tagAt d.toNat).width - h.codeAt a.toNat i) s

/-- Tags of a shift: D and A integer of one width, B integer. -/
def shiftTags (d a b : VIx) (h : Hart) : Bool :=
  h.oneWidth [d.toNat, a.toNat] && h.intTag d.toNat && h.intTag a.toNat && h.intTag b.toNat

/-- The count of element i: its code modulo the width. -/
def shiftCount (h : Hart) (a b : VIx) (i : Nat) : Nat := h.codeAt b.toNat i % (h.tagAt a.toNat).width

def execVshl (hi : Hint) (d a b : VIx) (s : State) : Out :=
  codes (.vshl hi d a b) d [a, b] false (shiftTags d a b)
    (fun h i => h.codeAt a.toNat i * 2 ^ shiftCount h a b i % 2 ^ (h.tagAt a.toNat).width) s

def execVshr (hi : Hint) (d a b : VIx) (s : State) : Out :=
  codes (.vshr hi d a b) d [a, b] false (shiftTags d a b)
    (fun h i => h.codeAt a.toNat i / 2 ^ shiftCount h a b i) s

def execVshra (hi : Hint) (d a b : VIx) (s : State) : Out :=
  codes (.vshra hi d a b) d [a, b] false (shiftTags d a b)
    (fun h i =>
      let w := (h.tagAt a.toNat).width
      wrap w (sgn w (h.codeAt a.toNat i) / ((2 ^ shiftCount h a b i : Nat) : Int))) s

/-! ## Shifts of a register as one bit string (15 R281) -/

/-- Replaces the low L bits of a register. -/
def VReg.setLow (r : VReg) (l q : Nat) : VReg :=
  if l = 0 then r else r.write (put r.bits.toNat 0 l q) (cdiv l 8)

/-- The shape of the four forms (15 R281). Bits at and above L stay, those above the last whole element of a 6-bit tag among
them, which R203 would leave zero (log entry 103): `f L S D n` gives the low L bits, from those of vA, those of vD and the
count; `both` says that it reads vD. -/
def bitString (i : Instr) (both : Bool) (d a : VIx) (b : XIx) (f : Nat → Nat → Nat → Nat → Nat) (s : State) : Out :=
  withRegs (if both then [a.toNat, d.toNat] else [a.toNat]) [d.toNat] s fun h s =>
    let q : VReq := { zeroStart := true, tags := h.oneWidth [d.toNat, a.toNat], mask := false, round := true,
                      caps := h.caps s [d.toNat, a.toNat] }
    let l := h.vl * (h.tagAt d.toNat).width
    let low := fun n => (h.getV n).bits.toNat % 2 ^ l
    checked (vcheck i h q) s
      (.next (s.setMe (h.setV d.toNat ((h.getV d.toNat).setLow l
        (f l (low a.toNat) (low d.toNat) (min (h.getX b).toNat l)))).vdone))

/-- Counts past L act as L does: every bit is shifted out. -/
def execVwsl (hi : Hint) (d a : VIx) (b : XIx) (s : State) : Out :=
  bitString (.vwsl hi d a b) false d a b (fun l x _ n => x * 2 ^ n % 2 ^ l) s

def execVwsr (hi : Hint) (d a : VIx) (b : XIx) (s : State) : Out :=
  bitString (.vwsr hi d a b) false d a b (fun _ x _ n => x / 2 ^ n) s

def execVfsl (hi : Hint) (d a : VIx) (b : XIx) (s : State) : Out :=
  bitString (.vfsl hi d a b) true d a b (fun l x y n => (y * 2 ^ l + x) * 2 ^ n / 2 ^ l % 2 ^ l) s

def execVfsr (hi : Hint) (d a : VIx) (b : XIx) (s : State) : Out :=
  bitString (.vfsr hi d a b) true d a b (fun l x y n => (x * 2 ^ l + y) / 2 ^ n % 2 ^ l) s

/-! ## Compare (15 R282) -/

/-- The condition on two values. -/
def condition (c : Cond) (a b : Val) : Bool :=
  let nan := a.isNan || b.isNan
  match c with
  | .eq => !nan && eqV a b
  | .ne => nan || !eqV a b
  | .lt => !nan && ltV false a b
  | .le => !nan && (ltV false a b || eqV a b)
  | .gt => !nan && ltV false b a
  | .ge => !nan && (ltV false b a || eqV a b)
  | .uo => nan
  | .or => !nan

/-- NV: any NaN for the ordering conditions, else a signalling one. -/
def conditionFlag (c : Cond) (a b : Val) : Nat :=
  match c with
  | .lt => if a.isNan || b.isNan then fNV else 0
  | .le => if a.isNan || b.isNan then fNV else 0
  | .gt => if a.isNan || b.isNan then fNV else 0
  | .ge => if a.isNan || b.isNan then fNV else 0
  | _ => sigFlag [a, b]

def execVcmp (hi : Hint) (c : Cond) (d a b : VIx) (s : State) : Out :=
  withVec [a.toNat, b.toNat] [d.toNat] s fun h s =>
    let tags := h.maskTag d.toNat && tagIs (h.tag a.toNat) srcOk && tagIs (h.tag b.toNat) srcOk
    let one := fun i =>
      let x := h.elem a.toNat (h.tagAt a.toNat) i
      let y := h.elem b.toNat (h.tagAt b.toNat) i
      { code := (condition c x y).toNat, flags := conditionFlag c x y, quiet := 0 }
    checked (vcheck (.vcmp hi c d a b) h (codeReq false tags (h.caps s [d.toNat, a.toNat, b.toNat]))) s
      (elementwise d.toNat 1 one h s)

/-! ## Select and moves (15 R283 to R285) -/

/-- VSEL uses the mask as its selector and writes every element from vstart to vl−1. -/
def execVsel (hi : Hint) (d a b : VIx) (s : State) : Out :=
  withVec [a.toNat, b.toNat] [d.toNat] s fun h s =>
    let tags := h.oneWidth [d.toNat, a.toNat, b.toNat]
    let es := ((upto h.vl).filter fun i => h.vstart ≤ i).map fun i =>
      (i, ERes.pure (if h.maskBit i then h.codeAt a.toNat i else h.codeAt b.toNat i))
    checked (vcheck (.vsel hi d a b) h (codeReq false tags (h.caps s [d.toNat, a.toNat, b.toNat]))) s
      (deliverElems d.toNat (h.tagAt d.toNat).width es h s)

def execVmov (hi : Hint) (d a : VIx) (s : State) : Out :=
  codes (.vmov hi d a) d [a] false (fun h => h.oneWidth [d.toNat, a.toNat]) (fun h i => h.codeAt a.toNat i) s

def execVsplat (hi : Hint) (d : VIx) (a : XIx) (s : State) : Out :=
  codes (.vsplat hi d a) d [] false (fun h => h.oneWidth [d.toNat])
    (fun h _ => (h.getX a).toNat % 2 ^ (h.tagAt d.toNat).width) s

def execVidx (step : BitVec 9) (start : BitVec 10) (d : VIx) (s : State) : Out :=
  codes (.vidx step start d) d [] false (fun h => h.intTag d.toNat)
    (fun h i => wrap (h.tagAt d.toNat).width (start.toInt + (i : Int) * step.toInt)) s

/-- VMVX: an element's code to a scalar register, 0 past the capacity. -/
def execVmvx (hi : Hint) (d : XIx) (a : VIx) (b : XIx) (s : State) : Out :=
  withRegs [a.toNat] [] s fun h s =>
    match h.tag a.toNat with
    | none => trapOut (illegal (.vmvx hi d a b)) s
    | some t =>
      let k := (h.getX b).toNat
      vToX d (if k < t.capacity s.vlen then extendCode t.fmt (h.codeAt a.toNat k) else 0) h s

/-- VMXV: a scalar code to an element, nothing past the capacity. -/
def execVmxv (hi : Hint) (d : VIx) (a b : XIx) (s : State) : Out :=
  withRegs [] [d.toNat] s fun h s =>
    match h.tag d.toNat with
    | none => trapOut (illegal (.vmxv hi d a b)) s
    | some t =>
      let k := (h.getX b).toNat
      let es := if k < t.capacity s.vlen then [(k, (h.getX a).toNat % 2 ^ t.width)] else []
      .next (s.setMe ((h.putElems d.toNat t.width es).trimV s.vlen d.toNat t.width !es.isEmpty).vdone)

/-! ## Slides and permutes (15 R286, R287) -/

/-- The scalar register after an even one. -/
def pairOf (b : XIx) : XIx := b + 1

/-- The code that a slide inserts. -/
def slideIn (h : Hart) (d : VIx) (b : XIx) : Nat := (h.getX (pairOf b)).toNat % 2 ^ (h.tagAt d.toNat).width

def execVslu (hi : Hint) (d a : VIx) (b : XIx) (s : State) : Out :=
  codes (.vslu hi d a b) d [a] true (fun h => h.oneWidth [d.toNat, a.toNat])
    (fun h i => let n := (h.getX b).toNat; if n ≤ i then h.codeAt a.toNat (i - n) else slideIn h d b) s

def execVsld (hi : Hint) (d a : VIx) (b : XIx) (s : State) : Out :=
  codes (.vsld hi d a b) d [a] true (fun h => h.oneWidth [d.toNat, a.toNat])
    (fun h i => let n := (h.getX b).toNat; if i + n < h.vl then h.codeAt a.toNat (i + n) else slideIn h d b) s

def execVperm (hi : Hint) (d a b : VIx) (s : State) : Out :=
  codes (.vperm hi d a b) d [a, b] true (fun h => h.oneWidth [d.toNat, a.toNat] && h.intTag b.toNat)
    (fun h i => let k := h.codeAt b.toNat i; if k < h.vl then h.codeAt a.toNat k else 0) s

def execVrev (hi : Hint) (d a : VIx) (s : State) : Out :=
  codes (.vrev hi d a) d [a] true (fun h => h.oneWidth [d.toNat, a.toNat])
    (fun h i => h.codeAt a.toNat (h.vl - 1 - i)) s

/-! ## Reductions of logic (15 R288) -/

/-- The shape: the active codes of vA combined, to element 0 of vD. -/
def logicReduce (i : Instr) (d a : VIx) (init : Nat → Nat) (f : Nat → Nat → Nat) (s : State) : Out :=
  withVec [a.toNat] [d.toNat] s fun h s =>
    let w := (h.tagAt d.toNat).width
    let x := h.actives.foldl (fun x e => f x (h.codeAt a.toNat e)) (init w)
    checked (vcheck i h (codeReq true (h.oneWidth [d.toNat, a.toNat]) (h.caps s [a.toNat]))) s
      (deliverElems d.toNat w [(0, ERes.pure x)] h s)

def execVrand (hi : Hint) (d a : VIx) (s : State) : Out :=
  logicReduce (.vrand hi d a) d a ones (fun x y => x &&& y) s
def execVror (hi : Hint) (d a : VIx) (s : State) : Out :=
  logicReduce (.vror hi d a) d a (fun _ => 0) (fun x y => x ||| y) s
def execVrxor (hi : Hint) (d a : VIx) (s : State) : Out :=
  logicReduce (.vrxor hi d a) d a (fun _ => 0) (fun x y => x ^^^ y) s

/-! ## Masks (15 R289, R290) -/

/-- The active elements whose bit in register a is 1. -/
def Hart.setBits (h : Hart) (a : VIx) : List Nat := h.actives.filter fun i => bit (h.getV a.toNat).bits.toNat i

/-- The shape of a mask count. -/
def maskCount (i : Instr) (d : XIx) (a : VIx) (f : List Nat → Word) (s : State) : Out :=
  withVec [a.toNat] [] s fun h s =>
    checked (vcheck i h (codeReq true (h.maskTag a.toNat) (h.caps s [a.toNat]))) s (vToX d (f (h.setBits a)) h s)

def execVmcnt (hi : Hint) (d : XIx) (a : VIx) (s : State) : Out :=
  maskCount (.vmcnt hi d a) d a (fun l => BitVec.ofNat 64 l.length) s

def execVmfst (hi : Hint) (d : XIx) (a : VIx) (s : State) : Out :=
  maskCount (.vmfst hi d a) d a
    (fun l => match l with
      | [] => BitVec.allOnes 64
      | i :: _ => BitVec.ofNat 64 i) s

/-- The shape of a branch on a mask: it is taken when "some active bit is set" equals `want`. -/
def maskBranch (i : Instr) (want : Bool) (off : BitVec 13) (a : VIx) (s : State) : Out :=
  withVec [a.toNat] [] s fun h s =>
    checked (vcheck i h (codeReq false (h.maskTag a.toNat) (h.caps s [a.toNat]))) s
      (if (!(h.setBits a).isEmpty) = want then jumpTo (branchTarget h off) (h.setVstart 0) s
       else .next (s.setMe h.vdone))

def execVbany (off : BitVec 13) (a : VIx) (s : State) : Out := maskBranch (.vbany off a) true off a s
def execVbnone (off : BitVec 13) (a : VIx) (s : State) : Out := maskBranch (.vbnone off a) false off a s

end Sys2Proof.Machine
end

