-- ==== Sys2Proof/Machine/VecConv.lean ====
section
/-! DEFINITION. Conversion, quantisation and transformation (spec 16 R291 to R303; 11 R220). -/

namespace Sys2Proof.Machine

/-- A source of quantisation and a destination of dequantisation: f16, bf16, f32 or f64. -/
def Tag.isFloat (t : Tag) : Bool := t.scale = none && t.fmt.isIeee

/-- A plain MX or ts8 tag. -/
def Tag.isPlainMx (t : Tag) : Bool := t.scale = none && t.fmt.isMx

/-- A block-scaled tag. -/
def Tag.isScaled (t : Tag) : Bool := t.scale ≠ none

/-! ## VCVT (16 R294) -/

/-- Convert from one tag to another; between integer tags it saturates without a flag (11 R204). -/
def convertTag (both : Bool) (dst : Fmt) (r : Rnd) (v : Val) : ERes :=
  match both, v with
  | true, .fin d => ERes.pure (satInt dst (d.at 0))
  | _, v => let p := convert dst r v; { code := p.1, flags := p.2, quiet := 0 }

def execVcvt (hi : Hint) (r : RCode) (d a : VIx) (s : State) : Out :=
  withVec [a.toNat] [d.toNat] s fun h s =>
    let td := h.tagAt d.toNat
    let ta := h.tagAt a.toNat
    let both := td.isInt && ta.isInt
    let q : VReq := { zeroStart := false, tags := tagIs (h.tag a.toNat) srcOk && tagIs (h.tag d.toNat) dstOk,
                      mask := true, round := both || h.modeOk r td.fmt, caps := h.caps s [d.toNat, a.toNat] }
    checked (vcheck (.vcvt hi r d a) h q) s
      (elementwise d.toNat td.width
        (fun i => convertTag both td.fmt (h.rnd (h.modeD r) i) (h.elem a.toNat ta i)) h s)

/-! ## Block scales (11 R207, R220) -/

/-- Exponent of the largest power of two that a format holds. -/
def Fmt.emax : Fmt → Int
  | .e4m3 => 8
  | .e5m2 => 15
  | .e3m2 => 4
  | .e2m3 => 2
  | .e2m1 => 2
  | _ => 0

/-- The scale of a block whose active values are given. -/
def blockScale (f : Fmt) (xs : List Val) : Nat :=
  if xs.any fun v => v.isNan || v.isInf then 0xFF
  else
    let tops := xs.filterMap fun v =>
      match v with
      | .fin d => if d.mag = 0 then none else some d.top
      | _ => none
    match tops with
    | [] => 0
    | t :: ts => (max 0 (min 254 (ts.foldl max t - f.emax + 127))).toNat

/-- An element of a block: Convert of the value over its scale; under the NaN scale, of the value itself. -/
def blockElem (f : Fmt) (sc : Nat) (r : Rnd) (v : Val) : Nat × Nat :=
  match v with
  | .fin d => convert f r (if sc = 0xFF then .fin d else .fin (d.shift (127 - (sc : Int))))
  | v => convert f r v

/-- A quantised block: its number, its scale, and its active elements with the value that each had. -/
structure Block where
  b : Nat
  sc : Nat
  elems : List (Nat × Val × Nat × Nat)

/-- The blocks of a register of values (16 R295): `x i` is the value of element i. -/
def quantise (f : Fmt) (m : RMode) (x : Nat → Val) (h : Hart) : List Block :=
  (upto (cdiv h.vl 32)).map fun b =>
    let act := ((upto 32).map fun j => 32 * b + j).filter h.active
    let sc := blockScale f (act.map x)
    { b := b, sc := sc, elems := act.map fun i => (i, x i, blockElem f sc (h.rnd m i) (x i)) }

/-- A scale register after the scale bytes of blocks in a half are written. -/
def Hart.putScales (h : Hart) (k half : Nat) (bs : List Block) : Hart :=
  match bs with
  | [] => h
  | _ =>
    h.setK k (BitVec.ofNat 2048 (bs.foldl (fun x (b : Block) => putElt x 8 (128 * half + b.b) b.sc) (h.getK k).bits.toNat))

/-- The lowest element whose flags meet the trap enables (11 R226). -/
def trapElem (h : Hart) (es : List (Nat × Nat)) : Option Nat :=
  ((es.filter fun e => e.2 &&& h.trapEnables ≠ 0).map (·.1)).foldl
    (fun m i => match m with
      | some k => some (min k i)
      | none => some i) none

/-- Writes quantised elements and their scales, and for VQEF the residuals in register e; or traps. -/
def deliverBlocks (d : VIx) (t : Tag) (bs : List Block) (residual : Option (VIx × List (Nat × Nat × Nat)))
    (extra : List (Nat × Nat)) (h : Hart) (s : State) : Out :=
  let es : List (Nat × Val × Nat × Nat) := bs.flatMap Block.elems
  let res : List (Nat × Nat × Nat) := match residual with
    | some p => p.2
    | none => []
  let fl := es.map (fun (e : Nat × Val × Nat × Nat) => (e.1, e.2.2.2))
    ++ res.map (fun (e : Nat × Nat × Nat) => (e.1, e.2.2)) ++ extra
  match trapElem h fl with
  | some i => trapOut { cause := 0x14, elem := i } s
  | none =>
    let h := (h.putElems d.toNat t.width (es.map fun e => (e.1, e.2.2.1))).trimV s.vlen d.toNat t.width !es.isEmpty
    let h := match residual with
      | some p => h.putElems p.1.toNat 32 (p.2.map fun (e : Nat × Nat × Nat) => (e.1, e.2.1))
      | none => h
    let h := match t.scale with
      | some k => h.putScales k.1 k.2 bs
      | none => h
    .next (s.setMe (h.accrue (BitVec.ofNat 8 (fl.foldl (fun f e => f ||| e.2) 0))).vdone)

def execVqmx (hi : Hint) (r : RCode) (d a : VIx) (s : State) : Out :=
  withVec [a.toNat] [d.toNat] s fun h s =>
    let td := h.tagAt d.toNat
    let ta := h.tagAt a.toNat
    let q : VReq := { zeroStart := true, tags := tagIs (h.tag a.toNat) Tag.isFloat && tagIs (h.tag d.toNat) Tag.isScaled,
                      mask := true, round := h.modeOk r td.fmt, caps := h.caps s [d.toNat, a.toNat] }
    checked (vcheck (.vqmx hi r d a) h q) s
      (deliverBlocks d td (quantise td.fmt (h.modeD r) (h.elem a.toNat ta) h) none [] h s)

def execVdqmx (hi : Hint) (r : RCode) (d a : VIx) (k : KIx) (half : Half) (s : State) : Out :=
  withVec [a.toNat] [d.toNat] s fun h s =>
    let td := h.tagAt d.toNat
    let ta := h.tagAt a.toNat
    let t : Tag := { ta with scale := some (k.toNat, if half = .hi then 1 else 0) }
    let q : VReq := { zeroStart := true, tags := tagIs (h.tag a.toNat) Tag.isPlainMx && tagIs (h.tag d.toNat) Tag.isFloat,
                      mask := true, round := h.modeOk r td.fmt, caps := h.caps s [d.toNat, a.toNat] }
    checked (vcheck (.vdqmx hi r d a k half) h q) s
      (elementwise d.toNat td.width
        (fun i => convertTag false td.fmt (h.rnd (h.modeD r) i) (h.elem a.toNat t i)) h s)

/-! ## VQEF (16 R298) -/

/-- The residual of an element: y − value(q) · 2^(S−127), rounded to f32 with rne; +0.0 when exactly zero, or under the
NaN scale. Where q is an infinity the sum has no finite value, and the residual is the infinity of the opposite sign, with no
flag (log entry 56). -/
def residualOf (f : Fmt) (sc : Nat) (e : Nat × Val × Nat × Nat) : Nat × Nat × Nat :=
  if sc = 0xFF then (e.1, 0, 0)
  else
    let r := addV false e.2.1 (negV (scaled sc (f.value e.2.2.1)))
    let p := if r.v.isZero then (0, 0) else convert .f32 Rnd.rne r.v
    (e.1, p.1, r.flags ||| p.2)

def execVqef (hi : Hint) (r : RCode) (d a b : VIx) (s : State) : Out :=
  withVec [a.toNat, b.toNat] [d.toNat, b.toNat] s fun h s =>
    let td := h.tagAt d.toNat
    let f32 : Tag := { fmt := .f32, scale := none }
    let q : VReq := { zeroStart := true,
                      tags := h.tag a.toNat = some f32 && h.tag b.toNat = some f32
                        && tagIs (h.tag d.toNat) fun t => t.isScaled && (t.fmt = .e4m3 || t.fmt = .e5m2),
                      mask := true, round := h.modeOk r td.fmt, caps := h.caps s [d.toNat, a.toNat, b.toNat] }
    let sum := fun i => addC .f32 (h.elem a.toNat f32 i, 0) (h.elem b.toNat f32 i, 0)
    let bs := quantise td.fmt (h.modeD r) (fun i => (sum i).1) h
    let res := bs.flatMap fun k => k.elems.map (residualOf td.fmt k.sc)
    checked (vcheck (.vqef hi r d a b) h q) s
      (deliverBlocks d td bs (some (b, res)) (h.actives.map fun i => (i, (sum i).2)) h s)

/-! ## Bit fields (16 R299, R300) -/

/-- The descriptor in x(B): offset, sign extension and field width; none where it is not usable with a width w. -/
def fieldDesc (x : Word) (w : Nat) (pack : Bool) : Option (Nat × Bool × Nat) :=
  let n := x.toNat
  let f := n % 128
  if fld n 63 24 ≠ 0 || f = 0 || w < f || (pack && bit n 7) then none else some (fld n 23 8, bit n 7, f)

def execVunpk (hi : Hint) (d a : VIx) (b : XIx) (s : State) : Out :=
  withVec [a.toNat] [d.toNat] s fun h s =>
    let w := (h.tagAt d.toNat).width
    let p := fieldDesc (h.getX b) w false
    let tags := h.intTag d.toNat && tagIs (h.tag a.toNat) srcOk && p.isSome
    let q := p.getD (0, false, 1)
    let x := (h.getV a.toNat).bits.toNat % 2 ^ s.vlen
    let one := fun i =>
      let c := elt (x >>> q.1) q.2.2 i
      ERes.pure (if q.2.1 then wrap w (sgn q.2.2 c) else c)
    checked (vcheck (.vunpk hi d a b) h (codeReq false tags (h.caps s [d.toNat]))) s
      (elementwise d.toNat w one h s)

/-- VPKB (16 R300). It keeps every bit of vD that no active field covers, above the last whole element too (log entry 103).
Since it keeps bits of vD, it counts as a reader of vD, which waits or traps for a follow-on's register (19 R345, log entry
107). -/
def execVpkb (hi : Hint) (d a : VIx) (b : XIx) (s : State) : Out :=
  withVec [a.toNat, d.toNat] [d.toNat] s fun h s =>
    let p := fieldDesc (h.getX b) (h.tagAt a.toNat).width true
    let tags := h.intTag a.toNat && tagIs (h.tag d.toNat) srcOk && p.isSome
    let q := p.getD (0, false, 1)
    -- bits above V or above the last whole element are discarded
    let top := (h.tagAt d.toNat).capacity s.vlen * (h.tagAt d.toNat).width
    let v := h.getV d.toNat
    -- fields of which a bit is written
    let fields := h.actives.filter fun i => q.1 + i * q.2.2 < top
    let bits := fields.foldl (fun x i => put x (q.1 + i * q.2.2) q.2.2 (h.codeAt a.toNat i)) v.bits.toNat
    let last := fields.foldl (fun m i => max m (q.1 + (i + 1) * q.2.2)) 0
    let v' := if fields.isEmpty then v
      else v.write (put v.bits.toNat 0 top (bits % 2 ^ top)) (cdiv (min last top) 8)
    checked (vcheck (.vpkb hi d a b) h (codeReq false tags (h.caps s [a.toNat]))) s
      (.next (s.setMe (h.setV d.toNat v').vdone))

/-! ## Table lookup (16 R301) -/

/-- Registers that hold a table of 256 entries of width w. -/
def lutGroup (b : VIx) (w vlen : Nat) : List Nat := group b.toNat (cdiv (256 * w) vlen)

/-- A register group as one bit string. -/
def Hart.groupBits (h : Hart) (vlen : Nat) (ns : List Nat) : Nat :=
  ns.foldr (fun n x => (h.getV n).bits.toNat % 2 ^ vlen + x <<< vlen) 0

def execVlut (hi : Hint) (d a b : VIx) (s : State) : Out :=
  withHart s fun h0 =>
    let ns := lutGroup b (h0.tagAt b.toNat).width s.vlen
    withVec (a.toNat :: ns) [d.toNat] s fun h s =>
      let w := (h.tagAt b.toNat).width
      let tags := h.intTag a.toNat && tagIs (h.tag b.toNat) (fun _ => true)
        && tagIs (h.tag d.toNat) (fun t => t.fmt ≠ .m1 && t.width = w) && ns.all fun n => n < 64
      let table := h.groupBits s.vlen ns
      checked (vcheck (.vlut hi d a b) h (codeReq false tags (h.caps s [d.toNat, a.toNat]))) s
        (elementwise d.toNat w (fun i => ERes.pure (elt table w (h.codeAt a.toNat i % 256))) h s)

/-! ## Expand and compress (16 R302) -/

/-- The shape: which element of vA goes to which of vD, from the active elements in order. -/
def moveRun (i : Instr) (d a : VIx) (f : Nat → Nat → Nat × Nat) (s : State) : Out :=
  withVec [a.toNat] [d.toNat] s fun h s =>
    let es := (h.actives.zipIdx).map fun p => let m := f p.1 p.2; (m.1, ERes.pure (h.codeAt a.toNat m.2))
    checked (vcheck i h (codeReq true (h.oneWidth [d.toNat, a.toNat]) (h.caps s [d.toNat, a.toNat]))) s
      (deliverElems d.toNat (h.tagAt d.toNat).width es h s)

def execVexpd (hi : Hint) (d a : VIx) (s : State) : Out := moveRun (.vexpd hi d a) d a (fun i k => (i, k)) s
def execVcmpr (hi : Hint) (d a : VIx) (s : State) : Out := moveRun (.vcmpr hi d a) d a (fun i k => (k, i)) s

/-! ## KMOV (16 R303) -/

/-- Whether a register is tagged i8 or n8. -/
def Hart.byteTag (h : Hart) (n : Nat) : Bool :=
  tagIs (h.tag n) fun t => t.scale = none && (t.fmt = .i8 || t.fmt = .n8)

def execKmov (hi : Hint) (f : KmovForm) (s : State) : Out :=
  match f with
  | .kk d a => withRegs [] [] s fun h s => .next (s.setMe (h.setK d.toNat (h.getK a.toNat).bits).vdone)
  | .vk d a m =>
    withVec [] [d.toNat] s fun h s =>
      let q := codeReq false (h.byteTag d.toNat) ((256 - 64 * m.toNat) :: h.caps s [d.toNat])
      checked (vcheck (.kmov hi f) h q) s
        (elementwise d.toNat 8 (fun i => ERes.pure (elt (h.getK a.toNat).bits.toNat 8 (64 * m.toNat + i))) h s)
  | .kv d a m =>
    withVec [a.toNat] [] s fun h s =>
      let q := codeReq false (h.byteTag a.toNat) ((256 - 64 * m.toNat) :: h.caps s [a.toNat])
      let bits := h.actives.foldl (fun x i => putElt x 8 (64 * m.toNat + i) (h.codeAt a.toNat i))
        (h.getK d.toNat).bits.toNat
      checked (vcheck (.kmov hi f) h q) s
        (.next (s.setMe (if h.actives.isEmpty then h else h.setK d.toNat (BitVec.ofNat 2048 bits)).vdone))

end Sys2Proof.Machine
end

