-- ==== Sys2Proof/Machine/VecMem.lean ====
section
/-! DEFINITION. Vector loads and stores, whole-register and scale-register moves, prefetch and the VAMO family (spec 17
R304 to R318; 01 R23; 05 R97, R98, R109; 10 R185). -/

namespace Sys2Proof.Machine

/-! ## Elements and their accesses (17 R304, R305) -/

/-- The accesses of element i of width w at an offset: one, or one for each byte that a narrow element touches. -/
def elemReqs (rw : Rw) (g : Nat) (col : Bool) (w : Nat) (off : Nat → Word) (i : Nat) : List Req :=
  if 8 ≤ w then
    [{ rw := rw, g := g, off := off i, n := w / 8, align := w / 8, elem := i, ew := w, col := col }]
  else
    (upto (cdiv (i * w % 8 + w) 8)).map fun j =>
      { rw := rw, g := g, off := off i + BitVec.ofNat 64 j, n := 1, align := 1, elem := i, ew := w, col := col }

/-- A checked access as a piece of its element. -/
def Req.piece (r : Req) (c : Acc × FilterEntry × Nat) : Piece :=
  { i := r.elem, last := r.elem, a := c.1, e := c.2.1, cell := c.2.2, n := r.n, x := 0 }

/-- The segment checks of a whole element (01 R22, R23). -/
def elemSegCheck (h : Hart) (rs : List Req) : Option Nat :=
  (rs.head?).bind fun r => segCheck (h.getG r.g) { r with n := rs.foldl (fun n q => n + q.n) 0 }

/-- The checks of an element that touches two bytes (01 R22, R23; 02 R31): the segment checks of the whole element, the
presence of both bytes, the rights of both, then their orientation. Its records name its first byte. -/
def checkPair (r q : Req) (h : Hart) (requester : Bool) (s : State) (batch : List FilterEntry := []) :
    Res (List Piece) :=
  let a := r.acc h s.cur requester
  let b := { q.acc h s.cur requester with off := a.off, rva := a.rva }
  match elemSegCheck h [r, q] with
  | some c => .stop (.trap (if c = 0x05 ∨ c = 0x06 then a.segFault c else a.fault c)) s
  | none =>
    (present a r.rw r.n s batch).bind fun e s =>
      (present b q.rw q.n s (e :: batch)).bind fun f s =>
        match firstSome [rightsCheck a r.rw e, rightsCheck b q.rw f, orientCheck a e, orientCheck b f] with
        | some t => .stop (.trap t) s
        | none => .ok [r.piece (a, e, cellOf a e), q.piece (b, f, cellOf b f)] s

/-- Every check of one element (17 R307). -/
def checkElem (h : Hart) (requester : Bool) (rs : List Req) (s : State) (batch : List FilterEntry := []) :
    Res (List Piece) :=
  match rs with
  | [] => .ok [] s
  | [r] => (checkReq r h requester s batch).bind fun c s => .ok [r.piece c] s
  | r :: q :: _ => checkPair r q h requester s batch

/-- Runs an operation over the elements of an instruction in rising order, up to the lowest that it fails for: what it
gave for those below, and that element. Nothing of the failure itself is kept: it may not come to it, since a lower
element may fail a later check. -/
def upToFailure {α β : Type} (f : α → State → Res β) (elem : α → Nat) : List α → List β → State →
    Res (List β × Option Nat)
  | [], acc, s => .ok (acc.reverse, none) s
  | p :: t, acc, s =>
    match f p s with
    | .ok q s => upToFailure f elem t (q :: acc) s
    | .stop (.trap _) _ => .ok (acc.reverse, some (elem p)) s
    | .stop .wait s => .stop .wait s

/-- Number of an element, from its accesses. -/
def reqsElem (rs : List Req) : Nat := (rs.head?.map Req.elem).getD 0

/-- The pages of the batch that an instruction is checking, with those of an element that has passed. -/
def batchWith (batch : List FilterEntry) (ps : List Piece) : List FilterEntry :=
  ps.foldl (fun b p => if b.any p.e.samePage then b else p.e :: b) batch

/-- The batch goes on while its pages leave the filter two places for the next element; then it has passed, and another
begins (04 R86). -/
def State.batchOf (s : State) (batch : List FilterEntry) : List FilterEntry :=
  let kept := (s.core s.myCore).filter.filter fun q => batch.any q.samePage
  if kept.length ≤ 510 then batch else []

/-- Applies every check to the elements in rising order, batch by batch (04 R86): what `upToFailure` answers. -/
def checkBatches (h : Hart) : List (List Req) → List FilterEntry → List (List Piece) → State →
    Res (List (List Piece) × Option Nat)
  | [], _, acc, s => .ok (acc.reverse, none) s
  | rs :: t, batch, acc, s =>
    let batch := s.batchOf batch
    match checkElem h true rs s batch with
    | .ok ps s => checkBatches h t (batchWith batch ps) (ps :: acc) s
    | .stop (.trap _) _ => .ok (acc.reverse, some (reqsElem rs)) s
    | .stop .wait s => .stop .wait s

/-- Applies every check to every active element in order (17 R307): the accesses of the elements below the lowest that
fails, and that element. -/
def checkElems (h : Hart) (els : List (List Req)) (s : State) : Res (List Piece × Option Nat) :=
  (checkBatches h els [] [] s).bind fun c s => .ok (c.1.flatten, c.2) s

/-- The lower of two elements that fail; the first is the lower where there is one. -/
def lower (a b : Option Nat) : Option Nat :=
  match a with
  | some e => some e
  | none => b

/-- The accesses of one element. -/
def reqsOf (els : List (List Req)) (e : Nat) : List Req := ((els.find? fun rs => reqsElem rs = e).getD [])

/-- Whether an element fails at its segment or at its orientation, which are both found before its instruction enters the
memory pipeline (01 R23, 02 R31). -/
def earlyFails (h : Hart) (rs : List Req) (s : State) : Bool :=
  (elemSegCheck h rs).isSome ||
    match checkElem h false rs s with
    | .stop (.trap f) _ => f.cause = 0x0A
    | _ => false

/-- The trap of an instruction that could not be restarted on a device page (04 R82), at its lowest element there.
`restart` says that it is VLDF or an unordered form. -/
def classTrap (h : Hart) (restart : Bool) (ps : List Piece) (els : List (List Req)) : Option FRec :=
  match ps.find? fun p => p.e.attr.mc = .device with
  | none => none
  | some p =>
    let one := els.flatten.all fun r => p.e.covers p.a.space (segBase (h.getG r.g) + r.off.toNat)
    if restart || h.vstart ≠ 0 || !one then some { p.a.fault 0x0E with ew := 0 } else none

/-- A hart whose instruction has performed some accesses (10 R192 step 1). -/
def Hart.pinBy (h : Hart) (ps : List Piece) : Hart := h.pin (ps.any fun p => p.e.attr.mc ≠ .normal)

/-- A hart as it was, with the mark of an access that its instruction has made meanwhile (10 R192 step 1). -/
def Hart.pinAs (h : Hart) (s : State) : Hart := h.pin (s.me.any fun q => q.pinned = some h.seq)

/-- Ends an instruction at element e: the elements below are completed, vstart is e, and it traps (05 R109). -/
def trapAt (e : Nat) (f : FRec) (h : Hart) (s : State) : Out := trapOut f (s.setMe (h.setVstart e))

/-- Ends an instruction whose elements below e have been performed, as its checks of e go: it traps there, or goes on
from e. -/
def stopAt {α : Type} (e : Nat) (r : Res α) (h : Hart) : Out :=
  match r with
  | .stop (.trap f) s => trapAt e f h s
  | .stop .wait s => .next (s.setMe (h.setVstart e))
  | .ok _ s => .next (s.setMe (h.setVstart e))

/-! ## Footprint and bypass (03 R49) -/

/-- Whether a footprint in bits exceeds `bthr`. -/
def Hart.bypasses (h : Hart) (bits : Nat) : Bool :=
  let b := h.ctl.bthr.toNat % 2 ^ 32
  b ≠ 0 && decide (8 * b < bits)

/-- Footprint of a strided form in bits. -/
def strideBits (h : Hart) (w : Nat) : Nat := h.vl * max (8 * h.ctl.vs.toInt.natAbs) w

/-! ## Performing loads -/

/-- Reads the accesses of a load in element order, up to the first that traps. -/
def loadPieces (bypass : Bool) : List Piece → List (Nat × Nat × Nat) → State →
    Res (List (Nat × Nat × Nat) × Option (Nat × FRec))
  | [], acc, s => .ok (acc.reverse, none) s
  | p :: t, acc, s =>
    match readCell p.a p.e p.cell p.n bypass s with
    | .ok x s => loadPieces bypass t ((p.i, p.n, x) :: acc) s
    | .stop (.trap f) s => .ok ((acc.reverse.filter fun q => q.1 < p.i), some (p.i, f)) s
    | .stop .wait s => .stop .wait s

/-- Puts the bytes of each element together. -/
def gather (l : List (Nat × Nat × Nat)) : List (Nat × Nat) :=
  let acc : List (Nat × Nat × Nat) := l.foldl (fun acc p =>
    match acc with
    | q :: t => if q.1 = p.1 then (q.1, q.2.1 + 8 * p.2.1, q.2.2 + p.2.2 <<< q.2.1) :: t
                else (p.1, 8 * p.2.1, p.2.2) :: acc
    | [] => [(p.1, 8 * p.2.1, p.2.2)]) []
  acc.reverse.map fun q => (q.1, q.2.2)

/-- The code of element i of width w in the bytes that it touches. -/
def codeOf (w : Nat) (p : Nat × Nat) : Nat × Nat := (p.1, (p.2 >>> (if w < 8 then p.1 * w % 8 else 0)) % 2 ^ w)

/-- Register-sized entries that a pending load takes in the load-data queue (08 R164). -/
def PendingLoad.entries : PendingLoad → Nat
  | .v _ _ => 1
  | .vv _ _ _ _ => 2
  | .k _ _ => 1

/-- Entries of the load-data queue that some loads fill. -/
def queueUsed (l : List PendingLoad) : Nat := l.foldl (fun n p => n + p.entries) 0

/-- Delivers a hart's oldest loads until at most n entries of its load-data queue are filled. -/
def Hart.deliverTo (n : Nat) : List PendingLoad → Hart → Hart
  | [], h => { h with loads := [] }
  | p :: t, h => if queueUsed (p :: t) ≤ n then { h with loads := p :: t } else Hart.deliverTo n t (h.deliver p)

/-- Makes registers pending with their new values (17 R308). The load-data queue holds 16 entries (08 R164): a load that
finds it full waits until its oldest loads have been delivered (09 R174). -/
def Hart.owe (h : Hart) (p : PendingLoad) : Hart :=
  let h := if queueUsed h.loads + p.entries ≤ 16 then h else h.deliverTo (16 - p.entries) h.loads
  { h with loads := h.loads ++ [p] }

/-- What the register of a pending load held before it (10 R180). -/
def Hart.priorOf (h : Hart) (p : PendingLoad) : RegPrior :=
  match p with
  | .v d _ => .v d (h.getV d.toNat)
  | .vv d _ _ _ => .v d (h.getV d.toNat)
  | .k d _ => .k d (h.getK d.toNat)

/-- Ends a load whose elements below a poisoned one were read: its register is pending with them, and it retires or
traps (05 R115). -/
def endLoad (fofl : Bool) (p : Option PendingLoad) (bad : Option (Nat × FRec)) (h : Hart) (s : State) : Out :=
  let h := match p with
    | some p => h.owe p
    | none => h
  match bad with
  | none => .next (s.setMe h.vdone)
  | some (e, f) =>
    -- fault-only-first (10 R185)
    if fofl && decide (h.vstart < e) && f.cause ≠ 0x0D then .next (s.setMe (h.setVl e).vdone)
    else trapAt e f h s

/-- Ends a load whose element e failed its checks, which are made again for its trap; a fault-only-first load above
vstart ends there, and the host entry that e makes has no requester (10 R185). One whose element e does not fail any more has
written nothing, and begins again; only where it has read a page that is not of the normal class (`off`) does it keep what
it has read, as a register that it holds in part (10 R180, R192). -/
def endLoadAt (fofl off : Bool) (p : Option PendingLoad) (e : Nat) (rs : List Req) (h : Hart) (s : State) : Out :=
  let done := match p with
    | some p => h.owe p
    | none => h
  if fofl && decide (h.vstart < e) then
    match checkElem h false rs s with
    | .ok _ s => .next (s.setMe (done.setVl e).vdone)
    | .stop _ s => .next (s.setMe (done.setVl e).vdone)
  else
    let part := match p with
      | some p => ((h.keepPrior (h.priorOf p)).owe p).pin true
      | none => h
    match checkElem h true rs s with
    | .stop (.trap f) s => trapAt e f done s
    | .stop .wait s => .next (s.setMe (if off then part.setVstart e else h))
    | .ok _ s => .next (s.setMe (if off then part.setVstart e else h))

/-- A load after its issue checks: `put` makes the pending register from the elements that were read. -/
def loadElems (fofl restart bypass : Bool) (els : List (List Req)) (put : List (Nat × Nat) → PendingLoad) (h : Hart)
    (s : State) : Out :=
  match checkElems h els s with
  | .stop (.trap f) s => trapOut f s
  | .stop .wait s => .next s
  | .ok c s =>
    match classTrap h (fofl || restart) c.1 els with
    | some f => trapOut f s
    | none =>
      match loadPieces bypass c.1 [] s with
      | .stop (.trap f) s => trapOut f s
      | .stop .wait s => .next (s.setMe (h.pinBy c.1))
      | .ok r s =>
        let es := gather r.1
        let p := if es.isEmpty then none else some (put es)
        match r.2, c.2 with
        | none, some e => endLoadAt fofl (c.1.any fun q => q.e.attr.mc ≠ .normal) p e (reqsOf els e) h s
        | bad, _ => endLoad fofl p bad h s

/-- A vector load. -/
def vload (d : VIx) (w : Nat) (fofl restart bypass : Bool) (els : List (List Req)) (h : Hart) (s : State) : Out :=
  loadElems fofl restart bypass els
    (fun es => .v d (((h.getV d.toNat).putAll w (es.map (codeOf w))).tail s.vlen w)) h s

/-! ## Performing stores (17 R306, R307; 05 R97, R98) -/

/-- The accesses of one byte of a store of narrow elements put together: its bits, and the mask of the bits that
processed elements write. Elements rise, so a byte's accesses stand next to each other. -/
def mergeNarrow (w : Nat) (code : Nat → Nat) (ps : List Piece) : List (Piece × Nat) :=
  let bitsOf := fun (p : Piece) (k : Nat) => (code p.i <<< (p.i * w % 8)) >>> (8 * k) % 256
  let maskOf := fun (p : Piece) (k : Nat) => (ones w <<< (p.i * w % 8)) >>> (8 * k) % 256
  let step := fun (acc : List (Piece × Nat) × Option Nat × Nat) (p : Piece) =>
    let k := if acc.2.1 = some p.i then acc.2.2 + 1 else 0
    match acc.1 with
    | q :: t =>
      if q.1.a.va = p.a.va then (({ q.1 with last := p.i, x := q.1.x ||| bitsOf p k }, q.2 ||| maskOf p k) :: t, some p.i, k)
      else (({ p with x := bitsOf p k }, maskOf p k) :: acc.1, some p.i, k)
    | [] => ([({ p with x := bitsOf p k }, maskOf p k)], some p.i, k)
  (ps.foldl step ([], none, 0)).1.reverse

/-- Marks the current hart's instruction after an access to a page that is not of the normal class (10 R192 step 1). -/
def State.pinMe (s : State) (p : Piece) : State :=
  match s.me with
  | some h => s.setMe (h.pin (p.e.attr.mc ≠ .normal))
  | none => s

/-- Reads the bits that a byte covered in part keeps (17 R306). -/
def keepBits (bypass : Bool) (q : Piece × Nat) (s : State) : Res Piece :=
  if q.2 = 0xFF then .ok q.1 s
  else
    (readCell q.1.a q.1.e q.1.cell 1 bypass s).bind fun old s =>
      .ok { q.1 with x := q.1.x ||| (old &&& (0xFF - q.2)) } (s.pinMe q.1)

/-- The bytes of narrow elements, up to the lowest element whose byte cannot be read: no bit of it or of a higher one is
in them (17 R307). -/
def narrowPieces (bypass : Bool) (w : Nat) (code : Nat → Nat) : Nat → List Piece → State →
    Res (List Piece × Option Nat)
  | 0, _, s => .ok ([], none) s
  | fuel + 1, ps, s =>
    match upToFailure (keepBits bypass) (fun q => q.1.i) (mergeNarrow w code ps) [] s with
    | .stop e s => .stop e s
    | .ok (ks, none) s => .ok (ks, none) s
    | .ok (_, some e) s =>
      let s := (ps.filter fun p => p.i = e).foldl State.pinMe s
      (narrowPieces bypass w code fuel (ps.filter fun p => p.i < e) s).bind fun r s => .ok (r.1, lower r.2 (some e)) s

/-- Waits for the probe of an access that may not enter the store buffer: on a page that is not of the normal class (05 R98),
and of a store that may leave nothing there (`sure`), which also waits until no entry of its page is left (05 R99). -/
def confirmPiece (sure : Bool) (p : Piece) (s : State) : Res Piece :=
  if p.e.attr.mc = .normal && !sure then .ok p s
  else if p.e.attr.mc = .normal && !p.e.cf && (s.core p.a.core).bufferedPage p.e.space p.e.vbase (2 ^ p.e.lg) then .stop .wait s
  else (confirm p.a p.e s).bind fun _ s => .ok { p with e := { p.e with cf := true } } s

/-- What a store writes: the accesses of the elements below the lowest that cannot be performed, and that element. -/
def storeValues (sure bypass : Bool) (w : Nat) (code : Nat → Nat) (ps : List Piece) (s : State) :
    Res (List Piece × Option Nat) :=
  (upToFailure (confirmPiece sure) Piece.i ps [] s).bind fun c s =>
    let good := match c.2 with
      | some e => c.1.filter fun p => p.i < e
      | none => c.1
    if 8 ≤ w then .ok (good.map fun p => { p with x := code p.i }, c.2) s
    else (narrowPieces bypass w code (good.length + 1) good s).bind fun k s => .ok (k.1, lower k.2 c.2) s

/-- Which accesses go to the store buffer, by the cf bits that their checks found (04 R86): in an ordered form, every one
above the first that does; in any form every one above another of its page that does, so that where two overlap the bytes of
the higher element remain (06 R121; log entry 131). -/
def markForced (ordered : Bool) : Bool → List FilterEntry → List Piece → List (Piece × Bool)
  | _, _, [] => []
  | started, pages, p :: t =>
    let again := pages.any p.e.samePage
    let b := buffers p.e || (ordered && started) || again
    (p, b) :: markForced ordered (started || b) (if b && !again then p.e :: pages else pages) t

/-- Lines, in the orientation of the store, that the accesses to be buffered need (05 R97). -/
def linesNeeded (ps : List (Piece × Bool)) : Nat :=
  (ps.foldl (fun (l : List Nat) p =>
    if p.2 then nins l (lineAddr p.1.a.col p.1.e.attr.tclass p.1.cell / 128) else l) []).length

/-- Performs the accesses of a store in the order given: none when it has performed all, else what is left and why it
stopped. -/
def storePieces (bypass ordered : Bool) (h : Hart) : List (Piece × Bool) → State →
    Option (List (Piece × Bool) × Nat × Stop) × State
  | [], s => (none, s)
  | (p, b) :: t, s =>
    match writeCell p.a p.e p.cell p.n p.x p.last bypass ordered b h s with
    | .ok _ s => storePieces bypass ordered h t s
    | .stop e s => (some ((p, b) :: t, p.i, e), s)

/-- Whether the accesses that need entries fit beside those that the hart holds (05 R97). -/
def Core.roomFor (c : Core) (slot need : Nat) : Bool := decide ((c.sbOf slot).length + need ≤ c.sbLimit)

/-- The order of an unordered form whose entries fit: accesses to pages of the normal class in an order that free choices
fix (06 R121), then the others in rising order, which is the model's choice (log entry 85). -/
def anyOrder (s : State) (l : List (Piece × Bool)) : List (Piece × Bool) × State :=
  let normal := l.filter fun p => p.1.e.attr.mc = .normal
  let other := l.filter fun p => p.1.e.attr.mc ≠ .normal
  (shuffle (fun k => Config.freeChoice (s.free + k)) normal.length 0 normal ++ other,
   { s with free := s.free + normal.length })

/-- Performs what is left of a store that has passed its checks, then ends it: it retires, or stops at the element that
failed (`bad`, whose checks `again` makes), or pauses (05 R97). A store whose entries fit the hart's limit waits until
all of them do; a larger one is placed in rising order as far as they do. -/
def placeStore (bypass ordered unordered : Bool) (again : Bool → Nat → Hart → State → Out) (p : Paused) (h : Hart)
    (s : State) : Out :=
  let need := linesNeeded p.todo
  let c := s.core s.myCore
  let fits := decide (need ≤ c.sbLimit)
  if !p.begun && fits && !c.roomFor s.mySlot need then .next (s.setMe { h with placed := some p })
  else
    let rising := storePieces bypass ordered h p.todo s
    let r := if unordered && fits && !p.begun then
        let o := anyOrder s p.todo
        let q := storePieces bypass ordered h o.1 o.2
        -- a store that stops on the way keeps to rising order (17 R307)
        if q.1.isNone then q else rising
      else rising
    let h := { h with ordered := h.ordered || (ordered && p.todo.any (·.2)) }
    let sent := fun (l : List (Piece × Bool)) => (l.filter fun q => !q.2).map (·.1)
    match r with
    | (none, s) =>
      match p.bad with
      | none => .next (s.setMe { h with placed := none, ordered := false }.countStore.vdone)
      | some e => again (p.early.any fun b => e < b) e ({ h with placed := none }.pinBy (sent p.todo)) s
    | (some (left, i, .wait), s) =>
      let done := p.todo.take (p.todo.length - left.length)
      .next (s.setMe { (h.setVstart i).pinBy (sent done) with placed := some { p with todo := left, begun := true } })
    | (some (_, i, .trap f), s) => trapAt i f { h with placed := none } s

/-- A vector store after its issue checks: `code` gives the code of an element. One that is paused goes on with what it
has not performed, without a second check (04 R86); when nothing is left of it, the element that failed is checked. One that
fails at a segment or an orientation confirms the pages of its lower elements first, and buffers none of them (01 R23, 02 R31;
log entry 117). An ordered store that was stopped by a trap waits until what it had buffered is written (05 R98). -/
def vstore (w : Nat) (ordered unordered bypass : Bool) (code : Nat → Nat) (els : List (List Req)) (h : Hart)
    (s : State) : Out :=
  let again := fun (sure : Bool) (e : Nat) (h : Hart) (s : State) =>
    let one := (checkElem h true (reqsOf els e) s).bind fun ps s =>
      (confirmAll sure ps s).bind fun qs s => keepAll (if 8 ≤ w then [] else mergeNarrow w code qs) s
    stopAt e one (h.pinAs one.state)
  match h.placed with
  | some p => placeStore bypass ordered unordered again p h s
  | none =>
    if ordered && h.ordered && (s.core s.myCore).sb.any (fun e => e.slot = s.mySlot && e.ord) then .next s
    else
    match checkElems h els s with
    | .stop (.trap f) s => trapOut f s
    | .stop .wait s => .next s
    | .ok c s =>
      match classTrap h unordered c.1 els with
      | some f => trapOut f s
      | none =>
        let early := c.2.filter fun e => earlyFails h (reqsOf els e) s
        match storeValues early.isSome bypass w code c.1 s with
        | .stop (.trap f) s => trapOut f s
        | .stop .wait s => .next s
        | .ok d s =>
          let todo := markForced ordered (ordered && h.ordered && early.isNone) [] d.1
          placeStore bypass ordered unordered again
            { todo := todo, bad := lower d.2 c.2, begun := false, early := early } (h.pinAs s) s
where
  /-- The probes of one element. -/
  confirmAll (sure : Bool) : List Piece → State → Res (List Piece)
    | [], s => .ok [] s
    | p :: t, s => (confirmPiece sure p s).bind fun q s => (confirmAll sure t s).bind fun qs s => .ok (q :: qs) s
  /-- The reads of the bytes of one narrow element. -/
  keepAll : List (Piece × Nat) → State → Res Unit
    | [], s => .ok () s
    | q :: t, s => (keepBits bypass q s).bind fun _ s => keepAll t s

/-! ## Unit, strided, two-dimensional and indexed forms (17 R311 to R313) -/

/-- How a form finds its elements. -/
inductive Walk where
  | unit
  | stride
  | two
  | index (x : VIx)
  deriving DecidableEq, Repr

/-- Bytes of an element as the offset field scales them (12 R232): 1 for a narrow tag. -/
def tagBytes (w : Nat) : Nat := max 1 (w / 8)

/-- Base offset. -/
def vBase (h : Hart) (base : XIx) (off : BitVec 8) (w : Nat) : Word :=
  h.getX base + off.signExtend 64 * BitVec.ofNat 64 (tagBytes w)

/-- o_i (17 R304). -/
def vOffset (k : Walk) (h : Hart) (base : XIx) (off : BitVec 8) (w i : Nat) : Word :=
  let o := vBase h base off w
  match k with
  | .unit => o + BitVec.ofNat 64 (i * w / 8)
  | .stride => o + BitVec.ofNat 64 i * h.ctl.vs
  | .two =>
    let m := h.ctl.mrow.toNat % 128
    o + BitVec.ofNat 64 (i % m) * h.ctl.vs + BitVec.ofNat 64 (i / m) * h.ctl.vt
  | .index x => h.getX base + BitVec.ofInt 64 (h.index x.toNat (h.tagAt x.toNat).fmt i)

/-- Footprint in bits (03 R49). -/
def Walk.footprint (k : Walk) (h : Hart) (w : Nat) : Nat :=
  match k with
  | .unit => h.vl * w
  | .stride => strideBits h w
  | .two => strideBits h w
  | .index _ => h.vl * 1024

/-- The tag conditions of a form: a narrow tag only for the unit forms, no m1, an integer index, and rows from 1. -/
def Walk.tagsOk (k : Walk) (h : Hart) (d : VIx) : Bool :=
  tagIs (h.tag d.toNat) (fun t => t.fmt ≠ .m1 && (k = .unit || 8 ≤ t.width)) &&
    (match k with
     | .two => decide (h.ctl.mrow.toNat % 128 ≠ 0)
     | .index x => h.intTag x.toNat
     | _ => true)

/-- Registers that a form indexes by element. -/
def Walk.regs (k : Walk) (d : VIx) : List Nat :=
  match k with
  | .index x => [d.toNat, x.toNat]
  | _ => [d.toNat]

/-- The shape of a load of these forms. -/
def loadForm (i : Instr) (k : Walk) (fofl unordered : Bool) (off : BitVec 8) (col : Bool) (g : GIx) (base : XIx)
    (d : VIx) (s : State) : Out :=
  withVec (k.regs d).tail [d.toNat] s fun h s =>
    let w := (h.tagAt d.toNat).width
    checked (vcheck i h (codeReq false (k.tagsOk h d) (h.caps s (k.regs d)))) s
      (vload d w fofl unordered (h.bypasses (k.footprint h w))
        (h.actives.map (elemReqs .read g.toNat col w (vOffset k h base off w))) h s)

/-- The shape of a store of these forms. -/
def storeForm (i : Instr) (k : Walk) (ordered unordered : Bool) (off : BitVec 8) (col : Bool) (g : GIx) (base : XIx)
    (d : VIx) (s : State) : Out :=
  withVec (k.regs d) [] s fun h s =>
    let w := (h.tagAt d.toNat).width
    checked (vcheck i h (codeReq false (k.tagsOk h d) (h.caps s (k.regs d)))) s
      (vstore w ordered unordered (h.bypasses (k.footprint h w)) (h.codeAt d.toNat)
        (h.actives.map (elemReqs .write g.toNat col w (vOffset k h base off w))) h s)

def execVld (off : BitVec 8) (o : Orient) (g : GIx) (base : XIx) (d : VIx) (s : State) : Out :=
  loadForm (.vld off o g base d) .unit false false off (o = .col) g base d s
def execVst (off : BitVec 8) (o : Orient) (g : GIx) (base : XIx) (d : VIx) (s : State) : Out :=
  storeForm (.vst off o g base d) .unit false false off (o = .col) g base d s
def execVlds (off : BitVec 8) (o : Orient) (g : GIx) (base : XIx) (d : VIx) (s : State) : Out :=
  loadForm (.vlds off o g base d) .stride false false off (o = .col) g base d s
def execVsts (off : BitVec 8) (o : Orient) (g : GIx) (base : XIx) (d : VIx) (s : State) : Out :=
  storeForm (.vsts off o g base d) .stride false false off (o = .col) g base d s
def execVld2 (off : BitVec 8) (o : Orient) (g : GIx) (base : XIx) (d : VIx) (s : State) : Out :=
  loadForm (.vld2 off o g base d) .two false false off (o = .col) g base d s
def execVst2 (off : BitVec 8) (o : Orient) (g : GIx) (base : XIx) (d : VIx) (s : State) : Out :=
  storeForm (.vst2 off o g base d) .two false false off (o = .col) g base d s
def execVldx (x : VIx) (o : Order) (g : GIx) (base : XIx) (d : VIx) (s : State) : Out :=
  loadForm (.vldx x o g base d) (.index x) false (o = .any) 0 false g base d s
def execVstx (x : VIx) (o : Order) (g : GIx) (base : XIx) (d : VIx) (s : State) : Out :=
  storeForm (.vstx x o g base d) (.index x) (o = .ord) (o = .any) 0 false g base d s
def execVldf (off : BitVec 8) (o : Orient) (g : GIx) (base : XIx) (d : VIx) (s : State) : Out :=
  loadForm (.vldf off o g base d) .unit true false off (o = .col) g base d s

/-! ## Whole registers and scale registers (17 R314, R315) -/

/-- The words of a whole-register form from vstart on. -/
def wordReqs (rw : Rw) (g : GIx) (o : Word) (h : Hart) (n : Nat) : List Req :=
  ((upto n).filter fun k => h.vstart ≤ k).map fun k =>
    { rw := rw, g := g.toNat, off := o + BitVec.ofNat 64 (8 * k), n := 8, align := 8, elem := k, ew := 64, col := false }

/-- The trap of an offset that is not a multiple of 64: at the lowest word, at that word's first failing check. -/
def wordTrap (o : Word) (h : Hart) (key : Nat) (rs : List Req) : Option FRec :=
  match rs with
  | [] => none
  | r :: _ =>
    if o.toNat % 64 = 0 then none
    else
      let a := r.acc h key true
      match segCheck (h.getG r.g) { r with align := 1 } with
      | some c => some (if c = 0x06 then a.segFault c else a.fault c)
      | none => some (a.segFault 0x05)

/-- The offset of a form with scale n. -/
def wOffset (h : Hart) (base : XIx) (off : BitVec 8) (n : Nat) : Word :=
  h.getX base + off.signExtend 64 * BitVec.ofNat 64 n

/-- A load of words: `put` makes the pending register from the words that were read. -/
def loadWords (o : Word) (rs : List Req) (put : List (Nat × Nat) → PendingLoad) (h : Hart) (s : State) : Out :=
  match wordTrap o h s.cur rs with
  | some f => trapOut f s
  | none => loadElems false false false (rs.map fun r => [r]) put h s

/-- A store of words. -/
def storeWords (o : Word) (rs : List Req) (code : Nat → Nat) (h : Hart) (s : State) : Out :=
  match wordTrap o h s.cur rs with
  | some f => trapOut f s
  | none => vstore 64 false false false code (rs.map fun r => [r]) h s

/-- VLDW: the valid length becomes V/512 when every word has been read. -/
def execVldw (off : BitVec 8) (g : GIx) (base : XIx) (d : VIx) (s : State) : Out :=
  withRegs [] [d.toNat] s fun h s =>
    let o := wOffset h base off 64
    loadWords o (wordReqs .read g o h (s.vlen / 64)) (fun es => .v d ((h.getV d.toNat).putAll 64 es)) h s

def execVstw (off : BitVec 8) (g : GIx) (base : XIx) (d : VIx) (s : State) : Out :=
  withRegs [d.toNat] [] s fun h s =>
    let o := wOffset h base off 64
    storeWords o (wordReqs .write g o h (s.vlen / 64)) ((h.getV d.toNat).code 64) h s

def execKld (off : BitVec 8) (g : GIx) (base : XIx) (d : KIx) (s : State) : Out :=
  withRegs [] [] s fun h s =>
    let o := wOffset h base off 256
    let put := fun (es : List (Nat × Nat)) =>
      PendingLoad.k d { h.getK d.toNat with bits := BitVec.ofNat 2048 (es.foldl (fun b (e : Nat × Nat) => putElt b 64 e.1 e.2)
                          (h.getK d.toNat).bits.toNat), dirty := true }
    loadWords o (wordReqs .read g o h 32) put h s

def execKst (off : BitVec 8) (g : GIx) (base : XIx) (d : KIx) (s : State) : Out :=
  withRegs [] [] s fun h s =>
    let o := wOffset h base off 256
    storeWords o (wordReqs .write g o h 32) (elt (h.getK d.toNat).bits.toNat 64) h s

/-! ## Prefetch (17 R316) -/

/-- The checks of one prefetched element: a fill in flight, or nothing at all, and no host entry: a page whose name conflicts
would be filled with none (04 R91). -/
def prefetch (h : Hart) (s : State) (r : Req) : State :=
  match checkReq r h false s with
  | .ok c s' =>
    let die := dieOf s.myCore
    if c.2.1.attr.mc ≠ .normal || decide ((s'.die die).faults ≠ (s.die die).faults) then s
    else
      let k := s'.core s'.myCore
      s'.setCore s'.myCore { k with
        fills := k.fills ++ [{ space := c.1.space, va := c.2.2, col := r.col, attr := c.2.1.attr }] }
  | .stop _ _ => s

/-- VPF: no architectural effect, and no trap; it waits until the mask can be read. With a tag of v0 that no prefetch can
use, or a mask that cannot be read, it does nothing (log entry 23). -/
def execVpf (off : BitVec 8) (o : Orient) (g : GIx) (base : XIx) (s : State) : Out :=
  withHart s fun h0 =>
    if meets h0.maskRegs ((s.core s.myCore).pendingFollows s.mySlot) then .next s
    else
      let h := h0.settleFor h0.maskRegs
      let t := h.tagAt 0
      let k := if h.ctl.vs = 0 then Walk.unit else Walk.stride
      let usable := tagIs (h.tag 0) (fun t => 8 ≤ t.width) && h.maskOk && !h.bypasses (strideBits h t.width)
        && decide (h.vl ≤ t.capacity s.vlen)
      let rs := if usable
        then h.actives.flatMap (elemReqs .read g.toNat (o = .col) t.width (vOffset k h base off t.width))
        else []
      let s := rs.foldl (prefetch h) s
      .next (s.setMe h.retire)

/-! ## The VAMO family (17 R317, R318) -/

/-- Finds whether a word can be updated, before any is (17 R307): it waits for entries of its own hart, for a probe, or
traps. -/
def probePiece (sc : AScope) (p : Piece) (s : State) : Res Piece :=
  (atomicCell p.a p.e p.cell p.n sc (fun _ => none) s).bind fun _ s => .ok p s

/-- Updates the words in the order given: the old values and the flags. -/
def updatePieces (sc : AScope) (f : Nat → Nat → Nat × Nat) : List Piece → List (Nat × Nat) → Nat → State →
    Res (List (Nat × Nat) × Nat)
  | [], acc, fl, s => .ok (acc, fl) s
  | p :: t, acc, fl, s =>
    match atomicCell p.a p.e p.cell p.n sc (fun m => some (f m p.x).1) s with
    | .ok m s => updatePieces sc f t (acc ++ [(p.i, m)]) (fl ||| (f m p.x).2) s
    | .stop e s => .stop e s

/-- The shape of a VAMO: `f` gives the new value and the flags from the tag, the old value and the operand. A .any form takes
its elements in an order of free choices; where one of them lies on a page that is not of the normal class it takes all in
rising order, which is the model's choice (log entry 85). The element that fails is met again before any is updated, so that
the instruction never waits with some updated. On a device page a .any form counts as an unordered indexed form of
R82 and traps with 0x0E, which R29 and R304 leave open (log entry 125). -/
def vamo (i : Instr) (ok : Tag → Bool) (f : Fmt → Nat → Nat → Nat × Nat) (sc : AScope) (o : Order) (g : GIx)
    (base : XIx) (d : VIx) (s : State) : Out :=
  let x : VIx := d + 1
  withVec [d.toNat, x.toNat] [d.toNat] s fun h s =>
    let t := h.tagAt d.toNat
    let w := t.width
    let tags := tagIs (h.tag d.toNat) ok && h.intTag x.toNat
    let els := h.actives.map (elemReqs .both g.toNat false w (vOffset (.index x) h base 0 w))
    let again := fun (e : Nat) (s : State) => (checkElem h true (reqsOf els e) s).bind fun ps s =>
      match ps with
      | p :: _ => probePiece sc p s
      | [] => .stop .wait s
    checked (vcheck i h (codeReq false tags (h.caps s [d.toNat, x.toNat]))) s <|
      match checkElems h els s with
      | .stop (.trap f) s => trapOut f s
      | .stop .wait s => .next s
      | .ok c s =>
        match classTrap h (o = .any) c.1 els with
        | some f => trapOut f s
        | none =>
          match upToFailure (probePiece sc) Piece.i c.1 [] s with
          | .stop (.trap f) s => trapOut f s
          | .stop .wait s => .next s
          | .ok q s =>
            let ps := q.1.map fun p => { p with x := h.codeAt d.toNat p.i }
            let perform := fun (stop : Option (Nat × FRec)) (s : State) =>
              let free := o = .any && ps.all fun p => p.e.attr.mc = .normal
              let n := s.free
              let order := if free then shuffle (fun k => Config.freeChoice (n + k)) ps.length 0 ps else ps
              let s := if free then { s with free := n + ps.length } else s
              match updatePieces sc (f t.fmt) order [] 0 s with
              | .stop (.trap f) s => trapOut f s
              | .stop .wait s => .next s
              | .ok r s =>
                let h := h.putElems d.toNat w r.1
                let fl := h.owed ||| BitVec.ofNat 8 r.2
                match stop with
                | none => .next (s.setMe ({ h with owed := 0 }.accrue fl).countStore.vdone)
                | some (e, t) => trapAt e t { h with owed := fl } s
            match lower q.2 c.2 with
            | none => perform none s
            | some e =>
              match again e s with
              | .stop (.trap t) s => perform (some (e, t)) s
              | .stop .wait s => .next s
              | .ok _ s => .next s

/-- Tags of the integer operations. -/
def vamoInt (t : Tag) : Bool := t.scale = none && (t.fmt = .i32 || t.fmt = .n32 || t.fmt = .i64 || t.fmt = .n64)

/-- An integer operation on the values as the tag reads them, modulo 2^w. -/
def vamoOp (f : Int → Int → Int) (t : Fmt) (m v : Nat) : Nat × Nat := (wrap t.width (f (t.int m) (t.int v)), 0)

def execVamoadd (sc : AScope) (o : Order) (g : GIx) (base : XIx) (d : VIx) (s : State) : Out :=
  vamo (.vamoadd sc o g base d) vamoInt (vamoOp fun m v => m + v) sc o g base d s
def execVamomin (sc : AScope) (o : Order) (g : GIx) (base : XIx) (d : VIx) (s : State) : Out :=
  vamo (.vamomin sc o g base d) vamoInt (vamoOp fun m v => min m v) sc o g base d s
def execVamomax (sc : AScope) (o : Order) (g : GIx) (base : XIx) (d : VIx) (s : State) : Out :=
  vamo (.vamomax sc o g base d) vamoInt (vamoOp fun m v => max m v) sc o g base d s
def execVamoand (sc : AScope) (o : Order) (g : GIx) (base : XIx) (d : VIx) (s : State) : Out :=
  vamo (.vamoand sc o g base d) vamoInt (fun _ m v => (m &&& v, 0)) sc o g base d s
def execVamoor (sc : AScope) (o : Order) (g : GIx) (base : XIx) (d : VIx) (s : State) : Out :=
  vamo (.vamoor sc o g base d) vamoInt (fun _ m v => (m ||| v, 0)) sc o g base d s
def execVamoxor (sc : AScope) (o : Order) (g : GIx) (base : XIx) (d : VIx) (s : State) : Out :=
  vamo (.vamoxor sc o g base d) vamoInt (fun _ m v => (m ^^^ v, 0)) sc o g base d s
def execVamoswp (sc : AScope) (o : Order) (g : GIx) (base : XIx) (d : VIx) (s : State) : Out :=
  vamo (.vamoswp sc o g base d) vamoInt (fun _ _ v => (v, 0)) sc o g base d s
def execVamofadd (sc : AScope) (o : Order) (g : GIx) (base : XIx) (d : VIx) (s : State) : Out :=
  vamo (.vamofadd sc o g base d) (fun t => t.scale = none && (t.fmt = .f32 || t.fmt = .f64))
    (fun t m v => floatAdd t m v) sc o g base d s

end Sys2Proof.Machine
end

