-- ==== Sys2Proof/Machine/VecSp.lean ====
section
/-! DEFINITION. Vector accesses to the scratchpad and the index-scratchpad instructions (spec 17 R319 to R322; 03 R66,
R72, R73). -/

namespace Sys2Proof.Machine

/-! ## Walk descriptors (17 R319, R320) -/

/-- A walk descriptor: its reserved field, cm and mr. -/
def walkReserved (x : Word) : Bool := fld x.toNat 63 17 ≠ 0
def walkCm (x : Word) : Bool := bit x.toNat 16
def walkMr (x : Word) : Nat := x.toNat % 65536

/-- The operands of SPLD and SPST. -/
structure SpOperand where
  a : Word
  d : Word
  walk : Word
  /-- Element width in bits. -/
  w : Nat
  deriving DecidableEq, Repr

/-- Row and byte column of element i. -/
def SpOperand.cell (p : SpOperand) (i : Nat) : Nat × Nat :=
  let wb := tagBytes p.w
  if p.w < 8 then (0, i * p.w / 8)
  else if walkCm p.walk then (i % walkMr p.walk, i / walkMr p.walk * wb)
  else if descRpitch p.d = 0 then (0, i * wb)
  else (i / (descRpitch p.d / wb), i % (descRpitch p.d / wb) * wb)

/-- The grant offsets of the bytes of element i, lowest first. -/
def SpOperand.bytes (p : SpOperand) (i : Nat) : List Nat :=
  if p.w < 8 then (upto (cdiv (i * p.w % 8 + p.w) 8)).map fun j => spOffset p.a + i * p.w / 8 + j
  else (upto (p.w / 8)).map fun j => spOff p.a p.d 0 (p.cell i).1 ((p.cell i).2 + j)

/-- Whether the conditions of R64 hold for every byte of element i. -/
def SpOperand.elemOk (p : SpOperand) (g : Grant) (i : Nat) : Bool :=
  descOk p.a p.d &&
    (if p.w < 8 then (p.bytes i).all fun o => o < g.bytes
     else (upto (p.w / 8)).all fun j => spByteOk g p.a p.d 0 (p.cell i).1 ((p.cell i).2 + j))

/-- The checks of R320 in order, over the active elements. -/
def SpOperand.check (p : SpOperand) (i : Instr) (kind : Nat) (g : Grant) (els : List Nat) : Option FRec :=
  let cm := walkCm p.walk
  let wb := tagBytes p.w
  if walkReserved p.walk || (!cm && walkMr p.walk ≠ 0) || (cm && walkMr p.walk = 0) then some (illegal i)
  else if p.w < 8 && (cm || descRpitch p.d ≠ 0 || descRot p.d ≠ 0) then some (illegal i)
  else if spOffset p.a % wb ≠ 0 || descRpitch p.d % wb ≠ 0 then
    some { cause := 0x05, off := p.a, elem := els.headD 0, ew := p.w, kind := kind }
  else if cm && descRpitch p.d = 0 then some (spBounds p.a (els.headD 0))
  else (els.find? fun e => !p.elemOk g e).map fun e => spBounds (spAddrOf p.a p.d (p.cell e).1 (p.cell e).2) e

/-- A scratchpad word that holds poison, consumed at element e. The record's off is the operand's base address, a value that
R108 leaves open (log entry 106). -/
def spPoisonTrap (a : Word) (e w : Nat) : FRec := { cause := 0x0F, off := a, elem := e, ew := w, kind := 0 }

/-- The operands of an instruction. -/
def spOperand (h : Hart) (d : VIx) (a b : XIx) : SpOperand :=
  { a := h.getX a, d := h.getX (pairOf a), walk := h.getX b, w := (h.tagAt d.toNat).width }

/-- The grant of a hart's region on its core. -/
def State.myGrant (s : State) (h : Hart) : Grant := (s.core s.myCore).grantOf h.blk

/-- SPLD: vD becomes pending; a poisoned word traps at its element (17 R307). -/
def execSpld (hi : Hint) (d : VIx) (a b : XIx) (s : State) : Out :=
  withVec [] [d.toNat] s fun h s =>
    let p := spOperand h d a b
    let g := s.myGrant h
    let c := s.core s.myCore
    let els := h.actives
    checked (vcheck (.spld hi d a b) h (codeReq false (tagIs (h.tag d.toNat) srcOk) (h.caps s [d.toNat]))) s <|
      checked (p.check (.spld hi d a b) 0 g els) s <|
        let bad := els.find? fun e => (p.bytes e).any fun o => c.spPoisoned g o 1
        let good := match bad with
          | some e => els.filter fun k => k < e
          | none => els
        let es := good.map fun e =>
          codeOf p.w (e, ofBytes ((p.bytes e).map fun o => BitVec.ofNat 8 (c.spRead g o 1)))
        let v := ((h.getV d.toNat).putAll p.w es).tail s.vlen p.w
        endLoad false (if es.isEmpty then none else some (.v d v))
          (bad.map fun e => (e, spPoisonTrap p.a e p.w)) h s

/-- Writes the bits of one element in its bank: a byte that it covers in part is read and written there (03 R66). -/
def SpOperand.put (p : SpOperand) (g : Grant) (code : Nat → Nat) (c : Core) (e : Nat) : Core :=
  let os := p.bytes e
  if p.w < 8 then
    let old := ofBytes (os.map fun o => BitVec.ofNat 8 (c.spRead g o 1))
    let new := Machine.put old (e * p.w % 8) p.w (code e)
    (os.zip (toBytes os.length new)).foldl (fun c q => c.spWrite g q.1 [q.2]) c
  else if descRot p.d = 0 then c.spWrite g (os.headD 0) (toBytes (p.w / 8) (code e))
  else (os.zip (toBytes os.length (code e))).foldl (fun c q => c.spWrite g q.1 [q.2]) c

/-- Whether the processed elements cover every bit of byte k of a contiguous narrow operand. -/
def SpOperand.whole (p : SpOperand) (takes : Nat → Bool) (k : Nat) : Bool :=
  (upto 8).all fun b => takes ((8 * k + b) / p.w)

/-- The elements below the lowest that would read a poisoned word for the bits it keeps of a byte, and that element
(17 R306, R307; 05 R115). -/
def SpOperand.keeps (p : SpOperand) (c : Core) (g : Grant) : Nat → List Nat → List Nat × Option Nat
  | 0, els => (els, none)
  | fuel + 1, els =>
    let reads := fun e => (upto (cdiv (e * p.w % 8 + p.w) 8)).any fun j =>
      let k := e * p.w / 8 + j
      c.spPoisoned g (spOffset p.a + k) 1 && !p.whole (fun i => i ∈ els) k
    match (if p.w < 8 && !c.spPoison.isEmpty then els.find? reads else none) with
    | none => (els, none)
    | some e =>
      let r := p.keeps c g fuel (els.filter fun k => k < e)
      (r.1, lower r.2 (some e))

/-- Drops the poison of the words whose every byte the elements write (03 R61, log entry 22). -/
def SpOperand.heal (p : SpOperand) (g : Grant) (els : List Nat) (c : Core) : Core :=
  if c.spPoison.isEmpty then c
  else
    let bytes := if p.w < 8 then
        (els.flatMap p.bytes).filter fun o => p.whole (fun i => i ∈ els) (o - spOffset p.a)
      else els.flatMap p.bytes
    let ps := bytes.map g.phys
    { c with spPoison := c.spPoison.filter fun w => !(upto 8).all fun k => 8 * w + k ∈ ps }

/-- SPST. -/
def execSpst (hi : Hint) (d : VIx) (a b : XIx) (s : State) : Out :=
  withVec [d.toNat] [] s fun h s =>
    let p := spOperand h d a b
    let g := s.myGrant h
    let c := s.core s.myCore
    let els := h.actives
    checked (vcheck (.spst hi d a b) h (codeReq false (tagIs (h.tag d.toNat) srcOk) (h.caps s [d.toNat]))) s <|
      checked (p.check (.spst hi d a b) 1 g els) s <|
        let r := p.keeps c g (els.length + 1) els
        let s := s.setCore s.myCore (p.heal g r.1 (r.1.foldl (p.put g (h.codeAt d.toNat)) c))
        match r.2 with
        | none => .next (s.setMe h.countStore.vdone)
        | some e => trapAt e { spPoisonTrap p.a e p.w with kind := 1 } h s

/-! ## The index scratchpad (17 R321, R322) -/

/-- Entries of a grant. -/
def Grant.entries (g : Grant) : Nat := g.ixUnits * 512

/-- A value register: i64, n64 or f64. -/
def valueTag (t : Tag) : Bool := t.scale = none && (t.fmt = .i64 || t.fmt = .n64 || t.fmt = .f64)

/-- The key of element i: its code sign-extended or zero-extended to 64 bits. -/
def Hart.key (h : Hart) (a : VIx) (i : Nat) : Nat := (extendCode (h.tagAt a.toNat).fmt (h.codeAt a.toNat i)).toNat

/-- The trap of a region whose grant holds no entry: after every condition of R273. -/
def noEntries (g : Grant) : Option FRec := if g.entries = 0 then some { cause := 0x10 } else none

/-- An insertion of a key that is absent, if an entry is free: the grant, and whether the key is there afterwards. -/
def Grant.insert (g : Grant) (k : Nat) (v : Word) : Grant × Bool :=
  if g.table.length < g.entries then ({ g with table := aset g.table k v }, true) else (g, false)

/-- SXACC's addition (17 R321). -/
def sxAdd (f : Fmt) (m b : Word) : Word × Nat :=
  if f = .f64 then let r := floatAdd .f64 m.toNat b.toNat; (BitVec.ofNat 64 r.1, r.2) else (m + b, 0)

/-- One element of SXINS (`acc` = false) or SXACC: the grant, the result bit and the flags. -/
def Grant.step (g : Grant) (acc : Bool) (f : Fmt) (k : Nat) (b : Word) : Grant × Bool × Nat :=
  match aget g.table k with
  | some m =>
    if acc then let r := sxAdd f m b; ({ g with table := aset g.table k r.1 }, true, r.2) else (g, true, 0)
  | none => let r := g.insert k b; (r.1, r.2, 0)

/-- The elements of SXINS or SXACC in ascending order: the grant, the result bits and the flags. -/
def sxRun (acc : Bool) (f : Fmt) (key val : Nat → Nat) : List Nat → Grant × List (Nat × Nat) × Nat →
    Grant × List (Nat × Nat) × Nat
  | [], r => r
  | i :: t, (g, out, fl) =>
    let r := g.step acc f (key i) (BitVec.ofNat 64 (val i))
    sxRun acc f key val t (r.1, out ++ [(i, r.2.1.toNat)], fl ||| r.2.2)

/-- The lowest active element whose entry holds poison (03 R61), and the elements below it. -/
def sxPoison (g : Grant) (key : Nat → Nat) (els : List Nat) : List Nat × Option (Nat × FRec) :=
  match els.find? fun i => key i ∈ g.tablePoison with
  | none => (els, none)
  | some e => (els.filter fun k => k < e, some (e, { cause := 0x0F, elem := e, ew := 64 }))

/-- Ends an instruction that has written registers at once; the flags of its completed elements accrue when it retires
(12 R230). -/
def endIx (bad : Option (Nat × FRec)) (fl : BitVec 8) (h : Hart) (s : State) : Out :=
  let fl := h.owed ||| fl
  match bad with
  | none => .next (s.setMe ({ h with owed := 0 }.accrue fl).countStore.vdone)
  | some (e, f) => trapAt e f { h with owed := fl } s

/-- The shape of SXINS and SXACC. -/
def sxUpdate (i : Instr) (acc : Bool) (d a b : VIx) (s : State) : Out :=
  withVec [a.toNat, b.toNat] [d.toNat] s fun h s =>
    let tags := h.intTag a.toNat && tagIs (h.tag b.toNat) valueTag && h.maskTag d.toNat
    let g := s.myGrant h
    checked (vcheck i h (codeReq false tags (h.caps s [d.toNat, a.toNat, b.toNat]))) s <|
      checked (noEntries g) s <|
        let p := if acc then sxPoison g (h.key a) h.actives else (h.actives, none)
        let r := sxRun acc (h.tagAt b.toNat).fmt (h.key a) (h.codeAt b.toNat) p.1 (g, [], 0)
        let c := s.core s.myCore
        endIx p.2 (BitVec.ofNat 8 r.2.2) (h.putElems d.toNat 1 r.2.1) (s.setCore s.myCore (c.setGrant r.1))

def execSxins (hi : Hint) (d a b : VIx) (s : State) : Out := sxUpdate (.sxins hi d a b) false d a b s
def execSxacc (hi : Hint) (d a b : VIx) (s : State) : Out := sxUpdate (.sxacc hi d a b) true d a b s

/-- SXLKP: the values found in vD and the bits in vB, both pending. -/
def execSxlkp (hi : Hint) (d a b : VIx) (s : State) : Out :=
  withVec [a.toNat] [d.toNat, b.toNat] s fun h s =>
    let tags := h.intTag a.toNat && tagIs (h.tag d.toNat) valueTag && h.maskTag b.toNat
    let g := s.myGrant h
    checked (vcheck (.sxlkp hi d a b) h (codeReq false tags (h.caps s [d.toNat, a.toNat, b.toNat]))) s <|
      checked (noEntries g) s <|
        let p := sxPoison g (h.key a) h.actives
        let hit := fun i => aget g.table (h.key a i)
        let vals := p.1.filterMap fun i => (hit i).map fun v => (i, v.toNat)
        let bits := p.1.map fun i => (i, (hit i).isSome.toNat)
        endLoad false (if p.1.isEmpty then none else
          some (.vv d b ((h.getV d.toNat).putAll 64 vals) ((h.getV b.toNat).putAll 1 bits))) p.2 h s

/-- SXDRN: the entries with the least keys, removed and returned in ascending order; it ignores the mask. -/
def execSxdrn (hi : Hint) (d b : VIx) (s : State) : Out :=
  withRegs [] [d.toNat, b.toNat] s fun h s =>
    let tags := tagIs (h.tag d.toNat) (fun t => valueTag t && t.isInt) && tagIs (h.tag b.toNat) valueTag
    let g := s.myGrant h
    let q : VReq := { zeroStart := true, tags := tags, mask := false, round := true, caps := h.caps s [d.toNat, b.toNat] }
    checked (vcheck (.sxdrn hi d b) h q) s <|
      checked (noEntries g) s <|
        let n := min h.vl g.table.length
        let out := g.table.take n
        match (out.zipIdx).find? fun p => p.1.1 ∈ g.tablePoison with
        | some p => trapOut { cause := 0x0F, elem := p.2, ew := 64 } s
        | none =>
          let keys := out.zipIdx.map fun p => (p.2, p.1.1)
          let vals := out.zipIdx.map fun p => (p.2, p.1.2.toNat)
          let c := s.core s.myCore
          let s := s.setCore s.myCore (c.setGrant { g with table := g.table.drop n })
          let x := ((h.getV d.toNat).putAll 64 keys)
          let y := if d = b then x.putAll 64 vals else (h.getV b.toNat).putAll 64 vals
          endLoad false (if n = 0 then none else some (.vv d b x y)) none (h.setVl n) s

/-- SXCLR: every entry of the grant becomes invalid. -/
def execSxclr (s : State) : Out :=
  withRegs [] [] s fun h s =>
    let g := s.myGrant h
    checked (noEntries g) s <|
      let c := s.core s.myCore
      .next ((s.setCore s.myCore (c.setGrant { g with table := [], tablePoison := [] })).setMe h.countStore.vdone)

end Sys2Proof.Machine
end

