-- ==== Sys2Proof/Machine/Last.lean ====
section
/-! DEFINITION. The last, the 64-byte record of a tensor (spec 02 R37 to R41). -/

namespace Sys2Proof.Machine

/-- A last as it was read. -/
abbrev LastRec := BitVec 512

def lastFld (l : LastRec) (hi lo : Nat) : Nat := fld l.toNat hi lo

def lastMoff (l : LastRec) : Nat := lastFld l 511 448
def lastPitch3 (l : LastRec) : Nat := lastFld l 447 384
def lastPitch2 (l : LastRec) : Nat := lastFld l 383 320
def lastPitch1 (l : LastRec) : Nat := lastFld l 319 256
def lastExt (l : LastRec) (k : Nat) : Nat := lastFld l (159 + 32 * k) (128 + 32 * k)
def lastBase (l : LastRec) : Nat := lastFld l 127 64
def lastMpitch (l : LastRec) : Nat := lastFld l 55 48
def lastMseg (l : LastRec) : Nat := lastFld l 47 44
def lastSeg (l : LastRec) : Nat := lastFld l 43 40
def lastEfmt (l : LastRec) : Nat := lastFld l 37 32
def lastRank (l : LastRec) : Nat := lastFld l 31 29
def lastClass (l : LastRec) : TClass := TClass.ofCode (lastFld l 28 27)
def lastCol (l : LastRec) : Bool := bit l.toNat 26
def lastNib (l : LastRec) : Nat := lastFld l 25 25
def lastSparse (l : LastRec) : Nat := lastFld l 24 23

/-- Element format of a last; one that is not defined stands as i8 and fails the validation. -/
def lastFmt (l : LastRec) : Fmt := (Fmt.ofCode (lastEfmt l)).getD .i8

/-- Elements stored in one row (02 R39, R40). -/
def lastStored (l : LastRec) : Nat := if lastSparse l = 1 then lastExt l 0 / 2 else lastExt l 0

/-- Block size in bits (02 R26). -/
def TClass.blockBits (t : TClass) : Nat := t.block * 8

/-- Validation of a last (02 R39), with the base of the segment that it names for its tensor. -/
def lastValid (l : LastRec) (base : Nat) : Bool :=
  let rank := lastRank l
  let w := (lastFmt l).width
  let t := lastClass l
  let p1 := lastPitch1 l
  let p2 := lastPitch2 l
  let p3 := lastPitch3 l
  lastFld l 63 56 = 1 && lastFld l 39 38 = 0 && lastFld l 22 0 = 0
    && decide (1 ≤ rank) && decide (rank ≤ 4)
    && (Fmt.ofCode (lastEfmt l)).isSome
    && ((upto 4).all fun k => if k < rank then lastExt l k ≠ 0 else lastExt l k = 0)
    && (rank < 2 || p1 % 8 = 0) && (rank < 3 || p2 % 8 = 0) && (rank < 4 || p3 % 8 = 0)
    && (lastNib l = 0 || (w = 4 && t = .untiled))
    && (if t = .untiled then
          (rank < 2 || decide (lastStored l * w ≤ p1)) && (rank < 3 || decide (lastExt l 1 * p1 ≤ p2))
        else
          w = 8 * t.width && (base + lastBase l) % t.block = 0
            && (rank < 2 || (p1 % t.blockBits = 0 && decide (cdiv (lastExt l 0) t.rows * t.blockBits ≤ p1)))
            && (rank < 3 || decide (cdiv (lastExt l 1) t.rows * p1 ≤ p2)))
    && (rank < 4 || decide (lastExt l 2 * p2 ≤ p3))
    && (!lastCol l || (decide (2 ≤ rank) && t ≠ .untiled))
    && (lastSparse l = 0 ||
        (lastSparse l = 1 && rank = 2 && t = .untiled && lastExt l 0 % 4 = 0
          && decide (lastExt l 0 ≤ lastMpitch l * 128)))

/-- The bit address of element (i0, i1, i2, i3), from bit 0 of segment offset 0 (02 R38). -/
def lastBit (l : LastRec) (i0 i1 i2 i3 : Nat) : Nat :=
  let w := (lastFmt l).width
  let rank := lastRank l
  let i1 := if 2 ≤ rank then i1 else 0
  let i2 := if 3 ≤ rank then i2 else 0
  let i3 := if 4 ≤ rank then i3 else 0
  let t := lastClass l
  let far := lastBase l * 8 + i2 * lastPitch2 l + i3 * lastPitch3 l
  if t = .untiled then far + lastNib l * 4 + i0 * w + i1 * lastPitch1 l
  else far + i1 / t.rows * lastPitch1 l + i0 / t.rows * t.blockBits + i1 % t.rows * 1024 + i0 % t.rows * w

/-- The byte address by which a column access through a last names an element's cell: the column-view address of
R28. A dimension at or above the rank contributes nothing (02 R38). -/
def lastColByte (l : LastRec) (i0 i1 i2 i3 : Nat) : Nat :=
  let t := lastClass l
  let i1 := if 2 ≤ lastRank l then i1 else 0
  let cell := lastBit l i0 i1 i2 i3 / 8
  cell - (i1 % t.rows * 128 + i0 % t.rows * t.width) + i0 % t.rows * 128 + i1 % t.rows * t.width

end Sys2Proof.Machine
end

