-- ==== Sys2Proof/Machine/Matrix.lean ====
section
/-! DEFINITION. Matrix instructions (spec 18 R323 to R337; 11 R224, R225). The dataflow changes only timing (R330), so
the three share one computation. -/

namespace Sys2Proof.Machine

/-! ## Shape and operands (18 R324 to R328) -/

/-- MSHAPE. -/
def execMshape (depth : BitVec 4) (cols rows : BitVec 7) (s : State) : Out :=
  withHart s fun h =>
    .next (s.setMe ({ h with ctl := { h.ctl with
      mrow := rows.setWidth 64, mcol := cols.setWidth 64, mdep := 32 * depth.setWidth 64 } }).retire)

def Hart.mrow (h : Hart) : Nat := h.ctl.mrow.toNat % 128
def Hart.mcol (h : Hart) : Nat := h.ctl.mcol.toNat % 128
def Hart.mdep (h : Hart) : Nat := h.ctl.mdep.toNat % 512

/-- The limit of mdep at a width (18 R325). -/
def depthLimit (w : Nat) : Nat :=
  if w = 4 then 256 else if w = 6 ∨ w = 8 then 128 else if w = 16 then 64 else 256

/-- Whether rows and depth meet R325. -/
def shapeOk (h : Hart) (limit : Nat) : Bool :=
  decide (1 ≤ h.mrow) && decide (h.mrow ≤ 64) && h.mdep % 32 = 0 && decide (32 ≤ h.mdep) && decide (h.mdep ≤ limit)

/-- A matrix instruction: whether A is sparse, whether D starts from zero, the D group and the operands. -/
structure MatIn where
  sparse : Bool
  z : Bool
  d : Nat
  a : MatOp
  b : MatOp
  deriving DecidableEq, Repr

/-- The vector register whose tag gives an operand's format (18 R328). -/
def opReg : MatOp → Nat
  | .reg v => v.toNat
  | .sp x => x.toNat

def MatIn.ta (m : MatIn) (h : Hart) : Tag := h.tagAt (opReg m.a)
def MatIn.tb (m : MatIn) (h : Hart) : Tag := h.tagAt (opReg m.b)
def MatIn.td (m : MatIn) (h : Hart) : Tag := h.tagAt m.d

/-- Elements of one row of A as stored (18 R335). -/
def MatIn.aRow (m : MatIn) (h : Hart) : Nat := if m.sparse then h.mdep / 2 else h.mdep

/-- Registers of an operand's group; none for a tile. -/
def opRegs (o : MatOp) (elems w vlen : Nat) : List Nat :=
  match o with
  | .reg v => group v.toNat (cdiv (elems * w) vlen)
  | .sp _ => []

def MatIn.aRegs (m : MatIn) (h : Hart) (vlen : Nat) : List Nat :=
  opRegs m.a (h.mrow * m.aRow h) (m.ta h).width vlen
def MatIn.bRegs (m : MatIn) (h : Hart) (vlen : Nat) : List Nat := opRegs m.b (h.mcol * h.mdep) (m.tb h).width vlen
def MatIn.dRegs (m : MatIn) : List Nat := group m.d 8

/-- Registers of the metadata group from v(D+8). -/
def MatIn.metaRegs (m : MatIn) (h : Hart) (vlen : Nat) : List Nat :=
  if m.sparse then group (m.d + 8) (cdiv (h.mrow * h.mdep) vlen) else []

/-! ## Tags and scales (18 R327, R329) -/

/-- Whether a tag combination is accepted, and whether it sums integers. -/
def matRow (a b d : Tag) : Option Bool :=
  let small := fun (t : Tag) => t.fmt = .i8 || t.fmt = .n8
  let half := fun (t : Tag) => t.fmt = .f16 || t.fmt = .bf16
  if d.scale ≠ none then none
  else if d.fmt = .f32 then
    if (a.fmt.isMx && b.fmt.isMx) || (half a && half b) then some false else none
  else if d.fmt = .i32 then
    if (a.fmt = .mi8 && b.fmt = .mi8) || (small a && small b) then some true else none
  else none

/-- The scale registers that n group elements of a tag need reach at most this one. -/
def lastScale (t : Tag) (n : Nat) : Nat :=
  match t.scale with
  | none => 0
  | some (k, half) => k + (128 * half + (n - 1) / 32) / 256

/-- The scale of block b of a group (18 R327). -/
def scaleOf (h : Hart) (t : Tag) (b : Nat) : Nat :=
  match t.scale with
  | none => 127
  | some (k, half) => elt (h.getK (k + (128 * half + b) / 256)).bits.toNat 8 ((128 * half + b) % 256)

/-! ## Scratchpad tiles (18 R328, R332 orders 6 to 8) -/

/-- The scalar pair of a tile. -/
def tileA (h : Hart) (x : XIx) : Word := h.getX x
def tileD (h : Hart) (x : XIx) : Word := h.getX (pairOf x)

/-- Byte columns that element j of a row touches. -/
def tileBytes (w j : Nat) : List Nat := (upto (cdiv (j * w % 8 + w) 8)).map fun k => j * w / 8 + k

/-- Positions of a tile in ascending group-element order. -/
def tileCells (rows md : Nat) : List (Nat × Nat) := (upto rows).flatMap fun i => (upto md).map fun j => (i, j)

/-- Order 6 for one operand. -/
def tileAlign (i : Instr) (h : Hart) (o : MatOp) (w : Nat) : Option FRec :=
  match o with
  | .reg _ => none
  | .sp x =>
    let wb := tagBytes w
    if spOffset (tileA h x) % wb ≠ 0 || descRpitch (tileD h x) % wb ≠ 0 then
      some { cause := 0x05, off := tileA h x, ew := w }
    else if w = 6 && descRot (tileD h x) ≠ 0 then some (illegal i)
    else none

/-- Order 7 for one operand. -/
def tileBounds (g : Grant) (h : Hart) (o : MatOp) (w rows md : Nat) : Option FRec :=
  match o with
  | .reg _ => none
  | .sp x =>
    let a := tileA h x
    let d := tileD h x
    ((tileCells rows md).find? fun p => !(descOk a d && (tileBytes w p.2).all fun k => spByteOk g a d 0 p.1 k)).map
      fun p => spBounds (spAddrOf a d p.1 (p.2 * w / 8)) (p.1 * md + p.2)

/-- Order 8 for one operand: a poisoned word. A scratchpad word has no va, gseg and space, which R111 lists for the cause:
they are 0, and so is tval (log entry 137). -/
def tilePoison (c : Core) (g : Grant) (h : Hart) (o : MatOp) (w rows md : Nat) : Option FRec :=
  match o with
  | .reg _ => none
  | .sp x =>
    let a := tileA h x
    let d := tileD h x
    ((tileCells rows md).find? fun p => (tileBytes w p.2).any fun k => c.spPoisoned g (spOff a d 0 p.1 k) 1).map
      fun p => { cause := 0x0F, off := spAddrOf a d p.1 (p.2 * w / 8), elem := p.1 * md + p.2, ew := w }

/-- The code of an element of a tile. -/
def tileCode (c : Core) (g : Grant) (a d : Word) (w i j : Nat) : Nat :=
  let n := cdiv (j * w % 8 + w) 8
  (c.spRead g (spOff a d 0 i (j * w / 8)) n >>> (j * w % 8)) % 2 ^ w

/-- The codes of an operand in group-element order. -/
def opCodes (o : MatOp) (c : Core) (g : Grant) (h : Hart) (vlen w rows md : Nat) : Array Nat :=
  match o with
  | .reg v =>
    let bits := h.groupBits vlen (group v.toNat (cdiv (rows * md * w) vlen))
    (Array.range (rows * md)).map fun n => elt bits w n
  | .sp x => (Array.range (rows * md)).map fun n => tileCode c g (tileA h x) (tileD h x) w (n / md) (n % md)

/-! ## The issue checks (18 R332) -/

/-- Whether a list holds no number twice. -/
def noRepeats (l : List Nat) : Bool := decide l.Nodup

/-- Orders 1 to 5: they look at no register's contents. A scale register beyond k15 traps for block-scaled operands of an
i32 D too, whose scales are not applied, which R327 and R329 leave open (log entry 138). -/
def MatIn.check (m : MatIn) (i : Instr) (h : Hart) (vlen part : Nat) : Option FRec :=
  let w := max (m.ta h).width (m.tb h).width
  let regs := m.dRegs ++ m.aRegs h vlen ++ m.bRegs h vlen ++ m.metaRegs h vlen
  if h.ctl.vstart ≠ 0 then some (illegal i)
  else if !(shapeOk h (depthLimit w) && decide (1 ≤ h.mcol) && decide (h.mcol ≤ 64 / part)) then some { cause := 0x12 }
  else if (matRow (m.ta h) (m.tb h) (m.td h)).isNone
      || decide (15 < lastScale (m.ta h) (h.mrow * m.aRow h)) || decide (15 < lastScale (m.tb h) (h.mcol * h.mdep))
      || (m.sparse && decide (m.d + 8 < 64) && (h.getV (m.d + 8)).tag ≠ 0x04) then some (illegal i)
  else if regs.any (fun n => 63 < n) || !noRepeats regs then some (illegal i)
  else none

/-- Orders 6 and 7. R332 takes the A tile before the B tile in orders 7 and 8; that order 6 does so too is the model's reading
(log entry 127). -/
def MatIn.checkTiles (m : MatIn) (i : Instr) (g : Grant) (h : Hart) : Option FRec :=
  match tileAlign i h m.a (m.ta h).width with
  | some f => some f
  | none =>
    match tileAlign i h m.b (m.tb h).width with
    | some f => some f
    | none =>
      match tileBounds g h m.a (m.ta h).width h.mrow h.mdep with
      | some f => some f
      | none => tileBounds g h m.b (m.tb h).width h.mcol h.mdep

/-- Order 8. -/
def MatIn.checkPoison (m : MatIn) (c : Core) (g : Grant) (h : Hart) : Option FRec :=
  match tilePoison c g h m.a (m.ta h).width h.mrow h.mdep with
  | some f => some f
  | none => tilePoison c g h m.b (m.tb h).width h.mcol h.mdep

/-! ## The computation (11 R224, 18 R335) -/

/-- The sum of a step's products: NaN, an infinity, or the exact sum, zero of the negative sign only when every product
is −0. -/
def dotV (ps : List Val) : Val :=
  if ps.any Val.isNan || (ps.any (fun v => v.isInf && v.neg) && ps.any fun v => v.isInf && !v.neg) then Val.quiet
  else
    match ps.find? Val.isInf with
    | some v => v
    | none =>
      match ps with
      | [] => .fin { neg := false, mag := 0, exp := 0 }
      | p :: t => t.foldl (fun a b => (addV false a b).v) p

/-- One step on values: the accumulator and its flags. -/
def stepFloat (fa fb : Fmt) (sa sb : Nat) (qs : List (Nat × Nat)) (acc : FVal) : FVal :=
  let vs := qs.map fun q => (fa.value q.1, fb.value q.2)
  let nv := if vs.any (fun p => p.1.signals || p.2.signals) then fNV else 0
  let p := if sa = 0xFF || sb = 0xFF then Val.quiet else dotV (vs.map fun p => (mulV p.1 p.2).v)
  let p := match p with
    | .fin d => .fin (d.shift (((sa : Int) - 127) + ((sb : Int) - 127)))
    | v => v
  addC .f32 acc (p, nv)

/-- The integer that a code of an integer row stands for: mi8 as a two's-complement code. -/
def matInt (f : Fmt) (code : Nat) : Int := if f = .mi8 then sgn 8 code else f.int code

/-- One step on integers. -/
def stepInt (fa fb : Fmt) (qs : List (Nat × Nat)) (acc : Int) : Int :=
  qs.foldl (fun s q => s + matInt fa q.1 * matInt fb q.2) acc

/-- The columns that the products of step k of row i take from B: the group's 32, or those that metadata names. -/
def stepCols (sparse : Bool) (fields md i k : Nat) : List Nat :=
  if sparse then
    (upto 8).flatMap fun q =>
      let g := 8 * k + q
      let f := elt fields 4 (i * (md / 4) + g)
      [4 * g + f % 4, 4 * g + f / 4]
  else (upto 32).map (32 * k + ·)

/-- What an output element needs. -/
structure MatData where
  ac : Array Nat
  bc : Array Nat
  /-- Bits of the D group and of the metadata group. -/
  dbits : Nat
  fields : Nat

/-- The pairs of codes that step k of output (i, c) multiplies. -/
def MatIn.pairs (m : MatIn) (h : Hart) (x : MatData) (i c k : Nat) : List (Nat × Nat) :=
  let ka := if m.sparse then 16 else 32
  ((stepCols m.sparse x.fields h.mdep i k).zipIdx).map fun p =>
    (x.ac.getD (i * m.aRow h + ka * k + p.2) 0, x.bc.getD (c * h.mdep + p.1) 0)

/-- Output element (i, c): its code and the flags of its adds. -/
def MatIn.element (m : MatIn) (h : Hart) (x : MatData) (i c : Nat) : Nat × Nat :=
  let ta := m.ta h
  let tb := m.tb h
  let ka := if m.sparse then 16 else 32
  let d := elt x.dbits 32 (i * h.mcol + c)
  if matRow ta tb (m.td h) = some true then
    (wrap 32 ((upto (h.mdep / 32)).foldl (fun acc k => stepInt ta.fmt tb.fmt (m.pairs h x i c k) acc)
      (if m.z then 0 else sgn 32 d)), 0)
  else
    let start : FVal := (if m.z then .fin { neg := false, mag := 0, exp := 0 } else Fmt.value .f32 d, 0)
    let r := (upto (h.mdep / 32)).foldl (fun acc k =>
      stepFloat ta.fmt tb.fmt (scaleOf h ta ((i * m.aRow h + ka * k) / 32)) (scaleOf h tb ((c * h.mdep + 32 * k) / 32))
        (m.pairs h x i c k) acc) start
    ((convert .f32 Rnd.rne r.1).1, r.2)

/-- Registers of a group after its first n bytes are written with bits (18 R329; 10 R193). -/
def writeGroup (h : Hart) (d k vlen bits n : Nat) : List VReg :=
  (upto k).map fun q =>
    let b := min (vlen / 8) (n - q * (vlen / 8))
    if b = 0 then h.getV (d + q) else (h.getV (d + q)).write ((bits >>> (q * vlen)) % 2 ^ vlen) b

/-- The D group and the flags: operands as hart h holds them, D as hart dh does, tiles as the core does. -/
def MatIn.run (m : MatIn) (c : Core) (g : Grant) (h dh : Hart) (vlen : Nat) : PendingMat :=
  let x : MatData :=
    { ac := opCodes m.a c g h vlen (m.ta h).width h.mrow (m.aRow h)
      bc := opCodes m.b c g h vlen (m.tb h).width h.mcol h.mdep
      dbits := dh.groupBits vlen m.dRegs
      fields := h.groupBits vlen (m.metaRegs h vlen) }
  let out := (upto (h.mrow * h.mcol)).map fun n => m.element h x (n / h.mcol) (n % h.mcol)
  let bits := (out.zipIdx).foldl (fun b p => putElt b 32 p.2 p.1.1) x.dbits
  { dst := m.d, vals := writeGroup dh m.d 8 vlen bits (4 * out.length)
    flags := BitVec.ofNat 8 (out.foldl (fun f p => f ||| p.2) 0) }

/-- The instruction's D group is pending, and it retires. -/
def Hart.oweMat (h : Hart) (p : PendingMat) : Hart := { h with mats := h.mats ++ [p] }.countMat

/-- The shape of MMA and MMAS. -/
def matrix (i : Instr) (m : MatIn) (s : State) : Out :=
  withHart s fun h0 =>
    let v := s.vlen
    checked (m.check i h0 v (s.core s.myCore).part) s <|
      withRegs (m.aRegs h0 v ++ m.bRegs h0 v ++ m.metaRegs h0 v ++ (if m.z then [] else m.dRegs)) m.dRegs s fun h s =>
        let g := s.myGrant h
        let c := s.core s.myCore
        checked (m.checkTiles i g h) s <|
          checked (m.checkPoison c g h) s <|
            .next (s.setMe (h.oweMat (m.run c g h h v)).retire)

def execMma (hi : Hint) (z : Bool) (df : Flow) (d : VIx) (a b : MatOp) (s : State) : Out :=
  matrix (.mma hi z df d a b) { sparse := false, z := z, d := d.toNat, a := a, b := b } s

def execMmas (hi : Hint) (z : Bool) (df : Flow) (d a : VIx) (b : MatOp) (s : State) : Out :=
  matrix (.mmas hi z df d a b) { sparse := true, z := z, d := d.toNat, a := .reg a, b := b } s

/-! ## MLAST (18 R336; 02 R37 to R41) -/

/-- Reads n bytes of metadata as a row-oriented load through the sparse-metadata cache, the hart's own buffered bytes
first (03 R60, 05 R100). -/
def readMetaRun (r : Req) (h : Hart) (s : State) : Res Nat :=
  (checkReq r h true s).bind fun c s =>
    let a := c.1
    if c.2.1.attr.mc ≠ .normal then .stop (.trap { a.fault 0x0E with ew := 0 }) s
    else
      let k := s.core a.core
      if k.forwardsAll a.slot a.space a.va r.n then
        if k.overlayPoison a.slot a.space a.va r.n then .stop (.trap (a.fault 0x0F)) s
        else .ok (k.overlay a.slot a.space a.va r.n 0) s
      else
        (readMeta a c.2.1.attr.tclass r.n s).bind fun d s =>
          if d.2 || k.overlayPoison a.slot a.space a.va r.n then .stop (.trap (a.fault 0x0F)) s
          else .ok (k.overlay a.slot a.space a.va r.n d.1) s

/-- The bytes of a metadata row from offset `off`, one after the other; the segment checks take the run as a whole. R336 fixes
elem and off of a memory fault there; that its va, and so tval, is the address of the byte that fails and its ew is 8 is the
model's choice (log entry 126). -/
def readMetaBytes (g i : Nat) (off : Word) (h : Hart) : Nat → Nat → Nat → State → Res Nat
  | 0, _, acc, s => .ok acc s
  | n + 1, k, acc, s =>
    let r : Req := { rw := .read, g := g, off := off + BitVec.ofNat 64 k, n := 1, align := 1, elem := i, ew := 8,
                     col := false }
    (readMetaRun r h s).bind fun b s => readMetaBytes g i off h n (k + 1) (acc + b <<< (8 * k)) s

/-- A memory fault in the read of row i carries the row's offset (18 R336). -/
def rowFault {α : Type} (row : Word) (r : Res α) : Res α :=
  match r with
  | .stop (.trap f) s => .stop (.trap { f with off := row }) s
  | r => r

/-- Offset of metadata row i of a last, and of the bytes of n columns of it from column col0: their offset and number. -/
def metaRow (l : LastRec) (i : Nat) : Word := BitVec.ofNat 64 (lastMoff l + i * lastMpitch l * 16)
def metaRun (l : LastRec) (i col0 n : Nat) : Word × Nat :=
  (metaRow l i + BitVec.ofNat 64 (col0 / 8), cdiv (col0 + n) 8 - col0 / 8)

/-- Whether one of n bytes of a row lies on a page that is not of the normal class: its trap. A byte that fails another
check is met when its row is read. -/
def rowClass (g i : Nat) (off row : Word) (h : Hart) : Nat → Nat → State → Res (Option FRec)
  | 0, _, s => .ok none s
  | n + 1, k, s =>
    let r : Req := { rw := .read, g := g, off := off + BitVec.ofNat 64 k, n := 1, align := 1, elem := i, ew := 8,
                     col := false }
    match checkReq r h true s with
    | .ok c t => if c.2.1.attr.mc ≠ .normal then .ok (some { c.1.fault 0x0E with ew := 0, off := row }) t
                 else rowClass g i off row h n (k + 1) t
    | .stop .wait t => .stop .wait t
    | .stop (.trap _) _ => rowClass g i off row h n (k + 1) s

/-- The trap of the first metadata row on a page that is not of the normal class, before any row is read (18 R336). -/
def rowsClass (l : LastRec) (h : Hart) (row0 col0 md : Nat) : Nat → Nat → State → Res (Option FRec)
  | 0, _, s => .ok none s
  | n + 1, i, s =>
    let run := metaRun l (row0 + i) col0 md
    (rowClass (lastMseg l) i run.1 (metaRow l (row0 + i)) h run.2 0 s).bind fun t s =>
      match t with
      | some f => .ok (some f) s
      | none => rowsClass l h row0 col0 md n (i + 1) s

/-- The fields of the rows of a metadata group: one number of md/4 fields of 4 bits for each row. A row is read whole
before its groups are looked at, so that a memory fault on its later bytes comes before cause 0x11 of an earlier group:
the model's choice (log entry 86). -/
def readRows (l : LastRec) (h : Hart) (bad : FRec) (row0 col0 md : Nat) : Nat → Nat → Nat → State → Res Nat
  | 0, _, acc, s => .ok acc s
  | n + 1, i, acc, s =>
    let row := metaRow l (row0 + i)
    let off := (metaRun l (row0 + i) col0 md).1
    let k := (metaRun l (row0 + i) col0 md).2
    let whole : Req := { rw := .read, g := lastMseg l, off := off, n := k, align := 1, elem := i, ew := 8, col := false }
    let a := whole.acc h s.cur true
    match segCheck (h.getG (lastMseg l)) whole with
    | some c => .stop (.trap { (if c = 0x06 then a.segFault c else a.fault c) with off := row }) s
    | none =>
      (rowFault row (readMetaBytes (lastMseg l) i off h k 0 0 s)).bind fun b s =>
        let fields := (b >>> (4 * (col0 / 4 % 2))) % 2 ^ md
        if (upto (md / 4)).any fun j => elt fields 4 j / 4 ≤ elt fields 4 j % 4 then .stop (.trap bad) s
        else readRows l h bad row0 col0 md n (i + 1) (acc + fields <<< (i * md)) s

/-- The last and the metadata of an MLAST: the bits of the group. -/
def mlastRead (g : GIx) (b : XIx) (h : Hart) (s : State) : Res Nat :=
  let o := h.getX b
  let org := (h.getX (pairOf b)).toNat
  let row0 := org % 2 ^ 32
  let col0 := org / 2 ^ 32
  let bad : FRec := { cause := 0x11, off := o, gseg := g.toNat }
  let r : Req := { rw := .read, g := g.toNat, off := o, n := 64, align := 64, elem := 0, ew := 512, col := false }
  (readMetaRun r h s).bind fun x s =>
    let l : LastRec := BitVec.ofNat 512 x
    if !lastValid l (segBase (h.getG (lastSeg l))) || lastSparse l ≠ 1 then .stop (.trap bad) s
    else if col0 % 4 ≠ 0 || decide (lastExt l 1 < row0 + h.mrow) || decide (lastExt l 0 < col0 + h.mdep) then
      .stop (.trap bad) s
    else
      (rowsClass l h row0 col0 h.mdep h.mrow 0 s).bind fun t s =>
        match t with
        | some f => .stop (.trap f) s
        | none => readRows l h bad row0 col0 h.mdep h.mrow 0 0 s

/-- MLAST: its group is pending until it is written, with zeros above the last field. -/
def execMlast (hi : Hint) (g : GIx) (d : VIx) (b : XIx) (s : State) : Out :=
  withHart s fun h0 =>
    let v := s.vlen
    let n := cdiv (h0.mrow * h0.mdep) v
    if h0.ctl.vstart ≠ 0 then trapOut (illegal (.mlast hi g d b)) s
    else if !shapeOk h0 256 then trapOut { cause := 0x12 } s
    else if (h0.getV d.toNat).tag ≠ 0x04 || decide (64 < d.toNat + n) then trapOut (illegal (.mlast hi g d b)) s
    else
      withRegs [] (group d.toNat n) s fun h s =>
        match mlastRead g b h s with
        | .stop (.trap f) s => trapOut f s
        | .stop .wait s => .next s
        | .ok bits s =>
          let vals := writeGroup h d.toNat n v bits (n * (v / 8))
          .next (s.setMe (h.oweMat { dst := d.toNat, vals := vals, flags := 0 }).retire)

end Sys2Proof.Machine
end

