-- ==== Sys2Proof/Machine/Engine.lean ====
section
/-! DEFINITION. The copy engine (spec 19 R338 to R346; 07 R142 to R149; 03 R51, R69, R70; 09 R175, R176): the command,
its checks at issue, its stages as the engine performs them, its follow-on, and its failure. -/

namespace Sys2Proof.Machine

/-! ## The command (19 R338) -/

def Cmd.followWord (m : Cmd) : Nat := fld (m.word 0) 63 32
def Cmd.rel (m : Cmd) : Bool := bit (m.word 0) 31
def Cmd.rsc (m : Cmd) : Nat := fld (m.word 0) 30 28
def Cmd.asc (m : Cmd) : Nat := fld (m.word 0) 26 24
def Cmd.ey (m : Cmd) : Bool := bit (m.word 0) 23
def Cmd.sfmt (m : Cmd) : Nat := fld (m.word 0) 16 11
def Cmd.dfmt (m : Cmd) : Nat := fld (m.word 0) 10 5
def Cmd.rm (m : Cmd) : Nat := fld (m.word 0) 4 2
def Cmd.rows (m : Cmd) : Nat := fld (m.word 3) 55 40
def Cmd.n (m : Cmd) : Nat := fld (m.word 3) 31 0
def Cmd.nxt (m : Cmd) : Nat := fld (m.word 6) 63 31
def Cmd.eyaddr (m : Cmd) : Word := BitVec.ofNat 64 (fld (m.word 6) 30 0)
def Cmd.eyval (m : Cmd) : Nat := m.word 7

/-- Format of a code of R201; codes above 0x12 fail the checks. -/
def fmtOf (n : Nat) : Fmt := (Fmt.ofCode n).getD .i8

/-- A scope of a code; codes above 100 fail the checks. -/
def scopeOfCode (n : Nat) : Scope :=
  if n = 0 then .h else if n = 1 then .c else if n = 2 then .k else if n = 3 then .d else .s

/-- One side of a command: 0 memory, 1 scratchpad, 2 memory through a last. -/
structure Side where
  kind : Nat
  col : Bool
  fmt : Fmt
  seg : Nat
  addr : Word
  step : Word
  write : Bool
  deriving DecidableEq, Repr

def Cmd.src (m : Cmd) : Side :=
  { kind := fld (m.word 0) 22 21, col := bit (m.word 0) 18, fmt := fmtOf m.sfmt, seg := fld (m.word 3) 63 60,
    addr := BitVec.ofNat 64 (m.word 1), step := BitVec.ofNat 64 (m.word 4), write := false }

def Cmd.dst (m : Cmd) : Side :=
  { kind := fld (m.word 0) 20 19, col := bit (m.word 0) 17, fmt := fmtOf m.dfmt, seg := fld (m.word 3) 59 56,
    addr := BitVec.ofNat 64 (m.word 2), step := BitVec.ofNat 64 (m.word 5), write := true }

def Side.w (o : Side) : Nat := o.fmt.width
def Side.rw (o : Side) : Rw := if o.write then .write else .read

/-- Whether a command has elements to move. -/
def Cmd.payload (m : Cmd) : Bool := m.rows ≠ 0 && m.n ≠ 0

/-- Segment register n as it stood at issue. -/
def Cmd.segment (m : Cmd) (n : Nat) : BitVec 128 := m.segs.getD n 0

/-! ## Stages (07 R144) -/

/-- The stage after the release. -/
def Cmd.afterRelease (m : Cmd) : Stage := if m.ey then .eyelet else .done
/-- The stage after the payload. -/
def Cmd.afterPayload (m : Cmd) : Stage := if m.rel then .release else m.afterRelease
/-- The first stage of a command. A command with no payload passes through its transfer too, where its lasts are still
read (02 R41). -/
def Cmd.first (m : Cmd) : Stage := if m.acq then .acquire else .transfer

/-- A command as it begins. -/
def Cmd.fresh (m : Cmd) : Cmd :=
  { m with stage := m.first, r := 0, j := 0, srcLast := none, dstLast := none, flags := 0, failed := none,
           follow := m.follow.map fun f => { f with own := [] } }

/-! ## The checks of R341 -/

/-- What issues a command. -/
inductive CmdForm where
  | xcp
  | xcpm
  | record
  deriving DecidableEq, Repr

/-- Whether a follow-on word names MMA or MMAS, by its major opcode. -/
def namesMatrix (w : Nat) : Bool := w % 128 = 0x61 || w % 128 = 0x62

/-- Order 1. -/
def Cmd.formOk (m : Cmd) (f : CmdForm) : Bool :=
  fld (m.word 0) 1 0 = 0 && fld (m.word 3) 39 32 = 0 && (f = .record || m.nxt = 0)
    && m.src.kind ≠ 3 && m.dst.kind ≠ 3 && decide (m.sfmt ≤ 0x12) && decide (m.dfmt ≤ 0x12)
    && (m.rm = 0 || (m.rm = 5 && m.sfmt ≠ m.dfmt)) && decide (m.rsc ≤ 4) && decide (m.asc ≤ 4)
    && !(m.src.kind = 1 && m.src.col) && !(m.dst.kind = 1 && m.dst.col)
    && (match f with
        | .xcp => m.followWord = 0
        | .xcpm => namesMatrix m.followWord
        | .record => m.followWord = 0 || namesMatrix m.followWord)

/-- Bytes that element 0 of an operand's row touches. -/
def elemBytes (w : Nat) : Nat := cdiv w 8

/-- The alignment that an element of a side needs: in column orientation that of its width (02 R30, 19 R339). -/
def Side.align (o : Side) : Nat := if o.col && decide (8 ≤ o.w) then o.w / 8 else 1

/-- Order 2 for one row of a memory operand: its first element, then the row as one range. -/
def rowCheck (o : Side) (g : BitVec 128) (off : Word) (n : Nat) : Option Nat :=
  let r := fun k => segCheck g { rw := o.rw, g := o.seg, off := off, n := k, align := o.align, elem := 0, ew := o.w,
                                 col := o.col }
  match r (elemBytes o.w) with
  | some c => some c
  | none => r (cdiv (n * o.w) 8)

/-- Order 2 for the rows of a memory operand. -/
def rowsCheck (o : Side) (g : BitVec 128) (n : Nat) : Nat → Word → Option Nat
  | 0, _ => none
  | k + 1, off =>
    match rowCheck o g off n with
    | some c => some c
    | none => rowsCheck o g n k (off + o.step)

/-- Order 2 for one side. A last is only read, on either side. -/
def Cmd.checkMem (m : Cmd) (o : Side) : Option Nat :=
  let g := m.segment o.seg
  if o.kind = 0 then (if m.n = 0 then none else rowsCheck o g m.n m.rows o.addr)
  else if o.kind = 2 then
    segCheck g { rw := .read, g := o.seg, off := o.addr, n := 64, align := 64, elem := 0, ew := 512, col := false }
  else none

/-- The core and the grant that a scratchpad address of a command names (01 R18, R19). -/
def State.cmdGrant (s : State) (core blk : Nat) (a : Word) : Option (Nat × Grant) :=
  if spReserved a then none
  else if spFar a then (spTarget a).bind fun t => ((s.core t).grant blk).map fun g => (t, g)
  else ((s.core core).grant blk).map fun g => (core, g)

/-- Whether f holds of every number below n; the largest is asked first. -/
def allBelow (f : Nat → Bool) : Nat → Bool
  | 0 => true
  | n + 1 => f n && allBelow f n

/-- Where element (r, j) of a scratchpad operand lies: the grant offsets of its bytes, each placed on its own (03 R64),
and its first bit (19 R339). -/
def Side.spPlace (o : Side) (r j : Nat) : List Nat × Nat :=
  let sh := j * o.w % 8
  ((upto (cdiv (sh + o.w) 8)).map fun k => spOff o.addr o.step 0 r (j * o.w / 8 + k), sh)

/-- Order 3 for one element. -/
def Side.spElemOk (o : Side) (g : Grant) (r j : Nat) : Bool :=
  let p := o.spPlace r j
  let last := j * o.w / 8 + p.1.length - 1
  (descRot o.step = 0 || decide (last < descRpitch o.step)) && p.1.all fun k => decide (k < g.bytes)

/-- Order 3 for one side. -/
def Cmd.checkSp (m : Cmd) (o : Side) (core : Nat) (s : State) : Option Nat :=
  if o.kind ≠ 1 || !m.payload then none
  else
    match s.cmdGrant core m.blk o.addr with
    | none => some 0x10
    | some (_, g) =>
      let ok := !descReserved o.step && (descRot o.step = 0 || (descRpitch o.step ≠ 0 && descRpitch o.step % 8 = 0))
        && allBelow (fun r => allBelow (fun j => o.spElemOk g r j) m.n) m.rows
      if ok then none else some 0x10

/-- Order 3 for the eyelet: its grant first, then its alignment. -/
def Cmd.checkEyelet (m : Cmd) (core : Nat) (s : State) : Option Nat :=
  if !m.ey then none
  else
    match s.cmdGrant core m.blk m.eyaddr with
    | none => some 0x10
    | some (_, g) =>
      if g.bytes < spOffset m.eyaddr + 8 then some 0x10
      else if spOffset m.eyaddr % 8 ≠ 0 then some 0x05 else none

/-- The operands of a follow-on instruction. -/
def followIn : Instr → Option MatIn
  | .mma _ z _ d a b => some { sparse := false, z := z, d := d.toNat, a := a, b := b }
  | .mmas _ z _ d a b => some { sparse := true, z := z, d := d.toNat, a := .reg a, b := b }
  | _ => none

/-- The follow-on instruction of a command. -/
def Cmd.followInstr (m : Cmd) : Option Instr :=
  if m.followWord = 0 then none
  else
    match decode (BitVec.ofNat 32 m.followWord) with
    | .ok i => some i
    | .error _ => none

/-- Order 4. -/
def Cmd.checkFollow (m : Cmd) (h : Hart) (core : Nat) (s : State) : Option Nat :=
  if m.followWord = 0 then none
  else
    match m.followInstr with
    | none => some 0x01
    | some i =>
      match followIn i with
      | none => some 0x01
      | some x =>
        let c := s.core core
        match x.check i h c.vlen c.part with
        | some f => some f.cause
        | none => (x.checkTiles i (c.grantOf m.blk) h).map FRec.cause

/-- Orders 1 to 4: the inner cause of the first check that fails. Within order 2 or 3 the spec gives no order between the
source, the destination and the eyelet: the model takes them in this order (log entry 128). -/
def Cmd.check (m : Cmd) (f : CmdForm) (h : Hart) (core : Nat) (s : State) : Option Nat :=
  if !m.formOk f then some 0x01
  else firstSome [m.checkMem m.src, m.checkMem m.dst, m.checkSp m.src core s, m.checkSp m.dst core s,
                  m.checkEyelet core s, m.checkFollow h core s]

/-! ## Issue -/

/-- The trap of a command that fails at issue: no transfer was in memory. -/
def engineTrap (inner : Nat) : FRec := { cause := 0x13, inner := inner, rep := inner = 0x0B }

/-- Whether the store buffer holds back a command of a slot (05 R100). -/
def Core.holdsCommand (c : Core) (slot : Nat) : Bool :=
  c.sb.any fun e => e.slot = slot && (e.state = .pending || e.state = .acked || e.state = .replaying)

/-- Whether a follow-on has not reached the array. -/
def Cmd.followWaits (m : Cmd) : Bool :=
  match m.follow with
  | some f => f.stage = .waiting
  | none => false

/-- Whether a command is outstanding: a stage of it is open, the issue of its follow-on among them when it has no eyelet
(07 R144, R149). -/
def Cmd.isOpen (m : Cmd) : Bool := m.stage ≠ .done || (!m.ey && m.followWaits)

/-- Outstanding commands of a slot. -/
def Core.outstanding (c : Core) (slot : Nat) : List Cmd := c.cmds.filter fun m => m.slot = slot && m.isOpen

/-- Whether a place for a command of a slot is free (09 R175). -/
def Core.hasPlace (c : Core) (slot : Nat) : Bool :=
  decide ((c.outstanding slot).length < 64 / c.part) && decide ((c.cmds.filter Cmd.isOpen).length < 64)

/-- A command as a hart builds it. -/
def State.newCmd (s : State) (h : Hart) (c : List Word) (chain : Option (BitVec 128 × Nat)) : Cmd :=
  { slot := s.mySlot, nth := h.ncp, c := c, segs := (upto 16).map h.getG, chain := chain, vsr := h.ctl.vsr,
    ks := h.settle.k,
    space := h.spaceTag, user := h.user, blk := h.blk, stage := .record, r := 0, j := 0, srcLast := none,
    dstLast := none, flags := 0, failed := none, follow := none }

/-- A follow-on with its hart's registers as they stand, the values of older loads among them. -/
def followOf (i : Instr) (h : Hart) : Follow :=
  let q := h.settle
  { instr := i, x := q.x, v := q.v, k := q.k, ctl := q.ctl, nth := h.nmx, own := [], stage := .waiting }

/-! ## Memory accesses of the engine (03 R51, 19 R343) -/

/-- An access of a command. -/
def Cmd.acc (m : Cmd) (core g : Nat) (off : Word) (va ew : Nat) (col : Bool) : Acc :=
  { core := core, slot := m.slot, space := m.space, user := m.user, kind := 4, gseg := g, off := off, rva := va, pva := va,
    va := va, elem := 0, ew := ew, col := col, requester := true }

/-- One run of bytes of a transfer, with the entry of its page. -/
structure EngRun where
  a : Acc
  rw : Rw
  e : FilterEntry
  n : Nat
  deriving DecidableEq, Repr

/-- The address of a run's first byte in the row view. -/
def EngRun.cell (r : EngRun) : Nat := cellOf r.a r.e

/-- The page's entry for a run: presence, with a walk at the memory side where the filter has no entry with a frame
(19 R343). -/
def enginePage (a : Acc) (rw : Rw) (s : State) : Res FilterEntry :=
  match (s.core a.core).filter.find? fun e => e.covers a.space a.va && !e.pd with
  | some e => .ok e s
  | none =>
    (reach a rw.walk s).bind fun l s =>
      match confirmedFill a.core a.slot a.pva a.kind l s with
      | some r => .ok r.1 r.2
      | none => .stop .wait s

/-- Orientation of a run: a column access needs the page's class, at the width of the command's format (02 R30, 19 R339). -/
def EngRun.orient (r : EngRun) : Option FRec := orientCheck r.a r.e

/-- The memory class of a run's page. -/
def EngRun.mclass (r : EngRun) : Option FRec := if r.e.attr.mc ≠ .normal then some (r.a.fault 0x0E) else none

/-- What the memory side refuses, and the names, run by run. -/
def nameRuns : List EngRun → State → Res Unit
  | [], s => .ok () s
  | r :: t, s => (reachNamed r.a r.rw.walk s).bind fun _ s => nameRuns t s

/-- The checks of the runs of one transfer after presence, kind by kind: rights, orientation, the memory class, the names
(19 R343). Among runs that fail one check the first decides, the source's before the destination's (log entry 88). -/
def checkRuns (rs : List EngRun) (s : State) : Res Unit :=
  match firstSome (rs.map (fun r => rightsCheck r.a r.rw r.e) ++ rs.map EngRun.orient ++ rs.map EngRun.mclass) with
  | some t => .stop (.trap t) s
  | none => nameRuns rs s

/-- Reads n bytes of one slot: the L1's bytes where they are present, else the L2, which is filled. -/
def engineRead (a : Acc) (t : TClass) (cell n : Nat) (s : State) : Res Nat :=
  let near := fun (s : State) => Cache.find (s.core a.core).l1 a.space cell
  let missing := (upto n).filter fun k => !(near s).any fun f => f.present (cell + k)
  let got : Res Unit := if missing.isEmpty then .ok () s
    else needL2 { a with va := cell } t (missing.map fun k => (cell + k, 1)) (s.ackBypass a.core)
  got.bind fun _ s =>
    let far := Cache.find (s.cluster (clusterOf a.core)).l2 a.space cell
    let byteAt := fun (va : Nat) =>
      let out := match far with
        | some g => g.byte va
        | none => (0, false)
      match near s with
      | some f => if f.present va then f.byte va else out
      | none => out
    let bs := (upto n).map fun k => byteAt (cell + k)
    if bs.any (·.2) then .stop (.trap (a.fault 0x0F)) s else .ok (ofBytes (bs.map (·.1))) s

/-- Writes n bytes of one slot: an allocated slot or frame of the L1, else the L2. -/
def engineWrite (a : Acc) (t : TClass) (cell n x : Nat) (s : State) : State :=
  let s := (s.ackBypass a.core).drainL1 a.core
  let blk := s.blkAt a.core a.slot
  match Cache.find (s.core a.core).l1 a.space cell with
  | some _ => s.writeL1Run a.core a.space cell t n x false blk
  | none => (s.writeL2Run a.core a.space cell t n x false blk).drainL2 (clusterOf a.core)

/-- The runs of n bytes from an address, one for each slot. -/
def slotRuns (va n : Nat) : List (Nat × Nat) :=
  let k := 128 - va % 128
  if n ≤ k then [(va, n)] else [(va, k), (va + k, n - k)]

/-- The runs of an element, whose pages are present. -/
def pageRuns (a : Acc) (rw : Rw) : List (Nat × Nat) → List EngRun → State → Res (List EngRun)
  | [], acc, s => .ok acc.reverse s
  | (va, n) :: t, acc, s =>
    let b := { a with va := va, pva := va, rva := va, off := a.off + BitVec.ofNat 64 (va - a.va) }
    (enginePage b rw s).bind fun e s => pageRuns a rw t ({ a := b, rw := rw, e := e, n := n } :: acc) s

/-- The runs of one read, with every check passed. -/
def engineRuns (a : Acc) (rw : Rw) (runs : List (Nat × Nat)) (s : State) : Res (List EngRun) :=
  (pageRuns a rw runs [] s).bind fun rs s => (checkRuns rs s).bind fun _ s => .ok rs s

/-- Reads the runs of an element. -/
def readRuns : List EngRun → Nat → Nat → State → Res Nat
  | [], _, x, s => .ok x s
  | r :: t, sh, x, s =>
    (engineRead r.a r.e.attr.tclass r.cell r.n s).bind fun b s => readRuns t (sh + 8 * r.n) (x + b <<< sh) s

/-- Writes the runs of an element. -/
def writeRuns : List EngRun → Nat → State → State
  | [], _, s => s
  | r :: t, x, s => writeRuns t (x >>> (8 * r.n)) (engineWrite r.a r.e.attr.tclass r.cell r.n (x % 2 ^ (8 * r.n)) s)

/-! ## Where elements lie (19 R339) -/

/-- An element's place in memory: its access, its first bit and its bytes. -/
structure Place where
  a : Acc
  sh : Nat
  n : Nat
  deriving DecidableEq, Repr

/-- The place of element (r, j) of a memory operand, or of one through a last; a failure there. The segment checks of an
element that a last places include the alignment of a column-view address: R30 gives it cause 0x05 there, which R343's table
does not list (log entry 88). A last without column access fails the element with 0x0A before its other checks, an order
that the spec leaves open (log entry 88); what the record's va and off are then it leaves open too (R339 names a column-view
address only where col = 1): the model records the column-view address that the element would have (log entry 119). -/
def Cmd.place (m : Cmd) (core : Nat) (o : Side) (last : Option LastRec) (r j : Nat) : Except FRec Place :=
  let w := o.w
  match o.kind, last with
  | 2, some l =>
    let g := m.segment (lastSeg l)
    let i0 := fld o.step.toNat 31 0
    let i1 := fld o.step.toNat 63 32
    let p := if o.col then 8 * lastColByte l (i0 + r) (i1 + j) 0 0 else lastBit l (i0 + j) (i1 + r) 0 0
    let sh := if o.col then 0 else p % 8
    let off : Word := BitVec.ofNat 64 (p / 8)
    let a := m.acc core (lastSeg l) off ((segBase g + p / 8) % 2 ^ 57) w o.col
    let n := cdiv (sh + w) 8
    if o.col && !lastCol l then .error (a.fault 0x0A)
    else
      match segCheck g { rw := o.rw, g := lastSeg l, off := off, n := n, align := o.align, elem := 0, ew := w,
                         col := o.col } with
      | some c => .error (a.fault c)
      | none => .ok { a := a, sh := sh, n := n }
  | _, _ =>
    let off := o.addr + BitVec.ofNat 64 r * o.step + BitVec.ofNat 64 (j * w / 8)
    let sh := if o.col then 0 else j * w % 8
    .ok { a := m.acc core o.seg off (segBase (m.segment o.seg) + off.toNat) w o.col, sh := sh, n := cdiv (sh + w) 8 }

/-! ## Lasts, and issue -/

/-- The record of a failed transfer (05 R111): the memory fields where it was in memory. -/
def transferRecord (f : FRec) (va : Nat) (space : BitVec 16) : FRec :=
  let queued := f.cause = 0x0B || f.cause = 0x0D
  { cause := 0x13, inner := f.cause, rep := f.cause = 0x0B, va := va, space := space, wres := f.wres,
    level := if f.cause = 0x0B then f.level else 7, hostq := if queued then f.hostq else 0xFFFF }

/-- Whether a failure record is of an access to memory. -/
def inMemory (f : FRec) : Bool := f.kind = 4 && f.cause ≠ 0x11

/-- The record that a failed transfer leaves. -/
def failureRecord (f : FRec) : FRec :=
  if inMemory f then transferRecord f f.va f.space else engineTrap f.cause

/-- Reads one last and validates it (02 R37, R39; 19 R343). -/
def readLast (m : Cmd) (core : Nat) (o : Side) (s : State) : Res (Option LastRec) :=
  if o.kind ≠ 2 then .ok none s
  else
    let va := segBase (m.segment o.seg) + o.addr.toNat
    (engineRuns (m.acc core o.seg o.addr va 512 false) .read [(va, 64)] s).bind fun rs s =>
      (readRuns rs 0 0 s).bind fun x s =>
        let l : LastRec := BitVec.ofNat 512 x
        if lastValid l (segBase (m.segment (lastSeg l))) && lastSparse l = 0 then .ok (some l) s
        else .stop (.trap { cause := 0x11 }) s

/-- Whether a command still has lasts to read. -/
def Cmd.lastsDue (m : Cmd) : Bool :=
  (m.src.kind = 2 && m.srcLast.isNone) || (m.dst.kind = 2 && m.dstLast.isNone)

/-- Reads the lasts that a command names, as it issues (02 R41, 19 R343): what it has read, or the failure that its payload
then meets; it waits while a read of them has to. The source's is read first, an order that decides the cause when both fail
and that the spec leaves open (log entry 77). A flagged command performs its acquire before this first read (07 R143). -/
def Cmd.readLasts (m : Cmd) (core : Nat) (s : State) : Res Cmd :=
  if !m.lastsDue then .ok m s
  else
    let t := if m.acq then (s.ackBypass core).acquireSteps core m.space (scopeOfCode m.asc) else s
    match (readLast m core m.src t).bind fun a s => (readLast m core m.dst s).bind fun b s =>
        .ok { m with srcLast := a, dstLast := b } s with
    | .ok m s => .ok m s
    | .stop (.trap f) s => .ok { m with failed := some (failureRecord f) } s
    | .stop .wait _ => .stop .wait s

/-- Puts a command in the engine; its instruction retires. -/
def issueCmd (m : Cmd) (h : Hart) (s : State) : Out :=
  let c := s.core s.myCore
  if c.holdsCommand s.mySlot || !c.hasPlace s.mySlot then .next s
  else
    match m.readLasts s.myCore ((s.ackBypass s.myCore).ackTarget s.myCore) with
    | .stop _ _ => .next s
    | .ok m s =>
      let c := s.core s.myCore
      let h := { h with ncp := h.ncp + 1 }
      .next ((s.setCore s.myCore { c with cmds := c.cmds ++ [m] }).setMe h.retire)

/-- The eight command registers from x(A). -/
def cmdWords (h : Hart) (a : XIx) : List Word := (upto 8).map fun k => h.getX (BitVec.ofNat 5 (a.toNat + k))

def execXcp (a : XIx) (s : State) : Out :=
  withHart s fun h =>
    let m := s.newCmd h (cmdWords h a) none
    match m.check .xcp h s.myCore s with
    | some inner => trapOut (engineTrap inner) s
    | none => issueCmd m.fresh h s

/-- Vector registers that a follow-on reads. -/
def MatIn.reads (x : MatIn) (h : Hart) (vlen : Nat) : List Nat :=
  x.aRegs h vlen ++ x.bRegs h vlen ++ x.metaRegs h vlen ++ (if x.z then [] else x.dRegs)

def execXcpm (a : XIx) (s : State) : Out :=
  withHart s fun h0 =>
    let m := s.newCmd h0 (cmdWords h0 a) none
    match m.check .xcpm h0 s.myCore s with
    | some inner => trapOut (engineTrap inner) s
    | none =>
      match m.followInstr, m.followInstr.bind followIn with
      | some i, some x =>
        withRegs (x.reads h0 s.vlen) x.dRegs s fun h s =>
          issueCmd { m with follow := some (followOf i h) }.fresh h.countMat s
      | _, _ => issueCmd m.fresh h0 s

def execXchain (g : GIx) (a : XIx) (s : State) : Out :=
  withHart s fun h =>
    let o := h.getX a
    let seg := h.getG g.toNat
    match segCheck seg { rw := .read, g := g.toNat, off := o, n := 64, align := 64, elem := 0, ew := 512,
                         col := false } with
    | some inner => trapOut (engineTrap inner) s
    | none => issueCmd (s.newCmd h (List.replicate 8 0) (some (seg, o.toNat))) h s

/-! ## The commands of a slot -/

/-- Changes the first command that meets a condition. -/
def mapFirst (p : Cmd → Bool) (f : Cmd → List Cmd) : List Cmd → List Cmd
  | [] => []
  | m :: t => if p m then f m ++ t else m :: mapFirst p f t

/-- The command of a slot that the engine serves: the oldest that is not done (09 R175). -/
def isHead (slot : Nat) (m : Cmd) : Bool := m.slot = slot && m.stage ≠ .done

/-- Vector registers that a slot's follow-ons still owe, of the commands up to its oldest one that is not done: a younger
command's follow-on is still to come (07 R147, 19 R342). -/
def Core.olderFollows (c : Core) (slot : Nat) : List Nat :=
  let mine := c.cmds.filter fun m => m.slot = slot
  ((mine.takeWhile fun m => m.stage = .done) ++ (mine.find? (isHead slot)).toList).flatMap Cmd.pendingGroup

/-- Whether every command of the hart of a slot may be served: while a failure is pending, none starts, except as the
hart drains for pre-emption (19 R345). -/
def Hart.served (h : Hart) : Bool :=
  h.fail.isNone || (match h.run with
    | .draining _ => true
    | _ => false)

/-- The command that the engine serves for a slot. -/
def State.headCmd (s : State) (core slot : Nat) : Option Cmd :=
  match s.hart? (hkey core slot) with
  | none => none
  | some h => ((s.core core).cmds.find? (isHead slot)).filter fun m => h.served || m.begun

/-- Whether a command's next step takes a place in the engine's rotation: a transfer, or the read of a record once the
follow-on of the record before has reached the array (09 R175, 07 R144). -/
def Cmd.transfers (m : Cmd) : Bool := m.stage = .transfer || (m.stage = .record && m.chain.isSome && !m.followWaits)

/-- The slot that the engine serves next: the first after the one last served whose command has a transfer to make
(09 R175). -/
def State.engineDue (s : State) (core : Nat) : Option Nat :=
  ((upto numSlots).map fun i => ((s.core core).engTurn + 1 + i) % numSlots).find? fun slot =>
    (s.headCmd core slot).any Cmd.transfers

/-- Replaces that command. -/
def State.putHead (s : State) (core slot : Nat) (l : List Cmd) : State :=
  let c := s.core core
  s.setCore core { c with cmds := mapFirst (isHead slot) (fun _ => l) c.cmds }

/-! ## Failure (19 R343, R345) -/

/-- A failure record whose hart has met a second failure: the trap is fatal (10 R190). -/
def FRec.twice (f : FRec) : FRec := { f with inner := 0x13, rep := false }

/-- The pending failure of a hart, with a new one: a second failure makes the first fatal, also where a trap has delivered
it already (19 R345). -/
def Hart.failWith (h : Hart) (f : CmdFailure) : Hart :=
  match h.fail with
  | none => { h with fail := some f }
  | some g =>
    { h with fail := some { g with frec := g.frec.twice },
             trap := h.trap.map fun t => if t.frec.cause = 0x13 then { t with frec := t.frec.twice } else t }

/-- The command with the words of its record (19 R345). -/
def Cmd.asRecord (m : Cmd) : Cmd :=
  match m.word0 with
  | some w => { m with c := w :: m.c.tail, word0 := none }
  | none => m

/-- The command as it is issued again: the record's words, from its first stage, with a follow-on that has not run. -/
def Cmd.again (m : Cmd) : Cmd :=
  if m.stage = .record then { m with failed := none } else m.asRecord.fresh

/-- Whether a follow-on has issued and not completed. -/
def Cmd.followRuns (m : Cmd) : Bool :=
  match m.follow with
  | some f =>
    match f.stage with
    | .issued _ => true
    | _ => false
  | none => false

/-- What is left of a command that is done: its follow-on, if that is open. -/
def Cmd.remains (m : Cmd) : List Cmd := if m.followWaits || m.followRuns then [{ m with stage := .done }] else []

/-- A command's last stage has taken effect: its flags accrue (12 R230), its failure becomes the hart's, and a chain
goes on to its next record (19 R344). `at` is the stage from which a failed command is issued again. -/
def endCmd (core : Nat) (m : Cmd) (again : Cmd) (s : State) : State :=
  let key := hkey core m.slot
  match s.hart? key with
  | none => s
  | some h =>
    let h := h.accrue m.flags
    match m.failed with
    | some f =>
      let fl : CmdFailure :=
        { frec := f, lost := m.followWaits, resolved := false,
          cmd := { again with follow := if m.followWaits then m.follow else none } }
      let left := { m with follow := if m.followWaits then none else m.follow }
      (s.putHead core m.slot left.remains).setHart key (h.failWith fl)
    | none =>
      match m.chain with
      | some (g, _) =>
        if m.nxt = 0 then (s.putHead core m.slot m.remains).setHart key h
        else (s.putHead core m.slot
          [{ m with stage := .record, chain := some (g, 64 * m.nxt), flags := 0 }]).setHart key h
      | none => (s.putHead core m.slot m.remains).setHart key h

/-- Moves a command to a stage, or ends it. -/
def toStage (core : Nat) (m : Cmd) (st : Stage) (s : State) : State :=
  let m := { m with stage := st }
  if st = .done then endCmd core m m.again s else s.putHead core m.slot [m]

/-- A command fails in its payload: a flagged release and the eyelet still follow (07 R148). -/
def failCmd (core : Nat) (m : Cmd) (f : FRec) (s : State) : State :=
  let m := { m with failed := some f }
  toStage core m m.afterPayload s

/-! ## One element (19 R340, R343) -/

/-- An element's place on one side of a command: bytes of a grant, with the core that holds them, or runs of memory, with
its first bit. -/
inductive ElemPlace where
  | grant (core : Nat) (g : Grant) (bytes : List Nat) (sh : Nat)
  | runs (rs : List EngRun) (va sh : Nat)
  deriving DecidableEq, Repr

/-- Finds the current element on one side, and a failure there: its grant, or its segment checks where a last placed it
(19 R343). -/
def elemPlace (m : Cmd) (core : Nat) (o : Side) (last : Option LastRec) (s : State) : Except FRec (ElemPlace ⊕ Place) :=
  if o.kind = 1 then
    match s.cmdGrant core m.blk o.addr with
    | none => .error { cause := 0x10 }
    | some (t, g) => let p := o.spPlace m.r m.j; .ok (.inl (.grant t g p.1 p.2))
  else (m.place core o last m.r m.j).map .inr

/-- Finds the pages of an element's place. -/
def pagePlace (o : Side) (p : ElemPlace ⊕ Place) (s : State) : Res ElemPlace :=
  match p with
  | .inl q => .ok q s
  | .inr p => (pageRuns p.a o.rw (slotRuns p.a.va p.n) [] s).bind fun rs s => .ok (.runs rs p.a.va p.sh) s

/-- The runs of memory of a place. -/
def ElemPlace.memRuns : ElemPlace → List EngRun
  | .grant _ _ _ _ => []
  | .runs rs _ _ => rs

/-- The places of the current element on both sides, with every check passed but poison: each kind of check is made on both
sides before the next (19 R343). -/
def elemPlaces (m : Cmd) (core : Nat) (s : State) : Res (ElemPlace × ElemPlace) :=
  match elemPlace m core m.src m.srcLast s, elemPlace m core m.dst m.dstLast s with
  | .error f, _ => .stop (.trap f) s
  | .ok _, .error f => .stop (.trap f) s
  | .ok p, .ok q =>
    (pagePlace m.src p s).bind fun p s => (pagePlace m.dst q s).bind fun q s =>
      (checkRuns (p.memRuns ++ q.memRuns) s).bind fun _ s => .ok (p, q) s

/-- The bytes of a place, as a number; a poisoned word fails. -/
def readPlace (p : ElemPlace) (s : State) : Res Nat :=
  match p with
  | .grant t g bytes _ =>
    let c := s.core t
    if bytes.any fun o => c.spPoisoned g o 1 then .stop (.trap { cause := 0x0F }) s
    else .ok (ofBytes (bytes.map fun o => BitVec.ofNat 8 (c.spRead g o 1))) s
  | .runs rs _ _ => readRuns rs 0 0 s

/-- The code of a source element of width w. -/
def readElem (w : Nat) (p : ElemPlace) (s : State) : Res Nat :=
  let sh := match p with
    | .grant _ _ _ sh => sh
    | .runs _ _ sh => sh
  (readPlace p s).bind fun x s => .ok ((x >>> sh) % 2 ^ w) s

/-- Converts a code for destination element e: the code and its flags. -/
def Cmd.convertElem (m : Cmd) (e code : Nat) : Nat × Nat :=
  if m.sfmt = m.dfmt then (code, 0)
  else
    let seed := m.vsr.toNat % 2 ^ 32
    let mode := if m.rm = 5 && bit m.vsr.toNat 48 then RMode.sr else .rne
    let both := m.src.fmt.isInt && m.dst.fmt.isInt
    let r := convertTag both m.dst.fmt { mode := mode, dither := dither e seed } (m.src.fmt.value code)
    (r.code, r.flags ||| r.quiet)

/-- Writes bytes of a grant: those that follow each other in one piece, so that a word written whole holds no poison. -/
def Core.spPut (c : Core) (g : Grant) (bytes : List Nat) (x : Nat) : Core :=
  let o := bytes.headD 0
  if bytes = (upto bytes.length).map (o + ·) then c.spWrite g o (toBytes bytes.length x)
  else (bytes.zip (toBytes bytes.length x)).foldl (fun c q => c.spWrite g q.1 [q.2]) c

/-- Writes a destination element; answers the flags of its conversion. An element narrower than a byte keeps the byte's other
bits, which are read first: in memory, where such a byte lies in a poisoned word, that read fails the command with 0x0F, while
a scratchpad byte is read as it stands; R343 names poison only for the data read (log entry 129). -/
def writeElem (m : Cmd) (code : Nat) (p : ElemPlace) (s : State) : Res Nat :=
  let w := m.dst.w
  match p with
  | .grant t g bytes sh =>
    let c := s.core t
    let x := m.convertElem ((8 * bytes.headD 0 + sh) / w) code
    let old := ofBytes (bytes.map fun o => BitVec.ofNat 8 (c.spRead g o 1))
    .ok x.2 (s.setCore t (c.spPut g bytes (put old sh w x.1)))
  | .runs rs va sh =>
    let cell := match rs with
      | r :: _ => r.cell
      | [] => va
    let x := m.convertElem ((8 * cell + sh) / w) code
    if sh = 0 && w % 8 = 0 then .ok x.2 (writeRuns rs x.1 s)
    else (readRuns rs 0 0 s).bind fun old s => .ok x.2 (writeRuns rs (put old sh w x.1) s)

/-! ## The engine's steps -/

/-- The position after element (r, j). -/
def Cmd.advance (m : Cmd) : Cmd := if m.j + 1 < m.n then { m with j := m.j + 1 } else { m with r := m.r + 1, j := 0 }

/-- A command that has a follow-on keeps what it has written into the scratchpad of its own core (19 R342). -/
def Cmd.keepOwn (m : Cmd) (core : Nat) (p : ElemPlace) (s : State) : Cmd :=
  match p, m.follow with
  | .grant t g bytes _, some f =>
    if t ≠ core then m
    else
      let now := bytes.map fun k => (g.phys k, BitVec.ofNat 8 ((s.core core).spRead g k 1))
      { m with follow := some { f with own := now ++ f.own } }
  | _, _ => m

/-- Moves one element: the checks of its source and its destination, then its data. -/
def moveElem (core : Nat) (m : Cmd) (s : State) : Res Cmd :=
  (elemPlaces m core s).bind fun p s =>
    (readElem m.src.w p.1 s).bind fun x s =>
      (writeElem m x p.2 s).bind fun f s =>
        .ok { m.keepOwn core p.2 s with flags := m.flags ||| BitVec.ofNat 8 f }.advance s

/-- Elements of one transfer of 128 bytes (09 R175). Which side's bytes count where the two widths differ, and whether a
transfer runs over the end of a row, the spec does not say: the model takes 128 bytes of the wider side and stops at the
row's end (log entry 122). -/
def Cmd.perTransfer (m : Cmd) : Nat := min (m.n - m.j) (1024 / max m.src.w m.dst.w)

/-- Whether the next element of a side begins in the byte in which the element before it ended. -/
def Cmd.sharesByte (m : Cmd) (o : Side) (last : Option LastRec) : Bool :=
  !o.col &&
    match o.kind, last with
    | 2, some l =>
      let bitOf := fun (r j : Nat) => lastBit l (fld o.step.toNat 31 0 + j) (fld o.step.toNat 63 32 + r) 0 0
      let prev := if m.j ≠ 0 then bitOf m.r (m.j - 1) else bitOf (m.r - 1) (m.n - 1)
      decide ((prev + o.w - 1) / 8 = bitOf m.r m.j / 8)
    | _, _ => m.j * o.w % 8 ≠ 0

/-- Whether the command stands in the middle of a byte of its source or of its destination: the byte is then moved as a
whole, since the command reads its old value or its new one, and so does a reader of what it writes (07 R145). -/
def Cmd.midByte (m : Cmd) : Bool :=
  decide (m.r < m.rows) && (m.r ≠ 0 || m.j ≠ 0) && (m.sharesByte m.src m.srcLast || m.sharesByte m.dst m.dstLast)

/-- Moves n elements, and on to the end of a byte of the source and of the destination: the command as far as they go, and
why it stopped if it did. One that has to wait inside a byte stays where that byte begins (`back`). -/
def moveElems (core : Nat) : Nat → Nat → Cmd × State → Cmd → State → Cmd × Option Stop × State
  | 0, _, _, m, s => (m, none, s)
  | fuel + 1, n, back, m, s =>
    let here := if m.midByte then back else (m, s)
    if n = 0 && !m.midByte then (m, none, s)
    else
      match moveElem core m s with
      | .ok m s => moveElems core fuel (n - 1) here m s
      | .stop (.trap f) s => (m, some (.trap f), s)
      | .stop .wait _ => (here.1, some .wait, here.2)

/-- One transfer of a command that is in its payload, its elements in rising order: payload writes may be performed in any
order, and this one is the model's (log entry 87). -/
def transferStep (core : Nat) (m : Cmd) (s : State) : State :=
  match m.failed with
  | some f => failCmd core m f s
  | none =>
    if !m.payload then toStage core m m.afterPayload s
    else
      match moveElems core (m.perTransfer + m.n * m.rows + 1) m.perTransfer (m, s) m s with
      | (m, some (.trap f), s) => failCmd core m (failureRecord f) s
      | (m, some .wait, s) => s.putHead core m.slot [m]
      | (m, none, s) => if m.r < m.rows then s.putHead core m.slot [m] else toStage core m m.afterPayload s

/-- The engine has served a slot: the rotation goes on from it (09 R175). -/
def State.engineServed (s : State) (core slot : Nat) : State := s.setCore core { s.core core with engTurn := slot }

/-- COPY_TRANSFER (19 R343), of the slot whose turn it is (09 R175). -/
def execCopyTransfer (core slot : Nat) (s : State) : Out :=
  match s.headCmd core slot with
  | some m =>
    if m.stage = .transfer && s.engineDue core = some slot then .next ((transferStep core m s).engineServed core slot)
    else .next s
  | none => .next s

/-- COPY_ACQUIRE (07 R143): every older access of the hart has been performed when its command was issued. -/
def execCopyAcquire (core slot : Nat) (s : State) : Out :=
  match s.headCmd core slot with
  | some m =>
    if m.stage = .acquire then
      .next (toStage core m .transfer ((s.ackBypass core).acquireSteps core m.space (scopeOfCode m.asc)))
    else .next s
  | none => .next s

/-- COPY_RELEASE (07 R143): older commands of the hart are done, and no older entry is buffered (05 R100). -/
def execCopyRelease (core slot : Nat) (s : State) : Out :=
  match s.headCmd core slot with
  | some m =>
    if m.stage = .release then
      .next (toStage core m m.afterRelease (s.releaseSteps core m.space (scopeOfCode m.rsc)))
    else .next s
  | none => .next s

/-- EYELET_WRITE (03 R69, R70): the value, or its complement when the command failed; none when its grant is gone. -/
def execEyeletWrite (core slot : Nat) (s : State) : Out :=
  match s.headCmd core slot with
  | some m =>
    if m.stage = .eyelet then
      let v := if m.failed.isSome then ones 64 - m.eyval else m.eyval
      match s.cmdGrant core m.blk m.eyaddr with
      | some (t, g) =>
        if spOffset m.eyaddr + 8 ≤ g.bytes then
          .next (toStage core m .done (s.setCore t ((s.core t).spWrite g (spOffset m.eyaddr) (toBytes 8 v))))
        else .next (toStage core { m with failed := some (m.failed.getD (engineTrap 0x10)) } .done s)
      | none => .next (toStage core { m with failed := some (m.failed.getD (engineTrap 0x10)) } .done s)
    else .next s
  | none => .next s

/-- A record that fails its checks: its release and its eyelet are performed as far as their own fields pass. The image of the
failed command stays the record (19 R345). -/
def Cmd.crippled (m : Cmd) (core : Nat) (s : State) : Cmd :=
  let c0 := m.word 0
  let c0 := if m.rel && decide (m.rsc ≤ 4) then c0 else put c0 31 1 0
  let c0 := if m.ey && (m.checkEyelet core s).isNone then c0 else put c0 23 1 0
  { m with c := BitVec.ofNat 64 c0 :: m.c.tail, word0 := m.c.head?, follow := none }

/-- CHAIN_RECORD_READ (19 R344): a 64-byte row-oriented load through the chain's segment; the record then runs as a command.
It follows the issue of the record before's follow-on (07 R144). Its own follow-on reads the hart's registers at this read,
and a register that an older follow-on still has to write is read once it has been written (18 R333), so that the record
waits; the follow-on of a younger XCPM, which starts behind the chain, keeps it from nothing. From when its follow-on counts
in the matrix class the spec leaves open: from this read (log entry 89). -/
def execChainRecordRead (core slot : Nat) (s : State) : Out :=
  match s.headCmd core slot, s.hart? (hkey core slot) with
  | some m, some h =>
    match m.chain with
    | none => .next s
    | some (seg, o) =>
      if m.stage ≠ .record || m.followWaits || s.engineDue core ≠ some slot then .next s
      else
        let s := s.engineServed core slot
        -- what is left of the record before it
        let old := if m.followRuns then [{ m with stage := .done }] else []
        let m := { m with follow := none, flags := 0, failed := none, c := List.replicate 8 0 }
        let off : Word := BitVec.ofNat 64 o
        let va := segBase seg + off.toNat
        let a := m.acc core 0 off va 512 false
        let got : Res Nat :=
          match segCheck seg { rw := .read, g := 0, off := off, n := 64, align := 64, elem := 0, ew := 512,
                               col := false } with
          | some c => .stop (.trap (a.fault c)) s
          | none => (engineRuns a .read [(va, 64)] s).bind fun rs s => readRuns rs 0 0 s
        match got with
        | .stop .wait _ => .next s
        | .stop (.trap f) s =>
          let s := s.putHead core slot (old ++ [m])
          .next (endCmd core { m with failed := some (failureRecord f) } m s)
        | .ok x t =>
          let m := { m with c := (upto 8).map fun i => BitVec.ofNat 64 (elt x 64 i) }
          let t := t.putHead core slot (old ++ [m])
          match m.check .record h core t with
          | some inner =>
            let q := m.crippled core t
            .next (toStage core { q with failed := some (engineTrap inner) } q.afterPayload t)
          | none =>
            match m.fresh.readLasts core t with
            | .stop _ _ => .next s
            | .ok m t =>
              match m.followInstr with
              | none => .next (toStage core m m.stage t)
              | some i =>
                let owed := (s.core core).olderFollows slot
                let f := { followOf i h with k := m.ks }
                if (followIn i).any fun x => meets (x.reads h (s.core core).vlen) owed then .next s
                else .next (toStage core { m with follow := some f } m.stage (t.setHart (hkey core slot) h.countMat))
  | _, _ => .next s

/-! ## Follow-ons (07 R147, 19 R342) -/

/-- A hart with the registers that a follow-on reads. -/
def Follow.hart (f : Follow) : Hart := { Hart.reset with x := f.x, v := f.v, k := f.k, ctl := f.ctl }

/-- Whether the operands of a command's follow-on have landed. -/
def Cmd.landed (m : Cmd) : Bool := m.failed.isNone && m.stage ≠ .acquire && m.stage ≠ .transfer && m.followWaits

/-- Which major opcodes are matrix or vector work (09 R177). The spec does not say: the model counts the vector majors, their
settings (VSETL, VTAG, MSHAPE) and the mask branches, and the matrix instructions; it leaves out the memory, scratchpad and
VAMO families (log entry 101). -/
def arrayMajor (m : Nat) : Bool :=
  (0x30 ≤ m && m ≤ 0x36) || (0x38 ≤ m && m ≤ 0x4E) || (0x60 ≤ m && m ≤ 0x63)

/-- Notes on a core that it issues matrix or vector work of a region (09 R177 step 2). -/
def State.noteWork (s : State) (core blk : Nat) : State :=
  let c := s.core core
  let pwr := match s.region blk with
    | some r => r.f.pwr
    | none => 0
  s.setCore core { c with worked := max c.worked pwr }

/-- A core's scratchpad as a follow-on reads it: the bytes that its command wrote are the command's (19 R342). -/
def Follow.sees (f : Follow) (c : Core) : Core :=
  { c with sp := f.own.foldr (fun b (sp : Memory) => sp.write b.1 [b.2]) c.sp }

/-- FOLLOW_ON_ISSUE: it reads its tiles when it reaches the array. A poisoned word there fails it: the command's own
stages go on, its eyelet with its completion value (log entry 90), and a chain goes no further. -/
def execFollowOnIssue (core slot : Nat) (s : State) : Out :=
  let c := s.core core
  match c.cmds.find? (fun m => m.slot = slot && m.landed), s.hart? (hkey core slot) with
  | some m, some h =>
    match m.follow with
    | none => .next s
    | some f =>
      match followIn f.instr with
      | none => .next s
      | some x =>
        let busy := c.cmds.any fun q => q.slot = slot && q.followRuns && meets q.pendingGroup f.group
        if busy then .next s
        else
          let h := h.settleFor x.dRegs
          let g := c.grantOf m.blk
          let q := f.hart
          let v := f.sees c
          match x.checkPoison v g q with
          | some _ =>
            let fl : CmdFailure := { frec := engineTrap 0x0F, cmd := m.fresh, lost := true, resolved := false }
            let keep := fun (m : Cmd) =>
              if m.stage = .done || m.stage = .record then [] else [{ m with follow := none, chain := none }]
            let c := { c with cmds := mapFirst (fun m => m.slot = slot && m.landed) keep c.cmds }
            .next ((s.setCore core c).setHart (hkey core slot) (h.failWith fl))
          | none =>
            let p := x.run v g q h c.vlen
            let keep := fun (m : Cmd) => [{ m with follow := some { f with own := [], stage := .issued p } }]
            let c := { c with cmds := mapFirst (fun m => m.slot = slot && m.landed) keep c.cmds }
            .next (((s.setCore core c).setHart (hkey core slot) h).noteWork core m.blk)
  | _, _ => .next s

/-- FOLLOW_ON_COMPLETE: its D group is written and its flags accrue. -/
def execFollowOnComplete (core slot : Nat) (s : State) : Out :=
  let c := s.core core
  let runs := fun (m : Cmd) => m.slot = slot && m.followRuns
  match c.cmds.find? runs, s.hart? (hkey core slot) with
  | some m, some h =>
    match m.follow with
    | none => .next s
    | some f =>
      match f.stage with
      | .issued p =>
        let keep := fun (m : Cmd) => if m.stage = .done then [] else [{ m with follow := none }]
        let c := { c with cmds := mapFirst runs keep c.cmds }
        .next ((s.setCore core c).setHart (hkey core slot) (h.finishMat p))
      | _ => .next s
  | _, _ => .next s

/-! ## Issuing a failed command again (10 R190, 19 R345) -/

/-- The firmware issues a hart's failed command again, ahead of the held ones; it takes the failed one's place in the
copies class. R175's limits hold back a command at its issue by the hart, and no rule says that one issued again waits for a
place: the model's takes one at once (log entry 116). None while the read of its last has to wait. -/
def State.reissue (s : State) (core slot : Nat) : Option State :=
  match s.hart? (hkey core slot) with
  | none => some s
  | some h =>
    match h.fail with
    | none => some s
    | some f =>
      match f.cmd.readLasts core s with
      | .stop _ _ => none
      | .ok m s =>
        let c := s.core core
        let ahead := fun (l : List Cmd) =>
          if l.any (isHead slot) then mapFirst (isHead slot) (fun q => [m, q]) l else l ++ [m]
        some ((s.setCore core { c with cmds := ahead c.cmds }).setHart (hkey core slot) { h with fail := none })

/-- The firmware returns from a trap that the host has answered with "retry", a failed command issued again (10 R190); none
while it cannot issue it. -/
def State.goBack (s : State) (core slot : Nat) (t : Handling) : Option State :=
  (if t.frec.cause = 0x13 then s.reissue core slot else some s).map fun s =>
    match s.hart? (hkey core slot) with
    | some h => s.setHart (hkey core slot) h.leaveTrap
    | none => s

/-! ## XSTAT (19 R346) -/

/-- Store instructions of a slot that are outstanding: with an entry that is not free (05 R101), or with a bypassing or
target write that has not been acknowledged (07 R149). -/
def Core.openStores (c : Core) (slot : Nat) : List Nat :=
  let sent := ((c.bypass ++ c.target).filter fun w => w.slot = slot).map SentWrite.nth
  ((c.sb.filter fun e => e.slot = slot).map SbEntry.nth ++ sent).foldl nins []

/-- Follow-ons of a slot that are open, by their numbers in the matrix class. -/
def Core.openFollows (c : Core) (slot : Nat) : List Nat :=
  c.cmds.filterMap fun m =>
    match m.follow with
    | some f => if m.slot = slot && f.stage ≠ .closed then some f.nth else none
    | none => none

def execXstat (d : XIx) (s : State) : Out :=
  withHart s fun h =>
    let c := s.core s.myCore
    let st := min 255 (c.openStores s.mySlot).length
    let ld := min 255 h.loads.length
    let mx := min 255 (h.mats.length + (c.openFollows s.mySlot).length)
    let cp := min 255 (c.outstanding s.mySlot).length
    let w := cp + mx <<< 8 + ld <<< 16 + st <<< 24 + h.fail.isSome.toNat <<< 32
    .next (s.setMe (h.setX d (BitVec.ofNat 64 w)).retire)

end Sys2Proof.Machine
end

