-- ==== Sys2Proof/Machine/Crypto.lean ====
section
/-! DEFINITION. The two keyless algorithms that the spec names and whose text it leaves to their standards: SHA3-512 (spec
27 R383, R385, R389; FIPS 202) and AES-256 in the XTS mode (27 R390; FIPS 197, IEEE 1619). PRESUMED (log entry 130): the
spec gives the names alone, and the definitions follow the standards. -/

namespace Sys2Proof.Machine

/-! ## SHA3-512 -/

/-- A Keccak state: lane (x, y) stands at 5 · y + x. -/
abbrev Lanes := List (BitVec 64)

/-- Lane (x, y) of a state, both taken modulo 5. -/
def lane (a : Lanes) (x y : Nat) : BitVec 64 := nth a (5 * (y % 5) + x % 5) 0

/-- The state whose lane (x, y) is f x y. -/
def lanesOf (f : Nat → Nat → BitVec 64) : Lanes := (upto 25).map fun i => f (i % 5) (i / 5)

/-- The lanes that ρ turns, in the order of its walk from lane (1, 0), each with its offset: step t turns by the triangular
number of t + 1. -/
def rhoWalk : Nat → Nat → Nat × Nat → List (Nat × Nat)
  | 0, _, _ => []
  | n + 1, t, p => (5 * p.2 + p.1, (t + 1) * (t + 2) / 2 % 64) :: rhoWalk n (t + 1) (p.2, (2 * p.1 + 3 * p.2) % 5)

/-- The offset by which ρ turns lane (x, y); the walk does not reach lane (0, 0). -/
def rhoOffset (x y : Nat) : Nat := (((rhoWalk 24 0 (1, 0)).find? fun e => e.1 = 5 * y + x).map (·.2)).getD 0

/-- The feedback register of ι, one bit on: its field polynomial is x^8 + x^6 + x^5 + x^4 + 1. -/
def iotaNext (r : Byte) : Byte := (r <<< 1) ^^^ (if r.msb then 0x71 else 0)

/-- The register j bits on. -/
def iotaAt (r : Byte) : Nat → Byte
  | 0 => r
  | j + 1 => iotaNext (iotaAt r j)

/-- The constant of a round of ι: bit 2^j − 1 is the register's output j bits on, for j to 6. -/
def iotaConstant (r : Byte) : BitVec 64 :=
  (upto 7).foldl (fun c j => if (iotaAt r j).getLsbD 0 then c ||| (1#64 <<< (2 ^ j - 1)) else c) 0

/-- θ: every lane takes the parities of two neighbouring columns. -/
def keccakTheta (a : Lanes) : Lanes :=
  let par := (upto 5).map fun x => lane a x 0 ^^^ lane a x 1 ^^^ lane a x 2 ^^^ lane a x 3 ^^^ lane a x 4
  lanesOf fun x y => lane a x y ^^^ nth par ((x + 4) % 5) 0 ^^^ (nth par ((x + 1) % 5) 0).rotateLeft 1

/-- ρ and π: lane (x, y) is the rotated lane (x + 3 · y, x). -/
def keccakRhoPi (a : Lanes) : Lanes :=
  lanesOf fun x y => (lane a (x + 3 * y) x).rotateLeft (rhoOffset ((x + 3 * y) % 5) x)

/-- χ: every lane takes the two lanes beside it in its row. -/
def keccakChi (a : Lanes) : Lanes := lanesOf fun x y => lane a x y ^^^ (~~~lane a (x + 1) y &&& lane a (x + 2) y)

/-- n rounds of the permutation, from the feedback register's value at the first of them. -/
def keccakRounds : Nat → Byte → Lanes → Lanes
  | 0, _, a => a
  | n + 1, r, a =>
    let b := keccakChi (keccakRhoPi (keccakTheta a))
    keccakRounds n (iotaAt r 7) ((nth b 0 0 ^^^ iotaConstant r) :: b.drop 1)

/-- The permutation of 24 rounds. -/
def keccakF (a : Lanes) : Lanes := keccakRounds 24 1 a

/-- Bytes of a block of SHA3-512: 1,600 bits less twice the digest's. -/
def sha3Rate : Nat := 72

/-- A message with the suffix of SHA-3 and the padding 10*1, which fill whole blocks. -/
def sha3Padded (m : List Byte) : List Byte :=
  let z := sha3Rate - 1 - m.length % sha3Rate
  if z = 0 then m ++ [0x86] else m ++ [0x06] ++ List.replicate (z - 1) 0 ++ [0x80]

/-- A state that absorbs n blocks. -/
def sha3Absorb : Nat → List Byte → Lanes → Lanes
  | 0, _, a => a
  | n + 1, m, a =>
    let b := ofBytes (m.take sha3Rate)
    sha3Absorb n (m.drop sha3Rate)
      (keccakF ((upto 25).map fun i => nth a i 0 ^^^ (if i < 9 then BitVec.ofNat 64 (elt b 64 i) else 0)))

/-- SHA3-512 of a byte string; the digest's first byte is the lowest. -/
def sha3_512 (m : List Byte) : BitVec 512 :=
  let p := sha3Padded m
  BitVec.ofNat 512 (ofBytes (((sha3Absorb (p.length / sha3Rate) p (List.replicate 25 0)).take 8).flatMap
    fun l => toBytes 8 l.toNat))

/-! ## AES-256 -/

/-- The substitution box, 16 bytes in a row, the first at the left. -/
def sboxRows : List Nat :=
  [0x637C777BF26B6FC53001672BFED7AB76, 0xCA82C97DFA5947F0ADD4A2AF9CA472C0,
   0xB7FD9326363FF7CC34A5E5F171D83115, 0x04C723C31896059A071280E2EB27B275,
   0x09832C1A1B6E5AA0523BD6B329E32F84, 0x53D100ED20FCB15B6ACBBE394A4C58CF,
   0xD0EFAAFB434D338545F9027F503C9FA8, 0x51A3408F929D38F5BCB6DA2110FFF3D2,
   0xCD0C13EC5F974417C4A77E3D645D1973, 0x60814FDC222A908846EEB814DE5E0BDB,
   0xE0323A0A4906245CC2D3AC629195E479, 0xE7C8376D8DD54EA96C56F4EA657AAE08,
   0xBA78252E1CA6B4C6E8DD741F4BBD8B8A, 0x703EB5664803F60E613557B986C11D9E,
   0xE1F8981169D98E949B1E87E9CE5528DF, 0x8CA1890DBFE6426841992D0FB054BB16]

/-- The substitution of a byte. -/
def subByte (b : Byte) : Byte := BitVec.ofNat 8 (nth sboxRows (b.toNat / 16) 0 >>> (8 * (15 - b.toNat % 16)))

/-- Multiplication by x in the field of AES. -/
def xtime (b : Byte) : Byte := (b <<< 1) ^^^ (if b.msb then 0x1B else 0)

/-- The exclusive or of two byte strings. -/
def xorBytes (a b : List Byte) : List Byte := List.zipWith (· ^^^ ·) a b

/-- A word of the key schedule from the one before it and the one eight before it; i is its number. -/
def scheduleWord (i : Nat) (rcon : Byte) (before back : List Byte) : List Byte :=
  if i % 8 = 0 then xorBytes back (xorBytes ((before.drop 1 ++ before.take 1).map subByte) [rcon, 0, 0, 0])
  else if i % 8 = 4 then xorBytes back (before.map subByte)
  else xorBytes back before

/-- n further words of a key schedule, the latest word first. -/
def scheduleWords : Nat → Nat → Byte → List (List Byte) → List (List Byte)
  | 0, _, _, ws => ws
  | n + 1, i, rcon, ws =>
    scheduleWords n (i + 1) (if i % 8 = 0 then xtime rcon else rcon)
      (scheduleWord i rcon (nth ws 0 []) (nth ws 7 []) :: ws)

/-- The 15 round keys of a key of 32 bytes. -/
def roundKeys (key : List Byte) : List (List Byte) :=
  let first := ((upto 8).map fun i => (key.drop (4 * i)).take 4).reverse
  let all := (scheduleWords 52 8 1 first).reverse.flatten
  (upto 15).map fun r => (all.drop (16 * r)).take 16

/-- ShiftRows: byte (r, c) stands at 4 · c + r and comes from column c + r. -/
def shiftRows (a : List Byte) : List Byte := (upto 16).map fun i => nth a (4 * ((i / 4 + i % 4) % 4) + i % 4) 0

/-- MixColumns. -/
def mixColumns (a : List Byte) : List Byte :=
  (upto 16).map fun i =>
    let at_ := fun k => nth a (4 * (i / 4) + (i % 4 + k) % 4) 0
    xtime (at_ 0) ^^^ xtime (at_ 1) ^^^ at_ 1 ^^^ at_ 2 ^^^ at_ 3

/-- The cipher over a block of 16 bytes. -/
def aesBlock (keys : List (List Byte)) (p : List Byte) : List Byte :=
  let inner := ((keys.drop 1).take 13).foldl (fun a k => xorBytes (mixColumns (shiftRows (a.map subByte))) k)
    (xorBytes p (nth keys 0 []))
  xorBytes (shiftRows (inner.map subByte)) (nth keys 14 [])

/-! ## XTS -/

/-- The tweak of the next block: multiplication by x in the field of 2^128 elements, the first byte the lowest. -/
def nextTweak (t : BitVec 128) : BitVec 128 := (t <<< 1) ^^^ (if t.msb then 0x87 else 0)

/-- The tweak of block j of a data unit, from that of its first block. -/
def tweakOf (t : BitVec 128) : Nat → BitVec 128
  | 0 => t
  | j + 1 => nextTweak (tweakOf t j)

/-- Block j of data unit n under a key of 64 bytes, the data key first: 16 bytes of ciphertext. -/
def xtsBlock (key : BitVec 512) (n j : Nat) (plain : List Byte) : List Byte :=
  let k := toBytes 64 key.toNat
  let t := toBytes 16 (tweakOf (BitVec.ofNat 128 (ofBytes (aesBlock (roundKeys (k.drop 32)) (toBytes 16 n)))) j).toNat
  xorBytes (aesBlock (roundKeys (k.take 32)) (xorBytes plain t)) t

end Sys2Proof.Machine
end

