-- ==== Sys2Proof/Machine/Sync.lean ====
section
/-! DEFINITION. Fences, waits and barriers (spec 19 R347 to R350; 06 R125; 07 R149, R150; 08 R163). -/

namespace Sys2Proof.Machine

/-! ## FENCE (19 R349) -/

/-- Fence(kind, S) by the current hart: a release waits for the hart's store-buffer entries (03 R53 step 3). -/
def fenceOp (k : FenceKind) (sc : Scope) (h : Hart) (s : State) : Res Unit :=
  match k with
  | .rel => release sc h s
  | .acq => acquire sc h s
  | .ar => (release sc h s).bind fun _ s => acquire sc h s

def execFence (sc : Scope) (k : FenceKind) (s : State) : Out :=
  withHart s fun h => finish ((fenceOp k sc h s).bind fun _ s => .ok () (s.setMe h.retire))

/-! ## WAITC (19 R347) -/

/-- Whether a count leaves operation number i of a class outstanding, when `issued` have been issued: only the n most
recently issued are left. -/
def leaves (issued i n : Nat) : Bool := decide (issued ≤ i + n)

/-- Whether WAITC consumes the pending failure: its command is not left outstanding by the copies count, or its
follow-on by the matrix count. -/
def CmdFailure.consumed (f : CmdFailure) (h : Hart) (c m : Nat) : Bool :=
  (decide (c < 15) && !leaves h.ncp f.cmd.nth c) ||
    (match f.cmd.follow with
     | some w => f.lost && decide (m < 15) && !leaves h.nmx w.nth m
     | none => false)

/-- What WAITC still waits for. Loads and matrix instructions of the hart complete as it waits. -/
def waitcBusy (h : Hart) (c : Core) (slot st cp m : Nat) : Bool :=
  (decide (st < 15) && (c.openStores slot).any fun i => !leaves h.nst i st)
    || (decide (cp < 15) && (c.outstanding slot).any fun q => !leaves h.ncp q.nth cp)
    || (decide (m < 15) && (c.openFollows slot).any fun i => !leaves h.nmx i m)

def execWaitc (l st c m : BitVec 4) (s : State) : Out :=
  withHart s fun h =>
    let due := match h.fail with
      | some f => if f.consumed h c.toNat m.toNat then some (failureTrap f) else none
      | none => none
    match due with
    | some t => trapOut t s
    | none =>
      let s := if st.toNat < 15 then (s.ackBypass s.myCore).ackTarget s.myCore else s
      if waitcBusy h (s.core s.myCore) s.mySlot st.toNat c.toNat m.toNat then .next s
      else
        let h := if l.toNat < 15 then h.settleLoads else h
        let h := if m.toNat < 15 then h.settleMats else h
        .next (s.setMe h.retire)

/-! ## WAITA (19 R348, 08 R163) -/

/-- The checks of an eyelet that a hart waits on. -/
def eyeletCheck (c : Core) (g : Grant) (a : Word) : Option FRec :=
  if !spNearOk g a 8 then some (spBounds a 0)
  else if spOffset a % 8 ≠ 0 then some { cause := 0x05, off := a, ew := 64 }
  else if c.spPoisoned g (spOffset a) 8 then some (spPoisonTrap a 0 64)
  else none

/-- WAITA: it returns when the word holds the awaited value, or its complement in the `.any` form; until then the hart
sleeps at it. -/
def waita (any : Bool) (d a b : XIx) (s : State) : Out :=
  withHart s fun h =>
    let c := s.core s.myCore
    let g := s.myGrant h
    let x := h.getX a
    checked (eyeletCheck c g x) s <|
      let w : Word := BitVec.ofNat 64 (c.spRead g (spOffset x) 8)
      let v := h.getX b
      if w = v || (any && w = ~~~v) then .next (s.setMe { (h.setX d w).retire with run := .running })
      else .next (s.setMe { h with run := .asleep any d a b })

def execWaita (d a b : XIx) (s : State) : Out := waita false d a b s
def execWaitaAny (d a b : XIx) (s : State) : Out := waita true d a b s

/-- Runs an operation for the hart of a key: `cur` names it meanwhile. -/
def asHart (key : Nat) (f : State → Out) (s : State) : Out :=
  match f { s with cur := key } with
  | .next t => .next { t with cur := s.cur }
  | o => o

/-- WAITA_WAKE (08 R163): a sleeper whose eyelet holds the awaited value returns from its WAITA. -/
def execWaitaWake (core slot : Nat) (s : State) : Out :=
  let key := hkey core slot
  match s.hart? key with
  | none => .next s
  | some h =>
    match h.run with
    | .asleep any d a b => asHart key (waita any d a b) s
    | _ => .next s

/-! ## BAR (19 R350, 07 R150) -/

/-- Whether two cores lie in one instance of a scope within a region (07 R128); a hart instance is one key. -/
def sameInstance (sc : Scope) (k1 k2 : Nat) : Bool :=
  match sc with
  | .h => k1 = k2
  | .c => coreOf k1 = coreOf k2
  | .k => clusterOf (coreOf k1) = clusterOf (coreOf k2)
  | .d => true
  | .s => true

/-- BAR: a release at its scope, then the hart arrives and waits. -/
def execBar (sc : Scope) (s : State) : Out :=
  withHart s fun h => finish ((release sc h s).bind fun _ s => .ok () (s.setMe { h with run := .barrier sc }))

/-- Whether a participant does not hold the barrier: it has arrived at a BAR of that scope, or is idle in ENDT. -/
def Hart.arrived (h : Hart) (sc : Scope) : Bool :=
  match h.run with
  | .barrier q => q = sc
  | .idle _ => true
  | _ => false

/-- Whether the barrier that a hart has arrived at is complete. A pre-empted participant holds it. -/
def State.barrierFull (s : State) (key : Nat) (h : Hart) (sc : Scope) : Bool :=
  (s.harts.all fun q => q.2.blk ≠ h.blk || !sameInstance sc key q.1 || q.2.arrived sc)
    && (s.fe.saved.all fun q => q.blk ≠ h.blk || !sameInstance sc key (hkey q.core q.slot))

/-- A participant departs: an acquire at the scope, and it goes on. -/
def departOne (sc : Scope) (s : State) (key : Nat) : State :=
  match s.hart? key with
  | none => s
  | some h =>
    let core := coreOf key
    ((s.ackBypass core).acquireSteps core h.spaceTag sc).setHart key { h.retire with run := .running }

/-- BARRIER_DEPART: every participant that has arrived departs, and the generation ends. -/
def execBarrierDepart (core slot : Nat) (s : State) : Out :=
  let key := hkey core slot
  match s.hart? key with
  | none => .next s
  | some h =>
    match h.run with
    | .barrier sc =>
      if s.barrierFull key h sc then
        let go := (s.harts.filter fun q => q.2.blk = h.blk && sameInstance sc key q.1 && q.2.run = .barrier sc).map (·.1)
        .next (go.foldl (departOne sc) s)
      else .next s
    | _ => .next s

end Sys2Proof.Machine
end

