-- ==== Sys2Proof/Machine/Region.lean ====
section
/-! DEFINITION. Regions as the front end keeps them (spec 08 R153 to R156; 07 R141; 09 R169; 26 R378, R380): the block
in memory, fault domains, stopping harts, and the ends of regions and launches. -/

namespace Sys2Proof.Machine

/-! ## The region block (08 R153) -/

/-- Field [hi:lo] of a block. -/
def State.blkGet (s : State) (blk hi lo : Nat) : Nat := fld (s.readPA blk 64) hi lo

/-- Writes a field of a block. The device reads a block as it stands where a word of it is poisoned, and writes it whole, so
that it holds poison no more, which the spec leaves open (log entry 133). -/
def State.blkSet (s : State) (blk hi lo x : Nat) : State :=
  s.setPA blk 64 (put (s.readPA blk 64) lo (hi + 1 - lo) x)

/-- Harts of a region that are started and not retired, and its children that have not ended. The front end counts them
itself; the block in memory shows the counts, and a write to it by others changes neither (00 R10, log entry 69). -/
def State.nlive (s : State) (blk : Nat) : Nat :=
  (s.harts.filter fun q => q.2.blk = blk).length + (s.fe.saved.filter fun q => q.blk = blk).length
def State.nchild (s : State) (blk : Nat) : Nat :=
  -- a root has no parent, whatever region has its block at address 0
  if blk = 0 then 0
  else (s.fe.regions.filter fun r => r.f.parent = blk).length + (s.fe.launches.filter fun l => l.f.parent = blk).length

def State.blkState (s : State) (blk : Nat) : Nat := s.blkGet blk 171 168

/-! ## The tree -/

/-- Fields of a block that names a live region or a placing launch. -/
def State.fieldsOf (s : State) (blk : Nat) : Option Fields :=
  match s.region blk with
  | some r => some r.f
  | none => (s.fe.launches.find? fun l => l.f.blk = blk).map (·.f)

/-- An upper bound on the depth of the tree. -/
def State.treeFuel (s : State) : Nat := s.fe.regions.length + s.fe.launches.length + 1

/-- The root of a block's fault domain (08 R156). -/
def State.domainRootFuel (s : State) : Nat → Nat → Nat
  | 0, b => b
  | n + 1, b =>
    match s.fieldsOf b with
    | some f => if bit f.ovr.toNat 6 || f.parent = 0 then b else s.domainRootFuel n f.parent
    | none => b

def State.domainRoot (s : State) (blk : Nat) : Nat := s.domainRootFuel s.treeFuel blk

/-- Whether a block is another or descends from it. -/
def State.underFuel (s : State) (a : Nat) : Nat → Nat → Bool
  | 0, b => b = a
  | n + 1, b =>
    b = a ||
      (match s.fieldsOf b with
       | some f => f.parent ≠ 0 && s.underFuel a n f.parent
       | none => false)

def State.under (s : State) (a b : Nat) : Bool := s.underFuel a s.treeFuel b

/-! ## Ends of launches and regions -/

/-- The children of a block have changed: its nchild shows their count (08 R155). -/
def State.showChildren (s : State) (parent : Nat) : State :=
  if parent = 0 then s else s.blkSet parent 319 304 (s.nchild parent)

/-- The completion entry of a launch in its queue's completion queue (26 R378). -/
def State.complete (s : State) (queue : Nat) (tag : BitVec 32) (status state fcause blk : Nat) : State :=
  s.postOrHold (16 + queue) (completion tag status state fcause blk)

/-- An accepted launch is refused: its code and state 7 in the block, its parent's count, its completion (09 R169). -/
def State.refuseLaunch (s : State) (l : Launch) (code : Nat) : State :=
  let s := { s with fe := { s.fe with launches := s.fe.launches.filter fun q => q.f.blk ≠ l.f.blk } }
  let s := (s.blkSet l.f.blk 179 172 code).blkSet l.f.blk 171 168 7
  (s.showChildren l.f.parent).complete l.queue l.tag code 7 0 l.f.blk

/-- A placing launch inside a domain that ends: state 5 without a started hart (09 R178). -/
def State.killLaunch (s : State) (l : Launch) (fcause : Nat) : State :=
  let s := { s with fe := { s.fe with launches := s.fe.launches.filter fun q => q.f.blk ≠ l.f.blk } }
  let s := s.blkSet l.f.blk 171 168 5
  (s.showChildren l.f.parent).complete l.queue l.tag 0 5 fcause l.f.blk

/-- Frees a save area (10 R198). -/
def State.freeArea (s : State) (area : Nat) : State :=
  { s with fe := { s.fe with areas := s.fe.areas.filter fun a => a.1 ≠ area } }

/-- Takes a hart away: its slot's buffered entries are discarded, whatever their state, and its commands go no further
(08 R156 step 2, 19 R352). Filter entries of pages with no entry left may be confirmed again later. -/
def State.dropHart (s : State) (key : Nat) : State :=
  let core := coreOf key
  let slot := slotOf key
  let s := (s.ackBypass core).ackTarget core
  let c := s.core core
  let c := { c with sb := c.sb.filter fun e => e.slot ≠ slot, cmds := c.cmds.filter fun m => m.slot ≠ slot }
  let t := { s.setCore core c with harts := adel s.harts key }
  match s.hart? key with
  | some h => t.freeArea h.area
  | none => t

/-- Stops every hart of a region, started or saved. -/
def State.stopHarts (s : State) (blk : Nat) : State :=
  let keys := (s.harts.filter fun q => q.2.blk = blk).map (·.1)
  let s := keys.foldl State.dropHart s
  let gone := s.fe.saved.filter fun q => q.blk = blk
  let s := gone.foldl (fun s q => s.freeArea q.area) s
  { s with fe := { s.fe with saved := s.fe.saved.filter fun q => q.blk ≠ blk } }

/-- The release of a region on its cores with which it retires (07 R141). -/
def State.releaseRegion (s : State) (r : Region) : State :=
  r.cores.foldl (fun s c => s.releaseSteps c r.f.space .s) s

/-- Whether a write-back that a live region issued has been discarded (26 R382). -/
def State.lostBy (s : State) (blk : Nat) : Bool := (s.region blk).any (·.lost)

/-- A region that ends with such a loss leaves it to the root of its domain, whose end is then still due (log entry 74). -/
def State.passLoss (s : State) (blk : Nat) : State :=
  let root := s.domainRoot blk
  if s.lostBy blk && root ≠ blk then s.loseFor [root] else s

/-- Ends a region in state 4, 5 or 6: its release, its grants returned, the state written, its parent's count, and its
completion. -/
def State.closeRegion (s : State) (r : Region) (st : Nat) : State :=
  let s := (s.releaseRegion r).passLoss r.f.blk
  let s := r.cores.foldl (fun s c =>
    s.setCore c { s.core c with grants := (s.core c).grants.filter fun g => g.blk ≠ r.f.blk }) s
  let fcause := s.blkGet (s.domainRoot r.f.blk) 63 56
  let s := (s.blkSet r.f.blk 303 288 0).blkSet r.f.blk 171 168 st
  let s := { s with fe := { s.fe with regions := s.fe.regions.filter fun q => q.f.blk ≠ r.f.blk } }
  (s.showChildren r.f.parent).complete r.queue r.tag 0 st fcause r.f.blk

/-- A region that is ending and whose children have all ended. -/
def State.closable (s : State) : Option (Region × Nat) :=
  (s.fe.regions.filterMap fun r =>
    match r.ending with
    | some st => if s.nchild r.f.blk = 0 then some (r, st) else none
    | none => none).head?

/-- Ends every region that can end, descendants before ancestors. -/
def State.closeAllFuel : Nat → State → State
  | 0, s => s
  | n + 1, s =>
    match s.closable with
    | some (r, st) => State.closeAllFuel n (s.closeRegion r st)
    | none => s

def State.closeAll (s : State) : State := State.closeAllFuel s.fe.regions.length s

/-- Stops the regions of some blocks and marks them as ending in a state. -/
def State.endBlocks (s : State) (blks : List Nat) (st : Nat) : State :=
  let s := blks.foldl State.stopHarts s
  let mark := fun (r : Region) => if r.f.blk ∈ blks then { r with ending := some st } else r
  { s with fe := { s.fe with regions := s.fe.regions.map mark } }

/-- The end of a fault domain (08 R156): the root records the fault unless it has one, every region of the domain
stops, and each ends in state 5 when its children have. -/
def State.endDomain (s : State) (blk cause : Nat) (pc : Word) (core slot : Nat) : State :=
  let root := s.domainRoot blk
  let s := if s.blkGet root 63 56 ≠ 0 then s
    else (((s.blkSet root 127 64 pc.toNat).blkSet root 63 56 cause).blkSet root 55 47 core).blkSet root 46 44 slot
  let fcause := s.blkGet root 63 56
  let inside := fun (f : Fields) => s.domainRoot f.blk = root
  let blks := (s.fe.regions.filter fun r => inside r.f && r.ending.isNone).map (·.f.blk)
  let doomed := s.fe.launches.filter fun l => inside l.f
  let s := s.endBlocks blks 5
  (doomed.foldl (fun s l => s.killLaunch l fcause) s).closeAll

/-- The end of the domain of a region that lost a write-back (26 R382): fcause 0x0B. No hart took the fault, so the other
fault fields are open. -/
def State.endForLoss (s : State) (r : Region) : State :=
  let pc := s.choose (2 ^ 64)
  let place := pc.2.choose (2 ^ 12)
  (place.2.setRegion { r with lost := false }).endDomain r.f.blk 0x0B (BitVec.ofNat 64 pc.1) (place.1 / 8) (place.1 % 8)

/-- A region with no live hart and no child retires (07 R141); a write-back of its own release that is discarded ends its
domain instead. -/
def State.retireRegion (s : State) (r : Region) : State :=
  let t := s.releaseRegion r
  if t.lostBy r.f.blk then t.endForLoss r else t.closeRegion r 4

/-- The end of a region and its descendants by the host (26 R380), those among them that are ending already. -/
def State.endByHost (s : State) (blk : Nat) : State :=
  let inside := fun (f : Fields) => s.under blk f.blk
  let blks := (s.fe.regions.filter fun r => inside r.f).map (·.f.blk)
  let doomed := s.fe.launches.filter fun l => inside l.f
  let s := s.endBlocks blks 6
  (doomed.foldl (fun s l => s.refuseLaunch l 0x0E) s).closeAll

/-- A hart retires (07 R141, 08 R155): its slot and save area are free, and nlive goes down; a region with no live
hart drains while a child lives. -/
def State.retireHart (s : State) (key blk : Nat) : State :=
  let s := s.dropHart key
  let s := s.blkSet blk 303 288 (s.nlive blk)
  if s.nlive blk = 0 && s.nchild blk ≠ 0 then s.blkSet blk 171 168 3 else s

/-- REGION_RETIRE (08 R155): a region with no live hart and no child ends. -/
def execRegionRetire (blk : Nat) (s : State) : Out :=
  match s.region blk with
  | none => .next s
  | some r =>
    if s.nchild blk ≠ 0 then .next s
    else
      match r.ending with
      | some st => .next (s.closeRegion r st)
      | none => if s.nlive blk = 0 then .next (s.retireRegion r) else .next s

/-! ## Which trap ends the domain (10 R188, R190) -/

/-- Whether the firmware classes a trap as recoverable. -/
def FRec.recoverable (f : FRec) : Bool :=
  (f.cause = 0x0B && f.rep) || (f.cause = 0x0C && f.rep) || (f.cause = 0x13 && f.inner = 0x0B)

/-- FAULT_DOMAIN_END (08 R156): a hart whose trap is fatal, or was taken in supervisor mode, ends its domain. fpc is the pc of
its fault record (R153): for cause 0x0C that of the refused store. -/
def execFaultDomainEnd (core slot : Nat) (s : State) : Out :=
  match s.hart? (hkey core slot) with
  | none => .next s
  | some h =>
    match h.trap with
    | none => .next s
    | some t =>
      if t.nested || !t.frec.recoverable then
        .next (s.endDomain h.blk t.frec.cause t.recPc core slot)
      else .next s

end Sys2Proof.Machine
end

