-- ==== Sys2Proof/Machine/EvHost.lean ====
section
/-! DEFINITION. What the host does to the device (spec 26 R374 to R377; 07 R139; 27 R383, R385, R390): doorbells, heads,
register writes, and accesses through the memory window. -/

namespace Sys2Proof.Machine

/-! ## Queue registers (26 R375 to R377) -/

/-- QUEUE_DOORBELL (26 R375). -/
def execQueueDoorbell (q : Nat) (tail : BitVec 32) (s : State) : Out := .next (s.writeTail q tail)

/-- QUEUE_HEAD_WRITE (26 R376). -/
def execQueueHeadWrite (q : Nat) (head : BitVec 32) (s : State) : Out := .next (s.writeHead q head)

/-- QUEUE_ERR_CLEAR (26 R375). -/
def execQueueErrClear (q : Nat) (s : State) : Out := .next (s.clearErr q)

/-- QUEUE_ENABLE (26 R377). -/
def execQueueEnable (q : Nat) (en : Bool) (s : State) : Out := .next (s.writeEn q en)

/-- REGISTER_WRITE (26 R374): one 64-bit register of the control window; every other offset ignores writes. -/
def execRegisterWrite (off : Nat) (val : BitVec 64) (s : State) : Out :=
  if off % 8 = 0 ∧ off < 0x4000000 then .next (s.ctlWrite off val.toNat) else .next s

/-- BOOT_DOORBELL (27 R383, R385). -/
def execBootDoorbell (len : Nat) (s : State) : Out := .next (s.ringBoot (len % 2 ^ 64))

/-! ## The memory window (26 R374, 27 R385, R386) -/

/-- Where the memory window leads: its first device address and how many bytes it reaches. -/
def State.windowBase (s : State) : Nat × Nat := if s.sts.phase = 3 then (0, gddrSize) else (sramBase, sramSize)

/-- Whether a device address lies in a protected range (27 R390). -/
def State.encrypted (s : State) (pa : Nat) : Bool :=
  inGddr pa && s.sts.prot.any fun p => p.1 ≤ pa && pa < p.1 + p.2

/-- The ciphertext of a byte of a protected range, under the key of this bring-up (27 R390): the 128-byte unit is one data
unit, numbered by its address. -/
def State.cipherByte (s : State) (pa : Nat) : Byte :=
  nth (xtsBlock (Config.xtsKey s.leftReset) (pa / 128) (pa % 128 / 16) (s.mem.read (pa / 16 * 16) 16)) (pa % 16) 0

/-- What the host reads at an offset of the window: ciphertext in a protected range, all ones beyond what the window
reaches. -/
def State.hostByte (s : State) (o : Nat) : Byte :=
  if s.windowBase.2 ≤ o then 0xFF
  else
    let pa := s.windowBase.1 + o
    if s.encrypted pa then s.cipherByte pa
    else s.mem.get pa

/-- n bytes from an offset, as the host reads them. -/
def State.hostBytes (s : State) (o : Nat) : Nat → List Byte
  | 0 => []
  | n + 1 => s.hostByte o :: State.hostBytes s (o + 1) n

/-- HOST_MEMORY_READ (07 R139): performed at the home slice, so no byte that is dirty in an L1 or L2 is seen. -/
def execHostMemoryRead (off len : Nat) (s : State) : Out :=
  .next { s with io := { s.io with lastRead := s.hostBytes off len } }

/-- Marks the lines of n bytes from an address as resident and dirty in their home slices. -/
def State.touchLines (s : State) (pa : Nat) : Nat → State
  | 0 => s
  | n + 1 => State.touchLines (s.touchHome (pa + n) (runMask ((pa + n) % 128) 1)) pa n

/-- After a host write every byte of a touched protected unit is open to device readers, and holds no poison
(27 R390). -/
def State.scramble (s : State) (pa : Nat) : Nat → State
  | 0 => s
  | n + 1 =>
    let s := State.scramble s pa n
    let u := pa / 128 + n
    if s.encrypted (128 * u) then
      { (s.writePA (128 * u) ((upto 128).map (Config.scrambledByte u s.free))) with free := s.free + 1 }
    else s

/-- A write at the home slices from outside the device. -/
def State.homeWrite (s : State) (pa : Nat) (bytes : List Byte) : State :=
  (s.writePA pa bytes).touchLines pa bytes.length

/-- HOST_MEMORY_WRITE (07 R139): performed at the home slices; bytes beyond what the window reaches are discarded. The
order of the steps is the order of arrival, which the relaxed-ordering attribute leaves free. -/
def execHostMemoryWrite (off : Nat) (bytes : List Byte) (s : State) : Out :=
  let w := s.windowBase
  let kept := bytes.take (w.2 - off)
  if kept.isEmpty then .next s
  else
    let pa := w.1 + off
    let units := (pa + kept.length - 1) / 128 - pa / 128 + 1
    .next ((s.homeWrite pa kept).scramble pa units)

end Sys2Proof.Machine
end

