-- ==== Sys2Proof/Machine/EvCmd.lean ====
section
/-! DEFINITION. The command unit (spec 26 R379, R380; 04 R94 to R96; 05 R113; 10 R198, R199; 20 R353 to R357;
27 R389, R390): it performs the commands of ring 32 one at a time, in ring order. -/

namespace Sys2Proof.Machine

/-! ## The command at the head of the ring -/

/-- Whether a host-fed queue gives the device an entry now (26 R375, R377; 27 R385): once training is over none does, but
for the command that the unit has taken already, which it completes (27 R387). -/
def State.feeds (s : State) (q : Nat) : Bool :=
  let x := s.queue q
  (s.sts.phase = 2 || s.sts.phase = 3) && (!s.sts.trained || (q = 32 && s.io.current))
    && x.en && !x.err && !x.stuck && x.used ≠ 0 && decide (x.used ≤ x.cap)

/-- Bus address of the entry at the head of a ring, of entries of n bytes. -/
def Queue.headAt (x : Queue) (n : Nat) : Nat := x.base.toNat + n * (x.head.toNat % x.cap)

/-- The eight words of the command at the head, if the unit may take it. A held completion holds the unit. -/
def State.command? (s : State) : Option (List Word) :=
  if s.feeds 32 && (s.queue 33).held.isEmpty then
    let a := hostPA ((s.queue 32).headAt 64)
    some ((upto 8).map fun i => BitVec.ofNat 64 (s.readPA (a + 8 * i) 8))
  else none

/-- Word cN of a command. -/
def cmdWord (c : List Word) (n : Nat) : Nat := (c.getD n 0).toNat

/-- Operation of a command. -/
def cmdOp (c : List Word) : Nat := cmdWord c 0 % 256

/-- The words that an operation names (26 R379; 27 R389, R390). -/
def cmdNames (op : Nat) : List Nat :=
  if op = 0x01 ∨ op = 0x03 ∨ op = 0x04 ∨ op = 0x05 ∨ op = 0x06 then [1, 2, 3]
  else if op = 0x02 ∨ op = 0x07 ∨ op = 0x09 then [1]
  else if op = 0x08 ∨ op = 0x0A then [1, 2]
  else []

/-- Whether every word that must be zero is zero. -/
def cmdZeros (c : List Word) : Bool :=
  fld (cmdWord c 0) 31 8 = 0 && [1, 2, 3, 4, 5, 6, 7].all fun i => i ∈ cmdNames (cmdOp c) || cmdWord c i = 0

/-- Whether the unit is at work on the command at the head of its ring. -/
def State.setCurrent (s : State) (b : Bool) : State := { s with io := { s.io with current := b } }

/-- Ends the command: the head moves on and the completion is written (26 R380). -/
def State.endCommand (s : State) (c : List Word) (r : Nat × Nat) : State :=
  ((s.setCurrent false).setQueue 32 { s.queue 32 with head := (s.queue 32).head + 1 }).postOrHold 33
    (completion (BitVec.ofNat 32 (fld (cmdWord c 0) 63 32)) r.1 0 0 r.2)

/-- Performs the head command if it is the operation named: `f` answers none while it waits, which makes it the unit's
current command, else its status, its result and the machine. -/
def State.command (s : State) (op : Nat) (f : List Word → State → Option ((Nat × Nat) × State)) : Out :=
  match s.command? with
  | none => .next s
  | some c =>
    if cmdOp c ≠ op then .next s
    else if !cmdZeros c then .next (s.endCommand c (0x07, 0))
    else
      match f c s with
      | none => .next (s.setCurrent true)
      | some r => .next (r.2.endCommand c r.1)

/-- A command that ends at once. -/
def done1 (st : Nat) (s : State) : Option ((Nat × Nat) × State) := some ((st, 0), s)

/-- Device memory in this phase: GDDR 7, or the SRAM window in reduced service (26 R380, 27 R386). -/
def State.inDevice (s : State) (pa n : Nat) : Bool :=
  if s.sts.phase = 3 then decide (pa + n ≤ gddrSize) else decide (sramBase ≤ pa) && decide (pa + n ≤ sramBase + sramSize)

/-- An identifier that is free: a free choice where the search starts (20 R357, 09 R167; log entry 21). -/
def freshId (ok : Nat → Bool) (n start : Nat) : Nat → Nat
  | 0 => start % n
  | k + 1 => if ok (start % n) then start % n else freshId ok n (start + 1) k

/-! ## Load object (20 R353 to R357) -/

/-- The fields of a segment entry (20 R354). -/
structure ZofSeg where
  foff : Nat
  flen : Nat
  len : Nat
  idx : Nat
  r : Bool
  w : Bool
  x : Bool
  alog2 : Nat
  rsv : Nat
  deriving DecidableEq, Repr

/-- A segment entry of 32 bytes. -/
def zofSeg (e : Nat) : ZofSeg :=
  { foff := fld e 255 192, flen := fld e 191 128, len := fld e 127 64, idx := fld e 63 60, r := bit e 59,
    w := bit e 58, x := bit e 57, alog2 := fld e 56 52, rsv := fld e 51 0 }

/-- Whether a segment entry is malformed (20 R356). A part of no bytes that begins past the object's end counts as beyond it,
which the spec leaves open; so do an empty table and an empty name (log entry 139). -/
def ZofSeg.bad (g : ZofSeg) (size : Nat) : Bool :=
  g.rsv ≠ 0 || decide (size < g.foff + g.flen) || (g.w && g.x) || decide (g.alog2 < 6) || decide (16 < g.alog2)
    || decide (g.len < g.flen) || (g.idx = 0 && !(g.r && g.x && !g.w))

/-- Whether a symbol entry is malformed (20 R355, R356). -/
def zofSymBad (e size : Nat) (gs : List ZofSeg) : Bool :=
  fld e 186 160 ≠ 0 || fld e 63 0 ≠ 0 || decide (size < fld e 127 64 + fld e 159 128)
    || (match gs.find? fun g => g.idx = fld e 191 188 with
        | some g => decide (g.len < fld e 255 192)
        | none => true)

/-- Whether a header is malformed, but for its tables (20 R353, R356). -/
def zofHeadBad (h : Nat) : Bool :=
  let size := fld h 191 128
  fld h 511 480 ≠ 0x00464F5A || fld h 479 472 ≠ 1 || fld h 455 449 ≠ 0 || fld h 391 384 ≠ 0 || fld h 351 320 ≠ 0
    || fld h 127 0 ≠ 0 || fld h 319 256 % 8 ≠ 0 || fld h 255 192 % 8 ≠ 0 || fld h 399 392 = 0
    || decide (16 < fld h 399 392) || decide (size < fld h 319 256 + 32 * fld h 399 392)
    || decide (size < fld h 255 192 + 32 * fld h 383 352) || decide (fld h 471 464 ≤ 1)

/-- Whether two of a list of numbers are equal. -/
def repeats : List Nat → Bool
  | [] => false
  | a :: t => a ∈ t || repeats t

/-- The load command's checks and effect: c1 the object, c2 the space tag, c3 the code base. -/
def loadObject (pa space base : Nat) (s : State) : (Nat × Nat) × State :=
  if pa % 64 ≠ 0 || !s.inDevice pa 64 then ((0x07, 0), s)
  else
    let h := s.readPA pa 64
    let size := fld h 191 128
    if !s.inDevice pa size then ((0x07, 0), s)
    else if zofHeadBad h then ((0x01, 0), s)
    else
      let gs := (upto (fld h 399 392)).map fun i => zofSeg (s.readPA (pa + fld h 319 256 + 32 * i) 32)
      let symBad := (upto (fld h 383 352)).any fun i => zofSymBad (s.readPA (pa + fld h 255 192 + 32 * i) 32) size gs
      match gs.find? fun g => g.idx = 0 with
      | none => ((0x01, 0), s)
      | some g0 =>
        if gs.any (fun g => g.bad size) || repeats (gs.map (·.idx)) || symBad then ((0x01, 0), s)
        else if 3 < fld h 471 464 then ((0x02, 0), s)
        else if space = 0 || base % 2 ^ g0.alog2 ≠ 0 then ((0x03, 0), s)
        else if 4096 ≤ s.fe.objects.length then ((0x04, 0), s)
        else
          let free := fun i => i ≠ 0 && s.fe.objects.all fun o => o.handle ≠ i
          let id := freshId free (2 ^ 32) (Config.freeChoice s.free) (s.fe.objects.length + 2)
          let o : Obj := { handle := id, space := BitVec.ofNat 16 space, base := base, len := g0.len,
                           level := fld h 471 464, vldep := bit h 448, vregs := fld h 463 456,
                           spbytes := fld h 447 416, ixent := fld h 415 400 }
          let s := { s with free := s.free + 1, fe := { s.fe with objects := s.fe.objects ++ [o] } }
          ((0x00, id), s.flushAllL1I)

def execLoadObject (s : State) : Out :=
  s.command 0x01 fun c s => some (loadObject (cmdWord c 1) (cmdWord c 2 % 2 ^ 16) (cmdWord c 3) s)

/-! ## Unload (10 R199) -/

/-- Whether a segment register lies in an object's code. -/
def Obj.holdsG (o : Obj) (space : BitVec 16) (g0 : BitVec 128) : Bool :=
  o.space = space && o.base ≤ segBase g0 && segBase g0 < o.base + o.len

/-- Space tag of a region's block. -/
def State.blkSpace (s : State) (blk : Nat) : BitVec 16 :=
  match s.fieldsOf blk with
  | some f => f.space
  | none => 0

/-- How many hold an object: harts, saved harts, and launches that are placing and name it. -/
def State.holders (s : State) (o : Obj) : Nat :=
  (s.harts.filter fun q => o.holdsG q.2.space (q.2.g.get 0)).length
    + (s.fe.saved.filter fun q => o.holdsG (s.blkSpace q.blk) q.g0).length
    + (s.fe.launches.filter fun l => l.cobj = o.handle).length

def execUnload (s : State) : Out :=
  s.command 0x02 fun c s =>
    match s.fe.objects.find? fun o => o.handle = cmdWord c 1 % 2 ^ 32 with
    | none => done1 0x05 s
    | some o =>
      let n := s.holders o
      if n ≠ 0 then some ((0x06, n), s)
      else
        let s := { s with fe := { s.fe with objects := s.fe.objects.filter fun p => p.handle ≠ o.handle } }
        done1 0x00 s.flushAllL1I

/-! ## Range holds (04 R94 to R96) -/

/-- Whether two ranges overlap. -/
def rangesMeet (a n b m : Nat) : Bool := decide (a < b + m) && decide (b < a + n)

/-- Steps 2 and 4 of a hold on one core: stores that have passed their checks reach the L1 or the buffer, and accesses in
flight are performed. -/
def State.holdCore (space : BitVec 16) (base n : Nat) (s : State) (core : Nat) : State :=
  let s := ((s.ackBypass core).ackTarget core).settleStores core space base n
  let c := s.core core
  s.setCore core { c with
    filter := c.filter.filter fun e => !(e.space = space && rangesMeet e.vbase (2 ^ e.lg) base n)
    fills := c.fills.filter fun f => !inRange f.space space f.va base n }

/-- Step 5 of a hold on one die. -/
def State.holdDie (space : BitVec 16) (base n : Nat) (s : State) (die : Nat) : State :=
  let d := s.die die
  s.setDie die { d with
    tcache := d.tcache.filter fun l => !(l.space = space && rangesMeet l.vbase (2 ^ l.lg) base n)
    wcache := d.wcache.filter fun e => e.space ≠ space }

/-- Step 6 of a hold: the records whose whole page it covers are removed (04 R92). -/
def State.holdNames (space : BitVec 16) (base n : Nat) (s : State) (die : Nat) : State :=
  let d := s.die die
  let whole := fun (r : NameRec) => r.space = space && base ≤ r.vbase && decide (r.vbase + 2 ^ r.lg ≤ base + n)
  s.setDie die { d with names := d.names.filter fun r => !whole r }

/-- Frames, with log2 of their sizes, of the pages in a range: those that a record names, and those that a cached
translation gives, whose record a recall may have removed (03 R58). -/
def State.framesIn (s : State) (space : BitVec 16) (base n : Nat) : List (Nat × Nat) :=
  ((s.names.filter fun r => r.space = space && rangesMeet r.vbase (2 ^ r.lg) base n).map fun r => (r.frame, r.lg))
    ++ (upto numDies).flatMap fun d =>
      ((s.die d).tcache.filter fun l => l.space = space && rangesMeet l.vbase (2 ^ l.lg) base n).map fun l =>
        (l.frame, l.lg)

/-- What a range hold does to every die and core (04 R94 steps 2 to 6). -/
def State.shootdown (s : State) (space : BitVec 16) (base n : Nat) : State :=
  let s := (s.cores.map (·.1)).foldl (State.holdCore space base n) s
  let s := s.flushRange space base n
  let frames := s.framesIn space base n
  let s := (upto numDies).foldl (State.holdDie space base n) s
  let s := frames.foldl (fun (s : State) f => s.dropHome f.1 (2 ^ f.2)) s
  (upto numDies).foldl (State.holdNames space base n) s

/-- Whether a range of a command is malformed (26 R379, R380). That one past the 57 bits of a virtual address is, R380 does
not say (log entries 40, 141). -/
def rangeBad (space base lg : Nat) : Bool :=
  space = 0 || decide (lg < 12) || decide (57 < lg) || base % 2 ^ lg ≠ 0 || decide (2 ^ 57 ≤ base)

/-- Whether a store that has performed some of its elements still has one to perform in a range: a hold of the range is
complete only when that one is in the L1, in the buffer or at its target (04 R94 steps 2 and 4). -/
def State.begunIn (s : State) (space : BitVec 16) (base n : Nat) : Bool :=
  s.harts.any fun q => q.2.placed.any fun p =>
    p.begun && p.todo.any fun x => inRange x.1.a.space space x.1.cell base n

/-- RANGE_HOLD: a second hold over one page waits until the first is freed (04 R95), and a store that is paused half-way
in the range is performed first. Two holds over disjoint parts of one larger page stand together: the model compares the
ranges of the commands (log entry 98). -/
def execRangeHold (s : State) : Out :=
  s.command 0x03 fun c s =>
    let tag := cmdWord c 1 % 2 ^ 16
    let lg := cmdWord c 3 % 64
    let base := cmdWord c 2
    if rangeBad tag base lg then done1 0x07 s
    else if s.heldRange (BitVec.ofNat 16 tag) base (2 ^ lg) || s.begunIn (BitVec.ofNat 16 tag) base (2 ^ lg) then none
    else
      let h : Hold := { space := BitVec.ofNat 16 tag, base := base, lg := lg }
      let s := { s with xlat := { s.xlat with holds := s.xlat.holds ++ [h] } }
      done1 0x00 (s.shootdown h.space base (2 ^ lg))

/-- RANGE_FREE: what waits for the range goes on under the tables as they stand. -/
def execRangeFree (s : State) : Out :=
  s.command 0x04 fun c s =>
    let tag := cmdWord c 1 % 2 ^ 16
    let lg := cmdWord c 3 % 64
    let base := cmdWord c 2
    if rangeBad tag base lg then done1 0x07 s
    else
      let h : Hold := { space := BitVec.ofNat 16 tag, base := base, lg := lg }
      done1 0x00 { s with xlat := { s.xlat with holds := s.xlat.holds.filter fun q => q ≠ h } }

/-- The fields of a space descriptor that are not reserved (04 R77). -/
def descMask : Nat := (ones 40 <<< 12) + 7

/-- Writes a space descriptor; a zero one is not listed. -/
def State.setSpace (s : State) (tag w : Nat) : State :=
  let d := if w = 0 then adel s.xlat.spaces tag else aset s.xlat.spaces tag (BitVec.ofNat 128 w)
  { s with xlat := { s.xlat with spaces := d } }

/-- Whether a vector store of a space has passed enumeration and is neither performed nor trapped (04 R96 step 1). -/
def State.storesPaused (s : State) (space : BitVec 16) : Bool :=
  s.harts.any fun q => q.2.placed.any fun p => p.todo.any fun x => x.1.a.space = space

/-- SPACE_UPDATE (04 R96): once every enumerated store of the space is performed or traps, a hold of the whole space, the
descriptor, and the free. -/
def execSpaceUpdate (s : State) : Out :=
  s.command 0x05 fun c s =>
    let tag := cmdWord c 1 % 2 ^ 16
    if tag = 0 then done1 0x07 s
    else if s.heldRange (BitVec.ofNat 16 tag) 0 (2 ^ 57) || s.storesPaused (BitVec.ofNat 16 tag) then none
    else done1 0x00 ((s.shootdown (BitVec.ofNat 16 tag) 0 (2 ^ 57)).setSpace tag (cmdWord c 2 &&& descMask))

/-! ## Resolutions (05 R113) -/

/-- The entry that a resolution names. -/
def State.faultEntry (s : State) (c : List Word) : Option HostFault :=
  (s.die (cmdWord c 1 % 4)).faults.find? fun f => f.id = cmdWord c 2 % 4096

/-- Whether a trap waits for an entry: a precise requester with rep = 1, or a command failure met in memory. -/
def FRec.awaits (t : FRec) (id : Nat) : Bool :=
  t.hostq = id && ((t.cause = 0x0B && t.rep) || (t.cause = 0x13 && t.inner = 0x0B))

/-- Whether a store-buffer entry is a requester of a host entry: of its page, or refused under its id on its die. Those of the
page count on every die, for "fail" as for "retry": R113 speaks of the entries of the page, and leaves open whether they
reach beyond the die of the entry that is answered (log entries 44, 132). -/
def SbEntry.requests (e : SbEntry) (core die : Nat) (f : HostFault) : Bool :=
  (e.state = .faulted || e.state = .reported)
    && ((e.space = f.space && page4k e.va = f.va) || (dieOf core = die && e.hostq = f.id))

/-- Whether a deferred store trap awaits the answer to a host entry, by its page or by its id on its die. -/
def FRec.awaitsStores (t : FRec) (core die : Nat) (f : HostFault) : Bool :=
  t.cause = 0x0C && t.rep && ((t.space = f.space && page4k t.va = f.va) || (dieOf core = die && t.hostq = f.id))

/-- Whether the answer to a host entry is the one that a hart awaits in its trap. -/
def FRec.answered (t : FRec) (core die : Nat) (f : HostFault) : Bool :=
  (dieOf core = die && t.awaits f.id) || t.awaitsStores core die f

/-- Removes a host entry. -/
def State.dropFault (s : State) (die id : Nat) : State :=
  let d := s.die die
  s.setDie die { d with faults := d.faults.filter fun q => q.id ≠ id }

/-- A failure that waits for an entry keeps the answer "retry". -/
def CmdFailure.resolve (id : Nat) (f : CmdFailure) : CmdFailure :=
  if f.frec.awaits id then { f with resolved := true } else f

/-- The host has answered "retry": a hart that waits for it returns to its instruction, its failed command issued again;
one whose handler has not come to wait keeps the answer (10 R190), and so does a failure that no instruction has consumed
yet, and a hart whose stores have still to be replayed (05 R104). -/
def State.retryHart (die : Nat) (f : HostFault) (s : State) (key : Nat) : State :=
  match s.hart? key with
  | none => s
  | some h0 =>
    let h := if dieOf (coreOf key) = die then { h0 with fail := h0.fail.map (CmdFailure.resolve f.id) } else h0
    let s := s.setHart key h
    match h.trap with
    | none => s
    | some t =>
      if t.frec.answered (coreOf key) die f then
        let later := s.setHart key { h with trap := some { t with retry := true } }
        if h.run = .hostWait && t.frec.cause ≠ 0x0C then (s.goBack (coreOf key) (slotOf key) t).getD later else later
      else s

/-- The answer "retry" to what a saved hart waits for: in its trap, as a pending failure, or for its refused stores, whose
images wait no more (10 R196). -/
def SavedHart.resolve (die : Nat) (f : HostFault) (q : SavedHart) : SavedHart :=
  let stores := q.stores.map fun e => if e.requests q.core die f then { e with state := .replaying } else e
  { q with resolved := q.resolved || q.trap.any (·.frec.answered q.core die f), stores := stores,
           fail := if dieOf q.core = die then q.fail.map (CmdFailure.resolve f.id) else q.fail }

/-- Every refused store of the page is replayed. -/
def State.replayPage (die : Nat) (f : HostFault) (s : State) (core : Nat) : State :=
  let c := s.core core
  let replay := fun (e : SbEntry) => if e.requests core die f then { e with state := .replaying } else e
  s.setCore core { c with sb := c.sb.map replay }

def execResolveRetry (s : State) : Out :=
  match s.command? with
  | none => .next s
  | some c =>
    if bit (cmdWord c 3) 0 then .next s
    else
      s.command 0x06 fun c s =>
        let die := cmdWord c 1 % 4
        match s.faultEntry c with
        | none => done1 0x08 s
        | some f =>
          if f.wres = 0xF then done1 0x09 s
          else
            let s := s.dropFault die f.id
            let s := (s.harts.map (·.1)).foldl (State.retryHart die f) s
            let s := { s with fe := { s.fe with saved := s.fe.saved.map (SavedHart.resolve die f) } }
            done1 0x00 ((s.cores.map (·.1)).foldl (State.replayPage die f) s)

/-- Cause and pc of what waits precisely for an entry: a trap, else a pending failure, whose trap would be at the
instruction at `pc` (log entry 95). One that the host has answered with "retry" waits no more. -/
def preciseWait (trap : Option Handling) (fail : Option CmdFailure) (pc : Word) (id : Nat) : Option (Nat × Word) :=
  match trap.filter fun t => t.frec.awaits id && !t.retry, fail.filter fun f => f.frec.awaits id && !f.resolved with
  | some t, _ => some (t.frec.cause, t.pc)
  | none, some f => some (f.frec.cause, pc)
  | none, none => none

/-- A hart that was restored in the wait of a deferred store trap and still awaits a host entry, though its stores are
replayed (10 R191, R196): the cause, and the pc that its fault record names (05 R103). -/
def State.storeWait (s : State) (die : Nat) (f : HostFault) (core area : Nat) (trap : Option Handling) :
    Option (Nat × Word) :=
  (trap.filter fun t => t.frec.awaitsStores core die f && !t.retry).map fun _ =>
    (0x0C, BitVec.ofNat 64 (fld (s.readPA (area + 0x40) 64) 319 256))

/-- The hart of a key as a requester: its own trap or failure, or its oldest refused store of the page. One that is both a
precise requester and the owner of refused stores of the page has two causes under R113; the model records the precise one
(log entry 105). -/
def State.requester (s : State) (die : Nat) (f : HostFault) (key : Nat) (h : Hart) : Option Requester :=
  let core := coreOf key
  let slot := slotOf key
  let store := (s.core core).sb.foldl (fun (best : Option SbEntry) e =>
    if e.slot = slot && e.requests core die f then
      match best with
      | some b => if e.seq < b.seq then some e else best
      | none => some e
    else best) none
  match (if dieOf core = die then preciseWait h.trap h.fail h.pc f.id else none), store with
  | some p, _ => some { blk := h.blk, cause := p.1, pc := p.2, core := core, slot := slot }
  | none, some e => some { blk := h.blk, cause := 0x0C, pc := e.pc, core := core, slot := slot }
  | none, none => (s.storeWait die f core h.area h.trap).map fun p =>
      { blk := h.blk, cause := p.1, pc := p.2, core := core, slot := slot }

/-- Bytes of one store-buffer image (05 R107), and of a save area before its registers (10 R194). -/
def sbImageBytes : Nat := 192
def saveImages : Nat := 0x2000

/-- The header of store-buffer image k of a save area. -/
def State.sbImage (s : State) (area k : Nat) : Nat := s.readPA (area + saveImages + sbImageBytes * k) 64

/-- Count of the store-buffer images of a save area. -/
def State.sbImages (s : State) (area : Nat) : Nat := fld (s.readPA area 64) 383 368

/-- A saved hart as a requester: by its trap, its failure, or the images of its refused stores that still wait. -/
def State.savedRequester (s : State) (die : Nat) (f : HostFault) (q : SavedHart) : Option Requester :=
  let hit := fun (i : Nat) =>
    (fld i 191 176 = f.space.toNat && page4k (fld i 248 192) = f.va) || (dieOf q.core = die && fld i 175 160 = f.id)
  let waits := fun (k : Nat) => q.stores[k]?.all fun e => e.state ≠ .replaying
  let images := (((upto (s.sbImages q.area)).filter waits).map (s.sbImage q.area)).filter hit
  let oldest := images.foldl (fun (best : Option Nat) i =>
    match best with
    | some b => if fld i 511 448 < fld b 511 448 then some i else best
    | none => some i) none
  let pc := BitVec.ofNat 64 (fld (s.readPA q.area 64) 447 384)
  let trap := q.trap.map fun t => { t with retry := q.resolved }
  match (if dieOf q.core = die then preciseWait trap q.fail pc f.id else none), oldest with
  | some p, _ => some { blk := q.blk, cause := p.1, pc := p.2, core := q.core, slot := q.slot }
  | none, some i =>
    some { blk := q.blk, cause := 0x0C, pc := BitVec.ofNat 64 (fld i 447 384), core := q.core, slot := q.slot }
  | none, none => (s.storeWait die f q.core q.area trap).map fun p =>
      { blk := q.blk, cause := p.1, pc := p.2, core := q.core, slot := q.slot }

/-- A requester's domain ends, unless its region has ended already. -/
def State.failRequester (s : State) (r : Requester) : State :=
  match s.region r.blk with
  | some _ => s.endDomain r.blk r.cause r.pc r.core r.slot
  | none => s

/-- "fail": the domains of started requesters end; a saved one acts on it at its restore (10 R196, R200). Of several
requesters in one domain that of the lowest core and slot is delivered first, an order that R156 step 1 leaves open (log
entry 105). -/
def execResolveFail (s : State) : Out :=
  match s.command? with
  | none => .next s
  | some c =>
    if !bit (cmdWord c 3) 0 then .next s
    else
      s.command 0x06 fun c s =>
        let die := cmdWord c 1 % 4
        match s.faultEntry c with
        | none => done1 0x08 s
        | some f =>
          let rs := s.harts.filterMap fun q => s.requester die f q.1 q.2
          let later := fun (q : SavedHart) => match s.savedRequester die f q with
            | some r => { q with failed := some (q.failed.getD r) }
            | none => q
          let s := { s with fe := { s.fe with saved := s.fe.saved.map later } }
          let s := rs.foldl State.failRequester (s.dropFault die f.id)
          let drop := fun (s : State) (core : Nat) =>
            let c := s.core core
            s.setCore core { c with sb := c.sb.filter fun e => !e.requests core die f }
          done1 0x00 ((s.cores.map (·.1)).foldl drop s)

/-! ## End region, save pool (26 R380, 10 R198) -/

def execEndRegion (s : State) : Out :=
  s.command 0x07 fun c s =>
    if (s.fieldsOf (cmdWord c 1)).isSome then done1 0x00 (s.endByHost (cmdWord c 1)) else done1 0x0A s

def execSetSavePool (s : State) : Out :=
  s.command 0x08 fun c s =>
    let base := cmdWord c 1
    let len := cmdWord c 2
    if !s.fe.areas.isEmpty then done1 0x0B s
    else if base % 4096 ≠ 0 || len = 0 || !s.inDevice base len then done1 0x07 s
    else done1 0x00 { s with fe := { s.fe with pool := some (base, len) } }

/-! ## Attest, protect (27 R389, R390) -/

/-- Bytes of the report: the signed part and the signature. -/
def attestSigned : Nat := 0xB20
def attestLength : Nat := attestSigned + 4627

/-- The signed part of the report over a nonce. -/
def State.report (s : State) (nonce : List Byte) : List Byte :=
  nonce ++ toBytes 64 s.sts.measurement.toNat ++ toBytes 16 Config.serialNumber.toNat ++ toBytes 8 s.statusWord
    ++ List.replicate 104 0 ++ (upto 2592).map Config.identityKey

def execAttest (s : State) : Out :=
  s.command 0x09 fun c s =>
    let a := cmdWord c 1
    if a % 64 ≠ 0 || !s.inDevice a attestLength then done1 0x07 s
    else
      let r := s.report (s.mem.read a 64)
      let sig := (upto 4627).map (Config.attestSignature (sha3_512 r))
      done1 0x00 (s.homeWrite a (r ++ sig))

/-- PROTECT; a range of no bytes protects nothing. -/
def execProtect (s : State) : Out :=
  s.command 0x0A fun c s =>
    let base := cmdWord c 1
    let len := cmdWord c 2
    if base % 65536 ≠ 0 || len % 65536 ≠ 0 || decide (gddrSize < base + len)
        || s.sts.prot.any (fun p => rangesMeet p.1 p.2 base len) then done1 0x07 s
    else if len = 0 then done1 0x00 s
    else done1 0x00 { s with sts := { s.sts with prot := s.sts.prot ++ [(base, len)] } }

/-! ## The command unit's turn -/

/-- The events by which the unit performs each operation. -/
def State.commandTurn (s : State) : Out :=
  match s.command? with
  | none => .next s
  | some c =>
    let op := cmdOp c
    if op = 0x01 then execLoadObject s
    else if op = 0x02 then execUnload s
    else if op = 0x03 then execRangeHold s
    else if op = 0x04 then execRangeFree s
    else if op = 0x05 then execSpaceUpdate s
    else if op = 0x06 then (if bit (cmdWord c 3) 0 then execResolveFail s else execResolveRetry s)
    else if op = 0x07 then execEndRegion s
    else if op = 0x08 then execSetSavePool s
    else if op = 0x09 then execAttest s
    else if op = 0x0A then execProtect s
    else .next (s.endCommand c (0x07, 0))

end Sys2Proof.Machine
end

