-- ==== Sys2Proof/Machine/EvBoot.lean ====
section
/-! DEFINITION. Reset, bring-up and links (spec 26 R382; 27 R385 to R388, R390, R391). -/

namespace Sys2Proof.Machine

/-! ## Reset and bring-up (27 R385) -/

/-- The key of the bring-up is gone: a protected range holds the ciphertext that was written under it (27 R390). -/
def State.sealRange (s : State) (p : Nat × Nat) : Memory := s.mem.write p.1 ((upto p.2).map fun i => s.cipherByte (p.1 + i))

/-- Device memory as a reset leaves it: it stands (log entry 5), the protected ranges as ciphertext. -/
def State.sealed (s : State) : Memory := (s.sts.prot.foldl (fun (s : State) p => { s with mem := s.sealRange p }) s).mem

/-- DEVICE_RESET: every register and unit as at reset. Memory stands (the host's, the peers' and, log entry 5, the
device's), and so do the messages already sent and the model's own counters. -/
def execDeviceReset (s : State) : Out :=
  .next { State.reset with
    agenda := s.agenda, turn := s.turn, cur := s.cur, ticks := s.ticks, leftReset := s.ticks, free := s.free,
    mem := s.sealed, poison := s.poison
    io := { State.reset.io with msix := s.io.msix, lastRead := s.io.lastRead } }

/-- Bring-up fails: phase 4, its code, and an event (27 R385, R391); the die that logs it is open. -/
def State.bootFails (s : State) (berr : Nat) : State :=
  let r := s.choose 4
  { r.2 with sts := { r.2.sts with phase := 4, berr := BitVec.ofNat 8 berr } }.logEvent 0x04 r.1 berr

/-- The largest image, in bytes. -/
def imageLimit : Nat := 64 * 2 ^ 20

/-- IMAGE_VERIFY_COMPLETE: the boot ROM's checks of the image at offset 0 of the SRAM window; then the firmware runs. -/
def execImageVerifyComplete (s : State) : Out :=
  if s.sts.phase ≠ 1 then .next s
  else if imageLimit < s.sts.bootLen then .next (s.bootFails 0x03)
  else
    let image := s.mem.read sramBase s.sts.bootLen
    if !Config.imageWellFormed image then .next (s.bootFails 0x02)
    else if !Config.signatureValid image then .next (s.bootFails 0x01)
    else
      let sts := { s.sts with
        phase := 2, fwver := Config.imageVersion image, image := image, measurement := sha3_512 image,
        sg0 := Config.fwSg0 image &&& segMask, sg1 := Config.fwSg1 image &&& segMask,
        tvec := Config.fwTvec image &&& (BitVec.allOnes 64 - 3) }
      .next ({ s with sts := sts }.setSpace 0 ((Config.fwSpace0 image).toNat &&& descMask))

/-- GDDR_TRAINING_COMPLETE (27 R385, R387): the device takes no more work until the change, or it halts. In the halted phase
it takes no packet and no command (R385); what becomes of live regions and of accepted launches the spec does not say, and
in the model they go on (log entry 144). -/
def execGddrTrainingComplete (ok : Bool) (s : State) : Out :=
  if s.sts.phase ≠ 2 ∨ s.sts.trained then .next s
  else if ok then .next { s with sts := { s.sts with trained := true } }
  else .next (s.bootFails 0x04)

/-! ## The change to full service (27 R387, R388) -/

/-- A descriptor after the change: en is cleared when its root lies in the window. -/
def changedDesc (d : BitVec 128) : BitVec 128 :=
  if inSram (fld d.toNat 51 12 * 4096) then d &&& ~~~1 else d

/-- A core, a cluster and a die with nothing cached or in flight. -/
def Core.emptied (c : Core) : Core :=
  { c with l1 := [], l1i := [], meta1 := [], filter := [], fills := [], wbq := [], bypass := [], target := [] }
def Die.emptied (d : Die) : Die := { d with tcache := [], wcache := [], names := [], faults := [] }

/-- Every space's lines are written back and dropped, as a range hold over it would (04 R94). -/
def State.shootAll (s : State) : State :=
  s.xlat.spaces.foldl (fun s d => s.shootdown (BitVec.ofNat 16 d.1) 0 (2 ^ 57)) s

/-- FULL_SERVICE_CHANGE: with no region in state 1, 2 or 3, and no command that the unit has still to complete. -/
def execFullServiceChange (s : State) : Out :=
  if s.sts.phase = 2 ∧ s.sts.trained ∧ s.fe.regions = [] ∧ s.fe.launches = [] ∧ !s.io.current then
    let s := s.shootAll
    let pool := match s.fe.pool with
      | some (b, n) => if inSram b then none else some (b, n)
      | none => none
    let spaces := (s.xlat.spaces.map fun d => (d.1, changedDesc d.2)).filter fun d => d.2 ≠ 0
    .next { s with
      mem := s.mem.filter fun c => !inSram c.1
      poison := s.poison.filter fun w => !inSram (8 * w)
      home := []
      cores := s.cores.map fun c => (c.1, c.2.emptied)
      clusters := s.clusters.map fun c => (c.1, { l2 := [], wbq := [] })
      dies := s.dies.map fun d => (d.1, d.2.emptied)
      xlat := { s.xlat with spaces := spaces }
      fe := { s.fe with objects := [], pool := pool }
      sts := { s.sts with phase := 3, trained := false } }
  else .next s

/-! ## Links (26 R382, 27 R390, R391) -/

/-- A link. -/
def State.link (s : State) (j : Nat) : Link := (aget s.io.links j).getD Link.reset

/-- Replaces a link. -/
def State.setLink (s : State) (j : Nat) (l : Link) : State :=
  { s with io := { s.io with links := aset s.io.links j l } }

/-- A link goes down, and the device logs it; the die that logs it is open. -/
def State.linkDown (s : State) (j : Nat) : State :=
  if j < numLinks ∧ (s.link j).up then
    let r := (s.setLink j { up := false, failures := 0 }).choose 4
    r.2.logEvent 0x03 r.1 j
  else s

/-- LINK_BRINGUP: the ends have verified each other and agreed their keys. -/
def execLinkBringup (link : Nat) (s : State) : Out :=
  if link < numLinks then .next (s.setLink link { up := true, failures := 0 }) else .next s

/-- LINK_FLIT_RECEIVE: a flit that fails is resent; three consecutive failures take the link down. -/
def execLinkFlitReceive (link : Nat) (ok : Bool) (s : State) : Out :=
  let l := s.link link
  if numLinks ≤ link ∨ !l.up then .next s
  else if ok then .next (s.setLink link { l with failures := 0 })
  else if 3 ≤ l.failures + 1 then .next (s.linkDown link)
  else .next (s.setLink link { l with failures := l.failures + 1 })

/-- LINK_FAILURE: requests move to the other links of the mask; with none left they fail as peers refuse (26 R382). -/
def execLinkFailure (link : Nat) (s : State) : Out := .next (s.linkDown link)

/-! ## Requests of peers (07 R138, 26 R382) -/

/-- The new code of an atomic by its operation code (14 R261), with operand v and, for AMOCAS, the value c that is
stored. -/
def peerUpdate (op : BitVec 4) (w : AmoWidth) (m v c : Nat) : Option Nat :=
  let n := 8 * amoBytes w
  let f := match w with
    | .w32 => Fmt.f32
    | .w64 => Fmt.f64
  let k := op.toNat
  if k = 0 then some ((m + v) % 2 ^ n)
  else if k = 1 then some (m &&& v)
  else if k = 2 then some (m ||| v)
  else if k = 3 then some (m ^^^ v)
  else if k = 4 then some (sMin n m v)
  else if k = 5 then some (sMax n m v)
  else if k = 6 then some (min m v)
  else if k = 7 then some (max m v)
  else if k = 8 then some v
  else if k = 9 then (if m = v then some c else none)
  else if k = 10 then some (floatAdd f m v).1
  else none

/-- Whether n bytes from an address lie in GDDR 7, where a peer's request can be performed. -/
def State.peerTarget (s : State) (pa n : Nat) : Bool := s.sts.phase = 3 && decide (pa + n ≤ gddrSize)

/-- PEER_REQUEST: performed at the home slice, as a host request is; a request beyond GDDR 7 is refused. -/
def execPeerRequest (req : PeerReq) (s : State) : Out :=
  let answer := fun (s : State) (b : List Byte) => ({ s with io := { s.io with lastRead := b } } : State)
  match req with
  | .read pa len => if s.peerTarget pa len then .next (answer s (s.mem.read pa len)) else .next (answer s [])
  | .write pa bytes => if s.peerTarget pa bytes.length then .next (s.homeWrite pa bytes) else .next s
  | .atomic op w pa v c =>
    let n := amoBytes w
    if s.peerTarget pa n ∧ pa % n = 0 then
      let m := s.readPA pa n
      let t := match peerUpdate op w m (v.toNat % 2 ^ (8 * n)) (c.toNat % 2 ^ (8 * n)) with
        | some x => s.homeWrite pa (toBytes n x)
        | none => s
      .next (answer t (toBytes n m))
    else .next (answer s [])

end Sys2Proof.Machine
end

