-- ==== Sys2Proof/Machine/EvFront.lean ====
section
/-! DEFINITION. The front end (spec 08 R153 to R157; 09 R166 to R172, R177): packets, launch checks, placement, aging,
and the current arbiter. -/

namespace Sys2Proof.Machine

/-! ## The launch packet (09 R167) -/

/-- A packet. -/
structure Packet where
  bits : Nat
  deriving DecidableEq, Repr

namespace Packet

def f (p : Packet) (hi lo : Nat) : Nat := fld p.bits hi lo
def ver (p : Packet) : Nat := p.f 7 0
def span (p : Packet) : Nat := p.f 32 31
def ovr (p : Packet) : Nat := p.f 75 68
def bmask (p : Packet) : Nat := p.f 95 80
def tag (p : Packet) : Nat := p.f 127 96
def cobj (p : Packet) : Nat := p.f 159 128
def count (p : Packet) : Nat := p.f 319 256
def entry (p : Packet) : Nat := p.f 383 320
def parent (p : Packet) : Nat := p.f 447 384
def blk (p : Packet) : Nat := p.f 511 448
def arg (p : Packet) (i : Nat) : Nat := p.f (575 + 64 * i) (512 + 64 * i)
def bind (p : Packet) (j : Nat) : Nat := p.f (1407 + 128 * j) (1280 + 128 * j)
/-- Binding j when its bmask bit is set, else the reset value. -/
def bound (p : Packet) (j : Nat) : BitVec 128 := if bit p.bmask j then BitVec.ofNat 128 (p.bind j) else 0

/-- Effective fields of the packet's region, given its parent's (08 R154). -/
def fields (p : Packet) (par : Option Fields) : Fields :=
  let own : Fields :=
    { blk := p.blk, parent := p.parent, tqbase := p.f 255 192, tqsz := p.f 79 76, space := BitVec.ofNat 16 (p.f 191 176),
      fdom := p.f 175 160, ovr := BitVec.ofNat 8 p.ovr, hmax := p.f 67 56, lp := p.f 55 54, spb := p.f 53 49,
      ixu := p.f 48 44, pwr := p.f 43 36, prio := p.f 35 33 }
  match par with
  | none => own
  | some q =>
    { own with
      space := if bit p.ovr 7 then own.space else q.space
      fdom := if bit p.ovr 6 then own.fdom else q.fdom
      hmax := if bit p.ovr 5 then own.hmax else q.hmax
      lp := if bit p.ovr 4 then own.lp else q.lp
      spb := if bit p.ovr 3 then own.spb else q.spb
      ixu := if bit p.ovr 2 then own.ixu else q.ixu
      pwr := if bit p.ovr 1 then own.pwr else q.pwr
      prio := if bit p.ovr 0 then own.prio else q.prio }

end Packet

/-! ## Budgets (08 R154) -/

/-- The ancestors of a parent block, itself included, nearest first. -/
def State.ancestorsFuel (s : State) : Nat → Nat → List Fields
  | 0, _ => []
  | n + 1, b =>
    if b = 0 then []
    else
      match s.fieldsOf b with
      | none => []
      | some f => f :: s.ancestorsFuel n f.parent

def State.ancestors (s : State) (parent : Nat) : List Fields := s.ancestorsFuel s.treeFuel parent

/-- Harts counted for a region: started ones of it and its live descendants, and the whole hmax of each descendant that
is placing. -/
def State.hartCount (s : State) (a : Nat) : Nat :=
  (s.harts.filter fun q => s.under a q.2.blk).length + (s.fe.saved.filter fun q => s.under a q.blk).length
    + ((s.fe.launches.filter fun l => s.under a l.f.blk).map (·.f.hmax)).foldl (· + ·) 0

/-- Units of the grants that a region's subtree holds on a core. -/
def State.unitsOn (s : State) (core a : Nat) (n : Grant → Nat) : Nat :=
  (((s.core core).grants.filter fun g => s.under a g.blk).map n).foldl (· + ·) 0

/-- Bytes of a hart's save area at a partition code (10 R194). -/
def areaBytes (lp : Nat) : Nat := 0x8000 + 8 * (16384 / 2 ^ lp)

/-! ## The checks of a launch (09 R168) -/

/-- The first condition that holds, as a code; 0 when the launch is accepted. -/
def firstCode : List (Nat × Bool) → Nat
  | [] => 0
  | (c, b) :: t => if b then c else firstCode t

/-- Code 0x02: the block cannot be used. -/
def State.blockUnusable (s : State) (blk : Nat) : Bool :=
  blk % 64 ≠ 0 || !s.inDevice blk 64 || s.blkState blk ≠ 0 || (s.fieldsOf blk).isSome

/-- Code 0x03. A region whose last hart has retired has left state 2 (08 R155). -/
def State.parentUnusable (s : State) (parent : Nat) : Bool :=
  parent ≠ 0 && (parent % 64 ≠ 0 || !s.inDevice parent 64 || s.blkState parent ≠ 2 || (s.region parent).isNone
    || s.nlive parent = 0)

/-- Code 0x0A. -/
def State.codeUnusable (s : State) (p : Packet) (f : Fields) : Bool :=
  match s.fe.objects.find? fun o => o.handle = p.cobj with
  | none => true
  | some o =>
    let g := BitVec.ofNat 128 (p.bind 0)
    decide (3 < o.level) || !bit p.bmask 0 || !segX g || decide (segBase g < o.base)
      || decide (o.base + o.len < segBase g + segLimit g) || o.space ≠ f.space
      || p.entry % 4 ≠ 0 || decide (segLimit g ≤ p.entry)

/-- Code 0x0B: the object's resource note (20 R356). -/
def State.notesTooLarge (s : State) (cobj : Nat) : Bool :=
  match s.fe.objects.find? fun o => o.handle = cobj with
  | none => false
  | some o => decide (64 < o.vregs) || decide (1015808 < o.spbytes) || decide (8192 < o.ixent)

/-- The launch status code of a packet. -/
def State.launchCode (s : State) (p : Packet) (f : Fields) : Nat :=
  let up := s.ancestors p.parent
  let part := 2 ^ f.lp
  let need := cdiv f.hmax part
  let poolLen := match s.fe.pool with
    | some q => q.2
    | none => 0
  firstCode [
    (0x01, p.ver ≠ 1 || p.f 4095 3328 ≠ 0 || p.f 30 8 ≠ 0 || p.span = 3
      || (upto 16).any fun j => p.bound j &&& ~~~segMask ≠ 0),
    (0x02, s.blockUnusable p.blk),
    (0x03, s.parentUnusable p.parent),
    (0x04, p.parent = 0 && p.ovr ≠ 0xFF),
    (0x05, f.hmax = 0 || decide (384 * part < f.hmax) || up.any fun a => decide (a.hmax < s.hartCount a.blk + f.hmax)),
    (0x06, up.any fun a => decide (a.spb < f.spb)),
    (0x07, decide (16 < f.ixu) || up.any fun a => decide (a.ixu < f.ixu)),
    (0x08, decide (8 < f.tqsz) || f.tqbase % 4096 ≠ 0),
    (0x09, f.pwr = 0 || f.space = 0),
    (0x0A, s.codeUnusable p f),
    (0x0B, s.notesTooLarge p.cobj),
    (0x0C, decide (2 ^ 56 < p.count)),
    (0x0D, (p.span = 1 && decide (8 < need)) || (p.span = 2 && decide (96 < need))),
    (0x0F, decide (poolLen < f.hmax * areaBytes f.lp))]

/-! ## LAUNCH_PACKET_TAKE (09 R166 to R169) -/

/-- The 64 bytes of a block at acceptance (08 R153, 09 R167). -/
def blockBits (f : Fields) (rid : Nat) : Nat :=
  1 <<< 168 + f.prio <<< 189 + f.pwr <<< 192 + f.ixu <<< 200 + f.spb <<< 205 + f.lp <<< 210 + f.hmax <<< 212
    + f.ovr.toNat <<< 224 + f.tqsz <<< 232 + rid <<< 236 + f.fdom <<< 256 + f.space.toNat <<< 272
    + f.tqbase <<< 384 + f.parent <<< 448

/-- Whether the front end may take a packet from a queue (09 R166; 10 R198; 26 R377). -/
def State.takeable (s : State) (q : Nat) : Bool :=
  decide (q < 16) && s.feeds q && s.fe.pool.isSome && decide (s.fe.launches.length < 256)
    && (s.queue (16 + q)).held.isEmpty

/-- The queue whose turn it is. -/
def State.nextQueue (s : State) : Option Nat := ((upto 16).map fun i => (s.fe.rr + i) % 16).find? s.takeable

/-- The packet at the head of a launch queue. -/
def State.packet (s : State) (q : Nat) : Packet := { bits := s.readPA (hostPA ((s.queue q).headAt 512)) 512 }

/-- A packet that is refused when it is taken (09 R169): a block that cannot be used is left as it stands. -/
def State.refusePacket (s : State) (q : Nat) (p : Packet) (code : Nat) : State :=
  let s := if s.blockUnusable p.blk then s
    else (s.blkSet p.blk 179 172 code).blkSet p.blk 171 168 7
  s.complete q (BitVec.ofNat 32 p.tag) code 7 0 p.blk

/-- Whether a region identifier is unused. -/
def State.ridFree (s : State) (i : Nat) : Bool :=
  s.fe.regions.all (fun r => r.rid ≠ i) && s.fe.launches.all fun l => l.rid ≠ i

/-- A packet that is accepted into state 1. -/
def State.acceptPacket (s : State) (q : Nat) (p : Packet) (f : Fields) : State :=
  let rid := freshId s.ridFree (2 ^ 20) (Config.freeChoice s.free) (s.fe.regions.length + s.fe.launches.length + 1)
  let l : Launch :=
    { f := f, rid := rid, queue := q, tag := BitVec.ofNat 32 p.tag, entry := BitVec.ofNat 64 p.entry, n := p.count,
      args := (upto 12).map fun i => BitVec.ofNat 64 (p.arg i), binds := (upto 16).map p.bound, cobj := p.cobj,
      span := p.span, waited := 0 }
  let s := s.setPA p.blk 64 (blockBits f rid)
  State.showChildren { s with free := s.free + 1, fe := { s.fe with launches := s.fe.launches ++ [l] } } p.parent

/-- Takes the packet at the head of a queue. -/
def State.takePacket (s : State) (q : Nat) : State :=
  let p := s.packet q
  let f := p.fields ((s.region p.parent).map (·.f))
  let code := s.launchCode p f
  let s := s.setQueue q { s.queue q with head := (s.queue q).head + 1 }
  let s := { s with fe := { s.fe with rr := (q + 1) % 16 } }
  if code = 0 then s.acceptPacket q p f else s.refusePacket q p code

/-- LAUNCH_PACKET_TAKE: one packet from each queue in turn. -/
def execLaunchPacketTake (q : Nat) (s : State) : Out :=
  if s.nextQueue = some q then .next (s.takePacket q) else .next s

/-! ## Order of waiting launches (09 R171) -/

/-- Effective priority. -/
def Launch.prio (l : Launch) : Nat := min 7 (l.f.prio + l.waited / 2 ^ 24)

/-- The launch that comes first. -/
def State.firstLaunch (s : State) : Option Launch :=
  s.fe.launches.foldl (fun (best : Option Launch) l =>
    match best with
    | some b => if b.prio < l.prio then some l else best
    | none => some l) none

/-- LAUNCH_AGING: a waiting launch has waited some cycles more. -/
def execLaunchAging (idx cycles : Nat) (s : State) : Out :=
  let age := fun (l : Launch) => { l with waited := l.waited + cycles }
  .next { s with fe := { s.fe with launches := s.fe.launches.modify idx age } }

/-! ## Placement (09 R170) -/

/-- Whether a core is empty of started and saved harts, so that its partition may be set. -/
def State.coreEmpty (s : State) (core : Nat) : Bool :=
  !(s.harts.any fun q => coreOf q.1 = core) && !(s.fe.saved.any fun q => q.core = core)

/-- Free slots of a core at a partition, when harts of the blocks in `gone` are pre-empted. -/
def State.freeSlots (s : State) (gone : List Nat) (core part : Nat) : List Nat :=
  (upto part).filter fun slot =>
    match s.hart? (hkey core slot) with
    | some h => h.blk ∈ gone
    | none => true

/-- First unit of a free run of n units on a core (01 R18). -/
def Core.freeRun (c : Core) (n : Nat) : Option Nat :=
  (upto (32 - n)).find? fun b => c.grants.all fun g => !rangesMeet g.b g.units b n

/-- Index-scratchpad units that are granted on a core. -/
def Core.ixUsed (c : Core) : Nat := (c.grants.map (·.ixUnits)).foldl (· + ·) 0

/-- Whether a core is eligible for a launch's harts, n of them. -/
def State.eligible (s : State) (gone : List Nat) (f : Fields) (up : List Fields) (n core : Nat) : Bool :=
  let c := s.core core
  (c.lpart = f.lp || s.coreEmpty core)
    && decide (n ≤ (s.freeSlots gone core (2 ^ f.lp)).length)
    && (c.freeRun f.spb).isSome && decide (c.ixUsed + f.ixu ≤ 16)
    && up.all fun a => decide (s.unitsOn core a.blk (·.units) + f.spb ≤ a.spb)
        && decide (s.unitsOn core a.blk (·.ixUnits) + f.ixu ≤ a.ixu)

/-- Device numbers from lo, n of them. -/
def span (lo n : Nat) : List Nat := (upto n).map (lo + ·)

/-- The groups of cores that a span allows, lowest first. -/
def spanGroups (k : Nat) : List (List Nat) :=
  if k = 1 then (upto numClusters).map fun i => span (8 * i) 8
  else if k = 2 then (upto numDies).map fun i => span (96 * i) 96
  else [upto numCores]

/-- The lowest set of cores of a group that holds the launch: its full cores, then one for the rest. -/
def State.chooseIn (s : State) (gone : List Nat) (f : Fields) (up : List Fields) (group : List Nat) :
    Option (List Nat) :=
  let part := 2 ^ f.lp
  let need := cdiv f.hmax part
  let full := (group.filter (s.eligible gone f up part)).take (need - 1)
  let after := match full.getLast? with
    | some c => group.filter (c < ·)
    | none => group
  if full.length + 1 = need then
    (after.find? (s.eligible gone f up (f.hmax - (need - 1) * part))).map fun c => full ++ [c]
  else none

/-- The cores of a launch. -/
def State.chooseCores (s : State) (gone : List Nat) (l : Launch) : Option (List Nat) :=
  ((spanGroups l.span).filterMap (s.chooseIn gone l.f (s.ancestors l.f.parent))).head?

/-- The lowest place in the pool for an area of n bytes (10 R198). -/
def State.areaFor (s : State) (n : Nat) : Option Nat :=
  match s.fe.pool with
  | none => none
  | some (base, len) =>
    let ok := fun a => decide (base ≤ a) && decide (a + n ≤ base + len)
      && s.fe.areas.all fun q => !rangesMeet q.1 q.2 a n
    ((base :: s.fe.areas.map fun q => q.1 + q.2).filter ok).foldl (fun (best : Option Nat) a =>
      match best with
      | some b => some (min a b)
      | none => some a) none

/-- Allocates k areas of n bytes, or none. -/
def State.takeAreas (s : State) (n : Nat) : Nat → Option (List Nat × State)
  | 0 => some ([], s)
  | k + 1 =>
    match s.areaFor n with
    | none => none
    | some a =>
      let s := { s with fe := { s.fe with areas := s.fe.areas ++ [(a, n)] } }
      (State.takeAreas s n k).map fun r => (a :: r.1, r.2)

/-! ## Starting a region (08 R157, 07 R141, 09 R167) -/

/-- The chunk of elements of each hart (08 R157). -/
def chunkOf (n hmax : Nat) : Nat := 64 * cdiv (cdiv n hmax) 64

/-- Writes scalar registers from x(i). -/
def Hart.setXs (h : Hart) (i : Nat) : List Word → Hart
  | [] => h
  | w :: t => Hart.setXs (h.setX (BitVec.ofNat 5 i) w) (i + 1) t

/-- Binds user segment registers from g(i). -/
def Hart.bindGs (h : Hart) (i : Nat) : List (BitVec 128) → Hart
  | [] => h
  | g :: t => Hart.bindGs (if hi : i < 16 then { h with g := h.g.set i g hi } else h) (i + 1) t

/-- Hart number h of a launch, with its save area. -/
def startHart (l : Launch) (sts : Status) (i area : Nat) : Hart :=
  let chunk := chunkOf l.n l.f.hmax
  let first := min l.n (i * chunk)
  let h : Hart := { Hart.reset with
    pc := l.entry, blk := l.f.blk, space := l.f.space, area := area, sg0 := sts.sg0, sg1 := sts.sg1,
    ctl := { Ctrl.reset with tvec := sts.tvec } }
  ((h.setXs 1 [BitVec.ofNat 64 first, BitVec.ofNat 64 (min l.n ((i + 1) * chunk) - first), BitVec.ofNat 64 i]).setXs 4
    l.args).bindGs 0 l.binds

/-- Prepares one core for a region: its partition, its grant, whose contents are not defined, the acquire with which its
harts begin, and its instruction cache (09 R170, 03 R59, 07 R141). -/
def State.prepareCore (f : Fields) (s : State) (core : Nat) : State :=
  let c := s.core core
  let g : Grant := { blk := f.blk, b := (c.freeRun f.spb).getD 0, units := f.spb, ixUnits := f.ixu, table := [],
                     tablePoison := [] }
  let c := { c with lpart := f.lp, grants := c.grants ++ [g], l1i := [],
                    sp := c.sp.write (g.phys 0) ((upto g.bytes).map (Config.grantByte s.free)) }
  ({ s with free := s.free + 1 }.setCore core c).acquireSteps core f.space .s

/-- The places of harts, in order: each core's free slots, rising. -/
def State.places (s : State) (f : Fields) (cores : List Nat) : List (Nat × Nat) :=
  cores.flatMap fun c => (s.freeSlots [] c (2 ^ f.lp)).map fun slot => (c, slot)

/-- Starts harts from number i in their places with their areas. -/
def State.startHarts (l : Launch) (s : State) (i : Nat) : List ((Nat × Nat) × Nat) → State
  | [] => s
  | (p, area) :: t => State.startHarts l (s.setHart (hkey p.1 p.2) (startHart l s.sts i area)) (i + 1) t

end Sys2Proof.Machine
end

