-- ==== Sys2Proof/Machine/Tack.lean ====
section
/-! DEFINITION. Tacks (spec 08 R158 to R162; 09 R173; 19 R351): the ring, SPAWN, JOIN, ENDT, the pop by an idle hart,
and the deadlock of a full ring. -/

namespace Sys2Proof.Machine

/-! ## The ring (08 R159) -/

/-- Capacity, head, tail and base of a region's ring. Its place and its size are the region's own, as it was accepted: a
write to its block moves no push out of them (00 R10, 08 R155). Its counts are read as they stand where the block is poisoned
(log entry 133). -/
structure Ring where
  cap : Nat
  head : Nat
  tail : Nat
  base : Nat
  deriving DecidableEq, Repr

def State.ring (s : State) (blk : Nat) : Ring :=
  let p := match s.region blk with
    | some r => (r.f.tqsz, r.f.tqbase)
    | none => (s.blkGet blk 235 232, s.blkGet blk 447 384)
  { cap := 2 ^ (p.1 + 8), head := s.blkGet blk 351 320, tail := s.blkGet blk 383 352, base := p.2 }

def Ring.used (r : Ring) : Nat := (r.tail + 2 ^ 32 - r.head) % 2 ^ 32
def Ring.full (r : Ring) : Bool := r.used = r.cap
def Ring.empty (r : Ring) : Bool := r.used = 0

/-- Address of entry k. -/
def Ring.slot (r : Ring) (k : Nat) : Nat := r.base + 8 * (k % r.cap)

/-- Push. -/
def State.pushTack (s : State) (blk record : Nat) : State :=
  let r := s.ring blk
  (s.setPA (r.slot r.tail) 8 record).blkSet blk 383 352 (r.tail + 1)

/-- A push that waits while the ring is full (08 R162); the instruction retires when it has been made. `owed` names the
record again when the instruction has already done its other work. -/
def pushOrWait (record : Nat) (owed : Option Nat) (h : Hart) (s : State) : State :=
  if (s.ring h.blk).full then s.setMe { h with run := .ringWait record, push := owed }
  else (s.pushTack h.blk record).setMe { h.retire with run := .running, push := none }

/-! ## Records (08 R158) -/

/-- An access to a record: device scope, in the region's space, named by virtual address. It names no segment, and R108 does
not say what off and gseg of its fault hold, nor tval, which takes off: the model puts 0 (log entry 66). -/
def tackAcc (h : Hart) (key va n kind : Nat) : Acc :=
  { core := coreOf key, slot := slotOf key, space := h.spaceTag, user := h.user, kind := kind, gseg := 0, off := 0,
    rva := va, pva := va, va := va, elem := 0, ew := 8 * n, col := false, requester := true }

/-- Reads n bytes of a record on its checked page at device scope; bytes that the hart's own buffered stores hold are theirs
(05 R100, 06 R118; log entry 120). -/
def readRecord (a : Acc) (e : FilterEntry) (va n : Nat) (s : State) : Res Nat :=
  let c := s.core a.core
  let below : Res Nat := if c.forwardsAll a.slot a.space va n then .ok 0 s
    else performAtomic .read a e va n .d (fun _ => none) s
  below.bind fun x s =>
    if c.overlayPoison a.slot a.space va n then .stop (.trap (a.fault 0x0F)) s
    else .ok (c.overlay a.slot a.space va n x) s

/-- Reads or updates n bytes of a record with ordinary page checks (08 R160); a read asks for no right to write. An address
that is not a multiple of its size, or lies outside the virtual space, takes the ordinary cause. -/
def tackCell (rw : Rw) (va n align : Nat) (f : Nat → Option Nat) (h : Hart) (s : State) : Res Nat :=
  let a := tackAcc h s.cur va n rw.kind
  if 2 ^ 57 < va + n then .stop (.trap (a.segFault 0x06)) s
  else if va % align ≠ 0 then .stop (.trap (a.segFault 0x05)) s
  else
    (present a rw n s).bind fun e s =>
      match entryCheck a rw e with
      | some t => .stop (.trap t) s
      | none =>
        if rw = .both then atomicCell a e va n .d f s
        else readRecord a e va n s

/-! ## SPAWN (19 R351) -/

def execSpawn (g : GIx) (a : XIx) (s : State) : Out :=
  withHart s fun h =>
    let r : Req := { rw := .both, g := g.toNat, off := h.getX a, n := 32, align := 32, elem := 0, ew := 256,
                     col := false }
    let seg := h.getG g.toNat
    let acc := r.acc h s.cur true
    match segCheck seg r with
    | some c => trapOut (if c = 0x05 ∨ c = 0x06 then acc.segFault c else acc.fault c) s
    | none => finish ((release .d h s).bind fun _ s => .ok () (pushOrWait (segBase seg + r.off.toNat) none h s))

/-! ## JOIN (08 R160) -/

/-- Decrement if not zero. -/
def joinDec (m : Nat) : Option Nat := if m = 0 then none else some (m - 1)

/-- Whether the page of an address is not of the normal class, by the filter through which it was accessed. -/
def State.offNormal (s : State) (space : BitVec 16) (va : Nat) : Bool :=
  ((s.core s.myCore).filter.find? fun e => e.covers space va).any fun e => e.attr.mc ≠ .normal

/-- JOIN. One that was pre-empted while it waited on the full ring runs again from its push: its decrement stands (log entry
38). One that waits after it has read its parent from a page that is not of the normal class does not read it again. A
parent address that is a multiple of 4 but not of 32 has its word at offset 12 decremented like any other, which the spec
leaves open (log entry 94). -/
def execJoin (s : State) : Out :=
  withHart s fun h0 =>
    let c := h0.tack.toNat
    match h0.push with
    | some q => .next (pushOrWait q (some q) h0 s)
    | none =>
      if c = 0 then .next (s.setMe h0.retire)
      else
        let read : Res Nat := match h0.parent with
          | some q => .ok q s
          | none => tackCell .read (c + 24) 8 8 (fun _ => none) h0 s
        finish (read.bind fun q s =>
          -- what a JOIN that has to wait now keeps
          let off := h0.parent.isSome || s.offNormal h0.spaceTag (c + 24)
          let h := ({ h0 with parent := if off then some q else none }.pin off)
          let done := { h with parent := none }
          let s := s.setMe h
          if q = 0 then .ok () (s.setMe done.retire)
          else
            (release .d h s).bind fun _ s =>
              (tackCell .both (q + 12) 4 4 joinDec h s).bind fun old s =>
                if old = 0 then .stop (.trap (engineTrap 0)) s
                else if old = 1 then
                  .ok () (pushOrWait q (some q) (done.pin (s.offNormal h.spaceTag (q + 12))) s)
                else .ok () (s.setMe done.retire))

/-! ## ENDT (08 R160, 09 R173) -/

/-- When an idle hart began to wait. -/
def Hart.idleSince (h : Hart) : Option Nat :=
  match h.run with
  | .idle t => some t
  | _ => none

/-- Whether a hart of a region has the pop: it is the idle hart that has waited longest, or none is idle. -/
def State.firstInLine (s : State) (key blk : Nat) (mine : Option Nat) : Bool :=
  s.harts.all fun q =>
    q.1 = key || q.2.blk ≠ blk ||
      (match q.2.idleSince, mine with
       | some t, some m => decide (m < t) || (m = t && decide (key < q.1))
       | some _, none => false
       | none, _ => true)

/-- Whether a hart of a region other than this one holds work. -/
def State.othersWork (s : State) (key blk : Nat) : Bool :=
  (s.harts.any fun q => q.1 ≠ key && q.2.blk = blk && q.2.works) || (s.fe.saved.any fun q => q.blk = blk && q.works)

/-- Reads and checks the record at the head of the ring, behind an acquire at device scope, then pops it: the hart runs it
(08 R160). It waits for no outstanding work: stores in the buffer stay counted across the pop (19 R351). The entry is read as
it stands where its word is poisoned (log entry 133). -/
def popTack (h : Hart) (s : State) : Res Unit :=
  let ring := s.ring h.blk
  let r := s.readPA (ring.slot ring.head) 8
  (tackCell .read r 32 32 (fun _ => none) h (s.fenceAcquire s.myCore h.spaceTag .d)).bind fun c s =>
    if fld c 95 64 ≠ 0 || c % 4 ≠ 0 then .stop (.trap (engineTrap 0x11)) s
    else
      let s := s.blkSet h.blk 351 320 (ring.head + 1)
      let h := (h.setX 1 (BitVec.ofNat 64 (fld c 191 128))).setX 2 (BitVec.ofNat 64 r)
      let h := h.retireTo (BitVec.ofNat 64 (fld c 63 0))
      .ok () (s.setMe { h with tack := BitVec.ofNat 64 r, works := true, run := .running })

/-- Whether a hart owes nothing, so that it may retire (07 R141). -/
def Core.quiet (c : Core) (slot : Nat) : Bool := !c.bufferHolds slot && !c.cmds.any fun m => m.slot = slot

/-- The loop of EndT by the current hart: it pops, retires, or waits idle at its ENDT. -/
def endT (h : Hart) (s : State) : Out :=
  let h := { h with tack := 0 }
  let ring := s.ring h.blk
  let idle := { h with works := false, run := .idle (h.idleSince.getD s.ticks) }
  if !ring.empty then
    if s.firstInLine s.cur h.blk h.idleSince then
      match popTack h (s.setMe h) with
      | .ok _ s => .next s
      | .stop (.trap t) s => trapOut t s
      | .stop .wait s => .next s
    else .next (s.setMe idle)
  else if !s.othersWork s.cur h.blk && (s.core s.myCore).quiet s.mySlot then
    .next ((s.releaseSteps s.myCore h.spaceTag .s).retireHart s.cur h.blk)
  else .next (s.setMe idle)

def execEndt (s : State) : Out := withHart s fun h => endT h s

/-- TACK_POP (09 R173): the idle hart that has waited longest pops a pushed tack. -/
def execTackPop (core slot : Nat) (s : State) : Out :=
  let key := hkey core slot
  match s.hart? key with
  | none => .next s
  | some h =>
    if h.idleSince.isSome && !(s.ring h.blk).empty then asHart key (endT h) s else .next s

/-- A hart that waits on a full ring tries its push again. -/
def ringRetry (core slot : Nat) (s : State) : Out :=
  let key := hkey core slot
  match s.hart? key with
  | none => .next s
  | some h =>
    match h.run with
    | .ringWait r => asHart key (fun s => .next (pushOrWait r h.push h s)) s
    | _ => .next s

/-! ## The history buffer (10 R180) -/

/-- An entry of the history buffer: a register that an unretired instruction writes, as it was before. -/
structure HistEntry where
  slot : Nat
  reg : RegPrior
  deriving DecidableEq, Repr

/-- The entries that a hart holds between two steps (log entry 2). A WAITA that sleeps and an ENDT that waits idle have not
written their registers, which still hold their prior values; a vector load that waits between two elements, after one on a
page that is not of the normal class, has. A hart that drains for pre-emption holds none: no such load is stopped (R192 step
1), and another instruction that waits has written nothing. -/
def Hart.history (h : Hart) (slot : Nat) : List HistEntry :=
  let regs : List RegPrior := match h.run with
    | .asleep _ d _ _ => if d = 0 then [] else [.x d (h.getX d)]
    | .idle _ => [.x 1 (h.getX 1), .x 2 (h.getX 2)]
    | .running => ((h.prior.filter fun b => b.seq = h.seq).map (·.reg)).toList
    | _ => []
  regs.map fun r => { slot := slot, reg := r }

/-- The history buffer of a core. -/
def State.history (s : State) (core : Nat) : List HistEntry :=
  (upto numSlots).flatMap fun slot => match s.hart? (hkey core slot) with
    | some h => h.history slot
    | none => []

/-! ## RING_FULL_DEADLOCK (08 R162) -/

/-- Whether a hart waits on a full ring. -/
def Hart.waitsRing (h : Hart) : Bool :=
  match h.run with
  | .ringWait _ => true
  | _ => false

/-- When every hart of a region that holds work waits on the full ring, the domain ends with fcause 0x13; the record
names the lowest such hart. -/
def execRingFullDeadlock (blk : Nat) (s : State) : Out :=
  let mine := s.harts.filter fun q => q.2.blk = blk && q.2.works
  let stuck := (s.ring blk).full && mine.all (fun q => q.2.waitsRing)
    && !(s.fe.saved.any fun q => q.blk = blk && q.works)
  match mine with
  | (key, h) :: _ => if stuck then .next (s.endDomain blk 0x13 h.pc (coreOf key) (slotOf key)) else .next s
  | [] => .next s

end Sys2Proof.Machine
end

