-- ==== Sys2Proof/Machine/EvMem.lean ====
section
/-! DEFINITION. Steps of the memory side and of the execute side that follow their instructions: pending results,
walks, probes and their answers, the store buffer's drain and its trap, fills, evictions, write-backs,
acknowledgements, recall, and errors (spec 03 R46 to R52, R61; 04 R89, R92; 05 R99 to R114). A step that is not due
leaves the machine as it is. -/

namespace Sys2Proof.Machine

/-! ## Pending results -/

/-- LOAD_COMPLETE (17 R308): the oldest pending load of a hart is delivered. -/
def execLoadComplete (core slot : Nat) (s : State) : Out :=
  match s.hart? (hkey core slot) with
  | none => .next s
  | some h =>
    match h.loads with
    | [] => .next s
    | p :: t => .next (s.setHart (hkey core slot) { h.deliver p with loads := t })

/-- MATRIX_COMPLETE (18 R333): the oldest pending matrix instruction of a hart writes its D group. -/
def execMatrixComplete (core slot : Nat) (s : State) : Out :=
  match s.hart? (hkey core slot) with
  | none => .next s
  | some h =>
    match h.mats with
    | [] => .next s
    | m :: t => .next (s.setHart (hkey core slot) { h.finishMat m with mats := t })

/-! ## Walks (04 R74, R81, R86) -/

/-- WALK_COMPLETE: a walk that the access side makes ahead of an instruction ends. A leaf fills the translation caches
and the core's filter, a pending leaf fills the filter with pd; a walk that fails fills nothing, and the instruction
that needs the page meets the failure itself; its host entry has no requester yet (05 R112, 10 R185), and the hart slot
that the entry names is open. So it is with the entry of a name conflict that the filter's fill meets (log entry 112). -/
def execWalkComplete (core : Nat) (space : BitVec 16) (va : Nat) (s : State) : Out :=
  if s.held space va then .next s
  else
    match s.translate (dieOf core) space va .read false with
    | (.leaf l, s') =>
      if s.heldPage l then .next s
      else
        let r := s'.choose (s.core core).part
        match confirmedFill core r.1 va 0 l r.2 with
        | some q => .next q.2
        | none => .next s
    | (.pending l _, s') =>
      if s.heldPage l then .next s
      else
        .next (s'.fillFilter core { space := l.space, vbase := l.vbase, lg := l.lg, attr := l.attr, cf := false,
                                    pd := true })
    | (.fail w lvl, s) =>
      let r := s.choose (s.core core).part
      match r.2.hostFault core r.1 space va w lvl 0 false with
      | some (_, s) => .next s
      | none => .next s

/-! ## Probes (04 R89, 05 R99) -/

/-- Whether an entry's probe is outstanding. -/
def SbEntry.probing (e : SbEntry) : Bool := e.state = .pending || e.state = .replaying

/-- The entries that share the probe of the page that holds an address. -/
def Core.probed (c : Core) (space : BitVec 16) (va : Nat) : List SbEntry :=
  match c.sb.find? fun e => e.probing && e.space = space && e.pbase ≤ va && va < e.pbase + 2 ^ e.plg with
  | none => []
  | some p => c.sb.filter fun e => e.probing && e.space = space && e.pbase = p.pbase && e.plg = p.plg

/-- Replaces entries by number. -/
def State.putEntries (s : State) (core : Nat) (es : List SbEntry) (f : SbEntry → SbEntry) : State :=
  let c := s.core core
  s.setCore core { c with sb := c.sb.map fun e => if es.any (fun q => q.idx = e.idx) then f e else e }

/-- PROBE_ACKNOWLEDGEMENT: the page's entries become acked. -/
def execProbeAcknowledgement (core : Nat) (space : BitVec 16) (va : Nat) (s : State) : Out :=
  match (s.core core).probed space va with
  | [] => .next s
  | e :: es =>
    if s.heldRange space e.pbase (2 ^ e.plg) then .next s
    else
      match s.probe core space e.va e.user with
      | (.ack l, s) =>
        let mine := (e :: es).filter fun q => inRange q.space l.space q.va l.vbase (2 ^ l.lg)
        .next ((s.putEntries core mine fun q => { q with state := .acked }).acknowledge core l)
      | _ => .next s

/-- PROBE_REFUSAL: the page's entries become faulted, and a host entry is made or joined (05 R112); with no free id the
refusal waits. -/
def execProbeRefusal (core : Nat) (space : BitVec 16) (va : Nat) (s : State) : Out :=
  match (s.core core).probed space va with
  | [] => .next s
  | e :: es =>
    if s.heldRange space e.pbase (2 ^ e.plg) then .next s
    else
      let refuse := fun (s : State) (inner wres level : Nat) =>
        match s.hostFault core e.slot space e.va wres level 1 true with
        | none => Host.Outcome.next s
        | some (id, s) =>
          .next (s.putEntries core (e :: es) fun q =>
            { q with state := .faulted, inner := inner, wres := wres, level := level, hostq := id })
      match s.probe core space e.va e.user with
      | (.ack _, _) => .next s
      | (.held, _) => .next s
      | (.refuse w lvl, s) => refuse s 0x0B w lvl
      | (.conflict, s) => refuse s 0x0D 0xF 7

/-- STORE_BUFFER_DRAIN (05 R99): entries of an ordered store whose elements interleave drain together (06 R121). -/
def execStoreBufferDrain (core idx : Nat) (s : State) : Out :=
  let c := s.core core
  match c.sb.find? fun e => e.idx = idx with
  | none => .next s
  | some e => if c.drainable e then .next (s.drainGroup core e) else .next s

/-- DEFERRED_STORE_TRAP (05 R102): a hart with a faulted entry takes the trap at its boundary. -/
def execDeferredStoreTrap (core slot : Nat) (s : State) : Out :=
  let key := hkey core slot
  match s.hart? key with
  | none => .next s
  | some h =>
    if h.trap.isSome then .next s
    else asHart key (fun s => if s.deferredDue then .next (takeDeferred s) else .next s) s

/-! ## The host fault queue (05 R112) -/

/-- A posted entry. -/
def HostFault.entry (f : HostFault) : BitVec 128 :=
  BitVec.ofNat 128 (1 + (f.waits % 256) <<< 9 + (f.kind % 8) <<< 17 + (f.level % 8) <<< 20 + (f.wres % 16) <<< 23
    + (f.slot % 8) <<< 27 + (f.core % 512) <<< 30 + (f.id % 65536) <<< 39 + f.space.toNat <<< 55
    + (f.va % 2 ^ 57) <<< 71)

/-- The oldest entry of a die that has not been posted. -/
def Die.unposted (d : Die) : Option HostFault :=
  d.faults.foldl (fun (best : Option HostFault) f =>
    if f.posted then best
    else
      match best with
      | some b => if f.order < b.order then some f else best
      | none => some f) none

/-- FAULT_ENTRY_POST: each entry is posted once, in the order in which entries were made, while its ring has room. -/
def execFaultEntryPost (die : Nat) (s : State) : Out :=
  if numDies ≤ die then .next s
  else
    let d := s.die die
    match d.unposted with
    | none => .next s
    | some f =>
      if s.canPost (34 + die) then
        let mark := fun (q : HostFault) => if q.id = f.id then { q with posted := true } else q
        .next ((s.setDie die { d with faults := d.faults.map mark }).post (34 + die) f.entry)
      else .next s

/-! ## Fills, evictions, write-backs, acknowledgements (03 R46 to R52) -/

/-- CACHE_FILL (03 R46): the oldest fill in flight lands under the dirty mask; one whose page can no longer be reached
is dropped, and one that meets a range hold waits (04 R94). -/
def execCacheFill (core : Nat) (s : State) : Out :=
  let c := s.core core
  match c.fills with
  | [] => .next s
  | f :: t =>
    if s.held f.space f.va then .next s
    else
      let rest := s.setCore core { c with fills := t }
      let a : Acc := { core := core, slot := 0, space := f.space, user := true, kind := 0, gseg := 0, off := 0,
                       rva := f.va, pva := f.va, va := f.va, elem := 0, ew := 0, col := f.col, requester := false }
      match fillL1 a f.attr.tclass rest with
      | .ok _ s => .next s
      | .stop .wait _ => .next s
      | .stop (.trap _) _ => .next rest

/-- EVICTION (03 R47): the slot or frame that holds an address leaves its cache, and its dirty bytes are sent outward.
At the home slices the frame of a physical address goes back to GDDR 7, whose bytes stand in the memory that the slice
serves. -/
def execEviction (level : Level) (unit : Nat) (space : BitVec 16) (addr : Nat) (s : State) : Out :=
  match level with
  | .l1 =>
    let c := s.core unit
    match Cache.find c.l1 space addr with
    | none => .next s
    | some f =>
      .next (s.setCore unit { c with l1 := c.l1.filter fun g => g ≠ f, wbq := c.wbq ++ f.writeBacks })
  | .l2 =>
    let c := s.cluster unit
    match Cache.find c.l2 space addr with
    | none => .next s
    | some f =>
      .next (s.setCluster unit { c with l2 := c.l2.filter fun g => g ≠ f, wbq := c.wbq ++ f.writeBacks })
  | .home => .next (s.dropHome addr 1)

/-- WRITE_BACK_MERGE (03 R48): the oldest write-back that a cache has sent is merged at the next level. Only those of one
slot keep their order (22 R366); that those of all slots do is the model's choice (log entry 91). -/
def execWriteBackMerge (level : Level) (unit : Nat) (s : State) : Out :=
  match level with
  | .l1 =>
    let c := s.core unit
    match c.wbq with
    | [] => .next s
    | w :: t => .next ((s.setCore unit { c with wbq := t }).writeBackL2 (clusterOf unit) w)
  | .l2 =>
    let c := s.cluster unit
    match c.wbq with
    | [] => .next s
    | w :: t => .next ((s.setCluster unit { c with wbq := t }).writeBackHome unit w)
  | .home => .next s

/-- BYPASS_WRITE_ACK (03 R50): the oldest bypassing write of a core is performed and acknowledged. Such writes keep no
order among themselves (07 R140); oldest first is the model's choice (log entry 91). -/
def execBypassWriteAck (core : Nat) (s : State) : Out :=
  let c := s.core core
  match c.bypass with
  | [] => .next s
  | w :: t => .next ((s.setCore core { c with bypass := t }).performSent w)

/-- TARGET_ACKNOWLEDGEMENT (06 R122): the target acknowledges the access that a core has sent it. -/
def execTargetAcknowledgement (core : Nat) (s : State) : Out :=
  let c := s.core core
  match c.target with
  | [] => .next s
  | w :: t => .next ((s.setCore core { c with target := t }).performSent w)

/-- NAME_RECALL (04 R92): a directory recalls a record when it needs room, which is when it is full. -/
def execNameRecall (die idx : Nat) (s : State) : Out :=
  if !(s.die die).namesFull then .next s
  else
    match (s.die die).names[idx]? with
    | none => .next s
    | some n => .next (s.recallName die n)

/-! ## Errors (03 R61, 05 R114, 27 R391) -/

/-- Counts an error that was corrected; the count saturates. -/
def State.countCorrected (s : State) : State :=
  { s with sts := { s.sts with
      corrected := if s.sts.corrected = BitVec.allOnes 64 then s.sts.corrected else s.sts.corrected + 1 } }

/-- Counts and logs one that was not. -/
def State.countUncorrectable (s : State) (die pa : Nat) : State :=
  { s with sts := { s.sts with
      uncorrected := if s.sts.uncorrected = BitVec.allOnes 64 then s.sts.uncorrected else s.sts.uncorrected + 1 } }.logEvent
        0x01 die pa

/-- An uncorrectable error in the word of a frame that holds an address: a word with dirty bytes is poisoned, a clean
copy is discarded. -/
def Frame.wordError (f : Frame) (va : Nat) : Frame :=
  let i := f.rowOf va
  let r := f.row i
  let w := va % 128 / 8
  if elt r.dirty.toNat 8 w ≠ 0 then f.setRow i { r with poison := r.poison ||| BitVec.ofNat 16 (2 ^ w) }
  else
    let cols := if f.tclass = .untiled then 0
      else runMask (8 * w / f.tclass.width) (cdiv 8 f.tclass.width)
    Frame.trim { f.setRow i { r with valid := false } with colValid := f.colValid &&& ~~~(BitVec.ofNat 128 cols) }

/-- Whether a home frame holds a word with no dirty byte. -/
def HomeFrame.cleanWord (f : HomeFrame) (pa : Nat) : Bool :=
  (aget f.rows ((pa - f.base) / 128)).any fun d => elt d.toNat 8 (pa % 128 / 8) = 0

/-- A home frame without the row of an address. -/
def HomeFrame.dropRow (f : HomeFrame) (pa : Nat) : HomeFrame := { f with rows := adel f.rows ((pa - f.base) / 128) }

/-- What an error does to the place that holds a word; none when the place holds no such word. Caches are addressed
by space and virtual address, the home slices and GDDR 7 by physical address, the scratchpad by physical byte, the store
buffer by a byte of its 16 KiB of data, 128 for each entry, and the index scratchpad by key (log entry 108). -/
def State.errorAt (s : State) (p : EccPlace) (unit : Nat) (space : BitVec 16) (addr : Nat) : Option State :=
  match p with
  | .l1 =>
    let c := s.core unit
    (Cache.find c.l1 space addr).map fun f => s.setCore unit { c with l1 := Cache.replace c.l1 (f.wordError addr) }
  | .l2 =>
    let c := s.cluster unit
    (Cache.find c.l2 space addr).map fun f => s.setCluster unit { c with l2 := Cache.replace c.l2 (f.wordError addr) }
  | .l1i =>
    let c := s.core unit
    (Cache.find c.l1i space addr).map fun f => s.setCore unit { c with l1i := c.l1i.filter fun g => g ≠ f }
  | .metadata =>
    let c := s.core unit
    (Cache.find c.meta1 space addr).map fun f => s.setCore unit { c with meta1 := c.meta1.filter fun g => g ≠ f }
  | .home =>
    if !(inGddr addr || inSram addr) then none
    else
      match s.home.find? fun f => f.meets addr 1 && f.cleanWord addr with
      | some f => some { s with home := s.home.map fun q => if q = f then q.dropRow addr else q }
      | none => some { s with poison := nins s.poison (addr / 8) }
  | .scratchpad =>
    let c := s.core unit
    if addr < 1015808 then some (s.setCore unit { c with spPoison := nins c.spPoison (addr / 8) }) else none
  | .storeBuffer =>
    let c := s.core unit
    (c.sb.find? fun e => e.idx = addr / 128).map fun e =>
      s.putEntries unit [e] fun q => { q with poison := q.poison ||| BitVec.ofNat 16 (2 ^ (addr % 128 / 8)) }
  | .indexScratchpad =>
    let c := s.core unit
    (c.grants.find? fun g => (aget g.table addr).isSome).map fun g =>
      s.setCore unit (c.setGrant { g with tablePoison := nins g.tablePoison addr })

/-- The physical address that the log gives: that of the recorded name for a cached or buffered word; none where the place
has no physical address, and the log's value is open. -/
def State.errorPA (s : State) (p : EccPlace) (unit : Nat) (space : BitVec 16) (addr : Nat) : Option Nat :=
  match p with
  | .storeBuffer =>
    ((s.core unit).sb.find? fun e => e.idx = addr / 128).bind fun e => s.namedPA e.space (e.cell (addr % 128 / 8 * 8))
  | .home => some addr
  | .scratchpad => none
  | .indexScratchpad => none
  | _ => s.namedPA space addr

/-- The die that logs it. -/
def errorDie (p : EccPlace) (unit addr : Nat) : Nat :=
  match p with
  | .home => homeDie addr
  | .l2 => unit / 12
  | _ => dieOf unit

/-- ECC_ERROR (03 R61): a single-bit error is corrected and counted; an uncorrectable one is counted, logged, and
discards a clean copy or poisons the word. -/
def execEccError (place : EccPlace) (unit : Nat) (space : BitVec 16) (addr : Nat) (fixable : Bool) (s : State) : Out :=
  match s.errorAt place unit space addr with
  | none => .next s
  | some t =>
    if fixable then .next s.countCorrected
    else
      match s.errorPA place unit space addr with
      | some pa => .next (t.countUncorrectable (errorDie place unit addr) pa)
      | none =>
        let r := t.choose (2 ^ 52)
        .next (r.2.countUncorrectable (errorDie place unit addr) r.1)

end Sys2Proof.Machine
end

