-- ==== Sys2Proof/Machine/EvPlace.lean ====
section
/-! DEFINITION. Placement, pre-emption, and the save engine (spec 09 R170 to R172; 10 R192 to R197; 05 R107), and the
current arbiter (09 R177). -/

namespace Sys2Proof.Machine

/-! ## LAUNCH_PLACEMENT (09 R170, R171) -/

/-- Priority of a live region. -/
def State.prioOf (s : State) (blk : Nat) : Nat :=
  match s.region blk with
  | some r => r.f.prio
  | none => 0

/-- Whether a resumption is placed before a launch: a saved region's prio is not below the launch's (09 R172). -/
def State.resumeFirst (s : State) (l : Launch) : Bool := s.fe.saved.any fun q => decide (l.f.prio ≤ s.prioOf q.blk)

/-- The whole placement of a launch, when harts of the blocks in `gone` are pre-empted. -/
def State.placement (s : State) (gone : List Nat) (l : Launch) : Option (List Nat × List Nat × State) :=
  match s.chooseCores gone l, s.takeAreas (areaBytes l.f.lp) l.f.hmax with
  | some cores, some r => some (cores, r.1, r.2)
  | _, _ => none

/-- Places a launch: its cores are prepared, its harts start, and its region runs. -/
def State.place (s : State) (l : Launch) (cores areas : List Nat) : State :=
  let spots := (s.places l.f cores).take l.f.hmax
  let s := cores.foldl (State.prepareCore l.f) s
  let s := s.startHarts l 0 (spots.zip areas)
  let s := (s.blkSet l.f.blk 303 288 l.f.hmax).blkSet l.f.blk 171 168 2
  let r : Region := { f := l.f, rid := l.rid, queue := l.queue, tag := l.tag, cobj := l.cobj,
                      placed := s.fe.nextPlaced, cores := cores, ending := none, lost := false }
  { s with fe := { s.fe with
      launches := s.fe.launches.filter fun q => q.f.blk ≠ l.f.blk
      regions := s.fe.regions ++ [r]
      nextPlaced := s.fe.nextPlaced + 1 } }

/-- LAUNCH_PLACEMENT: the launch that comes first, once its whole placement is possible. -/
def execLaunchPlacement (s : State) : Out :=
  match s.firstLaunch with
  | none => .next s
  | some l =>
    if s.resumeFirst l then .next s
    else
      match s.placement [] l with
      | some (cores, areas, t) => .next (t.place l cores areas)
      | none => .next s

/-! ## PREEMPTION (09 R172, 10 R192) -/

/-- Whether a hart drains for pre-emption. -/
def Hart.draining (h : Hart) : Bool :=
  match h.run with
  | .draining _ => true
  | _ => false

/-- Whether a hart sleeps in WAITA. -/
def Hart.sleeps (h : Hart) : Bool :=
  match h.run with
  | .asleep _ _ _ _ => true
  | _ => false

/-- Started harts of a block. -/
def State.hartsOf (s : State) (blk : Nat) : List (Nat × Hart) := s.harts.filter fun q => q.2.blk = blk

/-- Whether region a comes before region b as a victim: lower prio first, then the most recently placed. -/
def victimBefore (a b : Region) : Bool :=
  decide (a.f.prio < b.f.prio) || (a.f.prio = b.f.prio && decide (b.placed < a.placed))

/-- The next victim among some regions. -/
def nextVictim (rs : List Region) : Option Region :=
  rs.foldl (fun (best : Option Region) r =>
    match best with
    | some b => if victimBefore r b then some r else best
    | none => some r) none

/-- Adds victims in order until the placement is possible; none when it never is. -/
def State.victimsFuel (s : State) (l : Launch) : Nat → List Nat → List Region → Option (List Nat)
  | 0, gone, _ => if (s.placement gone l).isSome then some gone else none
  | n + 1, gone, rs =>
    if (s.placement gone l).isSome then some gone
    else
      match nextVictim rs with
      | none => none
      | some r => s.victimsFuel l n (gone ++ [r.f.blk]) (rs.filter fun q => q.f.blk ≠ r.f.blk)

/-- The victims of a launch: regions that drain already, then others of lower prio in order. -/
def State.victims (s : State) (l : Launch) : List Nat :=
  let drains := fun (r : Region) => (s.hartsOf r.f.blk).any fun q => q.2.draining
  let gone := (s.fe.regions.filter drains).map (·.f.blk)
  let rs := s.fe.regions.filter fun r => decide (r.f.prio < l.f.prio) && !drains r && !(s.hartsOf r.f.blk).isEmpty
  (s.victimsFuel l rs.length gone rs).getD []

/-- Stops every hart of a region together. -/
def State.drainRegion (s : State) (blk : Nat) : State :=
  let stop := fun (q : Nat × Hart) =>
    if q.2.blk = blk then (q.1, { q.2 with run := .draining q.2.sleeps }) else q
  { s with harts := s.harts.map stop }

/-- Whether a hart's unretired instruction is run to its end before a pre-emption (10 R192 step 1). -/
def Hart.mustEnd (h : Hart) : Bool := h.pinned = some h.seq && h.trap.isNone

/-- PREEMPTION of a region: only a victim of the first waiting launch. A push that waits on the full ring is unwound: its
SPAWN runs again after the restore, and its JOIN goes on at the push (log entry 38). An instruction that has accessed a page
that is not of the normal class is run to its end first (R192 step 1). -/
def execPreemption (blk : Nat) (s : State) : Out :=
  match s.firstLaunch with
  | none => .next s
  | some l =>
    if s.resumeFirst l then .next s
    else
      let hs := s.hartsOf blk
      if blk ∈ s.victims l ∧ !hs.any (fun q => q.2.draining || q.2.mustEnd) then .next (s.drainRegion blk) else .next s

/-! ## CONTEXT_SAVE (10 R192 to R195, 05 R107) -/

/-- The image of a store-buffer entry, its header first (05 R107). Its width is 8 for a store of narrow elements, which
writes whole bytes (17 R306; log entry 99). -/
def SbEntry.header (e : SbEntry) : Nat :=
  e.ord.toNat <<< 96 + (e.level % 8) <<< 97 + (e.wres % 16) <<< 100 + (e.inner % 256) <<< 104 + 4 <<< 112
    + e.orient.toNat <<< 115 + (e.gseg % 16) <<< 116 + (max 8 e.ew % 256) <<< 120 + (e.elast % 65536) <<< 128
    + (e.efirst % 65536) <<< 144 + (e.hostq % 65536) <<< 160 + e.space.toNat <<< 176 + (e.va % 2 ^ 57) <<< 192
    + e.mask.toNat <<< 256 + e.pc.toNat <<< 384 + (e.seq % 2 ^ 64) <<< 448

/-- Poisons the words of 128 bytes of device memory that a mask names. -/
def State.poisonWords (s : State) (pa mask : Nat) : State :=
  { s with poison := ((upto 16).filter fun k => bit mask k).foldl (fun p k => nins p (pa / 8 + k)) s.poison }

/-- Writes entry images from number k. -/
def State.writeImages (area : Nat) : Nat → List SbEntry → State → State
  | _, [], s => s
  | k, e :: t, s =>
    let a := area + saveImages + sbImageBytes * k
    let s := (s.setPA a 64 e.header).setPA (a + 64) 128 e.data.toNat
    State.writeImages area (k + 1) t (s.poisonWords (a + 64) e.poison.toNat)

/-- Inserts an entry in ascending sequence number, and in line order within one store. -/
def insertEntry (e : SbEntry) : List SbEntry → List SbEntry
  | [] => [e]
  | q :: t =>
    if decide (e.seq < q.seq) || (e.seq = q.seq && decide (e.va < q.va)) then e :: q :: t else q :: insertEntry e t

/-- The header of a save area (10 R195). -/
def saveHeader (h : Hart) (lp sbn hostq wait : Nat) (efail : Bool) (pc : Word) : Nat :=
  1 + efail.toNat <<< 342 + (h.v.toList.any fun r => r.len ≠ 0).toNat <<< 343 + wait <<< 344 + lp <<< 346
    + (5 - lp) <<< 348 + (hostq % 65536) <<< 352 + sbn <<< 368 + pc.toNat <<< 384 + (h.seq % 2 ^ 64) <<< 448

/-- The user control registers that are not read-only, by number (10 R194, 12 R228). -/
def savedCtl : List CReg := [.vl, .vm, .vs, .vt, .vstart, .vrep, .vsr, .frm, .fflags, .mrow, .mcol, .mdep, .bthr]

/-- Writes the vector registers that are dirty, from register j: their first 64 t bytes. -/
def State.saveV (area vbytes : Nat) : Nat → List VReg → State → State
  | _, [], s => s
  | j, r :: t, s =>
    let n := min vbytes (64 * r.len)
    State.saveV area vbytes (j + 1) t (if r.dirty then s.setPA (area + 0x8000 + j * vbytes) n r.bits.toNat else s)

/-- Writes the scale registers that are dirty, from register j. -/
def State.saveK (area : Nat) : Nat → List KReg → State → State
  | _, [], s => s
  | j, r :: t, s => State.saveK area (j + 1) t (if r.dirty then s.setPA (area + 0x1000 + 256 * j) 256 r.bits.toNat else s)

/-- Writes the registers of a hart into its area (10 R194). -/
def State.saveRegs (s : State) (h : Hart) (vbytes : Nat) : State :=
  let a := h.area
  let s := s.writePA (a + 0x100) (h.x.toList.flatMap fun w => toBytes 8 w.toNat)
  let s := s.setPA (a + 0x100) 8 0
  let s := s.writePA (a + 0x200) (h.g.toList.flatMap fun w => toBytes 16 w.toNat)
  let s := savedCtl.foldl (fun (s : State) c => s.setPA (a + 0x300 + 8 * c.num) 8 (s.readCtl h c).toNat) s
  let s := s.writePA (a + 0x400) (h.v.toList.map (·.tag))
  let s := s.writePA (a + 0x440) (h.v.toList.flatMap fun r => toBytes 2 r.len)
  let s := s.setPA (a + 0x4C0) 8 h.tack.toNat
  State.saveK a 0 h.k.toList (State.saveV a vbytes 0 h.v.toList s)

/-- The pending failure and the image of its command (10 R194). No instruction has taken the failure yet: its record has the
hart's own seq and pc at the save, which the spec leaves open (log entry 102). -/
def State.saveFail (s : State) (h : Hart) (core slot : Nat) : State :=
  match h.fail with
  | none => s
  | some f =>
    (s.setPA (h.area + 0x80) 64 (recordBits f.frec h.seq h.pc core slot)).writePA (h.area + 0xC0)
      (f.cmd.c.flatMap fun w => toBytes 8 w.toNat)

/-- Saves a hart that has drained and frees its slot. -/
def State.saveHart (s : State) (core slot : Nat) (h : Hart) (asleep : Bool) : State :=
  let c := s.core core
  let mine := (c.sb.filter fun e => e.slot = slot).foldl (fun l e => insertEntry e l) []
  let inTrap := h.trap.isSome
  let hostq := match h.trap with
    | some t => t.frec.hostq
    | none => 0xFFFF
  let consumed := match h.trap with
    | some t => t.frec.cause = 0x13
    | none => false
  let pc := match h.trap with
    | some t => t.pc
    | none => h.pc
  let q : SavedHart :=
    { core := core, slot := slot, blk := h.blk, area := h.area, works := h.works, asleep := asleep,
      resolved := (match h.trap with
        | some t => t.retry && !(t.frec.cause = 0x0C && mine.any fun e => e.hostq = t.frec.hostq)
        | none => false),
      failed := none, ordered := h.ordered, owed := h.owed, push := h.push,
      parent := h.parent, trap := h.trap, fail := h.fail, g0 := h.g.get 0,
      images := h.k.toList.map fun k => k.image || k.dirty, stores := mine, nst := h.nst, ncp := h.ncp, nmx := h.nmx }
  let wait := if inTrap then 2 else if asleep then 1 else 0
  let s := s.setPA h.area 64 (saveHeader h c.lpart mine.length hostq wait (h.fail.isSome && !consumed) pc)
  let s := State.writeImages h.area 0 mine ((s.saveRegs h (c.vlen / 8)).saveFail h core slot)
  let s := s.setCore core { s.core core with sb := (s.core core).sb.filter fun e => e.slot ≠ slot }
  { s with harts := adel s.harts (hkey core slot), fe := { s.fe with saved := s.fe.saved ++ [q] } }

/-- Whether a slot has drained: no command or follow-on, and no entry but faulted and reported ones. -/
def Core.drained (c : Core) (slot : Nat) : Bool :=
  !(c.cmds.any fun m => m.slot = slot) && c.sb.all fun e => e.slot ≠ slot || e.state = .faulted || e.state = .reported

/-- A deferred store trap that is due at the pre-emption boundary: a hart that waits in another recoverable trap is
back at its instruction first, and the hart goes on draining in the new trap's wait (10 R192 step 4). What becomes of the wait
that the hart was in, the spec does not say (log entry 135). -/
def State.deferredAtSave (s : State) (key : Nat) (h : Hart) (asleep : Bool) : State :=
  let back := if h.trap.isSome then h.leaveTrap else h
  let t := takeDeferred { s.setHart key back with cur := key }
  match t.hart? key with
  | some h => { t.setHart key { h with run := .draining asleep } with cur := s.cur }
  | none => { t with cur := s.cur }

/-- CONTEXT_SAVE: retired work has drained, a deferred store trap that is due is taken, then the context is written. A
hart whose trap is fatal is not saved. -/
def execContextSave (core slot : Nat) (s : State) : Out :=
  let key := hkey core slot
  match s.hart? key with
  | none => .next s
  | some h0 =>
    match h0.run with
    | .draining asleep =>
      let fatal := match h0.trap with
        | some t => t.nested || !t.frec.recoverable
        | none => false
      let r := (s.core core).settleFollows slot h0.settle
      if fatal || !r.1.drained slot then .next s
      else
        let s := (((s.setCore core r.1).setHart key r.2).ackBypass core).ackTarget core
        if r.1.sb.any fun e => e.slot = slot && e.state = .faulted then .next (s.deferredAtSave key r.2 asleep)
        else .next (s.saveHart core slot r.2 asleep)
    | _ => .next s

/-! ## CONTEXT_RESTORE (10 R196, R197, 05 R107) -/

/-- A store-buffer entry from an image; none when a reserved bit is set or its state is not reported. What the image
leaves out comes from the entry that was saved. -/
def State.loadImage (s : State) (area k slot : Nat) (old : Option SbEntry) : Option SbEntry :=
  let a := area + saveImages + sbImageBytes * k
  let i := s.readPA a 64
  if fld i 255 249 ≠ 0 ∨ fld i 95 0 ≠ 0 ∨ fld i 114 112 ≠ 4 then none
  else
    let base : SbEntry := old.getD
      { idx := 0, slot := slot, seq := 0, pc := 0, space := 0, va := 0, mask := 0, data := 0, poison := 0, hostq := 0,
        efirst := 0, elast := 0, ew := 0, gseg := 0, orient := false, state := .replaying, inner := 0, wres := 0,
        level := 0, ord := false, nth := 0, user := true, tclass := .untiled, pbase := fld i 248 192 / 4096 * 4096,
        plg := 12, off := 0, eva := 0 }
    let width := fld i 127 120
    let ew := if width = 8 ∧ 0 < base.ew ∧ base.ew < 8 then base.ew else width
    some { base with
      slot := slot, seq := fld i 511 448, pc := BitVec.ofNat 64 (fld i 447 384), space := BitVec.ofNat 16 (fld i 191 176),
      va := fld i 248 192 / 128 * 128, mask := BitVec.ofNat 128 (fld i 383 256),
      data := BitVec.ofNat 1024 (s.readPA (a + 64) 128),
      poison := BitVec.ofNat 16 ((upto 16).foldl (fun m w => if s.poisonAt (a + 64 + 8 * w) then m + 2 ^ w else m) 0),
      hostq := fld i 175 160, efirst := fld i 159 144, elast := fld i 143 128, ew := ew, gseg := fld i 119 116,
      orient := bit i 115, state := .replaying, inner := fld i 111 104, wres := fld i 103 100, level := fld i 99 97,
      ord := bit i 96
      -- a column line lies in a page of the class of its width (02 R30)
      tclass := if bit i 115 then (if ew = 32 then .t32 else if ew = 16 then .t16 else .t8) else base.tclass }

/-- Puts entries into free places of a core's buffer. -/
def Core.addEntries (c : Core) : List SbEntry → Core
  | [] => c
  | e :: t =>
    match lowestFree (c.sb.map (·.idx)) 128 0 with
    | some i => Core.addEntries { c with sb := c.sb ++ [{ e with idx := i }] } t
    | none => c

/-- A vector register from its image: bytes at or above 64 t read as zero (10 R196). -/
def State.loadV (s : State) (area vbytes j : Nat) : VReg :=
  let t := s.readPA (area + 0x440 + 2 * j) 2
  { bits := BitVec.ofNat 16384 (s.readPA (area + 0x8000 + j * vbytes) (min vbytes (64 * t))),
    tag := s.mem.get (area + 0x400 + j), len := t, dirty := false }

/-- A scale register from its image; one that has none is as at launch. -/
def State.loadK (s : State) (area j : Nat) (image : Bool) : KReg :=
  { bits := if image then BitVec.ofNat 2048 (s.readPA (area + 0x1000 + 256 * j) 256) else 0, dirty := false,
    image := image }

/-- The hart that a save area holds. R194 saves none of the supervisor's registers: g0, g1 and `tvec` are firmware's, and
tcause, tepc, tval and tstat of a hart that was in no trap hold their launch values, 0 (log entry 136). -/
def State.loadHart (s : State) (q : SavedHart) (vbytes : Nat) : Hart :=
  let a := q.area
  let hd := s.readPA a 64
  let ctl := savedCtl.foldl (fun (c : Ctrl) r => c.write r (BitVec.ofNat 64 (s.readPA (a + 0x300 + 8 * r.num) 8)))
    { Ctrl.reset with tvec := s.sts.tvec }
  { Hart.reset with
    x := Vector.ofFn fun i => if i.val = 0 then 0 else BitVec.ofNat 64 (s.readPA (a + 0x100 + 8 * i.val) 8)
    v := Vector.ofFn fun i => s.loadV a vbytes i.val
    k := Vector.ofFn fun i => s.loadK a i.val (q.images.getD i.val false)
    g := Vector.ofFn fun i => BitVec.ofNat 128 (s.readPA (a + 0x200 + 16 * i.val) 16) &&& segMask
    sg0 := s.sts.sg0, sg1 := s.sts.sg1, pc := BitVec.ofNat 64 (fld hd 447 384), user := true, ctl := ctl,
    seq := fld hd 511 448, tack := BitVec.ofNat 64 (s.readPA (a + 0x4C0) 8), blk := q.blk, space := s.blkSpace q.blk,
    works := q.works, area := a, fail := q.fail, ordered := q.ordered, owed := q.owed, push := q.push,
    parent := q.parent, nst := q.nst, ncp := q.ncp, nmx := q.nmx }

/-- Whether the header is one that the core can restore (10 R196). -/
def headerFits (hd lp : Nat) : Bool := fld hd 7 0 = 1 && fld hd 347 346 = lp && fld hd 351 348 = 5 - lp

/-- The trap of a restored image that cannot be used (05 R107): no host entry, and no table entry that decided (R108; log
entry 46). -/
def badImageTrap : FRec := { cause := 0x0C, kind := 5, deferred := true, hostq := 0xFFFF, level := 7 }

/-- The sequence number and the pc that an image of a save area names: those of its store (05 R103, R107). -/
def State.imageStore (s : State) (area k : Nat) : Nat × Word :=
  let i := s.readPA (area + saveImages + sbImageBytes * k) 64
  (fld i 511 448, BitVec.ofNat 64 (fld i 447 384))

/-- Restores a saved hart: its entries replay, and it goes on, re-executes its WAITA, or waits again for the host. A header
that does not fit, or an answer "fail" that came meanwhile, ends its domain, its area freed with it (10 R198). -/
def State.restoreHart (s : State) (q : SavedHart) : State :=
  let key := hkey q.core q.slot
  let c := s.core q.core
  let hd := s.readPA q.area 64
  if !headerFits hd c.lpart then
    s.endDomain q.blk 0x12 (BitVec.ofNat 64 (fld hd 447 384)) q.core q.slot
  else if let some r := q.failed then s.endDomain r.blk r.cause r.pc r.core r.slot
  else
    let s := { s with fe := { s.fe with saved := s.fe.saved.filter fun p => p ≠ q } }
    let images := (upto (fld hd 383 368)).map fun k => s.loadImage q.area k q.slot q.stores[k]?
    let h := s.loadHart q (c.vlen / 8)
    let s := (s.setCore q.core (c.addEntries (images.filterMap id))).setHart key h
    match images.findIdx? Option.isNone with
    | some k =>
      let store := s.imageStore q.area k
      { takeTrapAs badImageTrap store.1 store.2 { s with cur := key } with cur := s.cur }
    | none =>
      match q.trap with
      | none => s
      | some t =>
        let h := h.enterTrap t.frec t.recPc
        s.setHart key { h with run := .hostWait, trap := some { t with nested := false, retry := q.resolved } }

/-- When the region of a block was placed. -/
def State.placedAt (s : State) (blk : Nat) : Nat :=
  match s.region blk with
  | some r => r.placed
  | none => 0

/-- Whether the region of one block resumes before that of another: the higher prio, then the one placed first (09 R171,
R172; log entry 100). -/
def State.resumesBefore (s : State) (a b : Nat) : Bool :=
  decide (s.prioOf b < s.prioOf a) || (s.prioOf a = s.prioOf b && decide (s.placedAt a < s.placedAt b))

/-- Whether a resumption is placed now: the first waiting launch's prio is not above its region's (09 R172), and no saved
hart of a region that resumes before it waits in any slot, since placement is strict (R171). -/
def State.mayResume (s : State) (q : SavedHart) : Bool :=
  (match s.firstLaunch with
   | none => true
   | some l => decide (l.f.prio ≤ s.prioOf q.blk)) &&
    !s.fe.saved.any fun p => s.resumesBefore p.blk q.blk

/-- The saved hart of a slot that resumes next; of several, the one saved first (log entry 100). -/
def State.resumesFirst (s : State) (core slot : Nat) : Option SavedHart :=
  s.fe.saved.find? fun q => q.core = core && q.slot = slot && s.mayResume q

/-- CONTEXT_RESTORE: on the same core and slot, once the slot is free. -/
def execContextRestore (core slot : Nat) (s : State) : Out :=
  match s.resumesFirst core slot with
  | none => .next s
  | some q => if (s.hart? (hkey core slot)).isSome then .next s else .next (s.restoreHart q)

/-! ## ARBITER_EPOCH (09 R177) -/

/-- One core's demand and weight. Currents are in milliamperes. -/
structure Demand where
  d : Nat
  w : Nat
  deriving DecidableEq, Repr

/-- The budget of a die, and what no grant falls below. -/
def dieBudget : Nat := 1500000
def coreFloor : Nat := 10000

/-- The floor of a core's grant. -/
def Demand.floor (x : Demand) : Nat := min x.d coreFloor

/-- A core's grant, times den, at λ = num / den. -/
def Demand.at (x : Demand) (num den : Nat) : Nat := max (x.floor * den) (min (x.d * den) (x.w * num))

/-- Whether the grants at λ = num / den fit the budget. -/
def fitsAt (xs : List Demand) (num den : Nat) : Bool :=
  decide ((xs.map fun x => x.at num den).foldl (· + ·) 0 ≤ dieBudget * den)

/-- The largest value at which some grant changes its form and the grants still fit, as a fraction. -/
def breakpoint (xs : List Demand) : Nat × Nat :=
  (xs.flatMap fun x => [(x.floor, x.w), (x.d, x.w)]).foldl (fun (best : Nat × Nat) p =>
    if p.2 ≠ 0 ∧ fitsAt xs p.1 p.2 ∧ best.1 * p.2 < p.1 * best.2 then p else best) (0, 1)

/-- Whether a core's grant is w λ just above a breakpoint. -/
def Demand.mid (x : Demand) (b : Nat × Nat) : Bool :=
  decide (x.floor * b.2 ≤ x.w * b.1) && decide (x.w * b.1 < x.d * b.2) && x.w ≠ 0

/-- λ as a fraction (09 R177 step 3): the breakpoint, and what is left of the budget shared by weight. -/
def lambdaOf (xs : List Demand) : Nat × Nat :=
  let b := breakpoint xs
  let weight := ((xs.filter fun x => x.mid b).map (·.w)).foldl (· + ·) 0
  let rest := ((xs.filter fun x => !x.mid b).map fun x => x.at b.1 b.2).foldl (· + ·) 0
  if weight = 0 then b else (dieBudget * b.2 - rest, weight * b.2)

/-- Cycles of 16 in which a core's matrix and vector instructions may issue (09 R177 step 4). -/
def issueCycles (x : Demand) (l : Nat × Nat) : Nat :=
  if x.d * l.2 ≤ x.at l.1 l.2 then 16 else max 8 (16 * x.at l.1 l.2 / (x.d * l.2))

/-- Cores of a die that the machine lists. -/
def State.coresOf (s : State) (die : Nat) : List Nat := (s.cores.map (·.1)).filter fun c => dieOf c = die

/-- ARBITER_EPOCH: `demand` gives the current that each core of the die would have drawn in milliamperes; a core whose
harts issued no matrix or vector work demands nothing. -/
def execArbiterEpoch (die : Nat) (demand : List Nat) (s : State) : Out :=
  let cs := s.coresOf die
  let want := fun c => (if (s.core c).worked = 0 then { d := 0, w := 1 }
    else { d := demand.getD (c % 96) 0, w := (s.core c).worked } : Demand)
  let xs := cs.map want
  let all := (xs.map (·.d)).foldl (· + ·) 0 ≤ dieBudget
  let l := lambdaOf xs
  let q := fun c => if all then 16 else issueCycles (want c) l
  let throttled := cs.any fun c => q c ≠ 16
  let s := cs.foldl (fun (s : State) c => s.setCore c { s.core c with q := q c, worked := 0 }) s
  let d := s.die die
  .next (if throttled then s.setDie die { d with throttled := d.throttled + 1 } else s)

end Sys2Proof.Machine
end

