-- ==== Sys2Proof/Machine/Dispatch.lean ====
section
/-! DEFINITION. The meaning of every instruction: one arm for each constructor of Instr. -/

namespace Sys2Proof.Machine

/-- The outcome of one instruction, or of one of the device's own steps, at a state. -/
def exec (i : Instr) (s : State) : Host.Outcome State Fault Refusal :=
  match i with
  | .add _ d a b => Sys2Proof.Machine.execAdd d a b s
  | .sub _ d a b => Sys2Proof.Machine.execSub d a b s
  | .and _ d a b => Sys2Proof.Machine.execAnd d a b s
  | .or _ d a b => Sys2Proof.Machine.execOr d a b s
  | .xor _ d a b => Sys2Proof.Machine.execXor d a b s
  | .sll _ d a b => Sys2Proof.Machine.execSll d a b s
  | .srl _ d a b => Sys2Proof.Machine.execSrl d a b s
  | .sra _ d a b => Sys2Proof.Machine.execSra d a b s
  | .slt _ d a b => Sys2Proof.Machine.execSlt d a b s
  | .sltn _ d a b => Sys2Proof.Machine.execSltn d a b s
  | .min _ d a b => Sys2Proof.Machine.execMin d a b s
  | .max _ d a b => Sys2Proof.Machine.execMax d a b s
  | .minn _ d a b => Sys2Proof.Machine.execMinn d a b s
  | .maxn _ d a b => Sys2Proof.Machine.execMaxn d a b s
  | .clz _ d a => Sys2Proof.Machine.execClz d a s
  | .ctz _ d a => Sys2Proof.Machine.execCtz d a s
  | .popc _ d a => Sys2Proof.Machine.execPopc d a s
  | .mul _ d a b => Sys2Proof.Machine.execMul d a b s
  | .mulh _ d a b => Sys2Proof.Machine.execMulh d a b s
  | .mulhn _ d a b => Sys2Proof.Machine.execMulhn d a b s
  | .div _ d a b => Sys2Proof.Machine.execDiv d a b s
  | .divn _ d a b => Sys2Proof.Machine.execDivn d a b s
  | .rem _ d a b => Sys2Proof.Machine.execRem d a b s
  | .remn _ d a b => Sys2Proof.Machine.execRemn d a b s
  | .addi imm a d => Sys2Proof.Machine.execAddi imm a d s
  | .andi imm a d => Sys2Proof.Machine.execAndi imm a d s
  | .ori imm a d => Sys2Proof.Machine.execOri imm a d s
  | .xori imm a d => Sys2Proof.Machine.execXori imm a d s
  | .slti imm a d => Sys2Proof.Machine.execSlti imm a d s
  | .sltin imm a d => Sys2Proof.Machine.execSltin imm a d s
  | .slli n a d => Sys2Proof.Machine.execSlli n a d s
  | .srli n a d => Sys2Proof.Machine.execSrli n a d s
  | .srai n a d => Sys2Proof.Machine.execSrai n a d s
  | .lih imm d => Sys2Proof.Machine.execLih imm d s
  | .addpc imm d => Sys2Proof.Machine.execAddpc imm d s
  | .ldb off o g base d => Sys2Proof.Machine.execLdb off o g base d s
  | .ldh off o g base d => Sys2Proof.Machine.execLdh off o g base d s
  | .ldw off o g base d => Sys2Proof.Machine.execLdw off o g base d s
  | .ldd off o g base d => Sys2Proof.Machine.execLdd off o g base d s
  | .ldbn off o g base d => Sys2Proof.Machine.execLdbn off o g base d s
  | .ldhn off o g base d => Sys2Proof.Machine.execLdhn off o g base d s
  | .ldwn off o g base d => Sys2Proof.Machine.execLdwn off o g base d s
  | .stb off o g base d => Sys2Proof.Machine.execStb off o g base d s
  | .sth off o g base d => Sys2Proof.Machine.execSth off o g base d s
  | .stw off o g base d => Sys2Proof.Machine.execStw off o g base d s
  | .std off o g base d => Sys2Proof.Machine.execStd off o g base d s
  | .amoadd loc w base d => Sys2Proof.Machine.execAmoadd loc w base d s
  | .amoand loc w base d => Sys2Proof.Machine.execAmoand loc w base d s
  | .amoor loc w base d => Sys2Proof.Machine.execAmoor loc w base d s
  | .amoxor loc w base d => Sys2Proof.Machine.execAmoxor loc w base d s
  | .amomin loc w base d => Sys2Proof.Machine.execAmomin loc w base d s
  | .amomax loc w base d => Sys2Proof.Machine.execAmomax loc w base d s
  | .amominn loc w base d => Sys2Proof.Machine.execAmominn loc w base d s
  | .amomaxn loc w base d => Sys2Proof.Machine.execAmomaxn loc w base d s
  | .amoswp loc w base d => Sys2Proof.Machine.execAmoswp loc w base d s
  | .amocas loc w base d => Sys2Proof.Machine.execAmocas loc w base d s
  | .amofadd loc w base d => Sys2Proof.Machine.execAmofadd loc w base d s
  | .beq off b a => Sys2Proof.Machine.execBeq off b a s
  | .bne off b a => Sys2Proof.Machine.execBne off b a s
  | .blt off b a => Sys2Proof.Machine.execBlt off b a s
  | .bge off b a => Sys2Proof.Machine.execBge off b a s
  | .bltn off b a => Sys2Proof.Machine.execBltn off b a s
  | .bgen off b a => Sys2Proof.Machine.execBgen off b a s
  | .jal imm d => Sys2Proof.Machine.execJal imm d s
  | .jalr imm a d => Sys2Proof.Machine.execJalr imm a d s
  | .mfc c d => Sys2Proof.Machine.execMfc c d s
  | .mtc c a => Sys2Proof.Machine.execMtc c a s
  | .mfg _ half g d => Sys2Proof.Machine.execMfg half g d s
  | .mtg hi half g b => Sys2Proof.Machine.execMtg hi half g b s
  | .trap _ => Sys2Proof.Machine.execTrap s
  | .brk _ => Sys2Proof.Machine.execBrk s
  | .rts hi => Sys2Proof.Machine.execRts hi s
  | .fence _ sc k => Sys2Proof.Machine.execFence sc k s
  | .waitc l st c m => Sys2Proof.Machine.execWaitc l st c m s
  | .waita _ d a b => Sys2Proof.Machine.execWaita d a b s
  | .waitaAny _ d a b => Sys2Proof.Machine.execWaitaAny d a b s
  | .bar _ sc => Sys2Proof.Machine.execBar sc s
  | .vsetl hi d a b => Sys2Proof.Machine.execVsetl hi d a b s
  | .vtag t d => Sys2Proof.Machine.execVtag t d s
  | .vand hi d a b => Sys2Proof.Machine.execVand hi d a b s
  | .vor hi d a b => Sys2Proof.Machine.execVor hi d a b s
  | .vxor hi d a b => Sys2Proof.Machine.execVxor hi d a b s
  | .vnot hi d a => Sys2Proof.Machine.execVnot hi d a s
  | .vshl hi d a b => Sys2Proof.Machine.execVshl hi d a b s
  | .vshr hi d a b => Sys2Proof.Machine.execVshr hi d a b s
  | .vshra hi d a b => Sys2Proof.Machine.execVshra hi d a b s
  | .vwsl hi d a b => Sys2Proof.Machine.execVwsl hi d a b s
  | .vwsr hi d a b => Sys2Proof.Machine.execVwsr hi d a b s
  | .vfsl hi d a b => Sys2Proof.Machine.execVfsl hi d a b s
  | .vfsr hi d a b => Sys2Proof.Machine.execVfsr hi d a b s
  | .vsel hi d a b => Sys2Proof.Machine.execVsel hi d a b s
  | .vmov hi d a => Sys2Proof.Machine.execVmov hi d a s
  | .vsplat hi d a => Sys2Proof.Machine.execVsplat hi d a s
  | .vmvx hi d a b => Sys2Proof.Machine.execVmvx hi d a b s
  | .vmxv hi d a b => Sys2Proof.Machine.execVmxv hi d a b s
  | .vslu hi d a b => Sys2Proof.Machine.execVslu hi d a b s
  | .vsld hi d a b => Sys2Proof.Machine.execVsld hi d a b s
  | .vperm hi d a b => Sys2Proof.Machine.execVperm hi d a b s
  | .vrev hi d a => Sys2Proof.Machine.execVrev hi d a s
  | .vmcnt hi d a => Sys2Proof.Machine.execVmcnt hi d a s
  | .vmfst hi d a => Sys2Proof.Machine.execVmfst hi d a s
  | .vrand hi d a => Sys2Proof.Machine.execVrand hi d a s
  | .vror hi d a => Sys2Proof.Machine.execVror hi d a s
  | .vrxor hi d a => Sys2Proof.Machine.execVrxor hi d a s
  | .vidx step start d => Sys2Proof.Machine.execVidx step start d s
  | .vcmp hi c d a b => Sys2Proof.Machine.execVcmp hi c d a b s
  | .vbany off a => Sys2Proof.Machine.execVbany off a s
  | .vbnone off a => Sys2Proof.Machine.execVbnone off a s
  | .vadd hi r d a b => Sys2Proof.Machine.execVadd hi r d a b s
  | .vsub hi r d a b => Sys2Proof.Machine.execVsub hi r d a b s
  | .vrsub hi r d a b => Sys2Proof.Machine.execVrsub hi r d a b s
  | .vmul hi r d a b => Sys2Proof.Machine.execVmul hi r d a b s
  | .vmulh hi r d a b => Sys2Proof.Machine.execVmulh hi r d a b s
  | .vdiv hi r d a b => Sys2Proof.Machine.execVdiv hi r d a b s
  | .vrem hi r d a b => Sys2Proof.Machine.execVrem hi r d a b s
  | .vmin hi r d a b => Sys2Proof.Machine.execVmin hi r d a b s
  | .vmax hi r d a b => Sys2Proof.Machine.execVmax hi r d a b s
  | .vabs hi r d a => Sys2Proof.Machine.execVabs hi r d a s
  | .vneg hi r d a => Sys2Proof.Machine.execVneg hi r d a s
  | .vfma hi r d a b => Sys2Proof.Machine.execVfma hi r d a b s
  | .vfms hi r d a b => Sys2Proof.Machine.execVfms hi r d a b s
  | .vfnma hi r d a b => Sys2Proof.Machine.execVfnma hi r d a b s
  | .vfnms hi r d a b => Sys2Proof.Machine.execVfnms hi r d a b s
  | .vsqrt hi r d a => Sys2Proof.Machine.execVsqrt hi r d a s
  | .vrcp hi r d a => Sys2Proof.Machine.execVrcp hi r d a s
  | .vrsq hi r d a => Sys2Proof.Machine.execVrsq hi r d a s
  | .vexp2 hi r d a => Sys2Proof.Machine.execVexp2 hi r d a s
  | .vlog2 hi r d a => Sys2Proof.Machine.execVlog2 hi r d a s
  | .vsin hi r d a => Sys2Proof.Machine.execVsin hi r d a s
  | .vcos hi r d a => Sys2Proof.Machine.execVcos hi r d a s
  | .vtanh hi r d a => Sys2Proof.Machine.execVtanh hi r d a s
  | .vrsum hi r d a => Sys2Proof.Machine.execVrsum hi r d a s
  | .vrmin hi r d a => Sys2Proof.Machine.execVrmin hi r d a s
  | .vrmax hi r d a => Sys2Proof.Machine.execVrmax hi r d a s
  | .vrdot hi r d a b => Sys2Proof.Machine.execVrdot hi r d a b s
  | .vunpk hi d a b => Sys2Proof.Machine.execVunpk hi d a b s
  | .vpkb hi d a b => Sys2Proof.Machine.execVpkb hi d a b s
  | .vlut hi d a b => Sys2Proof.Machine.execVlut hi d a b s
  | .vexpd hi d a => Sys2Proof.Machine.execVexpd hi d a s
  | .vcmpr hi d a => Sys2Proof.Machine.execVcmpr hi d a s
  | .kmov hi f => Sys2Proof.Machine.execKmov hi f s
  | .vcvt hi r d a => Sys2Proof.Machine.execVcvt hi r d a s
  | .vqmx hi r d a => Sys2Proof.Machine.execVqmx hi r d a s
  | .vdqmx hi r d a k half => Sys2Proof.Machine.execVdqmx hi r d a k half s
  | .vqef hi r d a b => Sys2Proof.Machine.execVqef hi r d a b s
  | .vld off o g base d => Sys2Proof.Machine.execVld off o g base d s
  | .vst off o g base d => Sys2Proof.Machine.execVst off o g base d s
  | .vlds off o g base d => Sys2Proof.Machine.execVlds off o g base d s
  | .vsts off o g base d => Sys2Proof.Machine.execVsts off o g base d s
  | .vld2 off o g base d => Sys2Proof.Machine.execVld2 off o g base d s
  | .vst2 off o g base d => Sys2Proof.Machine.execVst2 off o g base d s
  | .vldx x o g base d => Sys2Proof.Machine.execVldx x o g base d s
  | .vstx x o g base d => Sys2Proof.Machine.execVstx x o g base d s
  | .vldf off o g base d => Sys2Proof.Machine.execVldf off o g base d s
  | .vldw off g base d => Sys2Proof.Machine.execVldw off g base d s
  | .vstw off g base d => Sys2Proof.Machine.execVstw off g base d s
  | .vamoadd sc o g base d => Sys2Proof.Machine.execVamoadd sc o g base d s
  | .vamomin sc o g base d => Sys2Proof.Machine.execVamomin sc o g base d s
  | .vamomax sc o g base d => Sys2Proof.Machine.execVamomax sc o g base d s
  | .vamoand sc o g base d => Sys2Proof.Machine.execVamoand sc o g base d s
  | .vamoor sc o g base d => Sys2Proof.Machine.execVamoor sc o g base d s
  | .vamoxor sc o g base d => Sys2Proof.Machine.execVamoxor sc o g base d s
  | .vamoswp sc o g base d => Sys2Proof.Machine.execVamoswp sc o g base d s
  | .vamofadd sc o g base d => Sys2Proof.Machine.execVamofadd sc o g base d s
  | .kld off g base d => Sys2Proof.Machine.execKld off g base d s
  | .kst off g base d => Sys2Proof.Machine.execKst off g base d s
  | .vpf off o g base => Sys2Proof.Machine.execVpf off o g base s
  | .spld hi d a b => Sys2Proof.Machine.execSpld hi d a b s
  | .spst hi d a b => Sys2Proof.Machine.execSpst hi d a b s
  | .sxins hi d a b => Sys2Proof.Machine.execSxins hi d a b s
  | .sxlkp hi d a b => Sys2Proof.Machine.execSxlkp hi d a b s
  | .sxacc hi d a b => Sys2Proof.Machine.execSxacc hi d a b s
  | .sxdrn hi d b => Sys2Proof.Machine.execSxdrn hi d b s
  | .sxclr _ => Sys2Proof.Machine.execSxclr s
  | .mshape depth cols rows => Sys2Proof.Machine.execMshape depth cols rows s
  | .mma hi z df d a b => Sys2Proof.Machine.execMma hi z df d a b s
  | .mmas hi z df d a b => Sys2Proof.Machine.execMmas hi z df d a b s
  | .mlast hi g d b => Sys2Proof.Machine.execMlast hi g d b s
  | .xcp _ a => Sys2Proof.Machine.execXcp a s
  | .xcpm _ a => Sys2Proof.Machine.execXcpm a s
  | .xchain _ g a => Sys2Proof.Machine.execXchain g a s
  | .xstat _ d => Sys2Proof.Machine.execXstat d s
  | .spawn _ g a => Sys2Proof.Machine.execSpawn g a s
  | .join _ => Sys2Proof.Machine.execJoin s
  | .endt _ => Sys2Proof.Machine.execEndt s
  | .tackPop core slot => Sys2Proof.Machine.execTackPop core slot s
  | .waitaWake core slot => Sys2Proof.Machine.execWaitaWake core slot s
  | .barrierDepart core slot => Sys2Proof.Machine.execBarrierDepart core slot s
  | .ringFullDeadlock blk => Sys2Proof.Machine.execRingFullDeadlock blk s
  | .loadComplete core slot => Sys2Proof.Machine.execLoadComplete core slot s
  | .matrixComplete core slot => Sys2Proof.Machine.execMatrixComplete core slot s
  | .followOnIssue core slot => Sys2Proof.Machine.execFollowOnIssue core slot s
  | .followOnComplete core slot => Sys2Proof.Machine.execFollowOnComplete core slot s
  | .copyAcquire core slot => Sys2Proof.Machine.execCopyAcquire core slot s
  | .copyTransfer core slot => Sys2Proof.Machine.execCopyTransfer core slot s
  | .copyRelease core slot => Sys2Proof.Machine.execCopyRelease core slot s
  | .eyeletWrite core slot => Sys2Proof.Machine.execEyeletWrite core slot s
  | .chainRecordRead core slot => Sys2Proof.Machine.execChainRecordRead core slot s
  | .walkComplete core space va => Sys2Proof.Machine.execWalkComplete core space va s
  | .probeAcknowledgement core space va => Sys2Proof.Machine.execProbeAcknowledgement core space va s
  | .probeRefusal core space va => Sys2Proof.Machine.execProbeRefusal core space va s
  | .faultEntryPost die => Sys2Proof.Machine.execFaultEntryPost die s
  | .storeBufferDrain core idx => Sys2Proof.Machine.execStoreBufferDrain core idx s
  | .deferredStoreTrap core slot => Sys2Proof.Machine.execDeferredStoreTrap core slot s
  | .cacheFill core => Sys2Proof.Machine.execCacheFill core s
  | .eviction level unit space addr => Sys2Proof.Machine.execEviction level unit space addr s
  | .writeBackMerge level unit => Sys2Proof.Machine.execWriteBackMerge level unit s
  | .bypassWriteAck core => Sys2Proof.Machine.execBypassWriteAck core s
  | .nameRecall die idx => Sys2Proof.Machine.execNameRecall die idx s
  | .eccError place unit space addr fixable => Sys2Proof.Machine.execEccError place unit space addr fixable s
  | .faultDomainEnd core slot => Sys2Proof.Machine.execFaultDomainEnd core slot s
  | .launchPacketTake q => Sys2Proof.Machine.execLaunchPacketTake q s
  | .launchPlacement => Sys2Proof.Machine.execLaunchPlacement s
  | .launchAging idx cycles => Sys2Proof.Machine.execLaunchAging idx cycles s
  | .preemption blk => Sys2Proof.Machine.execPreemption blk s
  | .contextSave core slot => Sys2Proof.Machine.execContextSave core slot s
  | .contextRestore core slot => Sys2Proof.Machine.execContextRestore core slot s
  | .regionRetire blk => Sys2Proof.Machine.execRegionRetire blk s
  | .arbiterEpoch die demand => Sys2Proof.Machine.execArbiterEpoch die demand s
  | .queueDoorbell q tail => Sys2Proof.Machine.execQueueDoorbell q tail s
  | .queueHeadWrite q head => Sys2Proof.Machine.execQueueHeadWrite q head s
  | .queueErrClear q => Sys2Proof.Machine.execQueueErrClear q s
  | .queueEnable q en => Sys2Proof.Machine.execQueueEnable q en s
  | .registerWrite off val => Sys2Proof.Machine.execRegisterWrite off val s
  | .hostMemoryRead off len => Sys2Proof.Machine.execHostMemoryRead off len s
  | .hostMemoryWrite off bytes _ => Sys2Proof.Machine.execHostMemoryWrite off bytes s
  | .deviceReset => Sys2Proof.Machine.execDeviceReset s
  | .bootDoorbell len => Sys2Proof.Machine.execBootDoorbell len s
  | .imageVerifyComplete => Sys2Proof.Machine.execImageVerifyComplete s
  | .gddrTrainingComplete ok => Sys2Proof.Machine.execGddrTrainingComplete ok s
  | .fullServiceChange => Sys2Proof.Machine.execFullServiceChange s
  | .linkBringup link => Sys2Proof.Machine.execLinkBringup link s
  | .linkFlitReceive link ok => Sys2Proof.Machine.execLinkFlitReceive link ok s
  | .peerRequest req => Sys2Proof.Machine.execPeerRequest req s
  | .linkFailure link => Sys2Proof.Machine.execLinkFailure link s
  | .targetAcknowledgement core => Sys2Proof.Machine.execTargetAcknowledgement core s
  | .loadObject => Sys2Proof.Machine.execLoadObject s
  | .unload => Sys2Proof.Machine.execUnload s
  | .rangeHold => Sys2Proof.Machine.execRangeHold s
  | .rangeFree => Sys2Proof.Machine.execRangeFree s
  | .spaceUpdate => Sys2Proof.Machine.execSpaceUpdate s
  | .resolveRetry => Sys2Proof.Machine.execResolveRetry s
  | .resolveFail => Sys2Proof.Machine.execResolveFail s
  | .endRegion => Sys2Proof.Machine.execEndRegion s
  | .setSavePool => Sys2Proof.Machine.execSetSavePool s
  | .attest => Sys2Proof.Machine.execAttest s
  | .protect => Sys2Proof.Machine.execProtect s

end Sys2Proof.Machine
end

