-- ==== Sys2Proof/Machine/Turn.lean ====
section
/-! DEFINITION. What moves next (log entry 1) and what it does up to the meaning of an instruction: the fetch of a hart
(spec 01 R24, 03 R59), the firmware's handling of a trap (10 R190, R191), the issue selector (09 R174), and the
rotation over the agents when the agenda is empty. -/

namespace Sys2Proof.Machine

/-- What a turn comes to: an instruction, or a step of the device, to be executed at a state; or an outcome already. -/
inductive Selected where
  | run (i : Instr) (s : State)
  | settled (o : Out)

/-! ## Fetch -/

/-- The access of a fetch: 4 bytes at the pc, an offset in g0 (01 R24). -/
def fetchReq (h : Hart) : Req :=
  { rw := .exec, g := 0, off := h.pc, n := 4, align := 4, elem := 0, ew := 32, col := false }

/-- Reads the word at the current hart's pc. A poisoned word traps (03 R61). -/
def fetch (h : Hart) (s : State) : Res Nat :=
  (checkReq (fetchReq h) h true s).bind fun c s =>
    let word := if c.2.1.attr.mc = .normal then fetchL1I c.1 c.2.1.attr.tclass s
      else readBelow c.1 c.2.1 c.2.2 4 false s
    word.bind fun d s => if d.2 then .stop (.trap (c.1.fault 0x0F)) s else .ok d.1 s

/-- The current hart fetches and decodes its next instruction. -/
def selectFetched (h : Hart) (s : State) : Selected :=
  match fetch h s with
  | .stop (.trap t) s => .settled (trapOut t s)
  | .stop .wait s => .settled (.next s)
  | .ok w s =>
    match decodeNat w with
    | .error _ => .settled (trapOut { cause := 0x01, word := BitVec.ofNat 32 w } s)
    | .ok i => .run i s

/-! ## The firmware (10 R190, R191) -/

/-- Whether a hart's refused stores are still to be replayed or written (05 R104). -/
def Core.replays (c : Core) (slot : Nat) : Bool :=
  c.sb.any fun e => e.slot = slot && (e.state = .reported || e.state = .replaying || e.state = .acked)

/-- The handler's part for a recoverable trap: the hart waits for the host; after "retry" it returns to its
instruction, its failed command issued again; after a deferred store trap it returns when its stores have been
replayed, or takes the next one at the same place. One that was saved while its host entry was unresolved waits for the answer
as well (R196). -/
def State.firmware (s : State) (core slot : Nat) (h : Hart) (t : Handling) : State :=
  let key := hkey core slot
  let waits := s.setHart key { h with run := .hostWait }
  if t.frec.cause = 0x0C then
    if h.run ≠ .hostWait then waits
    else if (s.core core).sb.any fun e => e.slot = slot && e.state = .faulted then
      { takeDeferred { s.setHart key h.leaveTrap with cur := key } with cur := s.cur }
    else if (s.core core).replays slot || !t.retry then s
    else s.setHart key h.leaveTrap
  else if t.retry then (s.goBack core slot t).getD s
  else waits

/-! ## A hart's turn -/

/-- Whether a deferred store trap can be taken where a hart is: not while it drains, and not between the two halves of a
push that waits. A hart asleep in WAITA takes it out of its sleep: it stands at an instruction boundary (05 R102), though
R163 and R348 name no trap among what wakes it, and the model so chooses (log entry 115). -/
def Hart.boundary (h : Hart) : Bool := !h.draining && !h.waitsRing

/-- What a hart does at its turn. -/
def State.selectHart (s : State) (core slot : Nat) : Selected :=
  let key := hkey core slot
  match s.hart? key with
  | none => .settled (.next s)
  | some h =>
    match h.trap with
    | some t =>
      if t.nested || !t.frec.recoverable then .run (.faultDomainEnd core slot) s
      else if h.draining then .run (.contextSave core slot) s
      else .settled (.next (s.firmware core slot h t))
    | none =>
      if h.boundary && { s with cur := key }.deferredDue then .run (.deferredStoreTrap core slot) s
      else
        match h.run with
        | .running => selectFetched h { s with cur := key }
        | .asleep _ _ _ _ => .run (.waitaWake core slot) s
        | .barrier _ => .run (.barrierDepart core slot) s
        | .idle _ => if (s.ring h.blk).empty then .settled (asHart key (endT h) s) else .run (.tackPop core slot) s
        | .ringWait _ => .settled (ringRetry core slot s)
        | .hostWait => .settled (.next s)
        | .draining _ => .run (.contextSave core slot) s

/-! ## The issue selector (09 R174) -/

/-- The outcome of what a turn comes to, given the meanings of instructions. -/
def Selected.outcome (run : Instr → State → Out) : Selected → Out
  | .run i s => run i s
  | .settled o => o

/-- Whether a turn takes a hart on: it issues, traps, sleeps or completes elements, where one whose instruction has to wait
stays where it is. -/
def Hart.movedBy (h : Hart) (key : Nat) (o : Out) : Bool :=
  match o with
  | .next t =>
    (match t.hart? key with
     | some q => q.seq ≠ h.seq || q.trap.isSome || q.run ≠ .running || q.ctl.vstart ≠ h.ctl.vstart
     | none => true)
  | _ => false

/-- Whether the hart of a slot is ready: its next instruction has what it needs to issue, so that its turn takes it on. -/
def State.ready (run : Instr → State → Out) (s : State) (core slot : Nat) : Bool :=
  match s.hart? (hkey core slot) with
  | some h =>
    h.run = .running && h.trap.isNone && h.movedBy (hkey core slot) ((s.selectHart core slot).outcome run)
  | none => false

/-- Age and priority of a slot's hart. -/
def State.slotAge (s : State) (core slot : Nat) : Nat :=
  match s.hart? (hkey core slot) with
  | some h => h.age
  | none => 0

def State.slotPrio (s : State) (core slot : Nat) : Nat :=
  match s.hart? (hkey core slot) with
  | some h => s.prioOf h.blk
  | none => 0

/-- The slot that the selector picks among some: aged ones before others, then the highest prio, then rotation from the slot
after the last one picked. -/
def State.pickSlot (s : State) (core : Nat) (ready : List Nat) : Option Nat :=
  let aged := ready.filter fun slot => decide (16 ≤ s.slotAge core slot)
  let pool := if aged.isEmpty then ready else aged
  let best := pool.foldl (fun m slot => max m (s.slotPrio core slot)) 0
  let turn := (upto numSlots).map fun i => ((s.core core).lastPick + 1 + i) % numSlots
  turn.find? fun slot => slot ∈ pool && s.slotPrio core slot = best

/-- Ages after a cycle in which a slot was picked among some. -/
def State.ageHarts (s : State) (core picked : Nat) (ready : List Nat) : State :=
  let age := fun (q : Nat × Hart) =>
    if coreOf q.1 ≠ core then q
    else if slotOf q.1 ≠ picked && slotOf q.1 ∈ ready then (q.1, { q.2 with age := q.2.age + 1 })
    else (q.1, { q.2 with age := 0 })
  { s with harts := s.harts.map age }.setCore core { s.core core with lastPick := picked }

/-- Slots of a core whose harts are ready and not late. -/
def State.readyIn (run : Instr → State → Out) (s : State) (core : Nat) (late : List Nat) : List Nat :=
  (upto numSlots).filter fun q => q ∉ late && s.ready run core q

/-- Whether an instruction of a hart issues: with it the hart's sequence number moves on. -/
def issues (run : Instr → State → Out) (i : Instr) (s : State) (key : Nat) : Bool :=
  match run i s with
  | .next t => (t.hart? key).any fun q => (s.hart? key).any fun h => q.seq ≠ h.seq
  | _ => false

/-- Notes matrix or vector work that a picked hart issues (09 R177 step 2). -/
def Selected.noted (run : Instr → State → Out) (core slot : Nat) : Selected → Selected
  | .run i s =>
    let blk := match s.hart? (hkey core slot) with
      | some h => h.blk
      | none => 0
    .run i (if arrayMajor ((encode i).toNat % 128) && issues run i s (hkey core slot) then s.noteWork core blk else s)
  | .settled o => .settled o

/-- The age of a core's harts that are not ready returns to 0. -/
def State.restAges (s : State) (core : Nat) (ready : List Nat) : State :=
  let rest := fun (q : Nat × Hart) =>
    if coreOf q.1 = core && slotOf q.1 ∉ ready then (q.1, { q.2 with age := 0 }) else q
  { s with harts := s.harts.map rest }

/-- The turn of a hart: when it is ready, an issue cycle of its core, in which the selector picks among the ready harts
that are not late, and where all of them are late none is ready in the cycle; else what the hart does while it waits. -/
def State.hartTurn (run : Instr → State → Out) (s : State) (core slot : Nat) (late : List Nat) : Selected :=
  if s.ready run core slot then
    match s.pickSlot core (s.readyIn run core late) with
    | some q => ((s.ageHarts core q (s.readyIn run core late)).selectHart core q).noted run core q
    | none => .settled (.next (s.restAges core []))
  else (s.restAges core (s.readyIn run core late)).selectHart core slot

/-! ## The rotation (log entry 1) -/

/-- The step that a copy engine takes next for a slot. -/
def Cmd.event (m : Cmd) (core : Nat) : Option Instr :=
  match m.stage with
  | .record => some (.chainRecordRead core m.slot)
  | .acquire => some (.copyAcquire core m.slot)
  | .transfer => some (.copyTransfer core m.slot)
  | .release => some (.copyRelease core m.slot)
  | .eyelet => some (.eyeletWrite core m.slot)
  | .done => none

/-- Steps of a core's engine, from the slot after the last served (09 R175), and of its follow-ons. -/
def State.engineSteps (s : State) (core : Nat) : List Action :=
  let c := s.core core
  let order := (upto numSlots).map fun i => (c.engTurn + 1 + i) % numSlots
  let moves := order.filterMap fun slot => (s.headCmd core slot).bind fun m => m.event core
  let follows := (upto numSlots).flatMap fun slot =>
    (if c.cmds.any fun m => m.slot = slot && m.landed then [Instr.followOnIssue core slot] else [])
      ++ (if c.cmds.any fun m => m.slot = slot && m.followRuns then [Instr.followOnComplete core slot] else [])
  (moves ++ follows).map Action.event

/-- Steps of a core's store buffer and of what it has in flight. -/
def State.memorySteps (s : State) (core : Nat) : List Action :=
  let c := s.core core
  let probes := (c.sb.filter SbEntry.probing).flatMap fun e =>
    [Instr.probeAcknowledgement core e.space e.va, Instr.probeRefusal core e.space e.va]
  let drains := (c.sb.filter c.drainable).map fun e => Instr.storeBufferDrain core e.idx
  let sent := (if c.fills.isEmpty then [] else [Instr.cacheFill core])
    ++ (if c.wbq.isEmpty then [] else [Instr.writeBackMerge .l1 core])
    ++ (if c.bypass.isEmpty then [] else [Instr.bypassWriteAck core])
    ++ (if c.target.isEmpty then [] else [Instr.targetAcknowledgement core])
  (probes ++ drains ++ sent).map Action.event

/-- Steps of the harts of a core: one issue cycle for those that are ready, each that waits, and pending results. -/
def State.hartSteps (run : Instr → State → Out) (s : State) (core : Nat) : List Action :=
  let started := (upto numSlots).filter fun slot => (s.hart? (hkey core slot)).isSome
  let turn := fun slot => Action.hart core slot []
  let picked := ((started.filter (s.ready run core)).take 1).map turn
  let others := (started.filter fun slot => !s.ready run core slot).map turn
  let pending := (upto numSlots).flatMap fun slot =>
    match s.hart? (hkey core slot) with
    | some h =>
      (if h.loads.isEmpty then [] else [Action.event (.loadComplete core slot)])
        ++ (if h.mats.isEmpty then [] else [Action.event (.matrixComplete core slot)])
    | none => []
  picked ++ others ++ pending

/-- Steps of the front end, the command unit and the firmware. -/
def State.frontSteps (s : State) : List Action :=
  let regions := s.fe.regions.flatMap fun r =>
    [Action.event (.regionRetire r.f.blk), Action.event (.ringFullDeadlock r.f.blk)]
  let lost := if s.fe.regions.any (·.lost) then [Action.lostRegion] else []
  let take := match s.nextQueue with
    | some q => [Action.event (.launchPacketTake q)]
    | none => []
  let place := match s.firstLaunch with
    | some l => Action.event .launchPlacement :: (s.victims l).map fun b => Action.event (.preemption b)
    | none => []
  let restore := s.fe.saved.map fun q => Action.event (.contextRestore q.core q.slot)
  let posts := (upto numDies).filterMap fun d =>
    if (s.die d).unposted.isSome then some (Action.event (.faultEntryPost d)) else none
  let unit := if s.command?.isSome then [Action.commandUnit] else []
  let boot := if s.sts.phase = 1 then [Action.event .imageVerifyComplete]
    else if s.sts.trained then [Action.event .fullServiceChange] else []
  regions ++ lost ++ take ++ place ++ restore ++ posts ++ unit ++ boot

/-- Cores that have harts, or that the machine lists. -/
def State.busyCores (s : State) : List Nat :=
  (s.harts.map fun q => coreOf q.1).foldl nins (s.cores.map (·.1))

/-- Everything that can move by itself. -/
def State.candidates (run : Instr → State → Out) (s : State) : List Action :=
  s.busyCores.flatMap (fun c => s.hartSteps run c ++ s.engineSteps c ++ s.memorySteps c)
    ++ (s.clusters.filter fun c => !c.2.wbq.isEmpty).map (fun c => Action.event (.writeBackMerge .l2 c.1))
    ++ s.frontSteps

/-- Takes the next action: the head of the agenda, else the candidate whose turn it is. -/
def State.nextAction (run : Instr → State → Out) (s : State) : Option (Action × State) :=
  match s.agenda with
  | a :: t => some (a, { s with agenda := t })
  | [] =>
    let l := s.candidates run
    (l[s.turn % l.length]?).map fun a => (a, { s with turn := s.turn + 1 })

/-- The end of the domain of a region that lost a write-back (26 R382). -/
def State.endLost (s : State) : State :=
  match s.fe.regions.find? (·.lost) with
  | none => s
  | some r => s.endForLoss r

/-- What an action comes to. -/
def State.selectAction (run : Instr → State → Out) (s : State) : Action → Selected
  | .hart core slot late => s.hartTurn run core slot late
  | .event i => .run i s
  | .commandUnit => .settled s.commandTurn
  | .lostRegion => .settled (.next s.endLost)

/-- One more step has been taken (log entry 7). -/
def State.tick (s : State) : State := { s with ticks := s.ticks + 1 }

/-- What the machine does next, given the meanings of instructions, by which a hart is known to be ready; a machine in
which nothing can move stays as it is. -/
def State.select (run : Instr → State → Out) (s : State) : Selected :=
  match s.tick.nextAction run with
  | some (a, s) => s.selectAction run a
  | none => .settled (.next s.tick)

/-! ## Placing an instruction where the next step fetches it -/

/-- Virtual and physical address of the page that holds it, and its region's block, space and save area. -/
def probePage : Nat := 0x10000
def probeBlk : Nat := 0x100000
def probeSpace : BitVec 16 := 1
def probeArea : Nat := 0x200000

/-- The attributes of that page: a normal page with every right. -/
def probeAttr : Attr :=
  { mc := .normal, skew := 0, tclass := .untiled, r := true, w := true, x := true, s := false }

/-- The page's translation. -/
def probeLeaf : Leaf := { space := probeSpace, vbase := probePage, lg := 12, frame := probePage, attr := probeAttr,
                          d := true }

/-- The page's filter entry. -/
def probeEntry : FilterEntry :=
  { space := probeSpace, vbase := probePage, lg := 12, attr := probeAttr, cf := false, pd := false }

/-- A segment of 4 KiB over the page, bound with every right. -/
def probeSeg : BitVec 128 :=
  BitVec.ofNat 128 (0x1000 <<< 64 + 1 <<< 63 + 1 <<< 62 + 1 <<< 61 + 1 <<< 60 + probePage)

/-- The hart that fetches it. -/
def probeHart : Hart :=
  { Hart.reset with g := Hart.reset.g.set 0 probeSeg, blk := probeBlk, space := probeSpace, area := probeArea }

end Sys2Proof.Machine
end

