-- ==== Sys2Proof/Machine/Step.lean ====
section
/-! DEFINITION. One step of the machine, and the placing of an instruction where the next step fetches it. -/

namespace Sys2Proof.Machine

/-- One step: what moves next is selected, and an instruction or a step of the device is executed. -/
def step (s : State) : Host.Outcome State Fault Refusal :=
  match s.select exec with
  | .run i s => exec i s
  | .settled o => o

/-- The machine with an instruction's word in memory where the next step fetches it, and with all that this takes: full
service, a started hart 0 of core 0 whose g0 and filter name the page, the page's translation, no stale line of it, and
the hart's turn (log entry 3). It stands for the load and the launch of a program. -/
def State.withFetchWord (s : State) (nbits w : Nat) : State :=
  let c := s.core 0
  let k := s.cluster 0
  let d := s.die 0
  { (((s.setCore 0 { c with filter := probeEntry :: c.filter, l1i := [] }).setCluster 0
      { k with l2 := k.l2.filter fun f => !f.covers probeSpace probePage }).setDie 0
      { d with tcache := probeLeaf :: d.tcache }).setHart 0 probeHart with
    agenda := .hart 0 0 [1, 2, 3, 4, 5, 6, 7] :: s.agenda
    mem := s.mem.write probePage (wordBytes (w % 2 ^ nbits))
    poison := s.poison.filter fun p => p ≠ probePage / 8
    xlat := { s.xlat with holds := [] }
    sts := { s.sts with phase := 3 } }

end Sys2Proof.Machine
end

