-- ==== Sys2Proof/Safety.lean ====
section
/-! DEFINITION. What counts as a safe run: no step of it stops. The device has no stop of its own: every failure that the
spec describes is a trap, a command status or an end of a region, and those are next states. -/

namespace Sys2Proof

open Machine

/-- A state whose next step does not stop. -/
def StepSafe (s : State) : Prop := ∃ t, step s = .next t

/-- A run of n steps none of which stops. -/
def RunSafe : Nat → State → Prop
  | 0, _ => True
  | n + 1, s => ∃ t, step s = .next t ∧ RunSafe n t

/-- The actions that an agenda may hold: the harts' own instructions come from their fetch, never from the agenda. -/
def Machine.Action.sound : Action → Bool
  | .event i => !i.hasWord
  | _ => true

end Sys2Proof
end

