-- ==== Sys2Proof/Certificates/Slice0/Obligations.lean ====
section
/-! DEFINITION. The statements of this model for the provers. Each docstring names the rule of spec/ that its statement
formalises, or says which part is the model's own choice and names the log entry. -/

open Sys2Proof Sys2Proof.Machine

namespace Sys2Proof.Slice0

/-- The instruction completes at a state, as its whole effect makes the current hart `h`. -/
def completes (i : Instr) (s : State) (h : Hart) : Prop := exec i s = .next (s.setMe h)

/-- A hart whose instruction is done: x(d) holds w (a write to x0 is discarded, 14 R254), the pc is behind the
instruction and one more instruction has retired. -/
def wrote (h : Hart) (d : XIx) (w : Word) : Hart :=
  { (if d = 0 then h else { h with x := h.x.set d.toNat w d.isLt }) with pc := h.pc + 4, seq := h.seq + 1 }

/-- The machine as the turn of the hart of a slot begins: one more step is taken. When the hart is ready its core's
selector has picked it, so that its age is 0, the other ready harts' ages are one more, and the slot is the last one picked;
when it is not, the age of every hart of the core that is not ready is 0 (09 R174). -/
def turnOf (s : State) (rest : List Action) (core slot : Nat) (late : List Nat) : State :=
  let u := { s with ticks := s.ticks + 1, agenda := rest }
  if u.ready exec core slot then u.ageHarts core slot (u.readyIn exec core late)
  else u.restAges core (u.readyIn exec core late)

/-- Whether that turn is the slot's: its hart is not ready, or the selector picks it. -/
def turnFalls (s : State) (rest : List Action) (core slot : Nat) (late : List Nat) : Prop :=
  let u := { s with ticks := s.ticks + 1, agenda := rest }
  u.ready exec core slot = true → u.pickSlot core (u.readyIn exec core late) = some slot

/-- 1 or 0 for a condition. -/
def truth (p : Prop) [Decidable p] : Word := if p then 1 else 0

/-- Everything of the machine but the current hart and what the model itself schedules with is the same. -/
def othersKept (s t : State) : Prop :=
  t.mem = s.mem ∧ t.poison = s.poison ∧ t.home = s.home ∧ t.cores = s.cores ∧ t.clusters = s.clusters ∧
    t.dies = s.dies ∧ t.xlat = s.xlat ∧ t.fe = s.fe ∧ t.io = s.io ∧ t.sts = s.sts ∧ t.cur = s.cur ∧
    ∀ k, k ≠ s.cur → t.hart? k = s.hart? k

end Sys2Proof.Slice0

open Sys2Proof.Slice0

/-! ## Encoding, decoding and the step -/

/-- When it is the turn of a running hart that handles no trap and owes no deferred store trap, and the word at its pc
decodes to an instruction, the step is that instruction's meaning, at the machine after the fetch, which names the hart as
the current one. When the hart is ready and its instruction is matrix or vector work that issues, so that its hart retires
it, the core has noted the power of its region first (09 R177 step 2; which opcodes are such work, and that retiring is
issuing, are the model's choices: log entry 101). The order of turns is the model's (log entry 1), and so is which ready
harts are late for an issue cycle (log entry 92). -/
def Obligations.StepRunsDecodedInstruction : Prop :=
  ∀ (s : State) (core slot : Nat) (late : List Nat) (rest : List Action) (h h' : Hart) (w : Nat) (s' : State)
    (i : Instr),
    s.agenda = .hart core slot late :: rest →
    turnFalls s rest core slot late →
    (turnOf s rest core slot late).hart? (hkey core slot) = some h →
    h.run = .running → h.trap = none →
    State.deferredDue { turnOf s rest core slot late with cur := hkey core slot } = false →
    fetch h { turnOf s rest core slot late with cur := hkey core slot } = .ok w s' →
    decodeNat w = .ok i → s'.hart? (hkey core slot) = some h' →
    let ready := { s with ticks := s.ticks + 1, agenda := rest }.ready exec core slot
    step s = exec i
      (if ready && arrayMajor ((encode i).toNat % 128) && issues exec i s' (hkey core slot) then s'.noteWork core h'.blk
       else s')

/-- 12 R238, 10 R187: a word that fails a check is an illegal instruction. The hart enters its handler with cause 0x01
in tcause, the word in tval and the pc of the word in tepc, and its mode becomes supervisor. -/
def Obligations.IllegalWordTraps : Prop :=
  ∀ (s : State) (core slot : Nat) (late : List Nat) (rest : List Action) (h : Hart) (w : Nat) (s' : State)
    (e : DecodeError) (h' : Hart),
    s.agenda = .hart core slot late :: rest →
    turnFalls s rest core slot late →
    (turnOf s rest core slot late).hart? (hkey core slot) = some h →
    h.run = .running → h.trap = none →
    State.deferredDue { turnOf s rest core slot late with cur := hkey core slot } = false →
    fetch h { turnOf s rest core slot late with cur := hkey core slot } = .ok w s' →
    w < 2 ^ 32 →
    decodeNat w = .error e →
    s'.me = some h' →
    ∃ t g, step s = .next t ∧ t.me = some g ∧ g.ctl.tcause = 0x01 ∧ g.ctl.tval = BitVec.ofNat 64 w ∧
      g.ctl.tepc = h'.pc ∧ g.user = false ∧ g.pc = h'.ctl.tvec

/-- 12 R231 to R238: every well-formed instruction that has a word is what its word decodes to, with every operand at
every value that the encoding admits. -/
def Obligations.DecodeOfEncodeIsIdentity : Prop :=
  ∀ i : Instr, i.hasWord = true → i.wf = true → decode (encode i) = .ok i

/-- 12 R231 to R238: a word that decodes is the word of the instruction it decodes to, so that each word has one
meaning, no bit of a word is dropped, and what is decoded is well formed. -/
def Obligations.EncodeOfDecodeIsIdentity : Prop :=
  ∀ (w : BitVec 32) (i : Instr), decode w = .ok i → encode i = w ∧ i.hasWord = true ∧ i.wf = true

/-- 14, 15 to 19, "Worked encodings": some of the spec's own words decode to the instructions beside them. -/
def Obligations.WorkedWordsDecode : Prop :=
  decode 0x12300282 = .ok (.addi 582 0 5) ∧
  decode 0x8ACF028B = .ok (.lih 0x45678 5) ∧
  decode 0x00102181 = .ok (.add 0 3 1 2) ∧
  decode 0x2800A381 = .ok (.div 0 7 5 0) ∧
  decode 0x0308C21A = .ok (.std 3 .row 2 6 4) ∧
  decode 0x0048A512 = .ok (.ldw 0 .col 2 5 10) ∧
  decode 0x6909031B = .ok (.amocas (.mem .d .row 2) .w32 8 6) ∧
  decode 0x000060A6 = .ok (.jal 3 1) ∧
  decode 0x0000A029 = .ok (.mtc .vl 5) ∧
  decode 0x004004A8 = .ok (.mfc .fflags 9) ∧
  decode 0x0638602A = .ok (.mtg 0 .hi 3 7) ∧
  decode 0x0400002B = .ok (.rts 0) ∧
  decode 0x000000FF = .error .majorUnassigned ∧
  decode 0x30000001 = .error .functionUnassigned ∧
  decode 0x00001001 = .error .fieldMustBeZero

/-! ## Scalar arithmetic (14 R254 to R258) -/

/-- 14 R255 (rows 0 to 13), R254: each register form writes x(D) as the table gives and goes on; nothing else of the
machine changes. sa and sb are `toInt`, a and b are `toNat`. -/
def Sys2Proof.Slice0.RegisterFormResults : Prop :=
  ∀ (s : State) (h : Hart) (e : Hint) (d a b : XIx), s.me = some h →
    completes (.add e d a b) s (wrote h d (BitVec.ofNat 64 ((h.getX a).toNat + (h.getX b).toNat))) ∧
    completes (.sub e d a b) s (wrote h d (BitVec.ofInt 64 ((h.getX a).toInt - (h.getX b).toInt))) ∧
    completes (.and e d a b) s (wrote h d (h.getX a &&& h.getX b)) ∧
    completes (.or e d a b) s (wrote h d (h.getX a ||| h.getX b)) ∧
    completes (.xor e d a b) s (wrote h d (h.getX a ^^^ h.getX b)) ∧
    completes (.sll e d a b) s (wrote h d (BitVec.ofNat 64 ((h.getX a).toNat * 2 ^ ((h.getX b).toNat % 64)))) ∧
    completes (.srl e d a b) s (wrote h d (BitVec.ofNat 64 ((h.getX a).toNat / 2 ^ ((h.getX b).toNat % 64)))) ∧
    completes (.sra e d a b) s (wrote h d (BitVec.ofInt 64 ((h.getX a).toInt / 2 ^ ((h.getX b).toNat % 64)))) ∧
    completes (.slt e d a b) s (wrote h d (truth ((h.getX a).toInt < (h.getX b).toInt))) ∧
    completes (.sltn e d a b) s (wrote h d (truth ((h.getX a).toNat < (h.getX b).toNat))) ∧
    completes (.min e d a b) s (wrote h d (BitVec.ofInt 64 (min (h.getX a).toInt (h.getX b).toInt))) ∧
    completes (.max e d a b) s (wrote h d (BitVec.ofInt 64 (max (h.getX a).toInt (h.getX b).toInt))) ∧
    completes (.minn e d a b) s (wrote h d (BitVec.ofNat 64 (min (h.getX a).toNat (h.getX b).toNat))) ∧
    completes (.maxn e d a b) s (wrote h d (BitVec.ofNat 64 (max (h.getX a).toNat (h.getX b).toNat)))

/-- 14 R255 (rows 14 to 16): CLZ, CTZ and POPC write a count. CLZ's count n has every bit above the highest one bit
zero and that bit one, and is 64 for zero; CTZ's likewise from below; POPC's is the number of one bits. -/
def Sys2Proof.Slice0.BitCountResults : Prop :=
  ∀ (s : State) (h : Hart) (e : Hint) (d a : XIx), s.me = some h →
    (∃ n : Nat, completes (.clz e d a) s (wrote h d (BitVec.ofNat 64 n)) ∧ n ≤ 64 ∧
      (∀ i, 64 - n ≤ i → (h.getX a).getLsbD i = false) ∧ (n < 64 → (h.getX a).getLsbD (63 - n) = true)) ∧
    (∃ n : Nat, completes (.ctz e d a) s (wrote h d (BitVec.ofNat 64 n)) ∧ n ≤ 64 ∧
      (∀ i, i < n → (h.getX a).getLsbD i = false) ∧ (n < 64 → (h.getX a).getLsbD n = true)) ∧
    completes (.popc e d a) s
      (wrote h d (BitVec.ofNat 64 ((List.range 64).countP fun i => (h.getX a).getLsbD i)))

/-- 14 R255 (rows 17 to 23), R256: products, and quotients and remainders with a divisor that is not zero. -/
def Sys2Proof.Slice0.MultiplyDivideResults : Prop :=
  ∀ (s : State) (h : Hart) (e : Hint) (d a b : XIx), s.me = some h →
    completes (.mul e d a b) s (wrote h d (BitVec.ofNat 64 ((h.getX a).toNat * (h.getX b).toNat))) ∧
    completes (.mulh e d a b) s (wrote h d (BitVec.ofInt 64 ((h.getX a).toInt * (h.getX b).toInt / 2 ^ 64))) ∧
    completes (.mulhn e d a b) s (wrote h d (BitVec.ofNat 64 ((h.getX a).toNat * (h.getX b).toNat / 2 ^ 64))) ∧
    ((h.getX b).toNat ≠ 0 →
      completes (.divn e d a b) s (wrote h d (BitVec.ofNat 64 ((h.getX a).toNat / (h.getX b).toNat))) ∧
      completes (.remn e d a b) s (wrote h d (BitVec.ofNat 64 ((h.getX a).toNat % (h.getX b).toNat))) ∧
      ∃ q r : Int,
        completes (.div e d a b) s (wrote h d (BitVec.ofInt 64 q)) ∧
        completes (.rem e d a b) s (wrote h d (BitVec.ofInt 64 r)) ∧
        (h.getX a).toInt = (h.getX b).toInt * q + r ∧ r.natAbs < (h.getX b).toInt.natAbs ∧
        (0 ≤ (h.getX a).toInt → 0 ≤ r) ∧ ((h.getX a).toInt ≤ 0 → r ≤ 0))

/-- 14 R256: a divisor of zero writes all ones and accrues DZ, and never traps, whatever `frm` holds; the most negative
number divided by −1 is itself, with remainder 0, and raises no flag. -/
def Sys2Proof.Slice0.DivisionLimits : Prop :=
  ∀ (s : State) (h : Hart) (e : Hint) (d a b : XIx), s.me = some h →
    (h.getX b = 0 →
      ∀ i, i ∈ [Instr.div e d a b, .divn e d a b, .rem e d a b, .remn e d a b] →
        completes i s { wrote h d 0xFFFFFFFFFFFFFFFF with
          ctl := { h.ctl with fflags := h.ctl.fflags ||| 0b01000 } }) ∧
    (h.getX a = 0x8000000000000000 → h.getX b = 0xFFFFFFFFFFFFFFFF →
      completes (.div e d a b) s (wrote h d 0x8000000000000000) ∧ completes (.rem e d a b) s (wrote h d 0))

/-- 14 R255, 12 R231: F values 24 to 31 of the register forms are not assigned, whatever the word's other fields hold. -/
def Sys2Proof.Slice0.UnassignedRegisterForms : Prop :=
  ∀ w : BitVec 32, w.toNat % 128 = 1 → 24 ≤ w.toNat / 2 ^ 25 % 32 → decode w = .error .functionUnassigned

/-- Together: RegisterFormResults; BitCountResults; MultiplyDivideResults; DivisionLimits; UnassignedRegisterForms.
The rules and the model's own choices are named at each part. -/
def Obligations.ScalarRegisterForms : Prop :=
  Sys2Proof.Slice0.RegisterFormResults ∧
    Sys2Proof.Slice0.BitCountResults ∧
    Sys2Proof.Slice0.MultiplyDivideResults ∧
    Sys2Proof.Slice0.DivisionLimits ∧
    Sys2Proof.Slice0.UnassignedRegisterForms

/-- 14 R257, R258: the immediate forms, and LIH and ADDPC. -/
def Obligations.ImmediateFormResults : Prop :=
  ∀ (s : State) (h : Hart) (imm : BitVec 13) (n : BitVec 6) (u : BitVec 19) (a d : XIx), s.me = some h →
    completes (.addi imm a d) s (wrote h d (BitVec.ofInt 64 ((h.getX a).toInt + imm.toInt))) ∧
    completes (.andi imm a d) s (wrote h d (h.getX a &&& BitVec.ofInt 64 imm.toInt)) ∧
    completes (.ori imm a d) s (wrote h d (h.getX a ||| BitVec.ofInt 64 imm.toInt)) ∧
    completes (.xori imm a d) s (wrote h d (h.getX a ^^^ BitVec.ofInt 64 imm.toInt)) ∧
    completes (.slti imm a d) s (wrote h d (truth ((h.getX a).toInt < imm.toInt))) ∧
    completes (.sltin imm a d) s (wrote h d (truth ((h.getX a).toNat < (BitVec.ofInt 64 imm.toInt).toNat))) ∧
    completes (.slli n a d) s (wrote h d (BitVec.ofNat 64 ((h.getX a).toNat * 2 ^ n.toNat))) ∧
    completes (.srli n a d) s (wrote h d (BitVec.ofNat 64 ((h.getX a).toNat / 2 ^ n.toNat))) ∧
    completes (.srai n a d) s (wrote h d (BitVec.ofInt 64 ((h.getX a).toInt / 2 ^ n.toNat))) ∧
    completes (.lih u d) s (wrote h d (BitVec.ofNat 64 ((h.getX d).toNat * 2 ^ 19 + u.toNat))) ∧
    completes (.addpc u d) s (wrote h d (BitVec.ofInt 64 (h.pc.toInt + 4 * u.toInt)))

namespace Sys2Proof.Slice0

/-- The scalar register forms and the register that each writes. -/
def scalarForm : Instr → Option XIx
  | .add _ d _ _ | .sub _ d _ _ | .and _ d _ _ | .or _ d _ _ | .xor _ d _ _ | .sll _ d _ _ | .srl _ d _ _
  | .sra _ d _ _ | .slt _ d _ _ | .sltn _ d _ _ | .min _ d _ _ | .max _ d _ _ | .minn _ d _ _ | .maxn _ d _ _
  | .clz _ d _ | .ctz _ d _ | .popc _ d _ | .mul _ d _ _ | .mulh _ d _ _ | .mulhn _ d _ _ | .div _ d _ _
  | .divn _ d _ _ | .rem _ d _ _ | .remn _ d _ _ | .addi _ _ d | .andi _ _ d | .ori _ _ d | .xori _ _ d
  | .slti _ _ d | .sltin _ _ d | .slli _ _ d | .srli _ _ d | .srai _ _ d | .lih _ d | .addpc _ d | .mfg _ _ _ d =>
    some d
  | _ => none

/-- The scalar divisions, the only forms above that may accrue a flag (14 R256). -/
def divides : Instr → Bool
  | .div _ _ _ _ | .divn _ _ _ _ | .rem _ _ _ _ | .remn _ _ _ _ => true
  | _ => false

end Sys2Proof.Slice0

/-- 12 R227, 14 R254: the frame of the scalar register and immediate forms. When one goes on, every scalar register but
its destination keeps its value, x0 reads zero, the vector, scale, segment and control registers, the mode and what is
pending are the same but for a division's flag DZ, and of the rest of the machine nothing changes: in particular every
byte of memory. -/
def Obligations.ScalarRegisterFrame : Prop :=
  ∀ (i : Instr) (d : XIx) (s t : State) (h : Hart),
    scalarForm i = some d → s.me = some h → exec i s = .next t →
    othersKept s t ∧
    ∃ g, t.me = some g ∧ (∀ r, r ≠ d → g.getX r = h.getX r) ∧ g.getX 0 = 0 ∧
      g.v = h.v ∧ g.k = h.k ∧ g.g = h.g ∧ g.sg0 = h.sg0 ∧ g.sg1 = h.sg1 ∧ g.user = h.user ∧
      { g.ctl with fflags := h.ctl.fflags } = h.ctl ∧
      (g.ctl.fflags = h.ctl.fflags ∨ divides i = true ∧ g.ctl.fflags = h.ctl.fflags ||| 8) ∧
      g.tack = h.tack ∧ g.run = h.run ∧ g.trap = h.trap ∧ g.loads = h.loads ∧ g.mats = h.mats ∧ g.fail = h.fail ∧
      g.pc = h.pc + 4 ∧ g.seq = h.seq + 1

/-! ## Scalar memory (14 R259 to R264; 01 R22; 02 R31; 05 R98) -/

namespace Sys2Proof.Slice0

/-- What a scalar load or store moves: bytes, and whether a load extends with the sign. -/
structure Moved where
  n : Nat
  signed : Bool
  off : BitVec 8
  o : Orient
  g : GIx
  base : XIx
  d : XIx
  deriving DecidableEq, Repr

/-- The scalar loads (14 R259). -/
def scalarLoad : Instr → Option Moved
  | .ldb off o g b d => some ⟨1, true, off, o, g, b, d⟩
  | .ldh off o g b d => some ⟨2, true, off, o, g, b, d⟩
  | .ldw off o g b d => some ⟨4, true, off, o, g, b, d⟩
  | .ldd off o g b d => some ⟨8, true, off, o, g, b, d⟩
  | .ldbn off o g b d => some ⟨1, false, off, o, g, b, d⟩
  | .ldhn off o g b d => some ⟨2, false, off, o, g, b, d⟩
  | .ldwn off o g b d => some ⟨4, false, off, o, g, b, d⟩
  | _ => none

/-- The scalar stores (14 R259). -/
def scalarStore : Instr → Option Moved
  | .stb off o g b d => some ⟨1, false, off, o, g, b, d⟩
  | .sth off o g b d => some ⟨2, false, off, o, g, b, d⟩
  | .stw off o g b d => some ⟨4, false, off, o, g, b, d⟩
  | .std off o g b d => some ⟨8, false, off, o, g, b, d⟩
  | _ => none

/-- The offset of a scalar access (12 R232): x(base) + off8 · s, modulo 2^64. -/
def Moved.offset (m : Moved) (h : Hart) : Word :=
  h.getX m.base + BitVec.ofInt 64 (m.off.toInt * m.n)

/-- The access as the checks of 01 R22 see it. -/
def Moved.req (m : Moved) (rw : Rw) (h : Hart) : Req :=
  { rw := rw, g := m.g.toNat, off := m.offset h, n := m.n, align := m.n, elem := 0, ew := 8 * m.n, col := m.o = .col }

/-- The register's value of n loaded bytes. -/
def Moved.value (m : Moved) (x : Nat) : Word :=
  if m.signed then (BitVec.ofNat (8 * m.n) x).signExtend 64 else BitVec.ofNat 64 x

/-- The virtual address that an access names (01 R22). -/
def Moved.va (m : Moved) (h : Hart) : Nat := segBase (h.getG m.g.toNat) + (m.offset h).toNat

/-- The virtual address of the row view that an access reaches, under a filter entry (02 R28). -/
def Moved.cell (m : Moved) (h : Hart) (e : FilterEntry) : Nat :=
  if m.o = .col then colCell e.attr.tclass (m.va h) else m.va h

/-- The segment grants an access (01 R22, checks 1 to 3). -/
def segGrants (g : BitVec 128) (off : Word) (n : Nat) (r w : Bool) : Prop :=
  segBound g = true ∧ off.toNat + n ≤ segLimit g ∧ segBase g + off.toNat + n ≤ 2 ^ 57 ∧
    (r = true → segR g = true) ∧ (w = true → segW g = true) ∧ off.toNat % n = 0

/-- The core's filter holds a page's entry that grants an access to this hart (02 R31): rights, and in column
orientation a page of the access's own width. -/
def pageGrants (c : Core) (h : Hart) (m : Moved) (e : FilterEntry) (r w : Bool) : Prop :=
  c.filter.find? (fun q => q.covers h.spaceTag (m.va h)) = some e ∧
    e.pd = false ∧ (r = true → e.attr.r = true) ∧ (w = true → e.attr.w = true) ∧ (e.attr.s = true → h.user = false) ∧
    (m.o = .col → e.attr.tclass ≠ .untiled ∧ e.attr.tclass.width = m.n)

/-- No byte of a run lies in an entry of the hart in the store buffer (05 R100). -/
def notBuffered (c : Core) (slot : Nat) (space : BitVec 16) (va n : Nat) : Prop :=
  ∀ k, k < n → ∀ e ∈ c.sb, e.slot = slot → e.covers space (va + k) = false

end Sys2Proof.Slice0

/-- 14 R259: a scalar load whose checks pass and whose read answers writes x(D) with the bytes read, extended as the
table says, at the machine after the read; a load with D = 0 performs its access and discards the value (R260). -/
def Sys2Proof.Slice0.ScalarLoadCompletes : Prop :=
  ∀ (i : Instr) (m : Moved) (s s1 s2 : State) (h : Hart) (a : Acc) (e : FilterEntry) (cell x : Nat),
    scalarLoad i = some m → s.me = some h →
    checkReq (m.req .read h) h true s = .ok (a, e, cell) s1 →
    readCell a e cell m.n false s1 = .ok x s2 →
    exec i s = .next (s2.setMe (wrote h m.d (m.value x)))

/-- 14 R259, 03 R45, 06 R129: a scalar load whose segment and page grant it, of bytes that are present in the core's L1,
hold no poison and lie in none of the hart's buffered stores, writes x(D) with those bytes, least significant first,
and changes nothing else at all. -/
def Obligations.ResidentLoadReadsL1 : Prop :=
  ∀ (i : Instr) (m : Moved) (s : State) (h : Hart) (e : FilterEntry) (f : Frame),
    scalarLoad i = some m → s.me = some h →
    segGrants (h.getG m.g.toNat) (m.offset h) m.n true false →
    pageGrants (s.core s.myCore) h m e true false →
    e.attr.mc = .normal →
    notBuffered (s.core s.myCore) s.mySlot h.spaceTag (m.cell h e) m.n →
    Cache.find (s.core s.myCore).l1 h.spaceTag (m.cell h e) = some f → f.base % 128 = 0 →
    (∀ k, k < m.n → f.present (m.cell h e + k) = true ∧ (f.byte (m.cell h e + k)).2 = false) →
    completes i s (wrote h m.d (m.value (ofBytes ((List.range m.n).map fun k => (f.byte (m.cell h e + k)).1))))

/-- 14 R259: a scalar store whose checks pass and whose write is performed goes on, at the machine after the write of the
low s bytes of x(D); it is one more operation of its hart's stores class (19 R347). -/
def Sys2Proof.Slice0.ScalarStoreCompletes : Prop :=
  ∀ (i : Instr) (m : Moved) (s s1 s2 : State) (h : Hart) (a : Acc) (e : FilterEntry) (cell : Nat),
    scalarStore i = some m → s.me = some h →
    checkReq (m.req .write h) h true s = .ok (a, e, cell) s1 →
    writeCell a e cell m.n ((h.getX m.d).toNat % 2 ^ (8 * m.n)) 0 false false false h s1 = .ok () s2 →
    exec i s = .next (s2.setMe { h with pc := h.pc + 4, seq := h.seq + 1, nst := h.nst + 1 })

/-- Together: ScalarLoadCompletes; ScalarStoreCompletes. The rules and the model's own choices are named at each part.
-/
def Obligations.ScalarLoadsAndStoresComplete : Prop :=
  Sys2Proof.Slice0.ScalarLoadCompletes ∧ Sys2Proof.Slice0.ScalarStoreCompletes

/-- 05 R97 to R99, 02 R33: a scalar store to an unconfirmed page of the normal class, when its hart has an entry free, goes
into the late-fault store buffer as a pending entry for the line of its own orientation, which holds its bytes under its
mask. No filter entry confirms its page any more, and nothing else of the machine changes: no register, no cache and no
byte of device memory. -/
def Obligations.UnconfirmedStoreIsBuffered : Prop :=
  ∀ (i : Instr) (m : Moved) (s : State) (h : Hart) (e : FilterEntry) (idx : Nat),
    scalarStore i = some m → s.me = some h →
    segGrants (h.getG m.g.toNat) (m.offset h) m.n false true →
    pageGrants (s.core s.myCore) h m e false true →
    e.attr.mc = .normal → e.cf = false →
    (∀ q ∈ (s.core s.myCore).sb, q.slot = s.mySlot → q.seq ≠ h.seq) →
    (s.core s.myCore).sbLimit > ((s.core s.myCore).sb.filter fun q => q.slot = s.mySlot).length →
    lowestFree ((s.core s.myCore).sb.map (·.idx)) 128 0 = some idx →
    ∃ q : SbEntry,
      exec i s = .next ((s.setCore s.myCore { s.core s.myCore with
          sb := (s.core s.myCore).sb ++ [q]
          filter := (s.core s.myCore).filter.map fun p =>
            if p.covers h.spaceTag (m.cell h e) then { p with cf := false } else p }).setMe
        { h with pc := h.pc + 4, seq := h.seq + 1, nst := h.nst + 1 }) ∧
      q.idx = idx ∧ q.slot = s.mySlot ∧ q.seq = h.seq ∧ q.pc = h.pc ∧ q.space = h.spaceTag ∧ q.state = .pending ∧
      q.va = m.va h / 128 * 128 ∧ q.orient = decide (m.o = .col) ∧ q.efirst = 0 ∧ q.elast = 0 ∧
      (∀ k, k < 128 → q.mask.getLsbD k = (decide (m.va h % 128 ≤ k) && decide (k < m.va h % 128 + m.n))) ∧
      ∀ k, k < m.n → elt q.data.toNat 8 (m.va h % 128 + k) = (h.getX m.d).toNat / 256 ^ k % 256

namespace Sys2Proof.Slice0

/-- The byte nearest to a core at an address of a page (06 R129): in its L1, else in its cluster's L2, else at the home
slice. -/
def viewOf (s : State) (core : Nat) (l : Leaf) (va : Nat) : Byte × Bool := s.nearByte core l va

/-- No two frames of a cache have the same space, base and way (03 R44: a way holds one line of a set). -/
def distinctFrames (c : Cache) : Prop :=
  c.Pairwise fun f g => (f.space, f.base, f.way) ≠ (g.space, g.base, g.way)

/-- Where a byte of the slot at an address has its place in a cache, the frame is whole: it has all its rows and lies on a
slot boundary. -/
def wholeFrame (c : Cache) (space : BitVec 16) (va : Nat) : Prop :=
  ∀ k f, k < 128 → Cache.find c space (va + k) = some f → f.rows.length = f.tclass.rows ∧ f.base % 128 = 0

/-- A frame of a cache has a byte of a space, present and dirty. -/
def dirtyByte (c : Cache) (space : BitVec 16) (va : Nat) (b : Byte) : Prop :=
  ∃ f, Cache.find c space va = some f ∧ f.present va = true ∧ (f.byte va).1 = b ∧
    (f.row ((va - f.base) / 128)).dirty.getLsbD (va % 128) = true

end Sys2Proof.Slice0

/-- 03 R45, 14 R259: a scalar store to a confirmed page of the normal class whose line has its place in the L1 is
performed there. Its bytes are present and read as the low bytes of x(D); every other byte of the hart's space, read
through the caches under any leaf, reads as before; and device memory, the other cores, the clusters and the dies do not
change. The address is the one that the meaning computes (R22, R28). The frames of the L1 are distinct, which every step
keeps. -/
def Obligations.ConfirmedStoreWritesL1 : Prop :=
  ∀ (i : Instr) (m : Moved) (s : State) (h : Hart) (e : FilterEntry) (f : Frame),
    scalarStore i = some m → s.me = some h →
    segGrants (h.getG m.g.toNat) (m.offset h) m.n false true →
    pageGrants (s.core s.myCore) h m e false true →
    e.attr.mc = .normal → e.cf = true →
    (s.core s.myCore).bypass = [] →
    distinctFrames (s.core s.myCore).l1 →
    (∀ k, k < m.n → Cache.find (s.core s.myCore).l1 h.spaceTag (m.cell h e + k) = some f) →
    f.rows.length = f.tclass.rows → f.base % 128 = 0 →
    ∃ t, exec i s = .next t ∧
      (∀ (l : Leaf) (k : Nat), k < m.n → l.space = h.spaceTag →
        (viewOf t s.myCore l (m.cell h e + k)).1 = BitVec.ofNat 8 ((h.getX m.d).toNat / 256 ^ k)) ∧
      (∀ (l : Leaf) (a : Nat), (l.space ≠ h.spaceTag ∨ a < m.cell h e ∨ m.cell h e + m.n ≤ a) →
        (viewOf t s.myCore l a).1 = (viewOf s s.myCore l a).1) ∧
      t.mem = s.mem ∧ t.poison = s.poison ∧ t.clusters = s.clusters ∧ t.dies = s.dies ∧
      (∀ c, c ≠ s.myCore → t.core c = s.core c) ∧
      t.me = some { h with pc := h.pc + 4, seq := h.seq + 1, nst := h.nst + 1 }

namespace Sys2Proof.Slice0

/-- The scalar accesses to the virtual space, with what the segment and the page must grant: loads, stores and memory
atomics (14 R259, R261). -/
def scalarAccess : Instr → Option (Moved × Rw)
  | .amoadd (.mem _ o g) w b d | .amoand (.mem _ o g) w b d | .amoor (.mem _ o g) w b d | .amoxor (.mem _ o g) w b d
  | .amomin (.mem _ o g) w b d | .amomax (.mem _ o g) w b d | .amominn (.mem _ o g) w b d
  | .amomaxn (.mem _ o g) w b d | .amoswp (.mem _ o g) w b d | .amocas (.mem _ o g) w b d
  | .amofadd (.mem _ o g) w b d => some (⟨if w = .w32 then 4 else 8, true, 0, o, g, b, d⟩, .both)
  | i =>
    match scalarLoad i, scalarStore i with
    | some m, _ => some (m, .read)
    | none, some m => some (m, .write)
    | none, none => none

/-- The cause that the checks of 01 R22 give an access of n bytes with an alignment, in their order: bound and limit,
rights, alignment. -/
def segCauseAt (g : BitVec 128) (off : Word) (n align : Nat) (rw : Rw) : Option Nat :=
  if segBound g = false ∨ segLimit g < off.toNat + n ∨ 2 ^ 57 < segBase g + off.toNat + n then some 0x06
  else if (rw = .read ∨ rw = .both) ∧ segR g = false then some 0x07
  else if (rw = .write ∨ rw = .both) ∧ segW g = false then some 0x08
  else if off.toNat % align ≠ 0 then some 0x05
  else none

/-- The same for an access that is aligned to its size. -/
def segCause (g : BitVec 128) (off : Word) (n : Nat) (rw : Rw) : Option Nat := segCauseAt g off n n rw

/-- The hart with what its retired instructions still owe its registers: the values of pending loads, of pending matrix
instructions, and of follow-ons that have issued, which a trap delivers first (10 R181). -/
def delivered (s : State) (h : Hart) : Hart := ((s.core s.myCore).settleFollows s.mySlot h.settle).2

/-- A trap with a cause and a value is taken at an instruction of the current hart (10 R186, R187): the saved registers
are written, the mode is supervisor, the pc is at tvec. The instruction has no effect on a register: scalar and segment
registers are the same, vector and scale registers hold what older instructions gave them, and so does every control
register but the four that the trap writes, vl, vstart and the flags among them. Of device memory nothing but the 64 bytes
of the fault-record slot of the hart's save area changes. -/
def trapped (s t : State) (h : Hart) (cause : Nat) (value : Word) : Prop :=
  (∃ g, t.me = some g ∧ g.user = false ∧ g.pc = h.ctl.tvec ∧ g.x = h.x ∧ g.g = h.g ∧ g.sg0 = h.sg0 ∧ g.sg1 = h.sg1 ∧
    g.v = (delivered s h).v ∧ g.k = (delivered s h).k ∧
    g.ctl = { (delivered s h).ctl with
      tcause := BitVec.ofNat 64 cause, tepc := h.pc, tval := value, tstat := if h.user then 0 else 1 } ∧
    g.loads = [] ∧ g.mats = [] ∧ g.seq = h.seq ∧ g.tack = h.tack ∧ g.blk = h.blk) ∧
  (∀ a, (a < h.area + 0x40 ∨ h.area + 0x80 ≤ a) → t.mem.get a = s.mem.get a) ∧
  ∀ k, k ≠ s.cur → t.hart? k = s.hart? k

end Sys2Proof.Slice0

/-- 01 R22, 14 R260, R262, 10 R187: a scalar load, store or memory atomic that a segment check refuses traps at that
check, before anything else is looked at; tval holds the offset for the causes 0x05 and 0x06 and the virtual address for
the rights. -/
def Sys2Proof.Slice0.SegmentChecksTrap : Prop :=
  ∀ (i : Instr) (m : Moved) (rw : Rw) (s : State) (h : Hart) (c : Nat),
    scalarAccess i = some (m, rw) → s.me = some h →
    segCause (h.getG m.g.toNat) (m.offset h) m.n rw = some c →
    ∃ t, exec i s = .next t ∧
      trapped s t h c (if c = 0x05 ∨ c = 0x06 then m.offset h
        else BitVec.ofNat 64 (m.va h))

/-- 02 R31 checks 2 and 3, 14 R260, R262: with its segment granting the access and the page's entry in the filter, an
access that the page's rights or its class refuse traps with 0x07, 0x08 or 0x0A; a supervisor page grants a user hart
nothing. -/
def Sys2Proof.Slice0.PageChecksTrap : Prop :=
  ∀ (i : Instr) (m : Moved) (rw : Rw) (s : State) (h : Hart) (e : FilterEntry),
    scalarAccess i = some (m, rw) → s.me = some h →
    segGrants (h.getG m.g.toNat) (m.offset h) m.n (decide (rw ≠ .write)) (decide (rw ≠ .read)) →
    (s.core s.myCore).filter.find? (fun q => q.covers h.spaceTag (m.va h))
      = some e →
    e.pd = false →
    ∀ c, (if rw ≠ .write ∧ (e.attr.r = false ∨ e.attr.s = true ∧ h.user = true) then some 0x07
        else if rw ≠ .read ∧ (e.attr.w = false ∨ e.attr.s = true ∧ h.user = true) then some 0x08
        else if m.o = .col ∧ (e.attr.tclass = .untiled ∨ e.attr.tclass.width ≠ m.n) then some 0x0A
        else none) = some c →
      ∃ t, exec i s = .next t ∧
        trapped s t h c (BitVec.ofNat 64 (m.va h))

/-- Together: SegmentChecksTrap; PageChecksTrap. The rules and the model's own choices are named at each part. -/
def Obligations.MemoryAccessChecksTrap : Prop :=
  Sys2Proof.Slice0.SegmentChecksTrap ∧ Sys2Proof.Slice0.PageChecksTrap

namespace Sys2Proof.Slice0

/-- The scalar atomics with their location, width, base and destination register (14 R261). -/
def atomicForm : Instr → Option (AmoLoc × AmoWidth × XIx × XIx)
  | .amoadd l w b d | .amoand l w b d | .amoor l w b d | .amoxor l w b d | .amomin l w b d | .amomax l w b d
  | .amominn l w b d | .amomaxn l w b d | .amoswp l w b d | .amocas l w b d | .amofadd l w b d => some (l, w, b, d)
  | _ => none

/-- Bytes of an atomic. -/
def wide : AmoWidth → Nat
  | .w32 => 4
  | .w64 => 8

/-- The new value that the table of 14 R261 gives for an old value m of W bits, or none for no write, and the flags that
an f32 or f64 sum raises (R264). -/
def atomicNew (i : Instr) (h : Hart) (m : Nat) : Option Nat × Nat :=
  match i with
  | .amoadd _ w _ d => (some ((m + (h.getX d).toNat) % 2 ^ (8 * wide w)), 0)
  | .amoand _ w _ d => (some ((m &&& (h.getX d).toNat) % 2 ^ (8 * wide w)), 0)
  | .amoor _ w _ d => (some ((m ||| (h.getX d).toNat) % 2 ^ (8 * wide w)), 0)
  | .amoxor _ w _ d => (some ((m ^^^ (h.getX d).toNat) % 2 ^ (8 * wide w)), 0)
  | .amomin _ w _ d =>
    let v := (h.getX d).toNat % 2 ^ (8 * wide w)
    (some (if sgn (8 * wide w) v < sgn (8 * wide w) m then v else m % 2 ^ (8 * wide w)), 0)
  | .amomax _ w _ d =>
    let v := (h.getX d).toNat % 2 ^ (8 * wide w)
    (some (if sgn (8 * wide w) m < sgn (8 * wide w) v then v else m % 2 ^ (8 * wide w)), 0)
  | .amominn _ w _ d => (some (min m ((h.getX d).toNat % 2 ^ (8 * wide w)) % 2 ^ (8 * wide w)), 0)
  | .amomaxn _ w _ d => (some (max m ((h.getX d).toNat % 2 ^ (8 * wide w)) % 2 ^ (8 * wide w)), 0)
  | .amoswp _ w _ d => (some ((h.getX d).toNat % 2 ^ (8 * wide w)), 0)
  | .amocas _ w _ d =>
    (if m = (h.getX d).toNat % 2 ^ (8 * wide w) then some ((h.getX (d + 1)).toNat % 2 ^ (8 * wide w)) else none, 0)
  | .amofadd _ w _ d =>
    let f := if w = .w32 then Fmt.f32 else Fmt.f64
    let r := floatAdd f m ((h.getX d).toNat % 2 ^ (8 * wide w))
    (some r.1, r.2)
  | _ => (none, 0)

/-- A hart whose atomic is done: x(d) holds the old value sign-extended from its width, and the flags are accrued. -/
def swapped (h : Hart) (w : AmoWidth) (d : XIx) (m flags : Nat) : Hart :=
  let x := wrote h d ((BitVec.ofNat (8 * wide w) m).signExtend 64)
  { x with ctl := { x.ctl with fflags := x.ctl.fflags ||| (BitVec.ofNat 8 flags).setWidth 64 } }

end Sys2Proof.Slice0

/-- 14 R261, R262: a memory atomic whose checks pass reads and updates its location indivisibly at its scope's level with
the new value of the table, and x(D) receives the old value m, at the machine after that. -/
def Sys2Proof.Slice0.MemoryAtomicCompletes : Prop :=
  ∀ (i : Instr) (sc : AScope) (o : Orient) (g : GIx) (w : AmoWidth) (b d : XIx) (s s1 s2 : State) (h : Hart) (a : Acc)
    (e : FilterEntry) (cell m : Nat),
    atomicForm i = some (.mem sc o g, w, b, d) → s.me = some h →
    checkReq { rw := .both, g := g.toNat, off := h.getX b, n := wide w, align := wide w, elem := 0, ew := 8 * wide w,
               col := o = .col } h true s = .ok (a, e, cell) s1 →
    atomicCell a e cell (wide w) sc (fun m => (atomicNew i h m).1) s1 = .ok m s2 →
    exec i s = .next (s2.setMe (swapped h w d m (atomicNew i h m).2))

namespace Sys2Proof.Slice0

/-- The n bytes at a cell of a space stand in a frame of a cache, as the number m, with no poison, and the cache is well
formed there. -/
def standsIn (c : Cache) (space : BitVec 16) (cell n m : Nat) (f : Frame) : Prop :=
  distinctFrames c ∧ f.rows.length = f.tclass.rows ∧ f.base % 128 = 0 ∧ cell % 128 + n ≤ 128 ∧
    (∀ k, k < n → Cache.find c space (cell + k) = some f ∧ f.present (cell + k) = true ∧ (f.byte (cell + k)).2 = false) ∧
    m = ofBytes ((List.range n).map fun k => (f.byte (cell + k)).1)

/-- The n bytes of a cell stand in device memory under the leaf l of their page, as the number m, with no poison: the
translation in force leads there, no hold overlaps the page, and its name is recorded. -/
def standsAtHome (s : State) (core : Nat) (space : BitVec 16) (cell n m : Nat) (l : Leaf) : Prop :=
  (∃ u, s.translate (dieOf core) space cell .atomic false = (.leaf l, u)) ∧ s.held space cell = false ∧
    s.heldPage l = false ∧ s.nameConflict l = false ∧ s.isNamed l = true ∧ inCtl (l.pa cell) = false ∧
    (∀ k, k < n → (l.pa cell + k) / 8 ∉ s.poison) ∧ m = s.readPA (l.pa cell) n

/-- Every byte but n at a cell of a space reads as before, through the core's caches and under any leaf. -/
def viewKept (s t : State) (core : Nat) (space : BitVec 16) (cell n : Nat) : Prop :=
  ∀ (l : Leaf) (a : Nat), (l.space ≠ space ∨ a < cell ∨ cell + n ≤ a) →
    (viewOf t core l a).1 = (viewOf s core l a).1

/-- What an atomic of a core leaves at the level of its scope (03 R55), for the old value m of n bytes that stand there and
the new one, or none for no write; `ends` says how its instruction ends. At core scope it is performed in the L1: the bytes
are dirty there. At cluster scope, with no line of them in the L1, it is performed in the cluster's L2. At device and system
scope, with no line of them in either, and on every page that is not of the normal class, it is performed in device memory.
Nothing but the bytes of the new value changes at that level, and the others keep what they hold. -/
def lands (s : State) (core : Nat) (space : BitVec 16) (e : FilterEntry) (col : Bool) (sc : AScope) (cell n : Nat)
    (new : Nat → Option Nat) (ends : Nat → State → Prop) : Prop :=
  let l1 := (s.core core).l1
  let l2 := (s.cluster (clusterOf core)).l2
  let byte := fun x k => BitVec.ofNat 8 (x / 256 ^ k)
  (∀ f m, e.attr.mc = .normal → sc = .c → standsIn l1 space cell n m f → f.lineValid cell col = true →
    ∃ t, ends m t ∧ (∀ x k, new m = some x → k < n → dirtyByte (t.core core).l1 space (cell + k) (byte x k)) ∧
      (new m = none → (t.core core).l1 = l1) ∧ (∀ k, t.cluster k = s.cluster k) ∧ t.mem = s.mem ∧
      viewKept s t core space cell n) ∧
  (∀ f m, e.attr.mc = .normal → sc = .k → Cache.find l1 space cell = none → (s.core core).wbq = [] →
    standsIn l2 space cell n m f →
    ∃ t, ends m t ∧
      (∀ x k, new m = some x → k < n → dirtyByte (t.cluster (clusterOf core)).l2 space (cell + k) (byte x k)) ∧
      (new m = none → (t.cluster (clusterOf core)).l2 = l2) ∧ (t.core core).l1 = l1 ∧ t.mem = s.mem ∧
      viewKept s t core space cell n) ∧
  ∀ l m, (e.attr.mc ≠ .normal ∧ (s.core core).target = [] ∨ e.attr.mc = .normal ∧ (sc = .d ∨ sc = .s) ∧
      Cache.find l1 space cell = none ∧ Cache.find l2 space cell = none ∧ (s.core core).wbq = [] ∧
      (s.cluster (clusterOf core)).wbq = []) →
    standsAtHome s core space cell n m l →
    ∃ t, ends m t ∧ (∀ x k, new m = some x → k < n → t.mem.get (l.pa cell + k) = byte x k) ∧
      (∀ a, (new m = none ∨ a < l.pa cell ∨ l.pa cell + n ≤ a) → t.mem.get a = s.mem.get a) ∧
      (t.core core).l1 = l1 ∧ (t.cluster (clusterOf core)).l2 = l2

end Sys2Proof.Slice0

/-- 14 R261, R262, 03 R55: what a memory atomic leaves in the caches and in device memory. With its segment and its page
granting the access, the page confirmed, and its location in none of its hart's buffered stores, it updates the location at
the level of its scope, as `lands` says, with the new value of the table, and x(D) receives the old one. The location stands
at that level alone: that other lines of it go outward first is what the caches' steps say. -/
def Sys2Proof.Slice0.AtomicLandsAtScope : Prop :=
  ∀ (i : Instr) (sc : AScope) (o : Orient) (g : GIx) (w : AmoWidth) (b d : XIx) (s : State) (h : Hart) (e : FilterEntry),
    atomicForm i = some (.mem sc o g, w, b, d) → s.me = some h →
    let a : Moved := ⟨wide w, true, 0, o, g, b, d⟩
    segGrants (h.getG g.toNat) (a.offset h) (wide w) true true →
    pageGrants (s.core s.myCore) h a e true true → e.cf = true →
    notBuffered (s.core s.myCore) s.mySlot h.spaceTag (a.cell h e) (wide w) → (s.core s.myCore).bypass = [] →
    lands s s.myCore h.spaceTag e (decide (o = .col)) sc (a.cell h e) (wide w) (fun m => (atomicNew i h m).1)
      fun m t => exec i s = .next t ∧ t.me = some (swapped h w d m (atomicNew i h m).2)

/-- 14 R263, 03 R67, 11 R226: a scratchpad atomic whose address is in the grant, aligned and not poisoned updates its
location in the core's scratchpad with the new value of the table, x(D) receives the old value, and nothing else changes.
When its sum raises a flag whose trap is enabled it traps with 0x14, and writes nothing; f64 AMOFADD is an illegal
instruction there, an address that R19 refuses traps with 0x10 and a misaligned one with 0x05. That the first of these two
decides for an address that is both is the model's choice (log entry 17). -/
def Sys2Proof.Slice0.ScratchpadAtomicCompletes : Prop :=
  ∀ (i : Instr) (w : AmoWidth) (b d : XIx) (s : State) (h : Hart),
    atomicForm i = some (.sp, w, b, d) → s.me = some h →
    let c := s.core s.myCore
    let g := c.grantOf h.blk
    let a := h.getX b
    (i = .amofadd .sp .w64 b d → ∃ t, exec i s = .next t ∧ trapped s t h 0x01 (BitVec.ofNat 64 (encode i).toNat)) ∧
    (i ≠ .amofadd .sp .w64 b d → spNearOk g a (wide w) = false →
      ∃ t, exec i s = .next t ∧ trapped s t h 0x10 a) ∧
    (i ≠ .amofadd .sp .w64 b d → spNearOk g a (wide w) = true → spOffset a % wide w ≠ 0 →
      ∃ t, exec i s = .next t ∧ trapped s t h 0x05 a) ∧
    (i ≠ .amofadd .sp .w64 b d → spNearOk g a (wide w) = true → spOffset a % wide w = 0 →
      c.spPoisoned g (spOffset a) (wide w) = false →
      (atomicNew i h (c.spRead g (spOffset a) (wide w))).2 &&& (h.ctl.frm.toNat / 256 % 32) ≠ 0 →
      ∃ t, exec i s = .next t ∧ trapped s t h 0x14 0 ∧ ∀ k, (t.core k).sp = (s.core k).sp) ∧
    (i ≠ .amofadd .sp .w64 b d → spNearOk g a (wide w) = true → spOffset a % wide w = 0 →
      c.spPoisoned g (spOffset a) (wide w) = false →
      (atomicNew i h (c.spRead g (spOffset a) (wide w))).2 &&& (h.ctl.frm.toNat / 256 % 32) = 0 →
      exec i s = .next ((match (atomicNew i h (c.spRead g (spOffset a) (wide w))).1 with
          | some x => s.setCore s.myCore (c.spWrite g (spOffset a) (toBytes (wide w) x))
          | none => s).setMe
        (swapped h w d (c.spRead g (spOffset a) (wide w)) (atomicNew i h (c.spRead g (spOffset a) (wide w))).2)))

/-- Together: MemoryAtomicCompletes; AtomicLandsAtScope; ScratchpadAtomicCompletes. The rules and the model's own
choices are named at each part. -/
def Obligations.AtomicsComplete : Prop :=
  Sys2Proof.Slice0.MemoryAtomicCompletes ∧
    Sys2Proof.Slice0.AtomicLandsAtScope ∧
    Sys2Proof.Slice0.ScratchpadAtomicCompletes

/-! ## Branches, control registers, traps (14 R265 to R270; 10 R186 to R189) -/

namespace Sys2Proof.Slice0

/-- Control goes to t at an instruction when c holds, with the hart h' otherwise changed, and else to the next one; a
target that is not a multiple of 4 is a misaligned access of the instruction itself, which then has no effect (R267). -/
def goesTo (i : Instr) (s : State) (h h' : Hart) (c : Prop) (t : Word) : Prop :=
  (¬c → completes i s { h with pc := h.pc + 4, seq := h.seq + 1 }) ∧
  (c → t.toNat % 4 = 0 → completes i s { h' with pc := t, seq := h.seq + 1 }) ∧
  (c → t.toNat % 4 ≠ 0 → ∃ u, exec i s = .next u ∧ trapped s u h 0x05 t)

end Sys2Proof.Slice0

/-- 14 R265, R267: the branches compare x(A) with x(B) and go to PC + 4 · off13 modulo 2^64 when their condition holds,
else to PC + 4; they write no register. -/
def Sys2Proof.Slice0.BranchResults : Prop :=
  ∀ (s : State) (h : Hart) (off : BitVec 13) (b a : XIx), s.me = some h →
    let t := BitVec.ofInt 64 (h.pc.toInt + 4 * off.toInt)
    goesTo (.beq off b a) s h h (h.getX a = h.getX b) t ∧
    goesTo (.bne off b a) s h h (h.getX a ≠ h.getX b) t ∧
    goesTo (.blt off b a) s h h ((h.getX a).toInt < (h.getX b).toInt) t ∧
    goesTo (.bge off b a) s h h ((h.getX b).toInt ≤ (h.getX a).toInt) t ∧
    goesTo (.bltn off b a) s h h ((h.getX a).toNat < (h.getX b).toNat) t ∧
    goesTo (.bgen off b a) s h h ((h.getX b).toNat ≤ (h.getX a).toNat) t

/-- 14 R266, R267: JAL and JALR link x(D) to PC + 4 and go to their target; JALR reads x(A) before it writes x(D), and
clears no bit of the target. -/
def Sys2Proof.Slice0.JumpResults : Prop :=
  ∀ (s : State) (h : Hart) (off : BitVec 19) (imm : BitVec 13) (a d : XIx), s.me = some h →
    goesTo (.jal off d) s h (wrote h d (h.pc + 4)) True (BitVec.ofInt 64 (h.pc.toInt + 4 * off.toInt)) ∧
    goesTo (.jalr imm a d) s h (wrote h d (h.pc + 4)) True (BitVec.ofInt 64 ((h.getX a).toInt + imm.toInt))

/-- Together: BranchResults; JumpResults. The rules and the model's own choices are named at each part. -/
def Obligations.BranchAndJumpResults : Prop :=
  Sys2Proof.Slice0.BranchResults ∧ Sys2Proof.Slice0.JumpResults

namespace Sys2Proof.Slice0

/-- The control registers that the supervisor alone may name (12 R228). -/
def supervisors : CReg → Prop
  | .tcause | .tepc | .tval | .tvec | .tstat => True
  | _ => False

/-- The hart as MFC and MTC of a register find it: for `fflags`, the hart's matrix instructions have completed (R230,
18 R334). -/
def atCtl (h : Hart) (c : CReg) : Hart := if c = .fflags then h.settleMats else h

/-- Bits of a control register that software writes (12 R229), as the positions of the highest one and of a second
field. -/
def writable : CReg → Nat → Bool
  | .vl, i | .vstart, i | .bthr, i => i < 32
  | .vm, i | .mrow, i | .mcol, i => i < 7
  | .vs, _ | .vt, _ | .tepc, _ | .tval, _ => true
  | .vrep, i | .tstat, i => i < 1
  | .vsr, i => i < 49
  | .frm, i => i < 3 || (8 ≤ i && i < 13)
  | .fflags, i => i < 5
  | .mdep, i => i < 9
  | .tcause, i => i < 8
  | .tvec, i => 2 ≤ i
  | .lpart, _ | .hartid, _ | .regionid, _ | .cyc, _ => false

/-- The word of a control register that is held in the hart. -/
def held (c : Ctrl) : CReg → Word
  | .vl => c.vl | .vm => c.vm | .vs => c.vs | .vt => c.vt | .vstart => c.vstart | .vrep => c.vrep | .vsr => c.vsr
  | .frm => c.frm | .fflags => c.fflags | .mrow => c.mrow | .mcol => c.mcol | .mdep => c.mdep | .bthr => c.bthr
  | .tcause => c.tcause | .tepc => c.tepc | .tval => c.tval | .tvec => c.tvec | .tstat => c.tstat
  | .lpart | .hartid | .regionid | .cyc => 0

end Sys2Proof.Slice0

/-- 14 R268, 12 R228, R229: MFC writes x(D) with the whole control register, or traps as a privileged instruction for a
supervisor's register in user mode. lpart is the core's, hartid the hart's location, regionid the rid of the region's
block; of `cyc` the statement says nothing (log entry 7). -/
def Sys2Proof.Slice0.ReadControlRegister : Prop :=
  ∀ (s : State) (h : Hart) (c : CReg) (d : XIx), s.me = some h →
    (supervisors c ∧ h.user = true → ∃ t, exec (.mfc c d) s = .next t ∧
      trapped s t h 0x02 (BitVec.ofNat 64 (encode (.mfc c d)).toNat)) ∧
    (¬(supervisors c ∧ h.user = true) → ∃ w, completes (.mfc c d) s (wrote (atCtl h c) d w) ∧
      match c with
      | .lpart => w.toNat = (s.core s.myCore).lpart % 4
      | .hartid =>
        let n := s.myCore
        (w.toNat % 8 = s.mySlot) ∧ (w.toNat / 8 % 8 = n % 8) ∧ (w.toNat / 64 % 16 = n % 96 / 8) ∧
          (n < 384 → w.toNat / 1024 = n / 96)
      | .regionid => w.toNat = s.readPA h.blk 64 / 2 ^ 236 % 2 ^ 20
      | .cyc => True
      | c => w = held (atCtl h c).ctl c)

/-- 14 R268, 12 R229: MTC writes the RW fields of the control register named and no other control register, keeps
reserved bits at zero, and writes nothing to `lpart`, `hartid`, `regionid` or `cyc`; a supervisor's register in user
mode traps. No other part of the hart changes. That a write of `fflags` first delivers the hart's older matrix results is
the model's reading (log entry 11, DEDUCED: 18 R334 says it of MFC alone). -/
def Sys2Proof.Slice0.WriteControlRegister : Prop :=
  ∀ (s : State) (h : Hart) (c : CReg) (a : XIx), s.me = some h →
    (supervisors c ∧ h.user = true → ∃ t, exec (.mtc c a) s = .next t ∧
      trapped s t h 0x02 (BitVec.ofNat 64 (encode (.mtc c a)).toNat)) ∧
    (¬(supervisors c ∧ h.user = true) → ∃ k : Ctrl,
      completes (.mtc c a) s { atCtl h c with ctl := k, pc := h.pc + 4, seq := h.seq + 1 } ∧
      (∀ i, i < 64 → (held k c).getLsbD i = (writable c i && (h.getX a).getLsbD i)) ∧
      ∀ q, q ≠ c → held k q = held (atCtl h c).ctl q)

/-- 14 R269, 01 R21, 10 R188: MFG reads and MTG writes one half of the segment register that the hart's mode names, with
its reserved bits zero; MTG to g0 in user mode traps as a privileged instruction. -/
def Sys2Proof.Slice0.SegmentRegisterMoves : Prop :=
  ∀ (s : State) (h : Hart) (e : Hint) (g : GIx) (r : XIx), s.me = some h →
    completes (.mfg e .lo g r) s (wrote h r ((h.getG g.toNat).setWidth 64)) ∧
    completes (.mfg e .hi g r) s (wrote h r ((h.getG g.toNat >>> 64).setWidth 64)) ∧
    (g = 0 → h.user = true → ∀ half, ∃ t, exec (.mtg e half g r) s = .next t ∧
      trapped s t h 0x02 (BitVec.ofNat 64 (encode (.mtg e half g r)).toNat)) ∧
    (¬(g = 0 ∧ h.user = true) → ∀ half, ∃ w : BitVec 128,
      completes (.mtg e half g r) s { h.setG g.toNat w with pc := h.pc + 4, seq := h.seq + 1 } ∧
      (∀ i, i < 128 → w.getLsbD i =
        ((decide (64 ≤ i ∧ i < 121) || decide (60 ≤ i ∧ i < 64) || decide (6 ≤ i ∧ i < 57)) &&
          (match half with
            | .lo => if i < 64 then (h.getX r).getLsbD i else (h.getG g.toNat).getLsbD i
            | .hi => if i < 64 then (h.getG g.toNat).getLsbD i else (h.getX r).getLsbD (i - 64)))))

/-- Together: ReadControlRegister; WriteControlRegister; SegmentRegisterMoves. The rules and the model's own choices
are named at each part. -/
def Obligations.SpecialRegisterMoves : Prop :=
  Sys2Proof.Slice0.ReadControlRegister ∧
    Sys2Proof.Slice0.WriteControlRegister ∧
    Sys2Proof.Slice0.SegmentRegisterMoves

/-- 14 R270, 10 R186, R187: TRAP and BRK take their trap at their own pc, with causes 0x04 and 0x03 and tval 0. -/
def Sys2Proof.Slice0.TrapAndBreakEnter : Prop :=
  ∀ (s : State) (h : Hart) (e : Hint), s.me = some h →
    (∃ t, exec (.trap e) s = .next t ∧ trapped s t h 0x04 0) ∧ (∃ t, exec (.brk e) s = .next t ∧ trapped s t h 0x03 0)

/-- 10 R189, R188, 14 R270: RTS in supervisor mode sets the privilege to tstat.pp and goes on at tepc, with vstart and
every other register as they stand; that it does so at a tepc that is not a multiple of 4 too is the
model's choice (log entry 118, DESIGN CHOICE); in user mode it traps as a privileged instruction. -/
def Sys2Proof.Slice0.ReturnFromTrap : Prop :=
  ∀ (s : State) (h : Hart) (e : Hint), s.me = some h →
    (h.user = false → completes (.rts e) s
      { h with user := !h.ctl.tstat.getLsbD 0, pc := h.ctl.tepc, trap := none, run := .running, seq := h.seq + 1 }) ∧
    (h.user = true → ∃ t, exec (.rts e) s = .next t ∧ trapped s t h 0x02 (BitVec.ofNat 64 (encode (.rts e)).toNat))

/-- 10 R186, R189: an instruction that takes a trap and RTS right after its entry bring the hart back to its mode, its pc
and its registers: what the entry saved is what the return restores. -/
def Sys2Proof.Slice0.TrapEntryAndReturnRoundTrip : Prop :=
  ∀ (s t u : State) (h : Hart) (i : Instr) (e : Hint), s.me = some h →
    (i = .trap e ∨ i = .brk e) → exec i s = .next t → exec (.rts e) t = .next u →
    ∃ g, u.me = some g ∧ g.pc = h.pc ∧ g.user = h.user ∧ g.x = h.x ∧ g.g = h.g ∧ g.sg0 = h.sg0 ∧ g.sg1 = h.sg1 ∧
      g.ctl.vstart = h.ctl.vstart ∧ g.ctl.vl = h.ctl.vl ∧ g.trap = none

/-- Together: TrapAndBreakEnter; ReturnFromTrap; TrapEntryAndReturnRoundTrip. The rules and the model's own choices
are named at each part. -/
def Obligations.TrapEntryAndReturn : Prop :=
  Sys2Proof.Slice0.TrapAndBreakEnter ∧
    Sys2Proof.Slice0.ReturnFromTrap ∧
    Sys2Proof.Slice0.TrapEntryAndReturnRoundTrip

/-! ## Fences, waits and barriers (19 R347 to R350; 03 R53, R54; 08 R163; 07 R150) -/

namespace Sys2Proof.Slice0

/-- The hart behind its instruction, unchanged otherwise. -/
def passed (h : Hart) : Hart := { h with pc := h.pc + 4, seq := h.seq + 1 }

/-- No slot of a space in a cache has a dirty byte. -/
def allClean (c : Cache) (space : BitVec 16) : Prop := ∀ f ∈ c, f.space = space → ∀ r ∈ f.rows, r.dirty = 0

/-- No byte of a space in a cache is present but as a dirty one. -/
def noCleanByte (c : Cache) (space : BitVec 16) : Prop :=
  ∀ f ∈ c, f.space = space → f.colValid = 0 ∧ ∀ r ∈ f.rows, r.valid = false

/-- The hart owns no entry of its core's store buffer. -/
def ownsNoEntry (s : State) : Prop := ∀ e ∈ (s.core s.myCore).sb, e.slot ≠ s.mySlot

end Sys2Proof.Slice0

/-- 19 R349, 03 R53, R54: FENCE performs the steps of its release, of its acquire or of both in that order, at its scope
and in the hart's own space, and goes on; it waits at the instruction while its hart has a store in the late-fault store
buffer (of an acquire 06 R125 says so, against 05 R101: log entry 96). -/
def Sys2Proof.Slice0.FenceCompletes : Prop :=
  ∀ (s : State) (h : Hart) (e : Hint) (sc : Scope), s.me = some h →
    (ownsNoEntry s →
      exec (.fence e sc .rel) s = .next ((s.releaseSteps s.myCore h.spaceTag sc).setMe (passed h)) ∧
      exec (.fence e sc .acq) s = .next (((((s.ackBypass s.myCore).ackTarget s.myCore)).acquireSteps s.myCore
        h.spaceTag sc).setMe (passed h)) ∧
      exec (.fence e sc .ar) s = .next ((((((s.releaseSteps s.myCore h.spaceTag sc).ackBypass s.myCore)).ackTarget
        s.myCore).acquireSteps s.myCore h.spaceTag sc).setMe (passed h))) ∧
    (¬ownsNoEntry s → ∀ k, exec (.fence e sc k) s = .next s)

/-- 03 R53, R54: after a release at cluster scope or wider the core's L1 holds no dirty byte of the hart's space, and at
device or system scope neither does its cluster's L2; after an acquire they hold no byte of it that is not dirty. -/
def Sys2Proof.Slice0.FenceEmptiesCaches : Prop :=
  ∀ (s t : State) (h : Hart) (e : Hint) (sc : Scope) (k : FenceKind),
    s.me = some h → ownsNoEntry s → sc ≠ .h → sc ≠ .c → exec (.fence e sc k) s = .next t →
    (k ≠ .acq → allClean (t.core s.myCore).l1 h.spaceTag ∧
      (sc ≠ .k → allClean (t.cluster (clusterOf s.myCore)).l2 h.spaceTag)) ∧
    (k ≠ .rel → noCleanByte (t.core s.myCore).l1 h.spaceTag ∧
      (sc ≠ .k → noCleanByte (t.cluster (clusterOf s.myCore)).l2 h.spaceTag))

/-- Together: FenceCompletes; FenceEmptiesCaches. The rules and the model's own choices are named at each part. -/
def Obligations.FenceResults : Prop :=
  Sys2Proof.Slice0.FenceCompletes ∧ Sys2Proof.Slice0.FenceEmptiesCaches

namespace Sys2Proof.Slice0

/-- A flag bit of command word c0. -/
def c0 (m : Cmd) (b : Nat) : Bool := (m.c.getD 0 0).toNat.testBit b

/-- A command of a slot that is outstanding (07 R144, R149): a stage of it is open, or, without an eyelet, its follow-on
has not issued. -/
def outstandingOf (slot : Nat) (m : Cmd) : Bool :=
  decide (m.slot = slot) && (decide (m.stage ≠ .done) || (!c0 m 23 &&
    (match m.follow with
     | some f => decide (f.stage = .waiting)
     | none => false)))

/-- What a WAITC with the counts st, c and m waits for: a store of its hart in the store buffer, an outstanding copy command
or an open follow-on that is not among the so many most recently issued of its class; 15 counts none. -/
def waitsFor (s : State) (h : Hart) (st c m : Nat) : Prop :=
  (st < 15 ∧ ∃ e ∈ (s.core s.myCore).sb, e.slot = s.mySlot ∧ e.nth + st < h.nst) ∨
  (c < 15 ∧ ∃ q ∈ (s.core s.myCore).cmds, outstandingOf s.mySlot q = true ∧ q.nth + c < h.ncp) ∨
  (m < 15 ∧ ∃ q ∈ (s.core s.myCore).cmds, q.slot = s.mySlot ∧ ∃ f, q.follow = some f ∧ f.stage ≠ .closed ∧
    f.nth + m < h.nmx)

end Sys2Proof.Slice0

/-- 19 R347: WAITC of a hart that has no failed command stays at its place while an operation is open that one of its counts
does not allow, and else goes on; the core's bypassing and target writes are acknowledged meanwhile where it counts stores.
Older loads and matrix instructions are complete where it counts them, every one of the class (log entry 63, DEDUCED). -/
def Sys2Proof.Slice0.WaitForCounts : Prop :=
  ∀ (s : State) (h : Hart) (l st c m : BitVec 4), s.me = some h → h.fail = none →
    let u := if st = 15 then s else (s.ackBypass s.myCore).ackTarget s.myCore
    (waitsFor s h st.toNat c.toNat m.toNat → exec (.waitc l st c m) s = .next u) ∧
    (¬waitsFor s h st.toNat c.toNat m.toNat → exec (.waitc l st c m) s = .next (u.setMe
      (passed (let g := if l = 15 then h else h.settleLoads
        if m = 15 then g else g.settleMats))))

namespace Sys2Proof.Slice0

/-- An eyelet: an aligned, unpoisoned doubleword of the hart's grant (19 R348). -/
def eyelet (s : State) (h : Hart) (a : Word) : Prop :=
  let c := s.core s.myCore
  spNearOk (c.grantOf h.blk) a 8 = true ∧ spOffset a % 8 = 0 ∧ c.spPoisoned (c.grantOf h.blk) (spOffset a) 8 = false

/-- The word in an eyelet. -/
def eyeletWord (s : State) (h : Hart) (a : Word) : Word :=
  BitVec.ofNat 64 ((s.core s.myCore).spRead ((s.core s.myCore).grantOf h.blk) (spOffset a) 8)

end Sys2Proof.Slice0

/-- 19 R348, 08 R163: WAITA returns the eyelet's word in x(D) when it is the awaited value, WAITA.ANY also when it is its
complement; else the hart sleeps at the instruction. -/
def Sys2Proof.Slice0.WaitForEyelet : Prop :=
  ∀ (s : State) (h : Hart) (e : Hint) (d a b : XIx), s.me = some h → eyelet s h (h.getX a) →
    let w := eyeletWord s h (h.getX a)
    (w = h.getX b → completes (.waita e d a b) s { wrote h d w with run := .running }) ∧
    (w ≠ h.getX b → completes (.waita e d a b) s { h with run := .asleep false d a b }) ∧
    (w = h.getX b ∨ w = ~~~(h.getX b) → completes (.waitaAny e d a b) s { wrote h d w with run := .running }) ∧
    (w ≠ h.getX b → w ≠ ~~~(h.getX b) → completes (.waitaAny e d a b) s { h with run := .asleep true d a b })

/-- 08 R163: WAITA_WAKE lets a sleeper whose eyelet holds the awaited value return from its WAITA, and leaves any other
as it is; no other hart is touched. -/
def Sys2Proof.Slice0.SleeperWakes : Prop :=
  ∀ (s : State) (core slot : Nat) (h : Hart) (any : Bool) (d a b : XIx),
    s.hart? (hkey core slot) = some h → h.run = .asleep any d a b →
    eyelet { s with cur := hkey core slot } h (h.getX a) →
    let w := eyeletWord { s with cur := hkey core slot } h (h.getX a)
    exec (.waitaWake core slot) s = .next (s.setHart (hkey core slot)
      (if w = h.getX b ∨ any = true ∧ w = ~~~(h.getX b) then { wrote h d w with run := .running } else h))

/-- Together: WaitForCounts; WaitForEyelet; SleeperWakes. The rules and the model's own choices are named at each
part. -/
def Obligations.WaitsAndEyelets : Prop :=
  Sys2Proof.Slice0.WaitForCounts ∧ Sys2Proof.Slice0.WaitForEyelet ∧ Sys2Proof.Slice0.SleeperWakes

namespace Sys2Proof.Slice0

/-- Two harts lie in one instance of a scope (07 R128). -/
def together (sc : Scope) (k j : Nat) : Prop :=
  match sc with
  | .h => k = j
  | .c => k / 8 = j / 8
  | .k => k / 64 = j / 64
  | .d | .s => True

/-- The started harts are listed by rising keys. -/
def hartsRise (s : State) : Prop := (s.harts.map (·.1)).Pairwise (· < ·)

end Sys2Proof.Slice0

/-- 19 R350, 07 R150: BAR performs a release at its scope and the hart arrives; it waits while it has a buffered store.
When every hart of the region in the instance has arrived at a BAR of that scope, or is idle in ENDT, and none is saved,
all that have arrived depart, each with an acquire at the scope: it goes on behind its BAR, and the caches that the scope
names hold no byte of its space that is not dirty (03 R54); no other hart changes. That they depart in one step is the
model's choice (log entry 68). Until then nobody departs: while one of them runs, sleeps, waits on the ring, has arrived at
a BAR of another scope, drains or is saved. Harts are listed by rising keys, which every step keeps. -/
def Obligations.BarrierArrivesAndDeparts : Prop :=
  (∀ (s : State) (h : Hart) (e : Hint) (sc : Scope), s.me = some h →
    (ownsNoEntry s →
      exec (.bar e sc) s = .next ((s.releaseSteps s.myCore h.spaceTag sc).setMe { h with run := .barrier sc })) ∧
    (¬ownsNoEntry s → exec (.bar e sc) s = .next s)) ∧
  ∀ (s : State) (core slot : Nat) (h : Hart) (sc : Scope), hartsRise s → s.hart? (hkey core slot) = some h →
    h.run = .barrier sc →
    let inIt := fun (q : Nat × Hart) => q.2.blk = h.blk ∧ together sc (hkey core slot) q.1
    ((∀ q ∈ s.harts, inIt q → q.2.run = .barrier sc ∨ ∃ n, q.2.run = .idle n) →
      (∀ q ∈ s.fe.saved, ¬(q.blk = h.blk ∧ together sc (hkey core slot) (hkey q.core q.slot))) →
      ∃ t, exec (.barrierDepart core slot) s = .next t ∧
        ∀ k g, s.hart? k = some g →
          (inIt (k, g) → g.run = .barrier sc → t.hart? k = some { passed g with run := .running } ∧
            (sc ≠ .h → sc ≠ .c → noCleanByte (t.core (k / 8)).l1 g.spaceTag ∧
              (sc ≠ .k → noCleanByte (t.cluster (clusterOf (k / 8))).l2 g.spaceTag))) ∧
          (¬(inIt (k, g) ∧ g.run = .barrier sc) → t.hart? k = some g)) ∧
    ((∃ q ∈ s.harts, inIt q ∧ q.2.run ≠ .barrier sc ∧ ∀ n, q.2.run ≠ .idle n) ∨
        (∃ q ∈ s.fe.saved, q.blk = h.blk ∧ together sc (hkey core slot) (hkey q.core q.slot)) →
      exec (.barrierDepart core slot) s = .next s)

/-! ## Tacks (08 R158 to R162; 09 R173; 19 R351) -/

namespace Sys2Proof.Slice0

/-- The ring of a region (08 R159): base and capacity as the region was accepted (log entry 69; the block's, of a hart
whose region is not live), head and tail from the region's block in memory. -/
def ringBase (s : State) (blk : Nat) : Nat :=
  match s.fe.regions.find? fun r => r.f.blk = blk with
  | some r => r.f.tqbase
  | none => s.readPA (blk + 48) 8
def ringCap (s : State) (blk : Nat) : Nat :=
  match s.fe.regions.find? fun r => r.f.blk = blk with
  | some r => 2 ^ (r.f.tqsz + 8)
  | none => 2 ^ (s.readPA blk 64 / 2 ^ 232 % 16 + 8)
def ringHead (s : State) (blk : Nat) : Nat := s.readPA (blk + 40) 4
def ringTail (s : State) (blk : Nat) : Nat := s.readPA (blk + 44) 4

/-- Entries in the ring. -/
def ringUsed (s : State) (blk : Nat) : Nat := (ringTail s blk + 2 ^ 32 - ringHead s blk) % 2 ^ 32

end Sys2Proof.Slice0

/-- 19 R351, 08 R159, R162: SPAWN, with its record granted by its segment and no buffered store of its hart, performs a
release at device scope and pushes the record's address: into the ring's next place, with the tail one further, when the
ring has room, and the hart goes on; when the ring is full the hart waits with its push and memory holds what the release
left. That the ring's counts are read as they stand where the region's block is poisoned is the model's choice (log entry 133,
DESIGN CHOICE). -/
def Sys2Proof.Slice0.SpawnPushes : Prop :=
  ∀ (s : State) (h : Hart) (e : Hint) (g : GIx) (a : XIx), s.me = some h → ownsNoEntry s →
    segGrants (h.getG g.toNat) (h.getX a) 32 true true →
    let r := segBase (h.getG g.toNat) + (h.getX a).toNat
    let u := s.releaseSteps s.myCore h.spaceTag .d
    (ringUsed u h.blk ≠ ringCap u h.blk →
      ∃ t, exec (.spawn e g a) s = .next t ∧ t.me = some { passed h with run := .running, push := none } ∧
        (ringBase u h.blk + 8 * (ringTail u h.blk % ringCap u h.blk) + 8 ≤ h.blk ∨
            h.blk + 64 ≤ ringBase u h.blk + 8 * (ringTail u h.blk % ringCap u h.blk) →
          t.readPA (ringBase u h.blk + 8 * (ringTail u h.blk % ringCap u h.blk)) 8 = r % 2 ^ 64 ∧
          ringTail t h.blk = (ringTail u h.blk + 1) % 2 ^ 32 ∧ ringHead t h.blk = ringHead u h.blk ∧
          ∀ x, (x < h.blk ∨ h.blk + 64 ≤ x) →
            (x < ringBase u h.blk + 8 * (ringTail u h.blk % ringCap u h.blk) ∨
              ringBase u h.blk + 8 * (ringTail u h.blk % ringCap u h.blk) + 8 ≤ x) →
            t.mem.get x = u.mem.get x)) ∧
    (ringUsed u h.blk = ringCap u h.blk →
      exec (.spawn e g a) s = .next (u.setMe { h with run := .ringWait r, push := none }))

namespace Sys2Proof.Slice0

/-- A hart at a JOIN that has read its parent q from a page that is not of the normal class: it does not read it again, and no
pre-emption stops it (10 R192 step 1, log entry 38). -/
def joining (h : Hart) (q : Nat) : Hart := { h with parent := some q, pinned := some h.seq }

/-- What a JOIN by a hart g does once it has read its parent q and left the machine u (08 R160). -/
def joinsOn (e : Hint) (s u : State) (g : Hart) (q : Nat) : Prop :=
  let done := { g with parent := none }
  (q = 0 → exec (.join e) s = .next (u.setMe (passed done))) ∧
  (q ≠ 0 → ¬ownsNoEntry u → exec (.join e) s = .next u) ∧
  (q ≠ 0 → ownsNoEntry u → ∀ (old : Nat) (t : State),
    tackCell .both (q + 12) 4 4 (fun m => if m = 0 then none else some (m - 1)) g
      (u.releaseSteps u.myCore g.spaceTag .d) = .ok old t →
    (old = 0 → exec (.join e) s = .next (takeTrap { cause := 0x13 } t)) ∧
    (old = 1 → exec (.join e) s = .next (pushOrWait q (some q)
      (if t.offNormal g.spaceTag (q + 12) then { done with pinned := some g.seq } else done) t)) ∧
    (2 ≤ old → exec (.join e) s = .next (t.setMe (passed done))))

end Sys2Proof.Slice0

/-- 08 R160, 19 R351: JOIN of a tack with no record, or whose record names no continuation, only goes on. With a
continuation q, after a release at device scope, it decrements the count at q + 12: from 1 it pushes q, from more it goes
on, from 0 it traps with 0x13; while its hart has a store in the store buffer it waits. One that was pre-empted between its
decrement and its push only pushes; one that waits after an access to a page that is not of the normal class is marked, and
no pre-emption stops it (10 R192, log entry 38). That a parent which is a multiple of 4 and not of 32 has its word at q + 12
decremented like any other is the model's choice (log entry 94, DESIGN CHOICE). -/
def Sys2Proof.Slice0.JoinCounts : Prop :=
  ∀ (s : State) (h : Hart) (e : Hint) (q : Nat), s.me = some h →
    (h.push = some q → exec (.join e) s = .next (pushOrWait q (some q) h s)) ∧
    (h.push = none → h.tack = 0 → completes (.join e) s (passed h)) ∧
    (h.push = none → h.tack ≠ 0 → h.parent = some q →
      joinsOn e s (s.setMe (joining h q)) (joining h q) q) ∧
    (h.push = none → h.tack ≠ 0 → h.parent = none → ∀ u : State,
      tackCell .read (h.tack.toNat + 24) 8 8 (fun _ => none) h s = .ok q u →
      let g := if u.offNormal h.spaceTag (h.tack.toNat + 24) then joining h q else h
      joinsOn e s (u.setMe g) g q)

/-- Together: SpawnPushes; JoinCounts. The rules and the model's own choices are named at each part. -/
def Obligations.SpawnAndJoin : Prop :=
  Sys2Proof.Slice0.SpawnPushes ∧ Sys2Proof.Slice0.JoinCounts

/-- 08 R160, 09 R173, 07 R141: ENDT of a hart whose region has no tack waiting and whose fellows hold no work, when
nothing of it is outstanding, performs a release at system scope and the hart is gone, with the region's other started
harts counted in its block: the core's L1 and its cluster's L2 hold no dirty byte of the hart's space, and caches and memory
but for the block are as the release leaves them; while a fellow holds work it becomes idle. That an idle hart holds no
work is log entry 54, the conditions of retirement are log entry 67, and that the front end counts the live harts itself is
log entry 69. -/
def Sys2Proof.Slice0.EndOfTackRetiresOrIdles : Prop :=
  ∀ (s : State) (h : Hart) (e : Hint), s.me = some h → ringUsed s h.blk = 0 →
    (s.othersWork s.cur h.blk = true →
      exec (.endt e) s = .next (s.setMe { h with tack := 0, works := false, run := .idle (h.idleSince.getD s.ticks) })) ∧
    (s.othersWork s.cur h.blk = false → ownsNoEntry s → (∀ m ∈ (s.core s.myCore).cmds, m.slot ≠ s.mySlot) →
      let u := s.releaseSteps s.myCore h.spaceTag .s
      ∃ t, exec (.endt e) s = .next t ∧ t.me = none ∧ (∀ k, k ≠ s.cur → t.hart? k = s.hart? k) ∧
        allClean (t.core s.myCore).l1 h.spaceTag ∧ allClean (t.cluster (clusterOf s.myCore)).l2 h.spaceTag ∧
        (∀ c, t.core c = u.core c) ∧ (∀ c, t.cluster c = u.cluster c) ∧
        (∀ x, x < h.blk ∨ h.blk + 64 ≤ x → t.mem.get x = u.mem.get x) ∧
        t.readPA (h.blk + 36) 2 = ((s.harts.filter fun q => q.2.blk = h.blk ∧ q.1 ≠ s.cur).length
          + (s.fe.saved.filter fun q => q.blk = h.blk).length) % 2 ^ 16)

namespace Sys2Proof.Slice0

/-- Address of the record at the head of a region's ring. -/
def headRecord (s : State) (blk : Nat) : Nat :=
  s.readPA (ringBase s blk + 8 * (ringHead s blk % ringCap s blk)) 8

/-- A record that a pop takes: its entry is a multiple of 4, and its reserved word is 0 (08 R158). -/
def usableRecord (c : Nat) : Prop := c % 4 = 0 ∧ c / 2 ^ 64 % 2 ^ 32 = 0

/-- What a pop of the record r with contents c makes of a hart h of a machine s (08 R160): the head of the ring moves on by
one, x1 and x2 hold the record's argument word and its address, and the hart runs at the record's entry as one that holds
work; its stores stay counted. -/
def popped (s t : State) (h g : Hart) (r c : Nat) : Prop :=
  g.pc = BitVec.ofNat 64 c ∧ g.getX 1 = BitVec.ofNat 64 (c / 2 ^ 128) ∧ g.getX 2 = BitVec.ofNat 64 r ∧
    (∀ i, i ≠ 1 → i ≠ 2 → g.getX i = h.getX i) ∧ g.tack = BitVec.ofNat 64 r ∧ g.works = true ∧ g.run = .running ∧
    g.v = h.v ∧ g.g = h.g ∧ g.ctl = h.ctl ∧ g.nst = h.nst ∧ ringHead t h.blk = (ringHead s h.blk + 1) % 2 ^ 32

/-- The load of the record at the head by a hart that has no tack, behind an acquire at device scope (08 R160). -/
def loadsHead (s u : State) (h : Hart) (c : Nat) : Prop :=
  tackCell .read (headRecord s h.blk) 32 32 (fun _ => none) { h with tack := 0 }
    ((((s.setMe { h with tack := 0 }).ackBypass s.myCore).ackTarget s.myCore).acquireSteps s.myCore h.spaceTag .d) =
      .ok c u

end Sys2Proof.Slice0

/-- 08 R160, 09 R173: ENDT of a hart whose region's ring holds a tack. When another hart of the region is idle, that one has
the pop, and this one becomes idle behind it. Else it pops: an acquire at device scope, the load of the record at the head,
and the pop of a usable record; one that is not usable traps with 0x13. It waits for no outstanding work: the hart's stores
stay counted across the pop (19 R351). That a ring entry whose word is poisoned is read as it stands is the model's choice
(log entry 133, DESIGN CHOICE). -/
def Sys2Proof.Slice0.EndOfTackPopsNext : Prop :=
  ∀ (s : State) (h : Hart) (e : Hint), s.me = some h → ringUsed s h.blk ≠ 0 →
    (s.firstInLine s.cur h.blk h.idleSince = false → exec (.endt e) s =
      .next (s.setMe { h with tack := 0, works := false, run := .idle (h.idleSince.getD s.ticks) })) ∧
    (s.firstInLine s.cur h.blk h.idleSince = true →
      ∀ (c : Nat) (u : State), loadsHead s u h c →
        (usableRecord c → ∃ t g, exec (.endt e) s = .next t ∧ t.me = some g ∧
          popped s t h g (headRecord s h.blk) c) ∧
        (¬usableRecord c → exec (.endt e) s = .next (takeTrap { cause := 0x13, inner := 0x11 } u)))

/-- 08 R160, 09 R173: when the ring holds a tack and the idle hart is first in line, TACK_POP pops it for that hart, whether
or not the hart has stores in the store buffer (19 R351). -/
def Sys2Proof.Slice0.TackPopStartsTack : Prop :=
  ∀ (s u : State) (core slot : Nat) (h : Hart) (n c : Nat),
    s.hart? (hkey core slot) = some h → h.run = .idle n → ringUsed s h.blk ≠ 0 →
    let s0 := { s with cur := hkey core slot }
    s.firstInLine (hkey core slot) h.blk (some n) = true →
    loadsHead s0 u h c → usableRecord c →
      ∃ t g, exec (.tackPop core slot) s = .next t ∧ t.hart? (hkey core slot) = some g ∧ t.cur = s.cur ∧
        popped s t h g (headRecord s h.blk) c

/-- Together: EndOfTackRetiresOrIdles; EndOfTackPopsNext; TackPopStartsTack. The rules and the model's own choices are
named at each part. -/
def Obligations.TackEndAndPop : Prop :=
  Sys2Proof.Slice0.EndOfTackRetiresOrIdles ∧
    Sys2Proof.Slice0.EndOfTackPopsNext ∧
    Sys2Proof.Slice0.TackPopStartsTack

/-- 08 R162: a region whose ring is full and all of whose harts that hold work wait on it is in deadlock, and the domain
ends with fcause 0x13; otherwise nothing happens. Which harts are looked at and which one the record names is the
model's reading (log entry 64). -/
def Obligations.FullRingDeadlockEndsDomain : Prop :=
  ∀ (s : State) (blk : Nat),
    ((∃ q ∈ s.harts, q.2.blk = blk ∧ q.2.works = true ∧ ∀ r, q.2.run ≠ .ringWait r) →
      exec (.ringFullDeadlock blk) s = .next s) ∧
    (ringUsed s blk ≠ ringCap s blk → exec (.ringFullDeadlock blk) s = .next s) ∧
    ∀ (key : Nat) (h : Hart) (rest : List (Nat × Hart)),
      (s.harts.filter fun q => q.2.blk = blk && q.2.works) = (key, h) :: rest →
      ringUsed s blk = ringCap s blk →
      (∀ q ∈ s.harts, q.2.blk = blk → q.2.works = true → ∃ r, q.2.run = .ringWait r) →
      (∀ q ∈ s.fe.saved, ¬(q.blk = blk ∧ q.works = true)) →
      exec (.ringFullDeadlock blk) s = .next (s.endDomain blk 0x13 h.pc (key / 8) (key % 8))

/-! ## Vector instructions on codes (15 R271 to R275, R280 to R290) -/

namespace Sys2Proof.Slice0

/-- Nothing holds back an instruction that reads and writes these vector registers: the hart has no failed command, and
no open follow-on is to write one of them (15 R272, 19 R345). -/
def unheld (s : State) (h : Hart) (reads writes : List Nat) : Prop :=
  h.fail = none ∧ meets (reads ++ writes) ((s.core s.myCore).pendingFollows s.mySlot) = false

/-- The hart as such an instruction finds it: what older loads and matrix instructions owe those registers has been
delivered (15 R272). -/
def atRegs (h : Hart) (reads writes : List Nat) : Hart := h.settleFor (reads ++ writes)

/-- The same for an instruction that reads the mask too. -/
def unheldVec (s : State) (h : Hart) (reads writes : List Nat) : Prop := unheld s h (reads ++ h.maskRegs) writes
def atVec (h : Hart) (reads writes : List Nat) : Hart := atRegs h (reads ++ h.maskRegs) writes

/-- The mask is off, or its register is tagged m1 (12 R230). -/
def maskUsable (g : Hart) : Prop := g.ctl.vm.toNat.testBit 6 = true → (g.getV (g.ctl.vm.toNat % 64)).tag = 0x13

/-- vl fits these registers (15 R273 order 5). -/
def fits (g : Hart) (s : State) (regs : List Nat) : Prop :=
  ∀ n ∈ regs, g.ctl.vl.toNat % 2 ^ 32 ≤ (g.tagAt n).capacity s.vlen

/-- Active(i) of 12 R239: from vstart to vl − 1, and allowed by the mask. -/
def takesPart (g : Hart) (i : Nat) : Prop :=
  g.ctl.vstart.toNat % 2 ^ 32 ≤ i ∧ i < g.ctl.vl.toNat % 2 ^ 32 ∧
    (g.ctl.vm.toNat.testBit 6 = true → (g.getV (g.ctl.vm.toNat % 64)).bits.getLsbD i = true)

/-- A hart whose vector instruction is done: vstart is 0 and the flags are accrued (15 R271). -/
def vectorDone (g : Hart) (flags : Nat) : Hart :=
  { g with ctl := { g.ctl with vstart := 0, fflags := g.ctl.fflags ||| (BitVec.ofNat 8 flags).setWidth 64 },
           pc := g.pc + 4, seq := g.seq + 1 }

/-- The instruction goes on from the hart g with nothing changed but register d, the flags, vstart and the pc: d keeps
its tag, its elements of width w that take part hold the low w bits of what `f` gives, and the others keep their
codes. Where the width does not divide the register, a write leaves zeros above the last whole element (11 R203). -/
def elementsBecome (i : Instr) (s : State) (g : Hart) (d w : Nat) (part : Nat → Prop) (f : Nat → Nat) (flags : Nat) :
    Prop :=
  let cut := s.vlen % w ≠ 0 ∧ ∃ e, part e
  ∃ r : VReg, exec i s = .next (s.setMe (vectorDone (g.setV d r) flags)) ∧ r.tag = (g.getV d).tag ∧
    (cut → r.bits.toNat < 2 ^ (s.vlen / w * w)) ∧
    ∀ e, (e + 1) * w ≤ 16384 → (cut → (e + 1) * w ≤ s.vlen) →
      (part e → elt r.bits.toNat w e = f e % 2 ^ w) ∧ (¬part e → elt r.bits.toNat w e = elt (g.getV d).bits.toNat w e)

/-- An instruction that moves codes: its destination, its sources, whether it needs vstart = 0, the tags that it
permits, and the code that element i receives. -/
structure CodeForm where
  d : VIx
  srcs : List VIx
  zero : Bool
  tags : Hart → Bool
  f : Hart → Nat → Nat

/-- D, and the others, of one width. -/
def same (l : List VIx) (g : Hart) : Bool := g.oneWidth (l.map BitVec.toNat)

/-- Code of element i of a register. -/
def at_ (g : Hart) (v : VIx) (i : Nat) : Nat := elt (g.getV v.toNat).bits.toNat (g.tagAt v.toNat).width i

/-- Width of a register's elements. -/
def widthOf (g : Hart) (v : VIx) : Nat := (g.tagAt v.toNat).width

/-- D and A integer of one width, B integer (15 R280). -/
def shifts (d a b : VIx) (g : Hart) : Bool :=
  same [d, a] g && g.intTag d.toNat && g.intTag a.toNat && g.intTag b.toNat

/-- The forms of 15 R280, R283, R284, R286 and R287. -/
def codeForm : Instr → Option CodeForm
  | .vand _ d a b => some ⟨d, [a, b], false, same [d, a, b], fun g i => at_ g a i &&& at_ g b i⟩
  | .vor _ d a b => some ⟨d, [a, b], false, same [d, a, b], fun g i => at_ g a i ||| at_ g b i⟩
  | .vxor _ d a b => some ⟨d, [a, b], false, same [d, a, b], fun g i => at_ g a i ^^^ at_ g b i⟩
  | .vnot _ d a => some ⟨d, [a], false, same [d, a], fun g i => 2 ^ widthOf g d - 1 - at_ g a i⟩
  | .vshl _ d a b => some ⟨d, [a, b], false, shifts d a b, fun g i => at_ g a i * 2 ^ (at_ g b i % widthOf g a)⟩
  | .vshr _ d a b => some ⟨d, [a, b], false, shifts d a b, fun g i => at_ g a i / 2 ^ (at_ g b i % widthOf g a)⟩
  | .vshra _ d a b => some ⟨d, [a, b], false, shifts d a b, fun g i =>
      (sgn (widthOf g a) (at_ g a i) / 2 ^ (at_ g b i % widthOf g a) % 2 ^ widthOf g a).toNat⟩
  | .vmov _ d a => some ⟨d, [a], false, same [d, a], fun g i => at_ g a i⟩
  | .vsplat _ d a => some ⟨d, [], false, same [d], fun g _ => (g.getX a).toNat⟩
  | .vidx step start d => some ⟨d, [], false, fun g => g.intTag d.toNat, fun g i =>
      ((start.toInt + i * step.toInt) % 2 ^ widthOf g d).toNat⟩
  | .vslu _ d a b => some ⟨d, [a], true, same [d, a], fun g i =>
      if (g.getX b).toNat ≤ i then at_ g a (i - (g.getX b).toNat) else (g.getX (b + 1)).toNat⟩
  | .vsld _ d a b => some ⟨d, [a], true, same [d, a], fun g i =>
      if i + (g.getX b).toNat < g.ctl.vl.toNat % 2 ^ 32 then at_ g a (i + (g.getX b).toNat)
      else (g.getX (b + 1)).toNat⟩
  | .vperm _ d a b => some ⟨d, [a, b], true, fun g => same [d, a] g && g.intTag b.toNat, fun g i =>
      if at_ g b i < g.ctl.vl.toNat % 2 ^ 32 then at_ g a (at_ g b i) else 0⟩
  | .vrev _ d a => some ⟨d, [a], true, same [d, a], fun g i => at_ g a (g.ctl.vl.toNat % 2 ^ 32 - 1 - i)⟩
  | _ => none

end Sys2Proof.Slice0

/-- 15 R271, R280, R283, R284, R286, R287: the logic, shift, move, index, slide and permute forms. With permitted tags, a
usable mask, vl within the capacities and vstart = 0 where that is asked for, each active element of vD receives the code
that its rule gives, from sources read before anything is written, and every other element and register is unchanged. -/
def Obligations.CodeFormResults : Prop :=
  ∀ (i : Instr) (c : CodeForm) (s : State) (h : Hart),
    codeForm i = some c → s.me = some h → unheldVec s h (c.srcs.map BitVec.toNat) [c.d.toNat] →
    let g := atVec h (c.srcs.map BitVec.toNat) [c.d.toNat]
    (c.zero = true → g.ctl.vstart = 0) → c.tags g = true → maskUsable g →
    fits g s (c.d.toNat :: c.srcs.map BitVec.toNat) →
    elementsBecome i s g c.d.toNat (widthOf g c.d) (takesPart g) (c.f g) 0

/-- 15 R283: VSEL gives every element from vstart to vl − 1 the code of vA's where the mask is off or its bit is 1, and
else of vB's. -/
def Sys2Proof.Slice0.SelectResults : Prop :=
  ∀ (s : State) (h : Hart) (e : Hint) (d a b : VIx), s.me = some h → unheldVec s h [a.toNat, b.toNat] [d.toNat] →
    let g := atVec h [a.toNat, b.toNat] [d.toNat]
    same [d, a, b] g = true → maskUsable g → fits g s [d.toNat, a.toNat, b.toNat] →
    elementsBecome (.vsel e d a b) s g d.toNat (widthOf g d)
      (fun i => g.ctl.vstart.toNat % 2 ^ 32 ≤ i ∧ i < g.ctl.vl.toNat % 2 ^ 32)
      (fun i => if g.ctl.vm.toNat.testBit 6 = true ∧ (g.getV (g.ctl.vm.toNat % 64)).bits.getLsbD i = false
        then at_ g b i else at_ g a i) 0

namespace Sys2Proof.Slice0

/-- A whole-register shift that reads these registers: with permitted tags, vl within the capacities and vstart = 0 it
replaces the low L = vl · w bits of vD by what `q` gives of L, the low bits of vA, those of vD and the count, and keeps
the others. -/
def shiftsString (i : Instr) (reads : List Nat) (d a : VIx) (b : XIx) (q : Nat → Nat → Nat → Nat → Nat) : Prop :=
  ∀ (s : State) (h : Hart), s.me = some h → unheld s h reads [d.toNat] →
    let g := atRegs h reads [d.toNat]
    g.ctl.vstart = 0 → same [d, a] g = true → fits g s [d.toNat, a.toNat] →
    let l := g.ctl.vl.toNat % 2 ^ 32 * widthOf g d
    ∃ r : VReg, exec i s = .next (s.setMe (vectorDone (g.setV d.toNat r) 0)) ∧ r.tag = (g.getV d.toNat).tag ∧
      r.bits.toNat % 2 ^ l = q l ((g.getV a.toNat).bits.toNat % 2 ^ l) ((g.getV d.toNat).bits.toNat % 2 ^ l)
        (g.getX b).toNat ∧
      r.bits.toNat / 2 ^ l = (g.getV d.toNat).bits.toNat / 2 ^ l

end Sys2Proof.Slice0

/-- 15 R281: the whole-register shifts, which read vA alone, and the funnel shifts, which read vD too, replace the low
L = vl · w bits of vD by Q, and keep the others: for a tag of 6 bits too, against 11 R203, which is the model's reading of
R281 (log entry 103, DEDUCED). -/
def Sys2Proof.Slice0.BitStringShiftResults : Prop :=
  ∀ (e : Hint) (d a : VIx) (b : XIx),
    shiftsString (.vwsl e d a b) [a.toNat] d a b (fun l x _ n => x * 2 ^ n % 2 ^ l) ∧
    shiftsString (.vwsr e d a b) [a.toNat] d a b (fun _ x _ n => x / 2 ^ n) ∧
    shiftsString (.vfsl e d a b) [a.toNat, d.toNat] d a b
      (fun l x y n => (y * 2 ^ l + x) * 2 ^ min n l / 2 ^ l % 2 ^ l) ∧
    shiftsString (.vfsr e d a b) [a.toNat, d.toNat] d a b (fun l x y n => (x * 2 ^ l + y) / 2 ^ min n l % 2 ^ l)

/-- 15 R274, R275: VSETL sets vl to the lesser of x(A) and the capacity at vB's tag, writes it to x(D) and clears vstart.
VTAG changes the tag of vD and nothing else; that it leaves vstart is a reading (log entry 24). A tag code that names no
format, of vB or of VTAG, is an illegal instruction. -/
def Sys2Proof.Slice0.LengthAndTagResults : Prop :=
  (∀ (s : State) (h : Hart) (e : Hint) (d a : XIx) (b : VIx) (t : Tag), s.me = some h →
    Tag.ofCode (h.getV b.toNat).tag.toNat = some t →
    let n := min (h.getX a).toNat (t.capacity s.vlen)
    completes (.vsetl e d a b) s
      { wrote h d (BitVec.ofNat 64 n) with ctl := { h.ctl with vl := BitVec.ofNat 64 n, vstart := 0 } }) ∧
  (∀ (s : State) (h : Hart) (e : Hint) (d a : XIx) (b : VIx), s.me = some h → Tag.ofCode (h.getV b.toNat).tag.toNat = none →
    ∃ u, exec (.vsetl e d a b) s = .next u ∧ trapped s u h 0x01 (BitVec.ofNat 64 (encode (.vsetl e d a b)).toNat)) ∧
  ∀ (s : State) (h : Hart) (t : BitVec 8) (d : VIx), s.me = some h → unheld s h [] [d.toNat] →
    let g := atRegs h [] [d.toNat]
    ((Tag.ofCode t.toNat).isSome = true →
      completes (.vtag t d) s (passed (g.setV d.toNat { g.getV d.toNat with tag := t }))) ∧
    (Tag.ofCode t.toNat = none →
      ∃ u, exec (.vtag t d) s = .next u ∧ trapped s u h 0x01 (BitVec.ofNat 64 (encode (.vtag t d)).toNat))

/-- 15 R285: VMVX gives x(D) the code of element x(B) of vA, with its sign for iN tags, and 0 past the capacity; VMXV
writes the low bits of x(A) to element x(B) of vD, and nothing past the capacity. Neither looks at vl, vm or vstart. With a
tag that names no format either is an illegal instruction. -/
def Sys2Proof.Slice0.ElementMoves : Prop :=
  (∀ (s : State) (h : Hart) (e : Hint) (d b : XIx) (a : VIx) (t : Tag), s.me = some h → unheld s h [a.toNat] [] →
    let g := atRegs h [a.toNat] []
    Tag.ofCode (g.getV a.toNat).tag.toNat = some t →
    let k := (g.getX b).toNat
    let c := elt (g.getV a.toNat).bits.toNat t.width k
    completes (.vmvx e d a b) s (vectorDone (g.setX d
      (if t.capacity s.vlen ≤ k then 0 else if t.fmt.isSigned then (BitVec.ofNat t.width c).signExtend 64
        else BitVec.ofNat 64 c)) 0)) ∧
  (∀ (s : State) (h : Hart) (e : Hint) (d b : XIx) (a : VIx), s.me = some h → unheld s h [a.toNat] [] →
    Tag.ofCode ((atRegs h [a.toNat] []).getV a.toNat).tag.toNat = none →
    ∃ u, exec (.vmvx e d a b) s = .next u ∧ trapped s u h 0x01 (BitVec.ofNat 64 (encode (.vmvx e d a b)).toNat)) ∧
  (∀ (s : State) (h : Hart) (e : Hint) (d : VIx) (a b : XIx), s.me = some h → unheld s h [] [d.toNat] →
    Tag.ofCode ((atRegs h [] [d.toNat]).getV d.toNat).tag.toNat = none →
    ∃ u, exec (.vmxv e d a b) s = .next u ∧ trapped s u h 0x01 (BitVec.ofNat 64 (encode (.vmxv e d a b)).toNat)) ∧
  ∀ (s : State) (h : Hart) (e : Hint) (d : VIx) (a b : XIx) (t : Tag), s.me = some h → unheld s h [] [d.toNat] →
    let g := atRegs h [] [d.toNat]
    Tag.ofCode (g.getV d.toNat).tag.toNat = some t →
    elementsBecome (.vmxv e d a b) s g d.toNat t.width
      (fun i => i = (g.getX b).toNat ∧ i < t.capacity s.vlen) (fun _ => (g.getX a).toNat) 0

/-- Together: LengthAndTagResults; ElementMoves. The rules and the model's own choices are named at each part. -/
def Obligations.VectorConfiguration : Prop :=
  Sys2Proof.Slice0.LengthAndTagResults ∧ Sys2Proof.Slice0.ElementMoves

/-- 15 R282: VCMP sets bit i of vD to the condition on the elements of vA and vB, for every active element. Between
integer tags the comparison is that of the integers, whatever their signedness and width, and raises no flag. -/
def Sys2Proof.Slice0.CompareResults : Prop :=
  ∀ (s : State) (h : Hart) (e : Hint) (c : Cond) (d a b : VIx), s.me = some h →
    unheldVec s h [a.toNat, b.toNat] [d.toNat] →
    let g := atVec h [a.toNat, b.toNat] [d.toNat]
    (g.getV d.toNat).tag = 0x13 → tagIs (g.tag a.toNat) (fun t => t.fmt ≠ .m1) = true →
    tagIs (g.tag b.toNat) (fun t => t.fmt ≠ .m1) = true →
    maskUsable g → fits g s [d.toNat, a.toNat, b.toNat] →
    let x := fun i => g.elem a.toNat (g.tagAt a.toNat) i
    let y := fun i => g.elem b.toNat (g.tagAt b.toNat) i
    ((∀ i ∈ g.actives, conditionFlag c (x i) (y i) &&& (g.ctl.frm.toNat / 256 % 32) = 0) →
      elementsBecome (.vcmp e c d a b) s g d.toNat 1 (takesPart g) (fun i => (condition c (x i) (y i)).toNat)
        (g.actives.foldl (fun f i => f ||| conditionFlag c (x i) (y i)) 0)) ∧
    (g.intTag a.toNat = true → g.intTag b.toNat = true →
      elementsBecome (.vcmp e c d a b) s g d.toNat 1 (takesPart g) (fun i =>
        match c with
        | .eq => if g.intAt a.toNat i = g.intAt b.toNat i then 1 else 0
        | .ne => if g.intAt a.toNat i ≠ g.intAt b.toNat i then 1 else 0
        | .lt => if g.intAt a.toNat i < g.intAt b.toNat i then 1 else 0
        | .le => if g.intAt a.toNat i ≤ g.intAt b.toNat i then 1 else 0
        | .gt => if g.intAt b.toNat i < g.intAt a.toNat i then 1 else 0
        | .ge => if g.intAt b.toNat i ≤ g.intAt a.toNat i then 1 else 0
        | .uo => 0
        | .or => 1) 0)

/-- 15 R289: VMCNT counts the active elements whose bit in vA is 1, and VMFST gives the lowest of them, or all ones when
there is none. -/
def Sys2Proof.Slice0.MaskCountResults : Prop :=
  ∀ (s : State) (h : Hart) (e : Hint) (d : XIx) (a : VIx), s.me = some h → unheldVec s h [a.toNat] [] →
    let g := atVec h [a.toNat] []
    g.ctl.vstart = 0 → (g.getV a.toNat).tag = 0x13 → maskUsable g → fits g s [a.toNat] →
    ∃ l : List Nat, l.Pairwise (· < ·) ∧ (∀ i, i ∈ l ↔ takesPart g i ∧ (g.getV a.toNat).bits.getLsbD i = true) ∧
      completes (.vmcnt e d a) s (vectorDone (g.setX d (BitVec.ofNat 64 l.length)) 0) ∧
      completes (.vmfst e d a) s (vectorDone (g.setX d
        (match l.head? with
        | some i => BitVec.ofNat 64 i
        | none => 0xFFFFFFFFFFFFFFFF)) 0)

/-- 15 R290, 14 R267: VBANY branches when some active element's bit in vA is 1, VBNONE when none is; both set vstart to 0
whether or not they branch. -/
def Sys2Proof.Slice0.MaskBranchResults : Prop :=
  ∀ (s : State) (h : Hart) (off : BitVec 13) (a : VIx), s.me = some h → unheldVec s h [a.toNat] [] →
    let g := atVec h [a.toNat] []
    (g.getV a.toNat).tag = 0x13 → maskUsable g → fits g s [a.toNat] →
    let t := ∃ i, takesPart g i ∧ (g.getV a.toNat).bits.getLsbD i = true
    let z := { g with ctl := { g.ctl with vstart := 0 } }
    let dest := BitVec.ofInt 64 (g.pc.toInt + 4 * off.toInt)
    (¬t → completes (.vbany off a) s (passed z)) ∧ (t → completes (.vbnone off a) s (passed z)) ∧
    (dest.toNat % 4 = 0 →
      (t → completes (.vbany off a) s { z with pc := dest, seq := g.seq + 1 }) ∧
      (¬t → completes (.vbnone off a) s { z with pc := dest, seq := g.seq + 1 }))

/-- Together: CompareResults; MaskCountResults; MaskBranchResults. The rules and the model's own choices are named at
each part. -/
def Obligations.CompareAndMaskResults : Prop :=
  Sys2Proof.Slice0.CompareResults ∧
    Sys2Proof.Slice0.MaskCountResults ∧
    Sys2Proof.Slice0.MaskBranchResults

/-- 15 R288: VRAND, VROR and VRXOR write element 0 of vD with the bitwise AND, OR or XOR of the active codes of vA: bit k
of the result is the conjunction, the disjunction or the parity of the bits k. -/
def Sys2Proof.Slice0.LogicReductionResults : Prop :=
  ∀ (s : State) (h : Hart) (e : Hint) (d a : VIx), s.me = some h → unheldVec s h [a.toNat] [d.toNat] →
    let g := atVec h [a.toNat] [d.toNat]
    g.ctl.vstart = 0 → same [d, a] g = true → maskUsable g → fits g s [a.toNat] →
    ∃ x y z : Nat,
      elementsBecome (.vrand e d a) s g d.toNat (widthOf g d) (fun i => i = 0) (fun _ => x) 0 ∧
      elementsBecome (.vror e d a) s g d.toNat (widthOf g d) (fun i => i = 0) (fun _ => y) 0 ∧
      elementsBecome (.vrxor e d a) s g d.toNat (widthOf g d) (fun i => i = 0) (fun _ => z) 0 ∧
      ∀ k, k < widthOf g d →
        x.testBit k = (g.actives.all fun i => (at_ g a i).testBit k) ∧
        y.testBit k = (g.actives.any fun i => (at_ g a i).testBit k) ∧
        z.testBit k = ((g.actives.countP fun i => (at_ g a i).testBit k) % 2 == 1)

/-- Together: SelectResults; BitStringShiftResults; LogicReductionResults. The rules and the model's own choices are
named at each part. -/
def Obligations.SelectShiftAndLogicReduction : Prop :=
  Sys2Proof.Slice0.SelectResults ∧
    Sys2Proof.Slice0.BitStringShiftResults ∧
    Sys2Proof.Slice0.LogicReductionResults

/-! ## Vector arithmetic (15 R276 to R279, R288; 11 R204, R219, R226) -/

namespace Sys2Proof.Slice0

/-- An element-wise arithmetic instruction: its rounding code, destination, sources in the order a, b, d, the tags that
it accepts, and its operation on values (15 R276, R277). -/
structure ArithForm where
  r : RCode
  d : VIx
  srcs : List VIx
  tags : ArithTags
  op : ArithOp

/-- The forms of 15 R277. -/
def arithForm : Instr → Option ArithForm
  | .vadd _ r d a b => some ⟨r, d, [a, b], .mixed, opAdd⟩
  | .vsub _ r d a b => some ⟨r, d, [a, b], .mixed, opSub⟩
  | .vrsub _ r d a b => some ⟨r, d, [a, b], .mixed, opRsub⟩
  | .vmul _ r d a b => some ⟨r, d, [a, b], .mixed, opMul⟩
  | .vmulh _ r d a b => some ⟨r, d, [a, b], .ints, opMulh⟩
  | .vdiv _ r d a b => some ⟨r, d, [a, b], .mixed, opDiv⟩
  | .vrem _ r d a b => some ⟨r, d, [a, b], .mixed, opRem⟩
  | .vmin _ r d a b => some ⟨r, d, [a, b], .own, opMin⟩
  | .vmax _ r d a b => some ⟨r, d, [a, b], .own, opMax⟩
  | .vabs _ r d a => some ⟨r, d, [a], .own, opAbs⟩
  | .vneg _ r d a => some ⟨r, d, [a], .own, opNeg⟩
  | .vfma _ r d a b => some ⟨r, d, [a, b, d], .mixed, opFused false false⟩
  | .vfms _ r d a b => some ⟨r, d, [a, b, d], .mixed, opFused false true⟩
  | .vfnma _ r d a b => some ⟨r, d, [a, b, d], .mixed, opFused true false⟩
  | .vfnms _ r d a b => some ⟨r, d, [a, b, d], .mixed, opFused true true⟩
  | _ => none

/-- The result of one element. -/
def ArithForm.elem (c : ArithForm) (g : Hart) (i : Nat) : ERes :=
  arithElem c.op c.r c.d.toNat (c.srcs.map BitVec.toNat) g i

/-- Every tag is permitted, and the rounding mode is usable where the instruction rounds (15 R273 orders 2 and 4). -/
def ArithForm.allowed (c : ArithForm) (g : Hart) : Prop :=
  c.tags.ok (g.tag c.d.toNat) (c.srcs.map fun v => g.tag v.toNat) = true ∧
    (c.tags = .own ∨ g.allInt (c.d.toNat :: c.srcs.map BitVec.toNat) = true ∨ g.modeOk c.r (g.tagAt c.d.toNat).fmt = true)

/-- The arithmetic-trap enables (12 R229 frm.te). -/
def enables (g : Hart) : Nat := g.ctl.frm.toNat / 256 % 32

/-- What every active element raises. -/
def raised (g : Hart) (f : Nat → ERes) : Nat := g.actives.foldl (fun x i => x ||| (f i).flags ||| (f i).quiet) 0

/-- The exact integer of R277 for an operation on integers a, b, d of a destination of width w, and whether it is a
division by zero, which writes all ones. -/
def integerResult (i : Instr) (w : Nat) (a b d : Int) : Option (Int × Bool) :=
  match i with
  | .vadd _ _ _ _ _ => some (a + b, false)
  | .vsub _ _ _ _ _ => some (a - b, false)
  | .vrsub _ _ _ _ _ => some (b - a, false)
  | .vmul _ _ _ _ _ => some (a * b, false)
  | .vmulh _ _ _ _ _ => some (a * b / 2 ^ w, false)
  | .vdiv _ _ _ _ _ => some (if b = 0 then (-1, true) else (a.tdiv b, false))
  | .vrem _ _ _ _ _ => some (if b = 0 then (-1, true) else (a - b * a.tdiv b, false))
  | .vmin _ _ _ _ _ => some (if a ≤ b then a else b, false)
  | .vmax _ _ _ _ _ => some (if a ≤ b then b else a, false)
  | .vabs _ _ _ _ => some (if a < 0 then -a else a, false)
  | .vneg _ _ _ _ => some (-a, false)
  | .vfma _ _ _ _ _ => some (a * b + d, false)
  | .vfms _ _ _ _ _ => some (a * b - d, false)
  | .vfnma _ _ _ _ _ => some (-(a * b) + d, false)
  | .vfnms _ _ _ _ _ => some (-(a * b) - d, false)
  | _ => none

end Sys2Proof.Slice0

/-- 15 R271, R276, R277: an element-wise arithmetic instruction, when no active element raises a flag whose trap is
enabled, writes each active element of vD with its result delivered to the destination's tag and accrues the union of the
flags; every other element and register is unchanged. -/
def Obligations.ArithmeticResults : Prop :=
  ∀ (i : Instr) (c : ArithForm) (s : State) (h : Hart),
    arithForm i = some c → s.me = some h → unheldVec s h (c.srcs.map BitVec.toNat) [c.d.toNat] →
    let g := atVec h (c.srcs.map BitVec.toNat) [c.d.toNat]
    c.allowed g → maskUsable g → fits g s (c.d.toNat :: c.srcs.map BitVec.toNat) →
    (∀ e ∈ g.actives, (c.elem g e).flags &&& enables g = 0) →
    elementsBecome i s g c.d.toNat (widthOf g c.d) (takesPart g) (fun e => (c.elem g e).code) (raised g (c.elem g))

/-- 15 R277, R278, 11 R204: with integer tags on every register the result is the exact integer of the table modulo 2^w;
a division or remainder by zero writes all ones and raises DZ; nothing else raises a flag, and none of them ever traps,
whatever the enables. -/
def Sys2Proof.Slice0.IntegerArithmeticResults : Prop :=
  ∀ (i : Instr) (c : ArithForm) (s : State) (h : Hart),
    arithForm i = some c → s.me = some h → unheldVec s h (c.srcs.map BitVec.toNat) [c.d.toNat] →
    let g := atVec h (c.srcs.map BitVec.toNat) [c.d.toNat]
    c.allowed g → maskUsable g → fits g s (c.d.toNat :: c.srcs.map BitVec.toNat) →
    (∀ v ∈ c.d :: c.srcs, g.intTag v.toNat = true) →
    ∀ (a b : VIx) (f : Nat → Int × Bool), c.srcs[0]? = some a → c.srcs.getD 1 a = b →
      (∀ e, integerResult i (widthOf g c.d) (g.intAt a.toNat e) (g.intAt b.toNat e) (g.intAt c.d.toNat e)
        = some (f e)) →
      elementsBecome i s g c.d.toNat (widthOf g c.d) (takesPart g) (fun e => ((f e).1 % 2 ^ widthOf g c.d).toNat)
        (if g.actives.any fun e => (f e).2 then 0b01000 else 0)

/-- 15 R278, 11 R205: with f32 tags on every register, an active element of which some source is a NaN becomes the
canonical quiet NaN 0x7FC00000, with NV for a signalling operand. -/
def Sys2Proof.Slice0.NaNOperandGivesQuietNaN : Prop :=
  ∀ (i : Instr) (c : ArithForm) (g : Hart) (e : Nat),
    arithForm i = some c → (∀ v ∈ c.d :: c.srcs, (g.getV v.toNat).tag = 0x0A) →
    let nan := fun v : VIx => at_ g v e / 2 ^ 23 % 2 ^ 8 = 255 ∧ at_ g v e % 2 ^ 23 ≠ 0
    let signalling := fun v : VIx => nan v ∧ at_ g v e / 2 ^ 22 % 2 = 0
    (∃ v ∈ c.srcs, nan v) → c.tags ≠ .ints →
    (c.elem g e).code = 0x7FC00000 ∧
      ((∃ v ∈ c.srcs, signalling v) → (c.elem g e).flags.testBit 4 = true)

/-- Together: IntegerArithmeticResults; NaNOperandGivesQuietNaN. The rules and the model's own choices are named at
each part. -/
def Obligations.ArithmeticLimits : Prop :=
  Sys2Proof.Slice0.IntegerArithmeticResults ∧ Sys2Proof.Slice0.NaNOperandGivesQuietNaN

/-- 11 R226, 15 R271, 10 R187: when an active element raises a flag whose trap is enabled the instruction traps with
cause 0x14; the fault record names the lowest such element; no destination element is written, no flag is accrued and
vstart is kept. -/
def Sys2Proof.Slice0.ArithmeticTrapTaken : Prop :=
  ∀ (i : Instr) (c : ArithForm) (s : State) (h : Hart) (e : Nat),
    arithForm i = some c → s.me = some h → unheldVec s h (c.srcs.map BitVec.toNat) [c.d.toNat] →
    let g := atVec h (c.srcs.map BitVec.toNat) [c.d.toNat]
    c.allowed g → maskUsable g → fits g s (c.d.toNat :: c.srcs.map BitVec.toNat) →
    e ∈ g.actives → (c.elem g e).flags &&& enables g ≠ 0 →
    (∀ k ∈ g.actives, k < e → (c.elem g k).flags &&& enables g = 0) →
    exec i s = .next (takeTrap { cause := 0x14, elem := e } s) ∧
      ∃ t, exec i s = .next t ∧ trapped s t h 0x14 0 ∧
        (h.loads = [] → h.mats = [] → (s.core s.myCore).cmds = [] →
          ∃ q, t.me = some q ∧ q.v = h.v ∧ q.ctl.fflags = h.ctl.fflags ∧ q.ctl.vstart = h.ctl.vstart)

namespace Sys2Proof.Slice0

/-- A special function (15 R279): its rounding code, destination and source, and what element i becomes from the
computation format, the destination's format, the rounding and the operand. -/
structure SpecialForm where
  r : RCode
  d : VIx
  a : VIx
  f : Fmt → Fmt → Rnd → Val → ERes

/-- The special functions. Those that are not correctly rounded are free values of the operand outside their exact cases
(log entry 8). -/
def specialForm : Instr → Option SpecialForm
  | .vsqrt _ r d a => some ⟨r, d, a, exactly sqrtV⟩
  | .vrcp _ r d a => some ⟨r, d, a, exactly rcpV⟩
  | .vrsq _ r d a => some ⟨r, d, a, within .rsq⟩
  | .vexp2 _ r d a => some ⟨r, d, a, within .exp2⟩
  | .vlog2 _ r d a => some ⟨r, d, a, within .log2⟩
  | .vsin _ r d a => some ⟨r, d, a, within .sin⟩
  | .vcos _ r d a => some ⟨r, d, a, within .cos⟩
  | .vtanh _ r d a => some ⟨r, d, a, within .tanh⟩
  | _ => none

/-- The result of one element. -/
def SpecialForm.elem (c : SpecialForm) (g : Hart) (i : Nat) : ERes :=
  c.f (compFmt [g.tagAt c.a.toNat] (g.tagAt c.d.toNat)) (g.tagAt c.d.toNat).fmt (g.rnd (g.modeD c.r) i)
    (g.elem c.a.toNat (g.tagAt c.a.toNat) i)

end Sys2Proof.Slice0

/-- 15 R279: a special function writes each active element of vD with its result and accrues the flags, when none of them
traps. Outside the cases that R279 names exactly, six of the eight results are free values (log entry 8). -/
def Sys2Proof.Slice0.SpecialFunctionResults : Prop :=
  ∀ (i : Instr) (c : SpecialForm) (s : State) (h : Hart),
    specialForm i = some c → s.me = some h → unheldVec s h [c.a.toNat] [c.d.toNat] →
    let g := atVec h [c.a.toNat] [c.d.toNat]
    specialTags (g.tag c.d.toNat) (g.tag c.a.toNat) = true → g.modeOk c.r (g.tagAt c.d.toNat).fmt = true →
    maskUsable g → fits g s [c.d.toNat, c.a.toNat] →
    (∀ e ∈ g.actives, (c.elem g e).flags &&& enables g = 0) →
    elementsBecome i s g c.d.toNat (widthOf g c.d) (takesPart g) (fun e => (c.elem g e).code) (raised g (c.elem g))

/-- 15 R279, table: the special values of the special functions with f32 registers, by operand code: zeros, infinities
and negative operands, with the result's code and flags, in every mode. -/
def Sys2Proof.Slice0.SpecialFunctionTable : Prop :=
  ∀ (i : Instr) (c : SpecialForm) (g : Hart) (e : Nat),
    specialForm i = some c → (g.getV c.d.toNat).tag = 0x0A → (g.getV c.a.toNat).tag = 0x0A →
    let x := at_ g c.a e
    let y := (c.elem g e).code
    let fl := (c.elem g e).flags
    match i with
    | .vsqrt _ _ _ _ => (x = 0x80000000 → y = 0x80000000 ∧ fl = 0) ∧ (x = 0x7F800000 → y = 0x7F800000 ∧ fl = 0) ∧
        (0x80000000 < x → x ≤ 0xFF800000 → y = 0x7FC00000 ∧ fl = 16)
    | .vrcp _ _ _ _ => (x = 0 → y = 0x7F800000 ∧ fl = 8) ∧ (x = 0x80000000 → y = 0xFF800000 ∧ fl = 8) ∧
        (x = 0x7F800000 → y = 0 ∧ fl = 0) ∧ (x = 0xFF800000 → y = 0x80000000 ∧ fl = 0)
    | .vrsq _ _ _ _ => (x = 0 → y = 0x7F800000 ∧ fl = 8) ∧ (x = 0x80000000 → y = 0xFF800000 ∧ fl = 8) ∧
        (x = 0x7F800000 → y = 0 ∧ fl = 0) ∧ (0x80000000 < x → x ≤ 0xFF800000 → y = 0x7FC00000 ∧ fl = 16)
    | .vexp2 _ _ _ _ => (x = 0xFF800000 → y = 0 ∧ fl = 0) ∧ (x = 0x7F800000 → y = 0x7F800000 ∧ fl = 0) ∧
        (x = 0 → y = 0x3F800000 ∧ fl = 0)
    | .vlog2 _ _ _ _ => (x = 0 ∨ x = 0x80000000 → y = 0xFF800000 ∧ fl = 8) ∧ (x = 0x7F800000 → y = 0x7F800000 ∧ fl = 0) ∧
        (0x80000000 < x → x ≤ 0xFF800000 → y = 0x7FC00000 ∧ fl = 16)
    | .vsin _ _ _ _ => (x = 0 → y = 0 ∧ fl = 0) ∧ (x = 0x80000000 → y = 0x80000000 ∧ fl = 0) ∧
        (x = 0x7F800000 ∨ x = 0xFF800000 → y = 0x7FC00000 ∧ fl = 16)
    | .vcos _ _ _ _ => (x = 0 ∨ x = 0x80000000 → y = 0x3F800000 ∧ fl = 0) ∧
        (x = 0x7F800000 ∨ x = 0xFF800000 → y = 0x7FC00000 ∧ fl = 16)
    | .vtanh _ _ _ _ => (x = 0 → y = 0 ∧ fl = 0) ∧ (x = 0x80000000 → y = 0x80000000 ∧ fl = 0) ∧
        (x = 0x7F800000 → y = 0x3F800000 ∧ fl = 0) ∧ (x = 0xFF800000 → y = 0xBF800000 ∧ fl = 0)
    | _ => True

/-- Together: SpecialFunctionResults; SpecialFunctionTable. The rules and the model's own choices are named at each
part. -/
def Obligations.SpecialFunctions : Prop :=
  Sys2Proof.Slice0.SpecialFunctionResults ∧ Sys2Proof.Slice0.SpecialFunctionTable

namespace Sys2Proof.Slice0

/-- The reductions that round or compare (15 R288): rounding code, destination, sources, whether element 0 of the
destination is the start value, so that it is read too, tags, and what element 0 receives. -/
structure ReduceForm where
  r : RCode
  d : VIx
  srcs : List VIx
  start : Bool
  tags : ArithTags
  f : Hart → State → ERes

/-- The registers that it reads. -/
def ReduceForm.reads (c : ReduceForm) : List Nat :=
  if c.start then c.d.toNat :: c.srcs.map BitVec.toNat else c.srcs.map BitVec.toNat

def reduceForm : Instr → Option ReduceForm
  | .vrsum _ r d a => some ⟨r, d, [a], true, .mixed, sumElem r d.toNat [a.toNat]⟩
  | .vrdot _ r d a b => some ⟨r, d, [a, b], true, .mixed, sumElem r d.toNat [a.toNat, b.toNat]⟩
  | .vrmin _ r d a => some ⟨r, d, [a], false, .own, fun g _ => extremeElem false a.toNat g⟩
  | .vrmax _ r d a => some ⟨r, d, [a], false, .own, fun g _ => extremeElem true a.toNat g⟩
  | _ => none

/-- Element e of a register is a signalling NaN (11 R205). -/
def signals (g : Hart) (a : VIx) (e : Nat) : Prop := sigFlag [g.elem a.toNat (g.tagAt a.toNat) e] ≠ 0

end Sys2Proof.Slice0

/-- 15 R288: a reduction with vstart = 0 writes element 0 of vD and nothing else of it, whatever the mask holds. When it
raises a flag whose trap is enabled it traps with 0x14, and the record of VRMIN and VRMAX names the lowest active element
that is a signalling NaN (11 R226). With integer tags VRSUM and VRDOT write the exact sum of element 0 of vD and the active
elements, or products, modulo 2^w, and VRMIN and VRMAX an active element below or above which no active element lies. -/
def Obligations.ReductionResults : Prop :=
  ∀ (i : Instr) (c : ReduceForm) (s : State) (h : Hart),
    reduceForm i = some c → s.me = some h →
    unheldVec s h c.reads [c.d.toNat] →
    let g := atVec h c.reads [c.d.toNat]
    g.ctl.vstart = 0 →
    c.tags.ok (g.tag c.d.toNat) (c.srcs.map fun v => g.tag v.toNat) = true → maskUsable g →
    (c.tags = .own ∨ g.allInt (c.d.toNat :: c.srcs.map BitVec.toNat) = true ∨
      g.modeOk c.r (g.tagAt c.d.toNat).fmt = true) →
    fits g s (c.srcs.map BitVec.toNat) →
    ((c.f g s).flags &&& enables g = 0 →
      elementsBecome i s g c.d.toNat (widthOf g c.d) (fun e => e = 0) (fun _ => (c.f g s).code)
        ((c.f g s).flags ||| (c.f g s).quiet)) ∧
    ((c.f g s).flags &&& enables g ≠ 0 → ∃ t, exec i s = .next t ∧ trapped s t h 0x14 0 ∧
      ∀ a ∈ c.srcs, c.start = false → ∀ e ∈ g.actives, signals g a e → (∀ k ∈ g.actives, k < e → ¬signals g a k) →
        t.readPA (h.area + 0x5C) 4 = e) ∧
    ((∀ v ∈ c.d :: c.srcs, g.intTag v.toNat = true) → (c.f g s).flags = 0 ∧ (c.f g s).quiet = 0 ∧
      match i with
      | .vrsum _ _ d a => (c.f g s).code =
          ((g.intAt d.toNat 0 + (g.actives.map fun e => g.intAt a.toNat e).sum) % 2 ^ widthOf g d).toNat
      | .vrdot _ _ d a b => (c.f g s).code =
          ((g.intAt d.toNat 0 + (g.actives.map fun e => g.intAt a.toNat e * g.intAt b.toNat e).sum) % 2 ^ widthOf g d).toNat
      | .vrmin _ _ _ a => g.actives ≠ [] → ∃ e ∈ g.actives, (c.f g s).code = at_ g a e ∧
          ∀ k ∈ g.actives, g.intAt a.toNat e ≤ g.intAt a.toNat k
      | .vrmax _ _ _ a => g.actives ≠ [] → ∃ e ∈ g.actives, (c.f g s).code = at_ g a e ∧
          ∀ k ∈ g.actives, g.intAt a.toNat k ≤ g.intAt a.toNat e
      | _ => True)

/-! ## Conversion and transformation (16 R291 to R303; 11 R207, R220) -/

namespace Sys2Proof.Slice0

/-- A vector tag of an element format that is not m1. -/
def element (t : Tag) : Bool := t.fmt ≠ .m1

/-- An unscaled tag of f16, bf16, f32 or f64. -/
def ieee (t : Tag) : Bool := t.scale = none && t.fmt.isIeee

/-- The least and the greatest integer of an integer format. -/
def least (f : Fmt) : Int := if f.isSigned then -(2 ^ (f.width - 1)) else 0
def greatest (f : Fmt) : Int := if f.isSigned then 2 ^ (f.width - 1) - 1 else 2 ^ f.width - 1

/-- The value of element i of a register under a format and a scale byte (11 R208). -/
def scaledAt (g : Hart) (v : VIx) (f : Fmt) (byte i : Nat) : Val := scaled byte (f.value (at_ g v i))

/-- Scale byte b of a half of a scale register (12 R227). -/
def scaleByte (g : Hart) (k half b : Nat) : Nat := elt (g.getK k).bits.toNat 8 (128 * half + b)

end Sys2Proof.Slice0

/-- 16 R294, R297: VCVT converts each active element to vD's format in its rounding mode, and between integer tags
saturates without a flag; VDQMX does so with the scale byte of the named register and half for the element's block. -/
def Sys2Proof.Slice0.ConversionResults : Prop :=
  ∀ (s : State) (h : Hart) (e : Hint) (r : RCode) (d a : VIx), s.me = some h → unheldVec s h [a.toNat] [d.toNat] →
    let g := atVec h [a.toNat] [d.toNat]
    let td := g.tagAt d.toNat
    let ta := g.tagAt a.toNat
    let rnd := fun i => g.rnd (g.modeD r) i
    maskUsable g → fits g s [d.toNat, a.toNat] →
    (tagIs (g.tag a.toNat) element = true → tagIs (g.tag d.toNat) (fun t => element t && decide (t.scale = none)) = true →
      (g.intTag a.toNat = true → g.intTag d.toNat = true →
        elementsBecome (.vcvt e r d a) s g d.toNat (widthOf g d) (takesPart g) (fun i =>
          (max (least td.fmt) (min (greatest td.fmt) (g.intAt a.toNat i)) % 2 ^ widthOf g d).toNat) 0) ∧
      ((g.intTag a.toNat && g.intTag d.toNat) = false → g.modeOk r td.fmt = true →
        let p := fun i => convert td.fmt (rnd i) (g.elem a.toNat ta i)
        (∀ i ∈ g.actives, (p i).2 &&& enables g = 0) →
        elementsBecome (.vcvt e r d a) s g d.toNat (widthOf g d) (takesPart g) (fun i => (p i).1)
          (g.actives.foldl (fun f i => f ||| (p i).2) 0))) ∧
    ∀ (k : KIx) (half : Half),
      tagIs (g.tag a.toNat) (fun t => decide (t.scale = none) && t.fmt.isMx) = true → tagIs (g.tag d.toNat) ieee = true →
      g.modeOk r td.fmt = true → g.ctl.vstart = 0 →
      let p := fun i => convert td.fmt (rnd i)
        (scaledAt g a ta.fmt (scaleByte g k.toNat (if half = .hi then 1 else 0) (i / 32)) i)
      (∀ i ∈ g.actives, (p i).2 &&& enables g = 0) →
      elementsBecome (.vdqmx e r d a k half) s g d.toNat (widthOf g d) (takesPart g) (fun i => (p i).1)
        (g.actives.foldl (fun f i => f ||| (p i).2) 0)

namespace Sys2Proof.Slice0

/-- Active elements of block b of 32. -/
def blockActives (g : Hart) (b : Nat) : List Nat := g.actives.filter fun i => i / 32 = b

/-- Exponent of the largest power of two that an MX format holds (11 R207). -/
def largest : Fmt → Int
  | .e4m3 => 8
  | .e5m2 => 15
  | .e3m2 => 4
  | .e2m3 | .e2m1 => 2
  | _ => 0

/-- The scale byte of a block of active values (11 R220): 0xFF with a NaN or an infinity among them, 0 when all are
zero, else the exponent of the greatest magnitude less that of the format, plus 127, held to 0 to 254. -/
def scaleGiven (f : Fmt) (xs : List Val) (byte : Nat) : Prop :=
  ((∃ v ∈ xs, v.isNan = true ∨ v.isInf = true) → byte = 0xFF) ∧
  ((∀ v ∈ xs, v.isNan = false ∧ v.isInf = false) →
    ((∀ v ∈ xs, v.isZero = true) → byte = 0) ∧
    ∀ d : Dy, .fin d ∈ xs → d.mag ≠ 0 → (∀ q : Dy, .fin q ∈ xs → q.mag ≠ 0 → q.top ≤ d.top) →
      (byte : Int) = max 0 (min 254 (d.top - largest f + 127)))

/-- Values x quantised to a format: the scale byte of every block below vl, and for each active element the code and
the flags of its value over its scale, or of the value itself under the NaN scale. -/
def quantisedTo (g : Hart) (f : Fmt) (m : RMode) (x : Nat → Val) (byte : Nat → Nat) (q : Nat → Nat × Nat) : Prop :=
  (∀ b, 32 * b < g.ctl.vl.toNat % 2 ^ 32 → scaleGiven f ((blockActives g b).map x) (byte b)) ∧
  ∀ i ∈ g.actives, q i = convert f (g.rnd m i)
    (match x i with
     | .fin d => .fin (if byte (i / 32) = 0xFF then d else d.shift (127 - (byte (i / 32) : Int)))
     | v => v)

/-- Registers after a quantisation: d holds the codes of the active elements, with zeros above the last whole element
where the width does not divide the register (11 R203), and of the scale register k the bytes of the blocks below vl in
the half are written. -/
def scalesWritten (s : State) (g : Hart) (d : VIx) (k half : Nat) (q : Nat → Nat × Nat) (byte : Nat → Nat) (r : VReg)
    (x : BitVec 2048) : Prop :=
  let cut := s.vlen % widthOf g d ≠ 0 ∧ g.actives ≠ []
  r.tag = (g.getV d.toNat).tag ∧
  (cut → r.bits.toNat < 2 ^ (s.vlen / widthOf g d * widthOf g d)) ∧
  (∀ e, (e + 1) * widthOf g d ≤ 16384 → (cut → (e + 1) * widthOf g d ≤ s.vlen) →
    elt r.bits.toNat (widthOf g d) e = if e ∈ g.actives then (q e).1 % 2 ^ widthOf g d
      else elt (g.getV d.toNat).bits.toNat (widthOf g d) e) ∧
  ∀ b, b < 256 → elt x.toNat 8 b =
    if 128 * half ≤ b ∧ 32 * (b - 128 * half) < g.ctl.vl.toNat % 2 ^ 32 then byte (b - 128 * half) % 256
    else elt (g.getK k).bits.toNat 8 b

/-- The hart with its scale register written, when some block lies below vl. -/
def putScale (h g : Hart) (k : Nat) (x : BitVec 2048) : Hart := if g.ctl.vl.toNat % 2 ^ 32 = 0 then h else h.setK k x

end Sys2Proof.Slice0

/-- 16 R295, R298, 11 R220: VQMX writes vD's codes and the scale bytes of its blocks; VQEF quantises the sums of vA and vB
so, and leaves in vB each active element's residual, +0.0 where that is exactly zero or the block has the NaN scale. The
flags of every rounding are accrued, when none of them traps. -/
def Sys2Proof.Slice0.QuantiseResults : Prop :=
  (∀ (s : State) (h : Hart) (e : Hint) (r : RCode) (d a : VIx) (k half : Nat), s.me = some h →
    unheldVec s h [a.toNat] [d.toNat] →
    let g := atVec h [a.toNat] [d.toNat]
    g.ctl.vstart = 0 → tagIs (g.tag a.toNat) ieee = true → (g.tagAt d.toNat).scale = some (k, half) →
    g.modeOk r (g.tagAt d.toNat).fmt = true → maskUsable g → fits g s [d.toNat, a.toNat] →
    ∃ byte q, quantisedTo g (g.tagAt d.toNat).fmt (g.modeD r) (g.elem a.toNat (g.tagAt a.toNat)) byte q ∧
      ((∀ i ∈ g.actives, (q i).2 &&& enables g = 0) →
        ∃ x y, exec (.vqmx e r d a) s = .next (s.setMe (vectorDone (putScale (g.setV d.toNat x) g k y)
            (g.actives.foldl (fun f i => f ||| (q i).2) 0))) ∧
          scalesWritten s g d k half q byte x y)) ∧
  ∀ (s : State) (h : Hart) (e : Hint) (r : RCode) (d a b : VIx) (k half : Nat), s.me = some h →
    unheldVec s h [a.toNat, b.toNat] [d.toNat, b.toNat] →
    let g := atVec h [a.toNat, b.toNat] [d.toNat, b.toNat]
    let f := (g.tagAt d.toNat).fmt
    g.ctl.vstart = 0 → (g.getV a.toNat).tag = 0x0A → (g.getV b.toNat).tag = 0x0A →
    (g.tagAt d.toNat).scale = some (k, half) → (f = .e4m3 ∨ f = .e5m2) →
    g.modeOk r f = true → maskUsable g → fits g s [d.toNat, a.toNat, b.toNat] →
    let sum := fun i => addC .f32 (Fmt.value .f32 (at_ g a i), 0) (Fmt.value .f32 (at_ g b i), 0)
    ∃ byte q, quantisedTo g f (g.modeD r) (fun i => (sum i).1) byte q ∧
      let diff := fun i => addV false (sum i).1 (negV (scaled (byte (i / 32)) (f.value (q i).1)))
      let rest := fun i => if byte (i / 32) = 0xFF then (0, 0)
        else if (diff i).v.isZero then (0, (diff i).flags)
        else ((convert .f32 Rnd.rne (diff i).v).1, (diff i).flags ||| (convert .f32 Rnd.rne (diff i).v).2)
      let fl := fun i => (q i).2 ||| (rest i).2 ||| (sum i).2
      ((∀ i ∈ g.actives, fl i &&& enables g = 0) →
        ∃ x y z, exec (.vqef e r d a b) s = .next (s.setMe (vectorDone
            (putScale ((g.setV d.toNat x).setV b.toNat z) g k y) (g.actives.foldl (fun f i => f ||| fl i) 0))) ∧
          scalesWritten s g d k half q byte x y ∧ z.tag = 0x0A ∧
          ∀ i, i < 512 → elt z.bits.toNat 32 i =
            if i ∈ g.actives then (rest i).1 % 2 ^ 32 else at_ g b i)

/-- Together: ConversionResults; QuantiseResults. The rules and the model's own choices are named at each part. -/
def Obligations.ConversionAndQuantisation : Prop :=
  Sys2Proof.Slice0.ConversionResults ∧ Sys2Proof.Slice0.QuantiseResults

/-- 16 R299, R300: VUNPK spreads the fields of width F at offset O of vA's bit string over vD's elements, zero- or
sign-extended; VPKB packs the low F bits of vA's active elements into vD's bit string at O, and discards what would land
above V or above vD's last whole element. VPKB keeps every other bit of vD, also above the last whole element of a 6-bit tag,
where R203 has zeros (log entry 103, DEDUCED). The descriptor is x(B): F in bits 6:0, the sign in bit 7, O in bits 23:8. -/
def Sys2Proof.Slice0.BitFieldResults : Prop :=
  ∀ (s : State) (h : Hart) (e : Hint) (d a : VIx) (b : XIx), s.me = some h →
    let n := (h.getX b).toNat
    let f := n % 128
    let o := n / 256 % 65536
    n / 2 ^ 24 = 0 → f ≠ 0 →
    (unheldVec s h [a.toNat] [d.toNat] →
      let g := atVec h [a.toNat] [d.toNat]
      g.intTag d.toNat = true → tagIs (g.tag a.toNat) element = true → f ≤ widthOf g d → maskUsable g →
      fits g s [d.toNat] →
      elementsBecome (.vunpk e d a b) s g d.toNat (widthOf g d) (takesPart g) (fun i =>
        let c := (g.getV a.toNat).bits.toNat % 2 ^ s.vlen / 2 ^ (o + i * f) % 2 ^ f
        if n.testBit 7 then (sgn f c % 2 ^ widthOf g d).toNat else c) 0) ∧
    (unheldVec s h [a.toNat, d.toNat] [d.toNat] →
      let g := atVec h [a.toNat, d.toNat] [d.toNat]
      g.intTag a.toNat = true → tagIs (g.tag d.toNat) element = true → f ≤ widthOf g a → n.testBit 7 = false →
      maskUsable g → fits g s [a.toNat] →
      let top := (g.tagAt d.toNat).capacity s.vlen * widthOf g d
      ∃ r : VReg, exec (.vpkb e d a b) s = .next (s.setMe (vectorDone (g.setV d.toNat r) 0)) ∧
        r.tag = (g.getV d.toNat).tag ∧
        ∀ p, p < 16384 →
          (p < top → ∀ i ∈ g.actives, o + i * f ≤ p → p < o + (i + 1) * f →
              r.bits.getLsbD p = (at_ g a i).testBit (p - (o + i * f))) ∧
          (top ≤ p ∨ (∀ i ∈ g.actives, p < o + i * f ∨ o + (i + 1) * f ≤ p) →
            r.bits.getLsbD p = (g.getV d.toNat).bits.getLsbD p))

/-- 16 R301, R302: VLUT replaces each index by the entry of the table that registers from vB hold; VEXPD puts the first
elements of vA into the active positions of vD, and VCMPR the active elements of vA into the first positions. -/
def Sys2Proof.Slice0.LookupAndPackResults : Prop :=
  (∀ (s : State) (h : Hart) (e : Hint) (d a b : VIx), s.me = some h →
    let ns := (List.range ((256 * widthOf h b + s.vlen - 1) / s.vlen)).map (b.toNat + ·)
    unheldVec s h (a.toNat :: ns) [d.toNat] →
    let g := atVec h (a.toNat :: ns) [d.toNat]
    widthOf g b = widthOf h b → (∀ n ∈ ns, n < 64) →
    g.intTag a.toNat = true → (g.tag b.toNat).isSome = true →
    tagIs (g.tag d.toNat) (fun t => element t && decide (t.width = widthOf g b)) = true →
    maskUsable g → fits g s [d.toNat, a.toNat] →
    ∃ f : Nat → Nat, elementsBecome (.vlut e d a b) s g d.toNat (widthOf g b) (takesPart g) f 0 ∧
      ∀ i j, i ∈ g.actives → j < widthOf g b →
        let p := at_ g a i % 256 * widthOf g b + j
        (f i).testBit j = (g.getV (b.toNat + p / s.vlen)).bits.getLsbD (p % s.vlen)) ∧
  ∀ (s : State) (h : Hart) (e : Hint) (d a : VIx), s.me = some h → unheldVec s h [a.toNat] [d.toNat] →
    let g := atVec h [a.toNat] [d.toNat]
    g.ctl.vstart = 0 → same [d, a] g = true → maskUsable g → fits g s [d.toNat, a.toNat] →
    elementsBecome (.vexpd e d a) s g d.toNat (widthOf g d) (takesPart g)
      (fun i => at_ g a (g.actives.countP fun k => decide (k < i))) 0 ∧
    elementsBecome (.vcmpr e d a) s g d.toNat (widthOf g d) (fun k => k < g.actives.length)
      (fun k => at_ g a (g.actives.getD k 0)) 0

/-- 16 R303: KMOV copies a scale register, or moves bytes between the active elements of a byte register and the window
of 64 m bytes and up of a scale register; no other byte changes. -/
def Sys2Proof.Slice0.ScaleRegisterMoves : Prop :=
  (∀ (s : State) (h : Hart) (e : Hint) (d a : KIx), s.me = some h → unheld s h [] [] →
    let g := atRegs h [] []
    completes (.kmov e (.kk d a)) s (vectorDone (g.setK d.toNat (g.getK a.toNat).bits) 0)) ∧
  (∀ (s : State) (h : Hart) (e : Hint) (d : VIx) (a : KIx) (m : BitVec 2), s.me = some h → unheldVec s h [] [d.toNat] →
    let g := atVec h [] [d.toNat]
    tagIs (g.tag d.toNat) (fun t => decide (t.scale = none) && (t.fmt = .i8 || t.fmt = .n8)) = true → maskUsable g →
    fits g s [d.toNat] → g.ctl.vl.toNat % 2 ^ 32 + 64 * m.toNat ≤ 256 →
    elementsBecome (.kmov e (.vk d a m)) s g d.toNat 8 (takesPart g)
      (fun i => elt (g.getK a.toNat).bits.toNat 8 (64 * m.toNat + i)) 0) ∧
  ∀ (s : State) (h : Hart) (e : Hint) (d : KIx) (a : VIx) (m : BitVec 2), s.me = some h → unheldVec s h [a.toNat] [] →
    let g := atVec h [a.toNat] []
    tagIs (g.tag a.toNat) (fun t => decide (t.scale = none) && (t.fmt = .i8 || t.fmt = .n8)) = true → maskUsable g →
    fits g s [a.toNat] → g.ctl.vl.toNat % 2 ^ 32 + 64 * m.toNat ≤ 256 →
    (g.actives = [] → completes (.kmov e (.kv d a m)) s (vectorDone g 0)) ∧
    (g.actives ≠ [] → ∃ x : BitVec 2048, completes (.kmov e (.kv d a m)) s (vectorDone (g.setK d.toNat x) 0) ∧
      ∀ b, b < 256 → elt x.toNat 8 b =
        if 64 * m.toNat ≤ b ∧ b - 64 * m.toNat ∈ g.actives then at_ g a (b - 64 * m.toNat) % 256
        else elt (g.getK d.toNat).bits.toNat 8 b)

/-- Together: BitFieldResults; LookupAndPackResults; ScaleRegisterMoves. The rules and the model's own choices are
named at each part. -/
def Obligations.PackLookupAndScaleMoves : Prop :=
  Sys2Proof.Slice0.BitFieldResults ∧
    Sys2Proof.Slice0.LookupAndPackResults ∧
    Sys2Proof.Slice0.ScaleRegisterMoves

/-! ## Vector memory (17 R304 to R318; 01 R23; 03 R45; 04 R81) -/

namespace Sys2Proof.Slice0

/-- What a vector load or store moves: its elements in order, their width, and the segment offset of each. -/
structure VecAccess where
  g : GIx
  col : Bool
  w : Nat
  els : List Nat
  off : Nat → Word

/-- The accesses of an element (17 R304, R306): one of its width, or one for each byte that a narrow element touches. -/
def VecAccess.runs (m : VecAccess) (i : Nat) : List (Word × Nat) :=
  if 8 ≤ m.w then [(m.off i, m.w / 8)]
  else (List.range ((i * m.w % 8 + m.w + 7) / 8)).map fun j => (m.off i + BitVec.ofNat 64 j, 1)

/-- The base offset of a form with an offset field (12 R232): the scale is the element width in bytes, 1 for a narrow
element. -/
def startOf (g : Hart) (b : XIx) (off : BitVec 8) (w : Nat) : Word :=
  g.getX b + BitVec.ofInt 64 (off.toInt * max 1 (w / 8))

/-- Offsets of the elements by form: consecutive, strided by `vs`, in two dimensions of `mrow` rows with `vs` and `vt`, or
indexed (17 R304, R311, R312). -/
def unitAt (g : Hart) (b : XIx) (off : BitVec 8) (w i : Nat) : Word := startOf g b off w + BitVec.ofNat 64 (i * w / 8)
def strideAt (g : Hart) (b : XIx) (off : BitVec 8) (w i : Nat) : Word :=
  startOf g b off w + BitVec.ofNat 64 i * g.ctl.vs
def planeAt (g : Hart) (b : XIx) (off : BitVec 8) (w i : Nat) : Word :=
  startOf g b off w + BitVec.ofNat 64 (i % (g.ctl.mrow.toNat % 128)) * g.ctl.vs
    + BitVec.ofNat 64 (i / (g.ctl.mrow.toNat % 128)) * g.ctl.vt
def indexAt (g : Hart) (b : XIx) (x : VIx) (i : Nat) : Word := g.getX b + BitVec.ofInt 64 (g.intAt x.toNat i)

/-- Words of a whole register or scale register from `vstart` on (17 R314, R315). -/
def wordsFrom (g : Hart) (n : Nat) : List Nat := (List.range n).filter fun k => g.ctl.vstart.toNat % 2 ^ 32 ≤ k

/-- A vector load: its vector registers read and written, its access, and whether its own conditions of R273 and R314
hold. -/
structure VecForm where
  reads : List Nat
  writes : List Nat
  access : Hart → Nat → VecAccess
  usable : Hart → State → Prop

/-- The conditions of the forms that take the mask, the tag of d and `vl`. -/
def masked (d : VIx) (narrow : Bool) (more : Hart → State → Prop) (g : Hart) (s : State) : Prop :=
  tagIs (g.tag d.toNat) (fun t => element t && (narrow || decide (8 ≤ t.width))) = true ∧ maskUsable g ∧
    fits g s [d.toNat] ∧ more g s

/-- The masked forms of a vector register d. -/
def byElement (h : Hart) (store : Bool) (extra : List Nat) (d : VIx) (o : Orient) (s : GIx) (off : Hart → Nat → Nat → Word)
    (narrow : Bool) (more : Hart → State → Prop) : VecForm where
  reads := (if store then d.toNat :: extra else extra) ++ h.maskRegs
  writes := if store then [] else [d.toNat]
  access g _ := { g := s, col := o = .col, w := widthOf g d, els := g.actives, off := off g (widthOf g d) }
  usable := masked d narrow more

/-- A usable index register, and rows for the two-dimensional forms. -/
def indexOk (x : VIx) (g : Hart) (s : State) : Prop := g.intTag x.toNat = true ∧ fits g s [x.toNat]
def rowsOk (g : Hart) (_ : State) : Prop := g.ctl.mrow.toNat % 128 ≠ 0
def always (_ : Hart) (_ : State) : Prop := True

/-- The whole-register forms: 8-byte words, at an offset that is a multiple of 64. -/
def byWord (reads writes : List Nat) (b : XIx) (off : BitVec 8) (scale : Int) (s : GIx) (n : Nat → Nat) : VecForm where
  reads := reads
  writes := writes
  access g vlen := { g := s, col := false, w := 64, els := wordsFrom g (n vlen),
                     off := fun k => g.getX b + BitVec.ofInt 64 (off.toInt * scale) + BitVec.ofNat 64 (8 * k) }
  usable g _ := (g.getX b + BitVec.ofInt 64 (off.toInt * scale)).toNat % 64 = 0

/-- The vector loads. -/
def vecLoad (h : Hart) : Instr → Option VecForm
  | .vld off o s b d | .vldf off o s b d => some (byElement h false [] d o s (fun g => unitAt g b off) true always)
  | .vlds off o s b d => some (byElement h false [] d o s (fun g => strideAt g b off) false always)
  | .vld2 off o s b d => some (byElement h false [] d o s (fun g => planeAt g b off) false rowsOk)
  | .vldx x _ s b d => some (byElement h false [x.toNat] d .row s (fun g _ => indexAt g b x) false (indexOk x))
  | .vldw off s b d => some (byWord [] [d.toNat] b off 64 s (· / 64))
  | .kld off s b _ => some (byWord [] [] b off 256 s fun _ => 32)
  | _ => none

/-- The vector stores, with the code that each element stores. -/
def vecStore (h : Hart) : Instr → Option (VecForm × (Hart → Nat → Nat))
  | .vst off o s b d => some (byElement h true [] d o s (fun g => unitAt g b off) true always, fun g => at_ g d)
  | .vsts off o s b d => some (byElement h true [] d o s (fun g => strideAt g b off) false always, fun g => at_ g d)
  | .vst2 off o s b d => some (byElement h true [] d o s (fun g => planeAt g b off) false rowsOk, fun g => at_ g d)
  | .vstx x _ s b d =>
    some (byElement h true [x.toNat] d .row s (fun g _ => indexAt g b x) false (indexOk x), fun g => at_ g d)
  | .vstw off s b d => some (byWord [d.toNat] [] b off 64 s (· / 64), fun g => elt (g.getV d.toNat).bits.toNat 64)
  | .kst off s b d => some (byWord [] [] b off 256 s fun _ => 32, fun g => elt (g.getK d.toNat).bits.toNat 64)
  | _ => none

/-- The virtual address of the row view that an access of an element reaches under a filter entry (02 R28). -/
def VecAccess.cell (m : VecAccess) (g : Hart) (off : Word) (e : FilterEntry) : Nat :=
  let va := segBase (g.getG m.g.toNat) + off.toNat
  if m.col then colCell e.attr.tclass va else va

/-- The segment and the page grant one access of an element (01 R22, 02 R31). -/
def VecAccess.granted (m : VecAccess) (s : State) (g : Hart) (off : Word) (n : Nat) (e : FilterEntry) (r w : Bool) : Prop :=
  segGrants (g.getG m.g.toNat) off n r w ∧
  (s.core s.myCore).filter.find? (fun q => q.covers g.spaceTag (segBase (g.getG m.g.toNat) + off.toNat)) = some e ∧
  e.pd = false ∧ (r = true → e.attr.r = true) ∧ (w = true → e.attr.w = true) ∧ (e.attr.s = true → g.user = false) ∧
  (m.col = true → e.attr.tclass ≠ .untiled ∧ 8 * e.attr.tclass.width = m.w) ∧ e.attr.mc = .normal

/-- A frame of the core's L1 holds n bytes at an address of the hart's space, all present, none poisoned, and none of them
in a buffered entry of the hart. -/
def nearBytes (s : State) (g : Hart) (cell n : Nat) (f : Frame) : Prop :=
  notBuffered (s.core s.myCore) s.mySlot g.spaceTag cell n ∧
  (∀ k, k < n → Cache.find (s.core s.myCore).l1 g.spaceTag (cell + k) = some f) ∧
    f.rows.length = f.tclass.rows ∧ f.base % 128 = 0 ∧
  ∀ k, k < n → f.present (cell + k) = true ∧ (f.byte (cell + k)).2 = false

/-- x is the number whose bytes, lowest first, an access reads in the L1. -/
def VecAccess.readsAs (m : VecAccess) (s : State) (g : Hart) (off : Word) (n x : Nat) : Prop :=
  ∃ e f, m.granted s g off n e true false ∧ nearBytes s g (m.cell g off e) n f ∧
    x = ofBytes ((List.range n).map fun k => (f.byte (m.cell g off e + k)).1)

/-- y is the number of the bytes that element i touches: every access of it reads its part. -/
def VecAccess.holds (m : VecAccess) (s : State) (g : Hart) (i y : Nat) : Prop :=
  y < 256 ^ ((m.runs i).map (·.2)).sum ∧
  ∀ j p, (m.runs i)[j]? = some p → m.readsAs s g p.1 p.2 (y / 256 ^ j % 256 ^ p.2)

/-- A hart that owes its registers some loads more: each takes its entries in the load-data queue, of which there are 16; a
load that finds too few free waits while the oldest ones are delivered (08 R164, 09 R174). -/
def owed (g : Hart) (l : List PendingLoad) : Hart := l.foldl Hart.owe g

/-- The register that a load makes pending in a machine of vector length v holds the loaded codes, and its other elements
are as before; where the width does not divide the register, a load of elements leaves zeros above the last whole one (11
R203). -/
def loadedInto (i : Instr) (v : Nat) (g : Hart) (m : VecAccess) (y : Nat → Nat) (p : PendingLoad) : Prop :=
  let code := fun e => y e / 2 ^ (e * m.w % 8) % 2 ^ m.w
  match i, p with
  | .kld _ _ _ d, .k c r => c = d ∧ r.dirty = true ∧
      ∀ e, e < 32 → elt r.bits.toNat 64 e = if e ∈ m.els then code e else elt (g.getK d.toNat).bits.toNat 64 e
  | .vld _ _ _ _ d, .v c r | .vldf _ _ _ _ d, .v c r | .vlds _ _ _ _ d, .v c r | .vld2 _ _ _ _ d, .v c r
  | .vldx _ _ _ _ d, .v c r => c = d ∧ r.tag = (g.getV d.toNat).tag ∧
      (v % m.w ≠ 0 → r.bits.toNat < 2 ^ (v / m.w * m.w)) ∧
      ∀ e, (e + 1) * m.w ≤ 16384 → (v % m.w ≠ 0 → (e + 1) * m.w ≤ v) →
        elt r.bits.toNat m.w e = if e ∈ m.els then code e else elt (g.getV d.toNat).bits.toNat m.w e
  | .vldw _ _ _ d, .v c r => c = d ∧ r.tag = (g.getV d.toNat).tag ∧
      ∀ e, e < 256 → elt r.bits.toNat 64 e = if e ∈ m.els then code e else elt (g.getV d.toNat).bits.toNat 64 e
  | _, _ => False

end Sys2Proof.Slice0

/-- 17 R304, R306, R311 to R315, R308: a vector load whose elements' bytes are granted and lie in the core's L1 leaves its
register pending with each performed element's code, whichever the form, and goes on with nothing else changed. The hart's
bypass threshold is off (03 R49). LOAD_COMPLETE writes the oldest pending register. No more than 16 entries of the
load-data queue are ever filled (08 R164), and its bound changes no register's final value. -/
def Sys2Proof.Slice0.VectorLoadResults : Prop :=
  (∀ (i : Instr) (c : VecForm) (s : State) (h : Hart) (y : Nat → Nat),
    vecLoad h i = some c → s.me = some h → unheld s h c.reads c.writes →
    let g := atRegs h c.reads c.writes
    let m := c.access g s.vlen
    c.usable g s → g.ctl.bthr.toNat % 2 ^ 32 = 0 → (∀ e ∈ m.els, m.holds s g e (y e)) →
    (m.els = [] → completes i s (vectorDone g 0)) ∧
    (m.els ≠ [] → ∃ p, completes i s (vectorDone (owed g [p]) 0) ∧ loadedInto i s.vlen g m y p)) ∧
  (∀ (g : Hart) (p : PendingLoad),
    queueUsed (owed g [p]).loads ≤ 16 ∧
    (queueUsed g.loads + p.entries ≤ 16 → owed g [p] = { g with loads := g.loads ++ [p] }) ∧
    (owed g [p]).settleLoads = { g with loads := g.loads ++ [p] }.settleLoads) ∧
  ∀ (s : State) (core slot : Nat) (h : Hart) (p : PendingLoad) (rest : List PendingLoad),
    s.hart? (hkey core slot) = some h → h.loads = p :: rest →
    exec (.loadComplete core slot) s = .next (s.setHart (hkey core slot)
      (match p with
       | .v d r => { h.setV d.toNat r with loads := rest }
       | .vv d e r q => { (h.setV d.toNat r).setV e.toNat q with loads := rest }
       | .k d r => if hd : d.toNat < 16 then { h with k := h.k.set d.toNat r hd, loads := rest }
         else { h with loads := rest }))

namespace Sys2Proof.Slice0

/-- Bytes that the accesses of an element reach. -/
def VecAccess.bytes (m : VecAccess) (i : Nat) : Nat := ((m.runs i).map (·.2)).sum

/-- The cause that the rights of a page give an access of a hart, or none (02 R31 check 2). -/
def rightsCause (e : FilterEntry) (g : Hart) (rw : Rw) : Option Nat :=
  if rw ≠ .write ∧ (e.attr.r = false ∨ e.attr.s = true ∧ g.user = true) then some 0x07
  else if rw ≠ .read ∧ (e.attr.w = false ∨ e.attr.s = true ∧ g.user = true) then some 0x08
  else none

/-- Whether a column access fails at its orientation in a page (02 R30, R31 check 3). -/
def misoriented (e : FilterEntry) (col : Bool) (w : Nat) : Prop :=
  col = true ∧ (e.attr.tclass = .untiled ∨ 8 * e.attr.tclass.width ≠ w)

/-- Element i fails its checks with a cause (01 R22, R23; 02 R31): its segment refuses its bytes; or it grants them, the
entries of their pages are in the filter, and one of these, the first of them, refuses the rights; or all of them grant the
rights, and one of them fails the orientation (17 R307). -/
def VecAccess.fails (m : VecAccess) (s : State) (g : Hart) (rw : Rw) (i c : Nat) : Prop :=
  let seg := g.getG m.g.toNat
  let cause := segCauseAt seg (m.off i) (m.bytes i) (max 1 (m.w / 8)) rw
  cause = some c ∨ (cause = none ∧ ∃ es : List FilterEntry, es.length = (m.runs i).length ∧
    (∀ (j : Nat) (p : Word × Nat) (e : FilterEntry), (m.runs i)[j]? = some p → es[j]? = some e → e.pd = false ∧
      (s.core s.myCore).filter.find? (fun q => q.covers g.spaceTag (segBase seg + p.1.toNat)) = some e) ∧
    ((es.findSome? fun e => rightsCause e g rw) = some c ∨
      ((es.findSome? fun e => rightsCause e g rw) = none ∧ c = 0x0A ∧ ∃ e ∈ es, misoriented e m.col m.w)))

/-- tval of a trap of element i: its offset for the causes 0x05 and 0x06, else its address (10 R187). -/
def VecAccess.valueAt (m : VecAccess) (g : Hart) (i c : Nat) : Word :=
  if c = 0x05 ∨ c = 0x06 then m.off i else BitVec.ofNat 64 (segBase (g.getG m.g.toNat) + (m.off i).toNat)

/-- A hart whose instruction stops at element e: vstart says so (05 R109). -/
def stoppedAt (g : Hart) (e : Nat) : Hart := { g with ctl := { g.ctl with vstart := BitVec.ofNat 64 e } }

/-- The element that the fault record of a hart's save area names (05 R108). -/
def recordElem (t : State) (h : Hart) : Nat := t.readPA (h.area + 0x5C) 4

/-- The forms of whole registers and of scale registers. -/
def wordForm : Instr → Bool
  | .vldw _ _ _ _ | .kld _ _ _ _ | .vstw _ _ _ _ | .kst _ _ _ _ => true
  | _ => false

/-- Fault-only-first. -/
def firstOnly : Instr → Bool
  | .vldf _ _ _ _ _ => true
  | _ => false

end Sys2Proof.Slice0

/-- 17 R307, R313, R314, 01 R22, R23, 02 R31, 05 R108, R109, 10 R187: a vector load of which element e fails its checks,
and none below it, traps at e: the elements below e are loaded and pending, vstart and the fault record name e, and the
cause is that of e's first failing check. VLDF with e above vstart does not trap: it ends there and sets vl to e. A whole
register at an offset that is not a multiple of 64 traps at its lowest word. -/
def Sys2Proof.Slice0.VectorLoadTraps : Prop :=
  ∀ (i : Instr) (c : VecForm) (s : State) (h : Hart) (y : Nat → Nat) (l rest : List Nat) (e k : Nat),
    vecLoad h i = some c → s.me = some h → unheld s h c.reads c.writes →
    let g := atRegs h c.reads c.writes
    let m := c.access g s.vlen
    m.els = l ++ e :: rest →
    (c.usable g s → g.ctl.bthr.toNat % 2 ^ 32 = 0 → (∀ x ∈ l, m.holds s g x (y x)) → m.fails s g .read e k →
      ∃ q, (l = [] → q = []) ∧ (l ≠ [] → ∃ p, q = [p] ∧ loadedInto i s.vlen g { m with els := l } y p) ∧
        if firstOnly i = true ∧ g.ctl.vstart.toNat % 2 ^ 32 < e then
          completes i s (vectorDone (let o := owed g q
            { o with ctl := { o.ctl with vl := BitVec.ofNat 64 e } }) 0)
        else ∃ t, exec i s = .next t ∧ trapped s t (stoppedAt (owed g q) e) k (m.valueAt g e k) ∧ recordElem t h = e) ∧
    (wordForm i = true → l = [] → ¬c.usable g s →
      let k := (segCauseAt (g.getG m.g.toNat) (m.off e) 8 1 .read).getD 0x05
      ∃ t, exec i s = .next t ∧ trapped s t h k (m.valueAt g e k) ∧ recordElem t h = e)

/-- Together: VectorLoadResults; VectorLoadTraps. The rules and the model's own choices are named at each part. -/
def Obligations.VectorLoads : Prop :=
  Sys2Proof.Slice0.VectorLoadResults ∧ Sys2Proof.Slice0.VectorLoadTraps

namespace Sys2Proof.Slice0

/-- The ordered form of a store (06 R121). -/
def inOrder : Instr → Bool
  | .vstx _ .ord _ _ _ => true
  | _ => false

/-- One bit of the hart's space as the core sees it. -/
def bitSeen (s : State) (l : Leaf) (b : Nat) : Bool := (viewOf s s.myCore l (b / 8)).1.getLsbD (b % 8)

/-- Bit k of element i, where its accesses reach the cells given. -/
def VecAccess.bitAt (m : VecAccess) (cell : Nat → Nat → Nat) (i k : Nat) : Nat :=
  if 8 ≤ m.w then 8 * cell i 0 + k else 8 * cell i ((i * m.w % 8 + k) / 8) + (i * m.w % 8 + k) % 8

end Sys2Proof.Slice0

/-- 17 R304, R306, R311 to R315, 03 R45: a vector store whose elements' pages are granted and confirmed and whose bytes lie
in the core's L1 is performed there: every bit of an element that no other element of it writes reads as that of its code,
every bit that no element writes reads as before, in every space, and device memory, the other cores, the clusters and the
dies do not change. The addresses are those that the meaning computes. The bypass threshold is off, and the store is not
one that goes on after a pause or a trap. An ordered store has the core's earlier writes to other pages performed first (06
R121); here there are none. -/
def Sys2Proof.Slice0.VectorStoreResults : Prop :=
  ∀ (i : Instr) (c : VecForm) (code : Hart → Nat → Nat) (s : State) (h : Hart) (cell : Nat → Nat → Nat),
    vecStore h i = some (c, code) → s.me = some h → unheld s h c.reads c.writes →
    let g := atRegs h c.reads c.writes
    let m := c.access g s.vlen
    c.usable g s → g.ctl.bthr.toNat % 2 ^ 32 = 0 → g.placed = none → g.ordered = false →
    (s.core s.myCore).bypass = [] → (inOrder i = true → (s.core s.myCore).target = []) → distinctFrames (s.core s.myCore).l1 →
    ((s.core s.myCore).sb.filter fun q => q.slot = s.mySlot).length ≤ (s.core s.myCore).sbLimit →
    (∀ x ∈ m.els, ∀ j p, (m.runs x)[j]? = some p → ∃ e f, m.granted s g p.1 p.2 e false true ∧ e.cf = true ∧
      cell x j = m.cell g p.1 e ∧ nearBytes s g (cell x j) p.2 f) →
    let inside := fun x b => ∃ k, k < m.w ∧ b = m.bitAt cell x k
    ∃ t, exec i s = .next t ∧
      (∀ (l : Leaf) (x k : Nat), l.space = g.spaceTag → x ∈ m.els → k < m.w →
        (∀ z ∈ m.els, z ≠ x → ¬inside z (m.bitAt cell x k)) →
        bitSeen t l (m.bitAt cell x k) = (code g x).testBit k) ∧
      (∀ (l : Leaf) (b : Nat), (l.space = g.spaceTag → ∀ x ∈ m.els, ¬inside x b) → bitSeen t l b = bitSeen s l b) ∧
      t.mem = s.mem ∧ t.poison = s.poison ∧ t.clusters = s.clusters ∧ t.dies = s.dies ∧ t.cur = s.cur ∧
      (∀ k, k ≠ s.myCore → t.core k = s.core k) ∧
      t.me = some { vectorDone g 0 with nst := g.nst + 1, placed := none }

/-- 17 R307, R314, 01 R22, R23, 02 R31, 05 R108, R109, 10 R187: a vector store of which element e fails its checks, and
none below it, performs the elements below e, as VectorStoreResults says of a whole store, and traps at e: vstart and the
fault record name e, and the cause is that of e's first failing check. No bit of e or of an element above it is written. A
whole register at an offset that is not a multiple of 64 traps at its lowest word. -/
def Sys2Proof.Slice0.VectorStoreTraps : Prop :=
  ∀ (i : Instr) (c : VecForm) (code : Hart → Nat → Nat) (s : State) (h : Hart) (cell : Nat → Nat → Nat)
    (l rest : List Nat) (e k : Nat),
    vecStore h i = some (c, code) → s.me = some h → unheld s h c.reads c.writes →
    let g := atRegs h c.reads c.writes
    let m := c.access g s.vlen
    m.els = l ++ e :: rest →
    (c.usable g s → g.ctl.bthr.toNat % 2 ^ 32 = 0 → g.placed = none → g.ordered = false →
      (s.core s.myCore).bypass = [] → (inOrder i = true → (s.core s.myCore).target = []) → distinctFrames (s.core s.myCore).l1 →
      ((s.core s.myCore).sb.filter fun q => q.slot = s.mySlot).length ≤ (s.core s.myCore).sbLimit →
      (∀ x ∈ l, ∀ j p, (m.runs x)[j]? = some p → ∃ q f, m.granted s g p.1 p.2 q false true ∧ q.cf = true ∧
        cell x j = m.cell g p.1 q ∧ nearBytes s g (cell x j) p.2 f) →
      m.fails s g .write e k →
      let inside := fun x b => ∃ j, j < m.w ∧ b = m.bitAt cell x j
      ∃ t, exec i s = .next t ∧ trapped s t (stoppedAt g e) k (m.valueAt g e k) ∧ recordElem t h = e ∧
        (∀ (f : Leaf) (x j : Nat), f.space = g.spaceTag → x ∈ l → j < m.w →
          (∀ z ∈ l, z ≠ x → ¬inside z (m.bitAt cell x j)) →
          bitSeen t f (m.bitAt cell x j) = (code g x).testBit j) ∧
        ∀ (f : Leaf) (b : Nat), (f.pa (b / 8) < h.area + 0x40 ∨ h.area + 0x80 ≤ f.pa (b / 8)) →
          (f.space = g.spaceTag → ∀ x ∈ l, ¬inside x b) → bitSeen t f b = bitSeen s f b) ∧
    (wordForm i = true → l = [] → ¬c.usable g s →
      let k := (segCauseAt (g.getG m.g.toNat) (m.off e) 8 1 .write).getD 0x05
      ∃ t, exec i s = .next t ∧ trapped s t h k (m.valueAt g e k) ∧ recordElem t h = e)

/-- Together: VectorStoreResults; VectorStoreTraps. The rules and the model's own choices are named at each part. -/
def Obligations.VectorStores : Prop :=
  Sys2Proof.Slice0.VectorStoreResults ∧ Sys2Proof.Slice0.VectorStoreTraps

namespace Sys2Proof.Slice0

/-- The VAMO family (17 R317): scope, order, segment, base, register, whether a tag is permitted, and the new value and
flags for an old value m and an operand v. -/
structure VamoForm where
  sc : AScope
  o : Order
  g : GIx
  b : XIx
  d : VIx
  ok : Tag → Bool
  f : Fmt → Nat → Nat → Nat × Nat

/-- Tags of the integer operations. -/
def whole (t : Tag) : Bool := t.scale = none && (t.fmt = .i32 || t.fmt = .n32 || t.fmt = .i64 || t.fmt = .n64)

def vamoForm : Instr → Option VamoForm
  | .vamoadd sc o g b d => some ⟨sc, o, g, b, d, whole, fun t m v => ((m + v) % 2 ^ t.width, 0)⟩
  | .vamomin sc o g b d =>
    some ⟨sc, o, g, b, d, whole, fun t m v => ((if t.int v < t.int m then v else m) % 2 ^ t.width, 0)⟩
  | .vamomax sc o g b d =>
    some ⟨sc, o, g, b, d, whole, fun t m v => ((if t.int m < t.int v then v else m) % 2 ^ t.width, 0)⟩
  | .vamoand sc o g b d => some ⟨sc, o, g, b, d, whole, fun _ m v => (m &&& v, 0)⟩
  | .vamoor sc o g b d => some ⟨sc, o, g, b, d, whole, fun _ m v => (m ||| v, 0)⟩
  | .vamoxor sc o g b d => some ⟨sc, o, g, b, d, whole, fun _ m v => (m ^^^ v, 0)⟩
  | .vamoswp sc o g b d => some ⟨sc, o, g, b, d, whole, fun _ _ v => (v, 0)⟩
  | .vamofadd sc o g b d => some ⟨sc, o, g, b, d,
      fun t => t.scale = none && (t.fmt = .f32 || t.fmt = .f64), fun t m v => floatAdd t m v⟩
  | _ => none

/-- An operation answers for each of some things in turn, each at the machine that the one before left. -/
def answers {α β : Type} (f : α → State → Res β) : List α → State → List β → State → Prop
  | [], s, l, t => l = [] ∧ t = s
  | x :: xs, s, l, t => ∃ y ys u, f x s = .ok y u ∧ l = y :: ys ∧ answers f xs u ys t

/-- The access of element e: its offset is x(base) plus the element's index in the register after vD (17 R317). -/
def VamoForm.req (c : VamoForm) (g : Hart) (e : Nat) : Req :=
  let w := widthOf g c.d
  { rw := .both, g := c.g.toNat, off := indexAt g c.b (c.d + 1) e, n := w / 8, align := w / 8, elem := e, ew := w,
    col := false }

/-- The new value and the flags of element e for an old value. -/
def VamoForm.new (c : VamoForm) (g : Hart) (e m : Nat) : Nat × Nat := c.f (g.tagAt c.d.toNat).fmt m (at_ g c.d e)

end Sys2Proof.Slice0

/-- 17 R317, R318, 06 R121: a VAMO whose active elements pass every check, and can all be updated, updates the word of each
at its scope's level with the new value of the table, one element at a time: rising, and for `.any` on pages of the normal
class in some order of them. That a `.any` form with one element on another page takes all of them rising, where R121 leaves
the order open, is the model's choice (log entry 85, DESIGN CHOICE). Each such element of vD receives the old value that its
own update found, every other element keeps its code, and the flags of float sums are accrued, with those that the hart owed
of elements completed before a trap (log entry 97). With no active element it only goes on. When the lowest active element
fails its checks the instruction traps there and updates nothing (R307). -/
def Sys2Proof.Slice0.VectorAtomicUpdates : Prop :=
  (∀ (i : Instr) (c : VamoForm) (s : State) (h : Hart) (e k : Nat) (rest : List Nat),
    vamoForm i = some c → s.me = some h → unheldVec s h [c.d.toNat, (c.d + 1).toNat] [c.d.toNat] →
    let g := atVec h [c.d.toNat, (c.d + 1).toNat] [c.d.toNat]
    let m : VecAccess := { g := c.g, col := false, w := widthOf g c.d, els := g.actives, off := indexAt g c.b (c.d + 1) }
    tagIs (g.tag c.d.toNat) c.ok = true → g.intTag (c.d + 1).toNat = true → maskUsable g →
    fits g s [c.d.toNat, (c.d + 1).toNat] → g.actives = e :: rest → m.fails s g .both e k →
    ∃ t, exec i s = .next t ∧ trapped s t (stoppedAt g e) k (m.valueAt g e k) ∧ recordElem t h = e) ∧
  ∀ (i : Instr) (c : VamoForm) (s s1 s2 : State) (h : Hart) (places : List Piece) (first : List Nat),
    vamoForm i = some c → s.me = some h → unheldVec s h [c.d.toNat, (c.d + 1).toNat] [c.d.toNat] →
    let g := atVec h [c.d.toNat, (c.d + 1).toNat] [c.d.toNat]
    let w := widthOf g c.d
    tagIs (g.tag c.d.toNat) c.ok = true → g.intTag (c.d + 1).toNat = true → maskUsable g →
    fits g s [c.d.toNat, (c.d + 1).toNat] →
    checkElems g (g.actives.map fun e => [c.req g e]) s = .ok (places, none) s1 →
    (∀ q ∈ places, q.e.attr.mc ≠ .device) →
    let update := fun (new : Nat → Nat → Option Nat) (q : Piece) => atomicCell q.a q.e q.cell (w / 8) c.sc (new q.i)
    answers (update fun _ _ => none) places s1 first s2 →
    let any := c.o = .any ∧ ∀ q ∈ places, q.e.attr.mc = .normal
    places.map Piece.i = g.actives ∧ ∃ order, order.Perm places ∧ (¬any → order = places) ∧
      ∀ (olds : List Nat) (s3 t : State),
        (any → t = { s2 with free := s2.free + places.length }) → (¬any → t = s2) →
        answers (update fun e m => some (c.new g e m).1) order t olds s3 →
        let done := (order.map Piece.i).zip olds
        ∃ r, exec i s = .next (s3.setMe { vectorDone (g.setV c.d.toNat r)
            (done.foldl (fun f q => f ||| (c.new g q.1 q.2).2) g.owed.toNat) with nst := g.nst + 1, owed := 0 }) ∧
          r.tag = (g.getV c.d.toNat).tag ∧
          (∀ q ∈ done, elt r.bits.toNat w q.1 = q.2 % 2 ^ w) ∧
          ∀ j, (j + 1) * w ≤ 16384 → j ∉ g.actives → elt r.bits.toNat w j = elt (g.getV c.d.toNat).bits.toNat w j

/-- 17 R317, 03 R55: what a VAMO of one active element leaves in the caches and in device memory, once its checks have passed
and its word has been found to be one that can be updated (R307): it updates the word at the level of its scope, as `lands`
says, and the element of vD receives the old value. A VAMO of more elements updates the word of each so, in the order that
VectorAtomicUpdates gives. -/
def Sys2Proof.Slice0.VectorAtomicLands : Prop :=
  ∀ (i : Instr) (c : VamoForm) (s s1 s2 : State) (h : Hart) (p : Piece) (e m0 : Nat),
    vamoForm i = some c → s.me = some h → unheldVec s h [c.d.toNat, (c.d + 1).toNat] [c.d.toNat] →
    let g := atVec h [c.d.toNat, (c.d + 1).toNat] [c.d.toNat]
    let w := widthOf g c.d
    tagIs (g.tag c.d.toNat) c.ok = true → g.intTag (c.d + 1).toNat = true → maskUsable g →
    fits g s [c.d.toNat, (c.d + 1).toNat] → g.actives = [e] →
    checkElems g [[c.req g e]] s = .ok ([p], none) s1 → p.e.attr.mc ≠ .device → p.e.cf = true →
    atomicCell p.a p.e p.cell (w / 8) c.sc (fun _ => none) s1 = .ok m0 s2 →
    (s2.core s.myCore).bypass = [] → notBuffered (s2.core s.myCore) s.mySlot g.spaceTag p.cell (w / 8) →
    lands s2 s.myCore g.spaceTag p.e false c.sc p.cell (w / 8) (fun m => some (c.new g e m).1) fun m t =>
      exec i s = .next t ∧ ∃ r q, t.me = some q ∧
        q = { vectorDone (g.setV c.d.toNat r) (g.owed.toNat ||| (c.new g e m).2) with nst := g.nst + 1, owed := 0 } ∧
        r.tag = (g.getV c.d.toNat).tag ∧ elt r.bits.toNat w e = m % 2 ^ w ∧
        ∀ j, (j + 1) * w ≤ 16384 → j ≠ e → elt r.bits.toNat w j = elt (g.getV c.d.toNat).bits.toNat w j

/-- Together: VectorAtomicUpdates; VectorAtomicLands. The rules and the model's own choices are named at each part. -/
def Obligations.VectorAtomicResults : Prop :=
  Sys2Proof.Slice0.VectorAtomicUpdates ∧ Sys2Proof.Slice0.VectorAtomicLands

/-! ## Scratchpad, index scratchpad and matrix instructions (17 R316, R319 to R322; 03 R62 to R73; 18 R324 to R336) -/

namespace Sys2Proof.Slice0

/-- Grant offset of byte j of element i of a scratchpad access at address a with descriptor dsc and walk descriptor x (17
R320, 03 R64): elements of a narrow tag lie one after the other; others run down columns of x's rows, along rows of the
row pitch, or one after the other, and a rotation turns the words of a row. -/
def spByte (a dsc x : Word) (w i j : Nat) : Nat :=
  let base := a.toNat % 2 ^ 20
  let pitch := dsc.toNat % 2 ^ 20
  let rot := dsc.toNat / 2 ^ 40 % 32
  let rows := x.toNat % 65536
  let cell := if x.toNat / 65536 % 2 = 1 then (i % rows, i / rows * (w / 8))
    else if pitch = 0 then (0, i * (w / 8))
    else (i / (pitch / (w / 8)), i % (pitch / (w / 8)) * (w / 8))
  let c := cell.2 + j
  let word := if rot = 0 then c / 8 else (c / 8 + cell.1 * rot) % (pitch / 8)
  if w < 8 then base + i * w / 8 + j else base + cell.1 * pitch + 8 * word + c % 8

/-- Bytes that element i touches. -/
def spCount (w i : Nat) : Nat := if w < 8 then (i * w % 8 + w + 7) / 8 else w / 8

/-- The scratchpad bit, as a number of bits of the grant, that bit k of element i is. -/
def spBit (a dsc x : Word) (w i k : Nat) : Nat :=
  let q := if w < 8 then i * w % 8 + k else k
  8 * spByte a dsc x w i (q / 8) + q % 8

/-- A bit of a core's scratchpad, by grant bit. -/
def scratchBit (c : Core) (g : Grant) (b : Nat) : Bool := (c.sp.get (g.b * 32768 + b / 8)).getLsbD (b % 8)

end Sys2Proof.Slice0

/-- 17 R319, R320, R307, R316: SPLD, its checks passed and no word poisoned, leaves vD pending with the codes at the
elements' places; SPST writes them there, bit by bit, and leaves every other scratchpad bit, and everything outside the
core's scratchpad; a narrow one reads no poisoned word for bits that it keeps. VPF, when no open follow-on is to write the
mask register, goes on with no architectural effect: it writes no register of any hart and no scratchpad, puts nothing
into the store buffer and makes no host fault entry. A fill may recall a name, which may end the pause of a store or drain
an acknowledged entry (04 R92). -/
def Sys2Proof.Slice0.ScratchpadMoves : Prop :=
  (∀ (s : State) (h : Hart) (e : Hint) (d : VIx) (a b : XIx), s.me = some h → unheldVec s h [] [d.toNat] →
    let g := atVec h [] [d.toNat]
    let w := widthOf g d
    let c := s.core s.myCore
    let gr := c.grantOf g.blk
    let at' := spByte (g.getX a) (g.getX (pairOf a)) (g.getX b) w
    tagIs (g.tag d.toNat) element = true → maskUsable g → fits g s [d.toNat] →
    (spOperand g d a b).check (.spld e d a b) 0 gr g.actives = none →
    (∀ i ∈ g.actives, ∀ j, j < spCount w i → c.spPoisoned gr (at' i j) 1 = false) →
    (g.actives = [] → completes (.spld e d a b) s (vectorDone g 0)) ∧
    (g.actives ≠ [] → ∃ r, completes (.spld e d a b) s (vectorDone (owed g [.v d r]) 0) ∧ r.tag = (g.getV d.toNat).tag ∧
      (s.vlen % w ≠ 0 → r.bits.toNat < 2 ^ (s.vlen / w * w)) ∧
      ∀ i, (i + 1) * w ≤ 16384 → (s.vlen % w ≠ 0 → (i + 1) * w ≤ s.vlen) →
        (i ∈ g.actives → ∀ k, k < w → (elt r.bits.toNat w i).testBit k =
          scratchBit c gr (spBit (g.getX a) (g.getX (pairOf a)) (g.getX b) w i k)) ∧
        (i ∉ g.actives → elt r.bits.toNat w i = elt (g.getV d.toNat).bits.toNat w i))) ∧
  (∀ (s : State) (h : Hart) (e : Hint) (d : VIx) (a b : XIx), s.me = some h → unheldVec s h [d.toNat] [] →
    let g := atVec h [d.toNat] []
    let w := widthOf g d
    let c := s.core s.myCore
    let gr := c.grantOf g.blk
    let bit := spBit (g.getX a) (g.getX (pairOf a)) (g.getX b) w
    tagIs (g.tag d.toNat) element = true → maskUsable g → fits g s [d.toNat] →
    (spOperand g d a b).check (.spst e d a b) 1 gr g.actives = none →
    (w < 8 → ∀ i ∈ g.actives, ∀ j, j < spCount w i →
      (∀ l, l < 8 → (8 * (i * w / 8 + j) + l) / w ∈ g.actives) ∨
        c.spPoisoned gr (spByte (g.getX a) (g.getX (pairOf a)) (g.getX b) w i j) 1 = false) →
    ∃ q : Core, exec (.spst e d a b) s = .next ((s.setCore s.myCore q).setMe { vectorDone g 0 with nst := g.nst + 1 }) ∧
      { q with sp := c.sp, spPoison := c.spPoison } = c ∧
      (∀ i k, i ∈ g.actives → k < w → (∀ j ∈ g.actives, j ≠ i → ∀ l, l < w → bit j l ≠ bit i k) →
        scratchBit q gr (bit i k) = (at_ g d i).testBit k) ∧
      (∀ x, (∀ i ∈ g.actives, ∀ k, k < w → gr.b * 32768 * 8 + bit i k ≠ x) →
        (q.sp.get (x / 8)).getLsbD (x % 8) = (c.sp.get (x / 8)).getLsbD (x % 8))) ∧
  ∀ (s : State) (h : Hart) (off : BitVec 8) (o : Orient) (g : GIx) (b : XIx), s.me = some h →
    meets h.maskRegs ((s.core s.myCore).pendingFollows s.mySlot) = false →
    ∃ t, exec (.vpf off o g b) s = .next t ∧ t.cur = s.cur ∧ t.me = some (passed (h.settleFor h.maskRegs)) ∧
      (∀ k, k ≠ s.cur → (t.hart? k).map (fun q => { q with placed := none }) =
        (s.hart? k).map fun q => { q with placed := none }) ∧
      (∀ k, (t.core k).sp = (s.core k).sp ∧
        ∀ q ∈ (t.core k).sb, ∃ p ∈ (s.core k).sb, { q with state := p.state } = p) ∧
      ∀ k, (t.die k).faults = (s.die k).faults

namespace Sys2Proof.Slice0

/-- The key of element i: its integer as 64 bits (17 R321). -/
def keyAt (g : Hart) (a : VIx) (i : Nat) : Nat := (BitVec.ofInt 64 (g.intAt a.toNat i)).toNat

/-- What the entry of a key becomes from the values that arrive for it, in order: the first one is inserted where there
is none, and each further one is combined with what is there. -/
def arrived (op : Word → Word → Word) : Option Word → List Word → Option Word
  | some m, vs => some (vs.foldl op m)
  | none, v :: vs => some (vs.foldl op v)
  | none, [] => none

/-- SXACC's sum of a value format. -/
def indexSum (f : Fmt) (m v : Word) : Word := if f = .f64 then BitVec.ofNat 64 (floatAdd .f64 m.toNat v.toNat).1 else m + v

/-- SXINS keeps what is there, SXACC adds. -/
def updateForm : Instr → Option (VIx × VIx × VIx × (Fmt → Word → Word → Word))
  | .sxins _ d a b => some (d, a, b, fun _ m _ => m)
  | .sxacc _ d a b => some (d, a, b, indexSum)
  | _ => none

/-- Flags that the f64 sums of one entry raise, in the order in which its values arrive (17 R321): a value that finds no
entry is inserted, which raises none. -/
def sumFlags : Option Word → List Word → Nat
  | some m, v :: vs => let r := floatAdd .f64 m.toNat v.toNat; r.2 ||| sumFlags (some (BitVec.ofNat 64 r.1)) vs
  | none, v :: vs => sumFlags (some v) vs
  | _, [] => 0

/-- SXACC raises flags, SXINS none. -/
def sums : Instr → Prop
  | .sxacc .. => True
  | _ => False

/-- The tags of values: i64, n64 or f64. -/
def valued (t : Tag) : Bool := t.scale = none && (t.fmt = .i64 || t.fmt = .n64 || t.fmt = .f64)

end Sys2Proof.Slice0

/-- 17 R321, R322, 03 R72: SXINS and SXACC take the active elements' keys and values in order; an entry that is there
keeps its value, or has them added; a key that is not there is inserted while an entry is free, and element i of vD's
mask says whether its key is there afterwards. SXACC accrues the flags of its f64 sums, each of them and no other, and with
them those that the hart owed of elements completed before a trap (log entry 97); an insertion raises none. -/
def Sys2Proof.Slice0.IndexUpdateResults : Prop :=
  ∀ (i : Instr) (d a b : VIx) (op : Fmt → Word → Word → Word) (s : State) (h : Hart),
    updateForm i = some (d, a, b, op) → s.me = some h → unheldVec s h [a.toNat, b.toNat] [d.toNat] →
    let g := atVec h [a.toNat, b.toNat] [d.toNat]
    let c := s.core s.myCore
    let gr := c.grantOf g.blk
    let f := (g.tagAt b.toNat).fmt
    g.intTag a.toNat = true → tagIs (g.tag b.toNat) valued = true → (g.getV d.toNat).tag = 0x13 → maskUsable g →
    fits g s [d.toNat, a.toNat, b.toNat] → 0 < gr.ixUnits → (∀ e ∈ g.actives, keyAt g a e ∉ gr.tablePoison) →
    ∃ (table : List (Nat × Word)) (r : VReg) (fl : Nat),
      exec i s = .next ((s.setCore s.myCore (c.setGrant { gr with table := table })).setMe
        { vectorDone (g.setV d.toNat r) (g.owed.toNat ||| fl) with nst := g.nst + 1, owed := 0 }) ∧
      (¬(sums i ∧ f = .f64) → fl = 0) ∧
      (sums i → f = .f64 → ∀ n, fl.testBit n = true ↔ ∃ e ∈ g.actives, (aget table (keyAt g a e)).isSome = true ∧
        (sumFlags (aget gr.table (keyAt g a e))
          ((g.actives.filter fun x => keyAt g a x = keyAt g a e).map fun x => BitVec.ofNat 64 (at_ g b x))).testBit n
            = true) ∧ r.tag = 0x13 ∧
      (∀ e, e < 16384 → r.bits.getLsbD e =
        if e ∈ g.actives then (aget table (keyAt g a e)).isSome else (g.getV d.toNat).bits.getLsbD e) ∧
      ∀ k, let vs := (g.actives.filter fun e => keyAt g a e = k).map fun e => BitVec.ofNat 64 (at_ g b e)
        (aget table k = arrived (op f) (aget gr.table k) vs) ∨
        (aget table k = none ∧ aget gr.table k = none ∧ gr.ixUnits * 512 ≤ table.length)

/-- 17 R321, R322: SXLKP leaves pending the values of the keys that it finds and the bits that say so; SXDRN removes the
entries with the least keys, at most vl of them, sets vl to their number and leaves keys and values pending in order;
SXCLR leaves no entry. -/
def Sys2Proof.Slice0.IndexReadResults : Prop :=
  (∀ (s : State) (h : Hart) (e : Hint) (d a b : VIx), s.me = some h → unheldVec s h [a.toNat] [d.toNat, b.toNat] →
    let g := atVec h [a.toNat] [d.toNat, b.toNat]
    let gr := (s.core s.myCore).grantOf g.blk
    g.intTag a.toNat = true → tagIs (g.tag d.toNat) valued = true → (g.getV b.toNat).tag = 0x13 → maskUsable g →
    fits g s [d.toNat, a.toNat, b.toNat] → 0 < gr.ixUnits → (∀ i ∈ g.actives, keyAt g a i ∉ gr.tablePoison) →
    (g.actives = [] → completes (.sxlkp e d a b) s (vectorDone g 0)) ∧
    (g.actives ≠ [] → ∃ x y, completes (.sxlkp e d a b) s (vectorDone (owed g [.vv d b x y]) 0) ∧
      x.tag = (g.getV d.toNat).tag ∧ y.tag = 0x13 ∧
      (∀ i, i < 256 → elt x.bits.toNat 64 i =
        if i ∈ g.actives then ((aget gr.table (keyAt g a i)).map BitVec.toNat).getD (at_ g d i) else at_ g d i) ∧
      ∀ i, i < 16384 → y.bits.getLsbD i =
        if i ∈ g.actives then (aget gr.table (keyAt g a i)).isSome else (g.getV b.toNat).bits.getLsbD i)) ∧
  (∀ (s : State) (h : Hart) (e : Hint) (d b : VIx), s.me = some h → unheld s h [] [d.toNat, b.toNat] →
    let g := atRegs h [] [d.toNat, b.toNat]
    let c := s.core s.myCore
    let gr := c.grantOf g.blk
    let n := min (g.ctl.vl.toNat % 2 ^ 32) gr.table.length
    g.ctl.vstart = 0 → tagIs (g.tag d.toNat) (fun t => valued t && t.isInt) = true → tagIs (g.tag b.toNat) valued = true →
    fits g s [d.toNat, b.toNat] → 0 < gr.ixUnits → (∀ p ∈ gr.table, p.1 ∉ gr.tablePoison) →
    gr.table.Pairwise (fun p q => p.1 < q.1) →
    ∃ l : List PendingLoad, exec (.sxdrn e d b) s = .next ((s.setCore s.myCore
        (c.setGrant { gr with table := gr.table.drop n })).setMe
          (let q := vectorDone (owed g l) 0
           { q with ctl := { q.ctl with vl := BitVec.ofNat 64 n } })) ∧
      (∀ p ∈ gr.table.take n, ∀ q ∈ gr.table.drop n, p.1 < q.1) ∧ (n = 0 → l = []) ∧
      (n ≠ 0 → ∃ x y, l = [.vv d b x y] ∧
        ∀ i k v, gr.table[i]? = some (k, v) → i < n →
          elt x.bits.toNat 64 i = k % 2 ^ 64 ∧ elt y.bits.toNat 64 i = v.toNat)) ∧
  ∀ (s : State) (h : Hart) (e : Hint), s.me = some h → unheld s h [] [] →
    let g := atRegs h [] []
    let c := s.core s.myCore
    0 < (c.grantOf g.blk).ixUnits →
    exec (.sxclr e) s = .next ((s.setCore s.myCore
      (c.setGrant { c.grantOf g.blk with table := [], tablePoison := [] })).setMe { vectorDone g 0 with nst := g.nst + 1 })

/-- Together: IndexUpdateResults; IndexReadResults. The rules and the model's own choices are named at each part. -/
def Obligations.IndexScratchpad : Prop :=
  Sys2Proof.Slice0.IndexUpdateResults ∧ Sys2Proof.Slice0.IndexReadResults

namespace Sys2Proof.Slice0

/-- The operands of MMA and MMAS. -/
def matrixForm : Instr → Option MatIn
  | .mma _ z _ d a b => some { sparse := false, z := z, d := d.toNat, a := a, b := b }
  | .mmas _ z _ d a b => some { sparse := true, z := z, d := d.toNat, a := .reg a, b := b }
  | _ => none

/-- Vector registers that it reads: its groups of A and B, the metadata, and D unless D starts from zero. -/
def matrixReads (m : MatIn) (h : Hart) (v : Nat) : List Nat :=
  m.aRegs h v ++ m.bRegs h v ++ m.metaRegs h v ++ (if m.z then [] else m.dRegs)

/-- Element n of width w of a group of registers of V bits. -/
def groupAt (r : Nat → VReg) (v w n : Nat) : Nat := elt (r (n / (v / w))).bits.toNat w (n % (v / w))

/-- A byte of an integer row as its tag reads it: n8 unsigned, i8 and mi8 in two's complement. -/
def byteInt (t : Tag) (c : Nat) : Int := if t.fmt = .n8 then (c : Int) else (BitVec.ofNat 8 c).toInt

/-- The exact sum of products of output (i, c) with both operands in registers (11 R224, 18 R335): over all columns, or
over the two columns of every four that the metadata names. -/
def productSum (g : Hart) (v : Nat) (sparse : Bool) (d a b i c : Nat) : Int :=
  let md := g.ctl.mdep.toNat % 512
  let x := fun n => byteInt (g.tagAt a) (groupAt (fun q => g.getV (a + q)) v 8 n)
  let y := fun n => byteInt (g.tagAt b) (groupAt (fun q => g.getV (b + q)) v 8 (c * md + n))
  if sparse then
    ((List.range (md / 4)).map fun q =>
      let f := groupAt (fun q => g.getV (d + 8 + q)) v 4 (i * (md / 4) + q)
      x (i * (md / 2) + 2 * q) * y (4 * q + f % 4) + x (i * (md / 2) + 2 * q + 1) * y (4 * q + f / 4)).sum
  else ((List.range md).map fun k => x (i * md + k) * y k).sum

end Sys2Proof.Slice0

/-- 18 R324, R329, R332, R333, R335, 11 R224: MSHAPE sets the shape. MMA and MMAS whose checks pass leave the eight
registers of D pending, with tags kept and every element beyond rows times columns as before, and go on; in an integer row
with operands in registers each output is D, or zero, plus the exact sum of products modulo 2^32, and no flag is raised. -/
def Sys2Proof.Slice0.MatrixResults : Prop :=
  (∀ (s : State) (h : Hart) (depth : BitVec 4) (cols rows : BitVec 7), s.me = some h →
    completes (.mshape depth cols rows) s { h with
      ctl := { h.ctl with mrow := BitVec.ofNat 64 rows.toNat, mcol := BitVec.ofNat 64 cols.toNat,
                          mdep := BitVec.ofNat 64 (32 * depth.toNat) }, pc := h.pc + 4, seq := h.seq + 1 }) ∧
  ∀ (i : Instr) (m : MatIn) (s : State) (h : Hart), matrixForm i = some m → s.me = some h →
    let v := s.vlen
    let c := s.core s.myCore
    m.check i h v c.part = none → unheld s h (matrixReads m h v) m.dRegs →
    let g := atRegs h (matrixReads m h v) m.dRegs
    m.checkTiles i (c.grantOf g.blk) g = none → m.checkPoison c (c.grantOf g.blk) g = none →
    let rows := g.ctl.mrow.toNat % 128
    let cols := g.ctl.mcol.toNat % 128
    let old := groupAt (fun q => g.getV (m.d + q)) v 32
    ∃ p : PendingMat, completes i s { g with mats := g.mats ++ [p], nmx := g.nmx + 1, pc := g.pc + 4, seq := g.seq + 1 } ∧
      p.dst = m.d ∧ p.vals.length = 8 ∧ (∀ q, q < 8 → (p.vals.getD q VReg.reset).tag = (g.getV (m.d + q)).tag) ∧
      let new := groupAt (fun q => p.vals.getD q VReg.reset) v 32
      (∀ n, rows * cols ≤ n → n < 8 * (v / 32) → new n = old n) ∧
      (matRow (m.ta g) (m.tb g) (m.td g) = some true → p.flags = 0 ∧
        ∀ a b : VIx, m.a = .reg a → m.b = .reg b → ∀ n, n < rows * cols →
          (new n : Int) = ((if m.z then 0 else (old n : Int)) +
            productSum g v m.sparse m.d a.toNat b.toNat (n / cols) (n % cols)) % 2 ^ 32)

/-- 18 R336, R333: MLAST whose last and metadata read without a fault leaves its metadata group pending and goes on;
MATRIX_COMPLETE writes the oldest pending group into its registers and accrues its flags, and changes no other register. -/
def Sys2Proof.Slice0.MatrixLastAndComplete : Prop :=
  (∀ (s s1 : State) (h : Hart) (e : Hint) (gx : GIx) (d : VIx) (b : XIx) (bits : Nat), s.me = some h →
    let v := s.vlen
    let rows := h.ctl.mrow.toNat % 128
    let depth := h.ctl.mdep.toNat % 512
    let n := (rows * depth + v - 1) / v
    (s.core s.myCore).lpart ≤ 3 → h.ctl.vstart = 0 → 1 ≤ rows → rows ≤ 64 → depth % 32 = 0 → 32 ≤ depth → depth ≤ 256 →
    (h.getV d.toNat).tag = 0x04 → d.toNat + n ≤ 64 → unheld s h [] ((List.range n).map (d.toNat + ·)) →
    let g := atRegs h [] ((List.range n).map (d.toNat + ·))
    mlastRead gx b g s = .ok bits s1 →
    ∃ p : PendingMat, exec (.mlast e gx d b) s = .next (s1.setMe
        { g with mats := g.mats ++ [p], nmx := g.nmx + 1, pc := g.pc + 4, seq := g.seq + 1 }) ∧
      p.dst = d.toNat ∧ p.vals.length = n ∧ p.flags = 0 ∧
      ∀ q, q < n → (p.vals.getD q VReg.reset).bits.toNat % 2 ^ v = bits / 2 ^ (q * v) % 2 ^ v) ∧
  ∀ (s : State) (core slot : Nat) (h : Hart) (p : PendingMat) (rest : List PendingMat),
    s.hart? (hkey core slot) = some h → h.mats = p :: rest →
    ∃ q : Hart, exec (.matrixComplete core slot) s = .next (s.setHart (hkey core slot) q) ∧
      (∀ k, k < 64 → q.getV k = if p.dst ≤ k ∧ k < p.dst + p.vals.length then p.vals.getD (k - p.dst) VReg.reset
        else h.getV k) ∧
      { q with v := h.v, ctl := h.ctl, mats := h.mats } = h ∧ q.mats = rest ∧
      q.ctl = { h.ctl with fflags := h.ctl.fflags ||| p.flags.setWidth 64 }

/-! ## The copy engine (19 R338 to R346; 07 R142 to R148; 03 R69, R70) -/

namespace Sys2Proof.Slice0

/-- The store buffer holds back no command of the hart (05 R100), and the engine has a place for one (09 R175). -/
def mayIssue (s : State) : Prop :=
  (∀ e ∈ (s.core s.myCore).sb, e.slot = s.mySlot → e.state = .faulted ∨ e.state = .reported) ∧
    (s.core s.myCore).hasPlace s.mySlot = true

/-- An instruction puts a command behind the others of its core and leaves the hart as given: the writes of the core that
are still unacknowledged are performed first, and then the lasts that the command names are read (02 R41). While a read of
them has to wait, so does the instruction. -/
def entersEngine (i : Instr) (s : State) (m : Cmd) (h : Hart) : Prop :=
  match m.readLasts s.myCore ((s.ackBypass s.myCore).ackTarget s.myCore) with
  | .ok n u =>
    exec i s = .next ((u.setCore u.myCore { u.core u.myCore with cmds := (u.core u.myCore).cmds ++ [n] }).setMe h)
  | .stop _ _ => exec i s = .next s

/-- An instruction of a command that a check refuses traps with 0x13 and names the check's own cause in the fault record (19
R341, 05 R108). -/
def refused (i : Instr) (s : State) (h : Hart) (inner : Nat) : Prop :=
  ∃ t, exec i s = .next t ∧ trapped s t h 0x13 0 ∧ t.readPA (h.area + 0x41) 1 = inner % 256

/-- A command as the hart issues it (19 R338; 01 R25): its words, its sixteen segment registers and its privilege as they
stand, in its first stage, and the scale registers with the values that older loads owe them (16 R292). -/
def asIssued (m : Cmd) (s : State) (h : Hart) (words : List Word) (chain : Option (BitVec 128 × Nat)) : Prop :=
  m.slot = s.mySlot ∧ m.nth = h.ncp ∧ m.c = words ∧ m.segs = (List.range 16).map h.getG ∧ m.chain = chain ∧
    m.vsr = h.ctl.vsr ∧ m.ks = h.settle.k ∧ m.space = h.spaceTag ∧ m.user = h.user ∧
    m.blk = h.blk ∧ m.r = 0 ∧ m.j = 0 ∧ m.flags = 0 ∧
    m.failed = none

/-- The eight command registers from x(A), and the first stage that word c0 names: an acquire when its bit 27 is set. -/
def wordsOf (h : Hart) (a : XIx) : List Word := (List.range 8).map fun k => h.getX (BitVec.ofNat 5 (a.toNat + k))
def firstStage (words : List Word) : Stage :=
  if ((words.getD 0 0).toNat / 2 ^ 27) % 2 = 1 then .acquire else .transfer

end Sys2Proof.Slice0

/-- 19 R338, R340, R341, R344, 05 R100, 09 R175: XCP and XCPM of a command that passes its checks, and XCHAIN whose first
record its segment grants, put one more command behind the core's others and go on, with the lasts that it names read as it
issues (02 R41); XCPM's carries its matrix instruction with the hart's registers. A command that fails a check, and an XCHAIN
whose segment refuses its first record, trap with 0x13 and the check's cause as the inner one; a command that the buffer or
the engine holds back waits. Three readings are the model's: the segment registers that a chain's records name are captured
at the XCHAIN (log entry 76, DEDUCED), lasts are read at issue, where R343 has the engine read them as the command starts,
and the instruction waits while that read does (log entry 77, DEDUCED), and tval of a refused command is 0, since its fault
has no address in memory (log entry 25, DEDUCED). -/
def Sys2Proof.Slice0.EngineCommandsIssue : Prop :=
  ∀ (s : State) (h : Hart) (e : Hint) (a : XIx) (gx : GIx), s.me = some h →
    let new := s.newCmd h (wordsOf h a) none
    (∀ n, new.check .xcp h s.myCore s = some n → refused (.xcp e a) s h n) ∧
    (new.check .xcp h s.myCore s = none →
      (mayIssue s → ∃ m, entersEngine (.xcp e a) s m { passed h with ncp := h.ncp + 1 } ∧
        asIssued m s h (wordsOf h a) none ∧ m.stage = firstStage (wordsOf h a) ∧ m.follow = none) ∧
      (¬mayIssue s → exec (.xcp e a) s = .next s)) ∧
    (∀ n, new.check .xcpm h s.myCore s = some n → refused (.xcpm e a) s h n) ∧
    (new.check .xcpm h s.myCore s = none →
      ∀ i x, new.followInstr = some i → followIn i = some x →
        unheld s h (x.reads h s.vlen) x.dRegs →
        let g := atRegs h (x.reads h s.vlen) x.dRegs
        (mayIssue s → ∃ m f, entersEngine (.xcpm e a) s m { passed g with ncp := g.ncp + 1, nmx := g.nmx + 1 } ∧
          asIssued m s h (wordsOf h a) none ∧ m.stage = firstStage (wordsOf h a) ∧ m.follow = some f ∧ f.instr = i ∧
          f.stage = .waiting ∧ f.nth = g.nmx ∧ f.x = g.x ∧ f.k = h.settle.k) ∧
        (¬mayIssue s → exec (.xcpm e a) s = .next s)) ∧
    (∀ n, segCause (h.getG gx.toNat) (h.getX a) 64 .read = some n → refused (.xchain e gx a) s h n) ∧
    (segGrants (h.getG gx.toNat) (h.getX a) 64 true false →
      (mayIssue s → ∃ m, entersEngine (.xchain e gx a) s m { passed h with ncp := h.ncp + 1 } ∧
        asIssued m s h (List.replicate 8 0) (some (h.getG gx.toNat, (h.getX a).toNat)) ∧ m.stage = .record) ∧
      (¬mayIssue s → exec (.xchain e gx a) s = .next s))

/-- 19 R346, 07 R149: XSTAT reads the hart's outstanding work: copy commands in bits 7:0, matrix instructions in 15:8,
loads in 23:16 and store instructions with a buffered entry or an unacknowledged write in 31:24, each held at 255, and the
pending failure in bit 32. -/
def Sys2Proof.Slice0.EngineStatusReads : Prop :=
  ∀ (s : State) (h : Hart) (e : Hint) (d : XIx), s.me = some h →
    let c := s.core s.myCore
    ∃ l : List Nat, l.Nodup ∧ (∀ n, n ∈ l ↔ (∃ q ∈ c.sb, q.slot = s.mySlot ∧ q.nth = n) ∨
        ∃ w ∈ c.bypass ++ c.target, w.slot = s.mySlot ∧ w.nth = n) ∧
      completes (.xstat e d) s (wrote h d (BitVec.ofNat 64 (
        min 255 (c.cmds.countP (outstandingOf s.mySlot))
          + 2 ^ 8 * min 255 (h.mats.length + c.cmds.countP fun m => decide (m.slot = s.mySlot) &&
              (match m.follow with
               | some f => decide (f.stage ≠ .closed)
               | none => false))
          + 2 ^ 16 * min 255 h.loads.length + 2 ^ 24 * min 255 l.length + 2 ^ 32 * (if h.fail = none then 0 else 1))))

/-- Together: EngineCommandsIssue; EngineStatusReads. The rules and the model's own choices are named at each part. -/
def Obligations.EngineCommandsAndStatus : Prop :=
  Sys2Proof.Slice0.EngineCommandsIssue ∧ Sys2Proof.Slice0.EngineStatusReads

namespace Sys2Proof.Slice0

/-- The command that the engine serves for a slot: its oldest that is not done; while a failure of the hart is pending,
only one that has begun (19 R345). -/
def serves (s : State) (core slot : Nat) (h : Hart) (m : Cmd) : Prop :=
  s.hart? (hkey core slot) = some h ∧ (h.fail = none ∨ m.begun = true) ∧
    (s.core core).cmds.find? (fun m => m.slot = slot && m.stage ≠ .done) = some m

/-- The rotation of a core's engine goes on from a slot that it has served (09 R175). -/
def rotated (s : State) (core slot : Nat) : State := s.setCore core { s.core core with engTurn := slot }

/-- Rows and elements of a row that a command moves. -/
def rowsOf (m : Cmd) : Nat := (m.c.getD 3 0).toNat / 2 ^ 40 % 65536
def perRow (m : Cmd) : Nat := (m.c.getD 3 0).toNat % 2 ^ 32

/-- One element goes from its source to its destination: both places pass their checks before any data moves (19 R343),
the command stands at the next element, row by row, and one with a follow-on keeps what it wrote for it (R342). -/
def elementMoves (core : Nat) (m n : Cmd) (s t : State) : Prop :=
  ∃ p q x f s1 s2, elemPlaces m core s = .ok (p, q) s1 ∧ readElem m.src.w p s1 = .ok x s2 ∧ writeElem m x q s2 = .ok f t ∧
    n = { m.keepOwn core q t with
          flags := m.flags ||| BitVec.ofNat 8 f, j := if m.j + 1 < perRow m then m.j + 1 else 0,
          r := if m.j + 1 < perRow m then m.r else m.r + 1 }

/-- So many elements do. -/
def elementsMove (core : Nat) : Nat → Cmd → Cmd → State → State → Prop
  | 0, m, n, s, t => n = m ∧ t = s
  | k + 1, m, n, s, t => ∃ c u, elementMoves core m c s u ∧ elementsMove core k c n u t

/-- And at most so many further ones, while the last one ended within a byte of the source or of the destination that the
next one shares (07 R145, log entry 87). -/
def movesOn (core : Nat) : Nat → Cmd → Cmd → State → State → Prop
  | 0, m, n, s, t => n = m ∧ t = s ∧ m.midByte = false
  | k + 1, m, n, s, t =>
    if m.midByte = true then ∃ c u, elementMoves core m c s u ∧ movesOn core k c n u t else n = m ∧ t = s

/-- What a command writes to its eyelet: c7, or its complement when the command failed (03 R70). -/
def eyeletValue (m : Cmd) : Nat :=
  if m.failed = none then (m.c.getD 7 0).toNat else 2 ^ 64 - 1 - (m.c.getD 7 0).toNat

/-- Offset of a chain's next record, in units of 64 bytes; 0 at its last (19 R338). -/
def nextRecord (m : Cmd) : Nat := (m.c.getD 6 0).toNat / 2 ^ 31

/-- What a failed command leaves in the engine: a follow-on that has issued; one that has not never does (07 R147). -/
def stillRuns (m : Cmd) : List Cmd :=
  match m.follow with
  | some f =>
    (match f.stage with
     | .issued _ => [{ m with stage := .done }]
     | _ => [])
  | none => []

/-- A command that is no chain's has ended: its flags are accrued, and of it stays only a follow-on that is open. -/
def ended (s t : State) (core slot : Nat) (m : Cmd) : Prop :=
  ∃ g, s.hart? (hkey core slot) = some g ∧
    t = (s.putHead core slot (match m.follow with
        | some f => if f.stage = .closed then [] else [{ m with stage := .done }]
        | none => [])).setHart (hkey core slot)
      { g with ctl := { g.ctl with fflags := g.ctl.fflags ||| m.flags.setWidth 64 } }

end Sys2Proof.Slice0

/-- 07 R143, R144, 19 R343, R345, 09 R175, 03 R69: a served command goes through its stages. COPY_ACQUIRE performs its
acquire; COPY_TRANSFER, of the slot whose turn the engine's rotation says it is, moves the elements of one transfer, and
after the last one goes to the release, to the eyelet or to the end as c0 says; of another slot it does nothing. That one
transfer is 128 bytes of the wider side within a row is the model's choice (log entry 122, DESIGN CHOICE), and so is that
its elements rise and that it runs to the end of a byte of either side (log entry 87). COPY_RELEASE performs its release and
goes to the eyelet or to the end; EYELET_WRITE writes c7 to the eyelet that c6 names, or its complement when the command
failed, whose failure is then the hart's, with its flags accrued, and ends the command, or goes to the next record of its
chain, which a failed one does not. Of an ended command only a follow-on that is open is left. -/
def Obligations.CopyStagesAdvance : Prop :=
  ∀ (s : State) (core slot : Nat) (h : Hart) (m : Cmd), serves s core slot h m → m.slot = slot →
    (m.stage = .acquire → exec (.copyAcquire core slot) s = .next
      (((s.ackBypass core).acquireSteps core m.space (scopeOfCode ((m.c.getD 0 0).toNat / 2 ^ 24 % 8))).putHead core slot
        [{ m with stage := .transfer }])) ∧
    (s.engineDue core ≠ some slot → exec (.copyTransfer core slot) s = .next s) ∧
    (m.stage = .transfer → m.failed = none → s.engineDue core = some slot → rowsOf m ≠ 0 → perRow m ≠ 0 →
      ∀ c n u t, elementsMove core (min (perRow m - m.j) (1024 / max m.src.w m.dst.w)) m c s u →
        movesOn core (rowsOf m * perRow m) c n u t →
        (n.r < rowsOf m → exec (.copyTransfer core slot) s = .next (rotated (t.putHead core slot [n]) core slot)) ∧
        (rowsOf m ≤ n.r → c0 m 31 = true ∨ c0 m 23 = true → exec (.copyTransfer core slot) s = .next
          (rotated (t.putHead core slot [{ n with stage := if c0 m 31 then .release else .eyelet }]) core slot)) ∧
        (rowsOf m ≤ n.r → c0 m 31 = false → c0 m 23 = false → m.chain = none → (t.hart? (hkey core slot)).isSome = true →
          ∃ u, exec (.copyTransfer core slot) s = .next (rotated u core slot) ∧ ended t u core slot n)) ∧
    (m.stage = .release →
      let t := s.releaseSteps core m.space (scopeOfCode ((m.c.getD 0 0).toNat / 2 ^ 28 % 8))
      (c0 m 23 = true → exec (.copyRelease core slot) s = .next (t.putHead core slot [{ m with stage := .eyelet }])) ∧
      (c0 m 23 = false → m.failed = none → m.chain = none →
        ∃ u, exec (.copyRelease core slot) s = .next u ∧ ended t u core slot m)) ∧
    (m.stage = .eyelet → ∀ t gr,
      let a := BitVec.ofNat 64 ((m.c.getD 6 0).toNat % 2 ^ 31)
      s.cmdGrant core m.blk a = some (t, gr) → spOffset a + 8 ≤ gr.bytes →
      ∃ u q, exec (.eyeletWrite core slot) s = .next u ∧ u.hart? (hkey core slot) = some q ∧
        (u.core t).spRead gr (spOffset a) 8 = eyeletValue m ∧
        q.ctl.fflags = h.ctl.fflags ||| m.flags.setWidth 64 ∧
        (m.failed = none → q.fail = h.fail) ∧
        (∀ f, m.failed = some f → h.fail = none → ∃ l, q.fail = some l ∧ l.frec = f) ∧
        let w := s.setCore t ((s.core t).spWrite gr (spOffset a) (toBytes 8 (eyeletValue m)))
        (m.failed = none → m.chain = none ∨ nextRecord m = 0 → ended w u core slot m) ∧
        (m.failed = none → ∀ g o, m.chain = some (g, o) → nextRecord m ≠ 0 →
          u = (w.putHead core slot [{ m with stage := .record, chain := some (g, 64 * nextRecord m), flags := 0 }]).setHart
            (hkey core slot) q) ∧
        (m.failed ≠ none → u = (w.putHead core slot (stillRuns m)).setHart (hkey core slot) q))

/-- 19 R342, R344, R345, 07 R147, 09 R175, R177, 16 R292: CHAIN_RECORD_READ, in its slot's turn, loads the chain's next
64-byte record and begins it as a command, its lasts read, when it passes its checks; a follow-on that it names has the
hart's registers, but the scale registers as at the XCHAIN. While the read of a last has to wait, so does the record.
FOLLOW_ON_ISSUE, its command's payload landed and its D group free, hands the group to the array with the tiles as its
command wrote them, and notes the core's matrix work; a poisoned word there is the hart's failure, and what is left of the
command's own stages goes on. FOLLOW_ON_COMPLETE writes the group into the hart's registers. While a register that a
record's follow-on reads is still owed by an older follow-on, the record waits (18 R333); a younger command's follow-on
keeps it from nothing. That a record's lasts are read as it begins, and that the record waits while that read does, is log
entry 77 (DEDUCED); that its follow-on has the registers of the record's read is log entry 76 (DEDUCED). What a command does
after its follow-on has failed is the model's reading (log entry 90), and so is from when a record's follow-on counts in the
matrix class (log entry 89). -/
def Obligations.ChainsAndFollowOns : Prop :=
  (∀ (s s1 s2 : State) (core slot : Nat) (h : Hart) (m : Cmd) (seg : BitVec 128) (o x : Nat) (rs : List EngRun),
    serves s core slot h m → m.slot = slot → m.stage = .record → m.chain = some (seg, o) → m.follow = none →
    s.engineDue core = some slot → segCause seg (BitVec.ofNat 64 o) 64 .read = none →
    let base := { m with follow := none, flags := 0, failed := none, c := List.replicate 8 0 }
    let va := segBase seg + (BitVec.ofNat 64 o).toNat
    engineRuns (base.acc core 0 (BitVec.ofNat 64 o) va 512 false) .read [(va, 64)] (rotated s core slot) = .ok rs s1 →
    readRuns rs 0 0 s1 = .ok x s2 →
    let r := { base with c := (List.range 8).map fun i => BitVec.ofNat 64 (elt x 64 i) }
    let t := s2.putHead core slot [r]
    r.check .record h core t = none →
    match Cmd.readLasts { r with stage := firstStage r.c, r := 0, j := 0, srcLast := none, dstLast := none } core t with
    | .stop _ _ => exec (.chainRecordRead core slot) s = .next (rotated s core slot)
    | .ok l u =>
      (x / 2 ^ 32 % 2 ^ 32 = 0 → exec (.chainRecordRead core slot) s = .next (u.putHead core slot [l])) ∧
      ∀ i y, l.followInstr = some i → followIn i = some y →
        let older := ((s.core core).cmds.filter fun q => q.slot = slot).takeWhile fun q => q.stage = .done
        let owed := older.flatMap Cmd.pendingGroup
        ((y.reads h (s.core core).vlen).any (fun n => n ∈ owed) = true →
          exec (.chainRecordRead core slot) s = .next (rotated s core slot)) ∧
        ((y.reads h (s.core core).vlen).any (fun n => n ∈ owed) = false →
          ∃ f, exec (.chainRecordRead core slot) s =
          .next ((u.setHart (hkey core slot) { h with nmx := h.nmx + 1 }).putHead core slot [{ l with follow := some f }]) ∧
        f.instr = i ∧ f.stage = .waiting ∧ f.nth = h.nmx ∧ f.own = [] ∧ f.x = h.x ∧ f.k = m.ks)) ∧
  ∀ (s : State) (core slot : Nat) (h : Hart) (m : Cmd) (f : Follow) (x : MatIn),
    s.hart? (hkey core slot) = some h → m.follow = some f →
    let c := s.core core
    (c.cmds.find? (fun m => m.slot = slot && m.landed) = some m → followIn f.instr = some x →
      (∀ q ∈ c.cmds, q.slot = slot → q.followRuns = true → meets q.pendingGroup f.group = false) →
      (x.checkPoison (f.sees c) (c.grantOf m.blk) f.hart = none →
        ∃ p cs, exec (.followOnIssue core slot) s = .next
            (((s.setCore core { c with cmds := cs }).setHart (hkey core slot) (h.settleFor x.dRegs)).noteWork core m.blk) ∧
          cs.length = c.cmds.length ∧ { m with follow := some { f with own := [], stage := .issued p } } ∈ cs ∧
          p = x.run (f.sees c) (c.grantOf m.blk) f.hart (h.settleFor x.dRegs) c.vlen ∧ p.dst = x.d ∧
          p.vals.length = 8) ∧
      (x.checkPoison (f.sees c) (c.grantOf m.blk) f.hart ≠ none →
        ∃ cs q, exec (.followOnIssue core slot) s =
            .next ((s.setCore core { c with cmds := cs }).setHart (hkey core slot) q) ∧
          (h.fail = none → ∃ l, q.fail = some l ∧ l.frec.cause = 0x13 ∧ l.frec.inner = 0x0F ∧ l.lost = true) ∧
          (m.stage ≠ .done → m.stage ≠ .record → { m with follow := none, chain := none } ∈ cs))) ∧
    ∀ p, c.cmds.find? (fun m => m.slot = slot && m.followRuns) = some m → f.stage = .issued p →
      ∃ cs q, exec (.followOnComplete core slot) s =
          .next ((s.setCore core { c with cmds := cs }).setHart (hkey core slot) q) ∧
        (∀ k, k < 64 → q.getV k = if p.dst ≤ k ∧ k < p.dst + p.vals.length then p.vals.getD (k - p.dst) VReg.reset
          else h.getV k) ∧
        { q with v := h.v, ctl := h.ctl } = h ∧
        q.ctl = { h.ctl with fflags := h.ctl.fflags ||| p.flags.setWidth 64 }

/-! ## Steps of the memory side (03 R44 to R52, R61; 04 R81, R89, R92; 05 R97 to R103, R112) -/

namespace Sys2Proof.Slice0

/-- Two entries of one ordered store whose elements interleave, so that neither can be written whole before the other in
element order. -/
def interleaved (e q : SbEntry) : Prop :=
  e.ord = true ∧ q.ord = true ∧ q.slot = e.slot ∧ q.seq = e.seq ∧ q.efirst ≤ e.elast ∧ e.efirst ≤ q.elast

/-- The core's buffer holds the entry e in another state. -/
def nowIs (u : State) (core : Nat) (e : SbEntry) : Prop := e ∈ (u.core core).sb

end Sys2Proof.Slice0

/-- 05 R99, R102, R103, 04 R89: the life of buffered stores. PROBE_ACKNOWLEDGEMENT makes the probed entries of the leaf's
page acked; PROBE_REFUSAL makes them faulted, with cause 0x0B and the walk's result, or 0x0D on a name conflict, and the
number of their host entry, or with level 7 where the entry is a notice (log entry 15); while a hold overlaps the page
neither happens: that one which overlaps the page and does not cover it keeps the probe unanswered too is the model's
reading (log entry 98, DEDUCED). STORE_BUFFER_DRAIN writes an acked entry that has no older one before it, of a row line or
of a column line (02 R28), into the L1 under its mask, and frees it. Entries of an ordered store whose elements interleave go
together, once all of them are acked, so that the store's elements are written in order (06 R121; that they go together is the
model's reading, log entry 111, DEDUCED). DEFERRED_STORE_TRAP of a hart with a faulted entry
makes its faulted entries reported and enters the handler with cause 0x0C; that a hart asleep in WAITA takes it too is the
model's choice (log entry 115, DESIGN CHOICE). -/
def Sys2Proof.Slice0.BufferedStoreSteps : Prop :=
  (∀ (s s1 : State) (core : Nat) (space : BitVec 16) (va : Nat) (e : SbEntry) (es : List SbEntry),
    (s.core core).probed space va = e :: es → s.heldRange space e.pbase (2 ^ e.plg) = false →
    (∀ l, s.probe core space e.va e.user = (.ack l, s1) →
      ∃ u, exec (.probeAcknowledgement core space va) s = .next u ∧
        ∀ q ∈ e :: es, q ∈ (s1.core core).sb → q.space = l.space → l.vbase ≤ q.va → q.va < l.vbase + 2 ^ l.lg →
          nowIs u core { q with state := .acked }) ∧
    (∀ w level id s2, s.probe core space e.va e.user = (.refuse w level, s1) →
      s1.hostFault core e.slot space e.va w level 1 true = some (id, s2) →
      ∃ u, exec (.probeRefusal core space va) s = .next u ∧ ∀ q ∈ e :: es, q ∈ (s2.core core).sb →
        nowIs u core { q with state := .faulted, inner := 0x0B, wres := w, level := level, hostq := id }) ∧
    ∀ id s2, s.probe core space e.va e.user = (.conflict, s1) →
      s1.hostFault core e.slot space e.va 0xF 7 1 true = some (id, s2) →
      ∃ u, exec (.probeRefusal core space va) s = .next u ∧ ∀ q ∈ e :: es, q ∈ (s2.core core).sb →
        nowIs u core { q with state := .faulted, inner := 0x0D, wres := 0xF, level := 7, hostq := id }) ∧
  (∀ (s : State) (core : Nat) (space : BitVec 16) (va : Nat) (e : SbEntry) (es : List SbEntry),
    (s.core core).probed space va = e :: es → s.heldRange space e.pbase (2 ^ e.plg) = true →
    exec (.probeAcknowledgement core space va) s = .next s ∧ exec (.probeRefusal core space va) s = .next s) ∧
  (∀ (s : State) (core idx : Nat) (e : SbEntry),
    (s.core core).sb.find? (fun q => q.idx = idx) = some e →
    (e.state ≠ .acked → exec (.storeBufferDrain core idx) s = .next s) ∧
    (∀ q ∈ (s.core core).sb, q.idx ≠ idx → interleaved e q → q.state ≠ .acked →
      exec (.storeBufferDrain core idx) s = .next s) ∧
    ((∀ q ∈ (s.core core).sb, q = e ∨ e.ord = true ∧ q.ord = true ∧ q.slot = e.slot ∧ q.seq = e.seq ∧
        e.efirst ≤ q.efirst ∧ q.efirst ≤ q.elast) → (∀ q ∈ (s.core core).sb, q.state = .acked) →
      ∃ u, exec (.storeBufferDrain core idx) s = .next u ∧
        ∀ q ∈ (s.core core).sb, q = e ∨ interleaved e q → ∀ p ∈ (u.core core).sb, p.idx ≠ q.idx) ∧
    (e.state = .acked → (∀ q ∈ (s.core core).sb, q.slot = e.slot → q.idx ≠ e.idx → ¬(e.sharesLine q = true ∧ q.seq < e.seq) ∧
        ¬(e.ord = true ∧ q.ord = true ∧ q.seq = e.seq ∧ (q.efirst < e.efirst ∨ q.efirst ≤ e.elast))) →
      e.va % 128 = 0 → distinctFrames (s.core core).l1 →
      (∀ k, k < 128 → wholeFrame (s.core core).l1 e.space (e.cell k / 128 * 128)) →
      (e.orient = true → e.tclass ≠ .untiled ∧ ∃ o, ∀ k j, k < 128 → j < 128 →
        Cache.find (s.core core).l1 e.space (e.cell k / 128 * 128 + j) = o) →
      ∃ u, exec (.storeBufferDrain core idx) s = .next u ∧ (∀ q ∈ (u.core core).sb, q.idx ≠ idx) ∧
        (∀ q ∈ (s.core core).sb, q.idx ≠ idx → q ∈ (u.core core).sb) ∧
        ∀ k, k < 128 → e.mask.getLsbD k = true →
          dirtyByte (u.core core).l1 e.space (e.cell k) (BitVec.ofNat 8 (elt e.data.toNat 8 k)))) ∧
  ∀ (s : State) (core slot : Nat) (h : Hart), slot < 8 → s.hart? (hkey core slot) = some h → h.trap = none →
    (∃ e ∈ (s.core core).sb, e.slot = slot ∧ e.state = .faulted) →
    ∃ u g, exec (.deferredStoreTrap core slot) s = .next u ∧ u.hart? (hkey core slot) = some g ∧ u.cur = s.cur ∧
      g.ctl.tcause = 0x0C ∧ g.ctl.tepc = h.pc ∧ g.user = false ∧ g.pc = h.ctl.tvec ∧ g.x = h.x ∧
      ∀ e ∈ (s.core core).sb, e.slot = slot → e.state = .faulted → nowIs u core { e with state := .reported }

/-- 04 R81, R86, R87, 05 R112: WALK_COMPLETE of a page that no hold overlaps puts the leaf in the core's filter, as pending
data when the leaf is: that one which overlaps the page holds it too is log entry 98 (DEDUCED). A page whose name conflicts
is left unconfirmed, and the host fault queue has an entry of it, on which nothing waits (log entry 112, DEDUCED).
FAULT_ENTRY_POST posts the oldest entry that has not been posted into its die's fault queue, when that has room: 16 bytes at
the tail, and the tail one further; nothing is posted while it has none. -/
def Sys2Proof.Slice0.WalkAndFaultQueueSteps : Prop :=
  (∀ (s s1 : State) (core : Nat) (space : BitVec 16) (va : Nat) (l : Leaf), s.held space va = false →
    (s.translate (dieOf core) space va .read false = (.leaf l, s1) → s.heldPage l = false →
      (s1.nameConflict l = true → ∃ n, n < 4096 ∧ ∀ f ∈ (s1.die (dieOf core)).faults, f.id ≠ n) →
      ∃ u e, exec (.walkComplete core space va) s = .next u ∧ e ∈ (u.core core).filter ∧ e.space = l.space ∧
        e.vbase = l.vbase ∧ e.lg = l.lg ∧ e.attr = l.attr ∧ e.pd = false ∧
        (s1.nameConflict l = true → l.attr.w = true → l.d = true →
          (s1.core core).bufferedPage l.space l.vbase (2 ^ l.lg) = false →
          e.cf = false ∧ ∃ f ∈ (u.die (dieOf core)).faults, f.space = l.space ∧ f.va = va / 4096 * 4096)) ∧
    ∀ level, s.translate (dieOf core) space va .read false = (.pending l level, s1) → s.heldPage l = false →
      ∃ u e, exec (.walkComplete core space va) s = .next u ∧ e ∈ (u.core core).filter ∧ e.space = l.space ∧
        e.vbase = l.vbase ∧ e.lg = l.lg ∧ e.attr = l.attr ∧ e.pd = true ∧ e.cf = false) ∧
  ∀ (s : State) (die : Nat) (f : HostFault), die < 4 → (s.die die).unposted = some f →
    let q := s.queue (34 + die)
    (s.canPost (34 + die) = false → exec (.faultEntryPost die) s = .next s) ∧
    (s.canPost (34 + die) = true → ∃ u, exec (.faultEntryPost die) s = .next u ∧
      (u.queue (34 + die)).tail = q.tail + 1 ∧ { f with posted := true } ∈ (u.die die).faults ∧
      let w := u.readPA (hostPA (q.base.toNat + 16 * (q.tail.toNat % q.cap))) 16
      w % 512 = 1 ∧ w / 2 ^ 9 % 2 ^ 8 = f.waits % 2 ^ 8 ∧ w / 2 ^ 23 % 2 ^ 4 = f.wres % 2 ^ 4 ∧
        w / 2 ^ 30 % 2 ^ 9 = f.core % 2 ^ 9 ∧ w / 2 ^ 39 % 2 ^ 16 = f.id % 2 ^ 16 ∧
        w / 2 ^ 55 % 2 ^ 16 = f.space.toNat ∧ w / 2 ^ 71 = f.va % 2 ^ 57)

/-- Together: BufferedStoreSteps; WalkAndFaultQueueSteps. The rules and the model's own choices are named at each
part. -/
def Obligations.StoreAndFaultSteps : Prop :=
  Sys2Proof.Slice0.BufferedStoreSteps ∧ Sys2Proof.Slice0.WalkAndFaultQueueSteps

/-- 03 R46 to R48, R50, R52, 06 R122: the caches' own steps. CACHE_FILL lands the oldest fill, or drops one that cannot
land, and waits under a hold. EVICTION takes the frame of an address out of its cache and sends its dirty slots outward.
WRITE_BACK_MERGE merges the oldest write-back: every byte of its mask is dirty in the L2, or is in device memory, and no
other byte of device memory changes; in the control window its bytes go to the registers under its mask (01 R14).
BYPASS_WRITE_ACK and TARGET_ACKNOWLEDGEMENT perform the oldest write of their kind in device memory, or in the control
window's registers. That write-backs of different slots and bypassing writes go in the order in which they were sent is the
model's choice (log entry 91, DESIGN CHOICE). -/
def Sys2Proof.Slice0.CacheSteps : Prop :=
  (∀ (s : State) (core : Nat) (f : FillReq) (rest : List FillReq), (s.core core).fills = f :: rest →
    let s0 := s.setCore core { s.core core with fills := rest }
    let a : Acc := { core := core, slot := 0, space := f.space, user := true, kind := 0, gseg := 0, off := 0,
                     rva := f.va, pva := f.va, va := f.va, elem := 0, ew := 0, col := f.col, requester := false }
    (s.held f.space f.va = true → exec (.cacheFill core) s = .next s) ∧
    (s.held f.space f.va = false →
      (∀ r u, fillL1 a f.attr.tclass s0 = .ok r u → exec (.cacheFill core) s = .next u) ∧
      (∀ u, fillL1 a f.attr.tclass s0 = .stop .wait u → exec (.cacheFill core) s = .next s) ∧
      ∀ t u, fillL1 a f.attr.tclass s0 = .stop (.trap t) u → exec (.cacheFill core) s = .next s0)) ∧
  (∀ (s : State) (unit : Nat) (space : BitVec 16) (va : Nat) (f : Frame),
    let sent := fun (ws : List WriteBack) => ∀ i, i < f.tclass.rows → (f.row i).dirty ≠ 0 →
      ∃ w ∈ ws, w.space = f.space ∧ w.va = f.base + 128 * i ∧ w.dirty = (f.row i).dirty ∧ w.data = (f.row i).data ∧
        w.poison = (f.row i).poison
    (Cache.find (s.core unit).l1 space va = some f → ∃ ws, sent ws ∧
      exec (.eviction .l1 unit space va) s = .next (s.setCore unit { s.core unit with
        l1 := (s.core unit).l1.filter fun g => g ≠ f, wbq := (s.core unit).wbq ++ ws })) ∧
    (Cache.find (s.cluster unit).l2 space va = some f → ∃ ws, sent ws ∧
      exec (.eviction .l2 unit space va) s = .next (s.setCluster unit { s.cluster unit with
        l2 := (s.cluster unit).l2.filter fun g => g ≠ f, wbq := (s.cluster unit).wbq ++ ws }))) ∧
  (∀ (s : State) (unit : Nat) (w : WriteBack) (rest : List WriteBack), w.va % 128 = 0 →
    ((s.core unit).wbq = w :: rest → distinctFrames (s.cluster (clusterOf unit)).l2 →
      wholeFrame (s.cluster (clusterOf unit)).l2 w.space w.va →
      ∃ u, exec (.writeBackMerge .l1 unit) s = .next u ∧ (u.core unit).wbq = rest ∧ u.mem = s.mem ∧
        ∀ k, k < 128 → w.dirty.getLsbD k = true →
          dirtyByte (u.cluster (clusterOf unit)).l2 w.space (w.va + k) (BitVec.ofNat 8 (elt w.data.toNat 8 k))) ∧
    ∀ pa, (s.cluster unit).wbq = w :: rest → s.namedPA w.space w.va = some pa → s.peerRefuses pa = false →
      let s0 := s.setCluster unit { s.cluster unit with wbq := rest }
      (inCtl pa = true → exec (.writeBackMerge .l2 unit) s = .next
        (s0.ctlWriteWords (pa - 0x20000000000) w.dirty.toNat w.data.toNat 16)) ∧
      (inCtl pa = false → ∃ u, exec (.writeBackMerge .l2 unit) s = .next u ∧ (u.cluster unit).wbq = rest ∧
        (∀ a, (a < pa ∨ pa + 128 ≤ a ∨ w.dirty.getLsbD (a - pa) = false) → u.mem.get a = s.mem.get a) ∧
        ∀ k, k < 128 → w.dirty.getLsbD k = true → u.mem.get (pa + k) = BitVec.ofNat 8 (elt w.data.toNat 8 k))) ∧
  ∀ (s : State) (core : Nat) (w : SentWrite) (rest : List SentWrite), s.peerRefuses w.pa = false →
    let registers := fun (s0 : State) =>
      s0.ctlWriteRun (w.pa - 0x20000000000) w.bytes.length (ofBytes w.bytes)
    let landed := fun (u : State) => (∀ k b, w.bytes[k]? = some b → u.mem.get (w.pa + k) = b) ∧
      ∀ a, (a < w.pa ∨ w.pa + w.bytes.length ≤ a) → u.mem.get a = s.mem.get a
    ((s.core core).bypass = w :: rest →
      (inCtl w.pa = true → exec (.bypassWriteAck core) s =
        .next (registers (s.setCore core { s.core core with bypass := rest }))) ∧
      (inCtl w.pa = false →
        ∃ u, exec (.bypassWriteAck core) s = .next u ∧ (u.core core).bypass = rest ∧ landed u)) ∧
    ((s.core core).target = w :: rest →
      (inCtl w.pa = true → exec (.targetAcknowledgement core) s =
        .next (registers (s.setCore core { s.core core with target := rest }))) ∧
      (inCtl w.pa = false →
        ∃ u, exec (.targetAcknowledgement core) s = .next u ∧ (u.core core).target = rest ∧ landed u))

/-- 04 R91, R92, 03 R61, 27 R391: NAME_RECALL of a directory that is full, with its 16,384 records, frees a name; afterwards
no core's filter confirms a page of its range and no L1 holds a line of it. While the directory has room none is recalled.
ECC_ERROR of a word that its place does not hold changes nothing; a correctable one is only counted; an uncorrectable one in
a scratchpad word leaves the word poisoned, and is counted and logged. -/
def Sys2Proof.Slice0.RecallAndErrorSteps : Prop :=
  (∀ (s : State) (die idx : Nat), (s.die die).names.length < 16384 → exec (.nameRecall die idx) s = .next s) ∧
  (∀ (s : State) (die idx : Nat) (n : NameRec), 16384 ≤ (s.die die).names.length → (s.die die).names[idx]? = some n →
    ∃ u, exec (.nameRecall die idx) s = .next u ∧ n ∉ (u.die die).names ∧
      ∀ k, (∀ e ∈ (u.core k).filter, e.space = n.space → n.vbase ≤ e.vbase → e.vbase < n.vbase + 2 ^ n.lg → e.cf = false) ∧
        ∀ f ∈ (u.core k).l1, ¬(f.space = n.space ∧ n.vbase ≤ f.base ∧ f.base < n.vbase + 2 ^ n.lg)) ∧
  ∀ (s : State) (place : EccPlace) (unit : Nat) (space : BitVec 16) (addr : Nat),
    (s.errorAt place unit space addr = none →
      ∀ fixable, exec (.eccError place unit space addr fixable) s = .next s) ∧
    (s.errorAt place unit space addr ≠ none → exec (.eccError place unit space addr true) s = .next { s with
      sts := { s.sts with corrected := if s.sts.corrected = BitVec.allOnes 64 then s.sts.corrected
        else s.sts.corrected + 1 } }) ∧
    (addr < 1015808 → ∃ u, exec (.eccError .scratchpad unit space addr false) s = .next u ∧
      addr / 8 ∈ (u.core unit).spPoison ∧ u.sts.corrected = s.sts.corrected ∧ u.sts.evCount = s.sts.evCount + 1 ∧
      u.sts.uncorrected = (if s.sts.uncorrected = BitVec.allOnes 64 then s.sts.uncorrected else s.sts.uncorrected + 1))

/-- Together: CacheSteps; RecallAndErrorSteps. The rules and the model's own choices are named at each part. -/
def Obligations.CacheAndErrorSteps : Prop :=
  Sys2Proof.Slice0.CacheSteps ∧ Sys2Proof.Slice0.RecallAndErrorSteps

/-! ## Regions, launches and contexts (08 R153 to R157; 09 R166 to R172, R177; 10 R188, R190, R192 to R197) -/

/-- 08 R156, 10 R188, R190: FAULT_DOMAIN_END of a hart whose trap is fatal, or was taken in supervisor mode, leaves no
hart of its region, started or saved; one in a recoverable trap goes on waiting. REGION_RETIRE of a root region with no
live hart and no child (a root has no parent, though a block lie at address 0), whose release loses no write-back to a
peer (26 R382), writes state 4 into its block, returns its grants and takes it out of the front end; with a child, or with
a live hart, it does nothing. The front end counts harts and children itself, whatever the block in memory shows (log
entry 69), and the end of a domain is one step (log entry 68). -/
def Obligations.RegionsEnd : Prop :=
  (∀ (s : State) (core slot : Nat) (h : Hart) (t : Handling), s.hart? (hkey core slot) = some h → h.trap = some t →
    let wait := t.frec.cause = 0x0B ∧ t.frec.rep = true ∨ t.frec.cause = 0x0C ∧ t.frec.rep = true ∨
      t.frec.cause = 0x13 ∧ t.frec.inner = 0x0B
    (t.nested = false → wait → exec (.faultDomainEnd core slot) s = .next s) ∧
    (t.nested = true ∨ ¬wait → (∃ r ∈ s.fe.regions, r.f.blk = h.blk ∧ r.ending = none) →
      ∃ u, exec (.faultDomainEnd core slot) s = .next u ∧ (∀ q ∈ u.harts, q.2.blk ≠ h.blk) ∧
        ∀ q ∈ u.fe.saved, q.blk ≠ h.blk)) ∧
  ∀ (s : State) (blk : Nat) (r : Region), s.region blk = some r → r.ending = none →
    let children := (s.fe.regions.countP fun q => q.f.parent ≠ 0 && q.f.parent = blk)
      + s.fe.launches.countP fun l => l.f.parent ≠ 0 && l.f.parent = blk
    let live := (s.harts.countP fun q => q.2.blk = blk) + s.fe.saved.countP fun q => q.blk = blk
    (children ≠ 0 ∨ live ≠ 0 → exec (.regionRetire blk) s = .next s) ∧
    (children = 0 → live = 0 → r.f.parent = 0 → blk + 64 ≤ 2 ^ 51 →
      (∀ q, (r.cores.foldl (fun t k => t.releaseSteps k r.f.space .s) s).region blk = some q → q.lost = false) →
      ∃ u, exec (.regionRetire blk) s = .next u ∧ u.region blk = none ∧ u.readPA blk 64 / 2 ^ 168 % 16 = 4 ∧
        u.harts = s.harts ∧ ∀ k ∈ r.cores, ∀ g ∈ (u.core k).grants, g.blk ≠ blk)

namespace Sys2Proof.Slice0

/-- Elements of each hart of a launch (08 R157): a multiple of 64. -/
def chunk (n hmax : Nat) : Nat := 64 * (((n + hmax - 1) / hmax + 63) / 64)

end Sys2Proof.Slice0

namespace Sys2Proof.Slice0

/-- Field [hi:lo] of a launch packet (09 R167), and of a region block (08 R153). -/
def pk (p : Packet) (hi lo : Nat) : Nat := p.bits / 2 ^ lo % 2 ^ (hi + 1 - lo)
def blockField (s : State) (blk hi lo : Nat) : Nat := s.readPA blk 64 / 2 ^ lo % 2 ^ (hi + 1 - lo)

/-- A block lies in device memory (log entry 43 for reduced service) at a multiple of 64. -/
def blockPlace (s : State) (blk : Nat) : Prop :=
  blk % 64 = 0 ∧ if s.sts.phase = 3 then blk + 64 ≤ 0x3000000000
    else 0x10000000000 ≤ blk ∧ blk + 64 ≤ 0x10040000000

/-- The block of a packet cannot be used: by its place or its state, or since the front end keeps it for a region or a launch
(log entry 34). -/
def unusableBlock (s : State) (blk : Nat) : Prop :=
  ¬blockPlace s blk ∨ blockField s blk 171 168 ≠ 0 ∨ s.fieldsOf blk ≠ none

/-- The code object that a packet names serves its binding 0 and its entry, in the region's space. -/
def codeServes (s : State) (p : Packet) (f : Fields) : Prop :=
  ∃ o, s.fe.objects.find? (fun o => o.handle = pk p 159 128) = some o ∧ o.level ≤ 3 ∧ o.space = f.space ∧
    p.bits.testBit 80 = true ∧
    let g := BitVec.ofNat 128 (pk p 1407 1280)
    segX g = true ∧ o.base ≤ segBase g ∧ segBase g + segLimit g ≤ o.base + o.len ∧ pk p 383 320 % 4 = 0 ∧
      pk p 383 320 < segLimit g

/-- The condition of a launch status code of 09 R168 holds of a packet with the effective fields f. The parent's state is read
from its block, and the front end must still keep the region, with a live hart (log entry 34); harts free are those that R154
counts. Code 0x0E comes later, from the host. -/
def refuses (s : State) (p : Packet) (f : Fields) (c : Nat) : Prop :=
  let up := s.ancestors (pk p 447 384)
  match c with
  | 0x01 => pk p 7 0 ≠ 1 ∨ pk p 4095 3328 ≠ 0 ∨ pk p 30 8 ≠ 0 ∨ pk p 32 31 = 3 ∨
      ∃ j, j < 16 ∧ p.bits.testBit (80 + j) = true ∧ ∃ i, i < 128 ∧ p.bits.testBit (1280 + 128 * j + i) = true ∧
        ¬(64 ≤ i ∧ i < 121 ∨ 60 ≤ i ∧ i < 64 ∨ 6 ≤ i ∧ i < 57)
  | 0x02 => unusableBlock s (pk p 511 448)
  | 0x03 =>
    let q := pk p 447 384
    q ≠ 0 ∧ (¬blockPlace s q ∨ blockField s q 171 168 ≠ 2 ∨ s.region q = none ∨ s.nlive q = 0)
  | 0x04 => pk p 447 384 = 0 ∧ pk p 75 68 ≠ 0xFF
  | 0x05 => f.hmax = 0 ∨ 384 * 2 ^ f.lp < f.hmax ∨ ∃ a ∈ up, a.hmax < s.hartCount a.blk + f.hmax
  | 0x06 => ∃ a ∈ up, a.spb < f.spb
  | 0x07 => 16 < f.ixu ∨ ∃ a ∈ up, a.ixu < f.ixu
  | 0x08 => 8 < f.tqsz ∨ f.tqbase % 4096 ≠ 0
  | 0x09 => f.pwr = 0 ∨ f.space = 0
  | 0x0A => ¬codeServes s p f
  | 0x0B => ∃ o, s.fe.objects.find? (fun o => o.handle = pk p 159 128) = some o ∧
      (64 < o.vregs ∨ 1015808 < o.spbytes ∨ 8192 < o.ixent)
  | 0x0C => 2 ^ 56 < pk p 319 256
  | 0x0D =>
    let need := (f.hmax + 2 ^ f.lp - 1) / 2 ^ f.lp
    pk p 32 31 = 1 ∧ 8 < need ∨ pk p 32 31 = 2 ∧ 96 < need
  | 0x0F => (match s.fe.pool with
    | some q => q.2
    | none => 0) < f.hmax * (0x8000 + 8 * (16384 / 2 ^ f.lp))
  | _ => False

/-- The code that decides: the first whose condition holds, or 0 where none does. -/
def decides (s : State) (p : Packet) (f : Fields) (c : Nat) : Prop :=
  (∀ k, k < c → ¬refuses s p f k) ∧ (refuses s p f c ∨ c = 0) ∧ (c = 0 → ∀ k, ¬refuses s p f k)

/-- The completion entry of a refused packet (26 R378); its state is that of the block (log entry 33). -/
def refusal (p : Packet) (c : Nat) : Nat := 2 ^ 96 * pk p 127 96 + 2 ^ 88 * c + 2 ^ 84 * 7 + pk p 511 448

end Sys2Proof.Slice0

/-- 09 R166 to R169: LAUNCH_PACKET_TAKE takes the packet of the queue whose turn it is: the head moves on, and the first
condition of R168 that holds decides its code. Code 0 accepts it: it becomes the last waiting launch, with the packet's entry,
count and tag, its block is in state 1, and no completion is posted. Another code refuses it: the launches are as they were;
a block that cannot be used is unchanged, another one has the code in lstat and state 7 and is otherwise as it was; and the
completion entry with the code and the tag goes into the queue's completion ring, or is held where that cannot take it. Out
of turn LAUNCH_PACKET_TAKE does nothing. Three points are the model's readings: a block of a live region that a lower code
refuses (log entry 34), the state in the completion (log entry 33), and device memory in reduced service (log entry 43). -/
def Sys2Proof.Slice0.LaunchPacketsAreTaken : Prop :=
  ∀ (s : State) (q : Nat),
    (s.nextQueue ≠ some q → exec (.launchPacketTake q) s = .next s) ∧
    (s.nextQueue = some q →
      let p := s.packet q
      let blk := pk p 511 448
      let f := p.fields ((s.region (pk p 447 384)).map (·.f))
      let x := s.queue (16 + q)
      ∀ c, decides s p f c → ∃ u, exec (.launchPacketTake q) s = .next u ∧
        (u.queue q).head = (s.queue q).head + 1 ∧ u.harts = s.harts ∧
        (c = 0 → blockField u blk 171 168 = 1 ∧ u.queue (16 + q) = x ∧
          ∃ l, u.fe.launches = s.fe.launches ++ [l] ∧ l.f = f ∧ l.queue = q ∧ l.waited = 0 ∧
            l.tag.toNat = pk p 127 96 ∧ l.n = pk p 319 256 ∧ l.entry.toNat = pk p 383 320) ∧
        (c ≠ 0 → u.fe.launches = s.fe.launches ∧
          (∀ a, a < 2 ^ 51 → (unusableBlock s blk ∨ a < blk ∨ blk + 64 ≤ a) → u.mem.get a = s.mem.get a) ∧
          (¬unusableBlock s blk → blockField u blk 171 168 = 7 ∧ blockField u blk 179 172 = c ∧
            blockField u blk 167 0 = blockField s blk 167 0 ∧ blockField u blk 511 180 = blockField s blk 511 180) ∧
          let entry := BitVec.ofNat 128 (refusal p c)
          (s.canPost (16 + q) = true → (u.queue (16 + q)).tail = x.tail + 1 ∧
            u.readPA (hostPA (x.base.toNat + 16 * (x.tail.toNat % x.cap))) 16 = entry.toNat) ∧
          (s.canPost (16 + q) = false → u.queue (16 + q) = { x with held := x.held ++ [entry] })))

/-- 09 R170, 08 R157: LAUNCH_PLACEMENT of the launch that comes first, when no resumption goes before it and its whole
placement is possible, starts its harts: hart i runs in user mode at the launch's entry in the region's space, with its
share of the elements in x1 and x2, its number in x3, the arguments from x4 on and the bindings in the segment registers.
The launch is a region then. LAUNCH_AGING lets one launch have waited longer. -/
def Sys2Proof.Slice0.LaunchesArePlaced : Prop :=
  (∀ (s t : State) (l : Launch) (cores areas : List Nat), s.firstLaunch = some l → s.resumeFirst l = false →
    s.placement [] l = some (cores, areas, t) →
    let spots := (t.places l.f cores).take l.f.hmax
    (spots.map fun p => hkey p.1 p.2).Nodup → l.args.length ≤ 12 → l.binds.length = 16 → l.f.hmax ≠ 0 →
    ∃ u, exec .launchPlacement s = .next u ∧ (∀ q ∈ u.fe.launches, q.f.blk ≠ l.f.blk) ∧
      (∃ r ∈ u.fe.regions, r.f = l.f ∧ r.cores = cores ∧ r.ending = none) ∧
      ∀ i p, spots[i]? = some p → i < areas.length → ∃ g, u.hart? (hkey p.1 p.2) = some g ∧ g.pc = l.entry ∧
        g.user = true ∧ g.run = .running ∧ g.blk = l.f.blk ∧ g.space = l.f.space ∧
        g.getX 1 = BitVec.ofNat 64 (min l.n (i * chunk l.n l.f.hmax)) ∧
        g.getX 2 = BitVec.ofNat 64 (min l.n ((i + 1) * chunk l.n l.f.hmax) - min l.n (i * chunk l.n l.f.hmax)) ∧
        g.getX 3 = BitVec.ofNat 64 i ∧
        (∀ k w, l.args[k]? = some w → g.getX (BitVec.ofNat 5 (4 + k)) = w) ∧
        ∀ k w, l.binds[k]? = some w → g.getG k = w) ∧
  ∀ (s : State) (idx n : Nat), ∃ u, exec (.launchAging idx n) s = .next u ∧ u.harts = s.harts ∧
    ∀ k, u.fe.launches[k]? = (s.fe.launches[k]?).map fun l => if k = idx then { l with waited := l.waited + n } else l

/-- Together: LaunchPacketsAreTaken; LaunchesArePlaced. The rules and the model's own choices are named at each part.
-/
def Obligations.LaunchesTakenAndPlaced : Prop :=
  Sys2Proof.Slice0.LaunchPacketsAreTaken ∧ Sys2Proof.Slice0.LaunchesArePlaced

namespace Sys2Proof.Slice0

/-- A hart whose instruction is run to its end before a pre-emption (10 R192 step 1): it waits after it has accessed a page
that is not of the normal class, which the hart has noted with the instruction's sequence number. -/
def mustFinish (h : Hart) : Prop := h.pinned = some h.seq ∧ h.trap = none

/-- The saved hart that resumes next in a slot (09 R171, R172): no waiting launch has a higher prio, no saved hart of any slot
belongs to a region that comes before its own, by prio and then by placement, and it is the only one of the slot of which
that holds. Of several the statement says nothing (log entry 100). -/
def comesFirst (s : State) (q : SavedHart) : Prop :=
  (∀ l, s.firstLaunch = some l → l.f.prio ≤ s.prioOf q.blk) ∧
    ∀ p ∈ s.fe.saved, s.prioOf p.blk < s.prioOf q.blk ∨
      (s.prioOf p.blk = s.prioOf q.blk ∧ s.placedAt q.blk ≤ s.placedAt p.blk)
def resumesNext (s : State) (core slot : Nat) (q : SavedHart) : Prop :=
  q ∈ s.fe.saved ∧ q.core = core ∧ q.slot = slot ∧ comesFirst s q ∧
    ∀ p ∈ s.fe.saved, p.core = core → p.slot = slot → comesFirst s p → p = q

end Sys2Proof.Slice0

/-- 09 R171, R172, 10 R192 to R197, R200: PREEMPTION of a victim stops every hart of the region, one that waits on a full
ring among them (log entry 38), and no other; while an instruction of the region has to run to its end it stops none.
CONTEXT_SAVE of a stopped hart whose work has drained and that owes no trap frees its slot and leaves its registers, pc and
sequence number in its save area. CONTEXT_RESTORE restores none while a waiting launch, or a hart saved in any slot, comes
first (log entry 100); a saved hart that comes first and whose image fits goes on from it in user mode on its own free
slot, or ends its domain when its host fault was answered "fail" meanwhile. -/
def Obligations.ContextsMove : Prop :=
  (∀ (s : State) (blk : Nat) (l : Launch), s.firstLaunch = some l → s.resumeFirst l = false → blk ∈ s.victims l →
    ((∃ q ∈ s.harts, q.2.blk = blk ∧ mustFinish q.2) → exec (.preemption blk) s = .next s) ∧
    ((∀ q ∈ s.harts, q.2.blk = blk → ¬mustFinish q.2 ∧ ∀ a, q.2.run ≠ .draining a) →
      ∃ u, exec (.preemption blk) s = .next u ∧
        ∀ k h, s.hart? k = some h →
          (h.blk ≠ blk → u.hart? k = some h) ∧
          (h.blk = blk → ∃ a, u.hart? k = some { h with run := .draining a } ∧
            (a = true ↔ ∃ any d x y, h.run = .asleep any d x y)))) ∧
  (∀ (s : State) (core slot : Nat) (h : Hart) (asleep : Bool), s.hart? (hkey core slot) = some h →
    h.run = .draining asleep → h.trap = none → h.fail = none →
    (∀ m ∈ (s.core core).cmds, m.slot ≠ slot) → (∀ e ∈ (s.core core).sb, e.slot = slot → e.state = .reported) →
    (s.core core).sb.length ≤ 128 → (s.core core).lpart ≤ 3 →
    ∃ u, exec (.contextSave core slot) s = .next u ∧ u.hart? (hkey core slot) = none ∧
      (∃ q ∈ u.fe.saved, q.core = core ∧ q.slot = slot ∧ q.blk = h.blk ∧ q.area = h.area ∧ q.asleep = asleep) ∧
      (∀ i, 1 ≤ i → i < 32 → u.readPA (h.area + 0x100 + 8 * i) 8 = (h.getX (BitVec.ofNat 5 i)).toNat) ∧
      u.readPA (h.area + 48) 8 = h.pc.toNat ∧ u.readPA (h.area + 56) 8 = h.seq % 2 ^ 64) ∧
  (∀ (s : State) (core slot : Nat), (∀ q ∈ s.fe.saved, q.core = core → q.slot = slot → ¬comesFirst s q) →
    exec (.contextRestore core slot) s = .next s) ∧
  ∀ (s : State) (core slot : Nat) (q : SavedHart), resumesNext s core slot q →
    (s.hart? (hkey core slot) ≠ none → exec (.contextRestore core slot) s = .next s) ∧
    (s.hart? (hkey core slot) = none →
      let head := s.readPA q.area 64
      head % 256 = 1 → head / 2 ^ 346 % 4 = (s.core core).lpart → head / 2 ^ 348 % 16 = 5 - (s.core core).lpart →
      (∀ f, q.failed = some f →
        exec (.contextRestore core slot) s = .next (s.endDomain f.blk f.cause f.pc f.core f.slot)) ∧
      (q.failed = none → q.trap = none → head / 2 ^ 368 % 2 ^ 16 = 0 →
      ∃ u g, exec (.contextRestore core slot) s = .next u ∧ u.hart? (hkey core slot) = some g ∧
        g.user = true ∧ g.run = .running ∧ g.trap = none ∧ g.blk = q.blk ∧
        g.pc = BitVec.ofNat 64 (s.readPA (q.area + 48) 8) ∧ g.seq = s.readPA (q.area + 56) 8 ∧
        (∀ i, 1 ≤ i → i < 32 → g.getX (BitVec.ofNat 5 i) = BitVec.ofNat 64 (s.readPA (q.area + 0x100 + 8 * i) 8)) ∧
        q ∉ u.fe.saved))

/-- 09 R177: ARBITER_EPOCH grants each core of the die 8 to 16 of every 16 issue cycles, all 16 of them to every core when
the demands fit the die's 1,500 A, and then counts no throttled epoch. A core that did no array work demands nothing. -/
def Obligations.ArbiterGrants : Prop :=
  ∀ (s : State) (die : Nat) (demand : List Nat), ∃ u, exec (.arbiterEpoch die demand) s = .next u ∧
    u.harts = s.harts ∧ u.mem = s.mem ∧
    (∀ p ∈ s.cores, p.1 / 96 = die → 8 ≤ (u.core p.1).q ∧ (u.core p.1).q ≤ 16 ∧ (u.core p.1).worked = 0) ∧
    (((s.cores.filter fun p => p.1 / 96 = die).map fun p =>
        if (s.core p.1).worked = 0 then 0 else demand.getD (p.1 % 96) 0).sum ≤ 1500000 →
      (∀ p ∈ s.cores, p.1 / 96 = die → (u.core p.1).q = 16) ∧ (u.die die).throttled = (s.die die).throttled)

/-! ## Host, bring-up, links and commands (07 R138, R139; 26 R374 to R382; 27 R383 to R391; 04 R94 to R96; 20 R357) -/

namespace Sys2Proof.Slice0

/-- Everything but the host interface's registers is the same. -/
def onlyHostRegisters (s u : State) : Prop :=
  u.mem = s.mem ∧ u.harts = s.harts ∧ u.cores = s.cores ∧ u.clusters = s.clusters ∧ u.dies = s.dies ∧ u.xlat = s.xlat ∧
    u.fe = s.fe ∧ u.sts = s.sts ∧ u.io.current = s.io.current

/-- Everything but the translation state is the same. -/
def onlyTranslation (s u : State) : Prop :=
  u.mem = s.mem ∧ u.harts = s.harts ∧ u.cores = s.cores ∧ u.clusters = s.clusters ∧ u.dies = s.dies ∧ u.fe = s.fe ∧
    u.sts = s.sts ∧ u.io = s.io

/-- Host-fed queues (26 R375): the launch queues 0 to 15 and the command queue 32. -/
def fromHost (q : Nat) : Prop := q < 16 ∨ q = 32

/-- Entries that a queue's ring holds. -/
def capacity (x : Queue) : Nat := 2 ^ (min x.lsz.toNat 8 + 4)

/-- Where a device address of the memory window lies: GDDR 7 in full service, else the SRAM window (26 R374, 27 R386). -/
def windowStart (s : State) : Nat := if s.sts.phase = 3 then 0 else 0x10000000000
def windowSize (s : State) : Nat := if s.sts.phase = 3 then 0x3000000000 else 0x40000000

/-- The bytes that an outside reader got. -/
def answered (s : State) (b : List Byte) : State := { s with io := { s.io with lastRead := b } }

/-- The code that an atomic of a peer leaves for an old value m, with its operands v and c, or none where it writes nothing:
its operation is numbered as the field F of 14 R261 numbers it. -/
def peerNew (op : BitVec 4) (w : AmoWidth) (m v c : Nat) : Option Nat :=
  let n := 8 * wide w
  if op = 0 then some (m + v)
  else if op = 1 then some (m &&& v)
  else if op = 2 then some (m ||| v)
  else if op = 3 then some (m ^^^ v)
  else if op = 4 then some (if sgn n v < sgn n m then v else m)
  else if op = 5 then some (if sgn n m < sgn n v then v else m)
  else if op = 6 then some (min m v)
  else if op = 7 then some (max m v)
  else if op = 8 then some v
  else if op = 9 then (if m = v then some c else none)
  else if op = 10 then some (floatAdd (if w = .w32 then .f32 else .f64) m v).1
  else none

/-- What the host reads k bytes beyond an offset of the window. -/
def hostSees (s : State) (off k : Nat) : Byte :=
  if off + k < windowSize s then s.mem.get (windowStart s + off + k) else 0xFF

end Sys2Proof.Slice0

/-- 26 R375 to R377, R381: QUEUE_DOORBELL writes a host-fed tail, and a queue that is on and then holds more than its
capacity has err set, but for phase 4; QUEUE_HEAD_WRITE writes a device-fed head and ends its outstanding interrupt;
QUEUE_ERR_CLEAR clears err; QUEUE_ENABLE writes en. REGISTER_WRITE of a peer-table entry keeps its named bits, and writes
at unaligned offsets are ignored. That capacity codes above 8 count as 8 is the model's choice (log entry 140, DESIGN
CHOICE). -/
def Sys2Proof.Slice0.QueueRegisters : Prop :=
  ∀ (s : State) (q : Nat),
    (∀ tail, fromHost q → ∃ u, exec (.queueDoorbell q tail) s = .next u ∧ onlyHostRegisters s u ∧
      (u.queue q).tail = tail ∧ (u.queue q).head = (s.queue q).head ∧
      ((u.queue q).err = true ↔ (s.queue q).err = true ∨
        ((s.queue q).en = true ∧ s.sts.phase ≠ 4 ∧ capacity (s.queue q) < (tail - (s.queue q).head).toNat))) ∧
    (∀ head, ¬fromHost q → q < 38 → (s.queue q).held = [] →
      ∃ u, exec (.queueHeadWrite q head) s = .next u ∧ onlyHostRegisters s u ∧ (u.queue q).head = head ∧
        (u.queue q).outstanding = false ∧ (u.queue q).tail = (s.queue q).tail) ∧
    (q < 38 → ∃ u, exec (.queueErrClear q) s = .next u ∧ onlyHostRegisters s u ∧ (u.queue q).err = false) ∧
    (∀ en, q < 38 → (s.queue q).held = [] → ∃ u, exec (.queueEnable q en) s = .next u ∧ onlyHostRegisters s u ∧
      (u.queue q).en = en ∧ (u.queue q).tail = (s.queue q).tail ∧ (u.queue q).head = (s.queue q).head) ∧
    (∀ n val, n < 1024 → ∃ u, exec (.registerWrite (0x2000 + 8 * n) val) s = .next u ∧ onlyHostRegisters s u ∧
      ∃ w, aget u.io.peers n = some w ∧
        ∀ i, i < 64 → w.getLsbD i = ((decide (i = 63 ∨ 26 ≤ i ∧ i < 44 ∨ i < 16)) && val.getLsbD i)) ∧
    ∀ off val, off % 8 ≠ 0 → exec (.registerWrite off val) s = .next s

/-- 07 R138, R139, 26 R374, R382, 27 R385, R386: HOST_MEMORY_READ returns device bytes as the home slices hold them, all
ones beyond what the window reaches in this phase; HOST_MEMORY_WRITE writes them there, and drops what lies beyond;
nothing of it reaches a cache. A peer's read, write and aligned atomic, of every operation and width, act on GDDR 7 in full
service; a read gives the bytes read, an atomic those of the old value. A request that is refused changes no memory, and a
read or an atomic then gives no bytes. No range is protected. That a peer's request is refused outside phase 3 and where it
reaches beyond GDDR 7 are the model's readings (log entries 43 and 50). -/
def Obligations.HostAndPeerAccesses : Prop :=
  ∀ (s : State), s.sts.prot = [] →
    (∀ off len, exec (.hostMemoryRead off len) s = .next (answered s ((List.range len).map (hostSees s off)))) ∧
    (∀ off bytes ro, ∃ u, exec (.hostMemoryWrite off bytes ro) s = .next u ∧ u.cores = s.cores ∧
      u.clusters = s.clusters ∧ u.harts = s.harts ∧
      ∀ a, u.mem.get a = if windowStart s + off ≤ a ∧ a < windowStart s + off + bytes.length ∧
          a < windowStart s + windowSize s then bytes.getD (a - (windowStart s + off)) 0 else s.mem.get a) ∧
    (s.sts.phase = 3 →
      (∀ pa len, pa + len ≤ 0x3000000000 → exec (.peerRequest (.read pa len)) s =
        .next (answered s ((List.range len).map fun k => s.mem.get (pa + k)))) ∧
      (∀ pa bytes, pa + bytes.length ≤ 0x3000000000 → ∃ u, exec (.peerRequest (.write pa bytes)) s = .next u ∧
        u.harts = s.harts ∧ u.cores = s.cores ∧
        ∀ a, u.mem.get a = if pa ≤ a ∧ a < pa + bytes.length then bytes.getD (a - pa) 0 else s.mem.get a) ∧
      ∀ op (w : AmoWidth) pa v c, pa + wide w ≤ 0x3000000000 → pa % wide w = 0 →
        let m := s.readPA pa (wide w)
        let b := 2 ^ (8 * wide w)
        ∃ u, exec (.peerRequest (.atomic op w pa v c)) s = .next u ∧ u.harts = s.harts ∧ u.cores = s.cores ∧
          u.readPA pa (wide w) = (peerNew op w m (v.toNat % b) (c.toNat % b)).getD m % b ∧
          u.io.lastRead.length = wide w ∧ ofBytes u.io.lastRead = m ∧
          ∀ a, a < pa ∨ pa + wide w ≤ a → u.mem.get a = s.mem.get a) ∧
    ∀ pa,
      (∀ len, s.sts.phase ≠ 3 ∨ 0x3000000000 < pa + len →
        exec (.peerRequest (.read pa len)) s = .next (answered s [])) ∧
      (∀ bytes : List Byte, s.sts.phase ≠ 3 ∨ 0x3000000000 < pa + bytes.length →
        exec (.peerRequest (.write pa bytes)) s = .next s) ∧
      ∀ op (w : AmoWidth) v c, s.sts.phase ≠ 3 ∨ 0x3000000000 < pa + wide w →
        exec (.peerRequest (.atomic op w pa v c)) s = .next (answered s [])

/-- 27 R383, R385, R387, R390, 01 R21: DEVICE_RESET brings every unit to its reset state and keeps what stands in memory,
but for protected ranges. BOOT_DOORBELL starts phase 1 from phase 0 alone; IMAGE_VERIFY_COMPLETE then either runs the
firmware in phase 2, from a well-formed and signed image, with the reserved bits of the supervisor's g0 and g1 zero, or
halts in phase 4 with its code; GDDR_TRAINING_COMPLETE halts with code 4 or readies the change; FULL_SERVICE_CHANGE, with
no region, no launch and no command under way, clears the SRAM window, its objects and every cache, and serves in phase 3.
That a reset keeps device memory and the values it gives to what the spec gives none are the model's choices (log entries
5, 20); which images are well formed and signed is left open (log entry 10), and so is the order of the image's checks
(log entry 48). -/
def Obligations.BringUpSteps : Prop :=
  ∀ (s : State),
    (∃ u, exec .deviceReset s = .next u ∧ (s.sts.prot = [] → u.mem = s.mem) ∧
      (∀ a, (∀ p ∈ s.sts.prot, ¬(p.1 ≤ a ∧ a < p.1 + p.2)) → u.mem.get a = s.mem.get a) ∧
      u.harts = [] ∧ u.cores = [] ∧ u.clusters = [] ∧ u.dies = [] ∧
      u.xlat = State.reset.xlat ∧ u.fe = State.reset.fe ∧ u.sts = State.reset.sts ∧ u.io.queues = [] ∧ u.home = []) ∧
    (∀ len, (s.sts.phase = 0 → exec (.bootDoorbell len) s = .next { s with
        sts := { s.sts with phase := 1, bootLen := len % 2 ^ 64 } }) ∧
      (s.sts.phase ≠ 0 → exec (.bootDoorbell len) s = .next s)) ∧
    (let image := s.mem.read 0x10000000000 s.sts.bootLen
     (s.sts.phase ≠ 1 → exec .imageVerifyComplete s = .next s) ∧
     (s.sts.phase = 1 → s.sts.bootLen ≤ 64 * 2 ^ 20 → Config.imageWellFormed image = true →
       Config.signatureValid image = true → ∃ u, exec .imageVerifyComplete s = .next u ∧ u.sts.phase = 2 ∧
         u.sts.image = image ∧ u.sts.fwver = Config.imageVersion image ∧ u.sts.tvec.toNat % 4 = 0 ∧ u.harts = s.harts ∧
         ∀ i, 121 ≤ i ∨ 57 ≤ i ∧ i < 60 ∨ i < 6 → u.sts.sg0.getLsbD i = false ∧ u.sts.sg1.getLsbD i = false) ∧
     (s.sts.phase = 1 → ∀ code : Nat, (code = 3 ∧ 64 * 2 ^ 20 < s.sts.bootLen ∨
         s.sts.bootLen ≤ 64 * 2 ^ 20 ∧ (code = 2 ∧ Config.imageWellFormed image = false ∨
           code = 1 ∧ Config.imageWellFormed image = true ∧ Config.signatureValid image = false)) →
       ∃ u, exec .imageVerifyComplete s = .next u ∧ u.sts.phase = 4 ∧ u.sts.berr = BitVec.ofNat 8 code)) ∧
    (s.sts.phase = 2 → s.sts.trained = false →
      (∃ u, exec (.gddrTrainingComplete false) s = .next u ∧ u.sts.phase = 4 ∧ u.sts.berr = 4) ∧
      exec (.gddrTrainingComplete true) s = .next { s with sts := { s.sts with trained := true } }) ∧
    (s.sts.phase = 2 → s.sts.trained = true → s.fe.regions = [] → s.fe.launches = [] → s.io.current = false →
      ∃ u, exec .fullServiceChange s = .next u ∧ u.sts.phase = 3 ∧ u.sts.trained = false ∧ u.fe.objects = [] ∧
        u.home = [] ∧
        (∀ k, (u.core k).l1 = [] ∧ (u.core k).filter = [] ∧ (u.cluster k).l2 = [] ∧ (u.die k).tcache = [] ∧
          (u.die k).names = []) ∧
        ∀ a, 0x10000000000 ≤ a → a < 0x10040000000 → u.mem.get a = 0) ∧
    (s.sts.phase ≠ 2 ∨ s.io.current = true → exec .fullServiceChange s = .next s)

/-- 27 R390, 26 R382: LINK_BRINGUP takes any link of the device up, whether it was up or down, and no other; of the flits
that a link receives a good one clears the count of failures, and the third bad one in a row takes it down; LINK_FAILURE
takes it down. Every link that goes down is logged, which is the model's reading (log entry 47). -/
def Sys2Proof.Slice0.LinkSteps : Prop :=
  (∀ (s : State) (j : Nat), ∃ u, exec (.linkBringup j) s = .next u ∧
    (j < 18 → aget u.io.links j = some { up := true, failures := 0 }) ∧ (18 ≤ j → u = s) ∧
    (∀ i, i ≠ j → aget u.io.links i = aget s.io.links i) ∧ onlyHostRegisters s u ∧ u.io.queues = s.io.queues ∧
    u.io.peers = s.io.peers) ∧
  ∀ (s : State) (j : Nat) (l : Link), j < 18 → aget s.io.links j = some l → l.up = true →
    (∃ u, exec (.linkFlitReceive j true) s = .next u ∧ aget u.io.links j = some { l with failures := 0 }) ∧
    (l.failures < 2 → ∃ u, exec (.linkFlitReceive j false) s = .next u ∧
      aget u.io.links j = some { l with failures := l.failures + 1 } ∧ u.sts = s.sts) ∧
    (2 ≤ l.failures → ∃ u, exec (.linkFlitReceive j false) s = .next u ∧
      aget u.io.links j = some { up := false, failures := 0 } ∧ u.sts.evCount = s.sts.evCount + 1) ∧
    ∃ u, exec (.linkFailure j) s = .next u ∧ aget u.io.links j = some { up := false, failures := 0 } ∧
      u.sts.evCount = s.sts.evCount + 1

/-- Together: QueueRegisters; LinkSteps. The rules and the model's own choices are named at each part. -/
def Obligations.QueueAndLinkRegisters : Prop :=
  Sys2Proof.Slice0.QueueRegisters ∧ Sys2Proof.Slice0.LinkSteps

namespace Sys2Proof.Slice0

/-- 26 R375, R377, R379: the unit may take the command at the head of ring 32, and c is its eight words, which stand at the
head's host bus address (`hostPA`, log entry 110). After a tail beyond the capacity it takes none until err has been cleared
and the tail written again (R375, log entry 109). Once training is over it takes none either, but it completes the one that it
has begun (27 R387). -/
def atHead (s : State) (c : List Word) : Prop :=
  let q := s.queue 32
  let pa := hostPA (q.base.toNat + 64 * (q.head.toNat % capacity q))
  (s.sts.phase = 2 ∨ s.sts.phase = 3) ∧ (s.sts.trained = false ∨ s.io.current = true) ∧
    q.en = true ∧ q.err = false ∧ q.stuck = false ∧ q.tail ≠ q.head ∧
    (q.tail - q.head).toNat ≤ capacity q ∧ (s.queue 33).held = [] ∧
    c = (List.range 8).map fun i => BitVec.ofNat 64 (s.readPA (pa + 8 * i) 8)

/-- Word n of a command. -/
def word (c : List Word) (n : Nat) : Nat := (c.getD n 0).toNat

/-- Operation `op`, with every word that it does not name zero, and bits 31:8 of c0 too. -/
def commandOf (c : List Word) (op : Nat) (names : List Nat) : Prop :=
  word c 0 % 2 ^ 32 = op ∧ ∀ i, 1 ≤ i → i < 8 → i ∉ names → word c i = 0

/-- The command at the head waits: the unit has begun it. -/
def begun (s : State) : State := { s with io := { s.io with current := true } }

/-- 26 R378, R380: the head moves on, and the entry with the command's tag, status and result is written to queue 33. -/
def finished (t : State) (c : List Word) (status result : Nat) : State :=
  let idle := { t with io := { t.io with current := false } }
  (idle.setQueue 32 { t.queue 32 with head := (t.queue 32).head + 1 }).postOrHold 33
    (BitVec.ofNat 128 (result % 2 ^ 64 + 2 ^ 88 * status + 2 ^ 96 * (word c 0 / 2 ^ 32)))

/-- Device memory holds n bytes from an address (26 R380). -/
def inMemory (s : State) (pa n : Nat) : Prop :=
  if s.sts.phase = 3 then pa + n ≤ 0x3000000000 else 0x10000000000 ≤ pa ∧ pa + n ≤ 0x10040000000

/-- Field [hi:lo] of the header of an object at an address (20 R353). -/
def head (s : State) (pa hi lo : Nat) : Nat := s.readPA pa 64 / 2 ^ lo % 2 ^ (hi + 1 - lo)

/-- Field [hi:lo] of segment entry i, and of symbol entry i, of an object (20 R354, R355). -/
def segEntry (s : State) (pa i hi lo : Nat) : Nat :=
  s.readPA (pa + head s pa 319 256 + 32 * i) 32 / 2 ^ lo % 2 ^ (hi + 1 - lo)
def symEntry (s : State) (pa i hi lo : Nat) : Nat :=
  s.readPA (pa + head s pa 255 192 + 32 * i) 32 / 2 ^ lo % 2 ^ (hi + 1 - lo)

/-- 20 R356: no condition of the status "malformed" holds of the object at an address. -/
def wellFormedObject (s : State) (pa : Nat) : Prop :=
  let size := head s pa 191 128
  let nseg := head s pa 399 392
  let nsym := head s pa 383 352
  head s pa 511 480 = 0x00464F5A ∧ head s pa 479 472 = 1 ∧ head s pa 455 449 = 0 ∧ head s pa 391 384 = 0 ∧
    head s pa 351 320 = 0 ∧ head s pa 127 0 = 0 ∧ head s pa 319 256 % 8 = 0 ∧ head s pa 255 192 % 8 = 0 ∧
    1 ≤ nseg ∧ nseg ≤ 16 ∧ head s pa 319 256 + 32 * nseg ≤ size ∧ head s pa 255 192 + 32 * nsym ≤ size ∧
    2 ≤ head s pa 471 464 ∧ (∃ i, i < nseg ∧ segEntry s pa i 63 60 = 0) ∧
    (∀ i, i < nseg → segEntry s pa i 51 0 = 0 ∧ segEntry s pa i 255 192 + segEntry s pa i 191 128 ≤ size ∧
      ¬(segEntry s pa i 58 58 = 1 ∧ segEntry s pa i 57 57 = 1) ∧ 6 ≤ segEntry s pa i 56 52 ∧
      segEntry s pa i 56 52 ≤ 16 ∧ segEntry s pa i 191 128 ≤ segEntry s pa i 127 64 ∧
      (segEntry s pa i 63 60 = 0 → segEntry s pa i 59 57 = 0b101) ∧
      ∀ j, j < i → segEntry s pa i 63 60 ≠ segEntry s pa j 63 60) ∧
    ∀ i, i < nsym → symEntry s pa i 186 160 = 0 ∧ symEntry s pa i 63 0 = 0 ∧
      symEntry s pa i 127 64 + symEntry s pa i 159 128 ≤ size ∧
      ∃ j, j < nseg ∧ segEntry s pa j 63 60 = symEntry s pa i 191 188 ∧ symEntry s pa i 255 192 ≤ segEntry s pa j 127 64

/-- 20 R357: what is recorded of the object at an address, whose segment entry i is that of its code. -/
def objectRecord (s : State) (pa i id tag base : Nat) : Obj where
  handle := id
  space := BitVec.ofNat 16 tag
  base := base
  len := segEntry s pa i 127 64
  level := head s pa 471 464
  vldep := decide (head s pa 448 448 = 1)
  vregs := head s pa 463 456
  spbytes := head s pa 447 416
  ixent := head s pa 415 400

/-- 26 R379: space tag, base and size of a range that a command may name. -/
def goodRange (c : List Word) : Prop :=
  0 < word c 1 % 2 ^ 16 ∧ 12 ≤ word c 3 % 64 ∧ word c 3 % 64 ≤ 57 ∧ word c 2 % 2 ^ (word c 3 % 64) = 0 ∧
    word c 2 < 2 ^ 57

/-- A hart but for the stores that it has paused. -/
def unpaused (h : Hart) : Hart := { h with placed := none }

/-- A store of a space has been enumerated and is paused (04 R96 step 1, 05 R97). -/
def storePaused (s : State) (tag : Nat) : Prop :=
  ∃ q ∈ s.harts, ∃ p, q.2.placed = some p ∧ ∃ x ∈ p.todo, x.1.a.space.toNat = tag

/-- A store has performed elements, and one that it has not performed lies in a range (04 R94 steps 2 and 4). -/
def storeBegun (s : State) (tag base n : Nat) : Prop :=
  ∃ q ∈ s.harts, ∃ p, q.2.placed = some p ∧ p.begun = true ∧
    ∃ x ∈ p.todo, x.1.a.space.toNat = tag ∧ base ≤ x.1.cell ∧ x.1.cell < base + n

/-- A hold over some byte of a range. -/
def rangeHeld (s : State) (tag base n : Nat) : Prop :=
  ∃ h ∈ s.xlat.holds, h.space.toNat = tag ∧ h.base < base + n ∧ base < h.base + 2 ^ h.lg

/-- 04 R94, R95: no filter, translation cache or walk cache holds anything of a range of a space. -/
def rangeDropped (t : State) (tag base n : Nat) : Prop :=
  (∀ k, ∀ e ∈ (t.core k).filter, ¬(e.space.toNat = tag ∧ e.vbase < base + n ∧ base < e.vbase + 2 ^ e.lg)) ∧
  (∀ k, k < 4 → ∀ e ∈ (t.die k).tcache, ¬(e.space.toNat = tag ∧ e.vbase < base + n ∧ base < e.vbase + 2 ^ e.lg)) ∧
  ∀ k, k < 4 → ∀ e ∈ (t.die k).wcache, e.space.toNat ≠ tag

/-- Only the front end's objects differ, the free choice is spent, and every instruction cache is empty. -/
def objectsChange (s t : State) : Prop :=
  t.mem = s.mem ∧ t.harts = s.harts ∧ t.io = s.io ∧ t.sts = s.sts ∧ t.xlat = s.xlat ∧ ∀ k, (t.core k).l1i = []

end Sys2Proof.Slice0

/-- 20 R356, R357: LOAD_OBJECT answers an address that fails its checks with 0x07; of a well-formed object it answers
a level above 3 with 0x02, then space 0 or a base that is not aligned with 0x03, then a full device with 0x04, and records
nothing; else it records the object under a nonzero handle that no other object has, answers the handle, and empties
every instruction cache. That a part of no bytes beyond the object's size is malformed is the model's choice (log entry 139,
DESIGN CHOICE). 10 R199: UNLOAD of no object answers 0x05, of one that is held 0x06 and the count, else it
forgets the object. -/
def Sys2Proof.Slice0.ObjectCommands : Prop :=
  ∀ (s : State) (c : List Word), atHead s c →
    (commandOf c 1 [1, 2, 3] →
      let pa := word c 1
      let tag := word c 2 % 2 ^ 16
      let level := head s pa 471 464
      ((pa % 64 ≠ 0 ∨ ¬inMemory s pa 64 ∨ ¬inMemory s pa (head s pa 191 128)) →
        exec .loadObject s = .next (finished s c 7 0)) ∧
      (pa % 64 = 0 → inMemory s pa 64 → inMemory s pa (head s pa 191 128) →
        (¬wellFormedObject s pa → exec .loadObject s = .next (finished s c 1 0)) ∧
        (wellFormedObject s pa →
          (3 < level → exec .loadObject s = .next (finished s c 2 0)) ∧
          ∀ i, i < head s pa 399 392 → segEntry s pa i 63 60 = 0 → level ≤ 3 →
            let placed := tag ≠ 0 ∧ word c 3 % 2 ^ segEntry s pa i 56 52 = 0
            (¬placed → exec .loadObject s = .next (finished s c 3 0)) ∧
            (placed → 4096 ≤ s.fe.objects.length → exec .loadObject s = .next (finished s c 4 0)) ∧
            (placed → s.fe.objects.length < 4096 → ∃ id t, id ≠ 0 ∧ id < 2 ^ 32 ∧ (∀ o ∈ s.fe.objects, o.handle ≠ id) ∧
              exec .loadObject s = .next (finished t c 0 id) ∧ objectsChange s t ∧
              t.fe.objects = s.fe.objects ++ [objectRecord s pa i id tag (word c 3)])))) ∧
    (commandOf c 2 [1] →
      let handle := word c 1 % 2 ^ 32
      ((∀ o ∈ s.fe.objects, o.handle ≠ handle) → exec .unload s = .next (finished s c 5 0)) ∧
      ∀ o, s.fe.objects.find? (fun o => o.handle = handle) = some o →
        (s.holders o ≠ 0 → exec .unload s = .next (finished s c 6 (s.holders o))) ∧
        (s.holders o = 0 → ∃ t, exec .unload s = .next (finished t c 0 0) ∧ objectsChange s t ∧
          t.fe.objects = s.fe.objects.filter fun p => p.handle ≠ handle))

/-- 04 R94 to R96: RANGE_HOLD waits while a hold overlaps its own range, which is the model's reading of two holds over one
page that is larger than either (R95; log entry 98, DEDUCED), and while a store that has begun to perform its elements has
one to perform there, which is the model's choice of what a hold does with such a store (log entry 82); else it holds the
range, and no filter, translation cache or walk cache keeps anything of it; of the harts only the paused stores change.
RANGE_FREE ends the hold. SPACE_UPDATE also waits while a store of the space has been enumerated and is neither performed
nor trapped; then it drops the same of the whole space and writes the fields of its descriptor. A range that a command may
not name is answered with 0x07. Which sizes a range may have, that its base lies below 2^57, and that bits above a named
field are ignored, are the model's (log entries 40, DEDUCED, 141, DESIGN CHOICE, and 41). -/
def Sys2Proof.Slice0.RangeCommands : Prop :=
  ∀ (s : State) (c : List Word), atHead s c →
    let tag := word c 1 % 2 ^ 16
    let base := word c 2
    let lg := word c 3 % 64
    (commandOf c 3 [1, 2, 3] →
      (¬goodRange c → exec .rangeHold s = .next (finished s c 7 0)) ∧
      (goodRange c → rangeHeld s tag base (2 ^ lg) ∨ storeBegun s tag base (2 ^ lg) →
        exec .rangeHold s = .next (begun s)) ∧
      (goodRange c → ¬rangeHeld s tag base (2 ^ lg) → ¬storeBegun s tag base (2 ^ lg) →
        ∃ t, exec .rangeHold s = .next (finished t c 0 0) ∧
        t.xlat.holds = s.xlat.holds ++ [{ space := BitVec.ofNat 16 tag, base := base, lg := lg }] ∧
        t.xlat.spaces = s.xlat.spaces ∧ (∀ key, (t.hart? key).map unpaused = (s.hart? key).map unpaused) ∧
        rangeDropped t tag base (2 ^ lg))) ∧
    (commandOf c 4 [1, 2, 3] →
      (¬goodRange c → exec .rangeFree s = .next (finished s c 7 0)) ∧
      (goodRange c → ∃ t, exec .rangeFree s = .next (finished t c 0 0) ∧ onlyTranslation s t ∧
        t.xlat.spaces = s.xlat.spaces ∧
        ∀ h, h ∈ t.xlat.holds ↔ h ∈ s.xlat.holds ∧ h ≠ { space := BitVec.ofNat 16 tag, base := base, lg := lg })) ∧
    (commandOf c 5 [1, 2, 3] →
      (tag = 0 → exec .spaceUpdate s = .next (finished s c 7 0)) ∧
      (tag ≠ 0 → rangeHeld s tag 0 (2 ^ 57) ∨ storePaused s tag → exec .spaceUpdate s = .next (begun s)) ∧
      (tag ≠ 0 → ¬rangeHeld s tag 0 (2 ^ 57) → ¬storePaused s tag → ∃ t, exec .spaceUpdate s = .next (finished t c 0 0) ∧
        t.xlat.holds = s.xlat.holds ∧ t.harts = s.harts ∧ rangeDropped t tag 0 (2 ^ 57) ∧
        (∀ i, i < 128 → ((aget t.xlat.spaces tag).getD 0).getLsbD i =
          (decide (i < 3 ∨ 12 ≤ i ∧ i < 52) && base.testBit i)) ∧
        ∀ k, k ≠ tag → aget t.xlat.spaces k = aget s.xlat.spaces k))

namespace Sys2Proof.Slice0

/-- A store of the page of a host entry (log entry 44), and one that has been refused and waits for the host (05 R99). -/
def onPage (e : SbEntry) (f : HostFault) : Prop := e.space = f.space ∧ e.va / 4096 * 4096 = f.va
def waitsForHost (e : SbEntry) : Prop := e.state = .faulted ∨ e.state = .reported

end Sys2Proof.Slice0

/-- 05 R113, 26 R380: a resolution that names no fault entry is answered with 0x08, and "retry" of a name-conflict notice
with 0x09. "Retry" ends the entry, unless a failed command that waited for it and is issued again meets a failure of its
own, and every refused store of its page, on every core, is in state replaying and otherwise as it was, as 05 R99 has it,
while the stores of other pages are as they were, but for those refused under the entry itself; "fail" ends the entry, and
no refused store of its page is left. END_REGION of a block of no live region or launch is answered with 0x0A; else no
launch of that block or of its descendants waits any more, and each of its regions has ended or will end in state 6, with no
hart left. The page of an entry, that its answer reaches the stores of harts of every die, the state of an ending region,
and the bits of a word that are ignored are the model's (log entries 44, 132, DESIGN CHOICE, 74 and 41). -/
def Sys2Proof.Slice0.ResolveAndEndCommands : Prop :=
  ∀ (s : State) (c : List Word), atHead s c →
    let die := word c 1 % 4
    let entry := (s.die die).faults.find? fun f => f.id = word c 2 % 4096
    (commandOf c 6 [1, 2, 3] → word c 3 % 2 = 0 →
      (entry = none → exec .resolveRetry s = .next (finished s c 8 0)) ∧
      ∀ f, entry = some f →
        (f.wres = 15 → exec .resolveRetry s = .next (finished s c 9 0)) ∧
        (f.wres ≠ 15 → ∃ t, exec .resolveRetry s = .next (finished t c 0 0) ∧
          ((∀ q ∈ s.harts, ∀ w, q.2.trap = some w → w.frec.cause ≠ 0x13) →
            t.mem = s.mem ∧ (∀ g ∈ (t.die die).faults, g.id ≠ f.id) ∧
            ∀ k, (t.core k).sb.length = (s.core k).sb.length ∧ ∀ (n : Nat) x y, (s.core k).sb[n]? = some x →
              (t.core k).sb[n]? = some y →
              (waitsForHost x → onPage x f → y = { x with state := .replaying }) ∧
              (¬waitsForHost x ∨ ¬onPage x f ∧ x.hostq ≠ f.id → y = x)) ∧
          ∀ k, ∀ e ∈ (t.core k).sb, onPage e f → ¬waitsForHost e)) ∧
    (commandOf c 6 [1, 2, 3] → word c 3 % 2 = 1 →
      (entry = none → exec .resolveFail s = .next (finished s c 8 0)) ∧
      ∀ f, entry = some f → ∃ t, exec .resolveFail s = .next (finished t c 0 0) ∧
        (∀ g ∈ (t.die die).faults, g.id ≠ f.id) ∧
        ∀ k, ∀ e ∈ (t.core k).sb, onPage e f → ¬waitsForHost e) ∧
    (commandOf c 7 [1] →
      let blk := word c 1
      (s.fieldsOf blk = none → exec .endRegion s = .next (finished s c 10 0)) ∧
      (s.fieldsOf blk ≠ none → ∃ t, exec .endRegion s = .next (finished t c 0 0) ∧
        (∀ l ∈ t.fe.launches, s.under blk l.f.blk = false) ∧
        (∀ r ∈ t.fe.regions, s.under blk r.f.blk = true → r.ending = some 6) ∧
        ∀ r ∈ s.fe.regions, s.under blk r.f.blk = true → ∀ q ∈ t.harts, q.2.blk ≠ r.f.blk))

/-- Together: RangeCommands; ResolveAndEndCommands. The rules and the model's own choices are named at each part. -/
def Obligations.RangeAndResolveCommands : Prop :=
  Sys2Proof.Slice0.RangeCommands ∧ Sys2Proof.Slice0.ResolveAndEndCommands

/-- 10 R198, 27 R389, R390: SET_SAVE_POOL sets the pool, unless an area of it is in use (0x0B) or the range is not one of
device memory (0x07). ATTEST writes the report after the nonce: measurement, serial number, status word and zeros.
PROTECT adds a range, unless it is not aligned, not in GDDR 7, or overlaps one that is protected (0x07); a range of no bytes
adds nothing. The bits of a word that are ignored, the checks of PROTECT and the device memory of each phase are the model's
readings (log entries 41, 42 and 43). -/
def Sys2Proof.Slice0.DeviceCommands : Prop :=
  ∀ (s : State) (c : List Word), atHead s c →
    (commandOf c 8 [1, 2] →
      let base := word c 1
      let len := word c 2
      let good := base % 4096 = 0 ∧ len ≠ 0 ∧ inMemory s base len
      (s.fe.areas ≠ [] → exec .setSavePool s = .next (finished s c 11 0)) ∧
      (s.fe.areas = [] → ¬good → exec .setSavePool s = .next (finished s c 7 0)) ∧
      (s.fe.areas = [] → good → exec .setSavePool s = .next (finished { s with
        fe := { s.fe with pool := some (base, len) } } c 0 0))) ∧
    (commandOf c 9 [1] →
      let a := word c 1
      let good := a % 64 = 0 ∧ inMemory s a 7475
      (¬good → exec .attest s = .next (finished s c 7 0)) ∧
      (good → ∃ t, exec .attest s = .next (finished t c 0 0) ∧ t.sts = s.sts ∧ t.harts = s.harts ∧
        t.readPA a 64 = s.readPA a 64 ∧ t.readPA (a + 0x40) 64 = s.sts.measurement.toNat ∧
        t.readPA (a + 0x80) 16 = Config.serialNumber.toNat ∧
        t.readPA (a + 0x90) 8 = 2 ^ 8 * s.sts.phase.toNat + 2 ^ 16 * s.sts.berr.toNat + 2 ^ 32 * s.sts.fwver.toNat ∧
        t.readPA (a + 0x98) 104 = 0 ∧
        ∀ b, b < a ∨ a + 7475 ≤ b → t.mem.get b = s.mem.get b)) ∧
    (commandOf c 10 [1, 2] →
      let base := word c 1
      let len := word c 2
      let good := base % 65536 = 0 ∧ len % 65536 = 0 ∧ base + len ≤ 0x3000000000 ∧
        ∀ p ∈ s.sts.prot, ¬(p.1 < base + len ∧ base < p.1 + p.2)
      (¬good → exec .protect s = .next (finished s c 7 0)) ∧
      (good → len = 0 → exec .protect s = .next (finished s c 0 0)) ∧
      (good → len ≠ 0 → exec .protect s = .next (finished { s with
        sts := { s.sts with prot := s.sts.prot ++ [(base, len)] } } c 0 0)))

/-- Together: ObjectCommands; DeviceCommands. The rules and the model's own choices are named at each part. -/
def Obligations.ObjectAndDeviceCommands : Prop :=
  Sys2Proof.Slice0.ObjectCommands ∧ Sys2Proof.Slice0.DeviceCommands

/-! ## Reset and invariants (27 R383 to R385; 26 R375, R381; and the model's own canonical forms) -/

namespace Sys2Proof.Slice0

/-- Every memory of the machine is in its canonical form: device memory and each core's scratchpad. -/
def memoriesCanonical (s : State) : Prop := s.mem.wf = true ∧ ∀ k, (s.core k).sp.wf = true

/-- Harts stand in rising order of their slots, so each slot of a core holds at most one hart (08 R151). -/
def oneHartPerSlot (s : State) : Prop := (s.harts.map (·.1)).Pairwise (· < ·)

/-- Every frame of a cache has the rows of its class and stands at a line, and no two have the same place (03 R44). -/
def formedCache (c : Cache) : Prop :=
  distinctFrames c ∧ ∀ f, f ∈ c → f.rows.length = f.tclass.rows ∧ f.base % 128 = 0

/-- Every L1 and every L2 is formed so. -/
def cachesFormed (s : State) : Prop := (∀ k, formedCache (s.core k).l1) ∧ ∀ k, formedCache (s.cluster k).l2

end Sys2Proof.Slice0

/-- 27 R383 to R385, 26 R375, R381, 10 R198: the machine after reset waits for its image in phase 0; every counter and the
boot error are 0; every queue is off and empty, every peer-table entry and the link identity are 0; no region, object, save
pool or hart is there. That the event count is 0 is the model's choice (log entry 20). -/
def Obligations.ResetState : Prop :=
  let s := State.reset
  s.sts.phase = 0 ∧ s.sts.berr = 0 ∧ s.sts.fwver = 0 ∧ s.sts.corrected = 0 ∧ s.sts.uncorrected = 0 ∧ s.sts.evCount = 0 ∧
    (∀ q, (s.queue q).base = 0 ∧ (s.queue q).tail = 0 ∧ (s.queue q).head = 0 ∧ (s.queue q).vec = 0 ∧
      (s.queue q).ie = false ∧ (s.queue q).en = false ∧ (s.queue q).lsz = 0 ∧ (s.queue q).err = false) ∧
    (∀ n, (aget s.io.peers n).getD 0 = 0) ∧ s.io.linkId = 0 ∧
    s.fe.regions = [] ∧ s.fe.objects = [] ∧ s.fe.pool = none ∧ s.harts = [] ∧
    ∀ q, q < 38 → s.ctlWord (0x1000 + 32 * q) =
      if q < 16 then 0 else if q < 32 then 16 else if q = 32 then 32 else if q = 33 then 16 else 48

/-- The machine after reset meets the three invariants below. The canonical form of memory is the model's (log entry 5). -/
def Obligations.ResetMeetsInvariants : Prop :=
  memoriesCanonical State.reset ∧ oneHartPerSlot State.reset ∧ cachesFormed State.reset

/-- Every step keeps every memory in its canonical form (log entry 5): the addresses listed rise, and no byte that reads as
unlisted memory does is listed, so that equal memories are equal data. -/
def Obligations.StepKeepsMemoriesCanonical : Prop :=
  ∀ s t : State, memoriesCanonical s → step s = .next t → memoriesCanonical t

/-- 08 R151: every step keeps at most one hart in each slot of a core. -/
def Obligations.StepKeepsOneHartPerSlot : Prop :=
  ∀ s t : State, oneHartPerSlot s → step s = .next t → oneHartPerSlot t

/-- 03 R44: every step keeps the frames of every L1 and L2 formed: each frame has the slots of its class and stands at a
line, and no two frames of one cache have the same space, base and way. -/
def Obligations.StepKeepsCachesFormed : Prop :=
  ∀ s t : State, cachesFormed s → step s = .next t → cachesFormed t

/-! ## The issue checks of the vector and matrix instructions (15 R273; 17 R320, R321; 18 R332, R336) -/

namespace Sys2Proof.Slice0

/-- What 15 R273 asks about an instruction: the vector registers that it reads and writes, whether it takes the mask and
needs vstart = 0, the tags and the rounding mode that it permits, and when vl fits. -/
structure IssueForm where
  reads : List Nat
  writes : List Nat
  masked : Bool
  zero : Bool
  tags : Hart → Bool
  round : Hart → Bool
  room : Hart → State → Prop

/-- The forms that take the mask and do not round; vl has to fit the registers `idx`. -/
def plainForm (reads writes idx : List VIx) (zero : Bool) (tags : Hart → Bool) : IssueForm where
  reads := reads.map BitVec.toNat
  writes := writes.map BitVec.toNat
  masked := true
  zero := zero
  tags := tags
  round _ := true
  room g s := fits g s (idx.map BitVec.toNat)

/-- A register tagged m1, of an element format that is not m1, of one that is a byte or more wide, or of an integer one. -/
def isMask (v : VIx) (g : Hart) : Bool := (g.getV v.toNat).tag = 0x13
def isElement (v : VIx) (g : Hart) : Bool := tagIs (g.tag v.toNat) element
def isBytes (v : VIx) (g : Hart) : Bool := tagIs (g.tag v.toNat) fun t => element t && decide (8 ≤ t.width)
def isInt (v : VIx) (g : Hart) : Bool := g.intTag v.toNat
def isByte (v : VIx) (g : Hart) : Bool :=
  tagIs (g.tag v.toNat) fun t => decide (t.scale = none) && (t.fmt = .i8 || t.fmt = .n8)
def isValue (v : VIx) (g : Hart) : Bool := tagIs (g.tag v.toNat) valued

/-- The descriptor in x(B) is usable for elements of w bits (16 R299, R300). -/
def fieldOk (g : Hart) (b : XIx) (w : Nat) (unsigned : Bool) : Bool :=
  let n := (g.getX b).toNat
  decide (n / 2 ^ 24 = 0) && decide (n % 128 ≠ 0) && decide (n % 128 ≤ w) && !(unsigned && n.testBit 7)

/-- The forms of 15 R280 to R290. -/
def logicIssue : Instr → Option IssueForm
  | .vsel _ d a b => some (plainForm [a, b] [d] [d, a, b] false (same [d, a, b]))
  | .vcmp _ _ d a b => some (plainForm [a, b] [d] [d, a, b] false fun g => isMask d g && isElement a g && isElement b g)
  | .vrand _ d a | .vror _ d a | .vrxor _ d a => some (plainForm [a] [d] [a] true (same [d, a]))
  | .vmcnt _ _ a | .vmfst _ _ a => some (plainForm [a] [] [a] true (isMask a))
  | .vbany _ a | .vbnone _ a => some (plainForm [a] [] [a] false (isMask a))
  | .vwsl _ d a _ | .vwsr _ d a _ => some { plainForm [a] [d] [d, a] true (same [d, a]) with masked := false }
  | .vfsl _ d a _ | .vfsr _ d a _ => some { plainForm [a, d] [d] [d, a] true (same [d, a]) with masked := false }
  | _ => none

/-- The forms of 16 R294 to R303; the table of VLUT is as wide as the tag of vB says when it issues. -/
def convertIssue (s : State) (h : Hart) : Instr → Option IssueForm
  | .vcvt _ r d a =>
    some { plainForm [a] [d] [d, a] false (fun g =>
             isElement a g && tagIs (g.tag d.toNat) fun t => element t && decide (t.scale = none)) with
           round := fun g => (isInt a g && isInt d g) || g.modeOk r (g.tagAt d.toNat).fmt }
  | .vdqmx _ r d a _ _ =>
    some { plainForm [a] [d] [d, a] true (fun g =>
             tagIs (g.tag a.toNat) (fun t => decide (t.scale = none) && t.fmt.isMx) && tagIs (g.tag d.toNat) ieee) with
           round := fun g => g.modeOk r (g.tagAt d.toNat).fmt }
  | .vqmx _ r d a =>
    some { plainForm [a] [d] [d, a] true (fun g =>
             tagIs (g.tag a.toNat) ieee && tagIs (g.tag d.toNat) fun t => decide (t.scale ≠ none)) with
           round := fun g => g.modeOk r (g.tagAt d.toNat).fmt }
  | .vqef _ r d a b =>
    some { plainForm [a, b] [d, b] [d, a, b] true (fun g =>
             decide ((g.getV a.toNat).tag = 0x0A) && decide ((g.getV b.toNat).tag = 0x0A) &&
               tagIs (g.tag d.toNat) fun t => decide (t.scale ≠ none) && (t.fmt = .e4m3 || t.fmt = .e5m2)) with
           round := fun g => g.modeOk r (g.tagAt d.toNat).fmt }
  | .vunpk _ d a b =>
    some (plainForm [a] [d] [d] false fun g => isInt d g && isElement a g && fieldOk g b (widthOf g d) false)
  | .vpkb _ d a b =>
    some (plainForm [a, d] [d] [a] false fun g => isInt a g && isElement d g && fieldOk g b (widthOf g a) true)
  | .vlut _ d a b =>
    let ns := (List.range ((256 * widthOf h b + s.vlen - 1) / s.vlen)).map (b.toNat + ·)
    some { plainForm [a] [d] [d, a] false (fun g => isInt a g && (g.tag b.toNat).isSome && ns.all (fun n => n < 64) &&
             tagIs (g.tag d.toNat) fun t => element t && decide (t.width = widthOf g b)) with
           reads := a.toNat :: ns }
  | .vexpd _ d a | .vcmpr _ d a => some (plainForm [a] [d] [d, a] true (same [d, a]))
  | .kmov _ (.vk d _ m) =>
    some { plainForm [] [d] [d] false (isByte d) with
           room := fun g s => fits g s [d.toNat] ∧ g.ctl.vl.toNat % 2 ^ 32 + 64 * m.toNat ≤ 256 }
  | .kmov _ (.kv _ a m) =>
    some { plainForm [a] [] [a] false (isByte a) with
           room := fun g s => fits g s [a.toNat] ∧ g.ctl.vl.toNat % 2 ^ 32 + 64 * m.toNat ≤ 256 }
  | _ => none

/-- The forms of 17 that take the mask, and SXDRN, which does not. -/
def memoryIssue : Instr → Option IssueForm
  | .vld _ _ _ _ d | .vldf _ _ _ _ d => some (plainForm [] [d] [d] false (isElement d))
  | .vlds _ _ _ _ d => some (plainForm [] [d] [d] false (isBytes d))
  | .vld2 _ _ _ _ d => some (plainForm [] [d] [d] false fun g => isBytes d g && decide (rowsOf g ≠ 0))
  | .vldx x _ _ _ d => some (plainForm [x] [d] [d, x] false fun g => isBytes d g && isInt x g)
  | .vst _ _ _ _ d => some (plainForm [d] [] [d] false (isElement d))
  | .vsts _ _ _ _ d => some (plainForm [d] [] [d] false (isBytes d))
  | .vst2 _ _ _ _ d => some (plainForm [d] [] [d] false fun g => isBytes d g && decide (rowsOf g ≠ 0))
  | .vstx x _ _ _ d => some (plainForm [d, x] [] [d, x] false fun g => isBytes d g && isInt x g)
  | .spld _ d _ _ => some (plainForm [] [d] [d] false (isElement d))
  | .spst _ d _ _ => some (plainForm [d] [] [d] false (isElement d))
  | .sxins _ d a b | .sxacc _ d a b =>
    some (plainForm [a, b] [d] [d, a, b] false fun g => isInt a g && isValue b g && isMask d g)
  | .sxlkp _ d a b => some (plainForm [a] [d, b] [d, a, b] false fun g => isInt a g && isValue d g && isMask b g)
  | .sxdrn _ d b =>
    some { plainForm [] [d, b] [d, b] true (fun g => isInt d g && isValue d g && isValue b g) with masked := false }
  | i => (vamoForm i).map fun c =>
      plainForm [c.d, c.d + 1] [c.d] [c.d, c.d + 1] false fun g => tagIs (g.tag c.d.toNat) c.ok && isInt (c.d + 1) g
where
  /-- Rows of the shape. -/
  rowsOf (g : Hart) : Nat := g.ctl.mrow.toNat % 128

/-- What 15 R273 asks about an instruction that it checks. -/
def issueForm (s : State) (h : Hart) (i : Instr) : Option IssueForm :=
  let code := (codeForm i).map fun c => plainForm c.srcs [c.d] (c.d :: c.srcs) c.zero c.tags
  let arith := (arithForm i).map fun c =>
    { plainForm c.srcs [c.d] (c.d :: c.srcs) false (fun g =>
        c.tags.ok (g.tag c.d.toNat) (c.srcs.map fun v => g.tag v.toNat)) with
      round := fun g => c.tags = .own || g.allInt (c.d.toNat :: c.srcs.map BitVec.toNat)
        || g.modeOk c.r (g.tagAt c.d.toNat).fmt }
  let special := (specialForm i).map fun c =>
    { plainForm [c.a] [c.d] [c.d, c.a] false (fun g => specialTags (g.tag c.d.toNat) (g.tag c.a.toNat)) with
      round := fun g => g.modeOk c.r (g.tagAt c.d.toNat).fmt }
  let reduce := (reduceForm i).map fun c =>
    { plainForm c.srcs [c.d] c.srcs true (fun g =>
        c.tags.ok (g.tag c.d.toNat) (c.srcs.map fun v => g.tag v.toNat)) with
      reads := c.reads
      round := fun g => c.tags = .own || g.allInt (c.d.toNat :: c.srcs.map BitVec.toNat)
        || g.modeOk c.r (g.tagAt c.d.toNat).fmt }
  [code, arith, special, reduce, logicIssue i, convertIssue s h i, memoryIssue i].findSome? id

/-- Registers that an instruction of a form reads, its mask among them where it takes one. -/
def IssueForm.from (c : IssueForm) (h : Hart) : List Nat := if c.masked then c.reads ++ h.maskRegs else c.reads

/-- The checks of R273 that an illegal instruction fails: vstart, then the tags, then the mask, then the rounding mode. -/
def IssueForm.illegal (c : IssueForm) (g : Hart) : Prop :=
  (c.zero = true ∧ g.ctl.vstart ≠ 0) ∨ c.tags g = false ∨ (c.masked = true ∧ ¬maskUsable g) ∨ c.round g = false

end Sys2Proof.Slice0

/-- 15 R273, 17 R304, R317, R320, R321, 16 R299, R300: the issue checks of every vector instruction that moves, computes,
converts, reduces, compares, loads or stores elements, whether in memory or in the scratchpads. vstart where it must be 0,
the tags and what stands with them, the mask, and then the rounding mode give an illegal instruction with the word in tval;
then vl above a capacity gives 0x12. The instruction has no effect. That the special functions count as ones that round
whatever their destination is the model's choice (log entry 104). -/
def Sys2Proof.Slice0.VectorIssueChecksTrap : Prop :=
  ∀ (i : Instr) (c : IssueForm) (s : State) (h : Hart),
    issueForm s h i = some c → s.me = some h → unheld s h (c.from h) c.writes →
    let g := atRegs h (c.from h) c.writes
    (c.illegal g → ∃ t, exec i s = .next t ∧ trapped s t h 0x01 (BitVec.ofNat 64 (encode i).toNat)) ∧
    (¬c.illegal g → ¬c.room g s → ∃ t, exec i s = .next t ∧ trapped s t h 0x12 0)

/-- Together: ArithmeticTrapTaken; VectorIssueChecksTrap. The rules and the model's own choices are named at each
part. -/
def Obligations.VectorTraps : Prop :=
  Sys2Proof.Slice0.ArithmeticTrapTaken ∧ Sys2Proof.Slice0.VectorIssueChecksTrap

namespace Sys2Proof.Slice0

/-- SPLD and SPST with their element register, the pair of their operand and their walk. -/
def scratchForm : Instr → Option (VIx × XIx × XIx × Nat)
  | .spld _ d a b => some (d, a, b, 0)
  | .spst _ d a b => some (d, a, b, 1)
  | _ => none

/-- The walk in x(B) is malformed for elements of w bits, by itself or with the operand's descriptor (17 R319, R320). -/
def badWalk (walk dsc : Word) (w : Nat) : Prop :=
  let cm := walk.toNat.testBit 16 = true
  walk.toNat / 2 ^ 17 ≠ 0 ∨ (¬cm ∧ walk.toNat % 2 ^ 16 ≠ 0) ∨ (cm ∧ walk.toNat % 2 ^ 16 = 0) ∨
    (w < 8 ∧ (cm ∨ descRpitch dsc ≠ 0 ∨ descRot dsc ≠ 0))

/-- The base or the row pitch of an operand in the scratchpad is not a multiple of an element of w bits. -/
def misplaced (w : Nat) (a dsc : Word) : Prop :=
  spOffset a % max 1 (w / 8) ≠ 0 ∨ descRpitch dsc % max 1 (w / 8) ≠ 0

end Sys2Proof.Slice0

/-- 17 R320, R321, 10 R187: SPLD and SPST whose issue checks pass check, in this order: their walk, a malformed one being an
illegal instruction; alignment, 0x05; a column walk with no row pitch, 0x10; and the grant, 0x10 at the lowest active
element that is not within it. That tval of the column walk's 0x10 is the operand's base, where R187 and R108 give the address
of the element, is the model's reading (log entry 17, DEDUCED). SXINS, SXACC, SXLKP and SXDRN whose issue checks pass, and
SXCLR, trap with 0x10 when the grant holds no entry. -/
def Sys2Proof.Slice0.ScratchpadChecksTrap : Prop :=
  (∀ (i : Instr) (c : IssueForm) (d : VIx) (a b : XIx) (n : Nat) (s : State) (h : Hart),
    scratchForm i = some (d, a, b, n) → issueForm s h i = some c → s.me = some h → unheld s h (c.from h) c.writes →
    let g := atRegs h (c.from h) c.writes
    let w := widthOf g d
    let dsc := g.getX (pairOf a)
    let gr := (s.core s.myCore).grantOf g.blk
    let flat := (g.getX b).toNat.testBit 16 = true ∧ descRpitch dsc = 0
    ¬c.illegal g → c.room g s →
    (badWalk (g.getX b) dsc w →
      ∃ t, exec i s = .next t ∧ trapped s t h 0x01 (BitVec.ofNat 64 (encode i).toNat)) ∧
    (¬badWalk (g.getX b) dsc w →
      (misplaced w (g.getX a) dsc → ∃ t, exec i s = .next t ∧ trapped s t h 0x05 (g.getX a)) ∧
      (¬misplaced w (g.getX a) dsc →
        (flat → ∃ t, exec i s = .next t ∧ trapped s t h 0x10 (g.getX a)) ∧
        (¬flat → ∀ (l rest : List Nat) (e : Nat), g.actives = l ++ e :: rest →
          (∀ x ∈ l, (spOperand g d a b).elemOk gr x = true) → (spOperand g d a b).elemOk gr e = false →
          ∃ t v, exec i s = .next t ∧ trapped s t h 0x10 v ∧ recordElem t h = e)))) ∧
  (∀ (i : Instr) (c : IssueForm) (s : State) (h : Hart),
    (∃ e d a b, i = .sxins e d a b ∨ i = .sxacc e d a b ∨ i = .sxlkp e d a b ∨ i = .sxdrn e d b) →
    issueForm s h i = some c → s.me = some h → unheld s h (c.from h) c.writes →
    let g := atRegs h (c.from h) c.writes
    ¬c.illegal g → c.room g s → ((s.core s.myCore).grantOf g.blk).ixUnits = 0 →
    ∃ t x, exec i s = .next t ∧ trapped s t h 0x10 x) ∧
  ∀ (e : Hint) (s : State) (h : Hart), s.me = some h → unheld s h [] [] →
    ((s.core s.myCore).grantOf h.blk).ixUnits = 0 → ∃ t x, exec (.sxclr e) s = .next t ∧ trapped s t h 0x10 x

/-- Together: ScratchpadMoves; ScratchpadChecksTrap. The rules and the model's own choices are named at each part. -/
def Obligations.ScratchpadAccesses : Prop :=
  Sys2Proof.Slice0.ScratchpadMoves ∧ Sys2Proof.Slice0.ScratchpadChecksTrap

namespace Sys2Proof.Slice0

/-- The greatest depth of a shape for operands of a width (18 R325). -/
def deepest (w : Nat) : Nat := if w = 4 then 256 else if w = 6 ∨ w = 8 then 128 else if w = 16 then 64 else 256

/-- The shape meets 18 R325 with a greatest depth; columns are the affair of MMA alone. -/
def shaped (h : Hart) (depth : Nat) : Prop :=
  let r := h.ctl.mrow.toNat % 128
  let k := h.ctl.mdep.toNat % 512
  1 ≤ r ∧ r ≤ 64 ∧ k % 32 = 0 ∧ 32 ≤ k ∧ k ≤ depth

/-- The scales of n elements of a group lie in scale registers that exist (18 R327). -/
def scalesExist (t : Tag) (n : Nat) : Prop :=
  match t.scale with
  | none => True
  | some (k, half) => k + (128 * half + (n - 1) / 32) / 256 ≤ 15

/-- A condition on the operand in the scratchpad that a pair of scalar registers names. -/
def ofTile (g : Hart) (o : MatOp) (p : Word → Word → Prop) : Prop :=
  match o with
  | .reg _ => False
  | .sp x => p (g.getX x) (g.getX (pairOf x))

/-- The scratchpad address of an operand. -/
def tileBase (g : Hart) : MatOp → Word
  | .reg _ => 0
  | .sp x => g.getX x

/-- Some byte of a tile of `rows` rows of `md` elements of w bits has a property. -/
def someByte (w rows md : Nat) (p : Nat → Nat → Prop) : Prop :=
  ∃ i j b, i < rows ∧ j < md ∧ 8 * b < (j + 1) * w ∧ j * w < 8 * (b + 1) ∧ p i b

/-- A byte of a tile lies outside the grant, or its descriptor is unusable (03 R64, 01 R19). -/
def outsideGrant (gr : Grant) (w rows md : Nat) (a d : Word) : Prop :=
  someByte w rows md fun i b => ¬(descOk a d = true ∧ spByteOk gr a d 0 i b = true)

/-- A byte of a tile lies in a poisoned word. -/
def tilePoisoned (c : Core) (gr : Grant) (w rows md : Nat) (a d : Word) : Prop :=
  someByte w rows md fun i b => c.spPoisoned gr (spOff a d 0 i b) 1 = true

end Sys2Proof.Slice0

/-- 18 R325, R327, R332, R336: the checks of MMA and MMAS in their order: vstart, an illegal instruction; the shape, 0x12;
the tags, the reach of the scales and the metadata tag, an illegal instruction; the register groups, each below v64 and
disjoint, an illegal instruction; then, of tiles in the scratchpad, alignment of A before that of B, 0x05, with a rotated
tile of 6-bit elements an illegal instruction; the grant, 0x10; and poison, 0x0F. That tval of a misplaced tile is its base
register is the model's reading (log entry 62, DEDUCED), and so is that A comes before B in the check of alignment too (log
entry 127, DEDUCED), which R332 says of the two checks after it, and that scales that a group does not apply must exist all
the same (log entry 138, DESIGN CHOICE). MLAST checks vstart, the shape, and its tag and group. -/
def Sys2Proof.Slice0.MatrixChecksTrap : Prop :=
  (∀ (i : Instr) (m : MatIn) (s : State) (h : Hart), matrixForm i = some m → s.me = some h →
    let v := s.vlen
    let c := s.core s.myCore
    let cols := h.ctl.mcol.toNat % 128
    let shape := shaped h (deepest (max (m.ta h).width (m.tb h).width)) ∧ 1 ≤ cols ∧ cols ≤ 64 / c.part
    let tags := (∃ b, matRow (m.ta h) (m.tb h) (m.td h) = some b) ∧
      scalesExist (m.ta h) (h.ctl.mrow.toNat % 128 * m.aRow h) ∧
      scalesExist (m.tb h) (cols * (h.ctl.mdep.toNat % 512)) ∧
      (m.sparse = true → m.d + 8 < 64 → (h.getV (m.d + 8)).tag = 0x04)
    let groups := m.dRegs ++ m.aRegs h v ++ m.bRegs h v ++ m.metaRegs h v
    let word := BitVec.ofNat 64 (encode i).toNat
    (h.ctl.vstart ≠ 0 → ∃ t, exec i s = .next t ∧ trapped s t h 0x01 word) ∧
    (h.ctl.vstart = 0 → ¬shape → ∃ t, exec i s = .next t ∧ trapped s t h 0x12 0) ∧
    (h.ctl.vstart = 0 → shape → ¬(tags ∧ (∀ n ∈ groups, n < 64) ∧ groups.Nodup) →
      ∃ t, exec i s = .next t ∧ trapped s t h 0x01 word)) ∧
  (∀ (i : Instr) (m : MatIn) (s : State) (h : Hart), matrixForm i = some m → s.me = some h →
    let v := s.vlen
    let c := s.core s.myCore
    m.check i h v c.part = none → unheld s h (matrixReads m h v) m.dRegs →
    let g := atRegs h (matrixReads m h v) m.dRegs
    let gr := c.grantOf g.blk
    let a := ofTile g m.a
    let b := ofTile g m.b
    let wa := (m.ta g).width
    let wb := (m.tb g).width
    let rows := g.ctl.mrow.toNat % 128
    let cols := g.ctl.mcol.toNat % 128
    let md := g.ctl.mdep.toNat % 512
    let turned := fun w _ d => w = 6 ∧ descRot d ≠ 0
    let word := BitVec.ofNat 64 (encode i).toNat
    let badA := a (misplaced wa) ∨ a (turned wa)
    let badB := b (misplaced wb) ∨ b (turned wb)
    let out := a (outsideGrant gr wa rows md) ∨ b (outsideGrant gr wb cols md)
    (a (misplaced wa) → ∃ t, exec i s = .next t ∧ trapped s t h 0x05 (tileBase g m.a)) ∧
    (¬a (misplaced wa) → a (turned wa) → ∃ t, exec i s = .next t ∧ trapped s t h 0x01 word) ∧
    (¬badA → b (misplaced wb) → ∃ t, exec i s = .next t ∧ trapped s t h 0x05 (tileBase g m.b)) ∧
    (¬badA → ¬b (misplaced wb) → b (turned wb) → ∃ t, exec i s = .next t ∧ trapped s t h 0x01 word) ∧
    (¬badA → ¬badB → out → ∃ t x, exec i s = .next t ∧ trapped s t h 0x10 x) ∧
    (¬badA → ¬badB → ¬out → a (tilePoisoned c gr wa rows md) ∨ b (tilePoisoned c gr wb cols md) →
      ∃ t x, exec i s = .next t ∧ trapped s t h 0x0F x)) ∧
  ∀ (s : State) (h : Hart) (e : Hint) (gx : GIx) (d : VIx) (b : XIx), s.me = some h →
    let i : Instr := .mlast e gx d b
    let n := (h.ctl.mrow.toNat % 128 * (h.ctl.mdep.toNat % 512) + s.vlen - 1) / s.vlen
    let word := BitVec.ofNat 64 (encode i).toNat
    (h.ctl.vstart ≠ 0 → ∃ t, exec i s = .next t ∧ trapped s t h 0x01 word) ∧
    (h.ctl.vstart = 0 → ¬shaped h 256 → ∃ t, exec i s = .next t ∧ trapped s t h 0x12 0) ∧
    (h.ctl.vstart = 0 → shaped h 256 → (h.getV d.toNat).tag ≠ 0x04 ∨ 64 < d.toNat + n →
      ∃ t, exec i s = .next t ∧ trapped s t h 0x01 word)

/-- Together: MatrixResults; MatrixLastAndComplete; MatrixChecksTrap. The rules and the model's own choices are named
at each part. -/
def Obligations.MatrixInstructions : Prop :=
  Sys2Proof.Slice0.MatrixResults ∧
    Sys2Proof.Slice0.MatrixLastAndComplete ∧
    Sys2Proof.Slice0.MatrixChecksTrap
end

