-- ==== Sys2Proof/Laws/Bits.lean ====
section
/-! SUPPORT. Bits of fields and elements: what replacing an element leaves, and what a register holds after codes are
written into some of its elements. -/

namespace Sys2Proof.Machine

/-! ## Fields of a number -/

theorem testBit_put (n lo w x k : Nat) :
    (put n lo w x).testBit k = if lo ≤ k ∧ k < lo + w then x.testBit (k - lo) else n.testBit k := by
  have hc : n % 2 ^ lo < 2 ^ lo := Nat.mod_lt _ (Nat.two_pow_pos lo)
  have hx : x % 2 ^ w < 2 ^ w := Nat.mod_lt _ (Nat.two_pow_pos w)
  have e1 : ((x % 2 ^ w) <<< lo) + n % 2 ^ lo = (x % 2 ^ w) <<< lo ||| n % 2 ^ lo :=
    Nat.shiftLeft_add_eq_or_of_lt hc _
  have hb : ((x % 2 ^ w) <<< lo) + n % 2 ^ lo < 2 ^ (lo + w) := by
    rw [Nat.shiftLeft_eq, Nat.pow_add]
    have : (x % 2 ^ w + 1) * 2 ^ lo ≤ 2 ^ w * 2 ^ lo := Nat.mul_le_mul_right _ hx
    rw [Nat.add_mul] at this
    rw [Nat.mul_comm (2 ^ lo) (2 ^ w)]
    omega
  have e2 : put n lo w x = (n >>> (lo + w)) <<< (lo + w) ||| ((x % 2 ^ w) <<< lo ||| n % 2 ^ lo) := by
    unfold put
    simp only
    rw [Nat.add_assoc, Nat.shiftLeft_add_eq_or_of_lt hb, e1]
  rw [e2]
  simp only [Nat.testBit_or, Nat.testBit_shiftLeft, Nat.testBit_shiftRight, Nat.testBit_mod_two_pow]
  by_cases h1 : k < lo
  · simp [h1, show ¬ lo + w ≤ k by omega, show ¬ lo ≤ k by omega]
  · by_cases h2 : k < lo + w
    · simp [show lo ≤ k by omega, h2, show ¬ k < lo by omega, show ¬ lo + w ≤ k by omega, show k - lo < w by omega]
    · simp [show lo + w ≤ k by omega, show ¬ k < lo by omega, h2, show ¬ k - lo < w by omega]

theorem testBit_elt (n w i k : Nat) : (elt n w i).testBit k = (decide (k < w) && n.testBit (i * w + k)) := by
  unfold elt
  rw [Nat.testBit_mod_two_pow, Nat.testBit_shiftRight]

theorem testBit_fld (n hi lo k : Nat) : (fld n hi lo).testBit k = (decide (k < hi + 1 - lo) && n.testBit (lo + k)) := by
  unfold fld
  rw [Nat.testBit_mod_two_pow, Nat.testBit_shiftRight]

theorem elt_lt (n w i : Nat) : elt n w i < 2 ^ w := Nat.mod_lt _ (Nat.two_pow_pos w)

theorem elt_putElt_same (n w i x : Nat) : elt (putElt n w i x) w i = x % 2 ^ w := by
  apply Nat.eq_of_testBit_eq
  intro k
  rw [testBit_elt, putElt, testBit_put, Nat.testBit_mod_two_pow]
  by_cases h : k < w
  · simp [h]
  · simp [h]

theorem elt_putElt_other (n w i j x : Nat) (h : j ≠ i) : elt (putElt n w i x) w j = elt n w j := by
  apply Nat.eq_of_testBit_eq
  intro k
  rw [testBit_elt, testBit_elt, putElt, testBit_put]
  by_cases hk : k < w
  · have : ¬(i * w ≤ j * w + k ∧ j * w + k < i * w + w) := by
      intro ⟨h1, h2⟩
      apply h
      have a1 : i * w < (j + 1) * w := by rw [Nat.add_mul]; omega
      have a2 : j * w < (i + 1) * w := by rw [Nat.add_mul]; omega
      have b1 := Nat.lt_of_mul_lt_mul_right a1
      have b2 := Nat.lt_of_mul_lt_mul_right a2
      omega
    rw [if_neg this]
  · simp [hk]

theorem elt_putElt (n w i j x : Nat) : elt (putElt n w i x) w j = if j = i then x % 2 ^ w else elt n w j := by
  split
  · subst_vars; exact elt_putElt_same ..
  · exact elt_putElt_other _ _ _ _ _ (by assumption)

/-! ## Writing codes into elements (12 R239, 10 R193) -/

/-- The number after codes are put in order. -/
theorem testBit_foldl_putElt (es : List (Nat × Nat)) (n w k : Nat)
    (h : ∀ e ∈ es, ¬(e.1 * w ≤ k ∧ k < e.1 * w + w)) :
    (es.foldl (fun b (e : Nat × Nat) => putElt b w e.1 e.2) n).testBit k = n.testBit k := by
  induction es generalizing n with
  | nil => rfl
  | cons e t ih =>
    rw [List.foldl_cons, ih _ (fun e he => h e (List.mem_cons_of_mem _ he)), putElt, testBit_put,
      if_neg (h e List.mem_cons_self)]

theorem elt_foldl_putElt_of_notMem (es : List (Nat × Nat)) (n w j : Nat) (h : ∀ e ∈ es, e.1 ≠ j) :
    elt (es.foldl (fun b (e : Nat × Nat) => putElt b w e.1 e.2) n) w j = elt n w j := by
  induction es generalizing n with
  | nil => rfl
  | cons e t ih =>
    rw [List.foldl_cons, ih _ (fun e he => h e (List.mem_cons_of_mem _ he)),
      elt_putElt_other _ _ _ _ _ (fun x => h e List.mem_cons_self x.symm)]

theorem elt_foldl_putElt_of_mem (es : List (Nat × Nat)) (n w i x : Nat) (hn : (es.map (·.1)).Nodup)
    (hm : (i, x) ∈ es) : elt (es.foldl (fun b (e : Nat × Nat) => putElt b w e.1 e.2) n) w i = x % 2 ^ w := by
  induction es generalizing n with
  | nil => cases hm
  | cons e t ih =>
    rw [List.map_cons, List.nodup_cons] at hn
    rw [List.foldl_cons]
    rcases List.mem_cons.1 hm with h | h
    · subst h
      rw [elt_foldl_putElt_of_notMem, elt_putElt_same]
      intro e he hh
      exact hn.1 (List.mem_map.2 ⟨e, he, hh⟩)
    · exact ih _ hn.2 h

theorem foldl_putElt_lt (es : List (Nat × Nat)) (n w m : Nat) (hn : n < 2 ^ m) (h : ∀ e ∈ es, (e.1 + 1) * w ≤ m) :
    es.foldl (fun b (e : Nat × Nat) => putElt b w e.1 e.2) n < 2 ^ m := by
  induction es generalizing n with
  | nil => exact hn
  | cons e t ih =>
    apply ih _ _ (fun e he => h e (List.mem_cons_of_mem _ he))
    apply Nat.lt_pow_two_of_testBit
    intro k hk
    have := h e List.mem_cons_self
    rw [Nat.add_mul] at this
    show (putElt n w e.1 e.2).testBit k = false
    rw [putElt, testBit_put, if_neg (by omega)]
    exact Nat.testBit_lt_two_pow (Nat.lt_of_lt_of_le hn (Nat.pow_le_pow_right (by omega) hk))

theorem VReg.putAll_tag (r : VReg) (w : Nat) (es : List (Nat × Nat)) : (r.putAll w es).tag = r.tag := by
  unfold VReg.putAll
  split <;> rfl

/-- Elements that lie within a register. -/
theorem VReg.putAll_bits (r : VReg) (w : Nat) (es : List (Nat × Nat)) (h : ∀ e ∈ es, (e.1 + 1) * w ≤ 16384) :
    (r.putAll w es).bits.toNat = es.foldl (fun b (e : Nat × Nat) => putElt b w e.1 e.2) r.bits.toNat := by
  unfold VReg.putAll
  split
  · rfl
  · simp only [VReg.write, BitVec.toNat_ofNat]
    exact Nat.mod_eq_of_lt (foldl_putElt_lt _ _ _ _ r.bits.isLt h)

theorem VReg.putAll_code_of_mem (r : VReg) (w : Nat) (es : List (Nat × Nat)) (i x : Nat)
    (h : ∀ e ∈ es, (e.1 + 1) * w ≤ 16384) (hn : (es.map (·.1)).Nodup) (hm : (i, x) ∈ es) :
    (r.putAll w es).code w i = x % 2 ^ w := by
  rw [VReg.code, VReg.putAll_bits r w es h, elt_foldl_putElt_of_mem _ _ _ _ _ hn hm]

theorem VReg.putAll_code_of_notMem (r : VReg) (w : Nat) (es : List (Nat × Nat)) (i : Nat)
    (h : ∀ e ∈ es, (e.1 + 1) * w ≤ 16384) (hm : ∀ e ∈ es, e.1 ≠ i) : (r.putAll w es).code w i = r.code w i := by
  rw [VReg.code, VReg.putAll_bits r w es h, elt_foldl_putElt_of_notMem _ _ _ _ hm, VReg.code]

theorem VReg.putAll_bit_of_outside (r : VReg) (w : Nat) (es : List (Nat × Nat)) (k : Nat)
    (h : ∀ e ∈ es, (e.1 + 1) * w ≤ 16384) (hm : ∀ e ∈ es, ¬(e.1 * w ≤ k ∧ k < e.1 * w + w)) :
    (r.putAll w es).bits.toNat.testBit k = r.bits.toNat.testBit k := by
  rw [VReg.putAll_bits r w es h, testBit_foldl_putElt _ _ _ _ hm]

/-! ## The active elements -/

theorem Hart.mem_actives (h : Hart) (i : Nat) : i ∈ h.actives ↔ i < h.vl ∧ h.vstart ≤ i ∧ h.maskBit i = true := by
  simp only [Hart.actives, upto, List.mem_filter, List.mem_range, Hart.active, Bool.and_eq_true, decide_eq_true_eq]
  tauto

theorem Hart.actives_nodup (h : Hart) : h.actives.Nodup := by
  unfold Hart.actives upto
  exact List.Nodup.filter _ List.nodup_range

end Sys2Proof.Machine
end

