-- ==== Sys2Proof/Laws/State.lean ====
section
/-! SUPPORT. One lemma for each field of each plain update of the state and of a hart: a later proof cites these and
does not unfold a record update. -/

namespace Sys2Proof.Machine

/-! ### State.setHart -/

@[simp] theorem State.setHart_agenda (s : State) (k : Nat) (h : Hart) : (s.setHart k h).agenda = s.agenda := rfl
@[simp] theorem State.setHart_turn (s : State) (k : Nat) (h : Hart) : (s.setHart k h).turn = s.turn := rfl
@[simp] theorem State.setHart_cur (s : State) (k : Nat) (h : Hart) : (s.setHart k h).cur = s.cur := rfl
@[simp] theorem State.setHart_ticks (s : State) (k : Nat) (h : Hart) : (s.setHart k h).ticks = s.ticks := rfl
@[simp] theorem State.setHart_leftReset (s : State) (k : Nat) (h : Hart) : (s.setHart k h).leftReset = s.leftReset := rfl
@[simp] theorem State.setHart_free (s : State) (k : Nat) (h : Hart) : (s.setHart k h).free = s.free := rfl
@[simp] theorem State.setHart_mem (s : State) (k : Nat) (h : Hart) : (s.setHart k h).mem = s.mem := rfl
@[simp] theorem State.setHart_poison (s : State) (k : Nat) (h : Hart) : (s.setHart k h).poison = s.poison := rfl
@[simp] theorem State.setHart_home (s : State) (k : Nat) (h : Hart) : (s.setHart k h).home = s.home := rfl
@[simp] theorem State.setHart_harts (s : State) (k : Nat) (h : Hart) : (s.setHart k h).harts = aset s.harts k h := rfl
@[simp] theorem State.setHart_cores (s : State) (k : Nat) (h : Hart) : (s.setHart k h).cores = s.cores := rfl
@[simp] theorem State.setHart_clusters (s : State) (k : Nat) (h : Hart) : (s.setHart k h).clusters = s.clusters := rfl
@[simp] theorem State.setHart_dies (s : State) (k : Nat) (h : Hart) : (s.setHart k h).dies = s.dies := rfl
@[simp] theorem State.setHart_xlat (s : State) (k : Nat) (h : Hart) : (s.setHart k h).xlat = s.xlat := rfl
@[simp] theorem State.setHart_fe (s : State) (k : Nat) (h : Hart) : (s.setHart k h).fe = s.fe := rfl
@[simp] theorem State.setHart_io (s : State) (k : Nat) (h : Hart) : (s.setHart k h).io = s.io := rfl
@[simp] theorem State.setHart_sts (s : State) (k : Nat) (h : Hart) : (s.setHart k h).sts = s.sts := rfl

/-! ### State.setMe -/

@[simp] theorem State.setMe_agenda (s : State) (h : Hart) : (s.setMe h).agenda = s.agenda := rfl
@[simp] theorem State.setMe_turn (s : State) (h : Hart) : (s.setMe h).turn = s.turn := rfl
@[simp] theorem State.setMe_cur (s : State) (h : Hart) : (s.setMe h).cur = s.cur := rfl
@[simp] theorem State.setMe_ticks (s : State) (h : Hart) : (s.setMe h).ticks = s.ticks := rfl
@[simp] theorem State.setMe_leftReset (s : State) (h : Hart) : (s.setMe h).leftReset = s.leftReset := rfl
@[simp] theorem State.setMe_free (s : State) (h : Hart) : (s.setMe h).free = s.free := rfl
@[simp] theorem State.setMe_mem (s : State) (h : Hart) : (s.setMe h).mem = s.mem := rfl
@[simp] theorem State.setMe_poison (s : State) (h : Hart) : (s.setMe h).poison = s.poison := rfl
@[simp] theorem State.setMe_home (s : State) (h : Hart) : (s.setMe h).home = s.home := rfl
@[simp] theorem State.setMe_harts (s : State) (h : Hart) : (s.setMe h).harts = aset s.harts s.cur h := rfl
@[simp] theorem State.setMe_cores (s : State) (h : Hart) : (s.setMe h).cores = s.cores := rfl
@[simp] theorem State.setMe_clusters (s : State) (h : Hart) : (s.setMe h).clusters = s.clusters := rfl
@[simp] theorem State.setMe_dies (s : State) (h : Hart) : (s.setMe h).dies = s.dies := rfl
@[simp] theorem State.setMe_xlat (s : State) (h : Hart) : (s.setMe h).xlat = s.xlat := rfl
@[simp] theorem State.setMe_fe (s : State) (h : Hart) : (s.setMe h).fe = s.fe := rfl
@[simp] theorem State.setMe_io (s : State) (h : Hart) : (s.setMe h).io = s.io := rfl
@[simp] theorem State.setMe_sts (s : State) (h : Hart) : (s.setMe h).sts = s.sts := rfl

/-! ### State.setCore -/

@[simp] theorem State.setCore_agenda (s : State) (c : Nat) (x : Core) : (s.setCore c x).agenda = s.agenda := rfl
@[simp] theorem State.setCore_turn (s : State) (c : Nat) (x : Core) : (s.setCore c x).turn = s.turn := rfl
@[simp] theorem State.setCore_cur (s : State) (c : Nat) (x : Core) : (s.setCore c x).cur = s.cur := rfl
@[simp] theorem State.setCore_ticks (s : State) (c : Nat) (x : Core) : (s.setCore c x).ticks = s.ticks := rfl
@[simp] theorem State.setCore_leftReset (s : State) (c : Nat) (x : Core) : (s.setCore c x).leftReset = s.leftReset := rfl
@[simp] theorem State.setCore_free (s : State) (c : Nat) (x : Core) : (s.setCore c x).free = s.free := rfl
@[simp] theorem State.setCore_mem (s : State) (c : Nat) (x : Core) : (s.setCore c x).mem = s.mem := rfl
@[simp] theorem State.setCore_poison (s : State) (c : Nat) (x : Core) : (s.setCore c x).poison = s.poison := rfl
@[simp] theorem State.setCore_home (s : State) (c : Nat) (x : Core) : (s.setCore c x).home = s.home := rfl
@[simp] theorem State.setCore_harts (s : State) (c : Nat) (x : Core) : (s.setCore c x).harts = s.harts := rfl
@[simp] theorem State.setCore_cores (s : State) (c : Nat) (x : Core) : (s.setCore c x).cores = aset s.cores c x := rfl
@[simp] theorem State.setCore_clusters (s : State) (c : Nat) (x : Core) : (s.setCore c x).clusters = s.clusters := rfl
@[simp] theorem State.setCore_dies (s : State) (c : Nat) (x : Core) : (s.setCore c x).dies = s.dies := rfl
@[simp] theorem State.setCore_xlat (s : State) (c : Nat) (x : Core) : (s.setCore c x).xlat = s.xlat := rfl
@[simp] theorem State.setCore_fe (s : State) (c : Nat) (x : Core) : (s.setCore c x).fe = s.fe := rfl
@[simp] theorem State.setCore_io (s : State) (c : Nat) (x : Core) : (s.setCore c x).io = s.io := rfl
@[simp] theorem State.setCore_sts (s : State) (c : Nat) (x : Core) : (s.setCore c x).sts = s.sts := rfl

/-! ### State.setCluster -/

@[simp] theorem State.setCluster_agenda (s : State) (c : Nat) (x : Cluster) : (s.setCluster c x).agenda = s.agenda := rfl
@[simp] theorem State.setCluster_turn (s : State) (c : Nat) (x : Cluster) : (s.setCluster c x).turn = s.turn := rfl
@[simp] theorem State.setCluster_cur (s : State) (c : Nat) (x : Cluster) : (s.setCluster c x).cur = s.cur := rfl
@[simp] theorem State.setCluster_ticks (s : State) (c : Nat) (x : Cluster) : (s.setCluster c x).ticks = s.ticks := rfl
@[simp] theorem State.setCluster_leftReset (s : State) (c : Nat) (x : Cluster) : (s.setCluster c x).leftReset = s.leftReset := rfl
@[simp] theorem State.setCluster_free (s : State) (c : Nat) (x : Cluster) : (s.setCluster c x).free = s.free := rfl
@[simp] theorem State.setCluster_mem (s : State) (c : Nat) (x : Cluster) : (s.setCluster c x).mem = s.mem := rfl
@[simp] theorem State.setCluster_poison (s : State) (c : Nat) (x : Cluster) : (s.setCluster c x).poison = s.poison := rfl
@[simp] theorem State.setCluster_home (s : State) (c : Nat) (x : Cluster) : (s.setCluster c x).home = s.home := rfl
@[simp] theorem State.setCluster_harts (s : State) (c : Nat) (x : Cluster) : (s.setCluster c x).harts = s.harts := rfl
@[simp] theorem State.setCluster_cores (s : State) (c : Nat) (x : Cluster) : (s.setCluster c x).cores = s.cores := rfl
@[simp] theorem State.setCluster_clusters (s : State) (c : Nat) (x : Cluster) : (s.setCluster c x).clusters = aset s.clusters c x := rfl
@[simp] theorem State.setCluster_dies (s : State) (c : Nat) (x : Cluster) : (s.setCluster c x).dies = s.dies := rfl
@[simp] theorem State.setCluster_xlat (s : State) (c : Nat) (x : Cluster) : (s.setCluster c x).xlat = s.xlat := rfl
@[simp] theorem State.setCluster_fe (s : State) (c : Nat) (x : Cluster) : (s.setCluster c x).fe = s.fe := rfl
@[simp] theorem State.setCluster_io (s : State) (c : Nat) (x : Cluster) : (s.setCluster c x).io = s.io := rfl
@[simp] theorem State.setCluster_sts (s : State) (c : Nat) (x : Cluster) : (s.setCluster c x).sts = s.sts := rfl

/-! ### State.setDie -/

@[simp] theorem State.setDie_agenda (s : State) (d : Nat) (x : Die) : (s.setDie d x).agenda = s.agenda := rfl
@[simp] theorem State.setDie_turn (s : State) (d : Nat) (x : Die) : (s.setDie d x).turn = s.turn := rfl
@[simp] theorem State.setDie_cur (s : State) (d : Nat) (x : Die) : (s.setDie d x).cur = s.cur := rfl
@[simp] theorem State.setDie_ticks (s : State) (d : Nat) (x : Die) : (s.setDie d x).ticks = s.ticks := rfl
@[simp] theorem State.setDie_leftReset (s : State) (d : Nat) (x : Die) : (s.setDie d x).leftReset = s.leftReset := rfl
@[simp] theorem State.setDie_free (s : State) (d : Nat) (x : Die) : (s.setDie d x).free = s.free := rfl
@[simp] theorem State.setDie_mem (s : State) (d : Nat) (x : Die) : (s.setDie d x).mem = s.mem := rfl
@[simp] theorem State.setDie_poison (s : State) (d : Nat) (x : Die) : (s.setDie d x).poison = s.poison := rfl
@[simp] theorem State.setDie_home (s : State) (d : Nat) (x : Die) : (s.setDie d x).home = s.home := rfl
@[simp] theorem State.setDie_harts (s : State) (d : Nat) (x : Die) : (s.setDie d x).harts = s.harts := rfl
@[simp] theorem State.setDie_cores (s : State) (d : Nat) (x : Die) : (s.setDie d x).cores = s.cores := rfl
@[simp] theorem State.setDie_clusters (s : State) (d : Nat) (x : Die) : (s.setDie d x).clusters = s.clusters := rfl
@[simp] theorem State.setDie_dies (s : State) (d : Nat) (x : Die) : (s.setDie d x).dies = aset s.dies d x := rfl
@[simp] theorem State.setDie_xlat (s : State) (d : Nat) (x : Die) : (s.setDie d x).xlat = s.xlat := rfl
@[simp] theorem State.setDie_fe (s : State) (d : Nat) (x : Die) : (s.setDie d x).fe = s.fe := rfl
@[simp] theorem State.setDie_io (s : State) (d : Nat) (x : Die) : (s.setDie d x).io = s.io := rfl
@[simp] theorem State.setDie_sts (s : State) (d : Nat) (x : Die) : (s.setDie d x).sts = s.sts := rfl

/-! ### State.setQueue -/

@[simp] theorem State.setQueue_agenda (s : State) (q : Nat) (x : Queue) : (s.setQueue q x).agenda = s.agenda := rfl
@[simp] theorem State.setQueue_turn (s : State) (q : Nat) (x : Queue) : (s.setQueue q x).turn = s.turn := rfl
@[simp] theorem State.setQueue_cur (s : State) (q : Nat) (x : Queue) : (s.setQueue q x).cur = s.cur := rfl
@[simp] theorem State.setQueue_ticks (s : State) (q : Nat) (x : Queue) : (s.setQueue q x).ticks = s.ticks := rfl
@[simp] theorem State.setQueue_leftReset (s : State) (q : Nat) (x : Queue) : (s.setQueue q x).leftReset = s.leftReset := rfl
@[simp] theorem State.setQueue_free (s : State) (q : Nat) (x : Queue) : (s.setQueue q x).free = s.free := rfl
@[simp] theorem State.setQueue_mem (s : State) (q : Nat) (x : Queue) : (s.setQueue q x).mem = s.mem := rfl
@[simp] theorem State.setQueue_poison (s : State) (q : Nat) (x : Queue) : (s.setQueue q x).poison = s.poison := rfl
@[simp] theorem State.setQueue_home (s : State) (q : Nat) (x : Queue) : (s.setQueue q x).home = s.home := rfl
@[simp] theorem State.setQueue_harts (s : State) (q : Nat) (x : Queue) : (s.setQueue q x).harts = s.harts := rfl
@[simp] theorem State.setQueue_cores (s : State) (q : Nat) (x : Queue) : (s.setQueue q x).cores = s.cores := rfl
@[simp] theorem State.setQueue_clusters (s : State) (q : Nat) (x : Queue) : (s.setQueue q x).clusters = s.clusters := rfl
@[simp] theorem State.setQueue_dies (s : State) (q : Nat) (x : Queue) : (s.setQueue q x).dies = s.dies := rfl
@[simp] theorem State.setQueue_xlat (s : State) (q : Nat) (x : Queue) : (s.setQueue q x).xlat = s.xlat := rfl
@[simp] theorem State.setQueue_fe (s : State) (q : Nat) (x : Queue) : (s.setQueue q x).fe = s.fe := rfl
@[simp] theorem State.setQueue_io (s : State) (q : Nat) (x : Queue) : (s.setQueue q x).io = { s.io with queues := aset s.io.queues q x } := rfl
@[simp] theorem State.setQueue_sts (s : State) (q : Nat) (x : Queue) : (s.setQueue q x).sts = s.sts := rfl

/-! ### State.choose -/

@[simp] theorem State.choose_agenda (s : State) (n : Nat) : ((s.choose n).2).agenda = s.agenda := rfl
@[simp] theorem State.choose_turn (s : State) (n : Nat) : ((s.choose n).2).turn = s.turn := rfl
@[simp] theorem State.choose_cur (s : State) (n : Nat) : ((s.choose n).2).cur = s.cur := rfl
@[simp] theorem State.choose_ticks (s : State) (n : Nat) : ((s.choose n).2).ticks = s.ticks := rfl
@[simp] theorem State.choose_leftReset (s : State) (n : Nat) : ((s.choose n).2).leftReset = s.leftReset := rfl
@[simp] theorem State.choose_free (s : State) (n : Nat) : ((s.choose n).2).free = s.free + 1 := rfl
@[simp] theorem State.choose_mem (s : State) (n : Nat) : ((s.choose n).2).mem = s.mem := rfl
@[simp] theorem State.choose_poison (s : State) (n : Nat) : ((s.choose n).2).poison = s.poison := rfl
@[simp] theorem State.choose_home (s : State) (n : Nat) : ((s.choose n).2).home = s.home := rfl
@[simp] theorem State.choose_harts (s : State) (n : Nat) : ((s.choose n).2).harts = s.harts := rfl
@[simp] theorem State.choose_cores (s : State) (n : Nat) : ((s.choose n).2).cores = s.cores := rfl
@[simp] theorem State.choose_clusters (s : State) (n : Nat) : ((s.choose n).2).clusters = s.clusters := rfl
@[simp] theorem State.choose_dies (s : State) (n : Nat) : ((s.choose n).2).dies = s.dies := rfl
@[simp] theorem State.choose_xlat (s : State) (n : Nat) : ((s.choose n).2).xlat = s.xlat := rfl
@[simp] theorem State.choose_fe (s : State) (n : Nat) : ((s.choose n).2).fe = s.fe := rfl
@[simp] theorem State.choose_io (s : State) (n : Nat) : ((s.choose n).2).io = s.io := rfl
@[simp] theorem State.choose_sts (s : State) (n : Nat) : ((s.choose n).2).sts = s.sts := rfl

/-! ### State.writePA -/

@[simp] theorem State.writePA_agenda (s : State) (a : Nat) (b : List Byte) : (s.writePA a b).agenda = s.agenda := rfl
@[simp] theorem State.writePA_turn (s : State) (a : Nat) (b : List Byte) : (s.writePA a b).turn = s.turn := rfl
@[simp] theorem State.writePA_cur (s : State) (a : Nat) (b : List Byte) : (s.writePA a b).cur = s.cur := rfl
@[simp] theorem State.writePA_ticks (s : State) (a : Nat) (b : List Byte) : (s.writePA a b).ticks = s.ticks := rfl
@[simp] theorem State.writePA_leftReset (s : State) (a : Nat) (b : List Byte) : (s.writePA a b).leftReset = s.leftReset := rfl
@[simp] theorem State.writePA_free (s : State) (a : Nat) (b : List Byte) : (s.writePA a b).free = s.free := rfl
@[simp] theorem State.writePA_mem (s : State) (a : Nat) (b : List Byte) : (s.writePA a b).mem = s.mem.write a b := rfl
@[simp] theorem State.writePA_home (s : State) (a : Nat) (b : List Byte) : (s.writePA a b).home = s.home := rfl
@[simp] theorem State.writePA_harts (s : State) (a : Nat) (b : List Byte) : (s.writePA a b).harts = s.harts := rfl
@[simp] theorem State.writePA_cores (s : State) (a : Nat) (b : List Byte) : (s.writePA a b).cores = s.cores := rfl
@[simp] theorem State.writePA_clusters (s : State) (a : Nat) (b : List Byte) : (s.writePA a b).clusters = s.clusters := rfl
@[simp] theorem State.writePA_dies (s : State) (a : Nat) (b : List Byte) : (s.writePA a b).dies = s.dies := rfl
@[simp] theorem State.writePA_xlat (s : State) (a : Nat) (b : List Byte) : (s.writePA a b).xlat = s.xlat := rfl
@[simp] theorem State.writePA_fe (s : State) (a : Nat) (b : List Byte) : (s.writePA a b).fe = s.fe := rfl
@[simp] theorem State.writePA_io (s : State) (a : Nat) (b : List Byte) : (s.writePA a b).io = s.io := rfl
@[simp] theorem State.writePA_sts (s : State) (a : Nat) (b : List Byte) : (s.writePA a b).sts = s.sts := rfl

/-! ### State.setPA -/

@[simp] theorem State.setPA_agenda (s : State) (a n x : Nat) : (s.setPA a n x).agenda = s.agenda := rfl
@[simp] theorem State.setPA_turn (s : State) (a n x : Nat) : (s.setPA a n x).turn = s.turn := rfl
@[simp] theorem State.setPA_cur (s : State) (a n x : Nat) : (s.setPA a n x).cur = s.cur := rfl
@[simp] theorem State.setPA_ticks (s : State) (a n x : Nat) : (s.setPA a n x).ticks = s.ticks := rfl
@[simp] theorem State.setPA_leftReset (s : State) (a n x : Nat) : (s.setPA a n x).leftReset = s.leftReset := rfl
@[simp] theorem State.setPA_free (s : State) (a n x : Nat) : (s.setPA a n x).free = s.free := rfl
@[simp] theorem State.setPA_mem (s : State) (a n x : Nat) : (s.setPA a n x).mem = s.mem.write a (toBytes n x) := rfl
@[simp] theorem State.setPA_home (s : State) (a n x : Nat) : (s.setPA a n x).home = s.home := rfl
@[simp] theorem State.setPA_harts (s : State) (a n x : Nat) : (s.setPA a n x).harts = s.harts := rfl
@[simp] theorem State.setPA_cores (s : State) (a n x : Nat) : (s.setPA a n x).cores = s.cores := rfl
@[simp] theorem State.setPA_clusters (s : State) (a n x : Nat) : (s.setPA a n x).clusters = s.clusters := rfl
@[simp] theorem State.setPA_dies (s : State) (a n x : Nat) : (s.setPA a n x).dies = s.dies := rfl
@[simp] theorem State.setPA_xlat (s : State) (a n x : Nat) : (s.setPA a n x).xlat = s.xlat := rfl
@[simp] theorem State.setPA_fe (s : State) (a n x : Nat) : (s.setPA a n x).fe = s.fe := rfl
@[simp] theorem State.setPA_io (s : State) (a n x : Nat) : (s.setPA a n x).io = s.io := rfl
@[simp] theorem State.setPA_sts (s : State) (a n x : Nat) : (s.setPA a n x).sts = s.sts := rfl

/-! ### State.logEvent -/

@[simp] theorem State.logEvent_agenda (s : State) (k d x : Nat) : (s.logEvent k d x).agenda = s.agenda := rfl
@[simp] theorem State.logEvent_turn (s : State) (k d x : Nat) : (s.logEvent k d x).turn = s.turn := rfl
@[simp] theorem State.logEvent_cur (s : State) (k d x : Nat) : (s.logEvent k d x).cur = s.cur := rfl
@[simp] theorem State.logEvent_ticks (s : State) (k d x : Nat) : (s.logEvent k d x).ticks = s.ticks := rfl
@[simp] theorem State.logEvent_leftReset (s : State) (k d x : Nat) : (s.logEvent k d x).leftReset = s.leftReset := rfl
@[simp] theorem State.logEvent_free (s : State) (k d x : Nat) : (s.logEvent k d x).free = s.free := rfl
@[simp] theorem State.logEvent_mem (s : State) (k d x : Nat) : (s.logEvent k d x).mem = s.mem := rfl
@[simp] theorem State.logEvent_poison (s : State) (k d x : Nat) : (s.logEvent k d x).poison = s.poison := rfl
@[simp] theorem State.logEvent_home (s : State) (k d x : Nat) : (s.logEvent k d x).home = s.home := rfl
@[simp] theorem State.logEvent_harts (s : State) (k d x : Nat) : (s.logEvent k d x).harts = s.harts := rfl
@[simp] theorem State.logEvent_cores (s : State) (k d x : Nat) : (s.logEvent k d x).cores = s.cores := rfl
@[simp] theorem State.logEvent_clusters (s : State) (k d x : Nat) : (s.logEvent k d x).clusters = s.clusters := rfl
@[simp] theorem State.logEvent_dies (s : State) (k d x : Nat) : (s.logEvent k d x).dies = s.dies := rfl
@[simp] theorem State.logEvent_xlat (s : State) (k d x : Nat) : (s.logEvent k d x).xlat = s.xlat := rfl
@[simp] theorem State.logEvent_fe (s : State) (k d x : Nat) : (s.logEvent k d x).fe = s.fe := rfl
@[simp] theorem State.logEvent_io (s : State) (k d x : Nat) : (s.logEvent k d x).io = s.io := rfl

/-! ### State.setRegion -/

@[simp] theorem State.setRegion_agenda (s : State) (r : Region) : (s.setRegion r).agenda = s.agenda := rfl
@[simp] theorem State.setRegion_turn (s : State) (r : Region) : (s.setRegion r).turn = s.turn := rfl
@[simp] theorem State.setRegion_cur (s : State) (r : Region) : (s.setRegion r).cur = s.cur := rfl
@[simp] theorem State.setRegion_ticks (s : State) (r : Region) : (s.setRegion r).ticks = s.ticks := rfl
@[simp] theorem State.setRegion_leftReset (s : State) (r : Region) : (s.setRegion r).leftReset = s.leftReset := rfl
@[simp] theorem State.setRegion_free (s : State) (r : Region) : (s.setRegion r).free = s.free := rfl
@[simp] theorem State.setRegion_mem (s : State) (r : Region) : (s.setRegion r).mem = s.mem := rfl
@[simp] theorem State.setRegion_poison (s : State) (r : Region) : (s.setRegion r).poison = s.poison := rfl
@[simp] theorem State.setRegion_home (s : State) (r : Region) : (s.setRegion r).home = s.home := rfl
@[simp] theorem State.setRegion_harts (s : State) (r : Region) : (s.setRegion r).harts = s.harts := rfl
@[simp] theorem State.setRegion_cores (s : State) (r : Region) : (s.setRegion r).cores = s.cores := rfl
@[simp] theorem State.setRegion_clusters (s : State) (r : Region) : (s.setRegion r).clusters = s.clusters := rfl
@[simp] theorem State.setRegion_dies (s : State) (r : Region) : (s.setRegion r).dies = s.dies := rfl
@[simp] theorem State.setRegion_xlat (s : State) (r : Region) : (s.setRegion r).xlat = s.xlat := rfl
@[simp] theorem State.setRegion_io (s : State) (r : Region) : (s.setRegion r).io = s.io := rfl
@[simp] theorem State.setRegion_sts (s : State) (r : Region) : (s.setRegion r).sts = s.sts := rfl

/-! ### Hart.retire -/

@[simp] theorem Hart.retire_x (h : Hart)  : (h.retire).x = h.x := rfl
@[simp] theorem Hart.retire_v (h : Hart)  : (h.retire).v = h.v := rfl
@[simp] theorem Hart.retire_k (h : Hart)  : (h.retire).k = h.k := rfl
@[simp] theorem Hart.retire_g (h : Hart)  : (h.retire).g = h.g := rfl
@[simp] theorem Hart.retire_sg0 (h : Hart)  : (h.retire).sg0 = h.sg0 := rfl
@[simp] theorem Hart.retire_sg1 (h : Hart)  : (h.retire).sg1 = h.sg1 := rfl
@[simp] theorem Hart.retire_pc (h : Hart)  : (h.retire).pc = h.pc + 4 := rfl
@[simp] theorem Hart.retire_user (h : Hart)  : (h.retire).user = h.user := rfl
@[simp] theorem Hart.retire_ctl (h : Hart)  : (h.retire).ctl = h.ctl := rfl
@[simp] theorem Hart.retire_seq (h : Hart)  : (h.retire).seq = h.seq + 1 := rfl
@[simp] theorem Hart.retire_tack (h : Hart)  : (h.retire).tack = h.tack := rfl
@[simp] theorem Hart.retire_blk (h : Hart)  : (h.retire).blk = h.blk := rfl
@[simp] theorem Hart.retire_space (h : Hart)  : (h.retire).space = h.space := rfl
@[simp] theorem Hart.retire_run (h : Hart)  : (h.retire).run = h.run := rfl
@[simp] theorem Hart.retire_works (h : Hart)  : (h.retire).works = h.works := rfl
@[simp] theorem Hart.retire_area (h : Hart)  : (h.retire).area = h.area := rfl
@[simp] theorem Hart.retire_loads (h : Hart)  : (h.retire).loads = h.loads := rfl
@[simp] theorem Hart.retire_mats (h : Hart)  : (h.retire).mats = h.mats := rfl
@[simp] theorem Hart.retire_fail (h : Hart)  : (h.retire).fail = h.fail := rfl
@[simp] theorem Hart.retire_trap (h : Hart)  : (h.retire).trap = h.trap := rfl
@[simp] theorem Hart.retire_age (h : Hart)  : (h.retire).age = h.age := rfl
@[simp] theorem Hart.retire_placed (h : Hart)  : (h.retire).placed = h.placed := rfl
@[simp] theorem Hart.retire_ordered (h : Hart)  : (h.retire).ordered = h.ordered := rfl
@[simp] theorem Hart.retire_owed (h : Hart)  : (h.retire).owed = h.owed := rfl
@[simp] theorem Hart.retire_push (h : Hart)  : (h.retire).push = h.push := rfl
@[simp] theorem Hart.retire_parent (h : Hart)  : (h.retire).parent = h.parent := rfl
@[simp] theorem Hart.retire_pinned (h : Hart)  : (h.retire).pinned = h.pinned := rfl
@[simp] theorem Hart.retire_prior (h : Hart)  : (h.retire).prior = h.prior := rfl
@[simp] theorem Hart.retire_nst (h : Hart)  : (h.retire).nst = h.nst := rfl
@[simp] theorem Hart.retire_ncp (h : Hart)  : (h.retire).ncp = h.ncp := rfl
@[simp] theorem Hart.retire_nmx (h : Hart)  : (h.retire).nmx = h.nmx := rfl

/-! ### Hart.retireTo -/

@[simp] theorem Hart.retireTo_x (h : Hart) (t : Word) : (h.retireTo t).x = h.x := rfl
@[simp] theorem Hart.retireTo_v (h : Hart) (t : Word) : (h.retireTo t).v = h.v := rfl
@[simp] theorem Hart.retireTo_k (h : Hart) (t : Word) : (h.retireTo t).k = h.k := rfl
@[simp] theorem Hart.retireTo_g (h : Hart) (t : Word) : (h.retireTo t).g = h.g := rfl
@[simp] theorem Hart.retireTo_sg0 (h : Hart) (t : Word) : (h.retireTo t).sg0 = h.sg0 := rfl
@[simp] theorem Hart.retireTo_sg1 (h : Hart) (t : Word) : (h.retireTo t).sg1 = h.sg1 := rfl
@[simp] theorem Hart.retireTo_pc (h : Hart) (t : Word) : (h.retireTo t).pc = t := rfl
@[simp] theorem Hart.retireTo_user (h : Hart) (t : Word) : (h.retireTo t).user = h.user := rfl
@[simp] theorem Hart.retireTo_ctl (h : Hart) (t : Word) : (h.retireTo t).ctl = h.ctl := rfl
@[simp] theorem Hart.retireTo_seq (h : Hart) (t : Word) : (h.retireTo t).seq = h.seq + 1 := rfl
@[simp] theorem Hart.retireTo_tack (h : Hart) (t : Word) : (h.retireTo t).tack = h.tack := rfl
@[simp] theorem Hart.retireTo_blk (h : Hart) (t : Word) : (h.retireTo t).blk = h.blk := rfl
@[simp] theorem Hart.retireTo_space (h : Hart) (t : Word) : (h.retireTo t).space = h.space := rfl
@[simp] theorem Hart.retireTo_run (h : Hart) (t : Word) : (h.retireTo t).run = h.run := rfl
@[simp] theorem Hart.retireTo_works (h : Hart) (t : Word) : (h.retireTo t).works = h.works := rfl
@[simp] theorem Hart.retireTo_area (h : Hart) (t : Word) : (h.retireTo t).area = h.area := rfl
@[simp] theorem Hart.retireTo_loads (h : Hart) (t : Word) : (h.retireTo t).loads = h.loads := rfl
@[simp] theorem Hart.retireTo_mats (h : Hart) (t : Word) : (h.retireTo t).mats = h.mats := rfl
@[simp] theorem Hart.retireTo_fail (h : Hart) (t : Word) : (h.retireTo t).fail = h.fail := rfl
@[simp] theorem Hart.retireTo_trap (h : Hart) (t : Word) : (h.retireTo t).trap = h.trap := rfl
@[simp] theorem Hart.retireTo_age (h : Hart) (t : Word) : (h.retireTo t).age = h.age := rfl
@[simp] theorem Hart.retireTo_placed (h : Hart) (t : Word) : (h.retireTo t).placed = h.placed := rfl
@[simp] theorem Hart.retireTo_ordered (h : Hart) (t : Word) : (h.retireTo t).ordered = h.ordered := rfl
@[simp] theorem Hart.retireTo_owed (h : Hart) (t : Word) : (h.retireTo t).owed = h.owed := rfl
@[simp] theorem Hart.retireTo_push (h : Hart) (t : Word) : (h.retireTo t).push = h.push := rfl
@[simp] theorem Hart.retireTo_parent (h : Hart) (t : Word) : (h.retireTo t).parent = h.parent := rfl
@[simp] theorem Hart.retireTo_pinned (h : Hart) (t : Word) : (h.retireTo t).pinned = h.pinned := rfl
@[simp] theorem Hart.retireTo_prior (h : Hart) (t : Word) : (h.retireTo t).prior = h.prior := rfl
@[simp] theorem Hart.retireTo_nst (h : Hart) (t : Word) : (h.retireTo t).nst = h.nst := rfl
@[simp] theorem Hart.retireTo_ncp (h : Hart) (t : Word) : (h.retireTo t).ncp = h.ncp := rfl
@[simp] theorem Hart.retireTo_nmx (h : Hart) (t : Word) : (h.retireTo t).nmx = h.nmx := rfl

/-! ### Hart.countStore -/

@[simp] theorem Hart.countStore_x (h : Hart)  : (h.countStore).x = h.x := rfl
@[simp] theorem Hart.countStore_v (h : Hart)  : (h.countStore).v = h.v := rfl
@[simp] theorem Hart.countStore_k (h : Hart)  : (h.countStore).k = h.k := rfl
@[simp] theorem Hart.countStore_g (h : Hart)  : (h.countStore).g = h.g := rfl
@[simp] theorem Hart.countStore_sg0 (h : Hart)  : (h.countStore).sg0 = h.sg0 := rfl
@[simp] theorem Hart.countStore_sg1 (h : Hart)  : (h.countStore).sg1 = h.sg1 := rfl
@[simp] theorem Hart.countStore_pc (h : Hart)  : (h.countStore).pc = h.pc := rfl
@[simp] theorem Hart.countStore_user (h : Hart)  : (h.countStore).user = h.user := rfl
@[simp] theorem Hart.countStore_ctl (h : Hart)  : (h.countStore).ctl = h.ctl := rfl
@[simp] theorem Hart.countStore_seq (h : Hart)  : (h.countStore).seq = h.seq := rfl
@[simp] theorem Hart.countStore_tack (h : Hart)  : (h.countStore).tack = h.tack := rfl
@[simp] theorem Hart.countStore_blk (h : Hart)  : (h.countStore).blk = h.blk := rfl
@[simp] theorem Hart.countStore_space (h : Hart)  : (h.countStore).space = h.space := rfl
@[simp] theorem Hart.countStore_run (h : Hart)  : (h.countStore).run = h.run := rfl
@[simp] theorem Hart.countStore_works (h : Hart)  : (h.countStore).works = h.works := rfl
@[simp] theorem Hart.countStore_area (h : Hart)  : (h.countStore).area = h.area := rfl
@[simp] theorem Hart.countStore_loads (h : Hart)  : (h.countStore).loads = h.loads := rfl
@[simp] theorem Hart.countStore_mats (h : Hart)  : (h.countStore).mats = h.mats := rfl
@[simp] theorem Hart.countStore_fail (h : Hart)  : (h.countStore).fail = h.fail := rfl
@[simp] theorem Hart.countStore_trap (h : Hart)  : (h.countStore).trap = h.trap := rfl
@[simp] theorem Hart.countStore_age (h : Hart)  : (h.countStore).age = h.age := rfl
@[simp] theorem Hart.countStore_placed (h : Hart)  : (h.countStore).placed = h.placed := rfl
@[simp] theorem Hart.countStore_ordered (h : Hart)  : (h.countStore).ordered = h.ordered := rfl
@[simp] theorem Hart.countStore_owed (h : Hart)  : (h.countStore).owed = h.owed := rfl
@[simp] theorem Hart.countStore_push (h : Hart)  : (h.countStore).push = h.push := rfl
@[simp] theorem Hart.countStore_parent (h : Hart)  : (h.countStore).parent = h.parent := rfl
@[simp] theorem Hart.countStore_pinned (h : Hart)  : (h.countStore).pinned = h.pinned := rfl
@[simp] theorem Hart.countStore_prior (h : Hart)  : (h.countStore).prior = h.prior := rfl
@[simp] theorem Hart.countStore_nst (h : Hart)  : (h.countStore).nst = h.nst + 1 := rfl
@[simp] theorem Hart.countStore_ncp (h : Hart)  : (h.countStore).ncp = h.ncp := rfl
@[simp] theorem Hart.countStore_nmx (h : Hart)  : (h.countStore).nmx = h.nmx := rfl

/-! ### Hart.countMat -/

@[simp] theorem Hart.countMat_x (h : Hart)  : (h.countMat).x = h.x := rfl
@[simp] theorem Hart.countMat_v (h : Hart)  : (h.countMat).v = h.v := rfl
@[simp] theorem Hart.countMat_k (h : Hart)  : (h.countMat).k = h.k := rfl
@[simp] theorem Hart.countMat_g (h : Hart)  : (h.countMat).g = h.g := rfl
@[simp] theorem Hart.countMat_sg0 (h : Hart)  : (h.countMat).sg0 = h.sg0 := rfl
@[simp] theorem Hart.countMat_sg1 (h : Hart)  : (h.countMat).sg1 = h.sg1 := rfl
@[simp] theorem Hart.countMat_pc (h : Hart)  : (h.countMat).pc = h.pc := rfl
@[simp] theorem Hart.countMat_user (h : Hart)  : (h.countMat).user = h.user := rfl
@[simp] theorem Hart.countMat_ctl (h : Hart)  : (h.countMat).ctl = h.ctl := rfl
@[simp] theorem Hart.countMat_seq (h : Hart)  : (h.countMat).seq = h.seq := rfl
@[simp] theorem Hart.countMat_tack (h : Hart)  : (h.countMat).tack = h.tack := rfl
@[simp] theorem Hart.countMat_blk (h : Hart)  : (h.countMat).blk = h.blk := rfl
@[simp] theorem Hart.countMat_space (h : Hart)  : (h.countMat).space = h.space := rfl
@[simp] theorem Hart.countMat_run (h : Hart)  : (h.countMat).run = h.run := rfl
@[simp] theorem Hart.countMat_works (h : Hart)  : (h.countMat).works = h.works := rfl
@[simp] theorem Hart.countMat_area (h : Hart)  : (h.countMat).area = h.area := rfl
@[simp] theorem Hart.countMat_loads (h : Hart)  : (h.countMat).loads = h.loads := rfl
@[simp] theorem Hart.countMat_mats (h : Hart)  : (h.countMat).mats = h.mats := rfl
@[simp] theorem Hart.countMat_fail (h : Hart)  : (h.countMat).fail = h.fail := rfl
@[simp] theorem Hart.countMat_trap (h : Hart)  : (h.countMat).trap = h.trap := rfl
@[simp] theorem Hart.countMat_age (h : Hart)  : (h.countMat).age = h.age := rfl
@[simp] theorem Hart.countMat_placed (h : Hart)  : (h.countMat).placed = h.placed := rfl
@[simp] theorem Hart.countMat_ordered (h : Hart)  : (h.countMat).ordered = h.ordered := rfl
@[simp] theorem Hart.countMat_owed (h : Hart)  : (h.countMat).owed = h.owed := rfl
@[simp] theorem Hart.countMat_push (h : Hart)  : (h.countMat).push = h.push := rfl
@[simp] theorem Hart.countMat_parent (h : Hart)  : (h.countMat).parent = h.parent := rfl
@[simp] theorem Hart.countMat_pinned (h : Hart)  : (h.countMat).pinned = h.pinned := rfl
@[simp] theorem Hart.countMat_prior (h : Hart)  : (h.countMat).prior = h.prior := rfl
@[simp] theorem Hart.countMat_nst (h : Hart)  : (h.countMat).nst = h.nst := rfl
@[simp] theorem Hart.countMat_ncp (h : Hart)  : (h.countMat).ncp = h.ncp := rfl
@[simp] theorem Hart.countMat_nmx (h : Hart)  : (h.countMat).nmx = h.nmx + 1 := rfl

/-! ### Hart.setVstart -/

@[simp] theorem Hart.setVstart_x (h : Hart) (n : Nat) : (h.setVstart n).x = h.x := rfl
@[simp] theorem Hart.setVstart_v (h : Hart) (n : Nat) : (h.setVstart n).v = h.v := rfl
@[simp] theorem Hart.setVstart_k (h : Hart) (n : Nat) : (h.setVstart n).k = h.k := rfl
@[simp] theorem Hart.setVstart_g (h : Hart) (n : Nat) : (h.setVstart n).g = h.g := rfl
@[simp] theorem Hart.setVstart_sg0 (h : Hart) (n : Nat) : (h.setVstart n).sg0 = h.sg0 := rfl
@[simp] theorem Hart.setVstart_sg1 (h : Hart) (n : Nat) : (h.setVstart n).sg1 = h.sg1 := rfl
@[simp] theorem Hart.setVstart_pc (h : Hart) (n : Nat) : (h.setVstart n).pc = h.pc := rfl
@[simp] theorem Hart.setVstart_user (h : Hart) (n : Nat) : (h.setVstart n).user = h.user := rfl
@[simp] theorem Hart.setVstart_ctl (h : Hart) (n : Nat) : (h.setVstart n).ctl = { h.ctl with vstart := BitVec.ofNat 64 n } := rfl
@[simp] theorem Hart.setVstart_seq (h : Hart) (n : Nat) : (h.setVstart n).seq = h.seq := rfl
@[simp] theorem Hart.setVstart_tack (h : Hart) (n : Nat) : (h.setVstart n).tack = h.tack := rfl
@[simp] theorem Hart.setVstart_blk (h : Hart) (n : Nat) : (h.setVstart n).blk = h.blk := rfl
@[simp] theorem Hart.setVstart_space (h : Hart) (n : Nat) : (h.setVstart n).space = h.space := rfl
@[simp] theorem Hart.setVstart_run (h : Hart) (n : Nat) : (h.setVstart n).run = h.run := rfl
@[simp] theorem Hart.setVstart_works (h : Hart) (n : Nat) : (h.setVstart n).works = h.works := rfl
@[simp] theorem Hart.setVstart_area (h : Hart) (n : Nat) : (h.setVstart n).area = h.area := rfl
@[simp] theorem Hart.setVstart_loads (h : Hart) (n : Nat) : (h.setVstart n).loads = h.loads := rfl
@[simp] theorem Hart.setVstart_mats (h : Hart) (n : Nat) : (h.setVstart n).mats = h.mats := rfl
@[simp] theorem Hart.setVstart_fail (h : Hart) (n : Nat) : (h.setVstart n).fail = h.fail := rfl
@[simp] theorem Hart.setVstart_trap (h : Hart) (n : Nat) : (h.setVstart n).trap = h.trap := rfl
@[simp] theorem Hart.setVstart_age (h : Hart) (n : Nat) : (h.setVstart n).age = h.age := rfl
@[simp] theorem Hart.setVstart_placed (h : Hart) (n : Nat) : (h.setVstart n).placed = h.placed := rfl
@[simp] theorem Hart.setVstart_ordered (h : Hart) (n : Nat) : (h.setVstart n).ordered = h.ordered := rfl
@[simp] theorem Hart.setVstart_owed (h : Hart) (n : Nat) : (h.setVstart n).owed = h.owed := rfl
@[simp] theorem Hart.setVstart_push (h : Hart) (n : Nat) : (h.setVstart n).push = h.push := rfl
@[simp] theorem Hart.setVstart_parent (h : Hart) (n : Nat) : (h.setVstart n).parent = h.parent := rfl
@[simp] theorem Hart.setVstart_pinned (h : Hart) (n : Nat) : (h.setVstart n).pinned = h.pinned := rfl
@[simp] theorem Hart.setVstart_prior (h : Hart) (n : Nat) : (h.setVstart n).prior = h.prior := rfl
@[simp] theorem Hart.setVstart_nst (h : Hart) (n : Nat) : (h.setVstart n).nst = h.nst := rfl
@[simp] theorem Hart.setVstart_ncp (h : Hart) (n : Nat) : (h.setVstart n).ncp = h.ncp := rfl
@[simp] theorem Hart.setVstart_nmx (h : Hart) (n : Nat) : (h.setVstart n).nmx = h.nmx := rfl

/-! ### Hart.setVl -/

@[simp] theorem Hart.setVl_x (h : Hart) (n : Nat) : (h.setVl n).x = h.x := rfl
@[simp] theorem Hart.setVl_v (h : Hart) (n : Nat) : (h.setVl n).v = h.v := rfl
@[simp] theorem Hart.setVl_k (h : Hart) (n : Nat) : (h.setVl n).k = h.k := rfl
@[simp] theorem Hart.setVl_g (h : Hart) (n : Nat) : (h.setVl n).g = h.g := rfl
@[simp] theorem Hart.setVl_sg0 (h : Hart) (n : Nat) : (h.setVl n).sg0 = h.sg0 := rfl
@[simp] theorem Hart.setVl_sg1 (h : Hart) (n : Nat) : (h.setVl n).sg1 = h.sg1 := rfl
@[simp] theorem Hart.setVl_pc (h : Hart) (n : Nat) : (h.setVl n).pc = h.pc := rfl
@[simp] theorem Hart.setVl_user (h : Hart) (n : Nat) : (h.setVl n).user = h.user := rfl
@[simp] theorem Hart.setVl_ctl (h : Hart) (n : Nat) : (h.setVl n).ctl = { h.ctl with vl := BitVec.ofNat 64 n } := rfl
@[simp] theorem Hart.setVl_seq (h : Hart) (n : Nat) : (h.setVl n).seq = h.seq := rfl
@[simp] theorem Hart.setVl_tack (h : Hart) (n : Nat) : (h.setVl n).tack = h.tack := rfl
@[simp] theorem Hart.setVl_blk (h : Hart) (n : Nat) : (h.setVl n).blk = h.blk := rfl
@[simp] theorem Hart.setVl_space (h : Hart) (n : Nat) : (h.setVl n).space = h.space := rfl
@[simp] theorem Hart.setVl_run (h : Hart) (n : Nat) : (h.setVl n).run = h.run := rfl
@[simp] theorem Hart.setVl_works (h : Hart) (n : Nat) : (h.setVl n).works = h.works := rfl
@[simp] theorem Hart.setVl_area (h : Hart) (n : Nat) : (h.setVl n).area = h.area := rfl
@[simp] theorem Hart.setVl_loads (h : Hart) (n : Nat) : (h.setVl n).loads = h.loads := rfl
@[simp] theorem Hart.setVl_mats (h : Hart) (n : Nat) : (h.setVl n).mats = h.mats := rfl
@[simp] theorem Hart.setVl_fail (h : Hart) (n : Nat) : (h.setVl n).fail = h.fail := rfl
@[simp] theorem Hart.setVl_trap (h : Hart) (n : Nat) : (h.setVl n).trap = h.trap := rfl
@[simp] theorem Hart.setVl_age (h : Hart) (n : Nat) : (h.setVl n).age = h.age := rfl
@[simp] theorem Hart.setVl_placed (h : Hart) (n : Nat) : (h.setVl n).placed = h.placed := rfl
@[simp] theorem Hart.setVl_ordered (h : Hart) (n : Nat) : (h.setVl n).ordered = h.ordered := rfl
@[simp] theorem Hart.setVl_owed (h : Hart) (n : Nat) : (h.setVl n).owed = h.owed := rfl
@[simp] theorem Hart.setVl_push (h : Hart) (n : Nat) : (h.setVl n).push = h.push := rfl
@[simp] theorem Hart.setVl_parent (h : Hart) (n : Nat) : (h.setVl n).parent = h.parent := rfl
@[simp] theorem Hart.setVl_pinned (h : Hart) (n : Nat) : (h.setVl n).pinned = h.pinned := rfl
@[simp] theorem Hart.setVl_prior (h : Hart) (n : Nat) : (h.setVl n).prior = h.prior := rfl
@[simp] theorem Hart.setVl_nst (h : Hart) (n : Nat) : (h.setVl n).nst = h.nst := rfl
@[simp] theorem Hart.setVl_ncp (h : Hart) (n : Nat) : (h.setVl n).ncp = h.ncp := rfl
@[simp] theorem Hart.setVl_nmx (h : Hart) (n : Nat) : (h.setVl n).nmx = h.nmx := rfl

/-! ### Hart.vdone -/

@[simp] theorem Hart.vdone_x (h : Hart)  : (h.vdone).x = h.x := rfl
@[simp] theorem Hart.vdone_v (h : Hart)  : (h.vdone).v = h.v := rfl
@[simp] theorem Hart.vdone_k (h : Hart)  : (h.vdone).k = h.k := rfl
@[simp] theorem Hart.vdone_g (h : Hart)  : (h.vdone).g = h.g := rfl
@[simp] theorem Hart.vdone_sg0 (h : Hart)  : (h.vdone).sg0 = h.sg0 := rfl
@[simp] theorem Hart.vdone_sg1 (h : Hart)  : (h.vdone).sg1 = h.sg1 := rfl
@[simp] theorem Hart.vdone_pc (h : Hart)  : (h.vdone).pc = h.pc + 4 := rfl
@[simp] theorem Hart.vdone_user (h : Hart)  : (h.vdone).user = h.user := rfl
@[simp] theorem Hart.vdone_ctl (h : Hart)  : (h.vdone).ctl = { h.ctl with vstart := 0 } := rfl
@[simp] theorem Hart.vdone_seq (h : Hart)  : (h.vdone).seq = h.seq + 1 := rfl
@[simp] theorem Hart.vdone_tack (h : Hart)  : (h.vdone).tack = h.tack := rfl
@[simp] theorem Hart.vdone_blk (h : Hart)  : (h.vdone).blk = h.blk := rfl
@[simp] theorem Hart.vdone_space (h : Hart)  : (h.vdone).space = h.space := rfl
@[simp] theorem Hart.vdone_run (h : Hart)  : (h.vdone).run = h.run := rfl
@[simp] theorem Hart.vdone_works (h : Hart)  : (h.vdone).works = h.works := rfl
@[simp] theorem Hart.vdone_area (h : Hart)  : (h.vdone).area = h.area := rfl
@[simp] theorem Hart.vdone_loads (h : Hart)  : (h.vdone).loads = h.loads := rfl
@[simp] theorem Hart.vdone_mats (h : Hart)  : (h.vdone).mats = h.mats := rfl
@[simp] theorem Hart.vdone_fail (h : Hart)  : (h.vdone).fail = h.fail := rfl
@[simp] theorem Hart.vdone_trap (h : Hart)  : (h.vdone).trap = h.trap := rfl
@[simp] theorem Hart.vdone_age (h : Hart)  : (h.vdone).age = h.age := rfl
@[simp] theorem Hart.vdone_placed (h : Hart)  : (h.vdone).placed = h.placed := rfl
@[simp] theorem Hart.vdone_ordered (h : Hart)  : (h.vdone).ordered = h.ordered := rfl
@[simp] theorem Hart.vdone_owed (h : Hart)  : (h.vdone).owed = h.owed := rfl
@[simp] theorem Hart.vdone_push (h : Hart)  : (h.vdone).push = h.push := rfl
@[simp] theorem Hart.vdone_parent (h : Hart)  : (h.vdone).parent = h.parent := rfl
@[simp] theorem Hart.vdone_pinned (h : Hart)  : (h.vdone).pinned = h.pinned := rfl
@[simp] theorem Hart.vdone_prior (h : Hart)  : (h.vdone).prior = h.prior := rfl
@[simp] theorem Hart.vdone_nst (h : Hart)  : (h.vdone).nst = h.nst := rfl
@[simp] theorem Hart.vdone_ncp (h : Hart)  : (h.vdone).ncp = h.ncp := rfl
@[simp] theorem Hart.vdone_nmx (h : Hart)  : (h.vdone).nmx = h.nmx := rfl

/-! ### Hart.accrue -/

@[simp] theorem Hart.accrue_x (h : Hart) (f : BitVec 8) : (h.accrue f).x = h.x := rfl
@[simp] theorem Hart.accrue_v (h : Hart) (f : BitVec 8) : (h.accrue f).v = h.v := rfl
@[simp] theorem Hart.accrue_k (h : Hart) (f : BitVec 8) : (h.accrue f).k = h.k := rfl
@[simp] theorem Hart.accrue_g (h : Hart) (f : BitVec 8) : (h.accrue f).g = h.g := rfl
@[simp] theorem Hart.accrue_sg0 (h : Hart) (f : BitVec 8) : (h.accrue f).sg0 = h.sg0 := rfl
@[simp] theorem Hart.accrue_sg1 (h : Hart) (f : BitVec 8) : (h.accrue f).sg1 = h.sg1 := rfl
@[simp] theorem Hart.accrue_pc (h : Hart) (f : BitVec 8) : (h.accrue f).pc = h.pc := rfl
@[simp] theorem Hart.accrue_user (h : Hart) (f : BitVec 8) : (h.accrue f).user = h.user := rfl
@[simp] theorem Hart.accrue_ctl (h : Hart) (f : BitVec 8) : (h.accrue f).ctl = { h.ctl with fflags := h.ctl.fflags ||| f.setWidth 64 } := rfl
@[simp] theorem Hart.accrue_seq (h : Hart) (f : BitVec 8) : (h.accrue f).seq = h.seq := rfl
@[simp] theorem Hart.accrue_tack (h : Hart) (f : BitVec 8) : (h.accrue f).tack = h.tack := rfl
@[simp] theorem Hart.accrue_blk (h : Hart) (f : BitVec 8) : (h.accrue f).blk = h.blk := rfl
@[simp] theorem Hart.accrue_space (h : Hart) (f : BitVec 8) : (h.accrue f).space = h.space := rfl
@[simp] theorem Hart.accrue_run (h : Hart) (f : BitVec 8) : (h.accrue f).run = h.run := rfl
@[simp] theorem Hart.accrue_works (h : Hart) (f : BitVec 8) : (h.accrue f).works = h.works := rfl
@[simp] theorem Hart.accrue_area (h : Hart) (f : BitVec 8) : (h.accrue f).area = h.area := rfl
@[simp] theorem Hart.accrue_loads (h : Hart) (f : BitVec 8) : (h.accrue f).loads = h.loads := rfl
@[simp] theorem Hart.accrue_mats (h : Hart) (f : BitVec 8) : (h.accrue f).mats = h.mats := rfl
@[simp] theorem Hart.accrue_fail (h : Hart) (f : BitVec 8) : (h.accrue f).fail = h.fail := rfl
@[simp] theorem Hart.accrue_trap (h : Hart) (f : BitVec 8) : (h.accrue f).trap = h.trap := rfl
@[simp] theorem Hart.accrue_age (h : Hart) (f : BitVec 8) : (h.accrue f).age = h.age := rfl
@[simp] theorem Hart.accrue_placed (h : Hart) (f : BitVec 8) : (h.accrue f).placed = h.placed := rfl
@[simp] theorem Hart.accrue_ordered (h : Hart) (f : BitVec 8) : (h.accrue f).ordered = h.ordered := rfl
@[simp] theorem Hart.accrue_owed (h : Hart) (f : BitVec 8) : (h.accrue f).owed = h.owed := rfl
@[simp] theorem Hart.accrue_push (h : Hart) (f : BitVec 8) : (h.accrue f).push = h.push := rfl
@[simp] theorem Hart.accrue_parent (h : Hart) (f : BitVec 8) : (h.accrue f).parent = h.parent := rfl
@[simp] theorem Hart.accrue_pinned (h : Hart) (f : BitVec 8) : (h.accrue f).pinned = h.pinned := rfl
@[simp] theorem Hart.accrue_prior (h : Hart) (f : BitVec 8) : (h.accrue f).prior = h.prior := rfl
@[simp] theorem Hart.accrue_nst (h : Hart) (f : BitVec 8) : (h.accrue f).nst = h.nst := rfl
@[simp] theorem Hart.accrue_ncp (h : Hart) (f : BitVec 8) : (h.accrue f).ncp = h.ncp := rfl
@[simp] theorem Hart.accrue_nmx (h : Hart) (f : BitVec 8) : (h.accrue f).nmx = h.nmx := rfl

/-! ### Hart.setX -/

@[simp] theorem Hart.setX_v (h : Hart) (i : XIx) (w : Word) : (h.setX i w).v = h.v := by unfold Hart.setX; split <;> rfl
@[simp] theorem Hart.setX_k (h : Hart) (i : XIx) (w : Word) : (h.setX i w).k = h.k := by unfold Hart.setX; split <;> rfl
@[simp] theorem Hart.setX_g (h : Hart) (i : XIx) (w : Word) : (h.setX i w).g = h.g := by unfold Hart.setX; split <;> rfl
@[simp] theorem Hart.setX_sg0 (h : Hart) (i : XIx) (w : Word) : (h.setX i w).sg0 = h.sg0 := by unfold Hart.setX; split <;> rfl
@[simp] theorem Hart.setX_sg1 (h : Hart) (i : XIx) (w : Word) : (h.setX i w).sg1 = h.sg1 := by unfold Hart.setX; split <;> rfl
@[simp] theorem Hart.setX_pc (h : Hart) (i : XIx) (w : Word) : (h.setX i w).pc = h.pc := by unfold Hart.setX; split <;> rfl
@[simp] theorem Hart.setX_user (h : Hart) (i : XIx) (w : Word) : (h.setX i w).user = h.user := by unfold Hart.setX; split <;> rfl
@[simp] theorem Hart.setX_ctl (h : Hart) (i : XIx) (w : Word) : (h.setX i w).ctl = h.ctl := by unfold Hart.setX; split <;> rfl
@[simp] theorem Hart.setX_seq (h : Hart) (i : XIx) (w : Word) : (h.setX i w).seq = h.seq := by unfold Hart.setX; split <;> rfl
@[simp] theorem Hart.setX_tack (h : Hart) (i : XIx) (w : Word) : (h.setX i w).tack = h.tack := by unfold Hart.setX; split <;> rfl
@[simp] theorem Hart.setX_blk (h : Hart) (i : XIx) (w : Word) : (h.setX i w).blk = h.blk := by unfold Hart.setX; split <;> rfl
@[simp] theorem Hart.setX_space (h : Hart) (i : XIx) (w : Word) : (h.setX i w).space = h.space := by unfold Hart.setX; split <;> rfl
@[simp] theorem Hart.setX_run (h : Hart) (i : XIx) (w : Word) : (h.setX i w).run = h.run := by unfold Hart.setX; split <;> rfl
@[simp] theorem Hart.setX_works (h : Hart) (i : XIx) (w : Word) : (h.setX i w).works = h.works := by unfold Hart.setX; split <;> rfl
@[simp] theorem Hart.setX_area (h : Hart) (i : XIx) (w : Word) : (h.setX i w).area = h.area := by unfold Hart.setX; split <;> rfl
@[simp] theorem Hart.setX_loads (h : Hart) (i : XIx) (w : Word) : (h.setX i w).loads = h.loads := by unfold Hart.setX; split <;> rfl
@[simp] theorem Hart.setX_mats (h : Hart) (i : XIx) (w : Word) : (h.setX i w).mats = h.mats := by unfold Hart.setX; split <;> rfl
@[simp] theorem Hart.setX_fail (h : Hart) (i : XIx) (w : Word) : (h.setX i w).fail = h.fail := by unfold Hart.setX; split <;> rfl
@[simp] theorem Hart.setX_trap (h : Hart) (i : XIx) (w : Word) : (h.setX i w).trap = h.trap := by unfold Hart.setX; split <;> rfl
@[simp] theorem Hart.setX_age (h : Hart) (i : XIx) (w : Word) : (h.setX i w).age = h.age := by unfold Hart.setX; split <;> rfl
@[simp] theorem Hart.setX_placed (h : Hart) (i : XIx) (w : Word) : (h.setX i w).placed = h.placed := by unfold Hart.setX; split <;> rfl
@[simp] theorem Hart.setX_ordered (h : Hart) (i : XIx) (w : Word) : (h.setX i w).ordered = h.ordered := by unfold Hart.setX; split <;> rfl
@[simp] theorem Hart.setX_owed (h : Hart) (i : XIx) (w : Word) : (h.setX i w).owed = h.owed := by unfold Hart.setX; split <;> rfl
@[simp] theorem Hart.setX_push (h : Hart) (i : XIx) (w : Word) : (h.setX i w).push = h.push := by unfold Hart.setX; split <;> rfl
@[simp] theorem Hart.setX_parent (h : Hart) (i : XIx) (w : Word) : (h.setX i w).parent = h.parent := by unfold Hart.setX; split <;> rfl
@[simp] theorem Hart.setX_pinned (h : Hart) (i : XIx) (w : Word) : (h.setX i w).pinned = h.pinned := by unfold Hart.setX; split <;> rfl
@[simp] theorem Hart.setX_prior (h : Hart) (i : XIx) (w : Word) : (h.setX i w).prior = h.prior := by unfold Hart.setX; split <;> rfl
@[simp] theorem Hart.setX_nst (h : Hart) (i : XIx) (w : Word) : (h.setX i w).nst = h.nst := by unfold Hart.setX; split <;> rfl
@[simp] theorem Hart.setX_ncp (h : Hart) (i : XIx) (w : Word) : (h.setX i w).ncp = h.ncp := by unfold Hart.setX; split <;> rfl
@[simp] theorem Hart.setX_nmx (h : Hart) (i : XIx) (w : Word) : (h.setX i w).nmx = h.nmx := by unfold Hart.setX; split <;> rfl

/-! ### Hart.setV -/

@[simp] theorem Hart.setV_x (h : Hart) (n : Nat) (r : VReg) : (h.setV n r).x = h.x := by unfold Hart.setV; split <;> rfl
@[simp] theorem Hart.setV_k (h : Hart) (n : Nat) (r : VReg) : (h.setV n r).k = h.k := by unfold Hart.setV; split <;> rfl
@[simp] theorem Hart.setV_g (h : Hart) (n : Nat) (r : VReg) : (h.setV n r).g = h.g := by unfold Hart.setV; split <;> rfl
@[simp] theorem Hart.setV_sg0 (h : Hart) (n : Nat) (r : VReg) : (h.setV n r).sg0 = h.sg0 := by unfold Hart.setV; split <;> rfl
@[simp] theorem Hart.setV_sg1 (h : Hart) (n : Nat) (r : VReg) : (h.setV n r).sg1 = h.sg1 := by unfold Hart.setV; split <;> rfl
@[simp] theorem Hart.setV_pc (h : Hart) (n : Nat) (r : VReg) : (h.setV n r).pc = h.pc := by unfold Hart.setV; split <;> rfl
@[simp] theorem Hart.setV_user (h : Hart) (n : Nat) (r : VReg) : (h.setV n r).user = h.user := by unfold Hart.setV; split <;> rfl
@[simp] theorem Hart.setV_ctl (h : Hart) (n : Nat) (r : VReg) : (h.setV n r).ctl = h.ctl := by unfold Hart.setV; split <;> rfl
@[simp] theorem Hart.setV_seq (h : Hart) (n : Nat) (r : VReg) : (h.setV n r).seq = h.seq := by unfold Hart.setV; split <;> rfl
@[simp] theorem Hart.setV_tack (h : Hart) (n : Nat) (r : VReg) : (h.setV n r).tack = h.tack := by unfold Hart.setV; split <;> rfl
@[simp] theorem Hart.setV_blk (h : Hart) (n : Nat) (r : VReg) : (h.setV n r).blk = h.blk := by unfold Hart.setV; split <;> rfl
@[simp] theorem Hart.setV_space (h : Hart) (n : Nat) (r : VReg) : (h.setV n r).space = h.space := by unfold Hart.setV; split <;> rfl
@[simp] theorem Hart.setV_run (h : Hart) (n : Nat) (r : VReg) : (h.setV n r).run = h.run := by unfold Hart.setV; split <;> rfl
@[simp] theorem Hart.setV_works (h : Hart) (n : Nat) (r : VReg) : (h.setV n r).works = h.works := by unfold Hart.setV; split <;> rfl
@[simp] theorem Hart.setV_area (h : Hart) (n : Nat) (r : VReg) : (h.setV n r).area = h.area := by unfold Hart.setV; split <;> rfl
@[simp] theorem Hart.setV_loads (h : Hart) (n : Nat) (r : VReg) : (h.setV n r).loads = h.loads := by unfold Hart.setV; split <;> rfl
@[simp] theorem Hart.setV_mats (h : Hart) (n : Nat) (r : VReg) : (h.setV n r).mats = h.mats := by unfold Hart.setV; split <;> rfl
@[simp] theorem Hart.setV_fail (h : Hart) (n : Nat) (r : VReg) : (h.setV n r).fail = h.fail := by unfold Hart.setV; split <;> rfl
@[simp] theorem Hart.setV_trap (h : Hart) (n : Nat) (r : VReg) : (h.setV n r).trap = h.trap := by unfold Hart.setV; split <;> rfl
@[simp] theorem Hart.setV_age (h : Hart) (n : Nat) (r : VReg) : (h.setV n r).age = h.age := by unfold Hart.setV; split <;> rfl
@[simp] theorem Hart.setV_placed (h : Hart) (n : Nat) (r : VReg) : (h.setV n r).placed = h.placed := by unfold Hart.setV; split <;> rfl
@[simp] theorem Hart.setV_ordered (h : Hart) (n : Nat) (r : VReg) : (h.setV n r).ordered = h.ordered := by unfold Hart.setV; split <;> rfl
@[simp] theorem Hart.setV_owed (h : Hart) (n : Nat) (r : VReg) : (h.setV n r).owed = h.owed := by unfold Hart.setV; split <;> rfl
@[simp] theorem Hart.setV_push (h : Hart) (n : Nat) (r : VReg) : (h.setV n r).push = h.push := by unfold Hart.setV; split <;> rfl
@[simp] theorem Hart.setV_parent (h : Hart) (n : Nat) (r : VReg) : (h.setV n r).parent = h.parent := by unfold Hart.setV; split <;> rfl
@[simp] theorem Hart.setV_pinned (h : Hart) (n : Nat) (r : VReg) : (h.setV n r).pinned = h.pinned := by unfold Hart.setV; split <;> rfl
@[simp] theorem Hart.setV_prior (h : Hart) (n : Nat) (r : VReg) : (h.setV n r).prior = h.prior := by unfold Hart.setV; split <;> rfl
@[simp] theorem Hart.setV_nst (h : Hart) (n : Nat) (r : VReg) : (h.setV n r).nst = h.nst := by unfold Hart.setV; split <;> rfl
@[simp] theorem Hart.setV_ncp (h : Hart) (n : Nat) (r : VReg) : (h.setV n r).ncp = h.ncp := by unfold Hart.setV; split <;> rfl
@[simp] theorem Hart.setV_nmx (h : Hart) (n : Nat) (r : VReg) : (h.setV n r).nmx = h.nmx := by unfold Hart.setV; split <;> rfl

/-! ### Hart.setK -/

@[simp] theorem Hart.setK_x (h : Hart) (n : Nat) (b : BitVec 2048) : (h.setK n b).x = h.x := by unfold Hart.setK; split <;> rfl
@[simp] theorem Hart.setK_v (h : Hart) (n : Nat) (b : BitVec 2048) : (h.setK n b).v = h.v := by unfold Hart.setK; split <;> rfl
@[simp] theorem Hart.setK_g (h : Hart) (n : Nat) (b : BitVec 2048) : (h.setK n b).g = h.g := by unfold Hart.setK; split <;> rfl
@[simp] theorem Hart.setK_sg0 (h : Hart) (n : Nat) (b : BitVec 2048) : (h.setK n b).sg0 = h.sg0 := by unfold Hart.setK; split <;> rfl
@[simp] theorem Hart.setK_sg1 (h : Hart) (n : Nat) (b : BitVec 2048) : (h.setK n b).sg1 = h.sg1 := by unfold Hart.setK; split <;> rfl
@[simp] theorem Hart.setK_pc (h : Hart) (n : Nat) (b : BitVec 2048) : (h.setK n b).pc = h.pc := by unfold Hart.setK; split <;> rfl
@[simp] theorem Hart.setK_user (h : Hart) (n : Nat) (b : BitVec 2048) : (h.setK n b).user = h.user := by unfold Hart.setK; split <;> rfl
@[simp] theorem Hart.setK_ctl (h : Hart) (n : Nat) (b : BitVec 2048) : (h.setK n b).ctl = h.ctl := by unfold Hart.setK; split <;> rfl
@[simp] theorem Hart.setK_seq (h : Hart) (n : Nat) (b : BitVec 2048) : (h.setK n b).seq = h.seq := by unfold Hart.setK; split <;> rfl
@[simp] theorem Hart.setK_tack (h : Hart) (n : Nat) (b : BitVec 2048) : (h.setK n b).tack = h.tack := by unfold Hart.setK; split <;> rfl
@[simp] theorem Hart.setK_blk (h : Hart) (n : Nat) (b : BitVec 2048) : (h.setK n b).blk = h.blk := by unfold Hart.setK; split <;> rfl
@[simp] theorem Hart.setK_space (h : Hart) (n : Nat) (b : BitVec 2048) : (h.setK n b).space = h.space := by unfold Hart.setK; split <;> rfl
@[simp] theorem Hart.setK_run (h : Hart) (n : Nat) (b : BitVec 2048) : (h.setK n b).run = h.run := by unfold Hart.setK; split <;> rfl
@[simp] theorem Hart.setK_works (h : Hart) (n : Nat) (b : BitVec 2048) : (h.setK n b).works = h.works := by unfold Hart.setK; split <;> rfl
@[simp] theorem Hart.setK_area (h : Hart) (n : Nat) (b : BitVec 2048) : (h.setK n b).area = h.area := by unfold Hart.setK; split <;> rfl
@[simp] theorem Hart.setK_loads (h : Hart) (n : Nat) (b : BitVec 2048) : (h.setK n b).loads = h.loads := by unfold Hart.setK; split <;> rfl
@[simp] theorem Hart.setK_mats (h : Hart) (n : Nat) (b : BitVec 2048) : (h.setK n b).mats = h.mats := by unfold Hart.setK; split <;> rfl
@[simp] theorem Hart.setK_fail (h : Hart) (n : Nat) (b : BitVec 2048) : (h.setK n b).fail = h.fail := by unfold Hart.setK; split <;> rfl
@[simp] theorem Hart.setK_trap (h : Hart) (n : Nat) (b : BitVec 2048) : (h.setK n b).trap = h.trap := by unfold Hart.setK; split <;> rfl
@[simp] theorem Hart.setK_age (h : Hart) (n : Nat) (b : BitVec 2048) : (h.setK n b).age = h.age := by unfold Hart.setK; split <;> rfl
@[simp] theorem Hart.setK_placed (h : Hart) (n : Nat) (b : BitVec 2048) : (h.setK n b).placed = h.placed := by unfold Hart.setK; split <;> rfl
@[simp] theorem Hart.setK_ordered (h : Hart) (n : Nat) (b : BitVec 2048) : (h.setK n b).ordered = h.ordered := by unfold Hart.setK; split <;> rfl
@[simp] theorem Hart.setK_owed (h : Hart) (n : Nat) (b : BitVec 2048) : (h.setK n b).owed = h.owed := by unfold Hart.setK; split <;> rfl
@[simp] theorem Hart.setK_push (h : Hart) (n : Nat) (b : BitVec 2048) : (h.setK n b).push = h.push := by unfold Hart.setK; split <;> rfl
@[simp] theorem Hart.setK_parent (h : Hart) (n : Nat) (b : BitVec 2048) : (h.setK n b).parent = h.parent := by unfold Hart.setK; split <;> rfl
@[simp] theorem Hart.setK_pinned (h : Hart) (n : Nat) (b : BitVec 2048) : (h.setK n b).pinned = h.pinned := by unfold Hart.setK; split <;> rfl
@[simp] theorem Hart.setK_prior (h : Hart) (n : Nat) (b : BitVec 2048) : (h.setK n b).prior = h.prior := by unfold Hart.setK; split <;> rfl
@[simp] theorem Hart.setK_nst (h : Hart) (n : Nat) (b : BitVec 2048) : (h.setK n b).nst = h.nst := by unfold Hart.setK; split <;> rfl
@[simp] theorem Hart.setK_ncp (h : Hart) (n : Nat) (b : BitVec 2048) : (h.setK n b).ncp = h.ncp := by unfold Hart.setK; split <;> rfl
@[simp] theorem Hart.setK_nmx (h : Hart) (n : Nat) (b : BitVec 2048) : (h.setK n b).nmx = h.nmx := by unfold Hart.setK; split <;> rfl

/-! ### Hart.setG -/

@[simp] theorem Hart.setG_x (h : Hart) (n : Nat) (w : BitVec 128) : (h.setG n w).x = h.x := by unfold Hart.setG; repeat' first | rfl | split
@[simp] theorem Hart.setG_v (h : Hart) (n : Nat) (w : BitVec 128) : (h.setG n w).v = h.v := by unfold Hart.setG; repeat' first | rfl | split
@[simp] theorem Hart.setG_k (h : Hart) (n : Nat) (w : BitVec 128) : (h.setG n w).k = h.k := by unfold Hart.setG; repeat' first | rfl | split
@[simp] theorem Hart.setG_pc (h : Hart) (n : Nat) (w : BitVec 128) : (h.setG n w).pc = h.pc := by unfold Hart.setG; repeat' first | rfl | split
@[simp] theorem Hart.setG_user (h : Hart) (n : Nat) (w : BitVec 128) : (h.setG n w).user = h.user := by unfold Hart.setG; repeat' first | rfl | split
@[simp] theorem Hart.setG_ctl (h : Hart) (n : Nat) (w : BitVec 128) : (h.setG n w).ctl = h.ctl := by unfold Hart.setG; repeat' first | rfl | split
@[simp] theorem Hart.setG_seq (h : Hart) (n : Nat) (w : BitVec 128) : (h.setG n w).seq = h.seq := by unfold Hart.setG; repeat' first | rfl | split
@[simp] theorem Hart.setG_tack (h : Hart) (n : Nat) (w : BitVec 128) : (h.setG n w).tack = h.tack := by unfold Hart.setG; repeat' first | rfl | split
@[simp] theorem Hart.setG_blk (h : Hart) (n : Nat) (w : BitVec 128) : (h.setG n w).blk = h.blk := by unfold Hart.setG; repeat' first | rfl | split
@[simp] theorem Hart.setG_space (h : Hart) (n : Nat) (w : BitVec 128) : (h.setG n w).space = h.space := by unfold Hart.setG; repeat' first | rfl | split
@[simp] theorem Hart.setG_run (h : Hart) (n : Nat) (w : BitVec 128) : (h.setG n w).run = h.run := by unfold Hart.setG; repeat' first | rfl | split
@[simp] theorem Hart.setG_works (h : Hart) (n : Nat) (w : BitVec 128) : (h.setG n w).works = h.works := by unfold Hart.setG; repeat' first | rfl | split
@[simp] theorem Hart.setG_area (h : Hart) (n : Nat) (w : BitVec 128) : (h.setG n w).area = h.area := by unfold Hart.setG; repeat' first | rfl | split
@[simp] theorem Hart.setG_loads (h : Hart) (n : Nat) (w : BitVec 128) : (h.setG n w).loads = h.loads := by unfold Hart.setG; repeat' first | rfl | split
@[simp] theorem Hart.setG_mats (h : Hart) (n : Nat) (w : BitVec 128) : (h.setG n w).mats = h.mats := by unfold Hart.setG; repeat' first | rfl | split
@[simp] theorem Hart.setG_fail (h : Hart) (n : Nat) (w : BitVec 128) : (h.setG n w).fail = h.fail := by unfold Hart.setG; repeat' first | rfl | split
@[simp] theorem Hart.setG_trap (h : Hart) (n : Nat) (w : BitVec 128) : (h.setG n w).trap = h.trap := by unfold Hart.setG; repeat' first | rfl | split
@[simp] theorem Hart.setG_age (h : Hart) (n : Nat) (w : BitVec 128) : (h.setG n w).age = h.age := by unfold Hart.setG; repeat' first | rfl | split
@[simp] theorem Hart.setG_placed (h : Hart) (n : Nat) (w : BitVec 128) : (h.setG n w).placed = h.placed := by unfold Hart.setG; repeat' first | rfl | split
@[simp] theorem Hart.setG_ordered (h : Hart) (n : Nat) (w : BitVec 128) : (h.setG n w).ordered = h.ordered := by unfold Hart.setG; repeat' first | rfl | split
@[simp] theorem Hart.setG_owed (h : Hart) (n : Nat) (w : BitVec 128) : (h.setG n w).owed = h.owed := by unfold Hart.setG; repeat' first | rfl | split
@[simp] theorem Hart.setG_push (h : Hart) (n : Nat) (w : BitVec 128) : (h.setG n w).push = h.push := by unfold Hart.setG; repeat' first | rfl | split
@[simp] theorem Hart.setG_parent (h : Hart) (n : Nat) (w : BitVec 128) : (h.setG n w).parent = h.parent := by unfold Hart.setG; repeat' first | rfl | split
@[simp] theorem Hart.setG_pinned (h : Hart) (n : Nat) (w : BitVec 128) : (h.setG n w).pinned = h.pinned := by unfold Hart.setG; repeat' first | rfl | split
@[simp] theorem Hart.setG_prior (h : Hart) (n : Nat) (w : BitVec 128) : (h.setG n w).prior = h.prior := by unfold Hart.setG; repeat' first | rfl | split
@[simp] theorem Hart.setG_nst (h : Hart) (n : Nat) (w : BitVec 128) : (h.setG n w).nst = h.nst := by unfold Hart.setG; repeat' first | rfl | split
@[simp] theorem Hart.setG_ncp (h : Hart) (n : Nat) (w : BitVec 128) : (h.setG n w).ncp = h.ncp := by unfold Hart.setG; repeat' first | rfl | split
@[simp] theorem Hart.setG_nmx (h : Hart) (n : Nat) (w : BitVec 128) : (h.setG n w).nmx = h.nmx := by unfold Hart.setG; repeat' first | rfl | split

/-! ### Hart.putElems -/

@[simp] theorem Hart.putElems_x (h : Hart) (d w : Nat) (es : List (Nat × Nat)) : (h.putElems d w es).x = h.x := by unfold Hart.putElems; simp
@[simp] theorem Hart.putElems_k (h : Hart) (d w : Nat) (es : List (Nat × Nat)) : (h.putElems d w es).k = h.k := by unfold Hart.putElems; simp
@[simp] theorem Hart.putElems_g (h : Hart) (d w : Nat) (es : List (Nat × Nat)) : (h.putElems d w es).g = h.g := by unfold Hart.putElems; simp
@[simp] theorem Hart.putElems_sg0 (h : Hart) (d w : Nat) (es : List (Nat × Nat)) : (h.putElems d w es).sg0 = h.sg0 := by unfold Hart.putElems; simp
@[simp] theorem Hart.putElems_sg1 (h : Hart) (d w : Nat) (es : List (Nat × Nat)) : (h.putElems d w es).sg1 = h.sg1 := by unfold Hart.putElems; simp
@[simp] theorem Hart.putElems_pc (h : Hart) (d w : Nat) (es : List (Nat × Nat)) : (h.putElems d w es).pc = h.pc := by unfold Hart.putElems; simp
@[simp] theorem Hart.putElems_user (h : Hart) (d w : Nat) (es : List (Nat × Nat)) : (h.putElems d w es).user = h.user := by unfold Hart.putElems; simp
@[simp] theorem Hart.putElems_ctl (h : Hart) (d w : Nat) (es : List (Nat × Nat)) : (h.putElems d w es).ctl = h.ctl := by unfold Hart.putElems; simp
@[simp] theorem Hart.putElems_seq (h : Hart) (d w : Nat) (es : List (Nat × Nat)) : (h.putElems d w es).seq = h.seq := by unfold Hart.putElems; simp
@[simp] theorem Hart.putElems_tack (h : Hart) (d w : Nat) (es : List (Nat × Nat)) : (h.putElems d w es).tack = h.tack := by unfold Hart.putElems; simp
@[simp] theorem Hart.putElems_blk (h : Hart) (d w : Nat) (es : List (Nat × Nat)) : (h.putElems d w es).blk = h.blk := by unfold Hart.putElems; simp
@[simp] theorem Hart.putElems_space (h : Hart) (d w : Nat) (es : List (Nat × Nat)) : (h.putElems d w es).space = h.space := by unfold Hart.putElems; simp
@[simp] theorem Hart.putElems_run (h : Hart) (d w : Nat) (es : List (Nat × Nat)) : (h.putElems d w es).run = h.run := by unfold Hart.putElems; simp
@[simp] theorem Hart.putElems_works (h : Hart) (d w : Nat) (es : List (Nat × Nat)) : (h.putElems d w es).works = h.works := by unfold Hart.putElems; simp
@[simp] theorem Hart.putElems_area (h : Hart) (d w : Nat) (es : List (Nat × Nat)) : (h.putElems d w es).area = h.area := by unfold Hart.putElems; simp
@[simp] theorem Hart.putElems_loads (h : Hart) (d w : Nat) (es : List (Nat × Nat)) : (h.putElems d w es).loads = h.loads := by unfold Hart.putElems; simp
@[simp] theorem Hart.putElems_mats (h : Hart) (d w : Nat) (es : List (Nat × Nat)) : (h.putElems d w es).mats = h.mats := by unfold Hart.putElems; simp
@[simp] theorem Hart.putElems_fail (h : Hart) (d w : Nat) (es : List (Nat × Nat)) : (h.putElems d w es).fail = h.fail := by unfold Hart.putElems; simp
@[simp] theorem Hart.putElems_trap (h : Hart) (d w : Nat) (es : List (Nat × Nat)) : (h.putElems d w es).trap = h.trap := by unfold Hart.putElems; simp
@[simp] theorem Hart.putElems_age (h : Hart) (d w : Nat) (es : List (Nat × Nat)) : (h.putElems d w es).age = h.age := by unfold Hart.putElems; simp
@[simp] theorem Hart.putElems_placed (h : Hart) (d w : Nat) (es : List (Nat × Nat)) : (h.putElems d w es).placed = h.placed := by unfold Hart.putElems; simp
@[simp] theorem Hart.putElems_ordered (h : Hart) (d w : Nat) (es : List (Nat × Nat)) : (h.putElems d w es).ordered = h.ordered := by unfold Hart.putElems; simp
@[simp] theorem Hart.putElems_owed (h : Hart) (d w : Nat) (es : List (Nat × Nat)) : (h.putElems d w es).owed = h.owed := by unfold Hart.putElems; simp
@[simp] theorem Hart.putElems_push (h : Hart) (d w : Nat) (es : List (Nat × Nat)) : (h.putElems d w es).push = h.push := by unfold Hart.putElems; simp
@[simp] theorem Hart.putElems_parent (h : Hart) (d w : Nat) (es : List (Nat × Nat)) : (h.putElems d w es).parent = h.parent := by unfold Hart.putElems; simp
@[simp] theorem Hart.putElems_pinned (h : Hart) (d w : Nat) (es : List (Nat × Nat)) : (h.putElems d w es).pinned = h.pinned := by unfold Hart.putElems; simp
@[simp] theorem Hart.putElems_prior (h : Hart) (d w : Nat) (es : List (Nat × Nat)) : (h.putElems d w es).prior = h.prior := by unfold Hart.putElems; simp
@[simp] theorem Hart.putElems_nst (h : Hart) (d w : Nat) (es : List (Nat × Nat)) : (h.putElems d w es).nst = h.nst := by unfold Hart.putElems; simp
@[simp] theorem Hart.putElems_ncp (h : Hart) (d w : Nat) (es : List (Nat × Nat)) : (h.putElems d w es).ncp = h.ncp := by unfold Hart.putElems; simp
@[simp] theorem Hart.putElems_nmx (h : Hart) (d w : Nat) (es : List (Nat × Nat)) : (h.putElems d w es).nmx = h.nmx := by unfold Hart.putElems; simp

/-! ### Hart.trimV -/

@[simp] theorem Hart.trimV_x (h : Hart) (n d w : Nat) (b : Bool) : (h.trimV n d w b).x = h.x := by unfold Hart.trimV; split <;> simp
@[simp] theorem Hart.trimV_k (h : Hart) (n d w : Nat) (b : Bool) : (h.trimV n d w b).k = h.k := by unfold Hart.trimV; split <;> simp
@[simp] theorem Hart.trimV_g (h : Hart) (n d w : Nat) (b : Bool) : (h.trimV n d w b).g = h.g := by unfold Hart.trimV; split <;> simp
@[simp] theorem Hart.trimV_sg0 (h : Hart) (n d w : Nat) (b : Bool) : (h.trimV n d w b).sg0 = h.sg0 := by unfold Hart.trimV; split <;> simp
@[simp] theorem Hart.trimV_sg1 (h : Hart) (n d w : Nat) (b : Bool) : (h.trimV n d w b).sg1 = h.sg1 := by unfold Hart.trimV; split <;> simp
@[simp] theorem Hart.trimV_pc (h : Hart) (n d w : Nat) (b : Bool) : (h.trimV n d w b).pc = h.pc := by unfold Hart.trimV; split <;> simp
@[simp] theorem Hart.trimV_user (h : Hart) (n d w : Nat) (b : Bool) : (h.trimV n d w b).user = h.user := by unfold Hart.trimV; split <;> simp
@[simp] theorem Hart.trimV_ctl (h : Hart) (n d w : Nat) (b : Bool) : (h.trimV n d w b).ctl = h.ctl := by unfold Hart.trimV; split <;> simp
@[simp] theorem Hart.trimV_seq (h : Hart) (n d w : Nat) (b : Bool) : (h.trimV n d w b).seq = h.seq := by unfold Hart.trimV; split <;> simp
@[simp] theorem Hart.trimV_tack (h : Hart) (n d w : Nat) (b : Bool) : (h.trimV n d w b).tack = h.tack := by unfold Hart.trimV; split <;> simp
@[simp] theorem Hart.trimV_blk (h : Hart) (n d w : Nat) (b : Bool) : (h.trimV n d w b).blk = h.blk := by unfold Hart.trimV; split <;> simp
@[simp] theorem Hart.trimV_space (h : Hart) (n d w : Nat) (b : Bool) : (h.trimV n d w b).space = h.space := by unfold Hart.trimV; split <;> simp
@[simp] theorem Hart.trimV_run (h : Hart) (n d w : Nat) (b : Bool) : (h.trimV n d w b).run = h.run := by unfold Hart.trimV; split <;> simp
@[simp] theorem Hart.trimV_works (h : Hart) (n d w : Nat) (b : Bool) : (h.trimV n d w b).works = h.works := by unfold Hart.trimV; split <;> simp
@[simp] theorem Hart.trimV_area (h : Hart) (n d w : Nat) (b : Bool) : (h.trimV n d w b).area = h.area := by unfold Hart.trimV; split <;> simp
@[simp] theorem Hart.trimV_loads (h : Hart) (n d w : Nat) (b : Bool) : (h.trimV n d w b).loads = h.loads := by unfold Hart.trimV; split <;> simp
@[simp] theorem Hart.trimV_mats (h : Hart) (n d w : Nat) (b : Bool) : (h.trimV n d w b).mats = h.mats := by unfold Hart.trimV; split <;> simp
@[simp] theorem Hart.trimV_fail (h : Hart) (n d w : Nat) (b : Bool) : (h.trimV n d w b).fail = h.fail := by unfold Hart.trimV; split <;> simp
@[simp] theorem Hart.trimV_trap (h : Hart) (n d w : Nat) (b : Bool) : (h.trimV n d w b).trap = h.trap := by unfold Hart.trimV; split <;> simp
@[simp] theorem Hart.trimV_age (h : Hart) (n d w : Nat) (b : Bool) : (h.trimV n d w b).age = h.age := by unfold Hart.trimV; split <;> simp
@[simp] theorem Hart.trimV_placed (h : Hart) (n d w : Nat) (b : Bool) : (h.trimV n d w b).placed = h.placed := by unfold Hart.trimV; split <;> simp
@[simp] theorem Hart.trimV_ordered (h : Hart) (n d w : Nat) (b : Bool) : (h.trimV n d w b).ordered = h.ordered := by unfold Hart.trimV; split <;> simp
@[simp] theorem Hart.trimV_owed (h : Hart) (n d w : Nat) (b : Bool) : (h.trimV n d w b).owed = h.owed := by unfold Hart.trimV; split <;> simp
@[simp] theorem Hart.trimV_push (h : Hart) (n d w : Nat) (b : Bool) : (h.trimV n d w b).push = h.push := by unfold Hart.trimV; split <;> simp
@[simp] theorem Hart.trimV_parent (h : Hart) (n d w : Nat) (b : Bool) : (h.trimV n d w b).parent = h.parent := by unfold Hart.trimV; split <;> simp
@[simp] theorem Hart.trimV_pinned (h : Hart) (n d w : Nat) (b : Bool) : (h.trimV n d w b).pinned = h.pinned := by unfold Hart.trimV; split <;> simp
@[simp] theorem Hart.trimV_prior (h : Hart) (n d w : Nat) (b : Bool) : (h.trimV n d w b).prior = h.prior := by unfold Hart.trimV; split <;> simp
@[simp] theorem Hart.trimV_nst (h : Hart) (n d w : Nat) (b : Bool) : (h.trimV n d w b).nst = h.nst := by unfold Hart.trimV; split <;> simp
@[simp] theorem Hart.trimV_ncp (h : Hart) (n d w : Nat) (b : Bool) : (h.trimV n d w b).ncp = h.ncp := by unfold Hart.trimV; split <;> simp
@[simp] theorem Hart.trimV_nmx (h : Hart) (n d w : Nat) (b : Bool) : (h.trimV n d w b).nmx = h.nmx := by unfold Hart.trimV; split <;> simp

/-! ### Hart.enterTrap -/

@[simp] theorem Hart.enterTrap_x (h : Hart) (t : FRec) (recPc : Word) : (h.enterTrap t recPc).x = h.x := rfl
@[simp] theorem Hart.enterTrap_v (h : Hart) (t : FRec) (recPc : Word) : (h.enterTrap t recPc).v = h.v := rfl
@[simp] theorem Hart.enterTrap_k (h : Hart) (t : FRec) (recPc : Word) : (h.enterTrap t recPc).k = h.k := rfl
@[simp] theorem Hart.enterTrap_g (h : Hart) (t : FRec) (recPc : Word) : (h.enterTrap t recPc).g = h.g := rfl
@[simp] theorem Hart.enterTrap_sg0 (h : Hart) (t : FRec) (recPc : Word) : (h.enterTrap t recPc).sg0 = h.sg0 := rfl
@[simp] theorem Hart.enterTrap_sg1 (h : Hart) (t : FRec) (recPc : Word) : (h.enterTrap t recPc).sg1 = h.sg1 := rfl
@[simp] theorem Hart.enterTrap_pc (h : Hart) (t : FRec) (recPc : Word) : (h.enterTrap t recPc).pc = h.ctl.tvec := rfl
@[simp] theorem Hart.enterTrap_user (h : Hart) (t : FRec) (recPc : Word) : (h.enterTrap t recPc).user = false := rfl
@[simp] theorem Hart.enterTrap_ctl (h : Hart) (t : FRec) (recPc : Word) : (h.enterTrap t recPc).ctl = { h.ctl with tcause := BitVec.ofNat 64 t.cause, tepc := h.pc, tval := trapValue t, tstat := if h.user then 0 else 1 } := rfl
@[simp] theorem Hart.enterTrap_seq (h : Hart) (t : FRec) (recPc : Word) : (h.enterTrap t recPc).seq = h.seq := rfl
@[simp] theorem Hart.enterTrap_tack (h : Hart) (t : FRec) (recPc : Word) : (h.enterTrap t recPc).tack = h.tack := rfl
@[simp] theorem Hart.enterTrap_blk (h : Hart) (t : FRec) (recPc : Word) : (h.enterTrap t recPc).blk = h.blk := rfl
@[simp] theorem Hart.enterTrap_space (h : Hart) (t : FRec) (recPc : Word) : (h.enterTrap t recPc).space = h.space := rfl
@[simp] theorem Hart.enterTrap_run (h : Hart) (t : FRec) (recPc : Word) : (h.enterTrap t recPc).run = .running := rfl
@[simp] theorem Hart.enterTrap_works (h : Hart) (t : FRec) (recPc : Word) : (h.enterTrap t recPc).works = h.works := rfl
@[simp] theorem Hart.enterTrap_area (h : Hart) (t : FRec) (recPc : Word) : (h.enterTrap t recPc).area = h.area := rfl
@[simp] theorem Hart.enterTrap_loads (h : Hart) (t : FRec) (recPc : Word) : (h.enterTrap t recPc).loads = h.loads := rfl
@[simp] theorem Hart.enterTrap_mats (h : Hart) (t : FRec) (recPc : Word) : (h.enterTrap t recPc).mats = h.mats := rfl
@[simp] theorem Hart.enterTrap_fail (h : Hart) (t : FRec) (recPc : Word) : (h.enterTrap t recPc).fail = h.fail := rfl
@[simp] theorem Hart.enterTrap_trap (h : Hart) (t : FRec) (recPc : Word) : (h.enterTrap t recPc).trap = some { frec := t, recPc := recPc, pc := h.pc, nested := !h.user, retry := t.cause = 0x0C || (t.cause = 0x13 && h.fail.any (·.resolved)) } := rfl
@[simp] theorem Hart.enterTrap_age (h : Hart) (t : FRec) (recPc : Word) : (h.enterTrap t recPc).age = h.age := rfl
@[simp] theorem Hart.enterTrap_placed (h : Hart) (t : FRec) (recPc : Word) : (h.enterTrap t recPc).placed = none := rfl
@[simp] theorem Hart.enterTrap_ordered (h : Hart) (t : FRec) (recPc : Word) : (h.enterTrap t recPc).ordered = h.ordered := rfl
@[simp] theorem Hart.enterTrap_owed (h : Hart) (t : FRec) (recPc : Word) : (h.enterTrap t recPc).owed = h.owed := rfl
@[simp] theorem Hart.enterTrap_push (h : Hart) (t : FRec) (recPc : Word) : (h.enterTrap t recPc).push = h.push := rfl
@[simp] theorem Hart.enterTrap_parent (h : Hart) (t : FRec) (recPc : Word) : (h.enterTrap t recPc).parent = h.parent := rfl
@[simp] theorem Hart.enterTrap_pinned (h : Hart) (t : FRec) (recPc : Word) : (h.enterTrap t recPc).pinned = none := rfl
@[simp] theorem Hart.enterTrap_prior (h : Hart) (t : FRec) (recPc : Word) : (h.enterTrap t recPc).prior = none := rfl
@[simp] theorem Hart.enterTrap_nst (h : Hart) (t : FRec) (recPc : Word) : (h.enterTrap t recPc).nst = h.nst := rfl
@[simp] theorem Hart.enterTrap_ncp (h : Hart) (t : FRec) (recPc : Word) : (h.enterTrap t recPc).ncp = h.ncp := rfl
@[simp] theorem Hart.enterTrap_nmx (h : Hart) (t : FRec) (recPc : Word) : (h.enterTrap t recPc).nmx = h.nmx := rfl

/-! ### Hart.pin -/

@[simp] theorem Hart.pin_x (h : Hart) (b : Bool) : (h.pin b).x = h.x := by unfold Hart.pin; split <;> rfl
@[simp] theorem Hart.pin_v (h : Hart) (b : Bool) : (h.pin b).v = h.v := by unfold Hart.pin; split <;> rfl
@[simp] theorem Hart.pin_k (h : Hart) (b : Bool) : (h.pin b).k = h.k := by unfold Hart.pin; split <;> rfl
@[simp] theorem Hart.pin_g (h : Hart) (b : Bool) : (h.pin b).g = h.g := by unfold Hart.pin; split <;> rfl
@[simp] theorem Hart.pin_sg0 (h : Hart) (b : Bool) : (h.pin b).sg0 = h.sg0 := by unfold Hart.pin; split <;> rfl
@[simp] theorem Hart.pin_sg1 (h : Hart) (b : Bool) : (h.pin b).sg1 = h.sg1 := by unfold Hart.pin; split <;> rfl
@[simp] theorem Hart.pin_pc (h : Hart) (b : Bool) : (h.pin b).pc = h.pc := by unfold Hart.pin; split <;> rfl
@[simp] theorem Hart.pin_user (h : Hart) (b : Bool) : (h.pin b).user = h.user := by unfold Hart.pin; split <;> rfl
@[simp] theorem Hart.pin_ctl (h : Hart) (b : Bool) : (h.pin b).ctl = h.ctl := by unfold Hart.pin; split <;> rfl
@[simp] theorem Hart.pin_seq (h : Hart) (b : Bool) : (h.pin b).seq = h.seq := by unfold Hart.pin; split <;> rfl
@[simp] theorem Hart.pin_tack (h : Hart) (b : Bool) : (h.pin b).tack = h.tack := by unfold Hart.pin; split <;> rfl
@[simp] theorem Hart.pin_blk (h : Hart) (b : Bool) : (h.pin b).blk = h.blk := by unfold Hart.pin; split <;> rfl
@[simp] theorem Hart.pin_space (h : Hart) (b : Bool) : (h.pin b).space = h.space := by unfold Hart.pin; split <;> rfl
@[simp] theorem Hart.pin_run (h : Hart) (b : Bool) : (h.pin b).run = h.run := by unfold Hart.pin; split <;> rfl
@[simp] theorem Hart.pin_works (h : Hart) (b : Bool) : (h.pin b).works = h.works := by unfold Hart.pin; split <;> rfl
@[simp] theorem Hart.pin_area (h : Hart) (b : Bool) : (h.pin b).area = h.area := by unfold Hart.pin; split <;> rfl
@[simp] theorem Hart.pin_loads (h : Hart) (b : Bool) : (h.pin b).loads = h.loads := by unfold Hart.pin; split <;> rfl
@[simp] theorem Hart.pin_mats (h : Hart) (b : Bool) : (h.pin b).mats = h.mats := by unfold Hart.pin; split <;> rfl
@[simp] theorem Hart.pin_fail (h : Hart) (b : Bool) : (h.pin b).fail = h.fail := by unfold Hart.pin; split <;> rfl
@[simp] theorem Hart.pin_trap (h : Hart) (b : Bool) : (h.pin b).trap = h.trap := by unfold Hart.pin; split <;> rfl
@[simp] theorem Hart.pin_age (h : Hart) (b : Bool) : (h.pin b).age = h.age := by unfold Hart.pin; split <;> rfl
@[simp] theorem Hart.pin_placed (h : Hart) (b : Bool) : (h.pin b).placed = h.placed := by unfold Hart.pin; split <;> rfl
@[simp] theorem Hart.pin_ordered (h : Hart) (b : Bool) : (h.pin b).ordered = h.ordered := by unfold Hart.pin; split <;> rfl
@[simp] theorem Hart.pin_owed (h : Hart) (b : Bool) : (h.pin b).owed = h.owed := by unfold Hart.pin; split <;> rfl
@[simp] theorem Hart.pin_push (h : Hart) (b : Bool) : (h.pin b).push = h.push := by unfold Hart.pin; split <;> rfl
@[simp] theorem Hart.pin_parent (h : Hart) (b : Bool) : (h.pin b).parent = h.parent := by unfold Hart.pin; split <;> rfl
@[simp] theorem Hart.pin_pinned (h : Hart) (b : Bool) : (h.pin b).pinned = if b then some h.seq else h.pinned := by unfold Hart.pin; split <;> rfl
@[simp] theorem Hart.pin_prior (h : Hart) (b : Bool) : (h.pin b).prior = h.prior := by unfold Hart.pin; split <;> rfl
@[simp] theorem Hart.pin_nst (h : Hart) (b : Bool) : (h.pin b).nst = h.nst := by unfold Hart.pin; split <;> rfl
@[simp] theorem Hart.pin_ncp (h : Hart) (b : Bool) : (h.pin b).ncp = h.ncp := by unfold Hart.pin; split <;> rfl
@[simp] theorem Hart.pin_nmx (h : Hart) (b : Bool) : (h.pin b).nmx = h.nmx := by unfold Hart.pin; split <;> rfl

/-! ### Hart.keepPrior -/

@[simp] theorem Hart.keepPrior_x (h : Hart) (p : RegPrior) : (h.keepPrior p).x = h.x := by unfold Hart.keepPrior; split <;> rfl
@[simp] theorem Hart.keepPrior_v (h : Hart) (p : RegPrior) : (h.keepPrior p).v = h.v := by unfold Hart.keepPrior; split <;> rfl
@[simp] theorem Hart.keepPrior_k (h : Hart) (p : RegPrior) : (h.keepPrior p).k = h.k := by unfold Hart.keepPrior; split <;> rfl
@[simp] theorem Hart.keepPrior_g (h : Hart) (p : RegPrior) : (h.keepPrior p).g = h.g := by unfold Hart.keepPrior; split <;> rfl
@[simp] theorem Hart.keepPrior_sg0 (h : Hart) (p : RegPrior) : (h.keepPrior p).sg0 = h.sg0 := by unfold Hart.keepPrior; split <;> rfl
@[simp] theorem Hart.keepPrior_sg1 (h : Hart) (p : RegPrior) : (h.keepPrior p).sg1 = h.sg1 := by unfold Hart.keepPrior; split <;> rfl
@[simp] theorem Hart.keepPrior_pc (h : Hart) (p : RegPrior) : (h.keepPrior p).pc = h.pc := by unfold Hart.keepPrior; split <;> rfl
@[simp] theorem Hart.keepPrior_user (h : Hart) (p : RegPrior) : (h.keepPrior p).user = h.user := by unfold Hart.keepPrior; split <;> rfl
@[simp] theorem Hart.keepPrior_ctl (h : Hart) (p : RegPrior) : (h.keepPrior p).ctl = h.ctl := by unfold Hart.keepPrior; split <;> rfl
@[simp] theorem Hart.keepPrior_seq (h : Hart) (p : RegPrior) : (h.keepPrior p).seq = h.seq := by unfold Hart.keepPrior; split <;> rfl
@[simp] theorem Hart.keepPrior_tack (h : Hart) (p : RegPrior) : (h.keepPrior p).tack = h.tack := by unfold Hart.keepPrior; split <;> rfl
@[simp] theorem Hart.keepPrior_blk (h : Hart) (p : RegPrior) : (h.keepPrior p).blk = h.blk := by unfold Hart.keepPrior; split <;> rfl
@[simp] theorem Hart.keepPrior_space (h : Hart) (p : RegPrior) : (h.keepPrior p).space = h.space := by unfold Hart.keepPrior; split <;> rfl
@[simp] theorem Hart.keepPrior_run (h : Hart) (p : RegPrior) : (h.keepPrior p).run = h.run := by unfold Hart.keepPrior; split <;> rfl
@[simp] theorem Hart.keepPrior_works (h : Hart) (p : RegPrior) : (h.keepPrior p).works = h.works := by unfold Hart.keepPrior; split <;> rfl
@[simp] theorem Hart.keepPrior_area (h : Hart) (p : RegPrior) : (h.keepPrior p).area = h.area := by unfold Hart.keepPrior; split <;> rfl
@[simp] theorem Hart.keepPrior_loads (h : Hart) (p : RegPrior) : (h.keepPrior p).loads = h.loads := by unfold Hart.keepPrior; split <;> rfl
@[simp] theorem Hart.keepPrior_mats (h : Hart) (p : RegPrior) : (h.keepPrior p).mats = h.mats := by unfold Hart.keepPrior; split <;> rfl
@[simp] theorem Hart.keepPrior_fail (h : Hart) (p : RegPrior) : (h.keepPrior p).fail = h.fail := by unfold Hart.keepPrior; split <;> rfl
@[simp] theorem Hart.keepPrior_trap (h : Hart) (p : RegPrior) : (h.keepPrior p).trap = h.trap := by unfold Hart.keepPrior; split <;> rfl
@[simp] theorem Hart.keepPrior_age (h : Hart) (p : RegPrior) : (h.keepPrior p).age = h.age := by unfold Hart.keepPrior; split <;> rfl
@[simp] theorem Hart.keepPrior_placed (h : Hart) (p : RegPrior) : (h.keepPrior p).placed = h.placed := by unfold Hart.keepPrior; split <;> rfl
@[simp] theorem Hart.keepPrior_ordered (h : Hart) (p : RegPrior) : (h.keepPrior p).ordered = h.ordered := by unfold Hart.keepPrior; split <;> rfl
@[simp] theorem Hart.keepPrior_owed (h : Hart) (p : RegPrior) : (h.keepPrior p).owed = h.owed := by unfold Hart.keepPrior; split <;> rfl
@[simp] theorem Hart.keepPrior_push (h : Hart) (p : RegPrior) : (h.keepPrior p).push = h.push := by unfold Hart.keepPrior; split <;> rfl
@[simp] theorem Hart.keepPrior_parent (h : Hart) (p : RegPrior) : (h.keepPrior p).parent = h.parent := by unfold Hart.keepPrior; split <;> rfl
@[simp] theorem Hart.keepPrior_pinned (h : Hart) (p : RegPrior) : (h.keepPrior p).pinned = h.pinned := by unfold Hart.keepPrior; split <;> rfl
@[simp] theorem Hart.keepPrior_prior (h : Hart) (p : RegPrior) : (h.keepPrior p).prior = if h.prior.any (fun q => q.seq = h.seq) then h.prior else some { seq := h.seq, reg := p, vstart := h.ctl.vstart } := by unfold Hart.keepPrior; split <;> rfl
@[simp] theorem Hart.keepPrior_nst (h : Hart) (p : RegPrior) : (h.keepPrior p).nst = h.nst := by unfold Hart.keepPrior; split <;> rfl
@[simp] theorem Hart.keepPrior_ncp (h : Hart) (p : RegPrior) : (h.keepPrior p).ncp = h.ncp := by unfold Hart.keepPrior; split <;> rfl
@[simp] theorem Hart.keepPrior_nmx (h : Hart) (p : RegPrior) : (h.keepPrior p).nmx = h.nmx := by unfold Hart.keepPrior; split <;> rfl

/-! ### Hart.leaveTrap -/

@[simp] theorem Hart.leaveTrap_x (h : Hart)  : (h.leaveTrap).x = h.x := rfl
@[simp] theorem Hart.leaveTrap_v (h : Hart)  : (h.leaveTrap).v = h.v := rfl
@[simp] theorem Hart.leaveTrap_k (h : Hart)  : (h.leaveTrap).k = h.k := rfl
@[simp] theorem Hart.leaveTrap_g (h : Hart)  : (h.leaveTrap).g = h.g := rfl
@[simp] theorem Hart.leaveTrap_sg0 (h : Hart)  : (h.leaveTrap).sg0 = h.sg0 := rfl
@[simp] theorem Hart.leaveTrap_sg1 (h : Hart)  : (h.leaveTrap).sg1 = h.sg1 := rfl
@[simp] theorem Hart.leaveTrap_pc (h : Hart)  : (h.leaveTrap).pc = h.ctl.tepc := rfl
@[simp] theorem Hart.leaveTrap_user (h : Hart)  : (h.leaveTrap).user = decide (h.ctl.tstat.toNat % 2 = 0) := rfl
@[simp] theorem Hart.leaveTrap_ctl (h : Hart)  : (h.leaveTrap).ctl = h.ctl := rfl
@[simp] theorem Hart.leaveTrap_seq (h : Hart)  : (h.leaveTrap).seq = h.seq := rfl
@[simp] theorem Hart.leaveTrap_tack (h : Hart)  : (h.leaveTrap).tack = h.tack := rfl
@[simp] theorem Hart.leaveTrap_blk (h : Hart)  : (h.leaveTrap).blk = h.blk := rfl
@[simp] theorem Hart.leaveTrap_space (h : Hart)  : (h.leaveTrap).space = h.space := rfl
@[simp] theorem Hart.leaveTrap_run (h : Hart)  : (h.leaveTrap).run = .running := rfl
@[simp] theorem Hart.leaveTrap_works (h : Hart)  : (h.leaveTrap).works = h.works := rfl
@[simp] theorem Hart.leaveTrap_area (h : Hart)  : (h.leaveTrap).area = h.area := rfl
@[simp] theorem Hart.leaveTrap_loads (h : Hart)  : (h.leaveTrap).loads = h.loads := rfl
@[simp] theorem Hart.leaveTrap_mats (h : Hart)  : (h.leaveTrap).mats = h.mats := rfl
@[simp] theorem Hart.leaveTrap_fail (h : Hart)  : (h.leaveTrap).fail = h.fail := rfl
@[simp] theorem Hart.leaveTrap_trap (h : Hart)  : (h.leaveTrap).trap = none := rfl
@[simp] theorem Hart.leaveTrap_age (h : Hart)  : (h.leaveTrap).age = h.age := rfl
@[simp] theorem Hart.leaveTrap_placed (h : Hart)  : (h.leaveTrap).placed = h.placed := rfl
@[simp] theorem Hart.leaveTrap_ordered (h : Hart)  : (h.leaveTrap).ordered = h.ordered := rfl
@[simp] theorem Hart.leaveTrap_owed (h : Hart)  : (h.leaveTrap).owed = h.owed := rfl
@[simp] theorem Hart.leaveTrap_push (h : Hart)  : (h.leaveTrap).push = h.push := rfl
@[simp] theorem Hart.leaveTrap_parent (h : Hart)  : (h.leaveTrap).parent = h.parent := rfl
@[simp] theorem Hart.leaveTrap_pinned (h : Hart)  : (h.leaveTrap).pinned = h.pinned := rfl
@[simp] theorem Hart.leaveTrap_prior (h : Hart)  : (h.leaveTrap).prior = h.prior := rfl
@[simp] theorem Hart.leaveTrap_nst (h : Hart)  : (h.leaveTrap).nst = h.nst := rfl
@[simp] theorem Hart.leaveTrap_ncp (h : Hart)  : (h.leaveTrap).ncp = h.ncp := rfl
@[simp] theorem Hart.leaveTrap_nmx (h : Hart)  : (h.leaveTrap).nmx = h.nmx := rfl

end Sys2Proof.Machine
end

