-- ==== Sys2Proof/Laws/Cache.lean ====
section
/-! SUPPORT. What the caches' shared operations can do, said once (spec 03 R43 to R48, R57; 11 R203). -/

namespace Sys2Proof.Machine

/-! ## Frames: an operation on contents keeps the place (03 R44) -/

@[simp] theorem Frame.trim_space (f : Frame) : f.trim.space = f.space := rfl
@[simp] theorem Frame.trim_base (f : Frame) : f.trim.base = f.base := rfl
@[simp] theorem Frame.trim_tclass (f : Frame) : f.trim.tclass = f.tclass := rfl
@[simp] theorem Frame.trim_way (f : Frame) : f.trim.way = f.way := rfl

theorem upto_length (n : Nat) : (upto n).length = n := by
  simp [upto]

@[simp] theorem Frame.trim_rows_length (f : Frame) : f.trim.rows.length = f.rows.length := by
  simp [Frame.trim, upto_length]

@[simp] theorem Frame.clean_rows_length (f : Frame) : f.clean.rows.length = f.rows.length := by
  simp [Frame.clean]

@[simp] theorem Frame.dropClean_rows_length (f : Frame) : f.dropClean.rows.length = f.rows.length := by
  simp [Frame.dropClean]

@[simp] theorem Frame.setRow_rows_length (f : Frame) (i : Nat) (r : Row) : (f.setRow i r).rows.length = f.rows.length := by
  simp [Frame.setRow]

/-! ## The home slices: their own bookkeeping touches nothing else (03 R57) -/

/-- A machine that differs in what the home slices hold, and in the free choices spent, alone. -/
def State.homeOnly (s t : State) : Prop := ∃ l n, t = { s with home := l, free := n }

theorem State.homeOnly_refl (s : State) : s.homeOnly s := ⟨s.home, s.free, rfl⟩

theorem State.homeOnly_trans {s t u : State} (a : s.homeOnly t) (b : t.homeOnly u) : s.homeOnly u := by
  obtain ⟨l, n, rfl⟩ := a
  obtain ⟨k, m, rfl⟩ := b
  exact ⟨k, m, rfl⟩

theorem State.dropHome_only (s : State) (pa n : Nat) : s.homeOnly (s.dropHome pa n) := ⟨_, _, rfl⟩

theorem State.homeRoom_only (slice n : Nat) : ∀ (fuel : Nat) (s : State), s.homeOnly (State.homeRoom slice n fuel s)
  | 0, s => s.homeOnly_refl
  | fuel + 1, s => by
    unfold State.homeRoom
    split
    · exact s.homeOnly_refl
    · dsimp only
      split
      · exact State.homeOnly_trans ⟨_, _, rfl⟩ (State.homeRoom_only slice n fuel _)
      · exact ⟨_, _, rfl⟩

theorem State.mapHome_only (s : State) (g : HomeFrame) (f : HomeFrame → HomeFrame) : s.homeOnly (s.mapHome g f) :=
  ⟨_, _, rfl⟩

theorem State.claimHome_only (s : State) (k : BitVec 2) (t : TClass) (pa : Nat) (f : HomeFrame → HomeFrame) :
    s.homeOnly (s.claimHome k t pa f) :=
  State.homeOnly_trans (State.homeOnly_trans (s.dropHome_only _ _) (State.homeRoom_only _ _ _ _)) ⟨_, _, rfl⟩

theorem State.onHome_only (s : State) (pa : Nat) (f : HomeFrame → HomeFrame) : s.homeOnly (s.onHome pa f) := by
  unfold State.onHome
  split
  · exact s.mapHome_only _ _
  · exact s.claimHome_only _ _ _ _

theorem State.onHomeOf_only (s : State) (p : BitVec 2 × TClass) (pa : Nat) (f : HomeFrame → HomeFrame) :
    s.homeOnly (s.onHomeOf p pa f) := by
  unfold State.onHomeOf
  dsimp only
  split
  · exact s.mapHome_only _ _
  · exact s.claimHome_only _ _ _ _

theorem State.touchHome_only (s : State) (pa mask : Nat) : s.homeOnly (s.touchHome pa mask) := by
  unfold State.touchHome
  split
  · exact s.onHome_only _ _
  · exact s.homeOnly_refl

theorem State.touchHomeOf_only (s : State) (p : BitVec 2 × TClass) (pa mask : Nat) :
    s.homeOnly (s.touchHomeOf p pa mask) := by
  unfold State.touchHomeOf
  split
  · exact s.onHomeOf_only _ _ _
  · exact s.homeOnly_refl

theorem State.readHome_only (s : State) (l : Leaf) (cell : Nat) (col : Bool) : s.homeOnly (s.readHome l cell col) := by
  unfold State.readHome
  dsimp only
  split
  · exact s.onHomeOf_only _ _ _
  · exact s.homeOnly_refl

theorem State.touchLines_only (pa : Nat) : ∀ (n : Nat) (s : State), s.homeOnly (s.touchLines pa n)
  | 0, s => s.homeOnly_refl
  | n + 1, s => State.homeOnly_trans (s.touchHome_only _ _) (State.touchLines_only pa n _)

/-- A write at the home slices writes device memory, and touches nothing but the slices' bookkeeping beside it. -/
theorem State.homeWrite_only (s : State) (pa : Nat) (b : List Byte) : (s.writePA pa b).homeOnly (s.homeWrite pa b) :=
  State.touchLines_only _ _ _

/-! ## Entries that drain together (05 R98, R99; 06 R121) -/

theorem spanOf_grows (es : List SbEntry) : ∀ (n : Nat) (r : Nat × Nat), (spanOf es n r).1 ≤ r.1 ∧ r.2 ≤ (spanOf es n r).2
  | 0, _ => ⟨le_rfl, le_rfl⟩
  | n + 1, r => by
    have step : ∀ (l : List SbEntry) (r : Nat × Nat),
        let q := l.foldl (fun r q => if q.reaches r then (min r.1 q.efirst, max r.2 q.elast) else r) r
        q.1 ≤ r.1 ∧ r.2 ≤ q.2 := by
      intro l
      induction l with
      | nil => exact fun _ => ⟨le_rfl, le_rfl⟩
      | cons e l ih =>
        intro r
        refine ⟨(ih _).1.trans ?_, le_trans ?_ (ih _).2⟩ <;> dsimp only <;> split <;> simp
    exact ⟨(spanOf_grows es n _).1.trans (step es r).1, (step es r).2.trans (spanOf_grows es n _).2⟩

/-- An entry of a store that is not ordered drains alone. -/
@[simp] theorem Core.drainGroup_plain (c : Core) {e : SbEntry} (h : e.ord = false) : c.drainGroup e = [e] := by
  simp [Core.drainGroup, h]

/-- The entries that drain with an entry are itself and others of its ordered store. -/
theorem Core.mem_drainGroup {c : Core} {e q : SbEntry} (h : q ∈ c.drainGroup e) :
    q = e ∨ (q ∈ c.sb ∧ e.sameOrdered q = true ∧ q.idx ≠ e.idx) := by
  unfold Core.drainGroup at h
  split at h
  · rcases List.mem_cons.1 h with h | h
    · exact .inl h
    · simp only [List.mem_filter, Bool.and_eq_true, decide_eq_true_eq] at h
      exact .inr ⟨h.1.1, h.1.2.2, h.1.2.1⟩
  · exact .inl (List.mem_singleton.1 h)

/-- Every entry of an ordered store whose elements interleave with an entry's drains with it. -/
theorem Core.drainGroup_reaches {c : Core} {e q : SbEntry} (hq : q ∈ c.sb) (ho : e.sameOrdered q = true)
    (hr : q.reaches (e.efirst, e.elast) = true) (hi : q.idx ≠ e.idx) : q ∈ c.drainGroup e := by
  have he : e.ord = true := by
    unfold SbEntry.sameOrdered at ho
    simp only [Bool.and_eq_true] at ho
    exact ho.1.1.1
  unfold Core.drainGroup
  rw [if_pos he]
  have g := spanOf_grows (c.sb.filter fun q => q.idx ≠ e.idx && e.sameOrdered q)
    (c.sb.filter fun q => q.idx ≠ e.idx && e.sameOrdered q).length (e.efirst, e.elast)
  unfold SbEntry.reaches at hr
  simp only [Bool.and_eq_true, decide_eq_true_eq] at hr
  refine List.mem_cons_of_mem _ (List.mem_filter.2 ⟨List.mem_filter.2 ⟨hq, by simp [hi, ho]⟩, ?_⟩)
  simp only [SbEntry.reaches, Bool.and_eq_true, decide_eq_true_eq]
  exact ⟨hr.1.trans g.2, g.1.trans hr.2⟩

/-! ## The bits above the last whole element (11 R203) -/

@[simp] theorem VReg.tail_tag (r : VReg) (v w : Nat) : (r.tail v w).tag = r.tag := by
  unfold VReg.tail
  split <;> rfl

theorem VReg.tail_whole (r : VReg) {v w : Nat} (h : v % w = 0) : r.tail v w = r := if_pos h

theorem VReg.tail_bits_lt (r : VReg) {v w : Nat} (h : v % w ≠ 0) : (r.tail v w).bits.toNat < 2 ^ (v / w * w) := by
  unfold VReg.tail
  rw [if_neg h, BitVec.toNat_ofNat]
  exact lt_of_le_of_lt (Nat.mod_le _ _) (Nat.mod_lt _ (by positivity))

@[simp] theorem Hart.trimV_false (h : Hart) (v d w : Nat) : h.trimV v d w false = h := by
  simp [Hart.trimV]

theorem Hart.trimV_whole (h : Hart) {v w : Nat} (d : Nat) (b : Bool) (hw : v % w = 0) : h.trimV v d w b = h := by
  simp [Hart.trimV, hw]

/-! ## The two views of a tiled block (02 R28, R34; 05 R100) -/

/-- `colCell` on an address by its block, column, row and byte: column and row change places. -/
theorem colCell_parts (t : TClass) (ht : t ≠ .untiled) {c x y b : Nat} (hx : x < t.rows) (hy : y < t.rows)
    (hb : b < t.width) :
    colCell t (c * t.block + x * 128 + y * t.width + b) = c * t.block + y * 128 + x * t.width + b := by
  cases t with
  | untiled => exact absurd rfl ht
  | t32 =>
    simp only [TClass.rows, TClass.width] at hx hy hb
    have h1 : (c * (32 * 128) + x * 128 + y * 4 + b) / (32 * 128) = c := by omega
    have h2 : c * (32 * 128) + x * 128 + y * 4 + b - c * (32 * 128) = x * 128 + y * 4 + b := by omega
    have h3 : (x * 128 + y * 4 + b) / 128 = x := by omega
    have h4 : (x * 128 + y * 4 + b) % 128 / 4 = y := by omega
    have h5 : (x * 128 + y * 4 + b) % 4 = b := by omega
    simp only [colCell, TClass.block, TClass.rows, TClass.width, h1, h2, h3, h4, h5]
  | t16 =>
    simp only [TClass.rows, TClass.width] at hx hy hb
    have h1 : (c * (64 * 128) + x * 128 + y * 2 + b) / (64 * 128) = c := by omega
    have h2 : c * (64 * 128) + x * 128 + y * 2 + b - c * (64 * 128) = x * 128 + y * 2 + b := by omega
    have h3 : (x * 128 + y * 2 + b) / 128 = x := by omega
    have h4 : (x * 128 + y * 2 + b) % 128 / 2 = y := by omega
    have h5 : (x * 128 + y * 2 + b) % 2 = b := by omega
    simp only [colCell, TClass.block, TClass.rows, TClass.width, h1, h2, h3, h4, h5]
  | t8 =>
    simp only [TClass.rows, TClass.width] at hx hy hb
    have h1 : (c * (128 * 128) + x * 128 + y * 1 + b) / (128 * 128) = c := by omega
    have h2 : c * (128 * 128) + x * 128 + y * 1 + b - c * (128 * 128) = x * 128 + y * 1 + b := by omega
    have h3 : (x * 128 + y * 1 + b) / 128 = x := by omega
    have h4 : (x * 128 + y * 1 + b) % 128 / 1 = y := by omega
    have h5 : (x * 128 + y * 1 + b) % 1 = b := by omega
    simp only [colCell, TClass.block, TClass.rows, TClass.width, h1, h2, h3, h4, h5]

/-- The change of view, made twice, gives the address back (02 R34). -/
theorem colCell_colCell (t : TClass) (va : Nat) : colCell t (colCell t va) = va := by
  by_cases ht : t = .untiled
  · subst ht; rfl
  · obtain ⟨c, x, y, b, hx, hy, hb, rfl⟩ : ∃ c x y b, x < t.rows ∧ y < t.rows ∧ b < t.width ∧
        va = c * t.block + x * 128 + y * t.width + b := by
      refine ⟨va / t.block, va % t.block / 128, va % 128 / t.width, va % t.width, ?_⟩
      cases t with
      | untiled => exact absurd rfl ht
      | t32 => simp only [TClass.block, TClass.rows, TClass.width]; omega
      | t16 => simp only [TClass.block, TClass.rows, TClass.width]; omega
      | t8 => simp only [TClass.block, TClass.rows, TClass.width]; omega
    rw [colCell_parts t ht hx hy hb, colCell_parts t ht hy hx hb]
/-- Byte k of a buffered entry is the byte that the entry holds for its cell: forwarding matches cells (06 R118). -/
theorem SbEntry.slotOf_cell (e : SbEntry) {k : Nat} (hk : k < 128) (ha : e.va % 128 = 0) : e.slotOf (e.cell k) = some k := by
  have hv : (e.va + k) / 128 * 128 = e.va := by omega
  have hm : (e.va + k) % 128 = k := by omega
  unfold SbEntry.slotOf SbEntry.cell
  by_cases ho : e.orient = true
  · simp [ho, colCell_colCell, hv, hm]
  · simp [ho, hv, hm]

/-! ## The control window behind the caches (01 R14), and names -/

/-- The control window lies outside GDDR 7. -/
theorem inGddr_of_inCtl {pa : Nat} (h : inCtl pa = true) : inGddr pa = false := by
  unfold inCtl ctlBase ctlSize at h
  unfold inGddr gddrSize
  simp at h ⊢
  omega

/-- A sent write of the control window writes its registers, and nothing of memory or of a home slice. -/
theorem State.performSent_ctl {s : State} {w : SentWrite} (hp : s.peerRefuses w.pa = false) (hc : inCtl w.pa = true) :
    s.performSent w = s.ctlWriteRun (w.pa - ctlBase) w.bytes.length (ofBytes w.bytes) := by
  unfold State.performSent
  rw [if_neg (by simp [hp]), hc]
  cases w.home <;> simp [State.touchHomeOf, inGddr_of_inCtl hc]

/-- A line of the control window writes the registers under its mask. -/
theorem State.mergeHome_ctl {s : State} {pa : Nat} (w : WriteBack) (l : Option Leaf) (hc : inCtl pa = true) :
    s.mergeHome pa w l = s.ctlWriteWords (pa - ctlBase) w.dirty.toNat w.data.toNat 16 := by
  unfold State.mergeHome
  exact if_pos hc

/-- A name that is recorded stays as it is (04 R91, R92). -/
theorem State.name_named {s : State} {l : Leaf} (hc : s.nameConflict l = false) (hn : s.isNamed l = true) :
    s.name l = some s := by
  unfold State.name
  rw [hc, hn]
  rfl

end Sys2Proof.Machine
end

