-- ==== Sys2Proof/Laws/Memory.lean ====
section
/-! SUPPORT. Tables by key and memory: what a read after a write gives, and that every memory operation keeps the
canonical form. -/

namespace Sys2Proof.Machine

/-! ## Tables by key -/

@[simp] theorem aget_aset {α : Type} (l : List (Nat × α)) (i j : Nat) (x : α) :
    aget (aset l i x) j = if j = i then some x else aget l j := by
  induction l with
  | nil => by_cases h : j = i <;> simp [aset, aget, h, Ne.symm]
  | cons p t ih =>
    obtain ⟨k, v⟩ := p
    unfold aset
    split
    · by_cases h : j = i
      · simp [aget, h]
      · have : i ≠ j := by omega
        simp [aget, h, this]
    · split
      · by_cases h : j = i
        · simp [aget, h]
        · have : k ≠ j := by omega
          have : i ≠ j := by omega
          simp [aget, *]
      · by_cases hk : k = j
        · have : j ≠ i := by omega
          simp [aget, hk, this]
        · simp [aget, hk, ih]

@[simp] theorem aget_adel {α : Type} (l : List (Nat × α)) (i j : Nat) :
    aget (adel l i) j = if j = i then none else aget l j := by
  induction l with
  | nil => simp [adel, aget]
  | cons p t ih =>
    obtain ⟨k, v⟩ := p
    unfold adel
    split
    · rw [ih]
      by_cases h : j = i
      · simp [h]
      · have : k ≠ j := by omega
        simp [h, aget, this]
    · by_cases hk : k = j
      · have : j ≠ i := by omega
        simp [aget, hk, this]
      · simp [aget, hk, ih]

/-! ## Reading one byte after a write -/

@[simp] theorem Memory.get_set (m : Memory) (a c : Nat) (b : Byte) :
    (m.set a b).get c = if c = a then b else m.get c := by
  unfold Memory.set Memory.get
  split <;> by_cases h : c = a <;> simp_all

theorem Memory.get_write (m : Memory) (a c : Nat) (bs : List Byte) :
    (m.write a bs).get c = if a ≤ c ∧ c < a + bs.length then bs.getD (c - a) 0 else m.get c := by
  induction bs generalizing m a with
  | nil => simp [Memory.write]
  | cons b t ih =>
    rw [Memory.write, ih, Memory.get_set]
    by_cases h : c = a
    · subst h
      simp
    · by_cases h2 : a + 1 ≤ c ∧ c < a + 1 + t.length
      · have h3 : a ≤ c ∧ c < a + (b :: t).length := by simp; omega
        obtain ⟨k, rfl⟩ : ∃ k, c = a + 1 + k := ⟨c - (a + 1), by omega⟩
        have e1 : a + 1 + k - (a + 1) = k := by omega
        have e2 : a + 1 + k - a = k + 1 := by omega
        rw [if_pos h2, if_pos h3, e1, e2]
        simp
      · have h3 : ¬(a ≤ c ∧ c < a + (b :: t).length) := by simp; omega
        rw [if_neg h2, if_neg h3, if_neg h]

theorem Memory.get_write_outside (m : Memory) (a c : Nat) (bs : List Byte) (h : c < a ∨ a + bs.length ≤ c) :
    (m.write a bs).get c = m.get c := by
  rw [Memory.get_write, if_neg (by omega)]

theorem Memory.get_writeMasked (m : Memory) (a c mask : Nat) (bs : List Byte) :
    (m.writeMasked a mask bs).get c =
      if (a ≤ c ∧ c < a + bs.length) ∧ mask.testBit (c - a) then bs.getD (c - a) 0 else m.get c := by
  induction bs generalizing m a mask with
  | nil => simp [Memory.writeMasked]
  | cons b t ih =>
    rw [Memory.writeMasked, ih]
    by_cases h : c = a
    · subst h
      have hb : mask.testBit 0 = decide (mask % 2 = 1) := by simp [Nat.testBit_zero]
      by_cases hm : mask % 2 = 1 <;> simp [hb, hm]
    · by_cases h2 : a + 1 ≤ c ∧ c < a + 1 + t.length
      · have h3 : a ≤ c ∧ c < a + (b :: t).length := by simp; omega
        obtain ⟨k, rfl⟩ : ∃ k, c = a + 1 + k := ⟨c - (a + 1), by omega⟩
        have e1 : a + 1 + k - (a + 1) = k := by omega
        have e2 : a + 1 + k - a = k + 1 := by omega
        have e3 : (mask / 2).testBit k = mask.testBit (k + 1) := by simp [Nat.testBit_succ]
        by_cases hb : mask.testBit (k + 1)
        · rw [e1, e2, e3, if_pos ⟨h2, hb⟩, if_pos ⟨h3, hb⟩]
          simp
        · have n1 : ¬((a + 1 ≤ a + 1 + k ∧ a + 1 + k < a + 1 + t.length) ∧ mask.testBit (k + 1)) := fun x => hb x.2
          have n2 : ¬((a ≤ a + 1 + k ∧ a + 1 + k < a + (b :: t).length) ∧ mask.testBit (k + 1)) := fun x => hb x.2
          rw [e1, e2, e3, if_neg n1, if_neg n2]
          split
          · rw [Memory.get_set, if_neg h]
          · rfl
      · have h3 : ¬(a ≤ c ∧ c < a + (b :: t).length) := by simp; omega
        have n1 : ¬((a + 1 ≤ c ∧ c < a + 1 + t.length) ∧ (mask / 2).testBit (c - (a + 1))) := fun x => h2 x.1
        have n2 : ¬((a ≤ c ∧ c < a + (b :: t).length) ∧ mask.testBit (c - a)) := fun x => h3 x.1
        rw [if_neg n1, if_neg n2]
        split
        · rw [Memory.get_set, if_neg h]
        · rfl

/-! ## Numbers -/

@[simp] theorem toBytes_length (n x : Nat) : (toBytes n x).length = n := by
  induction n generalizing x with
  | zero => rfl
  | succ n ih => simp [toBytes, ih]

theorem ofBytes_toBytes (n x : Nat) : ofBytes (toBytes n x) = x % 2 ^ (8 * n) := by
  induction n generalizing x with
  | zero => simp [toBytes, ofBytes, Nat.mod_one]
  | succ n ih =>
    have e : 2 ^ (8 * (n + 1)) = 256 * 2 ^ (8 * n) := by
      rw [Nat.mul_add, Nat.pow_add, Nat.mul_comm]
    rw [toBytes, ofBytes, ih, e, Nat.mod_mul]
    simp

theorem Memory.read_length (m : Memory) (a n : Nat) : (m.read a n).length = n := by
  induction n generalizing a with
  | zero => rfl
  | succ n ih => simp [Memory.read, ih]

theorem Memory.read_congr (m m' : Memory) (a n : Nat) (h : ∀ c, a ≤ c → c < a + n → m'.get c = m.get c) :
    m'.read a n = m.read a n := by
  induction n generalizing a with
  | zero => rfl
  | succ n ih =>
    rw [Memory.read, Memory.read, h a (by omega) (by omega), ih (a + 1) (fun c h1 h2 => h c (by omega) (by omega))]

theorem Memory.read_write (m : Memory) (a : Nat) (bs : List Byte) : (m.write a bs).read a bs.length = bs := by
  induction bs generalizing m a with
  | nil => rfl
  | cons b t ih =>
    rw [Memory.write, List.length_cons, Memory.read]
    have h0 : ((m.set a b).write (a + 1) t).get a = b := by
      rw [Memory.get_write_outside _ _ _ _ (by omega), Memory.get_set, if_pos rfl]
    rw [h0, ih]

theorem Memory.num_write (m : Memory) (a n x : Nat) : (m.write a (toBytes n x)).num a n = x % 2 ^ (8 * n) := by
  have h := Memory.read_write m a (toBytes n x)
  rw [toBytes_length] at h
  rw [Memory.num, h, ofBytes_toBytes]

theorem Memory.num_write_outside (m : Memory) (a c n : Nat) (bs : List Byte)
    (h : c + n ≤ a ∨ a + bs.length ≤ c) : (m.write a bs).num c n = m.num c n := by
  unfold Memory.num
  rw [Memory.read_congr m]
  intro k h1 h2
  exact Memory.get_write_outside _ _ _ _ (by omega)

/-! ## The canonical form -/

theorem Memory.wfFrom_weaken {lo lo' : Option Nat} {m : Memory} (h : Memory.wfFrom lo m)
    (hl : ∀ l', lo' = some l' → ∃ l, lo = some l ∧ l' ≤ l) : Memory.wfFrom lo' m := by
  cases m with
  | nil => cases lo' <;> rfl
  | cons p t =>
    obtain ⟨a, b⟩ := p
    cases lo' with
    | none =>
      cases lo <;> simp_all [Memory.wfFrom]
    | some l' =>
      obtain ⟨l, rfl, hle⟩ := hl l' rfl
      simp [Memory.wfFrom] at h ⊢
      refine ⟨⟨by omega, h.1.2⟩, h.2⟩

theorem Memory.wfFrom_adel {lo : Option Nat} {m : Memory} (i : Nat) (h : Memory.wfFrom lo m) :
    Memory.wfFrom lo (adel m i) := by
  induction m generalizing lo with
  | nil => simpa [adel] using h
  | cons p t ih =>
    obtain ⟨a, b⟩ := p
    have ht : Memory.wfFrom (some a) t := by simp [Memory.wfFrom] at h; exact h.2
    unfold adel
    split
    · apply ih
      apply Memory.wfFrom_weaken ht
      rintro l' rfl
      simp [Memory.wfFrom] at h
      exact ⟨a, rfl, by omega⟩
    · simp [Memory.wfFrom] at h ⊢
      exact ⟨h.1, ih h.2⟩

theorem Memory.wfFrom_aset {lo : Option Nat} {m : Memory} (i : Nat) (x : Byte) (hx : x ≠ Memory.background)
    (h : Memory.wfFrom lo m) (hi : ∀ l, lo = some l → l < i) : Memory.wfFrom lo (aset m i x) := by
  induction m generalizing lo with
  | nil =>
    cases lo with
    | none => simp [aset, Memory.wfFrom, hx]
    | some l => simp [aset, Memory.wfFrom, hx, hi l rfl]
  | cons p t ih =>
    obtain ⟨a, b⟩ := p
    have ht : Memory.wfFrom (some a) t := by simp [Memory.wfFrom] at h; exact h.2
    have hb : b ≠ Memory.background := by simp [Memory.wfFrom] at h; exact h.1.2
    unfold aset
    split
    · cases lo with
      | none => simp [Memory.wfFrom, hx, hb, ht]; omega
      | some l => simp [Memory.wfFrom, hx, hb, ht, hi l rfl]; omega
    · split
      · subst_vars
        cases lo with
        | none => simp [Memory.wfFrom, hx, ht]
        | some l => simp [Memory.wfFrom, hx, ht, hi l rfl]
      · have hr := ih ht (fun l e => by cases e; omega)
        simp [Memory.wfFrom] at h ⊢
        exact ⟨h.1, hr⟩

theorem Memory.wf_set {m : Memory} (a : Nat) (b : Byte) (h : m.wf) : (m.set a b).wf := by
  unfold Memory.set
  split
  · exact Memory.wfFrom_adel a h
  · exact Memory.wfFrom_aset a b (by assumption) h (by simp)

theorem Memory.wf_write {m : Memory} (a : Nat) (bs : List Byte) (h : m.wf) : (m.write a bs).wf := by
  induction bs generalizing m a with
  | nil => exact h
  | cons b t ih => exact ih _ (Memory.wf_set a b h)

theorem Memory.wf_writeMasked {m : Memory} (a mask : Nat) (bs : List Byte) (h : m.wf) :
    (m.writeMasked a mask bs).wf := by
  induction bs generalizing m a mask with
  | nil => exact h
  | cons b t ih =>
    rw [Memory.writeMasked]
    split
    · exact ih _ _ (Memory.wf_set a b h)
    · exact ih _ _ h

theorem Memory.wf_setNum {m : Memory} (a n x : Nat) (h : m.wf) : (m.setNum a n x).wf := Memory.wf_write a _ h

theorem Memory.wfFrom_filter {lo : Option Nat} {m : Memory} (p : Nat × Byte → Bool) (h : Memory.wfFrom lo m) :
    Memory.wfFrom lo (m.filter p) := by
  induction m generalizing lo with
  | nil => simpa using h
  | cons c t ih =>
    obtain ⟨a, b⟩ := c
    have ht : Memory.wfFrom (some a) t := by simp [Memory.wfFrom] at h; exact h.2
    rw [List.filter_cons]
    split
    · simp [Memory.wfFrom] at h ⊢
      exact ⟨h.1, ih h.2⟩
    · apply ih
      apply Memory.wfFrom_weaken ht
      rintro l' rfl
      simp [Memory.wfFrom] at h
      exact ⟨a, rfl, by omega⟩

theorem Memory.wf_filter {m : Memory} (p : Nat × Byte → Bool) (h : m.wf) : Memory.wf (m.filter p) :=
  Memory.wfFrom_filter p h

end Sys2Proof.Machine
end

