-- ==== Sys2Proof/Laws/Registers.lean ====
section
/-! SUPPORT. Reading a register, a hart or a unit after one was replaced. -/

namespace Sys2Proof.Machine

/-- Reading a vector after one entry was set. -/
theorem vget_set {α : Type} {n : Nat} (v : Vector α n) (i j : Nat) (hi : i < n) (hj : j < n) (x : α) :
    (v.set i x hi).get ⟨j, hj⟩ = if i = j then x else v.get ⟨j, hj⟩ := by
  show (v.set i x hi)[j] = if i = j then x else v[j]
  rw [Vector.getElem_set]

/-! ## Scalar registers (12 R227) -/

@[simp] theorem Hart.getX_zero (h : Hart) : h.getX 0 = 0 := rfl

@[simp] theorem Hart.setX_zero (h : Hart) (w : Word) : h.setX 0 w = h := rfl

theorem Hart.getX_setX_other (h : Hart) (i j : XIx) (w : Word) (hj : j ≠ i) : (h.setX i w).getX j = h.getX j := by
  unfold Hart.setX
  split
  · rfl
  · have hne : i.toNat ≠ j.toNat := fun e => hj (BitVec.eq_of_toNat_eq e.symm)
    unfold Hart.getX
    rw [vget_set, if_neg hne]

theorem Hart.getX_setX_same (h : Hart) (i : XIx) (w : Word) (hi : i ≠ 0) : (h.setX i w).getX i = w := by
  unfold Hart.setX
  rw [if_neg hi]
  unfold Hart.getX
  rw [if_neg hi, vget_set, if_pos rfl]

theorem Hart.getX_setX (h : Hart) (i j : XIx) (w : Word) :
    (h.setX i w).getX j = if j = 0 then 0 else if j = i then w else h.getX j := by
  by_cases hj : j = 0
  · subst hj; rfl
  · rw [if_neg hj]
    by_cases hi : j = i
    · subst hi; rw [if_pos rfl, Hart.getX_setX_same _ _ _ hj]
    · rw [if_neg hi, Hart.getX_setX_other _ _ _ _ hi]

/-! ## Vector, scale and segment registers -/

theorem Hart.getV_setV (h : Hart) (n m : Nat) (r : VReg) :
    (h.setV n r).getV m = if m = n ∧ n < 64 then r else h.getV m := by
  unfold Hart.setV
  by_cases hn : n < 64
  · rw [dif_pos hn]
    unfold Hart.getV
    by_cases hm : m < 64
    · simp only [dif_pos hm, vget_set, hn, and_true, eq_comm]
    · have : ¬(m = n ∧ n < 64) := by omega
      simp only [dif_neg hm, if_neg this]
  · have : ¬(m = n ∧ n < 64) := by omega
    rw [dif_neg hn, if_neg this]

theorem Hart.getK_setK (h : Hart) (n m : Nat) (b : BitVec 2048) :
    (h.setK n b).getK m = if m = n ∧ n < 16 then { h.getK m with bits := b, dirty := true } else h.getK m := by
  unfold Hart.setK
  by_cases hn : n < 16
  · rw [dif_pos hn]
    unfold Hart.getK
    by_cases hm : m < 16
    · by_cases e : n = m
      · subst e
        simp only [vget_set, hn, and_true, if_true]
        rfl
      · have : ¬(m = n ∧ n < 16) := by omega
        simp only [dif_pos hm, vget_set, if_neg e, if_neg this]
    · have : ¬(m = n ∧ n < 16) := by omega
      simp only [dif_neg hm, if_neg this]
  · have : ¬(m = n ∧ n < 16) := by omega
    rw [dif_neg hn, if_neg this]

theorem Hart.getG_setG (h : Hart) (n m : Nat) (w : BitVec 128) :
    (h.setG n w).getG m = if m = n ∧ n < 16 then w else h.getG m := by
  have key : ∀ g : Vector (BitVec 128) 16, ∀ hn : n < 16,
      (if hm : m < 16 then (g.set n w hn).get ⟨m, hm⟩ else 0) =
        if m = n ∧ n < 16 then w else (if hm : m < 16 then g.get ⟨m, hm⟩ else 0) := by
    intro g hn
    by_cases hm : m < 16
    · simp only [dif_pos hm, vget_set, hn, and_true, eq_comm]
    · have : ¬(m = n ∧ n < 16) := by omega
      simp only [dif_neg hm, if_neg this]
  unfold Hart.setG
  by_cases hu : h.user
  · rw [if_pos hu]
    by_cases hn : n < 16
    · rw [dif_pos hn]
      simp only [Hart.getG, hu, if_true]
      exact key _ _
    · have : ¬(m = n ∧ n < 16) := by omega
      rw [dif_neg hn, if_neg this]
  · rw [if_neg hu]
    by_cases h0 : n = 0
    · subst h0
      by_cases e : m = 0 <;> simp [Hart.getG, hu, e]
    · rw [if_neg h0]
      by_cases h1 : n = 1
      · subst h1
        by_cases e : m = 1
        · subst e; simp [Hart.getG, hu]
        · by_cases e0 : m = 0 <;> simp [Hart.getG, hu, e, e0]
      · rw [if_neg h1]
        by_cases hn : n < 16
        · rw [dif_pos hn]
          simp only [Hart.getG, hu]
          by_cases m0 : m = 0
          · subst m0
            have : ¬(0 = n ∧ n < 16) := by omega
            simp [this]
          · by_cases m1 : m = 1
            · subst m1
              have : ¬(1 = n ∧ n < 16) := by omega
              simp [this]
            · simp only [m0, m1, if_false, Bool.false_eq_true]
              exact key _ _
        · have : ¬(m = n ∧ n < 16) := by omega
          rw [dif_neg hn, if_neg this]

/-! ## Harts and units of the state -/

@[simp] theorem State.me_setMe (s : State) (h : Hart) : (s.setMe h).me = some h := by
  simp [State.me]

@[simp] theorem State.setMe_setMe (s : State) (h h' : Hart) : ((s.setMe h).setMe h').cur = s.cur := rfl

@[simp] theorem State.hart?_setHart (s : State) (k j : Nat) (h : Hart) :
    (s.setHart k h).hart? j = if j = k then some h else s.hart? j := by
  simp [State.hart?]

@[simp] theorem State.hart?_setMe (s : State) (j : Nat) (h : Hart) :
    (s.setMe h).hart? j = if j = s.cur then some h else s.hart? j := by
  simp [State.hart?]

@[simp] theorem State.core_setCore (s : State) (c d : Nat) (x : Core) :
    (s.setCore c x).core d = if d = c then x else s.core d := by
  by_cases h : d = c <;> simp [State.core, h]

@[simp] theorem State.core_setMe (s : State) (h : Hart) (c : Nat) : (s.setMe h).core c = s.core c := rfl
@[simp] theorem State.core_setHart (s : State) (k : Nat) (h : Hart) (c : Nat) : (s.setHart k h).core c = s.core c := rfl
@[simp] theorem State.core_setCluster (s : State) (k : Nat) (x : Cluster) (c : Nat) :
    (s.setCluster k x).core c = s.core c := rfl
@[simp] theorem State.core_setDie (s : State) (k : Nat) (x : Die) (c : Nat) : (s.setDie k x).core c = s.core c := rfl

@[simp] theorem State.cluster_setCluster (s : State) (c d : Nat) (x : Cluster) :
    (s.setCluster c x).cluster d = if d = c then x else s.cluster d := by
  by_cases h : d = c <;> simp [State.cluster, h]

@[simp] theorem State.cluster_setMe (s : State) (h : Hart) (c : Nat) : (s.setMe h).cluster c = s.cluster c := rfl
@[simp] theorem State.cluster_setHart (s : State) (k : Nat) (h : Hart) (c : Nat) :
    (s.setHart k h).cluster c = s.cluster c := rfl
@[simp] theorem State.cluster_setCore (s : State) (k : Nat) (x : Core) (c : Nat) :
    (s.setCore k x).cluster c = s.cluster c := rfl
@[simp] theorem State.cluster_setDie (s : State) (k : Nat) (x : Die) (c : Nat) :
    (s.setDie k x).cluster c = s.cluster c := rfl

@[simp] theorem State.die_setDie (s : State) (c d : Nat) (x : Die) :
    (s.setDie c x).die d = if d = c then x else s.die d := by
  by_cases h : d = c <;> simp [State.die, h]

@[simp] theorem State.die_setMe (s : State) (h : Hart) (d : Nat) : (s.setMe h).die d = s.die d := rfl
@[simp] theorem State.die_setHart (s : State) (k : Nat) (h : Hart) (d : Nat) : (s.setHart k h).die d = s.die d := rfl
@[simp] theorem State.die_setCore (s : State) (k : Nat) (x : Core) (d : Nat) : (s.setCore k x).die d = s.die d := rfl
@[simp] theorem State.die_setCluster (s : State) (k : Nat) (x : Cluster) (d : Nat) :
    (s.setCluster k x).die d = s.die d := rfl

@[simp] theorem State.queue_setQueue (s : State) (p q : Nat) (x : Queue) :
    (s.setQueue p x).queue q = if q = p then x else s.queue q := by
  by_cases h : q = p <;> simp [State.queue, h]

@[simp] theorem State.myCore_setMe (s : State) (h : Hart) : (s.setMe h).myCore = s.myCore := rfl
@[simp] theorem State.myCore_setCore (s : State) (k : Nat) (x : Core) : (s.setCore k x).myCore = s.myCore := rfl
@[simp] theorem State.mySlot_setMe (s : State) (h : Hart) : (s.setMe h).mySlot = s.mySlot := rfl
@[simp] theorem State.mySlot_setCore (s : State) (k : Nat) (x : Core) : (s.setCore k x).mySlot = s.mySlot := rfl
@[simp] theorem State.me_setCore (s : State) (k : Nat) (x : Core) : (s.setCore k x).me = s.me := rfl
@[simp] theorem State.me_setCluster (s : State) (k : Nat) (x : Cluster) : (s.setCluster k x).me = s.me := rfl
@[simp] theorem State.me_setDie (s : State) (k : Nat) (x : Die) : (s.setDie k x).me = s.me := rfl
@[simp] theorem State.me_writePA (s : State) (a : Nat) (b : List Byte) : (s.writePA a b).me = s.me := rfl
@[simp] theorem State.me_setPA (s : State) (a n x : Nat) : (s.setPA a n x).me = s.me := rfl
@[simp] theorem State.me_logEvent (s : State) (k d x : Nat) : (s.logEvent k d x).me = s.me := rfl
@[simp] theorem State.core_setPA (s : State) (a n x c : Nat) : (s.setPA a n x).core c = s.core c := rfl
@[simp] theorem State.core_logEvent (s : State) (k d x c : Nat) : (s.logEvent k d x).core c = s.core c := rfl

end Sys2Proof.Machine
end

