-- ==== Sys2Proof/Laws/Trap.lean ====
section
/-! SUPPORT. What taking a trap and settling a hart's pending results leave as they were. -/

namespace Sys2Proof.Machine

/-- Two harts that differ only in vector and scale registers, pending results and accrued flags. -/
def Hart.sameScalars (g h : Hart) : Prop :=
  { g with v := h.v, k := h.k, loads := h.loads, mats := h.mats, ctl := { g.ctl with fflags := h.ctl.fflags } } = h

theorem Hart.sameScalars_refl (h : Hart) : h.sameScalars h := rfl

theorem Hart.sameScalars_trans {f g h : Hart} (a : f.sameScalars g) (b : g.sameScalars h) : f.sameScalars h := by
  unfold Hart.sameScalars at *
  rw [← a] at b
  rw [← b]

theorem Hart.setV_sameScalars (h : Hart) (n : Nat) (r : VReg) : (h.setV n r).sameScalars h := by
  unfold Hart.setV Hart.sameScalars; split <;> rfl

theorem Hart.setGroup_sameScalars (l : List VReg) : ∀ (h : Hart) (n : Nat), (h.setGroup n l).sameScalars h := by
  induction l with
  | nil => intro h n; exact h.sameScalars_refl
  | cons r t ih => intro h n; exact Hart.sameScalars_trans (ih (h.setV n r) (n + 1)) (h.setV_sameScalars n r)

theorem Hart.finishMat_sameScalars (h : Hart) (m : PendingMat) : (h.finishMat m).sameScalars h :=
  Hart.sameScalars_trans (g := h.setGroup m.dst m.vals) rfl (h.setGroup_sameScalars m.vals m.dst)

theorem Hart.deliver_sameScalars (h : Hart) (p : PendingLoad) : (h.deliver p).sameScalars h := by
  cases p with
  | v d val => exact h.setV_sameScalars _ _
  | vv d e x y => exact Hart.sameScalars_trans (Hart.setV_sameScalars _ _ _) (Hart.setV_sameScalars _ _ _)
  | k d val =>
    show Hart.sameScalars (if hn : d.toNat < 16 then { h with k := h.k.set d.toNat val hn } else h) h
    split <;> rfl

theorem Hart.foldl_sameScalars {α : Type} (f : Hart → α → Hart) (hf : ∀ h a, (f h a).sameScalars h) (l : List α) :
    ∀ h, (l.foldl f h).sameScalars h := by
  induction l with
  | nil => intro h; exact h.sameScalars_refl
  | cons a t ih => intro h; exact Hart.sameScalars_trans (ih (f h a)) (hf h a)

/-- Settling a hart touches vector and scale registers, what is pending and the accrued flags, and nothing else. -/
theorem Hart.settle_sameScalars (h : Hart) : h.settle.sameScalars h := by
  have a : h.settleLoads.sameScalars h :=
    Hart.sameScalars_trans (g := h.loads.foldl Hart.deliver h) rfl
      (Hart.foldl_sameScalars _ Hart.deliver_sameScalars _ h)
  have b : h.settleLoads.settleMats.sameScalars h.settleLoads :=
    Hart.sameScalars_trans (g := h.settleLoads.mats.foldl Hart.finishMat h.settleLoads) rfl
      (Hart.foldl_sameScalars _ Hart.finishMat_sameScalars _ _)
  exact Hart.sameScalars_trans b a

/-- A property of the hart that every step of a fold keeps holds at its end. -/
theorem foldl_snd_keeps {α β : Type} (p : Hart → Prop) (f : β × Hart → α → β × Hart)
    (hf : ∀ acc a, p acc.2 → p (f acc a).2) (l : List α) : ∀ acc, p acc.2 → p (l.foldl f acc).2 := by
  induction l with
  | nil => intro acc h; exact h
  | cons a t ih => intro acc h; exact ih _ (hf acc a h)

/-- So does writing the D groups of follow-ons. -/
theorem Core.settleFollows_sameScalars (c : Core) (slot : Nat) (h : Hart) :
    (c.settleFollows slot h).2.sameScalars h := by
  unfold Core.settleFollows
  refine foldl_snd_keeps (fun g => g.sameScalars h) _ ?_ _ _ h.sameScalars_refl
  intro acc m hacc
  split
  · split
    · split
      · exact Hart.sameScalars_trans (Hart.finishMat_sameScalars _ _) hacc
      · exact hacc
    · exact hacc
  · exact hacc

/-- The fields that a hart with the same scalars shares. -/
theorem Hart.sameScalars_fields {g h : Hart} (e : g.sameScalars h) :
    g.x = h.x ∧ g.g = h.g ∧ g.sg0 = h.sg0 ∧ g.sg1 = h.sg1 ∧ g.pc = h.pc ∧ g.user = h.user ∧ g.seq = h.seq ∧
      g.tack = h.tack ∧ g.blk = h.blk ∧ g.space = h.space ∧ g.run = h.run ∧ g.works = h.works ∧ g.area = h.area ∧
      g.fail = h.fail ∧ g.trap = h.trap ∧ g.ctl.tvec = h.ctl.tvec ∧ g.ctl.vstart = h.ctl.vstart := by
  unfold Hart.sameScalars at e
  rw [← e]
  exact ⟨rfl, rfl, rfl, rfl, rfl, rfl, rfl, rfl, rfl, rfl, rfl, rfl, rfl, rfl, rfl, rfl, rfl⟩

/-- Two harts that differ only in vector and scale registers. -/
def Hart.sameButVK (g h : Hart) : Prop := { g with v := h.v, k := h.k } = h

theorem Hart.sameButVK_trans {f g h : Hart} (a : f.sameButVK g) (b : g.sameButVK h) : f.sameButVK h := by
  unfold Hart.sameButVK at *
  rw [← a] at b
  rw [← b]

theorem Hart.setV_sameButVK (h : Hart) (n : Nat) (r : VReg) : (h.setV n r).sameButVK h := by
  unfold Hart.setV Hart.sameButVK; split <;> rfl

theorem Hart.deliver_sameButVK (h : Hart) (p : PendingLoad) : (h.deliver p).sameButVK h := by
  cases p with
  | v d val => exact h.setV_sameButVK _ _
  | vv d e x y => exact Hart.sameButVK_trans (Hart.setV_sameButVK _ _ _) (Hart.setV_sameButVK _ _ _)
  | k d val =>
    show Hart.sameButVK (if hn : d.toNat < 16 then { h with k := h.k.set d.toNat val hn } else h) h
    split <;> rfl

theorem Hart.settleLoads_keeps (h : Hart) : { h.settleLoads with v := h.v, k := h.k, loads := h.loads } = h := by
  have a : ∀ (l : List PendingLoad) (g : Hart), (l.foldl Hart.deliver g).sameButVK g := by
    intro l
    induction l with
    | nil => intro g; exact (rfl : { g with v := g.v, k := g.k } = g)
    | cons p t ih => intro g; exact Hart.sameButVK_trans (ih (g.deliver p)) (g.deliver_sameButVK p)
  have b := a h.loads h
  unfold Hart.sameButVK at b
  show ({ (h.loads.foldl Hart.deliver h) with v := h.v, k := h.k, loads := h.loads } : Hart) = h
  generalize h.loads.foldl Hart.deliver h = g at b
  rw [← b]

/-- A hart whose instruction has written nothing is not changed by unwinding it (10 R180). -/
theorem Hart.unwind_none {h : Hart} (hp : h.prior = none) : h.unwind = h := by
  unfold Hart.unwind; rw [hp]

/-- Unwinding touches registers, pending loads, `vstart` and the history entry, and nothing else (10 R180). -/
theorem Hart.unwind_only (h : Hart) :
    { h.unwind with x := h.x, v := h.v, k := h.k, loads := h.loads, prior := h.prior,
                    ctl := { h.unwind.ctl with vstart := h.ctl.vstart } } = h := by
  unfold Hart.unwind
  split
  · rfl
  · split
    · rfl
    · rename_i b _ _
      have a := h.settleLoads_keeps
      generalize h.settleLoads = g at a
      cases b.reg with
      | x d val =>
        unfold Hart.giveBack Hart.setX
        dsimp only
        split <;> (rw [← a])
      | v d val =>
        unfold Hart.giveBack Hart.setV
        dsimp only
        split <;> (rw [← a])
      | k d val =>
        unfold Hart.giveBack Hart.deliver
        dsimp only
        split <;> (rw [← a])

/-- Bytes of a number. -/
theorem length_toBytes (n : Nat) : ∀ x, (toBytes n x).length = n := by
  induction n with
  | zero => intro x; rfl
  | succ n ih => intro x; simp [toBytes, ih]

/-- Writing bytes at a physical address leaves every other byte as it was. -/
theorem State.setPA_get_outside (s : State) (pa n x a : Nat) (ha : a < pa ∨ pa + n ≤ a) :
    (s.setPA pa n x).mem.get a = s.mem.get a := by
  show (s.mem.write pa (toBytes n x)).get a = s.mem.get a
  apply Memory.get_write_outside
  rw [length_toBytes]
  exact ha

/-- Taking a trap at an instruction (10 R186, R187): what the hart becomes, and that of device memory nothing but the 64
bytes of the fault-record slot changes, and no other hart. -/
theorem takeTrap_spec {s : State} {h : Hart} (t : FRec) (hm : s.me = some h) :
    (∃ g : Hart, (takeTrap t s).me = some (g.enterTrap t h.pc) ∧ g.sameScalars h) ∧
      (∀ a, (a < h.area + 0x40 ∨ h.area + 0x80 ≤ a) → (takeTrap t s).mem.get a = s.mem.get a) ∧
      ∀ k, k ≠ s.cur → (takeTrap t s).hart? k = s.hart? k := by
  have hs := Hart.sameScalars_trans ((s.core s.myCore).settleFollows_sameScalars s.mySlot h.settle)
    h.settle_sameScalars
  simp only [takeTrap, takeTrapAs, hm]
  generalize (s.core s.myCore).settleFollows s.mySlot h.settle = c at hs
  have ha : c.2.area = h.area := (Hart.sameScalars_fields hs).2.2.2.2.2.2.2.2.2.2.2.2.1
  refine ⟨⟨c.2, ?_, hs⟩, ?_, ?_⟩
  · exact State.me_setMe _ _
  · intro a h3
    rw [ha]
    split
    · exact State.setPA_get_outside (s.setCore s.myCore c.1) _ _ _ a (by omega)
    · exact State.setPA_get_outside (s.setCore s.myCore c.1) _ _ _ a (by omega)
  · intro k hk
    split <;> (rw [State.hart?_setMe]; exact if_neg hk)

end Sys2Proof.Machine
end

