-- ==== Sys2Proof/Laws/Ops.lean ====
section
/-! SUPPORT. What each shared operation can do, said once: a meaning is read through these lemmas and no longer
unfolded. -/

namespace Sys2Proof.Machine

/-! ## The frame of an operation: the hart, its checks, its end -/

theorem withHart_some {s : State} {h : Hart} (k : Hart → Out) (hm : s.me = some h) : withHart s k = k h := by
  unfold withHart; rw [hm]

/-- An operation that needs a hart and goes on had one. -/
theorem withHart_next {s t : State} {k : Hart → Out} (e : withHart s k = .next t) : ∃ h, s.me = some h ∧ k h = .next t := by
  unfold withHart at e
  split at e
  · exact ⟨_, ‹_›, e⟩
  · cases e

theorem Res.bind_ok {α β : Type} (a : α) (s : State) (f : α → State → Res β) : (Res.ok a s).bind f = f a s := rfl

theorem Res.bind_stop {α β : Type} (e : Stop) (s : State) (f : α → State → Res β) : (Res.stop e s).bind f = .stop e s :=
  rfl

/-- A sequence goes on exactly when both of its parts do. -/
theorem Res.bind_eq_ok {α β : Type} {r : Res α} {f : α → State → Res β} {b : β} {t : State} :
    r.bind f = .ok b t ↔ ∃ a s, r = .ok a s ∧ f a s = .ok b t := by
  cases r with
  | ok a s => exact ⟨fun h => ⟨a, s, rfl, h⟩, fun ⟨_, _, h, k⟩ => by cases h; exact k⟩
  | stop e s =>
    constructor
    · intro h
      cases h
    · rintro ⟨_, _, h, _⟩
      cases h

/-- A sequence stops where its first part stops, or where its second does. -/
theorem Res.bind_eq_stop {α β : Type} {r : Res α} {f : α → State → Res β} {e : Stop} {t : State} :
    r.bind f = .stop e t ↔ r = .stop e t ∨ ∃ a s, r = .ok a s ∧ f a s = .stop e t := by
  cases r with
  | ok a s =>
    constructor
    · exact fun h => .inr ⟨a, s, rfl, h⟩
    · rintro (h | ⟨_, _, h, k⟩)
      · cases h
      · cases h
        exact k
  | stop x s =>
    constructor
    · intro h
      cases h
      exact .inl rfl
    · rintro (h | ⟨_, _, h, _⟩)
      · cases h
        rfl
      · cases h

theorem finish_ok (s : State) : finish (.ok () s) = .next s := rfl

theorem finish_trap (t : FRec) (s : State) : finish (.stop (.trap t) s) = .next (takeTrap t s) := rfl

theorem finish_wait (s : State) : finish (.stop .wait s) = .next s := rfl

/-- An operation always ends in a next state: it is done, it has trapped, or it waits. -/
theorem finish_cases (r : Res Unit) :
    (∃ s, r = .ok () s ∧ finish r = .next s) ∨ (∃ t s, r = .stop (.trap t) s ∧ finish r = .next (takeTrap t s)) ∨
      ∃ s, r = .stop .wait s ∧ finish r = .next s := by
  rcases r with ⟨⟨⟩, s⟩ | ⟨_ | _, s⟩
  · exact .inl ⟨s, rfl, rfl⟩
  · exact .inr (.inl ⟨_, s, rfl, rfl⟩)
  · exact .inr (.inr ⟨s, rfl, rfl⟩)

theorem checked_none (s : State) (k : Out) : checked none s k = k := rfl

theorem checked_some (t : FRec) (s : State) (k : Out) : checked (some t) s k = .next (takeTrap t s) := rfl

/-! ## Scalar forms -/

theorem writeX_next {s : State} {h : Hart} (d : XIx) (f : Hart → Word) (hm : s.me = some h) :
    writeX d f s = .next (s.setMe ((h.setX d (f h)).retire)) := withHart_some _ hm

theorem alu_next {s : State} {h : Hart} (d a b : XIx) (f : Word → Word → Word) (hm : s.me = some h) :
    alu d a b f s = .next (s.setMe ((h.setX d (f (h.getX a) (h.getX b))).retire)) := writeX_next _ _ hm

/-- A division by zero writes all ones and accrues DZ (14 R256). -/
theorem division_zero {s : State} {h : Hart} (d a b : XIx) (f : Word → Word → Word) (hm : s.me = some h)
    (hz : h.getX b = 0) : division d a b f s =
      .next (s.setMe (((h.setX d (BitVec.allOnes 64)).accrue (BitVec.ofNat 8 fDZ)).retire)) := by
  unfold division
  rw [withHart_some _ hm, if_pos hz]

theorem division_next {s : State} {h : Hart} (d a b : XIx) (f : Word → Word → Word) (hm : s.me = some h)
    (hz : h.getX b ≠ 0) : division d a b f s = .next (s.setMe ((h.setX d (f (h.getX a) (h.getX b))).retire)) := by
  unfold division
  rw [withHart_some _ hm, if_neg hz]

/-- A jump goes to an aligned target. -/
theorem jumpTo_aligned {t : Word} (h : Hart) (s : State) (ha : t.toNat % 4 = 0) :
    jumpTo t h s = .next (s.setMe (h.retireTo t)) := by
  unfold jumpTo
  rw [if_neg (by omega)]

/-- A jump to another target traps with the target in its record (14 R267). -/
theorem jumpTo_misaligned {t : Word} (h : Hart) (s : State) (ha : t.toNat % 4 ≠ 0) :
    jumpTo t h s = .next (takeTrap (badTarget t) s) := by
  unfold jumpTo
  rw [if_pos ha]
  rfl

theorem branch_taken {s : State} {h : Hart} (off : BitVec 13) (b a : XIx) (c : Word → Word → Bool) (hm : s.me = some h)
    (hc : c (h.getX a) (h.getX b) = true) : branch off b a c s = jumpTo (branchTarget h off) h s := by
  unfold branch
  rw [withHart_some _ hm, if_pos hc]

theorem branch_passed {s : State} {h : Hart} (off : BitVec 13) (b a : XIx) (c : Word → Word → Bool)
    (hm : s.me = some h) (hc : c (h.getX a) (h.getX b) = false) : branch off b a c s = .next (s.setMe h.retire) := by
  unfold branch
  rw [withHart_some _ hm, if_neg (by simp [hc])]

/-! ## Memory forms -/

theorem load_next {s s1 s2 : State} {h : Hart} {c : Acc × FilterEntry × Nat} {x n : Nat} {ext : Nat → Word}
    {off : BitVec 8} {o : Orient} {g : GIx} {base d : XIx} (hm : s.me = some h)
    (hc : checkReq (scalarReq .read h off o g base n) h true s = .ok c s1)
    (hr : readCell c.1 c.2.1 c.2.2 n false s1 = .ok x s2) :
    load n ext off o g base d s = .next (s2.setMe ((h.setX d (ext x)).retire)) := by
  unfold load
  rw [withHart_some _ hm, hc, Res.bind_ok, hr, Res.bind_ok]
  rfl

/-- A check that fails is taken as its trap. -/
theorem load_traps {s s1 : State} {h : Hart} {t : FRec} {n : Nat} {ext : Nat → Word} {off : BitVec 8} {o : Orient}
    {g : GIx} {base d : XIx} (hm : s.me = some h)
    (hc : checkReq (scalarReq .read h off o g base n) h true s = .stop (.trap t) s1) :
    load n ext off o g base d s = .next (takeTrap t s1) := by
  unfold load
  rw [withHart_some _ hm, hc, Res.bind_stop]
  rfl

/-! ## Vector forms -/

/-- Vector registers that nothing holds: the instruction goes on with the older loads settled. -/
theorem withRegs_free {s : State} {h : Hart} (reads writes : List Nat) (k : Hart → State → Out) (hm : s.me = some h)
    (hf : h.fail = none) (hw : meets (reads ++ writes) ((s.core s.myCore).pendingFollows s.mySlot) = false) :
    withRegs reads writes s k = k (h.settleFor (reads ++ writes)) s := by
  unfold withRegs
  rw [withHart_some _ hm]
  simp only [hf, hw]
  rfl

theorem withVec_free {s : State} {h : Hart} (reads writes : List Nat) (k : Hart → State → Out) (hm : s.me = some h)
    (hf : h.fail = none)
    (hw : meets (reads ++ h.maskRegs ++ writes) ((s.core s.myCore).pendingFollows s.mySlot) = false) :
    withVec reads writes s k = k (h.settleFor (reads ++ h.maskRegs ++ writes)) s := by
  unfold withVec
  rw [withHart_some _ hm, withRegs_free _ _ _ hm hf hw]

/-- With no pending loads or matrix instructions there is nothing to settle. -/
theorem Hart.settleFor_idle {h : Hart} (regs : List Nat) (hl : h.loads = []) (hm : h.mats = []) :
    h.settleFor regs = h := by
  unfold Hart.settleFor
  rw [hl, hm]
  rfl

/-- No element raises a flag whose trap is enabled: every result is written and the flags accrue. -/
theorem deliverElems_next (d w : Nat) (es : List (Nat × ERes)) (h : Hart) (s : State)
    (hn : ∀ e ∈ es, e.2.flags &&& h.trapEnables = 0) :
    deliverElems d w es h s = .next (s.setMe
      (((h.putElems d w (es.map fun e => (e.1, e.2.code))).trimV s.vlen d w !es.isEmpty).accrue
        (BitVec.ofNat 8 (es.foldl (fun f (e : Nat × ERes) => f ||| e.2.flags ||| e.2.quiet) 0))).vdone) := by
  unfold deliverElems
  rw [List.find?_eq_none.mpr (by intro e he; simpa using hn e he)]

/-- An element that does takes the arithmetic trap, and nothing is written (11 R226). -/
theorem deliverElems_trap {d w : Nat} {es : List (Nat × ERes)} {h : Hart} {e : Nat × ERes} (s : State)
    (hf : es.find? (fun e => e.2.flags &&& h.trapEnables ≠ 0) = some e) :
    deliverElems d w es h s = .next (takeTrap { cause := 0x14, elem := e.1 } s) := by
  unfold deliverElems
  simp only [hf]
  rfl

/-- The checks of a vector instruction pass exactly when each of them does (15 R273). -/
theorem vcheck_none {i : Instr} {h : Hart} {q : VReq} :
    vcheck i h q = none ↔ (q.zeroStart = true → h.ctl.vstart = 0) ∧ q.tags = true ∧ (q.mask = true → h.maskOk = true) ∧
      q.round = true ∧ ∀ c ∈ q.caps, h.vl ≤ c := by
  unfold vcheck
  split
  · rename_i h1; simp at h1; simp [h1]
  · rename_i h1
    split
    · rename_i h2; simp at h2; simp [h2]
    · rename_i h2
      split
      · rename_i h3; simp at h3; simp [h3]
      · rename_i h3
        split
        · rename_i h4; simp at h4; simp [h4]
        · rename_i h4
          split
          · rename_i h5
            simp only [List.any_eq_true, decide_eq_true_eq] at h5
            obtain ⟨c, hc, hlt⟩ := h5
            simp only [reduceCtorEq, false_iff]
            intro ⟨_, _, _, _, hall⟩
            exact absurd (hall c hc) (by omega)
          · rename_i h5
            simp at h1 h2 h3 h4 h5
            simp only [true_iff]
            exact ⟨h1, h2, h3, h4, h5⟩

/-! ## Synchronisation -/

/-- A fence that waits for nothing goes on at the machine after its steps. -/
theorem execFence_next {s t : State} {h : Hart} (sc : Scope) (k : FenceKind) (hm : s.me = some h)
    (hf : fenceOp k sc h s = .ok () t) : execFence sc k s = .next (t.setMe h.retire) := by
  unfold execFence
  rw [withHart_some _ hm, hf, Res.bind_ok]
  rfl

/-! ## The permission filter (04 R88, R91; 05 R112) -/

/-- A filled entry stands in the core's filter. -/
theorem State.mem_fillFilter (s : State) (core : Nat) (e : FilterEntry) (batch : List FilterEntry) :
    e ∈ ((s.fillFilter core e batch).core core).filter := by
  unfold State.fillFilter
  dsimp only
  split <;> simp

/-- What a fill answers stands in the filter, with the leaf's page and attributes, and not as pending. -/
theorem confirmedFill_fills {core slot va kind : Nat} {l : Leaf} {s t : State} {e : FilterEntry} {batch : List FilterEntry}
    (h : confirmedFill core slot va kind l s batch = some (e, t)) :
    e ∈ (t.core core).filter ∧ e.space = l.space ∧ e.vbase = l.vbase ∧ e.lg = l.lg ∧ e.attr = l.attr ∧ e.pd = false := by
  unfold confirmedFill at h
  dsimp only at h
  split at h
  · split at h
    · cases h
      exact ⟨State.mem_fillFilter _ _ _ _, rfl, rfl, rfl, rfl, rfl⟩
    · obtain ⟨r, _, hr⟩ := Option.map_eq_some_iff.1 h
      cases hr
      exact ⟨State.mem_fillFilter _ _ _ _, rfl, rfl, rfl, rfl, rfl⟩
  · cases h
    exact ⟨State.mem_fillFilter _ _ _ _, rfl, rfl, rfl, rfl, rfl⟩

/-! ## Which accesses of a store are buffered (06 R121) -/

/-- Marking keeps the accesses and their order. -/
theorem markForced_fst (o b : Bool) (pages : List FilterEntry) (ps : List Piece) :
    (markForced o b pages ps).map (·.1) = ps := by
  induction ps generalizing b pages with
  | nil => rfl
  | cons p t ih => simp [markForced, ih]

/-- An access to a page that is not confirmed goes to the store buffer (05 R98). -/
theorem markForced_buffers {o b : Bool} {pages : List FilterEntry} {ps : List Piece} {q : Piece × Bool}
    (h : q ∈ markForced o b pages ps) (hb : buffers q.1.e = true) : q.2 = true := by
  induction ps generalizing b pages with
  | nil => cases h
  | cons p t ih =>
    simp only [markForced, List.mem_cons] at h
    rcases h with rfl | h
    · simp [show buffers p.e = true from hb]
    · exact ih h

end Sys2Proof.Machine
end

