-- ==== Sys2Proof/Laws/Engine.lean ====
section
/-! SUPPORT. What the copy engine's shared operations can do, said once (spec 19 R343; 09 R175). -/

namespace Sys2Proof.Machine

/-- One element moves exactly when both of its places pass their checks, its source is read, and its destination is
written; a command with a follow-on keeps what it has written. -/
theorem moveElem_ok {core : Nat} {m n : Cmd} {s t : State} : moveElem core m s = .ok n t ↔
    ∃ p x f s1 s2, elemPlaces m core s = .ok p s1 ∧ readElem m.src.w p.1 s1 = .ok x s2 ∧ writeElem m x p.2 s2 = .ok f t ∧
      n = { m.keepOwn core p.2 t with flags := m.flags ||| BitVec.ofNat 8 f }.advance := by
  simp only [moveElem, Res.bind_eq_ok]
  constructor
  · rintro ⟨p, s1, hp, x, s2, hx, f, s3, hf, e⟩
    cases e
    exact ⟨p, x, f, s1, s2, hp, hx, hf, rfl⟩
  · rintro ⟨p, x, f, s1, s2, hp, hx, hf, rfl⟩
    exact ⟨p, s1, hp, x, s2, hx, f, t, hf, rfl⟩

/-- Elements move without a stop exactly one after the other. -/
theorem moveElems_none {core k q : Nat} {b : Cmd × State} {m n : Cmd} {s t : State} (hq : q ≠ 0 ∨ m.midByte = true) :
    moveElems core (k + 1) q b m s = (n, none, t) ↔
      ∃ c u, moveElem core m s = .ok c u ∧
        moveElems core k (q - 1) (if m.midByte then b else (m, s)) c u = (n, none, t) := by
  have hgo : (decide (q = 0) && !m.midByte) = false := by
    rcases hq with h | h <;> simp [h]
  simp only [moveElems, hgo]
  cases h : moveElem core m s with
  | ok c u =>
    constructor
    · exact fun e => ⟨c, u, rfl, e⟩
    · rintro ⟨_, _, e, hk⟩
      cases e
      exact hk
  | stop e u => cases e <;> simp

/-- A transfer ends where its elements are done and no byte is left half-way. -/
theorem moveElems_done {core k : Nat} {b : Cmd × State} {m : Cmd} {s : State} (hm : m.midByte = false) :
    moveElems core (k + 1) 0 b m s = (m, none, s) := by simp [moveElems, hm]

/-- A command's place, flags and rows are all that an element's move changes of it. -/
theorem Cmd.advance_c (m : Cmd) : m.advance.c = m.c := by
  unfold Cmd.advance
  split <;> rfl

theorem Cmd.advance_follow (m : Cmd) : m.advance.follow = m.follow := by
  unfold Cmd.advance
  split <;> rfl

end Sys2Proof.Machine
end

