-- ==== Sys2Proof/Laws/PerInstr.lean ====
section
/-! SUPPORT. The family WordFits: every instruction's word, as the encoder builds it, fits in 32 bits, so that the word of
an instruction loses no field (12 R231). -/

namespace Sys2Proof.Laws

theorem encR_lt {op d a b f : Nat} {h : Hint} (ho : op < 128) (hd : d < 64) (ha : a < 64) (hb : b < 64) (hf : f < 32) :
    encR op d a b f h < 2 ^ 32 := by
  have := h.isLt
  unfold encR
  omega

theorem encI_lt {op d a imm : Nat} (ho : op < 128) (hd : d < 64) (ha : a < 64) (hi : imm < 2 ^ 13) :
    encI op d a imm < 2 ^ 32 := by
  unfold encI
  omega

theorem encU_lt {op d imm : Nat} (ho : op < 128) (hd : d < 64) (hi : imm < 2 ^ 19) : encU op d imm < 2 ^ 32 := by
  unfold encU
  omega

theorem encM_lt {op d base g o off : Nat} (ho : op < 128) (hd : d < 64) (hb : base < 32) (hg : g < 16) (hr : o < 4)
    (hf : off < 256) : encM op d base g o off < 2 ^ 32 := by
  unfold encM
  omega

theorem encT_lt {op d a b df asp bsp z : Nat} {h : Hint} (ho : op < 128) (hd : d < 64) (ha : a < 64) (hb : b < 64)
    (hf : df < 4) (hp : asp < 2) (hq : bsp < 2) (hz : z < 2) : encT op d a b df asp bsp z h < 2 ^ 32 := by
  have := h.isLt
  unfold encT
  omega

theorem orient_code_lt (o : Orient) : o.code < 4 := by cases o <;> decide

theorem scope_code_lt (a : Scope) : a.code < 5 := by cases a <;> decide

theorem ascope_code_lt (a : AScope) : a.code < 4 := by cases a <;> decide

theorem order_code_lt (o : Order) : o.code < 2 := by cases o <;> decide

theorem fence_code_lt (k : FenceKind) : k.code < 4 := by cases k <;> decide

theorem flow_code_lt (f : Flow) : f.code < 3 := by cases f <;> decide

theorem rcode_code_lt (r : RCode) : r.code < 7 := by cases r <;> decide

theorem cond_code_lt (c : Cond) : c.code < 8 := by cases c <;> decide

theorem half_code_lt (a : Half) : a.code < 2 := by cases a <;> decide

theorem matOp_field_lt (a : MatOp) : a.field < 64 := by
  cases a <;> (simp only [MatOp.field]; omega)

theorem matOp_spBit_lt (a : MatOp) : a.spBit < 2 := by
  cases a <;> (simp only [MatOp.spBit]; omega)

theorem creg_num_lt (c : CReg) : c.num < 2 ^ 13 := by cases c <;> decide

theorem encAmo_lt {op : Nat} (loc : AmoLoc) (w : AmoWidth) (base d : XIx) (ho : op < 16) :
    encAmo loc w base d op < 2 ^ 32 := by
  have h1 := base.isLt
  have h2 := d.isLt
  rcases loc with ⟨sc, o, g⟩ | _
  · have h3 := g.isLt
    have h4 := ascope_code_lt sc
    have h5 := orient_code_lt o
    cases w <;> (simp only [encAmo]; apply encM_lt <;> omega)
  · cases w <;> (simp only [encAmo]; apply encM_lt <;> omega)

theorem encKmov_lt (h : Hint) (f : KmovForm) : encKmov h f < 2 ^ 32 := by
  cases f <;> (simp only [encKmov]; apply encR_lt <;> omega)

namespace WordFits

/-- The word of an instruction fits in 32 bits. -/
def Statement (i : Instr) : Prop := encodeNat i < 2 ^ 32

theorem add : ∀ h d a b, Statement (.add h d a b) := by
  intro h d a b
  show encR 0x01 d.toNat a.toNat b.toNat 0 h < 2 ^ 32
  apply encR_lt <;> omega

theorem sub : ∀ h d a b, Statement (.sub h d a b) := by
  intro h d a b
  show encR 0x01 d.toNat a.toNat b.toNat 1 h < 2 ^ 32
  apply encR_lt <;> omega

theorem and : ∀ h d a b, Statement (.and h d a b) := by
  intro h d a b
  show encR 0x01 d.toNat a.toNat b.toNat 2 h < 2 ^ 32
  apply encR_lt <;> omega

theorem or : ∀ h d a b, Statement (.or h d a b) := by
  intro h d a b
  show encR 0x01 d.toNat a.toNat b.toNat 3 h < 2 ^ 32
  apply encR_lt <;> omega

theorem xor : ∀ h d a b, Statement (.xor h d a b) := by
  intro h d a b
  show encR 0x01 d.toNat a.toNat b.toNat 4 h < 2 ^ 32
  apply encR_lt <;> omega

theorem sll : ∀ h d a b, Statement (.sll h d a b) := by
  intro h d a b
  show encR 0x01 d.toNat a.toNat b.toNat 5 h < 2 ^ 32
  apply encR_lt <;> omega

theorem srl : ∀ h d a b, Statement (.srl h d a b) := by
  intro h d a b
  show encR 0x01 d.toNat a.toNat b.toNat 6 h < 2 ^ 32
  apply encR_lt <;> omega

theorem sra : ∀ h d a b, Statement (.sra h d a b) := by
  intro h d a b
  show encR 0x01 d.toNat a.toNat b.toNat 7 h < 2 ^ 32
  apply encR_lt <;> omega

theorem slt : ∀ h d a b, Statement (.slt h d a b) := by
  intro h d a b
  show encR 0x01 d.toNat a.toNat b.toNat 8 h < 2 ^ 32
  apply encR_lt <;> omega

theorem sltn : ∀ h d a b, Statement (.sltn h d a b) := by
  intro h d a b
  show encR 0x01 d.toNat a.toNat b.toNat 9 h < 2 ^ 32
  apply encR_lt <;> omega

theorem min : ∀ h d a b, Statement (.min h d a b) := by
  intro h d a b
  show encR 0x01 d.toNat a.toNat b.toNat 10 h < 2 ^ 32
  apply encR_lt <;> omega

theorem max : ∀ h d a b, Statement (.max h d a b) := by
  intro h d a b
  show encR 0x01 d.toNat a.toNat b.toNat 11 h < 2 ^ 32
  apply encR_lt <;> omega

theorem minn : ∀ h d a b, Statement (.minn h d a b) := by
  intro h d a b
  show encR 0x01 d.toNat a.toNat b.toNat 12 h < 2 ^ 32
  apply encR_lt <;> omega

theorem maxn : ∀ h d a b, Statement (.maxn h d a b) := by
  intro h d a b
  show encR 0x01 d.toNat a.toNat b.toNat 13 h < 2 ^ 32
  apply encR_lt <;> omega

theorem clz : ∀ h d a, Statement (.clz h d a) := by
  intro h d a
  show encR 0x01 d.toNat a.toNat 0 14 h < 2 ^ 32
  apply encR_lt <;> omega

theorem ctz : ∀ h d a, Statement (.ctz h d a) := by
  intro h d a
  show encR 0x01 d.toNat a.toNat 0 15 h < 2 ^ 32
  apply encR_lt <;> omega

theorem popc : ∀ h d a, Statement (.popc h d a) := by
  intro h d a
  show encR 0x01 d.toNat a.toNat 0 16 h < 2 ^ 32
  apply encR_lt <;> omega

theorem mul : ∀ h d a b, Statement (.mul h d a b) := by
  intro h d a b
  show encR 0x01 d.toNat a.toNat b.toNat 17 h < 2 ^ 32
  apply encR_lt <;> omega

theorem mulh : ∀ h d a b, Statement (.mulh h d a b) := by
  intro h d a b
  show encR 0x01 d.toNat a.toNat b.toNat 18 h < 2 ^ 32
  apply encR_lt <;> omega

theorem mulhn : ∀ h d a b, Statement (.mulhn h d a b) := by
  intro h d a b
  show encR 0x01 d.toNat a.toNat b.toNat 19 h < 2 ^ 32
  apply encR_lt <;> omega

theorem div : ∀ h d a b, Statement (.div h d a b) := by
  intro h d a b
  show encR 0x01 d.toNat a.toNat b.toNat 20 h < 2 ^ 32
  apply encR_lt <;> omega

theorem divn : ∀ h d a b, Statement (.divn h d a b) := by
  intro h d a b
  show encR 0x01 d.toNat a.toNat b.toNat 21 h < 2 ^ 32
  apply encR_lt <;> omega

theorem rem : ∀ h d a b, Statement (.rem h d a b) := by
  intro h d a b
  show encR 0x01 d.toNat a.toNat b.toNat 22 h < 2 ^ 32
  apply encR_lt <;> omega

theorem remn : ∀ h d a b, Statement (.remn h d a b) := by
  intro h d a b
  show encR 0x01 d.toNat a.toNat b.toNat 23 h < 2 ^ 32
  apply encR_lt <;> omega

theorem addi : ∀ imm a d, Statement (.addi imm a d) := by
  intro imm a d
  show encI 0x02 d.toNat a.toNat imm.toNat < 2 ^ 32
  apply encI_lt <;> omega

theorem andi : ∀ imm a d, Statement (.andi imm a d) := by
  intro imm a d
  show encI 0x03 d.toNat a.toNat imm.toNat < 2 ^ 32
  apply encI_lt <;> omega

theorem ori : ∀ imm a d, Statement (.ori imm a d) := by
  intro imm a d
  show encI 0x04 d.toNat a.toNat imm.toNat < 2 ^ 32
  apply encI_lt <;> omega

theorem xori : ∀ imm a d, Statement (.xori imm a d) := by
  intro imm a d
  show encI 0x05 d.toNat a.toNat imm.toNat < 2 ^ 32
  apply encI_lt <;> omega

theorem slti : ∀ imm a d, Statement (.slti imm a d) := by
  intro imm a d
  show encI 0x06 d.toNat a.toNat imm.toNat < 2 ^ 32
  apply encI_lt <;> omega

theorem sltin : ∀ imm a d, Statement (.sltin imm a d) := by
  intro imm a d
  show encI 0x07 d.toNat a.toNat imm.toNat < 2 ^ 32
  apply encI_lt <;> omega

theorem slli : ∀ n a d, Statement (.slli n a d) := by
  intro n a d
  show encI 0x08 d.toNat a.toNat n.toNat < 2 ^ 32
  apply encI_lt <;> omega

theorem srli : ∀ n a d, Statement (.srli n a d) := by
  intro n a d
  show encI 0x09 d.toNat a.toNat n.toNat < 2 ^ 32
  apply encI_lt <;> omega

theorem srai : ∀ n a d, Statement (.srai n a d) := by
  intro n a d
  show encI 0x0A d.toNat a.toNat n.toNat < 2 ^ 32
  apply encI_lt <;> omega

theorem lih : ∀ imm d, Statement (.lih imm d) := by
  intro imm d
  show encU 0x0B d.toNat imm.toNat < 2 ^ 32
  apply encU_lt <;> omega

theorem addpc : ∀ imm d, Statement (.addpc imm d) := by
  intro imm d
  show encU 0x0C d.toNat imm.toNat < 2 ^ 32
  apply encU_lt <;> omega

theorem ldb : ∀ off o g base d, Statement (.ldb off o g base d) := by
  intro off o g base d
  show encM 0x10 d.toNat base.toNat g.toNat o.code off.toNat < 2 ^ 32
  have := orient_code_lt o
  apply encM_lt <;> omega

theorem ldh : ∀ off o g base d, Statement (.ldh off o g base d) := by
  intro off o g base d
  show encM 0x11 d.toNat base.toNat g.toNat o.code off.toNat < 2 ^ 32
  have := orient_code_lt o
  apply encM_lt <;> omega

theorem ldw : ∀ off o g base d, Statement (.ldw off o g base d) := by
  intro off o g base d
  show encM 0x12 d.toNat base.toNat g.toNat o.code off.toNat < 2 ^ 32
  have := orient_code_lt o
  apply encM_lt <;> omega

theorem ldd : ∀ off o g base d, Statement (.ldd off o g base d) := by
  intro off o g base d
  show encM 0x13 d.toNat base.toNat g.toNat o.code off.toNat < 2 ^ 32
  have := orient_code_lt o
  apply encM_lt <;> omega

theorem ldbn : ∀ off o g base d, Statement (.ldbn off o g base d) := by
  intro off o g base d
  show encM 0x14 d.toNat base.toNat g.toNat o.code off.toNat < 2 ^ 32
  have := orient_code_lt o
  apply encM_lt <;> omega

theorem ldhn : ∀ off o g base d, Statement (.ldhn off o g base d) := by
  intro off o g base d
  show encM 0x15 d.toNat base.toNat g.toNat o.code off.toNat < 2 ^ 32
  have := orient_code_lt o
  apply encM_lt <;> omega

theorem ldwn : ∀ off o g base d, Statement (.ldwn off o g base d) := by
  intro off o g base d
  show encM 0x16 d.toNat base.toNat g.toNat o.code off.toNat < 2 ^ 32
  have := orient_code_lt o
  apply encM_lt <;> omega

theorem stb : ∀ off o g base d, Statement (.stb off o g base d) := by
  intro off o g base d
  show encM 0x17 d.toNat base.toNat g.toNat o.code off.toNat < 2 ^ 32
  have := orient_code_lt o
  apply encM_lt <;> omega

theorem sth : ∀ off o g base d, Statement (.sth off o g base d) := by
  intro off o g base d
  show encM 0x18 d.toNat base.toNat g.toNat o.code off.toNat < 2 ^ 32
  have := orient_code_lt o
  apply encM_lt <;> omega

theorem stw : ∀ off o g base d, Statement (.stw off o g base d) := by
  intro off o g base d
  show encM 0x19 d.toNat base.toNat g.toNat o.code off.toNat < 2 ^ 32
  have := orient_code_lt o
  apply encM_lt <;> omega

theorem std : ∀ off o g base d, Statement (.std off o g base d) := by
  intro off o g base d
  show encM 0x1A d.toNat base.toNat g.toNat o.code off.toNat < 2 ^ 32
  have := orient_code_lt o
  apply encM_lt <;> omega

theorem amoadd : ∀ loc w base d, Statement (.amoadd loc w base d) := by
  intro loc w base d
  show encAmo loc w base d 0 < 2 ^ 32
  exact encAmo_lt _ _ _ _ (by omega)

theorem amoand : ∀ loc w base d, Statement (.amoand loc w base d) := by
  intro loc w base d
  show encAmo loc w base d 1 < 2 ^ 32
  exact encAmo_lt _ _ _ _ (by omega)

theorem amoor : ∀ loc w base d, Statement (.amoor loc w base d) := by
  intro loc w base d
  show encAmo loc w base d 2 < 2 ^ 32
  exact encAmo_lt _ _ _ _ (by omega)

theorem amoxor : ∀ loc w base d, Statement (.amoxor loc w base d) := by
  intro loc w base d
  show encAmo loc w base d 3 < 2 ^ 32
  exact encAmo_lt _ _ _ _ (by omega)

theorem amomin : ∀ loc w base d, Statement (.amomin loc w base d) := by
  intro loc w base d
  show encAmo loc w base d 4 < 2 ^ 32
  exact encAmo_lt _ _ _ _ (by omega)

theorem amomax : ∀ loc w base d, Statement (.amomax loc w base d) := by
  intro loc w base d
  show encAmo loc w base d 5 < 2 ^ 32
  exact encAmo_lt _ _ _ _ (by omega)

theorem amominn : ∀ loc w base d, Statement (.amominn loc w base d) := by
  intro loc w base d
  show encAmo loc w base d 6 < 2 ^ 32
  exact encAmo_lt _ _ _ _ (by omega)

theorem amomaxn : ∀ loc w base d, Statement (.amomaxn loc w base d) := by
  intro loc w base d
  show encAmo loc w base d 7 < 2 ^ 32
  exact encAmo_lt _ _ _ _ (by omega)

theorem amoswp : ∀ loc w base d, Statement (.amoswp loc w base d) := by
  intro loc w base d
  show encAmo loc w base d 8 < 2 ^ 32
  exact encAmo_lt _ _ _ _ (by omega)

theorem amocas : ∀ loc w base d, Statement (.amocas loc w base d) := by
  intro loc w base d
  show encAmo loc w base d 9 < 2 ^ 32
  exact encAmo_lt _ _ _ _ (by omega)

theorem amofadd : ∀ loc w base d, Statement (.amofadd loc w base d) := by
  intro loc w base d
  show encAmo loc w base d 10 < 2 ^ 32
  exact encAmo_lt _ _ _ _ (by omega)

theorem beq : ∀ off b a, Statement (.beq off b a) := by
  intro off b a
  show encI 0x20 a.toNat b.toNat off.toNat < 2 ^ 32
  apply encI_lt <;> omega

theorem bne : ∀ off b a, Statement (.bne off b a) := by
  intro off b a
  show encI 0x21 a.toNat b.toNat off.toNat < 2 ^ 32
  apply encI_lt <;> omega

theorem blt : ∀ off b a, Statement (.blt off b a) := by
  intro off b a
  show encI 0x22 a.toNat b.toNat off.toNat < 2 ^ 32
  apply encI_lt <;> omega

theorem bge : ∀ off b a, Statement (.bge off b a) := by
  intro off b a
  show encI 0x23 a.toNat b.toNat off.toNat < 2 ^ 32
  apply encI_lt <;> omega

theorem bltn : ∀ off b a, Statement (.bltn off b a) := by
  intro off b a
  show encI 0x24 a.toNat b.toNat off.toNat < 2 ^ 32
  apply encI_lt <;> omega

theorem bgen : ∀ off b a, Statement (.bgen off b a) := by
  intro off b a
  show encI 0x25 a.toNat b.toNat off.toNat < 2 ^ 32
  apply encI_lt <;> omega

theorem jal : ∀ imm d, Statement (.jal imm d) := by
  intro imm d
  show encU 0x26 d.toNat imm.toNat < 2 ^ 32
  apply encU_lt <;> omega

theorem jalr : ∀ imm a d, Statement (.jalr imm a d) := by
  intro imm a d
  show encI 0x27 d.toNat a.toNat imm.toNat < 2 ^ 32
  apply encI_lt <;> omega

theorem mfc : ∀ c d, Statement (.mfc c d) := by
  intro c d
  show encI 0x28 d.toNat 0 c.num < 2 ^ 32
  have := creg_num_lt c
  apply encI_lt <;> omega

theorem mtc : ∀ c a, Statement (.mtc c a) := by
  intro c a
  show encI 0x29 0 a.toNat c.num < 2 ^ 32
  have := creg_num_lt c
  apply encI_lt <;> omega

theorem mfg : ∀ h half g d, Statement (.mfg h half g d) := by
  intro h half g d
  show encR 0x2A d.toNat g.toNat 0 half.code h < 2 ^ 32
  have := half_code_lt half
  apply encR_lt <;> omega

theorem mtg : ∀ h half g b, Statement (.mtg h half g b) := by
  intro h half g b
  show encR 0x2A 0 g.toNat b.toNat (2 + half.code) h < 2 ^ 32
  have := half_code_lt half
  apply encR_lt <;> omega

theorem trap : ∀ h, Statement (.trap h) := by
  intro h
  show encR 0x2B 0 0 0 0 h < 2 ^ 32
  apply encR_lt <;> omega

theorem brk : ∀ h, Statement (.brk h) := by
  intro h
  show encR 0x2B 0 0 0 1 h < 2 ^ 32
  apply encR_lt <;> omega

theorem rts : ∀ h, Statement (.rts h) := by
  intro h
  show encR 0x2B 0 0 0 2 h < 2 ^ 32
  apply encR_lt <;> omega

theorem fence : ∀ h sc k, Statement (.fence h sc k) := by
  intro h sc k
  show encR 0x2C 0 0 0 (k.code + 4 * sc.code) h < 2 ^ 32
  have := fence_code_lt k
  have := scope_code_lt sc
  apply encR_lt <;> omega

theorem waitc : ∀ l st c m, Statement (.waitc l st c m) := by
  intro l st c m
  show encU 0x2D 0 (l.toNat + st.toNat * 2 ^ 4 + c.toNat * 2 ^ 8 + m.toNat * 2 ^ 12) < 2 ^ 32
  apply encU_lt <;> omega

theorem waita : ∀ h d a b, Statement (.waita h d a b) := by
  intro h d a b
  show encR 0x2E d.toNat a.toNat b.toNat 0 h < 2 ^ 32
  apply encR_lt <;> omega

theorem waitaAny : ∀ h d a b, Statement (.waitaAny h d a b) := by
  intro h d a b
  show encR 0x2E d.toNat a.toNat b.toNat 1 h < 2 ^ 32
  apply encR_lt <;> omega

theorem bar : ∀ h sc, Statement (.bar h sc) := by
  intro h sc
  show encR 0x2F 0 0 0 (4 * sc.code) h < 2 ^ 32
  have := scope_code_lt sc
  apply encR_lt <;> omega

theorem vsetl : ∀ h d a b, Statement (.vsetl h d a b) := by
  intro h d a b
  show encR 0x30 d.toNat a.toNat b.toNat 0 h < 2 ^ 32
  apply encR_lt <;> omega

theorem vtag : ∀ t d, Statement (.vtag t d) := by
  intro t d
  show encI 0x31 d.toNat 0 t.toNat < 2 ^ 32
  apply encI_lt <;> omega

theorem vand : ∀ h d a b, Statement (.vand h d a b) := by
  intro h d a b
  show encR 0x32 d.toNat a.toNat b.toNat 0 h < 2 ^ 32
  apply encR_lt <;> omega

theorem vor : ∀ h d a b, Statement (.vor h d a b) := by
  intro h d a b
  show encR 0x32 d.toNat a.toNat b.toNat 1 h < 2 ^ 32
  apply encR_lt <;> omega

theorem vxor : ∀ h d a b, Statement (.vxor h d a b) := by
  intro h d a b
  show encR 0x32 d.toNat a.toNat b.toNat 2 h < 2 ^ 32
  apply encR_lt <;> omega

theorem vnot : ∀ h d a, Statement (.vnot h d a) := by
  intro h d a
  show encR 0x32 d.toNat a.toNat 0 3 h < 2 ^ 32
  apply encR_lt <;> omega

theorem vshl : ∀ h d a b, Statement (.vshl h d a b) := by
  intro h d a b
  show encR 0x32 d.toNat a.toNat b.toNat 4 h < 2 ^ 32
  apply encR_lt <;> omega

theorem vshr : ∀ h d a b, Statement (.vshr h d a b) := by
  intro h d a b
  show encR 0x32 d.toNat a.toNat b.toNat 5 h < 2 ^ 32
  apply encR_lt <;> omega

theorem vshra : ∀ h d a b, Statement (.vshra h d a b) := by
  intro h d a b
  show encR 0x32 d.toNat a.toNat b.toNat 6 h < 2 ^ 32
  apply encR_lt <;> omega

theorem vwsl : ∀ h d a b, Statement (.vwsl h d a b) := by
  intro h d a b
  show encR 0x32 d.toNat a.toNat b.toNat 7 h < 2 ^ 32
  apply encR_lt <;> omega

theorem vwsr : ∀ h d a b, Statement (.vwsr h d a b) := by
  intro h d a b
  show encR 0x32 d.toNat a.toNat b.toNat 8 h < 2 ^ 32
  apply encR_lt <;> omega

theorem vfsl : ∀ h d a b, Statement (.vfsl h d a b) := by
  intro h d a b
  show encR 0x32 d.toNat a.toNat b.toNat 9 h < 2 ^ 32
  apply encR_lt <;> omega

theorem vfsr : ∀ h d a b, Statement (.vfsr h d a b) := by
  intro h d a b
  show encR 0x32 d.toNat a.toNat b.toNat 10 h < 2 ^ 32
  apply encR_lt <;> omega

theorem vsel : ∀ h d a b, Statement (.vsel h d a b) := by
  intro h d a b
  show encR 0x32 d.toNat a.toNat b.toNat 11 h < 2 ^ 32
  apply encR_lt <;> omega

theorem vmov : ∀ h d a, Statement (.vmov h d a) := by
  intro h d a
  show encR 0x32 d.toNat a.toNat 0 12 h < 2 ^ 32
  apply encR_lt <;> omega

theorem vsplat : ∀ h d a, Statement (.vsplat h d a) := by
  intro h d a
  show encR 0x32 d.toNat a.toNat 0 13 h < 2 ^ 32
  apply encR_lt <;> omega

theorem vmvx : ∀ h d a b, Statement (.vmvx h d a b) := by
  intro h d a b
  show encR 0x32 d.toNat a.toNat b.toNat 14 h < 2 ^ 32
  apply encR_lt <;> omega

theorem vmxv : ∀ h d a b, Statement (.vmxv h d a b) := by
  intro h d a b
  show encR 0x32 d.toNat a.toNat b.toNat 15 h < 2 ^ 32
  apply encR_lt <;> omega

theorem vslu : ∀ h d a b, Statement (.vslu h d a b) := by
  intro h d a b
  show encR 0x32 d.toNat a.toNat b.toNat 16 h < 2 ^ 32
  apply encR_lt <;> omega

theorem vsld : ∀ h d a b, Statement (.vsld h d a b) := by
  intro h d a b
  show encR 0x32 d.toNat a.toNat b.toNat 17 h < 2 ^ 32
  apply encR_lt <;> omega

theorem vperm : ∀ h d a b, Statement (.vperm h d a b) := by
  intro h d a b
  show encR 0x32 d.toNat a.toNat b.toNat 18 h < 2 ^ 32
  apply encR_lt <;> omega

theorem vrev : ∀ h d a, Statement (.vrev h d a) := by
  intro h d a
  show encR 0x32 d.toNat a.toNat 0 19 h < 2 ^ 32
  apply encR_lt <;> omega

theorem vmcnt : ∀ h d a, Statement (.vmcnt h d a) := by
  intro h d a
  show encR 0x32 d.toNat a.toNat 0 20 h < 2 ^ 32
  apply encR_lt <;> omega

theorem vmfst : ∀ h d a, Statement (.vmfst h d a) := by
  intro h d a
  show encR 0x32 d.toNat a.toNat 0 21 h < 2 ^ 32
  apply encR_lt <;> omega

theorem vrand : ∀ h d a, Statement (.vrand h d a) := by
  intro h d a
  show encR 0x32 d.toNat a.toNat 0 22 h < 2 ^ 32
  apply encR_lt <;> omega

theorem vror : ∀ h d a, Statement (.vror h d a) := by
  intro h d a
  show encR 0x32 d.toNat a.toNat 0 23 h < 2 ^ 32
  apply encR_lt <;> omega

theorem vrxor : ∀ h d a, Statement (.vrxor h d a) := by
  intro h d a
  show encR 0x32 d.toNat a.toNat 0 24 h < 2 ^ 32
  apply encR_lt <;> omega

theorem vidx : ∀ step start d, Statement (.vidx step start d) := by
  intro step start d
  show 0x33 + d.toNat * 2 ^ 7 + start.toNat * 2 ^ 13 + step.toNat * 2 ^ 23 < 2 ^ 32
  omega

theorem vcmp : ∀ h c d a b, Statement (.vcmp h c d a b) := by
  intro h c d a b
  show encR 0x34 d.toNat a.toNat b.toNat c.code h < 2 ^ 32
  have := cond_code_lt c
  apply encR_lt <;> omega

theorem vbany : ∀ off a, Statement (.vbany off a) := by
  intro off a
  show encI 0x35 a.toNat 0 off.toNat < 2 ^ 32
  apply encI_lt <;> omega

theorem vbnone : ∀ off a, Statement (.vbnone off a) := by
  intro off a
  show encI 0x36 a.toNat 0 off.toNat < 2 ^ 32
  apply encI_lt <;> omega

theorem vadd : ∀ h r d a b, Statement (.vadd h r d a b) := by
  intro h r d a b
  show encR (0x38 + r.code) d.toNat a.toNat b.toNat 0 h < 2 ^ 32
  have := rcode_code_lt r
  apply encR_lt <;> omega

theorem vsub : ∀ h r d a b, Statement (.vsub h r d a b) := by
  intro h r d a b
  show encR (0x38 + r.code) d.toNat a.toNat b.toNat 1 h < 2 ^ 32
  have := rcode_code_lt r
  apply encR_lt <;> omega

theorem vrsub : ∀ h r d a b, Statement (.vrsub h r d a b) := by
  intro h r d a b
  show encR (0x38 + r.code) d.toNat a.toNat b.toNat 2 h < 2 ^ 32
  have := rcode_code_lt r
  apply encR_lt <;> omega

theorem vmul : ∀ h r d a b, Statement (.vmul h r d a b) := by
  intro h r d a b
  show encR (0x38 + r.code) d.toNat a.toNat b.toNat 3 h < 2 ^ 32
  have := rcode_code_lt r
  apply encR_lt <;> omega

theorem vmulh : ∀ h r d a b, Statement (.vmulh h r d a b) := by
  intro h r d a b
  show encR (0x38 + r.code) d.toNat a.toNat b.toNat 4 h < 2 ^ 32
  have := rcode_code_lt r
  apply encR_lt <;> omega

theorem vdiv : ∀ h r d a b, Statement (.vdiv h r d a b) := by
  intro h r d a b
  show encR (0x38 + r.code) d.toNat a.toNat b.toNat 5 h < 2 ^ 32
  have := rcode_code_lt r
  apply encR_lt <;> omega

theorem vrem : ∀ h r d a b, Statement (.vrem h r d a b) := by
  intro h r d a b
  show encR (0x38 + r.code) d.toNat a.toNat b.toNat 6 h < 2 ^ 32
  have := rcode_code_lt r
  apply encR_lt <;> omega

theorem vmin : ∀ h r d a b, Statement (.vmin h r d a b) := by
  intro h r d a b
  show encR (0x38 + r.code) d.toNat a.toNat b.toNat 7 h < 2 ^ 32
  have := rcode_code_lt r
  apply encR_lt <;> omega

theorem vmax : ∀ h r d a b, Statement (.vmax h r d a b) := by
  intro h r d a b
  show encR (0x38 + r.code) d.toNat a.toNat b.toNat 8 h < 2 ^ 32
  have := rcode_code_lt r
  apply encR_lt <;> omega

theorem vabs : ∀ h r d a, Statement (.vabs h r d a) := by
  intro h r d a
  show encR (0x38 + r.code) d.toNat a.toNat 0 9 h < 2 ^ 32
  have := rcode_code_lt r
  apply encR_lt <;> omega

theorem vneg : ∀ h r d a, Statement (.vneg h r d a) := by
  intro h r d a
  show encR (0x38 + r.code) d.toNat a.toNat 0 10 h < 2 ^ 32
  have := rcode_code_lt r
  apply encR_lt <;> omega

theorem vfma : ∀ h r d a b, Statement (.vfma h r d a b) := by
  intro h r d a b
  show encR (0x38 + r.code) d.toNat a.toNat b.toNat 11 h < 2 ^ 32
  have := rcode_code_lt r
  apply encR_lt <;> omega

theorem vfms : ∀ h r d a b, Statement (.vfms h r d a b) := by
  intro h r d a b
  show encR (0x38 + r.code) d.toNat a.toNat b.toNat 12 h < 2 ^ 32
  have := rcode_code_lt r
  apply encR_lt <;> omega

theorem vfnma : ∀ h r d a b, Statement (.vfnma h r d a b) := by
  intro h r d a b
  show encR (0x38 + r.code) d.toNat a.toNat b.toNat 13 h < 2 ^ 32
  have := rcode_code_lt r
  apply encR_lt <;> omega

theorem vfnms : ∀ h r d a b, Statement (.vfnms h r d a b) := by
  intro h r d a b
  show encR (0x38 + r.code) d.toNat a.toNat b.toNat 14 h < 2 ^ 32
  have := rcode_code_lt r
  apply encR_lt <;> omega

theorem vsqrt : ∀ h r d a, Statement (.vsqrt h r d a) := by
  intro h r d a
  show encR (0x38 + r.code) d.toNat a.toNat 0 15 h < 2 ^ 32
  have := rcode_code_lt r
  apply encR_lt <;> omega

theorem vrcp : ∀ h r d a, Statement (.vrcp h r d a) := by
  intro h r d a
  show encR (0x38 + r.code) d.toNat a.toNat 0 16 h < 2 ^ 32
  have := rcode_code_lt r
  apply encR_lt <;> omega

theorem vrsq : ∀ h r d a, Statement (.vrsq h r d a) := by
  intro h r d a
  show encR (0x38 + r.code) d.toNat a.toNat 0 17 h < 2 ^ 32
  have := rcode_code_lt r
  apply encR_lt <;> omega

theorem vexp2 : ∀ h r d a, Statement (.vexp2 h r d a) := by
  intro h r d a
  show encR (0x38 + r.code) d.toNat a.toNat 0 18 h < 2 ^ 32
  have := rcode_code_lt r
  apply encR_lt <;> omega

theorem vlog2 : ∀ h r d a, Statement (.vlog2 h r d a) := by
  intro h r d a
  show encR (0x38 + r.code) d.toNat a.toNat 0 19 h < 2 ^ 32
  have := rcode_code_lt r
  apply encR_lt <;> omega

theorem vsin : ∀ h r d a, Statement (.vsin h r d a) := by
  intro h r d a
  show encR (0x38 + r.code) d.toNat a.toNat 0 20 h < 2 ^ 32
  have := rcode_code_lt r
  apply encR_lt <;> omega

theorem vcos : ∀ h r d a, Statement (.vcos h r d a) := by
  intro h r d a
  show encR (0x38 + r.code) d.toNat a.toNat 0 21 h < 2 ^ 32
  have := rcode_code_lt r
  apply encR_lt <;> omega

theorem vtanh : ∀ h r d a, Statement (.vtanh h r d a) := by
  intro h r d a
  show encR (0x38 + r.code) d.toNat a.toNat 0 22 h < 2 ^ 32
  have := rcode_code_lt r
  apply encR_lt <;> omega

theorem vrsum : ∀ h r d a, Statement (.vrsum h r d a) := by
  intro h r d a
  show encR (0x38 + r.code) d.toNat a.toNat 0 23 h < 2 ^ 32
  have := rcode_code_lt r
  apply encR_lt <;> omega

theorem vrmin : ∀ h r d a, Statement (.vrmin h r d a) := by
  intro h r d a
  show encR (0x38 + r.code) d.toNat a.toNat 0 24 h < 2 ^ 32
  have := rcode_code_lt r
  apply encR_lt <;> omega

theorem vrmax : ∀ h r d a, Statement (.vrmax h r d a) := by
  intro h r d a
  show encR (0x38 + r.code) d.toNat a.toNat 0 25 h < 2 ^ 32
  have := rcode_code_lt r
  apply encR_lt <;> omega

theorem vrdot : ∀ h r d a b, Statement (.vrdot h r d a b) := by
  intro h r d a b
  show encR (0x38 + r.code) d.toNat a.toNat b.toNat 26 h < 2 ^ 32
  have := rcode_code_lt r
  apply encR_lt <;> omega

theorem vunpk : ∀ h d a b, Statement (.vunpk h d a b) := by
  intro h d a b
  show encR 0x40 d.toNat a.toNat b.toNat 0 h < 2 ^ 32
  apply encR_lt <;> omega

theorem vpkb : ∀ h d a b, Statement (.vpkb h d a b) := by
  intro h d a b
  show encR 0x40 d.toNat a.toNat b.toNat 1 h < 2 ^ 32
  apply encR_lt <;> omega

theorem vlut : ∀ h d a b, Statement (.vlut h d a b) := by
  intro h d a b
  show encR 0x40 d.toNat a.toNat b.toNat 2 h < 2 ^ 32
  apply encR_lt <;> omega

theorem vexpd : ∀ h d a, Statement (.vexpd h d a) := by
  intro h d a
  show encR 0x40 d.toNat a.toNat 0 3 h < 2 ^ 32
  apply encR_lt <;> omega

theorem vcmpr : ∀ h d a, Statement (.vcmpr h d a) := by
  intro h d a
  show encR 0x40 d.toNat a.toNat 0 4 h < 2 ^ 32
  apply encR_lt <;> omega

theorem kmov : ∀ h f, Statement (.kmov h f) := by
  intro h f
  show encKmov h f < 2 ^ 32
  exact encKmov_lt _ _

theorem vcvt : ∀ h r d a, Statement (.vcvt h r d a) := by
  intro h r d a
  show encR (0x48 + r.code) d.toNat a.toNat 0 0 h < 2 ^ 32
  have := rcode_code_lt r
  apply encR_lt <;> omega

theorem vqmx : ∀ h r d a, Statement (.vqmx h r d a) := by
  intro h r d a
  show encR (0x48 + r.code) d.toNat a.toNat 0 1 h < 2 ^ 32
  have := rcode_code_lt r
  apply encR_lt <;> omega

theorem vdqmx : ∀ h r d a k half, Statement (.vdqmx h r d a k half) := by
  intro h r d a k half
  show encR (0x48 + r.code) d.toNat a.toNat (k.toNat + 16 * half.code) 2 h < 2 ^ 32
  have := rcode_code_lt r
  have := half_code_lt half
  apply encR_lt <;> omega

theorem vqef : ∀ h r d a b, Statement (.vqef h r d a b) := by
  intro h r d a b
  show encR (0x48 + r.code) d.toNat a.toNat b.toNat 3 h < 2 ^ 32
  have := rcode_code_lt r
  apply encR_lt <;> omega

theorem vld : ∀ off o g base d, Statement (.vld off o g base d) := by
  intro off o g base d
  show encM 0x50 d.toNat base.toNat g.toNat o.code off.toNat < 2 ^ 32
  have := orient_code_lt o
  apply encM_lt <;> omega

theorem vst : ∀ off o g base d, Statement (.vst off o g base d) := by
  intro off o g base d
  show encM 0x51 d.toNat base.toNat g.toNat o.code off.toNat < 2 ^ 32
  have := orient_code_lt o
  apply encM_lt <;> omega

theorem vlds : ∀ off o g base d, Statement (.vlds off o g base d) := by
  intro off o g base d
  show encM 0x52 d.toNat base.toNat g.toNat o.code off.toNat < 2 ^ 32
  have := orient_code_lt o
  apply encM_lt <;> omega

theorem vsts : ∀ off o g base d, Statement (.vsts off o g base d) := by
  intro off o g base d
  show encM 0x53 d.toNat base.toNat g.toNat o.code off.toNat < 2 ^ 32
  have := orient_code_lt o
  apply encM_lt <;> omega

theorem vld2 : ∀ off o g base d, Statement (.vld2 off o g base d) := by
  intro off o g base d
  show encM 0x54 d.toNat base.toNat g.toNat o.code off.toNat < 2 ^ 32
  have := orient_code_lt o
  apply encM_lt <;> omega

theorem vst2 : ∀ off o g base d, Statement (.vst2 off o g base d) := by
  intro off o g base d
  show encM 0x55 d.toNat base.toNat g.toNat o.code off.toNat < 2 ^ 32
  have := orient_code_lt o
  apply encM_lt <;> omega

theorem vldx : ∀ x o g base d, Statement (.vldx x o g base d) := by
  intro x o g base d
  show encM 0x56 d.toNat base.toNat g.toNat o.code x.toNat < 2 ^ 32
  have := order_code_lt o
  apply encM_lt <;> omega

theorem vstx : ∀ x o g base d, Statement (.vstx x o g base d) := by
  intro x o g base d
  show encM 0x57 d.toNat base.toNat g.toNat o.code x.toNat < 2 ^ 32
  have := order_code_lt o
  apply encM_lt <;> omega

theorem vldf : ∀ off o g base d, Statement (.vldf off o g base d) := by
  intro off o g base d
  show encM 0x58 d.toNat base.toNat g.toNat o.code off.toNat < 2 ^ 32
  have := orient_code_lt o
  apply encM_lt <;> omega

theorem vldw : ∀ off g base d, Statement (.vldw off g base d) := by
  intro off g base d
  show encM 0x59 d.toNat base.toNat g.toNat 0 off.toNat < 2 ^ 32
  apply encM_lt <;> omega

theorem vstw : ∀ off g base d, Statement (.vstw off g base d) := by
  intro off g base d
  show encM 0x5A d.toNat base.toNat g.toNat 0 off.toNat < 2 ^ 32
  apply encM_lt <;> omega

theorem vamoadd : ∀ sc o g base d, Statement (.vamoadd sc o g base d) := by
  intro sc o g base d
  show encM 0x5B d.toNat base.toNat g.toNat o.code (0 + sc.code * 2 ^ 3) < 2 ^ 32
  have := order_code_lt o
  have := ascope_code_lt sc
  apply encM_lt <;> omega

theorem vamomin : ∀ sc o g base d, Statement (.vamomin sc o g base d) := by
  intro sc o g base d
  show encM 0x5B d.toNat base.toNat g.toNat o.code (1 + sc.code * 2 ^ 3) < 2 ^ 32
  have := order_code_lt o
  have := ascope_code_lt sc
  apply encM_lt <;> omega

theorem vamomax : ∀ sc o g base d, Statement (.vamomax sc o g base d) := by
  intro sc o g base d
  show encM 0x5B d.toNat base.toNat g.toNat o.code (2 + sc.code * 2 ^ 3) < 2 ^ 32
  have := order_code_lt o
  have := ascope_code_lt sc
  apply encM_lt <;> omega

theorem vamoand : ∀ sc o g base d, Statement (.vamoand sc o g base d) := by
  intro sc o g base d
  show encM 0x5B d.toNat base.toNat g.toNat o.code (3 + sc.code * 2 ^ 3) < 2 ^ 32
  have := order_code_lt o
  have := ascope_code_lt sc
  apply encM_lt <;> omega

theorem vamoor : ∀ sc o g base d, Statement (.vamoor sc o g base d) := by
  intro sc o g base d
  show encM 0x5B d.toNat base.toNat g.toNat o.code (4 + sc.code * 2 ^ 3) < 2 ^ 32
  have := order_code_lt o
  have := ascope_code_lt sc
  apply encM_lt <;> omega

theorem vamoxor : ∀ sc o g base d, Statement (.vamoxor sc o g base d) := by
  intro sc o g base d
  show encM 0x5B d.toNat base.toNat g.toNat o.code (5 + sc.code * 2 ^ 3) < 2 ^ 32
  have := order_code_lt o
  have := ascope_code_lt sc
  apply encM_lt <;> omega

theorem vamoswp : ∀ sc o g base d, Statement (.vamoswp sc o g base d) := by
  intro sc o g base d
  show encM 0x5B d.toNat base.toNat g.toNat o.code (6 + sc.code * 2 ^ 3) < 2 ^ 32
  have := order_code_lt o
  have := ascope_code_lt sc
  apply encM_lt <;> omega

theorem vamofadd : ∀ sc o g base d, Statement (.vamofadd sc o g base d) := by
  intro sc o g base d
  show encM 0x5B d.toNat base.toNat g.toNat o.code (7 + sc.code * 2 ^ 3) < 2 ^ 32
  have := order_code_lt o
  have := ascope_code_lt sc
  apply encM_lt <;> omega

theorem kld : ∀ off g base d, Statement (.kld off g base d) := by
  intro off g base d
  show encM 0x5C d.toNat base.toNat g.toNat 0 off.toNat < 2 ^ 32
  apply encM_lt <;> omega

theorem kst : ∀ off g base d, Statement (.kst off g base d) := by
  intro off g base d
  show encM 0x5D d.toNat base.toNat g.toNat 0 off.toNat < 2 ^ 32
  apply encM_lt <;> omega

theorem vpf : ∀ off o g base, Statement (.vpf off o g base) := by
  intro off o g base
  show encM 0x5E 0 base.toNat g.toNat o.code off.toNat < 2 ^ 32
  have := orient_code_lt o
  apply encM_lt <;> omega

theorem spld : ∀ h d a b, Statement (.spld h d a b) := by
  intro h d a b
  show encR 0x5F d.toNat a.toNat b.toNat 0 h < 2 ^ 32
  apply encR_lt <;> omega

theorem spst : ∀ h d a b, Statement (.spst h d a b) := by
  intro h d a b
  show encR 0x5F d.toNat a.toNat b.toNat 1 h < 2 ^ 32
  apply encR_lt <;> omega

theorem sxins : ∀ h d a b, Statement (.sxins h d a b) := by
  intro h d a b
  show encR 0x5F d.toNat a.toNat b.toNat 2 h < 2 ^ 32
  apply encR_lt <;> omega

theorem sxlkp : ∀ h d a b, Statement (.sxlkp h d a b) := by
  intro h d a b
  show encR 0x5F d.toNat a.toNat b.toNat 3 h < 2 ^ 32
  apply encR_lt <;> omega

theorem sxacc : ∀ h d a b, Statement (.sxacc h d a b) := by
  intro h d a b
  show encR 0x5F d.toNat a.toNat b.toNat 4 h < 2 ^ 32
  apply encR_lt <;> omega

theorem sxdrn : ∀ h d b, Statement (.sxdrn h d b) := by
  intro h d b
  show encR 0x5F d.toNat 0 b.toNat 5 h < 2 ^ 32
  apply encR_lt <;> omega

theorem sxclr : ∀ h, Statement (.sxclr h) := by
  intro h
  show encR 0x5F 0 0 0 6 h < 2 ^ 32
  apply encR_lt <;> omega

theorem mshape : ∀ depth cols rows, Statement (.mshape depth cols rows) := by
  intro depth cols rows
  show encU 0x60 0 (rows.toNat + cols.toNat * 2 ^ 7 + depth.toNat * 2 ^ 14) < 2 ^ 32
  apply encU_lt <;> omega

theorem mma : ∀ h z df d a b, Statement (.mma h z df d a b) := by
  intro h z df d a b
  show encT 0x61 d.toNat a.field b.field df.code a.spBit b.spBit z.toNat h < 2 ^ 32
  have := matOp_field_lt a
  have := matOp_field_lt b
  have := flow_code_lt df
  have := matOp_spBit_lt a
  have := matOp_spBit_lt b
  have : z.toNat < 2 := by cases z <;> decide
  apply encT_lt <;> omega

theorem mmas : ∀ h z df d a b, Statement (.mmas h z df d a b) := by
  intro h z df d a b
  show encT 0x62 d.toNat a.toNat b.field df.code 0 b.spBit z.toNat h < 2 ^ 32
  have := matOp_field_lt b
  have := flow_code_lt df
  have := matOp_spBit_lt b
  have : z.toNat < 2 := by cases z <;> decide
  apply encT_lt <;> omega

theorem mlast : ∀ h g d b, Statement (.mlast h g d b) := by
  intro h g d b
  show encR 0x63 d.toNat g.toNat b.toNat 0 h < 2 ^ 32
  apply encR_lt <;> omega

theorem xcp : ∀ h a, Statement (.xcp h a) := by
  intro h a
  show encR 0x68 0 a.toNat 0 0 h < 2 ^ 32
  apply encR_lt <;> omega

theorem xcpm : ∀ h a, Statement (.xcpm h a) := by
  intro h a
  show encR 0x68 0 a.toNat 0 1 h < 2 ^ 32
  apply encR_lt <;> omega

theorem xchain : ∀ h g a, Statement (.xchain h g a) := by
  intro h g a
  show encR 0x68 0 a.toNat g.toNat 2 h < 2 ^ 32
  apply encR_lt <;> omega

theorem xstat : ∀ h d, Statement (.xstat h d) := by
  intro h d
  show encR 0x68 d.toNat 0 0 3 h < 2 ^ 32
  apply encR_lt <;> omega

theorem spawn : ∀ h g a, Statement (.spawn h g a) := by
  intro h g a
  show encR 0x69 0 a.toNat g.toNat 0 h < 2 ^ 32
  apply encR_lt <;> omega

theorem join : ∀ h, Statement (.join h) := by
  intro h
  show encR 0x69 0 0 0 1 h < 2 ^ 32
  apply encR_lt <;> omega

theorem endt : ∀ h, Statement (.endt h) := by
  intro h
  show encR 0x69 0 0 0 2 h < 2 ^ 32
  apply encR_lt <;> omega

theorem tackPop : ∀ _x0 _x1, Statement (.tackPop _x0 _x1) := fun _ _ => Nat.two_pow_pos 32

theorem waitaWake : ∀ _x0 _x1, Statement (.waitaWake _x0 _x1) := fun _ _ => Nat.two_pow_pos 32

theorem barrierDepart : ∀ _x0 _x1, Statement (.barrierDepart _x0 _x1) := fun _ _ => Nat.two_pow_pos 32

theorem ringFullDeadlock : ∀ _x0, Statement (.ringFullDeadlock _x0) := fun _ => Nat.two_pow_pos 32

theorem loadComplete : ∀ _x0 _x1, Statement (.loadComplete _x0 _x1) := fun _ _ => Nat.two_pow_pos 32

theorem matrixComplete : ∀ _x0 _x1, Statement (.matrixComplete _x0 _x1) := fun _ _ => Nat.two_pow_pos 32

theorem followOnIssue : ∀ _x0 _x1, Statement (.followOnIssue _x0 _x1) := fun _ _ => Nat.two_pow_pos 32

theorem followOnComplete : ∀ _x0 _x1, Statement (.followOnComplete _x0 _x1) := fun _ _ => Nat.two_pow_pos 32

theorem copyAcquire : ∀ _x0 _x1, Statement (.copyAcquire _x0 _x1) := fun _ _ => Nat.two_pow_pos 32

theorem copyTransfer : ∀ _x0 _x1, Statement (.copyTransfer _x0 _x1) := fun _ _ => Nat.two_pow_pos 32

theorem copyRelease : ∀ _x0 _x1, Statement (.copyRelease _x0 _x1) := fun _ _ => Nat.two_pow_pos 32

theorem eyeletWrite : ∀ _x0 _x1, Statement (.eyeletWrite _x0 _x1) := fun _ _ => Nat.two_pow_pos 32

theorem chainRecordRead : ∀ _x0 _x1, Statement (.chainRecordRead _x0 _x1) := fun _ _ => Nat.two_pow_pos 32

theorem walkComplete : ∀ _x0 _x1 _x2, Statement (.walkComplete _x0 _x1 _x2) := fun _ _ _ => Nat.two_pow_pos 32

theorem probeAcknowledgement : ∀ _x0 _x1 _x2, Statement (.probeAcknowledgement _x0 _x1 _x2) := fun _ _ _ => Nat.two_pow_pos 32

theorem probeRefusal : ∀ _x0 _x1 _x2, Statement (.probeRefusal _x0 _x1 _x2) := fun _ _ _ => Nat.two_pow_pos 32

theorem faultEntryPost : ∀ _x0, Statement (.faultEntryPost _x0) := fun _ => Nat.two_pow_pos 32

theorem storeBufferDrain : ∀ _x0 _x1, Statement (.storeBufferDrain _x0 _x1) := fun _ _ => Nat.two_pow_pos 32

theorem deferredStoreTrap : ∀ _x0 _x1, Statement (.deferredStoreTrap _x0 _x1) := fun _ _ => Nat.two_pow_pos 32

theorem cacheFill : ∀ _x0, Statement (.cacheFill _x0) := fun _ => Nat.two_pow_pos 32

theorem eviction : ∀ _x0 _x1 _x2 _x3, Statement (.eviction _x0 _x1 _x2 _x3) := fun _ _ _ _ => Nat.two_pow_pos 32

theorem writeBackMerge : ∀ _x0 _x1, Statement (.writeBackMerge _x0 _x1) := fun _ _ => Nat.two_pow_pos 32

theorem bypassWriteAck : ∀ _x0, Statement (.bypassWriteAck _x0) := fun _ => Nat.two_pow_pos 32

theorem nameRecall : ∀ _x0 _x1, Statement (.nameRecall _x0 _x1) := fun _ _ => Nat.two_pow_pos 32

theorem eccError : ∀ _x0 _x1 _x2 _x3 _x4, Statement (.eccError _x0 _x1 _x2 _x3 _x4) := fun _ _ _ _ _ => Nat.two_pow_pos 32

theorem faultDomainEnd : ∀ _x0 _x1, Statement (.faultDomainEnd _x0 _x1) := fun _ _ => Nat.two_pow_pos 32

theorem launchPacketTake : ∀ _x0, Statement (.launchPacketTake _x0) := fun _ => Nat.two_pow_pos 32

theorem launchPlacement : Statement .launchPlacement := Nat.two_pow_pos 32

theorem launchAging : ∀ _x0 _x1, Statement (.launchAging _x0 _x1) := fun _ _ => Nat.two_pow_pos 32

theorem preemption : ∀ _x0, Statement (.preemption _x0) := fun _ => Nat.two_pow_pos 32

theorem contextSave : ∀ _x0 _x1, Statement (.contextSave _x0 _x1) := fun _ _ => Nat.two_pow_pos 32

theorem contextRestore : ∀ _x0 _x1, Statement (.contextRestore _x0 _x1) := fun _ _ => Nat.two_pow_pos 32

theorem regionRetire : ∀ _x0, Statement (.regionRetire _x0) := fun _ => Nat.two_pow_pos 32

theorem arbiterEpoch : ∀ _x0 _x1, Statement (.arbiterEpoch _x0 _x1) := fun _ _ => Nat.two_pow_pos 32

theorem queueDoorbell : ∀ _x0 _x1, Statement (.queueDoorbell _x0 _x1) := fun _ _ => Nat.two_pow_pos 32

theorem queueHeadWrite : ∀ _x0 _x1, Statement (.queueHeadWrite _x0 _x1) := fun _ _ => Nat.two_pow_pos 32

theorem queueErrClear : ∀ _x0, Statement (.queueErrClear _x0) := fun _ => Nat.two_pow_pos 32

theorem queueEnable : ∀ _x0 _x1, Statement (.queueEnable _x0 _x1) := fun _ _ => Nat.two_pow_pos 32

theorem registerWrite : ∀ _x0 _x1, Statement (.registerWrite _x0 _x1) := fun _ _ => Nat.two_pow_pos 32

theorem hostMemoryRead : ∀ _x0 _x1, Statement (.hostMemoryRead _x0 _x1) := fun _ _ => Nat.two_pow_pos 32

theorem hostMemoryWrite : ∀ _x0 _x1 _x2, Statement (.hostMemoryWrite _x0 _x1 _x2) := fun _ _ _ => Nat.two_pow_pos 32

theorem loadObject : Statement .loadObject := Nat.two_pow_pos 32

theorem unload : Statement .unload := Nat.two_pow_pos 32

theorem rangeHold : Statement .rangeHold := Nat.two_pow_pos 32

theorem rangeFree : Statement .rangeFree := Nat.two_pow_pos 32

theorem spaceUpdate : Statement .spaceUpdate := Nat.two_pow_pos 32

theorem resolveRetry : Statement .resolveRetry := Nat.two_pow_pos 32

theorem resolveFail : Statement .resolveFail := Nat.two_pow_pos 32

theorem endRegion : Statement .endRegion := Nat.two_pow_pos 32

theorem setSavePool : Statement .setSavePool := Nat.two_pow_pos 32

theorem attest : Statement .attest := Nat.two_pow_pos 32

theorem protect : Statement .protect := Nat.two_pow_pos 32

theorem deviceReset : Statement .deviceReset := Nat.two_pow_pos 32

theorem bootDoorbell : ∀ _x0, Statement (.bootDoorbell _x0) := fun _ => Nat.two_pow_pos 32

theorem imageVerifyComplete : Statement .imageVerifyComplete := Nat.two_pow_pos 32

theorem gddrTrainingComplete : ∀ _x0, Statement (.gddrTrainingComplete _x0) := fun _ => Nat.two_pow_pos 32

theorem fullServiceChange : Statement .fullServiceChange := Nat.two_pow_pos 32

theorem linkBringup : ∀ _x0, Statement (.linkBringup _x0) := fun _ => Nat.two_pow_pos 32

theorem linkFlitReceive : ∀ _x0 _x1, Statement (.linkFlitReceive _x0 _x1) := fun _ _ => Nat.two_pow_pos 32

theorem peerRequest : ∀ _x0, Statement (.peerRequest _x0) := fun _ => Nat.two_pow_pos 32

theorem linkFailure : ∀ _x0, Statement (.linkFailure _x0) := fun _ => Nat.two_pow_pos 32

theorem targetAcknowledgement : ∀ _x0, Statement (.targetAcknowledgement _x0) := fun _ => Nat.two_pow_pos 32

end WordFits

end Sys2Proof.Laws
end

