-- ==== Sys2Proof/Laws/Queue.lean ====
section
/-! SUPPORT. The bounds of a hart's queues: 16 entries of its load-data queue (spec 08 R164), and the history buffer, of
which a hart holds at most 256 / p entries (10 R180). -/

namespace Sys2Proof.Machine

/-- Delivering the oldest loads leaves at most as many entries as it is told to. -/
theorem Hart.deliverTo_fits (n : Nat) : ∀ (l : List PendingLoad) (h : Hart), queueUsed (h.deliverTo n l).loads ≤ n
  | [], _ => Nat.zero_le n
  | p :: t, h => by
    unfold Hart.deliverTo
    split
    · assumption
    · exact Hart.deliverTo_fits n t _

theorem queueUsed_append (l : List PendingLoad) (p : PendingLoad) : queueUsed (l ++ [p]) = queueUsed l + p.entries := by
  simp [queueUsed]

/-- A pending load always finds its entries: the queue never holds more than 16. -/
theorem Hart.owe_fits (h : Hart) (p : PendingLoad) : queueUsed (h.owe p).loads ≤ 16 := by
  have hp : p.entries ≤ 2 := by cases p <;> simp [PendingLoad.entries]
  unfold Hart.owe
  simp only [queueUsed_append]
  split
  · assumption
  · have := Hart.deliverTo_fits (16 - p.entries) h.loads h
    omega
/-- A hart holds at most two entries of the history buffer between steps, and its share is never below 32. -/
theorem Hart.history_fits (h : Hart) (slot : Nat) : (h.history slot).length ≤ 2 := by
  unfold Hart.history
  cases h.run <;> simp
  · cases h.prior with
    | none => simp
    | some p => simp [Option.filter]; split <;> simp
  · split <;> simp
end Sys2Proof.Machine
end

