-- ==== Sys2Proof/Tests/Slice0.lean ====
section
/-! SUPPORT. The model's own tests: ill-formed terms that the check refuses, words written from the spec's encoding tables
and what they decode to, single steps whose results the spec's worked cases state, and for each obligation with hypotheses
a witness that meets them. -/

open Sys2Proof Sys2Proof.Machine Sys2Proof.Slice0

namespace Sys2Proof.Tests

set_option Elab.async false

/-! ## Ill-formed terms (12 R233, R238) -/

theorem test_wf_amocas_odd : (Instr.amocas .sp .w32 8 7).wf = false := by decide
theorem test_wf_vslu_odd : (Instr.vslu 0 5 1 7).wf = false := by decide
theorem test_wf_vsld_odd : (Instr.vsld 0 5 1 7).wf = false := by decide
theorem test_wf_vamo_odd : [Instr.vamoadd .d .any 4 7 3, .vamomin .d .any 4 7 3, .vamomax .d .any 4 7 3,
    .vamoand .d .any 4 7 3, .vamoor .d .any 4 7 3, .vamoxor .d .any 4 7 3, .vamoswp .d .any 4 7 3,
    .vamofadd .d .any 4 7 3].all (fun i => !i.wf) = true := by decide
theorem test_wf_spld_odd : (Instr.spld 0 4 9 10).wf = false ∧ (Instr.spst 0 4 9 10).wf = false := by decide
theorem test_wf_mma_odd : (Instr.mma 0 true .op 16 (.reg 0) (.sp 5)).wf = false ∧
    (Instr.mma 0 true .op 16 (.sp 5) (.reg 0)).wf = false ∧ (Instr.mmas 0 true .rw 16 4 (.sp 5)).wf = false := by decide
theorem test_wf_mlast_odd : (Instr.mlast 0 2 40 7).wf = false := by decide
theorem test_wf_xcp_base : (Instr.xcp 0 4).wf = false ∧ (Instr.xcpm 0 9).wf = false := by decide
theorem test_wf_no_core : [Instr.tackPop 384 0, .waitaWake 384 0, .barrierDepart 384 0, .loadComplete 384 0,
    .matrixComplete 384 0, .followOnIssue 384 0, .followOnComplete 384 0, .copyAcquire 384 0, .copyTransfer 384 0,
    .copyRelease 384 0, .eyeletWrite 384 0, .deferredStoreTrap 384 0, .faultDomainEnd 384 0, .contextSave 384 0,
    .contextRestore 384 0, .walkComplete 384 1 0, .probeAcknowledgement 384 1 0, .probeRefusal 384 1 0,
    .storeBufferDrain 384 0, .cacheFill 384, .bypassWriteAck 384, .targetAcknowledgement 384].all
    (fun i => !i.wf) = true := by decide
theorem test_wf_no_slot : [Instr.tackPop 0 8, .waitaWake 0 8, .contextSave 0 8].all (fun i => !i.wf) = true := by decide
theorem test_wf_no_unit : [Instr.eviction .l1 384 1 0, .eviction .l2 48 1 0, .eviction .home 4 1 0, .writeBackMerge .l2 48,
    .nameRecall 4 0, .faultEntryPost 4, .arbiterEpoch 4 []].all (fun i => !i.wf) = true := by decide
theorem test_wf_no_queue : [Instr.queueDoorbell 38 0, .queueHeadWrite 38 0, .queueErrClear 38, .queueEnable 38 true,
    .launchPacketTake 16].all (fun i => !i.wf) = true := by decide
theorem test_wf_no_link : [Instr.linkBringup 18, .linkFlitReceive 18 true, .linkFailure 18].all (fun i => !i.wf) = true := by
  decide

/-! ## Decoding -/

/-- Whether every word decodes to the instruction beside it. -/
def decodesTo (l : List (BitVec 32 × Instr)) : Bool :=
  l.all fun p =>
    match decode p.1 with
    | .ok i => i == p.2
    | .error _ => false

/-- Whether every word is refused for the reason beside it. -/
def refusedAs (l : List (BitVec 32 × DecodeError)) : Bool :=
  l.all fun p =>
    match decode p.1 with
    | .ok _ => false
    | .error e => e == p.2

/-- 12 R231 to R236: words of the register forms. -/
theorem test_decode_register_forms : decodesTo [
    (0b00_00000_011010_010101_010011_0000001, .add 0 19 21 26),
    (0b01_00001_011010_010101_010011_0000001, .sub 1 19 21 26),
    (0b10_00010_011010_010101_010011_0000001, .and 2 19 21 26),
    (0b11_00011_011010_010101_010011_0000001, .or 3 19 21 26),
    (0b00_00100_011010_010101_010011_0000001, .xor 0 19 21 26),
    (0b01_00101_011010_010101_010011_0000001, .sll 1 19 21 26),
    (0b10_00110_011010_010101_010011_0000001, .srl 2 19 21 26),
    (0b11_00111_011010_010101_010011_0000001, .sra 3 19 21 26),
    (0b00_01000_011010_010101_010011_0000001, .slt 0 19 21 26),
    (0b01_01001_011010_010101_010011_0000001, .sltn 1 19 21 26),
    (0b10_01010_011010_010101_010011_0000001, .min 2 19 21 26),
    (0b11_01011_011010_010101_010011_0000001, .max 3 19 21 26),
    (0b00_01100_011010_010101_010011_0000001, .minn 0 19 21 26),
    (0b01_01101_011010_010101_010011_0000001, .maxn 1 19 21 26),
    (0b10_01110000000_010101_010011_0000001, .clz 2 19 21),
    (0b11_01111000000_010101_010011_0000001, .ctz 3 19 21),
    (0b00_10000000000_010101_010011_0000001, .popc 0 19 21),
    (0b01_10001_011010_010101_010011_0000001, .mul 1 19 21 26),
    (0b10_10010_011010_010101_010011_0000001, .mulh 2 19 21 26),
    (0b11_10011_011010_010101_010011_0000001, .mulhn 3 19 21 26),
    (0b00_10100_011010_010101_010011_0000001, .div 0 19 21 26),
    (0b01_10101_011010_010101_010011_0000001, .divn 1 19 21 26),
    (0b10_10110_011010_010101_010011_0000001, .rem 2 19 21 26),
    (0b11_10111_011010_010101_010011_0000001, .remn 3 19 21 26)] = true := by
  decide +kernel

/-- 12 R231 to R236: words of the immediate forms. -/
theorem test_decode_immediate_forms : decodesTo [
    (0b1101001011010_010101_010011_0000010, .addi 0x1A5A 21 19),
    (0b0010110100101_010101_010011_0000011, .andi 0x5A5 21 19),
    (0b1001011010010_010101_010011_0000100, .ori 0x12D2 21 19),
    (0b0100101101001_010101_010011_0000101, .xori 0x969 21 19),
    (0b1010010110100_010101_010011_0000110, .slti 0x14B4 21 19),
    (0b1101001011010_010101_010011_0000111, .sltin 0x1A5A 21 19),
    (0b0000000_100101_010101_010011_0001000, .slli 0x25 21 19),
    (0b0000000_010010_010101_010011_0001001, .srli 0x12 21 19),
    (0b0000000_101001_010101_010011_0001010, .srai 0x29 21 19),
    (0b1001011010010110100_010011_0001011, .lih 0x4B4B4 19),
    (0b0100101101001011010_010011_0001100, .addpc 0x25A5A 19)] = true := by
  decide +kernel

/-- 12 R231 to R236: words of the scalar memory. -/
theorem test_decode_scalar_memory : decodesTo [
    (0b10100101_01_1001_00111_010011_0010000, .ldb 0xA5 .col 9 7 19),
    (0b11010010_00_1010_00111_010011_0010001, .ldh 0xD2 .row 10 7 19),
    (0b01101001_01_1011_00111_010011_0010010, .ldw 0x69 .col 11 7 19),
    (0b10110100_00_1100_00111_010011_0010011, .ldd 0xB4 .row 12 7 19),
    (0b01011010_01_1101_00111_010011_0010100, .ldbn 0x5A .col 13 7 19),
    (0b10100101_00_1001_00111_010011_0010101, .ldhn 0xA5 .row 9 7 19),
    (0b11010010_01_1010_00111_010011_0010110, .ldwn 0xD2 .col 10 7 19),
    (0b01101001_00_1011_00111_010011_0010111, .stb 0x69 .row 11 7 19),
    (0b10110100_01_1100_00111_010011_0011000, .sth 0xB4 .col 12 7 19),
    (0b01011010_00_1101_00111_010011_0011001, .stw 0x5A .row 13 7 19),
    (0b10100101_01_1001_00111_010011_0011010, .std 0xA5 .col 9 7 19)] = true := by
  decide +kernel

/-- 12 R231 to R236: words of the scalar atomics. -/
theorem test_decode_scalar_atomics : decodesTo [
    (0b0_0_10_0000_00_0110_00111_010011_0011011, .amoadd (.mem .d .row 6) .w64 7 19),
    (0b0_1_11_0001_01_0110_00111_010011_0011011, .amoand (.mem .s .col 6) .w32 7 19),
    (0b1_0_00_0010_00_0000_00111_010011_0011011, .amoor .sp .w64 7 19),
    (0b0_1_01_0011_01_0110_00111_010011_0011011, .amoxor (.mem .k .col 6) .w32 7 19),
    (0b0_0_10_0100_00_0110_00111_010011_0011011, .amomin (.mem .d .row 6) .w64 7 19),
    (0b1_1_00_0101_00_0000_00111_010011_0011011, .amomax .sp .w32 7 19),
    (0b0_0_00_0110_00_0110_00111_010011_0011011, .amominn (.mem .c .row 6) .w64 7 19),
    (0b0_1_01_0111_01_0110_00111_010011_0011011, .amomaxn (.mem .k .col 6) .w32 7 19),
    (0b1_0_00_1000_00_0000_00111_010011_0011011, .amoswp .sp .w64 7 19),
    (0b0_1_11_1001_01_0110_00111_01001_0_0011011, .amocas (.mem .s .col 6) .w32 7 18),
    (0b0_0_00_1010_00_0110_00111_010011_0011011, .amofadd (.mem .c .row 6) .w64 7 19)] = true := by
  decide +kernel

/-- 12 R231 to R236: words of the branches. -/
theorem test_decode_branches : decodesTo [
    (0b0100101101001_011010_010101_0100000, .beq 0x969 26 21),
    (0b1010010110100_011010_010101_0100001, .bne 0x14B4 26 21),
    (0b1101001011010_011010_010101_0100010, .blt 0x1A5A 26 21),
    (0b0010110100101_011010_010101_0100011, .bge 0x5A5 26 21),
    (0b1001011010010_011010_010101_0100100, .bltn 0x12D2 26 21),
    (0b0100101101001_011010_010101_0100101, .bgen 0x969 26 21),
    (0b1001011010010110100_010011_0100110, .jal 0x4B4B4 19),
    (0b1101001011010_010101_010011_0100111, .jalr 0x1A5A 21 19)] = true := by
  decide +kernel

/-- 12 R231 to R236: words of the system. -/
theorem test_decode_system : decodesTo [
    (0b00000000_01000_000000_010011_0101000, .mfc .fflags 19),
    (0b00000000_10001_010101_000000_0101001, .mtc .hartid 21),
    (0b11_0000_1_000000_001011_010011_0101010, .mfg 3 .hi 11 19),
    (0b00_0001_1_011010_001100_000000_0101010, .mtg 0 .hi 12 26),
    (0b01_00000000000000000000000_0101011, .trap 1),
    (0b10_00001000000000000000000_0101011, .brk 2),
    (0b11_00010000000000000000000_0101011, .rts 3),
    (0b00_010_01_000000000000000000_0101100, .fence 0 .k .rel),
    (0b000_0100_0100_0100_0100_000000_0101101, .waitc 0x4 0x4 0x4 0x4),
    (0b10_00000_011010_010101_010011_0101110, .waita 2 19 21 26),
    (0b11_00001_011010_010101_010011_0101110, .waitaAny 3 19 21 26),
    (0b00_001_00000000000000000000_0101111, .bar 0 .c)] = true := by
  decide +kernel

/-- 12 R231 to R236: words of the vector codes. -/
theorem test_decode_vector_codes : decodesTo [
    (0b01_00000_001110_010101_010011_0110000, .vsetl 1 19 21 14),
    (0b00000_00001010_000000_100011_0110001, .vtag 0xA 35),
    (0b11_00000_001110_110001_100011_0110010, .vand 3 35 49 14),
    (0b00_00001_001110_110001_100011_0110010, .vor 0 35 49 14),
    (0b01_00010_001110_110001_100011_0110010, .vxor 1 35 49 14),
    (0b10_00011000000_110001_100011_0110010, .vnot 2 35 49),
    (0b11_00100_001110_110001_100011_0110010, .vshl 3 35 49 14),
    (0b00_00101_001110_110001_100011_0110010, .vshr 0 35 49 14),
    (0b01_00110_001110_110001_100011_0110010, .vshra 1 35 49 14),
    (0b10_00111_011010_110001_100011_0110010, .vwsl 2 35 49 26),
    (0b11_01000_011010_110001_100011_0110010, .vwsr 3 35 49 26),
    (0b00_01001_011010_110001_100011_0110010, .vfsl 0 35 49 26),
    (0b01_01010_011010_110001_100011_0110010, .vfsr 1 35 49 26),
    (0b10_01011_001110_110001_100011_0110010, .vsel 2 35 49 14),
    (0b11_01100000000_110001_100011_0110010, .vmov 3 35 49),
    (0b00_01101000000_010101_100011_0110010, .vsplat 0 35 21),
    (0b01_01110_011010_110001_010011_0110010, .vmvx 1 19 49 26),
    (0b10_01111_011010_010101_100011_0110010, .vmxv 2 35 21 26),
    (0b11_10000_01101_0_110001_100011_0110010, .vslu 3 35 49 26),
    (0b00_10001_01101_0_110001_100011_0110010, .vsld 0 35 49 26),
    (0b01_10010_001110_110001_100011_0110010, .vperm 1 35 49 14),
    (0b10_10011000000_110001_100011_0110010, .vrev 2 35 49),
    (0b11_10100000000_110001_010011_0110010, .vmcnt 3 19 49),
    (0b00_10101000000_110001_010011_0110010, .vmfst 0 19 49),
    (0b01_10110000000_110001_100011_0110010, .vrand 1 35 49),
    (0b10_10111000000_110001_100011_0110010, .vror 2 35 49),
    (0b11_11000000000_110001_100011_0110010, .vrxor 3 35 49)] = true := by
  decide +kernel

/-- 12 R231 to R236: words of the vector tests. -/
theorem test_decode_vector_tests : decodesTo [
    (0b001011010_1001011010_100011_0110011, .vidx 0x5A 0x25A 35),
    (0b01_00001_001110_110001_100011_0110100, .vcmp 1 .ne 35 49 14),
    (0b1001011010010_000000_110001_0110101, .vbany 0x12D2 49),
    (0b0100101101001_000000_110001_0110110, .vbnone 0x969 49)] = true := by
  decide +kernel

/-- 12 R231 to R236: words of the vector arithmetic. -/
theorem test_decode_vector_arithmetic : decodesTo [
    (0b00_00000_001110_110001_100011_0111_011, .vadd 0 .rup 35 49 14),
    (0b01_00001_001110_110001_100011_0111_100, .vsub 1 .rto 35 49 14),
    (0b10_00010_001110_110001_100011_0111_101, .vrsub 2 .sr 35 49 14),
    (0b11_00011_001110_110001_100011_0111_110, .vmul 3 .frm 35 49 14),
    (0b00_00100_001110_110001_100011_0111_000, .vmulh 0 .rne 35 49 14),
    (0b01_00101_001110_110001_100011_0111_001, .vdiv 1 .rtz 35 49 14),
    (0b10_00110_001110_110001_100011_0111_010, .vrem 2 .rdn 35 49 14),
    (0b11_00111_001110_110001_100011_0111_011, .vmin 3 .rup 35 49 14),
    (0b00_01000_001110_110001_100011_0111_100, .vmax 0 .rto 35 49 14),
    (0b01_01001000000_110001_100011_0111_101, .vabs 1 .sr 35 49),
    (0b10_01010000000_110001_100011_0111_110, .vneg 2 .frm 35 49),
    (0b11_01011_001110_110001_100011_0111_000, .vfma 3 .rne 35 49 14),
    (0b00_01100_001110_110001_100011_0111_001, .vfms 0 .rtz 35 49 14),
    (0b01_01101_001110_110001_100011_0111_010, .vfnma 1 .rdn 35 49 14),
    (0b10_01110_001110_110001_100011_0111_011, .vfnms 2 .rup 35 49 14),
    (0b11_01111000000_110001_100011_0111_100, .vsqrt 3 .rto 35 49),
    (0b00_10000000000_110001_100011_0111_101, .vrcp 0 .sr 35 49),
    (0b01_10001000000_110001_100011_0111_110, .vrsq 1 .frm 35 49),
    (0b10_10010000000_110001_100011_0111_000, .vexp2 2 .rne 35 49),
    (0b11_10011000000_110001_100011_0111_001, .vlog2 3 .rtz 35 49),
    (0b00_10100000000_110001_100011_0111_010, .vsin 0 .rdn 35 49),
    (0b01_10101000000_110001_100011_0111_011, .vcos 1 .rup 35 49),
    (0b10_10110000000_110001_100011_0111_100, .vtanh 2 .rto 35 49),
    (0b11_10111000000_110001_100011_0111_101, .vrsum 3 .sr 35 49),
    (0b00_11000000000_110001_100011_0111_110, .vrmin 0 .frm 35 49),
    (0b01_11001000000_110001_100011_0111_000, .vrmax 1 .rne 35 49),
    (0b10_11010_001110_110001_100011_0111_001, .vrdot 2 .rtz 35 49 14)] = true := by
  decide +kernel

/-- 12 R231 to R236: words of the transforms. -/
theorem test_decode_transforms : decodesTo [
    (0b11_00000_011010_110001_100011_1000000, .vunpk 3 35 49 26),
    (0b00_00001_011010_110001_100011_1000000, .vpkb 0 35 49 26),
    (0b01_00010_001110_110001_100011_1000000, .vlut 1 35 49 14),
    (0b10_00011000000_110001_100011_1000000, .vexpd 2 35 49),
    (0b11_00100000000_110001_100011_1000000, .vcmpr 3 35 49),
    (0b00_0010100_1001_001100_100011_1000000, .kmov 0 (.vk 35 12 2)),
    (0b01_00000000000_110001_100011_1001_001, .vcvt 1 .rtz 35 49),
    (0b10_00001000000_110001_100011_1001_010, .vqmx 2 .rdn 35 49),
    (0b11_000100_11011_110001_100011_1001_011, .vdqmx 3 .rup 35 49 11 .hi),
    (0b00_00011_001110_110001_100011_1001_100, .vqef 0 .rto 35 49 14)] = true := by
  decide +kernel

/-- 12 R231 to R236: words of the vector memory. -/
theorem test_decode_vector_memory : decodesTo [
    (0b10100101_01_1001_00111_100011_1010000, .vld 0xA5 .col 9 7 35),
    (0b11010010_00_1010_00111_100011_1010001, .vst 0xD2 .row 10 7 35),
    (0b01101001_01_1011_00111_100011_1010010, .vlds 0x69 .col 11 7 35),
    (0b10110100_00_1100_00111_100011_1010011, .vsts 0xB4 .row 12 7 35),
    (0b01011010_01_1101_00111_100011_1010100, .vld2 0x5A .col 13 7 35),
    (0b10100101_00_1001_00111_100011_1010101, .vst2 0xA5 .row 9 7 35),
    (0b00_101100_01_1010_00111_100011_1010110, .vldx 44 .any 10 7 35),
    (0b00_101100_00_1011_00111_100011_1010111, .vstx 44 .ord 11 7 35),
    (0b10110100_01_1100_00111_100011_1011000, .vldf 0xB4 .col 12 7 35),
    (0b01011010_00_1101_00111_100011_1011001, .vldw 0x5A 13 7 35),
    (0b10100101_00_1001_00111_100011_1011010, .vstw 0xA5 9 7 35),
    (0b000_00_000_00_1010_00111_10001_0_1011011, .vamoadd .c .ord 10 7 34),
    (0b000_01_001_01_1011_00111_10001_0_1011011, .vamomin .k .any 11 7 34),
    (0b000_10_010_00_1100_00111_10001_0_1011011, .vamomax .d .ord 12 7 34),
    (0b000_11_011_01_1101_00111_10001_0_1011011, .vamoand .s .any 13 7 34),
    (0b000_00_100_00_1001_00111_10001_0_1011011, .vamoor .c .ord 9 7 34),
    (0b000_01_101_01_1010_00111_10001_0_1011011, .vamoxor .k .any 10 7 34),
    (0b000_10_110_00_1011_00111_10001_0_1011011, .vamoswp .d .ord 11 7 34),
    (0b000_11_111_01_1100_00111_10001_0_1011011, .vamofadd .s .any 12 7 34),
    (0b01011010_00_1101_00111_00_1101_1011100, .kld 0x5A 13 7 13),
    (0b10100101_00_1001_00111_00_1101_1011101, .kst 0xA5 9 7 13),
    (0b11010010_00_1010_00111_000000_1011110, .vpf 0xD2 .row 10 7)] = true := by
  decide +kernel

/-- 12 R231 to R236: words of the scratchpad. -/
theorem test_decode_scratchpad : decodesTo [
    (0b11_00000_011010_01010_0_100011_1011111, .spld 3 35 20 26),
    (0b00_00001_011010_01010_0_100011_1011111, .spst 0 35 20 26),
    (0b01_00010_001110_110001_100011_1011111, .sxins 1 35 49 14),
    (0b10_00011_001110_110001_100011_1011111, .sxlkp 2 35 49 14),
    (0b11_00100_001110_110001_100011_1011111, .sxacc 3 35 49 14),
    (0b00_00101_001110_000000_100011_1011111, .sxdrn 0 35 14),
    (0b01_00110000000000000000000_1011111, .sxclr 1)] = true := by
  decide +kernel

/-- 12 R231 to R236: words of the matrix. -/
theorem test_decode_matrix : decodesTo [
    (0b0_1010_1011010_1011010_000000_1100000, .mshape 0xA 0x5A 0x5A),
    (0b11_1_0_1_01_110100_010110_100011_1100001, .mma 3 true .op 35 (.sp 22) (.reg 52)),
    (0b00_1_0_0_10_110100_110001_100011_1100010, .mmas 0 true .rw 35 49 (.reg 52)),
    (0b01_00000_01101_000_1011_100011_1100011, .mlast 1 11 35 26)] = true := by
  decide +kernel

/-- 12 R231 to R236: words of the engines. -/
theorem test_decode_engines : decodesTo [
    (0b10_00000000000_011_000000000_1101000, .xcp 2 24),
    (0b11_00001000000_011_000000000_1101000, .xcpm 3 24),
    (0b00_0001000_1001_010101_000000_1101000, .xchain 0 9 21),
    (0b01_00011000000000000_010011_1101000, .xstat 1 19),
    (0b10_0000000_1011_010101_000000_1101001, .spawn 2 11 21),
    (0b11_00001000000000000000000_1101001, .join 3),
    (0b00_00010000000000000000000_1101001, .endt 0)] = true := by
  decide +kernel

/-- 12, 14 "Worked encodings": the spec's own scalar words. -/
theorem test_decode_worked_scalar : decodesTo [
    (0xFFE8C282, .addi 0x1FFD 6 5), (0x040CE492, .ldw 4 .row 3 7 9), (0x4008C29B, .amoadd (.mem .c .row 2) .w32 6 5),
    (0xFFF00221, .bne 0x1FFE 0 4), (0x12300282, .addi 0x246 0 5), (0x8ACF028B, .lih 0x45678 5),
    (0x00102181, .add 0 3 1 2), (0x2800A381, .div 0 7 5 0), (0x0308C21A, .std 3 .row 2 6 4),
    (0x0048A512, .ldw 0 .col 2 5 10), (0x6909031B, .amocas (.mem .d .row 2) .w32 8 6), (0x000060A6, .jal 3 1),
    (0x0000A029, .mtc .vl 5), (0x004004A8, .mfc .fflags 9), (0x0638602A, .mtg 0 .hi 3 7), (0x0000002B, .trap 0),
    (0x0200002B, .brk 0), (0x0400002B, .rts 0), (0x801021B8, .vadd 2 .rne 3 1 2)] = true := by
  decide +kernel

/-- 15, 16 "Encodings": the spec's own vector words. -/
theorem test_decode_worked_vector : decodesTo [
    (0x001021B8, .vadd 0 .rne 3 1 2), (0xFF80A133, .vidx 0x1FF 5 2), (0x00500231, .vtag 0x0A 4),
    (0x000042B0, .vsetl 0 5 2 0), (0x009804B1, .vtag 0x13 9), (0x16102238, .vfma 0 .rne 4 1 2),
    (0x1E00613B, .vsqrt 0 .rup 2 3), (0x2E00833E, .vrsum 0 .frm 6 4), (0x0A1024B4, .vcmp 0 .ge 9 1 2),
    (0x203022B2, .vslu 0 5 1 6), (0x1C1063B2, .vmvx 0 7 3 2), (0x002004B5, .vbany 4 9), (0x000062CD, .vcvt 0 .sr 5 3),
    (0x02002448, .vqmx 0 .rne 8 1), (0x0490E348, .vdqmx 0 .rne 6 7 2 .hi), (0x06102448, .vqef 0 .rne 8 1 2),
    (0x00304240, .vunpk 0 4 2 6), (0x048021C0, .vlut 0 3 1 16), (0x0A486240, .kmov 0 (.vk 4 3 2)),
    (0x0A084240, .kmov 0 (.vk 4 2 0)), (0x01200431, .vtag 0x24 8)] = true := by
  decide +kernel

/-- 17 to 19 "Encodings": the spec's own words of vector memory, the matrix unit and the engines. -/
theorem test_decode_worked_units : decodesTo [
    (0x0248A250, .vld 2 .col 2 5 4), (0x0208A250, .vld 2 .row 2 5 4), (0x004D2351, .vst 0 .col 3 9 6),
    (0x00048452, .vlds 0 .row 1 4 8), (0x0B08C556, .vldx 11 .ord 2 6 10), (0x0B48C557, .vstx 11 .any 2 6 10),
    (0x1050E15B, .vamoadd .d .any 4 7 2), (0x020862D9, .vldw 2 2 3 5), (0x000441DC, .kld 0 1 2 3),
    (0x0048A05E, .vpf 0 .col 2 5), (0x0051025F, .spld 0 4 8 10), (0x081844DF, .sxacc 0 9 2 3),
    (0x0A18015F, .sxdrn 0 2 3), (0x0C00005F, .sxclr 0), (0x22080060, .mshape 4 32 64), (0x10204060, .mshape 2 2 2),
    (0x00080461, .mma 0 false .ip 8 (.reg 0) (.reg 1)), (0x02080861, .mma 0 false .op 16 (.reg 0) (.reg 1)),
    (0x04080C61, .mma 0 false .rw 24 (.reg 0) (.reg 1)), (0x42080861, .mma 1 false .op 16 (.reg 0) (.reg 1)),
    (0x32200861, .mma 0 true .op 16 (.reg 0) (.sp 4)), (0x24608862, .mmas 0 true .rw 16 4 (.reg 12)),
    (0x00305463, .mlast 0 2 40 6), (0x00010068, .xcp 0 8), (0x02020068, .xcpm 0 16), (0x0418C068, .xchain 0 3 6),
    (0x060004E8, .xstat 0 9), (0x1E1FE02D, .waitc 15 15 0 15), (0x002883AE, .waita 0 7 4 5),
    (0x022883AE, .waitaAny 0 7 4 5), (0x0A00002C, .fence 0 .c .rel), (0x1A00002C, .fence 0 .d .rel),
    (0x1C00002C, .fence 0 .d .acq), (0x2600002C, .fence 0 .s .ar), (0x1800002F, .bar 0 .d), (0x0018C069, .spawn 0 3 6),
    (0x02000069, .join 0), (0x04000069, .endt 0)] = true := by
  decide +kernel

/-- 12 R238 and the variants of the worked encodings that name no instruction. -/
theorem test_decode_refused : refusedAs [
    (0x00000000, .majorUnassigned), (0x0000007F, .majorUnassigned), (0x30000001, .functionUnassigned),
    (0x00001001, .fieldMustBeZero), (0x203822B2, .fieldMustBeZero), (0x02082448, .fieldMustBeZero), (0x048CE492, .fieldUndefined),
    (0x06080861, .fieldUndefined)] = true := by
  decide +kernel

/-! ## Single steps -/

/-- Bits of a register from the codes of its elements of width w, element 0 first. -/
def packed (w : Nat) : List Nat → Nat
  | [] => 0
  | c :: t => c + 2 ^ w * packed w t

/-- A vector register with a tag and the codes of its first elements. -/
def vec (tag : BitVec 8) (w : Nat) (codes : List Nat) : VReg :=
  { bits := BitVec.ofNat 16384 (packed w codes), tag := tag, len := 256, dirty := true }

/-- The machine in full service with one started hart. -/
def alone (h : Hart) : State := { State.reset with harts := [(0, h)], sts := { State.reset.sts with phase := 3 } }

/-- The hart after an instruction. -/
def after (i : Instr) (h : Hart) : Option Hart :=
  match exec i (alone h) with
  | .next t => t.me
  | _ => none

/-- The value of a scalar register after an instruction. -/
def xAfter (i : Instr) (h : Hart) (n : XIx) : Option Word := (after i h).map fun g => g.getX n

/-- The codes of the first n elements of width w of a vector register after an instruction, and the flags. -/
def vAfter (i : Instr) (h : Hart) (r w n : Nat) : Option (List Nat × Word) :=
  (after i h).map fun g => ((upto n).map fun e => (g.getV r).code w e, g.ctl.fflags)

/-- A hart with some scalar registers. -/
def withX (h : Hart) : List (XIx × Word) → Hart
  | [] => h
  | p :: t => withX (h.setX p.1 p.2) t

/-- A hart with some vector registers and an active length. -/
def withV (h : Hart) (vl : Nat) : List (Nat × VReg) → Hart
  | [] => h.setVl vl
  | p :: t => withV (h.setV p.1 p.2) vl t

/-- Whether an instruction takes a trap with this cause. -/
def trapsWith (i : Instr) (h : Hart) (cause : Word) : Bool :=
  match after i h with
  | some g => g.trap.isSome && g.ctl.tcause = cause && !g.user && g.ctl.tepc = h.pc
  | none => false

/-! ### Scalar instructions (14 R255 to R258, hand calculation) -/

theorem test_add_wraps : xAfter (.add 0 3 1 2) (withX probeHart [(1, 0xFFFFFFFFFFFFFFFF), (2, 2)]) 3 = some 1 := by
  decide +kernel
theorem test_sub_source_is_destination : xAfter (.sub 0 1 1 2) (withX probeHart [(1, 1), (2, 2)]) 1 =
    some 0xFFFFFFFFFFFFFFFF := by decide +kernel
theorem test_sra_sign : xAfter (.sra 0 3 1 2) (withX probeHart [(1, 0x8000000000000000), (2, 65)]) 3 =
    some 0xC000000000000000 := by decide +kernel
theorem test_srl_modulo : xAfter (.srl 0 3 1 2) (withX probeHart [(1, 0x8000000000000000), (2, 65)]) 3 =
    some 0x4000000000000000 := by decide +kernel
theorem test_sltn_unsigned : xAfter (.sltn 0 3 1 2) (withX probeHart [(1, 1), (2, 0xFFFFFFFFFFFFFFFF)]) 3 = some 1 := by
  decide +kernel
theorem test_slt_signed : xAfter (.slt 0 3 1 2) (withX probeHart [(1, 1), (2, 0xFFFFFFFFFFFFFFFF)]) 3 = some 0 := by
  decide +kernel
theorem test_clz_zero : xAfter (.clz 0 3 1) probeHart 3 = some 64 := by decide +kernel
theorem test_ctz : xAfter (.ctz 0 3 1) (withX probeHart [(1, 0x50)]) 3 = some 4 := by decide +kernel
theorem test_popc : xAfter (.popc 0 3 1) (withX probeHart [(1, 0xF0F0)]) 3 = some 8 := by decide +kernel
theorem test_mulh_negative : xAfter (.mulh 0 3 1 2) (withX probeHart [(1, 0xFFFFFFFFFFFFFFFF), (2, 1)]) 3 =
    some 0xFFFFFFFFFFFFFFFF := by decide +kernel
theorem test_rem_sign : xAfter (.rem 0 3 1 2) (withX probeHart [(1, 0xFFFFFFFFFFFFFFF9), (2, 2)]) 3 =
    some 0xFFFFFFFFFFFFFFFF := by decide +kernel
/-- 14 R256 and the worked encoding `div x7, x5, x0`. -/
theorem test_div_zero : (after (.div 0 7 5 0) (withX probeHart [(5, 3)])).map (fun g => (g.getX 7, g.ctl.fflags)) =
    some (0xFFFFFFFFFFFFFFFF, 8) := by decide +kernel
/-- 14 R258: ADDI then LIH builds 0x12345678 from 582 and 0x45678. -/
theorem test_lih : xAfter (.lih 0x45678 5) (withX probeHart [(5, 582)]) 5 = some 0x12345678 := by decide +kernel
theorem test_x0_discards : (after (.addi 5 0 0) probeHart).map (fun g => (g.getX 0, g.pc)) = some (0, 4) := by
  decide +kernel
theorem test_beq_back : (after (.beq 0x1FFE 0 0) { probeHart with pc := 0x100 }).map (·.pc) = some 0xF8 := by
  decide +kernel
/-- 14 R266, worked encoding `jal x1, fn`, fn 12 bytes ahead. -/
theorem test_jal : (after (.jal 3 1) { probeHart with pc := 0x100 }).map (fun g => (g.pc, g.getX 1)) =
    some (0x10C, 0x104) := by decide +kernel
theorem test_jalr_misaligned : trapsWith (.jalr 2 1 0) (withX probeHart [(1, 0x200)]) 0x05 = true := by decide +kernel

/-! ### Control registers and traps (12 R229; 10 R186 to R189) -/

theorem test_mtc_vm_reserved : (after (.mtc .vm 5) (withX probeHart [(5, 0xFFFFFFFFFFFFFFFF)])).map (·.ctl.vm) =
    some 0x7F := by decide +kernel
theorem test_mtc_supervisor_register : trapsWith (.mtc .tvec 5) probeHart 0x02 = true := by decide +kernel
theorem test_trap : trapsWith (.trap 0) probeHart 0x04 = true := by decide +kernel
theorem test_brk : trapsWith (.brk 0) probeHart 0x03 = true := by decide +kernel
theorem test_rts_user : trapsWith (.rts 0) probeHart 0x02 = true := by decide +kernel
theorem test_rts_supervisor : (after (.rts 0) { probeHart with
    user := false, ctl := { Ctrl.reset with tepc := 0x40, tstat := 0 } }).map (fun g => (g.pc, g.user)) =
    some (0x40, true) := by decide +kernel
theorem test_mtg_g0_user : trapsWith (.mtg 0 .lo 0 7) probeHart 0x02 = true := by decide +kernel

/-! ### Vector instructions: the worked run of 15, step by step -/

/-- The registers before the run. -/
def run15 : Hart :=
  withV probeHart 4 [(1, vec 0x0A 32 [0x3F800000, 0x40000000, 0x40400000, 0x4B800000]),
    (2, vec 0x0A 32 [0x40000000, 0x3F800000, 0x40600000, 0x3F800000]), (4, vec 0x09 16 [0x3F80, 0x3F80, 0x3F80, 0x3F80]),
    (6, vec 0x0A 32 [0x80000000, 5, 6, 7]), (9, vec 0x13 1 [])]

theorem test_vtag_m1 : (after (.vtag 0x13 9) run15).map (fun g => (g.getV 9).tag) = some 0x13 := by decide +kernel
theorem test_vcmp_ge : vAfter (.vcmp 0 .ge 9 1 2) run15 9 1 4 = some ([0, 1, 0, 1], 0) := by decide +kernel
theorem test_vfma_masked : vAfter (.vfma 0 .rne 4 1 2) { run15.setV 9 (vec 0x13 1 [0, 1, 0, 1]) with
    ctl := { run15.ctl with vm := 0x49 } } 4 16 4 = some ([0x3F80, 0x4040, 0x3F80, 0x4B80], 1) := by decide +kernel
theorem test_vrsum : vAfter (.vrsum 0 .frm 6 4) { run15.setV 4 (vec 0x09 16 [0x3F80, 0x4040, 0x3F80, 0x4B80]) with
    ctl := { run15.ctl with vrep := 1 } } 6 32 4 = some ([0x4B800002, 5, 6, 7], 1) := by decide +kernel
/-- 15: `vmulh` on an f32 tag traps at order 2 of R273. -/
theorem test_vmulh_float : trapsWith (.vmulh 0 .rne 4 1 2) run15 0x01 = true := by decide +kernel
/-- 15: `vrsum` with vstart 5 traps at order 1 of R273. -/
theorem test_vrsum_vstart : trapsWith (.vrsum 0 .rne 6 4) { run15 with ctl := { run15.ctl with vstart := 5 } } 0x01 =
    true := by decide +kernel
/-- 15 R284: `vidx v2, 5, -1` into i16 writes 5, 4, 3, 2, 1, 0 and 0xFFFF. -/
theorem test_vidx : vAfter (.vidx 0x1FF 5 2) (withV probeHart 7 [(2, vec 0x01 16 [])]) 2 16 7 =
    some ([5, 4, 3, 2, 1, 0, 0xFFFF], 0) := by decide +kernel
theorem test_vl_capacity : trapsWith (.vadd 0 .rne 3 1 2) (withV probeHart 513 [(1, vec 0x0A 32 []), (2, vec 0x0A 32 []),
    (3, vec 0x0A 32 [])]) 0x12 = true := by decide +kernel
/-- 15 R278: integer division of the most negative number by −1, and by zero. -/
theorem test_vdiv_limits : vAfter (.vdiv 0 .rne 3 1 2) (withV probeHart 3 [(1, vec 0x01 16 [0x8000, 7, 0xFFF9]),
    (2, vec 0x01 16 [0xFFFF, 0, 2]), (3, vec 0x01 16 [])]) 3 16 3 = some ([0x8000, 0xFFFF, 0xFFFD], 8) := by
  decide +kernel
/-- 15 R278: −0 orders below +0, and a NaN gives the canonical quiet NaN. -/
theorem test_vmin_specials : vAfter (.vmin 0 .rne 3 1 2) (withV probeHart 2 [(1, vec 0x0A 32 [0, 0x7FC12345]),
    (2, vec 0x0A 32 [0x80000000, 0x3F800000]), (3, vec 0x0A 32 [])]) 3 32 2 = some ([0x80000000, 0x7FC00000], 0) := by
  decide +kernel
/-- 11 R226: an enabled flag of an active element takes the arithmetic trap. -/
theorem test_arithmetic_trap : trapsWith (.vdiv 0 .rne 3 1 2) { withV probeHart 1 [(1, vec 0x0A 32 [0x3F800000]),
    (2, vec 0x0A 32 [0]), (3, vec 0x0A 32 [])] with ctl := { (withV probeHart 1 []).ctl with frm := 0x800 } } 0x14 =
    true := by decide +kernel
/-- 15 R279: exact cases of the special functions. -/
theorem test_vrsq_exact : vAfter (.vrsq 0 .rne 3 1) (withV probeHart 3 [(1, vec 0x0A 32 [0x40800000, 0, 0xBF800000]),
    (3, vec 0x0A 32 [])]) 3 32 3 = some ([0x3F000000, 0x7F800000, 0x7FC00000], 24) := by decide +kernel
theorem test_vlog2_exact : vAfter (.vlog2 0 .rne 3 1) (withV probeHart 2 [(1, vec 0x0A 32 [0x41000000, 0x3E800000]),
    (3, vec 0x0A 32 [])]) 3 32 2 = some ([0x40400000, 0xC0000000], 0) := by decide +kernel
theorem test_vexp2_exact : vAfter (.vexp2 0 .rne 3 1) (withV probeHart 2 [(1, vec 0x0A 32 [0x40400000, 0xC0000000]),
    (3, vec 0x0A 32 [])]) 3 32 2 = some ([0x41000000, 0x3E800000], 0) := by decide +kernel
theorem test_vslu_pair : vAfter (.vslu 0 5 1 6) (withX (withV probeHart 4 [(1, vec 0x01 16 [1, 2, 3, 4]),
    (5, vec 0x01 16 [])]) [(6, 1), (7, 0x99)]) 5 16 4 = some ([0x99, 1, 2, 3], 0) := by decide +kernel
theorem test_vperm_out_of_range : vAfter (.vperm 0 5 1 2) (withV probeHart 3 [(1, vec 0x01 16 [7, 8, 9]),
    (2, vec 0x01 16 [2, 3, 0]), (5, vec 0x01 16 [])]) 5 16 3 = some ([9, 0, 7], 0) := by decide +kernel
theorem test_vmcnt_vmfst : (xAfter (.vmcnt 0 5 9) (withV probeHart 4 [(9, vec 0x13 1 [0, 1, 0, 1])]) 5,
    xAfter (.vmfst 0 5 9) (withV probeHart 4 [(9, vec 0x13 1 [0, 1, 0, 1])]) 5) = (some 2, some 1) := by decide +kernel

/-! ### The worked run of 16 -/

/-- The registers before the second call. -/
def run16 : Hart :=
  withV probeHart 4 [(1, vec 0x0A 32 [0x43960000, 0x3F800000, 0xC0C00000, 0]), (2, vec 0x0A 32 [0x41400000, 0, 0, 0]),
    (4, vec 0x04 8 []), (8, vec 0x24 8 [])]

theorem test_vqef_codes : vAfter (.vqef 0 .rne 8 1 2) run16 8 8 4 = some ([0x7A, 0x38, 0xCC, 0], 1) := by decide +kernel
theorem test_vqef_residuals : vAfter (.vqef 0 .rne 8 1 2) run16 2 32 4 = some ([0xC1000000, 0, 0, 0], 1) := by
  decide +kernel
theorem test_vqef_scale : (after (.vqef 0 .rne 8 1 2) run16).map (fun g => (g.getK 2).bits) = some 0x7F := by
  decide +kernel
theorem test_kmov_window : vAfter (.kmov 0 (.vk 4 2 0)) ({ run16 with k := run16.k.set 2 { KReg.reset with bits := 0x7F } })
    4 8 4 = some ([0x7F, 0, 0, 0], 0) := by decide +kernel
theorem test_vcvt_narrow : vAfter (.vcvt 0 .rne 5 3) (withV probeHart 4 [(3, vec 0x0A 32 [0x3F800000, 0x3F808000, 0x3F818000,
    0xC0400001]), (5, vec 0x09 16 [])]) 5 16 4 = some ([0x3F80, 0x3F80, 0x3F82, 0xC040], 1) := by decide +kernel

/-! ### The worked run of 18 -/

/-- The registers before the run: A and B in v0 and v1, D in v8 to v15. -/
def run18 : Hart :=
  { withV probeHart 0 [(0, vec 0x09 16 ((0x3F80 :: List.replicate 31 0) ++ (0x3F80 :: List.replicate 31 0) ++
      List.replicate 64 0x3F80)), (1, vec 0x09 16 (List.replicate 64 0x3F80 ++ List.replicate 64 0x3F00)),
      (8, vec 0x0A 32 [0x4B800000, 0, 0x4B800000, 0x3F800000])] with
    ctl := { Ctrl.reset with mrow := 2, mcol := 2, mdep := 64 } }

/-- A matrix instruction, then the writing of its D group. -/
def matrixAfter (i : Instr) : Option (List Nat × Word) :=
  match exec i (alone run18) with
  | .next t =>
    match exec (.matrixComplete 0 0) t with
    | .next u => u.me.map fun g => ((upto 5).map fun e => (g.getV 8).code 32 e, g.ctl.fflags)
    | _ => none
  | _ => none

theorem test_mma_ip : matrixAfter (.mma 0 false .ip 8 (.reg 0) (.reg 1)) =
    some ([0x4B800000, 0x3F800000, 0x4B800020, 0x42040000, 0], 1) := by decide +kernel
theorem test_mma_dataflows_agree : matrixAfter (.mma 0 false .op 8 (.reg 0) (.reg 1)) =
    matrixAfter (.mma 0 false .rw 8 (.reg 0) (.reg 1)) := by decide +kernel
/-- 18: the word of `mma.ip v0, v0, v1` traps at order 5 of R332. -/
theorem test_mma_overlap : trapsWith (.mma 0 false .ip 0 (.reg 0) (.reg 1)) run18 0x01 = true := by decide +kernel
theorem test_mshape : (after (.mshape 2 2 2) probeHart).map (fun g => (g.ctl.mrow, g.ctl.mcol, g.ctl.mdep)) =
    some (2, 2, 64) := by decide +kernel

/-! ### Memory: an access of 8 bytes at virtual address 0x2000 of space 1, through g2 (14 R259; 02 R31; 05 R98) -/

/-- A segment of 4 KiB over the page, bound with these rights. -/
def dataSeg (r w : Bool) : BitVec 128 :=
  BitVec.ofNat 128 (0x1000 <<< 64 + 1 <<< 63 + w.toNat <<< 61 + r.toNat <<< 60 + 0x2000)

/-- The hart whose g2 names the data page. -/
def dataHart (r w : Bool) : Hart := { probeHart with g := probeHart.g.set 2 (dataSeg r w) }

/-- The page's filter entry, confirmed or not. -/
def dataEntry (cf : Bool) : FilterEntry :=
  { space := 1, vbase := 0x2000, lg := 12, attr := { probeAttr with x := false }, cf := cf, pd := false }

/-- The page lies at 0x5000 of device memory. -/
def dataLeaf : Leaf :=
  { space := 1, vbase := 0x2000, lg := 12, frame := 0x5000, attr := { probeAttr with x := false }, d := true }

/-- The machine with the page in the filter and the translation cache, and three bytes of it in memory. -/
def dataState (h : Hart) (cf : Bool) : State :=
  ({ alone h with mem := [(0x5008, 0x80), (0x5009, 0xFF), (0x500A, 1)] }.setCore 0
    { Core.reset with filter := [dataEntry cf] }).setDie 0 { Die.reset with tcache := [dataLeaf] }

/-- The hart after an instruction at a state. -/
def hartAfter (i : Instr) (s : State) : Option Hart :=
  match exec i s with
  | .next t => t.me
  | _ => none

theorem test_ldb_sign : (hartAfter (.ldb 0 .row 2 6 3) (dataState (withX (dataHart true true) [(6, 8)]) true)).map
    (fun g => g.getX 3) = some 0xFFFFFFFFFFFFFF80 := by decide +kernel
theorem test_ldwn_little_endian : (hartAfter (.ldwn 2 .row 2 0 3) (dataState (dataHart true true) true)).map
    (fun g => g.getX 3) = some 0x1FF80 := by decide +kernel
theorem test_load_without_read : (hartAfter (.ldb 0 .row 2 0 3) (dataState (dataHart false true) true)).map
    (fun g => g.ctl.tcause) = some 0x07 := by decide +kernel
theorem test_load_beyond_limit : (hartAfter (.ldd 0 .row 2 6 3) (dataState (withX (dataHart true true) [(6, 0xFFC)])
    true)).map (fun g => (g.ctl.tcause, g.ctl.tval)) = some (0x06, 0xFFC) := by decide +kernel
theorem test_load_misaligned : (hartAfter (.ldh 0 .row 2 6 3) (dataState (withX (dataHart true true) [(6, 1)])
    true)).map (fun g => g.ctl.tcause) = some 0x05 := by decide +kernel
/-- 14 R260: LDD in column orientation takes an orientation fault. -/
theorem test_ldd_column : (hartAfter (.ldd 0 .col 2 0 3) (dataState (dataHart true true) true)).map
    (fun g => g.ctl.tcause) = some 0x0A := by decide +kernel
/-- 05 R98: a store to an unconfirmed page is buffered, and memory keeps its bytes. -/
theorem test_store_buffered :
    (match exec (.std 1 .row 2 0 3) (dataState (dataHart true true) false) with
     | .next t => some ((t.core 0).sb.map (fun e => (e.va, e.mask.toNat)), (t.core 0).l1.length)
     | _ => none) = some ([(0x2000, 0xFF00)], 0) := by decide +kernel
/-- 14 R261: a device-scope add at the home slice returns the old value and writes the sum. -/
theorem test_amoadd_device :
    (match exec (.amoadd (.mem .d .row 2) .w32 6 3) (dataState (withX (dataHart true true) [(6, 8), (3, 0x100)]) true) with
     | .next t => t.me.map fun g => (g.getX 3, t.readPA 0x5008 4)
     | _ => none) = some (0x1FF80, 0x20080) := by decide +kernel
/-- 14 R262: an atomic in a segment with r alone takes 0x08. -/
theorem test_amo_without_write : (hartAfter (.amoadd (.mem .d .row 2) .w64 0 3) (dataState (dataHart true false)
    true)).map (fun g => g.ctl.tcause) = some 0x08 := by decide +kernel

/-! ### Scratchpad, eyelets and the host (01 R19; 19 R348; 26 R375) -/

/-- One unit of the scratchpad and of the index scratchpad, for the region of the probe's hart. -/
def padGrant : Grant := { blk := probeBlk, b := 0, units := 1, ixUnits := 1, table := [], tablePoison := [] }

/-- The machine with that grant on core 0, and 0x5A at offset 0x80 of it. -/
def padState (h : Hart) : State := (alone h).setCore 0 { Core.reset with grants := [padGrant], sp := [(0x80, 0x5A)] }

theorem test_waita_returns : (hartAfter (.waita 0 7 4 5) (padState (withX probeHart [(4, 0x80), (5, 0x5A)]))).map
    (fun g => (g.getX 7, g.pc)) = some (0x5A, 4) := by decide +kernel
theorem test_waita_sleeps : (hartAfter (.waita 0 7 4 5) (padState (withX probeHart [(4, 0x80), (5, 0x5B)]))).map
    (fun g => (g.run, g.pc)) = some (.asleep false 7 4 5, 0) := by decide +kernel
theorem test_amofadd_scratchpad_f64 : (hartAfter (.amofadd .sp .w64 4 6) (padState probeHart)).map
    (fun g => g.ctl.tcause) = some 0x01 := by decide +kernel
theorem test_sxacc_inserts :
    (match exec (.sxacc 0 9 2 3) (padState (withV probeHart 2 [(2, vec 0x02 32 [7, 7]), (3, vec 0x03 64 [5, 6]),
        (9, vec 0x13 1 [])])) with
     | .next t => some ((t.core 0).grants.map (·.table))
     | _ => none) = some [[(7, 11)]] := by decide +kernel
/-- 26, worked case: with 16 entries and head 14, tail 31 sets err. -/
theorem test_doorbell_beyond_capacity :
    (match exec (.queueDoorbell 0 31) (State.reset.setQueue 0 { Queue.reset with en := true, head := 14, tail := 14 }) with
     | .next t => some ((t.queue 0).err, (t.queue 0).tail)
     | _ => none) = some (true, 31) := by decide +kernel
theorem test_host_read_beyond_window :
    (match exec (.hostMemoryRead 0x3000000000 2) (alone probeHart) with
     | .next t => some t.io.lastRead
     | _ => none) = some [0xFF, 0xFF] := by decide +kernel
theorem test_boot_doorbell :
    (match exec (.bootDoorbell 64) State.reset with
     | .next t => some (t.sts.phase, t.sts.bootLen)
     | _ => none) = some (1, 64) := by decide +kernel

/-! ### Fetch and step (12 R238, log entry 3) -/

theorem test_step_runs_first_word :
    (match step (State.reset.withFetchWord 32 0x12300282) with
     | .next t => t.me.map fun g => (g.getX 5, g.pc)
     | _ => none) = some (582, 4) := by decide +kernel
theorem test_step_illegal_word :
    (match step (State.reset.withFetchWord 32 0xFF) with
     | .next t => t.me.map fun g => (g.ctl.tcause, g.ctl.tval)
     | _ => none) = some (1, 0xFF) := by decide +kernel

/-! ## Witnesses: for each obligation with hypotheses, a state and operands that meet them, clause by clause -/

/-- What an operation over the memory side answers, and the machine that it leaves. -/
def answer {α : Type} : Res α → Option α
  | .ok a _ => some a
  | .stop _ _ => none

def left {α : Type} : Res α → State
  | .ok _ s => s
  | .stop _ s => s

theorem answers {α : Type} {r : Res α} {a : α} (h : answer r = some a) : r = .ok a (left r) := by
  cases r <;> simp_all [answer, left]

/-- An operation followed by another: what each answers. -/
theorem reaches {α β : Type} {r : Res α} {k : α → State → Res β} {b : β} (h : answer (r.bind k) = some b) :
    ∃ a s, r = .ok a s ∧ ∃ t, k a s = .ok b t := by
  cases r with
  | ok a s => exact ⟨a, s, rfl, left (k a s), answers h⟩
  | stop _ _ => exact absurd h (by simp [Res.bind, answer])

/-- The machine that fetches a word, the slots that are late for its cycle, and the machine as its step hands it to the
fetch. -/
def before (w : Nat) : State := State.reset.withFetchWord 32 w
def later : List Nat := [1, 2, 3, 4, 5, 6, 7]
def fetching (w : Nat) : State := { turnOf (before w) [] 0 0 later with cur := hkey 0 0 }

/-- The hart of slot 0 has the turn. -/
theorem witness_turn (w : Nat) : (before w).agenda = .hart 0 0 later :: [] := rfl

theorem witness_StepRunsDecodedInstruction : ∃ s', turnFalls (before 0x12300282) [] 0 0 later ∧
    (turnOf (before 0x12300282) [] 0 0 later).hart? (hkey 0 0) = some probeHart ∧ probeHart.run = .running ∧ probeHart.trap = none ∧
    (fetching 0x12300282).deferredDue = false ∧ fetch probeHart (fetching 0x12300282) = .ok 0x12300282 s' ∧
    decodeNat 0x12300282 = .ok (.addi 582 0 5) :=
  ⟨left (fetch probeHart (fetching 0x12300282)), fun _ => by decide +kernel, by decide +kernel, rfl, rfl,
    by decide +kernel, answers (by decide +kernel), rfl⟩

theorem witness_IllegalWordTraps : ∃ s', turnFalls (before 0xFF) [] 0 0 later ∧
    (turnOf (before 0xFF) [] 0 0 later).hart? (hkey 0 0) = some probeHart ∧ probeHart.run = .running ∧ probeHart.trap = none ∧
    (fetching 0xFF).deferredDue = false ∧ fetch probeHart (fetching 0xFF) = .ok 0xFF s' ∧ 0xFF < 2 ^ 32 ∧
    decodeNat 0xFF = .error .majorUnassigned ∧ s'.me = some probeHart :=
  ⟨left (fetch probeHart (fetching 0xFF)), fun _ => by decide +kernel, by decide +kernel, rfl, rfl,
    by decide +kernel, answers (by decide +kernel), by decide, rfl, by decide +kernel⟩

theorem witness_DecodeOfEncodeIsIdentity : (Instr.amocas .sp .w32 8 6).hasWord = true ∧
    (Instr.amocas .sp .w32 8 6).wf = true := by decide
theorem witness_EncodeOfDecodeIsIdentity : decode 0x0308C21A = .ok (.std 3 .row 2 6 4) := rfl

/-! ### Scalar instructions -/

theorem witness_currentHart (h : Hart) : (alone h).me = some h := rfl

/-- RegisterFormResults, BitCountResults, MultiplyDivideResults and DivisionLimits, with each divisor that they tell
apart. -/
theorem witness_ScalarRegisterForms : (alone probeHart).me = some probeHart ∧
    ((withX probeHart [(2, 1)]).getX 2).toNat ≠ 0 ∧ probeHart.getX 2 = 0 ∧
    (withX probeHart [(1, 0x8000000000000000), (2, 0xFFFFFFFFFFFFFFFF)]).getX 1 = 0x8000000000000000 ∧
    (withX probeHart [(1, 0x8000000000000000), (2, 0xFFFFFFFFFFFFFFFF)]).getX 2 = 0xFFFFFFFFFFFFFFFF ∧
    (0x30000081 : BitVec 32).toNat % 128 = 1 ∧ (0x30000081 : BitVec 32).toNat / 2 ^ 25 % 32 = 24 ∧
    (0x3E000001 : BitVec 32).toNat / 2 ^ 25 % 32 = 31 := by decide +kernel

theorem witness_ImmediateFormResults : (alone probeHart).me = some probeHart := rfl

theorem witness_ScalarRegisterFrame : ∃ t, scalarForm (.div 0 7 5 0) = some 7 ∧
    (alone probeHart).me = some probeHart ∧ exec (.div 0 7 5 0) (alone probeHart) = .next t := ⟨_, rfl, rfl, rfl⟩

/-! ### Scalar memory -/

/-- The data page's line as an L1 holds it, present and without poison. -/
def dataFrame : Frame :=
  { space := 1, base := 0x2000, tclass := .untiled, way := 0, colValid := 0,
    rows := [{ valid := true, dirty := 0, poison := 0, data := 0x80FF, writers := [] }] }

/-- The data page with that line in the L1. -/
def cachedState (h : Hart) (cf : Bool) : State :=
  (dataState h cf).setCore 0 { (dataState h cf).core 0 with l1 := [dataFrame] }

/-- A load of the line's last doubleword: `ldd x3, g2, x0, 15`. -/
def lastLoad : Moved := ⟨8, true, 15, .row, 2, 0, 3⟩

theorem witness_ScalarLoadCompletes : scalarLoad (.ldd 15 .row 2 0 3) = some lastLoad ∧
    (dataState (dataHart true true) true).me = some (dataHart true true) ∧
    ∃ a s1, checkReq (lastLoad.req .read (dataHart true true)) (dataHart true true) true
      (dataState (dataHart true true) true) = .ok a s1 ∧ ∃ s2, readCell a.1 a.2.1 a.2.2 8 false s1 = .ok 0 s2 :=
  ⟨rfl, by decide +kernel, reaches (by decide +kernel)⟩

theorem witness_ResidentLoadReadsL1 : scalarLoad (.ldd 15 .row 2 0 3) = some lastLoad ∧
    (cachedState (dataHart true true) true).me = some (dataHart true true) ∧
    segGrants ((dataHart true true).getG lastLoad.g.toNat) (lastLoad.offset (dataHart true true)) 8 true false ∧
    pageGrants ((cachedState (dataHart true true) true).core 0) (dataHart true true) lastLoad (dataEntry true) true false ∧
    (dataEntry true).attr.mc = .normal ∧
    notBuffered ((cachedState (dataHart true true) true).core 0) 0 (dataHart true true).spaceTag
      (lastLoad.cell (dataHart true true) (dataEntry true)) 8 ∧
    Cache.find ((cachedState (dataHart true true) true).core 0).l1 (dataHart true true).spaceTag
      (lastLoad.cell (dataHart true true) (dataEntry true)) = some dataFrame ∧ dataFrame.base % 128 = 0 ∧
    ∀ k, k < 8 → dataFrame.present (lastLoad.cell (dataHart true true) (dataEntry true) + k) = true ∧
      (dataFrame.byte (lastLoad.cell (dataHart true true) (dataEntry true) + k)).2 = false := by
  unfold segGrants pageGrants notBuffered
  and_intros <;> decide +kernel

/-- A store of the line's last doubleword: `std 15, g2, x0, x3`. -/
def lastStore : Moved := ⟨8, false, 15, .row, 2, 0, 3⟩

theorem witness_ScalarStoreCompletes : scalarStore (.std 15 .row 2 0 3) = some lastStore ∧
    (dataState (dataHart true true) true).me = some (dataHart true true) ∧
    ∃ a s1, checkReq (lastStore.req .write (dataHart true true)) (dataHart true true) true
      (dataState (dataHart true true) true) = .ok a s1 ∧
      ∃ s2, writeCell a.1 a.2.1 a.2.2 8 (((dataHart true true).getX 3).toNat % 2 ^ 64) 0 false false false (dataHart true true)
        s1 = .ok () s2 :=
  ⟨rfl, by decide +kernel, reaches (by decide +kernel)⟩

theorem witness_UnconfirmedStoreIsBuffered : scalarStore (.std 15 .row 2 0 3) = some lastStore ∧
    (dataState (dataHart false true) false).me = some (dataHart false true) ∧
    segGrants ((dataHart false true).getG lastStore.g.toNat) (lastStore.offset (dataHart false true)) 8 false true ∧
    pageGrants ((dataState (dataHart false true) false).core 0) (dataHart false true) lastStore (dataEntry false) false
      true ∧
    (dataEntry false).attr.mc = .normal ∧ (dataEntry false).cf = false ∧
    (∀ q ∈ ((dataState (dataHart false true) false).core 0).sb, q.slot = 0 → q.seq ≠ (dataHart false true).seq) ∧
    ((dataState (dataHart false true) false).core 0).sbLimit >
      (((dataState (dataHart false true) false).core 0).sb.filter fun q => q.slot = 0).length ∧
    lowestFree (((dataState (dataHart false true) false).core 0).sb.map (·.idx)) 128 0 = some 0 := by
  unfold segGrants pageGrants
  and_intros <;> decide +kernel

theorem witness_ConfirmedStoreWritesL1 : scalarStore (.std 15 .row 2 0 3) = some lastStore ∧
    (cachedState (dataHart false true) true).me = some (dataHart false true) ∧
    segGrants ((dataHart false true).getG lastStore.g.toNat) (lastStore.offset (dataHart false true)) 8 false true ∧
    pageGrants ((cachedState (dataHart false true) true).core 0) (dataHart false true) lastStore (dataEntry true) false
      true ∧
    (dataEntry true).attr.mc = .normal ∧ (dataEntry true).cf = true ∧
    ((cachedState (dataHart false true) true).core 0).bypass = [] ∧
    distinctFrames ((cachedState (dataHart false true) true).core 0).l1 ∧
    (∀ k, k < 8 → Cache.find ((cachedState (dataHart false true) true).core 0).l1 (dataHart false true).spaceTag
      (lastStore.cell (dataHart false true) (dataEntry true) + k) = some dataFrame) ∧
    dataFrame.rows.length = dataFrame.tclass.rows ∧ dataFrame.base % 128 = 0 := by
  unfold segGrants pageGrants distinctFrames
  and_intros <;> decide +kernel

/-- The hart whose g2 names the data page, with an offset in x6. -/
def offHart (r w : Bool) (off : Word) : Hart := withX (dataHart r w) [(6, off)]

/-- Each cause at its boundary: one byte beyond the limit, no segment, no read right, no write right, half a word off. -/
theorem witness_SegmentChecksTrap :
    scalarAccess (.ldd 0 .row 2 6 3) = some (⟨8, true, 0, .row, 2, 6, 3⟩, .read) ∧
    scalarAccess (.std 0 .row 2 6 3) = some (⟨8, false, 0, .row, 2, 6, 3⟩, .write) ∧
    scalarAccess (.amoadd (.mem .d .row 2) .w64 6 3) = some (⟨8, true, 0, .row, 2, 6, 3⟩, .both) ∧
    (alone (offHart true true 0xFF9)).me = some (offHart true true 0xFF9) ∧
    segCause ((offHart true true 0xFF9).getG 2) 0xFF9 8 .read = some 0x06 ∧
    segCause ((offHart true true 0).getG 3) 0 8 .read = some 0x06 ∧
    segCause ((offHart false true 0).getG 2) 0xFF8 8 .read = some 0x07 ∧
    segCause ((offHart true false 0).getG 2) 0xFF8 8 .write = some 0x08 ∧
    segCause ((offHart true false 0).getG 2) 0xFF8 8 .both = some 0x08 ∧
    segCause ((offHart true true 0).getG 2) 0xFF4 8 .both = some 0x05 := by decide +kernel

/-- The data page's entry with these rights, for the supervisor alone or for all. -/
def rightsEntry (r w sup : Bool) : FilterEntry :=
  let attr := { probeAttr with r := r, w := w, s := sup }
  { dataEntry true with attr := attr }

def pageState (h : Hart) (r w sup : Bool) : State := (alone h).setCore 0 { Core.reset with filter := [rightsEntry r w sup] }

theorem witness_PageChecksTrap :
    (pageState (dataHart true true) false true false).me = some (dataHart true true) ∧
    segGrants ((dataHart true true).getG 2) 0xFF8 8 true true ∧
    ((pageState (dataHart true true) false true false).core 0).filter.find? (fun q => q.covers (dataHart true true).spaceTag
      (segBase ((dataHart true true).getG 2) + 0xFF8)) = some (rightsEntry false true false) ∧
    ((pageState (dataHart true true) true false false).core 0).filter.find? (fun q => q.covers (dataHart true true).spaceTag
      (segBase ((dataHart true true).getG 2) + 0xFF8)) = some (rightsEntry true false false) ∧
    ((pageState (dataHart true true) true true true).core 0).filter.find? (fun q => q.covers (dataHart true true).spaceTag
      (segBase ((dataHart true true).getG 2) + 0xFF8)) = some (rightsEntry true true true) ∧
    (dataHart true true).user = true ∧ (dataEntry true).pd = false ∧ (dataEntry true).attr.tclass = .untiled := by
  unfold segGrants
  and_intros <;> decide +kernel

/-- The access of `amoadd.d.w64` of the page's last doubleword. -/
def lastAtomic : Req :=
  { rw := .both, g := 2, off := (offHart true true 0xFF8).getX 6, n := 8, align := 8, elem := 0, ew := 64, col := false }

theorem witness_MemoryAtomicCompletes :
    atomicForm (.amoadd (.mem .d .row 2) .w64 6 3) = some (.mem .d .row 2, .w64, 6, 3) ∧
    (dataState (offHart true true 0xFF8) true).me = some (offHart true true 0xFF8) ∧
    ∃ a s1, checkReq lastAtomic (offHart true true 0xFF8) true (dataState (offHart true true 0xFF8) true) = .ok a s1 ∧
      ∃ s2, atomicCell a.1 a.2.1 a.2.2 8 .d
        (fun m => (atomicNew (.amoadd (.mem .d .row 2) .w64 6 3) (offHart true true 0xFF8) m).1) s1 = .ok 0 s2 :=
  ⟨rfl, by decide +kernel, reaches (by decide +kernel)⟩

/-- A hart whose x6 names the last doubleword of the page's first line. -/
def wordHart : Hart := offHart true true 0x78

/-- A cluster's L2 with that line, and no L1 with it; and the page recorded at its home, its line in no cache, of the normal
class or another. -/
def clusterState : State := (dataState wordHart true).setCluster 0 { Cluster.reset with l2 := [dataFrame] }
def homeEntry (mc : MClass) : FilterEntry := { dataEntry true with attr := { (dataEntry true).attr with mc := mc } }
def homeLeaf (mc : MClass) : Leaf := { dataLeaf with attr := { dataLeaf.attr with mc := mc } }
def homeState (mc : MClass) : State :=
  ((dataState wordHart true).setCore 0 { Core.reset with filter := [homeEntry mc] }).setDie 0
    { Die.reset with
      tcache := [homeLeaf mc]
      names := [{ space := 1, vbase := 0x2000, frame := 0x5000, lg := 12, skew := dataLeaf.attr.skew, tclass := .untiled }] }

/-- The doubleword stands in the line of a cache, or at home under the page's leaf. -/
theorem witness_standsIn : standsIn [dataFrame] 1 0x2078 8 0 dataFrame ∧ dataFrame.lineValid 0x2078 false = true := by
  unfold standsIn distinctFrames
  and_intros <;> decide +kernel

theorem leafFound {p : WalkRes × State} {l : Leaf} (h : p.1 = .leaf l) : ∃ u, p = (.leaf l, u) := ⟨p.2, by rw [← h]⟩

theorem witness_standsAtHome (mc : MClass) : standsAtHome (homeState mc) 0 1 0x2078 8 0 (homeLeaf mc) := by
  refine ⟨leafFound ?_, ?_⟩ <;> cases mc <;> decide +kernel

/-- The machines of the three levels, and that of a page that is not of the normal class. -/
def levels : List (AScope × State × FilterEntry) :=
  [(.c, cachedState wordHart true, homeEntry .normal), (.k, clusterState, homeEntry .normal),
    (.d, homeState .normal, homeEntry .normal), (.s, homeState .device, homeEntry .device)]

theorem witness_AtomicLandsAtScope :
    (∀ p ∈ levels, atomicForm (.amoadd (.mem p.1 .row 2) .w64 6 3) = some (.mem p.1 .row 2, .w64, 6, 3) ∧
      p.2.1.me = some wordHart ∧
      segGrants (wordHart.getG 2) (Moved.offset ⟨8, true, 0, .row, 2, 6, 3⟩ wordHart) 8 true true ∧
      pageGrants (p.2.1.core 0) wordHart ⟨8, true, 0, .row, 2, 6, 3⟩ p.2.2 true true ∧ p.2.2.cf = true ∧
      notBuffered (p.2.1.core 0) 0 wordHart.spaceTag (Moved.cell ⟨8, true, 0, .row, 2, 6, 3⟩ wordHart p.2.2) 8 ∧
      Moved.cell ⟨8, true, 0, .row, 2, 6, 3⟩ wordHart p.2.2 = 0x2078 ∧ (p.2.1.core 0).bypass = [] ∧
      (p.2.1.core 0).target = [] ∧ (p.2.1.core 0).wbq = [] ∧ (p.2.1.cluster 0).wbq = [] ∧
      (p.1 ≠ .c → Cache.find (p.2.1.core 0).l1 1 0x2078 = none) ∧
      (p.1 = .d → Cache.find (p.2.1.cluster 0).l2 1 0x2078 = none)) ∧
    ((cachedState wordHart true).core 0).l1 = [dataFrame] ∧ (clusterState.cluster 0).l2 = [dataFrame] := by
  refine ⟨fun p hp => ?_, by decide +kernel, by decide +kernel⟩
  unfold segGrants pageGrants notBuffered
  and_intros <;> (revert p; decide +kernel)

/-- The four clauses: the f64 sum, one byte beyond the grant of one unit, a misaligned address, the last doubleword. -/
theorem witness_ScratchpadAtomicCompletes :
    atomicForm (.amofadd .sp .w64 4 6) = some (.sp, .w64, 4, 6) ∧ atomicForm (.amoadd .sp .w64 4 6) = some (.sp, .w64, 4, 6) ∧
    (padState probeHart).me = some probeHart ∧
    spNearOk (((padState probeHart).core 0).grantOf probeHart.blk) 0x7FF9 8 = false ∧
    spNearOk (((padState probeHart).core 0).grantOf probeHart.blk) 0x7FF4 8 = true ∧ spOffset 0x7FF4 % 8 ≠ 0 ∧
    spNearOk (((padState probeHart).core 0).grantOf probeHart.blk) 0x7FF8 8 = true ∧ spOffset 0x7FF8 % 8 = 0 ∧
    ((padState probeHart).core 0).spPoisoned (((padState probeHart).core 0).grantOf probeHart.blk) (spOffset 0x7FF8) 8 =
      false := by decide +kernel

/-! ### Branches, control registers, traps -/

/-- Taken and not taken, to an aligned target and to one that is not. -/
theorem witness_BranchAndJumpResults : (alone probeHart).me = some probeHart ∧
    probeHart.getX 1 = probeHart.getX 2 ∧ ¬probeHart.getX 1 ≠ probeHart.getX 2 ∧
    (BitVec.ofInt 64 (probeHart.pc.toInt + 4 * (0xFFF : BitVec 13).toInt)).toNat % 4 = 0 ∧
    (BitVec.ofInt 64 (({ probeHart with pc := 2 } : Hart).pc.toInt + 4 * (0x1000 : BitVec 13).toInt)).toNat % 4 ≠ 0 ∧
    (BitVec.ofInt 64 ((probeHart.getX 1).toInt + (3 : BitVec 13).toInt)).toNat % 4 ≠ 0 := by decide +kernel

/-- ReadControlRegister, WriteControlRegister and SegmentRegisterMoves: a supervisor's register in user mode, another
one, and a supervisor's in supervisor mode; g0 in user mode, another segment register, and g0 in supervisor mode. -/
theorem witness_SpecialRegisterMoves : (alone probeHart).me = some probeHart ∧
    (supervisors .tvec ∧ probeHart.user = true) ∧ ¬(supervisors .frm ∧ probeHart.user = true) ∧
    ¬(supervisors .tvec ∧ ({ probeHart with user := false } : Hart).user = true) ∧
    ((0 : GIx) = 0 ∧ probeHart.user = true) ∧ ¬((31 : GIx) = 0 ∧ probeHart.user = true) ∧
    ¬((0 : GIx) = 0 ∧ ({ probeHart with user := false } : Hart).user = true) := by
  unfold supervisors
  decide +kernel

/-- The machine after `trap`, and after `brk`. -/
theorem witness_TrapEntryAndReturn : (alone probeHart).me = some probeHart ∧ probeHart.user = true ∧
    ({ probeHart with user := false } : Hart).user = false ∧
    (∃ t, exec (.trap 0) (alone probeHart) = .next t ∧ ∃ u, exec (.rts 0) t = .next u) ∧
    ∃ t, exec (.brk 0) (alone probeHart) = .next t ∧ ∃ u, exec (.rts 0) t = .next u :=
  ⟨rfl, rfl, rfl, ⟨_, rfl, _, rfl⟩, _, rfl, _, rfl⟩

/-! ### Fences, waits, barriers -/

/-- The machine after an instruction. -/
def run (i : Instr) (s : State) : State :=
  match exec i s with
  | .next t => t
  | _ => State.reset

/-- A store of hart 0 of core 0 waits in the late-fault store buffer. -/
def storedState : State := run (.std 15 .row 2 0 3) (dataState (dataHart true true) false)
def storedHart : Hart := { dataHart true true with pc := 4, seq := 1, nst := 1 }

/-- FenceCompletes and FenceEmptiesCaches: without and with a buffered store. -/
theorem witness_FenceResults : (dataState (dataHart true true) true).me = some (dataHart true true) ∧
    ownsNoEntry (dataState (dataHart true true) true) ∧ storedState.me = some storedHart ∧ ¬ownsNoEntry storedState ∧
    Scope.k ≠ .h ∧ Scope.k ≠ .c ∧ ∃ t, exec (.fence 0 .k .ar) (alone probeHart) = .next t := by
  refine ⟨rfl, ?_, by decide +kernel, ?_, by decide, by decide, _, rfl⟩
  · unfold ownsNoEntry
    decide +kernel
  · unfold ownsNoEntry
    decide +kernel

/-- An eyelet at the last doubleword of the grant: it holds 0, awaited as 0, as 1 and by its complement. -/
def eyeHart (b : Word) : Hart := withX probeHart [(4, 0x7FF8), (5, b)]

/-- WaitForEyelet and SleeperWakes. -/
theorem witness_WaitsAndEyelets : (alone probeHart).me = some probeHart ∧ probeHart.fail = none ∧
    (padState (eyeHart 0)).me = some (eyeHart 0) ∧ eyelet (padState (eyeHart 0)) (eyeHart 0) 0x7FF8 ∧
    eyeletWord (padState (eyeHart 0)) (eyeHart 0) 0x7FF8 = (eyeHart 0).getX 5 ∧
    eyeletWord (padState (eyeHart 1)) (eyeHart 1) 0x7FF8 ≠ (eyeHart 1).getX 5 ∧
    eyeletWord (padState (eyeHart 1)) (eyeHart 1) 0x7FF8 ≠ ~~~(eyeHart 1).getX 5 ∧
    eyeletWord (padState (eyeHart 0xFFFFFFFFFFFFFFFF)) (eyeHart 0) 0x7FF8 = ~~~(eyeHart 0xFFFFFFFFFFFFFFFF).getX 5 ∧
    (padState { eyeHart 1 with run := .asleep true 7 4 5 }).hart? (hkey 0 0) =
      some { eyeHart 1 with run := .asleep true 7 4 5 } ∧
    eyelet { padState { eyeHart 1 with run := .asleep true 7 4 5 } with cur := hkey 0 0 } (eyeHart 1) 0x7FF8 := by
  unfold eyelet
  and_intros <;> decide +kernel

/-- Two harts of one region. -/
def pairState (h g : Hart) : State := { alone h with harts := [(0, h), (1, g)] }

/-- Nothing buffered and something buffered; a barrier that all have reached, and one that a running hart has not. -/
theorem witness_BarrierArrivesAndDeparts : (alone probeHart).me = some probeHart ∧ ownsNoEntry (alone probeHart) ∧
    storedState.me = some storedHart ∧ ¬ownsNoEntry storedState ∧
    hartsRise (pairState { probeHart with run := .barrier .c } { probeHart with run := .idle 0 }) ∧
    (pairState { probeHart with run := .barrier .c } { probeHart with run := .idle 0 }).hart? (hkey 0 0) =
      some { probeHart with run := .barrier .c } ∧
    (∀ q ∈ (pairState { probeHart with run := .barrier .c } { probeHart with run := .idle 0 }).harts,
      q.2.run = .barrier .c ∨ q.2.run = .idle 0) ∧
    (pairState { probeHart with run := .barrier .c } { probeHart with run := .idle 0 }).fe.saved = [] ∧
    (∃ q ∈ (pairState { probeHart with run := .barrier .c } probeHart).harts, (q.2.blk = probeHart.blk ∧ 0 = q.1 / 8) ∧
      q.2.run = .running) := by
  unfold ownsNoEntry hartsRise
  and_intros <;> decide +kernel

/-- The other ways in which a hart of the region keeps a barrier from departing. -/
theorem witness_BarrierWaits (r : Run) (hr : r ∈ [Run.asleep false 1 2 3, .ringWait 0, .barrier .k, .draining false]) :
    ∃ q ∈ (pairState { probeHart with run := .barrier .c } { probeHart with run := r }).harts,
      (q.2.blk = probeHart.blk ∧ 0 = q.1 / 8) ∧ q.2.run ≠ .barrier .c ∧ ∀ n, q.2.run ≠ .idle n := by
  refine ⟨(1, { probeHart with run := r }), .tail _ (.head _), ⟨rfl, (by decide : 0 = 1 / 8)⟩, ?_⟩
  simp only [List.mem_cons, List.not_mem_nil, or_false] at hr
  rcases hr with rfl | rfl | rfl | rfl <;> exact ⟨by decide, nofun⟩

/-! ### Tacks -/

/-- The machine of the data page with bytes of the region's block (head, tail and base of its ring) and of the page. -/
def ringState (h : Hart) (m : Memory) : State := { dataState h true with mem := m }

def fullRing : Memory := [(0x10002D, 1)]

/-- SpawnPushes with room and with a full ring; JoinCounts without a record, without a continuation, and with counts of
0, 1 and 2. -/
theorem witness_SpawnAndJoin : (ringState (dataHart true true) []).me = some (dataHart true true) ∧
    ownsNoEntry (ringState (dataHart true true) []) ∧ segGrants ((dataHart true true).getG 2) 0xFE0 32 true true ∧
    ringUsed ((ringState (dataHart true true) []).releaseSteps 0 1 .d) probeBlk ≠
      ringCap ((ringState (dataHart true true) []).releaseSteps 0 1 .d) probeBlk ∧
    ringUsed ((ringState (dataHart true true) fullRing).releaseSteps 0 1 .d) probeBlk =
      ringCap ((ringState (dataHart true true) fullRing).releaseSteps 0 1 .d) probeBlk ∧
    (dataHart true true).tack = 0 := by
  unfold ownsNoEntry segGrants
  and_intros <;> decide +kernel

/-- A hart of a tack whose record is at 0x2000. -/
def tackHart : Hart := { dataHart true true with tack := 0x2000 }

/-- The record's continuation is the record at 0x2080, with this count. -/
def joinState (n : BitVec 8) : State :=
  ringState tackHart ([(0x5018, 0x80), (0x5019, 0x20)] ++ if n = 0 then [] else [(0x508C, n)])

theorem witness_JoinCounts : (joinState 0).me = some tackHart ∧ tackHart.push = none ∧
    ({ tackHart with push := some 0x2080 } : Hart).push = some 0x2080 ∧ tackHart.tack ≠ 0 ∧ ownsNoEntry (joinState 0) ∧
    (∃ s1, tackCell .read (tackHart.tack.toNat + 24) 8 8 (fun _ => none) tackHart (ringState tackHart []) = .ok 0 s1) ∧
    ∀ n, n ∈ [0, 1, 2] → ∃ q s1, tackCell .read (tackHart.tack.toNat + 24) 8 8 (fun _ => none) tackHart
        (joinState (BitVec.ofNat 8 n)) = .ok q s1 ∧
      ∃ s2, tackCell .both (q + 12) 4 4 (fun m => if m = 0 then none else some (m - 1)) tackHart
        (s1.releaseSteps s1.myCore tackHart.spaceTag .d) = .ok n s2 := by
  refine ⟨by decide +kernel, rfl, rfl, by decide, by unfold ownsNoEntry; decide +kernel,
    ⟨_, answers (by decide +kernel)⟩, fun n hn => reaches ?_⟩
  simp only [List.mem_cons, List.not_mem_nil, or_false] at hn
  rcases hn with rfl | rfl | rfl <;> decide +kernel

/-- A JOIN that has read its parent already, and one that a buffered store of its hart keeps back. -/
theorem witness_JoinAgain : (joinState 1).me = some tackHart ∧
    ({ joinState 1 with harts := [(0, joining tackHart 0x2080)] } : State).me = some (joining tackHart 0x2080) ∧
    (joining tackHart 0x2080).push = none ∧ (joining tackHart 0x2080).tack ≠ 0 ∧
    (joining tackHart 0x2080).parent = some 0x2080 ∧
    (joinState 1).offNormal tackHart.spaceTag (tackHart.tack.toNat + 24) = false ∧ (0x2080 : Nat) ≠ 0 ∧
    ¬ownsNoEntry storedState := by
  unfold ownsNoEntry
  and_intros <;> decide +kernel

/-- EndOfTackRetiresOrIdles: no other hart, and another one that holds work. -/
theorem witness_EndOfTackRetiresOrIdles : (alone probeHart).me = some probeHart ∧ ringUsed (alone probeHart) probeBlk = 0 ∧
    (alone probeHart).othersWork (alone probeHart).cur probeBlk = false ∧ ownsNoEntry (alone probeHart) ∧
    (∀ m ∈ ((alone probeHart).core 0).cmds, m.slot ≠ 0) ∧
    ringUsed (pairState probeHart { probeHart with works := true }) probeBlk = 0 ∧
    (pairState probeHart { probeHart with works := true }).othersWork 0 probeBlk = true := by
  unfold ownsNoEntry
  and_intros <;> decide +kernel

/-- An idle hart and a ring at 0x6000 with one tack, whose record is at 0x2000. -/
def idleHart : Hart := { dataHart true true with run := .idle 0 }
def popState : State :=
  ringState idleHart [(0x6001, 0x20), (0x10002C, 1), (0x100031, 0x60)]

theorem witness_TackPopStartsTack : popState.hart? (hkey 0 0) = some idleHart ∧ idleHart.run = .idle 0 ∧
    ringUsed popState idleHart.blk ≠ 0 ∧ popState.firstInLine (hkey 0 0) idleHart.blk (some 0) = true ∧
    headRecord popState idleHart.blk = 0x2000 ∧
    (∃ u, loadsHead { popState with cur := hkey 0 0 } u idleHart 0) ∧ usableRecord 0 :=
  ⟨by decide +kernel, rfl, by decide +kernel, by decide +kernel, by decide +kernel,
    ⟨_, answers (by decide +kernel)⟩, ⟨rfl, rfl⟩⟩

/-- A running hart at the same ring, and one with a buffered store. -/
def endState (m : Memory) : State := ringState (dataHart true true) m
def tackBytes : Memory := [(0x6001, 0x20), (0x10002C, 1), (0x100031, 0x60)]

/-- EndOfTackPopsNext: a usable record and one whose entry is no multiple of 4; a buffered store; an idle hart first. -/
theorem witness_EndOfTackPopsNext : (endState tackBytes).me = some (dataHart true true) ∧
    ringUsed (endState tackBytes) probeBlk ≠ 0 ∧ (endState tackBytes).firstInLine 0 probeBlk none = true ∧
    (dataHart true true).idleSince = none ∧ ownsNoEntry (endState tackBytes) ∧
    (∃ u, loadsHead (endState tackBytes) u (dataHart true true) 0) ∧ usableRecord 0 ∧
    (∃ u, loadsHead (endState ((0x5000, 1) :: tackBytes)) u (dataHart true true) 1) ∧ ¬usableRecord 1 ∧
    ({ storedState with mem := tackBytes } : State).firstInLine 0 probeBlk none = true ∧
    ¬ownsNoEntry { storedState with mem := tackBytes } ∧
    ({ pairState probeHart { probeHart with run := .idle 0 } with mem := tackBytes } : State).firstInLine 0 probeBlk
      none = false := by
  refine ⟨by decide +kernel, by decide +kernel, by decide +kernel, rfl, ?_, ⟨_, answers (by decide +kernel)⟩, ⟨rfl, rfl⟩,
    ⟨_, answers (by decide +kernel)⟩, ?_, by decide +kernel, ?_, by decide +kernel⟩
  · unfold ownsNoEntry
    decide +kernel
  · unfold usableRecord
    decide
  · unfold ownsNoEntry
    decide +kernel

/-- A hart that holds work and runs; a ring with room; and a full ring on which the only working hart waits. -/
theorem witness_FullRingDeadlockEndsDomain :
    (∃ q ∈ (ringState { probeHart with works := true } fullRing).harts, q.2.blk = probeBlk ∧ q.2.works = true ∧
      q.2.run = .running) ∧
    ringUsed (ringState probeHart []) probeBlk ≠ ringCap (ringState probeHart []) probeBlk ∧
    ((ringState { probeHart with works := true, run := .ringWait 0x2000 } fullRing).harts.filter fun q =>
      q.2.blk = probeBlk && q.2.works) = [(0, { probeHart with works := true, run := .ringWait 0x2000 })] ∧
    ringUsed (ringState probeHart fullRing) probeBlk = ringCap (ringState probeHart fullRing) probeBlk ∧
    (ringState { probeHart with works := true, run := .ringWait 0x2000 } fullRing).fe.saved = [] := by
  and_intros <;> decide +kernel

/-! ### Vector instructions on codes -/

/-- Nothing holds a vector instruction back, its mask is usable and vl fits its registers. -/
def ready (s : State) (h : Hart) (reads writes regs : List Nat) : Prop :=
  unheldVec s h reads writes ∧ maskUsable (atVec h reads writes) ∧ fits (atVec h reads writes) s regs

theorem ready_iff (s : State) (h : Hart) (reads writes regs : List Nat) : ready s h reads writes regs ↔
    (h.fail = none ∧ meets (reads ++ h.maskRegs ++ writes) ((s.core s.myCore).pendingFollows s.mySlot) = false) ∧
    ((atVec h reads writes).ctl.vm.toNat.testBit 6 = true →
      ((atVec h reads writes).getV ((atVec h reads writes).ctl.vm.toNat % 64)).tag = 0x13) ∧
    ∀ n ∈ regs, (atVec h reads writes).ctl.vl.toNat % 2 ^ 32 ≤ ((atVec h reads writes).tagAt n).capacity s.vlen := Iff.rfl

/-- A hart with i16 registers v1, v2 and v5, an m1 mask in v9, f32 registers v3, v4 and v6, a byte register v7, and vl at
the capacity of the widest. -/
def vecHart (vl : Nat) (vm : Word) : Hart :=
  let h := withV probeHart vl [(1, vec 0x01 16 [3, 2, 1]), (2, vec 0x01 16 [1, 2, 3]), (5, vec 0x01 16 []),
    (3, vec 0x0A 32 [0x3F800000]), (4, vec 0x0A 32 [0x40000000]), (6, vec 0x0A 32 []), (7, vec 0x00 8 []),
    (9, vec 0x13 1 [1, 0, 1])]
  withX { h with ctl := { h.ctl with vm := vm } } [(6, 1), (7, 0x99)]

/-- A form with vl at its capacity and the mask on. -/
theorem witness_CodeFormResults : ∃ c, codeForm (.vslu 0 5 1 6) = some c ∧
    (alone (vecHart 1024 0x49)).me = some (vecHart 1024 0x49) ∧
    ready (alone (vecHart 1024 0x49)) (vecHart 1024 0x49) (c.srcs.map BitVec.toNat) [c.d.toNat]
      (c.d.toNat :: c.srcs.map BitVec.toNat) ∧
    c.zero = true ∧ (atVec (vecHart 1024 0x49) (c.srcs.map BitVec.toNat) [c.d.toNat]).ctl.vstart = 0 ∧
    c.tags (atVec (vecHart 1024 0x49) (c.srcs.map BitVec.toNat) [c.d.toNat]) = true := by
  refine ⟨_, rfl, rfl, ?_⟩
  simp only [ready_iff]
  and_intros <;> decide +kernel

theorem witness_SelectResults : (alone (vecHart 1024 0x49)).me = some (vecHart 1024 0x49) ∧
    ready (alone (vecHart 1024 0x49)) (vecHart 1024 0x49) [1, 2] [5] [5, 1, 2] ∧
    same [5, 1, 2] (atVec (vecHart 1024 0x49) [1, 2] [5]) = true := by
  simp only [ready_iff]
  and_intros <;> decide +kernel

/-- The shifts, which read vA alone, and the funnel shifts, which read vD too. -/
theorem witness_BitStringShiftResults : (alone (vecHart 1024 0)).me = some (vecHart 1024 0) ∧
    ∀ reads, reads ∈ [[1], [1, 5]] → unheld (alone (vecHart 1024 0)) (vecHart 1024 0) reads [5] ∧
      (atRegs (vecHart 1024 0) reads [5]).ctl.vstart = 0 ∧ same [5, 1] (atRegs (vecHart 1024 0) reads [5]) = true ∧
      fits (atRegs (vecHart 1024 0) reads [5]) (alone (vecHart 1024 0)) [5, 1] := by
  unfold unheld fits
  decide +kernel

theorem witness_LogicReductionResults : (alone (vecHart 1024 0x49)).me = some (vecHart 1024 0x49) ∧
    ready (alone (vecHart 1024 0x49)) (vecHart 1024 0x49) [1] [5] [1] ∧
    same [5, 1] (atVec (vecHart 1024 0x49) [1] [5]) = true ∧ (atVec (vecHart 1024 0x49) [1] [5]).ctl.vstart = 0 := by
  simp only [ready_iff]
  and_intros <;> decide +kernel

/-- LengthAndTagResults and ElementMoves: a tag code that names a format, and one that names none. -/
theorem witness_VectorConfiguration : (alone (vecHart 4 0)).me = some (vecHart 4 0) ∧
    Tag.ofCode ((vecHart 4 0).getV 1).tag.toNat = some { fmt := .i16, scale := none } ∧
    unheld (alone (vecHart 4 0)) (vecHart 4 0) [] [5] ∧ unheld (alone (vecHart 4 0)) (vecHart 4 0) [1] [] ∧
    (Tag.ofCode 0x13).isSome = true ∧ Tag.ofCode 0x14 = none ∧
    Tag.ofCode ((withV probeHart 4 [(1, vec 0x14 16 [])]).getV 1).tag.toNat = none ∧
    Tag.ofCode ((atRegs (vecHart 4 0) [1] []).getV 1).tag.toNat = some { fmt := .i16, scale := none } ∧
    Tag.ofCode ((atRegs (vecHart 4 0) [] [5]).getV 5).tag.toNat = some { fmt := .i16, scale := none } := by
  unfold unheld
  and_intros <;> decide +kernel

/-- CompareResults between integers, and between floats without a trap; MaskCountResults and MaskBranchResults with some
element set and with none. -/
theorem witness_CompareAndMaskResults : (alone (vecHart 512 0)).me = some (vecHart 512 0) ∧
    ready (alone (vecHart 512 0)) (vecHart 512 0) [1, 2] [9] [9, 1, 2] ∧
    ready (alone (vecHart 4 0)) (vecHart 4 0) [3, 4] [9] [9, 3, 4] ∧
    ((atVec (vecHart 512 0) [1, 2] [9]).getV 9).tag = 0x13 ∧
    tagIs ((atVec (vecHart 512 0) [1, 2] [9]).tag 1) (fun t => t.fmt ≠ .m1) = true ∧
    tagIs ((atVec (vecHart 512 0) [1, 2] [9]).tag 2) (fun t => t.fmt ≠ .m1) = true ∧
    (atVec (vecHart 512 0) [1, 2] [9]).intTag 1 = true ∧ (atVec (vecHart 512 0) [1, 2] [9]).intTag 2 = true ∧
    tagIs ((atVec (vecHart 4 0) [3, 4] [9]).tag 3) (fun t => t.fmt ≠ .m1) = true ∧
    (∀ i ∈ (atVec (vecHart 4 0) [3, 4] [9]).actives,
      conditionFlag .lt ((atVec (vecHart 4 0) [3, 4] [9]).elem 3 ((atVec (vecHart 4 0) [3, 4] [9]).tagAt 3) i)
        ((atVec (vecHart 4 0) [3, 4] [9]).elem 4 ((atVec (vecHart 4 0) [3, 4] [9]).tagAt 4) i) &&&
        ((atVec (vecHart 4 0) [3, 4] [9]).ctl.frm.toNat / 256 % 32) = 0) ∧
    ready (alone (vecHart 4 0)) (vecHart 4 0) [9] [] [9] ∧ (atVec (vecHart 4 0) [9] []).ctl.vstart = 0 ∧
    ((atVec (vecHart 4 0) [9] []).getV 9).tag = 0x13 := by
  simp only [ready_iff]
  and_intros <;> decide +kernel

theorem witness_MaskBranchResults :
    (∃ i, takesPart (atVec (vecHart 4 0) [9] []) i ∧ ((atVec (vecHart 4 0) [9] []).getV 9).bits.getLsbD i = true) ∧
    (¬∃ i, takesPart (atVec (vecHart 0 0) [9] []) i ∧ ((atVec (vecHart 0 0) [9] []).getV 9).bits.getLsbD i = true) ∧
    (BitVec.ofInt 64 ((atVec (vecHart 4 0) [9] []).pc.toInt + 4 * (0xFFF : BitVec 13).toInt)).toNat % 4 = 0 := by
  refine ⟨⟨2, ?_⟩, ?_, by decide +kernel⟩
  · unfold takesPart
    and_intros <;> decide +kernel
  · rintro ⟨i, ⟨_, hi, _⟩, _⟩
    have h0 : (atVec (vecHart 0 0) [9] []).ctl.vl.toNat % 2 ^ 32 = 0 := by decide +kernel
    omega

/-! ### Vector arithmetic, conversion and transformation -/

/-- run15 with its mask in force. -/
def maskedRun : Hart := { run15 with ctl := { run15.ctl with vm := 0x49 } }

/-- ArithmeticResults: `vfma.rne v4, v1, v2` of the worked run. -/
theorem witness_ArithmeticResults : ∃ c, arithForm (.vfma 0 .rne 4 1 2) = some c ∧ (alone run15).me = some run15 ∧
    ready (alone run15) run15 (c.srcs.map BitVec.toNat) [c.d.toNat] (c.d.toNat :: c.srcs.map BitVec.toNat) ∧
    c.allowed (atVec run15 (c.srcs.map BitVec.toNat) [c.d.toNat]) ∧
    ∀ e ∈ (atVec run15 (c.srcs.map BitVec.toNat) [c.d.toNat]).actives,
      (c.elem (atVec run15 (c.srcs.map BitVec.toNat) [c.d.toNat]) e).flags &&&
        enables (atVec run15 (c.srcs.map BitVec.toNat) [c.d.toNat]) = 0 := by
  refine ⟨_, rfl, rfl, ?_⟩
  simp only [ready_iff]
  unfold ArithForm.allowed
  and_intros
  · rfl
  · decide +kernel
  · decide +kernel
  · decide +kernel
  · decide +kernel
  · exact .inr (.inr (by decide +kernel))
  · decide +kernel

/-- Integer registers with vl at their capacity, dividends and divisors with zero among them. -/
theorem witness_ArithmeticLimits : ∃ (c : ArithForm) (f : Nat → Int × Bool), arithForm (.vdiv 0 .rne 5 1 2) = some c ∧
    (alone (vecHart 1024 0x49)).me = some (vecHart 1024 0x49) ∧
    ready (alone (vecHart 1024 0x49)) (vecHart 1024 0x49) (c.srcs.map BitVec.toNat) [c.d.toNat]
      (c.d.toNat :: c.srcs.map BitVec.toNat) ∧
    c.allowed (atVec (vecHart 1024 0x49) (c.srcs.map BitVec.toNat) [c.d.toNat]) ∧
    (∀ v ∈ c.d :: c.srcs, (atVec (vecHart 1024 0x49) (c.srcs.map BitVec.toNat) [c.d.toNat]).intTag v.toNat = true) ∧
    c.srcs[0]? = some 1 ∧ c.srcs.getD 1 1 = 2 ∧
    ∀ e, integerResult (.vdiv 0 .rne 5 1 2)
      (widthOf (atVec (vecHart 1024 0x49) (c.srcs.map BitVec.toNat) [c.d.toNat]) c.d)
      ((atVec (vecHart 1024 0x49) (c.srcs.map BitVec.toNat) [c.d.toNat]).intAt 1 e)
      ((atVec (vecHart 1024 0x49) (c.srcs.map BitVec.toNat) [c.d.toNat]).intAt 2 e)
      ((atVec (vecHart 1024 0x49) (c.srcs.map BitVec.toNat) [c.d.toNat]).intAt c.d.toNat e) = some (f e) := by
  refine ⟨_, fun e => if (atVec (vecHart 1024 0x49) [1, 2] [5]).intAt 2 e = 0 then (-1, true) else
    (((atVec (vecHart 1024 0x49) [1, 2] [5]).intAt 1 e).tdiv ((atVec (vecHart 1024 0x49) [1, 2] [5]).intAt 2 e), false),
    rfl, rfl, ?_⟩
  simp only [ready_iff]
  unfold ArithForm.allowed
  and_intros
  · rfl
  · decide +kernel
  · decide +kernel
  · decide +kernel
  · decide +kernel
  · exact .inr (.inl (by decide +kernel))
  · decide +kernel
  · rfl
  · rfl
  · intro e
    rfl

/-- A NaN among the sources, quiet at its boundary 0x7FC00000 and signalling at 0x7FBFFFFF. -/
def nanHart : Hart := withV probeHart 2 [(1, vec 0x0A 32 [0x7FC00000, 0x7FBFFFFF]), (2, vec 0x0A 32 [0x3F800000]),
  (3, vec 0x0A 32 [])]

theorem witness_NaNOperandGivesQuietNaN : ∃ c, arithForm (.vadd 0 .rne 3 1 2) = some c ∧
    (∀ v ∈ c.d :: c.srcs, (nanHart.getV v.toNat).tag = 0x0A) ∧
    (∃ v ∈ c.srcs, at_ nanHart v 0 / 2 ^ 23 % 2 ^ 8 = 255 ∧ at_ nanHart v 0 % 2 ^ 23 ≠ 0) ∧ c.tags = .mixed ∧
    ∃ v ∈ c.srcs, (at_ nanHart v 1 / 2 ^ 23 % 2 ^ 8 = 255 ∧ at_ nanHart v 1 % 2 ^ 23 ≠ 0) ∧
      at_ nanHart v 1 / 2 ^ 22 % 2 = 0 := by
  refine ⟨_, rfl, ?_, ?_, rfl, ?_⟩ <;> decide +kernel

/-- A float division by zero with the trap of DZ enabled. -/
def trapHart : Hart :=
  let h := withV probeHart 1 [(1, vec 0x0A 32 [0x3F800000]), (2, vec 0x0A 32 [0]), (3, vec 0x0A 32 [])]
  { h with ctl := { h.ctl with frm := 0x800 } }

theorem witness_ArithmeticTrapTaken : ∃ c, arithForm (.vdiv 0 .rne 3 1 2) = some c ∧ (alone trapHart).me = some trapHart ∧
    ready (alone trapHart) trapHart (c.srcs.map BitVec.toNat) [c.d.toNat] (c.d.toNat :: c.srcs.map BitVec.toNat) ∧
    c.allowed (atVec trapHart (c.srcs.map BitVec.toNat) [c.d.toNat]) ∧
    0 ∈ (atVec trapHart (c.srcs.map BitVec.toNat) [c.d.toNat]).actives ∧
    (c.elem (atVec trapHart (c.srcs.map BitVec.toNat) [c.d.toNat]) 0).flags &&&
      enables (atVec trapHart (c.srcs.map BitVec.toNat) [c.d.toNat]) ≠ 0 ∧
    trapHart.loads = [] ∧ trapHart.mats = [] ∧ ((alone trapHart).core 0).cmds = [] := by
  refine ⟨_, rfl, rfl, ?_⟩
  simp only [ready_iff]
  unfold ArithForm.allowed
  and_intros
  · rfl
  · decide +kernel
  · decide +kernel
  · decide +kernel
  · decide +kernel
  · exact .inr (.inr (by decide +kernel))
  all_goals decide +kernel

/-- The operands that the table of the special functions names. -/
def specialHart : Hart := withV probeHart 6 [(1, vec 0x0A 32 [0, 0x80000000, 0x7F800000, 0xFF800000, 0x80000001, 0x40800000]),
  (3, vec 0x0A 32 [])]

/-- SpecialFunctionResults and SpecialFunctionTable. -/
theorem witness_SpecialFunctions : ∃ c, specialForm (.vrcp 0 .rne 3 1) = some c ∧
    (alone specialHart).me = some specialHart ∧
    ready (alone specialHart) specialHart [c.a.toNat] [c.d.toNat] [c.d.toNat, c.a.toNat] ∧
    specialTags ((atVec specialHart [c.a.toNat] [c.d.toNat]).tag c.d.toNat)
      ((atVec specialHart [c.a.toNat] [c.d.toNat]).tag c.a.toNat) = true ∧
    (atVec specialHart [c.a.toNat] [c.d.toNat]).modeOk c.r
      ((atVec specialHart [c.a.toNat] [c.d.toNat]).tagAt c.d.toNat).fmt = true ∧
    (∀ e ∈ (atVec specialHart [c.a.toNat] [c.d.toNat]).actives,
      (c.elem (atVec specialHart [c.a.toNat] [c.d.toNat]) e).flags &&&
        enables (atVec specialHart [c.a.toNat] [c.d.toNat]) = 0) ∧
    (specialHart.getV c.d.toNat).tag = 0x0A ∧ (specialHart.getV c.a.toNat).tag = 0x0A ∧
    (upto 5).map (at_ specialHart c.a) = [0, 0x80000000, 0x7F800000, 0xFF800000, 0x80000001] := by
  refine ⟨_, rfl, rfl, ?_⟩
  simp only [ready_iff]
  and_intros <;> decide +kernel

/-- A sum of floats, which reads its destination, and a minimum of integers, which does not. -/
theorem witness_ReductionResults : ∃ c k, reduceForm (.vrsum 0 .rne 6 3) = some c ∧
    reduceForm (.vrmin 0 .rne 5 1) = some k ∧ c.reads = [6, 3] ∧ k.reads = [1] ∧ k.tags = .own ∧
    (alone (vecHart 512 0)).me = some (vecHart 512 0) ∧
    ready (alone (vecHart 512 0)) (vecHart 512 0) [6, 3] [6] [3] ∧
    (atVec (vecHart 512 0) [6, 3] [6]).ctl.vstart = 0 ∧
    c.tags.ok ((atVec (vecHart 512 0) [6, 3] [6]).tag c.d.toNat)
      (c.srcs.map fun v => (atVec (vecHart 512 0) [6, 3] [6]).tag v.toNat) = true ∧
    (atVec (vecHart 512 0) [6, 3] [6]).modeOk c.r ((atVec (vecHart 512 0) [6, 3] [6]).tagAt c.d.toNat).fmt = true ∧
    (c.f (atVec (vecHart 512 0) [6, 3] [6]) (alone (vecHart 512 0))).flags &&& enables (atVec (vecHart 512 0) [6, 3] [6]) = 0 ∧
    ready (alone (vecHart 1024 0x49)) (vecHart 1024 0x49) [1] [5] [1] ∧
    k.tags.ok ((atVec (vecHart 1024 0x49) [1] [5]).tag k.d.toNat)
      (k.srcs.map fun v => (atVec (vecHart 1024 0x49) [1] [5]).tag v.toNat) = true ∧
    (∀ v ∈ k.d :: k.srcs, (atVec (vecHart 1024 0x49) [1] [5]).intTag v.toNat = true) ∧
    (atVec (vecHart 1024 0x49) [1] [5]).actives ≠ [] := by
  refine ⟨_, _, rfl, rfl, rfl, rfl, rfl, rfl, ?_⟩
  simp only [ready_iff]
  and_intros <;> decide +kernel

/-- A minimum whose elements 1 and 2 are signalling NaNs, with the trap of NV enabled. -/
def minHart : Hart :=
  let h := withV probeHart 3 [(1, vec 0x0A 32 [0x3F800000, 0x7FBFFFFF, 0x7FBFFFFE]), (3, vec 0x0A 32 [])]
  { h with ctl := { h.ctl with frm := 0x1000 } }

theorem witness_ReductionTrap : ∃ c, reduceForm (.vrmin 0 .rne 3 1) = some c ∧ c.start = false ∧ c.tags = .own ∧
    (alone minHart).me = some minHart ∧ ready (alone minHart) minHart [1] [3] [1] ∧ (atVec minHart [1] [3]).ctl.vstart = 0 ∧
    c.tags.ok ((atVec minHart [1] [3]).tag c.d.toNat) (c.srcs.map fun v => (atVec minHart [1] [3]).tag v.toNat) = true ∧
    (c.f (atVec minHart [1] [3]) (alone minHart)).flags &&& enables (atVec minHart [1] [3]) ≠ 0 ∧
    1 ∈ (atVec minHart [1] [3]).actives ∧ signals (atVec minHart [1] [3]) 1 1 ∧
    ∀ k ∈ (atVec minHart [1] [3]).actives, k < 1 → ¬signals (atVec minHart [1] [3]) 1 k := by
  refine ⟨_, rfl, rfl, rfl, rfl, ?_⟩
  simp only [ready_iff]
  unfold signals
  and_intros <;> decide +kernel

/-- 11 R222, R226: the signalling NaN of element 3 raises its flag as its own accumulator takes it in, so the record of the
sum names element 3; that of the minimum names element 1. -/
theorem test_reduction_trap_element :
    let h := withV probeHart 4 [(1, vec 0x0A 32 [0x3F800000, 0x3F800000, 0x3F800000, 0x7FBFFFFF]), (3, vec 0x0A 32 [])]
    let s := alone { h with ctl := { h.ctl with frm := 0x1000 } }
    ((run (.vrsum 0 .rne 3 1) s).readPA (probeArea + 0x5C) 4, (run (.vrmin 0 .rne 3 1) (alone minHart)).readPA (probeArea + 0x5C) 4)
      = (3, 1) := by decide +kernel

/-! ### Conversion -/

/-- An f32 register converted to bf16, an i16 to a byte, and an e4m3 register with its scales in k2. -/
def convHart : Hart :=
  withV probeHart 4 [(1, vec 0x0A 32 [0x3F800000, 0x3F808000]), (2, vec 0x09 16 []), (3, vec 0x01 16 [0x7F, 0x80]),
    (4, vec 0x00 8 []), (5, vec 0x0C 8 [0x38]), (8, vec 0x24 8 []), (10, vec 0x0A 32 [])]

theorem witness_ConversionResults : (alone convHart).me = some convHart ∧
    ready (alone convHart) convHart [1] [2] [2, 1] ∧
    tagIs ((atVec convHart [1] [2]).tag 1) element = true ∧
    tagIs ((atVec convHart [1] [2]).tag 2) (fun t => element t && decide (t.scale = none)) = true ∧
    ((atVec convHart [1] [2]).intTag 1 && (atVec convHart [1] [2]).intTag 2) = false ∧
    (atVec convHart [1] [2]).modeOk .rne ((atVec convHart [1] [2]).tagAt 2).fmt = true ∧
    (∀ i ∈ (atVec convHart [1] [2]).actives, (convert ((atVec convHart [1] [2]).tagAt 2).fmt
      ((atVec convHart [1] [2]).rnd ((atVec convHart [1] [2]).modeD .rne) i)
      ((atVec convHart [1] [2]).elem 1 ((atVec convHart [1] [2]).tagAt 1) i)).2 &&& enables (atVec convHart [1] [2]) = 0) ∧
    ready (alone convHart) convHart [3] [4] [4, 3] ∧ (atVec convHart [3] [4]).intTag 3 = true ∧
    (atVec convHart [3] [4]).intTag 4 = true ∧
    ready (alone convHart) convHart [5] [2] [2, 5] ∧
    tagIs ((atVec convHart [5] [2]).tag 5) (fun t => decide (t.scale = none) && t.fmt.isMx) = true ∧
    tagIs ((atVec convHart [5] [2]).tag 2) ieee = true ∧ (atVec convHart [5] [2]).ctl.vstart = 0 ∧
    (∀ i ∈ (atVec convHart [5] [2]).actives, (convert .bf16
      ((atVec convHart [5] [2]).rnd ((atVec convHart [5] [2]).modeD .rne) i)
      (scaledAt (atVec convHart [5] [2]) 5 .e4m3 (scaleByte (atVec convHart [5] [2]) 2 0 (i / 32)) i)).2 &&&
        enables (atVec convHart [5] [2]) = 0) := by
  simp only [ready_iff]
  and_intros <;> decide +kernel

/-- QuantiseResults: VQMX of v1, and VQEF of v1 and v10, into e4m3 codes whose scales go to the low half of k2. -/
theorem witness_QuantiseResults : (alone convHart).me = some convHart ∧
    ready (alone convHart) convHart [1] [8] [8, 1] ∧ (atVec convHart [1] [8]).ctl.vstart = 0 ∧
    tagIs ((atVec convHart [1] [8]).tag 1) ieee = true ∧ ((atVec convHart [1] [8]).tagAt 8).scale = some (2, 0) ∧
    (atVec convHart [1] [8]).modeOk .rne ((atVec convHart [1] [8]).tagAt 8).fmt = true ∧
    ready (alone convHart) convHart [1, 10] [8, 10] [8, 1, 10] ∧ (atVec convHart [1, 10] [8, 10]).ctl.vstart = 0 ∧
    ((atVec convHart [1, 10] [8, 10]).getV 1).tag = 0x0A ∧ ((atVec convHart [1, 10] [8, 10]).getV 10).tag = 0x0A ∧
    ((atVec convHart [1, 10] [8, 10]).tagAt 8).scale = some (2, 0) ∧
    ((atVec convHart [1, 10] [8, 10]).tagAt 8).fmt = .e4m3 ∧
    (atVec convHart [1, 10] [8, 10]).modeOk .rne .e4m3 = true := by
  simp only [ready_iff]
  and_intros <;> decide +kernel

/-- Field widths at their bounds: 1 signed, and the width of the elements. -/
def fieldHart (x : Word) : Hart := withX (vecHart 4 0) [(5, x)]

/-- BitFieldResults, LookupAndPackResults and ScaleRegisterMoves. -/
theorem witness_PackLookupAndScaleMoves : (alone (fieldHart 0x1081)).me = some (fieldHart 0x1081) ∧
    ((fieldHart 0x1081).getX 5).toNat / 2 ^ 24 = 0 ∧ ((fieldHart 0x1081).getX 5).toNat % 128 = 1 ∧
    ready (alone (fieldHart 0x1081)) (fieldHart 0x1081) [1] [5] [5] ∧
    (atVec (fieldHart 0x1081) [1] [5]).intTag 5 = true ∧
    tagIs ((atVec (fieldHart 0x1081) [1] [5]).tag 1) element = true ∧ 1 ≤ widthOf (atVec (fieldHart 0x1081) [1] [5]) 5 ∧
    ((fieldHart 0x10).getX 5).toNat / 2 ^ 24 = 0 ∧ ((fieldHart 0x10).getX 5).toNat % 128 = 16 ∧
    ready (alone (fieldHart 0x10)) (fieldHart 0x10) [1, 5] [5] [1] ∧
    (atVec (fieldHart 0x10) [1, 5] [5]).intTag 1 = true ∧
    tagIs ((atVec (fieldHart 0x10) [1, 5] [5]).tag 5) element = true ∧
    16 ≤ widthOf (atVec (fieldHart 0x10) [1, 5] [5]) 1 ∧ (0x10).testBit 7 = false := by
  simp only [ready_iff]
  and_intros <;> decide +kernel

theorem witness_LookupAndPackResults :
    (List.range ((256 * widthOf (vecHart 4 0) 7 + (alone (vecHart 4 0)).vlen - 1) / (alone (vecHart 4 0)).vlen)).map
      (7 + ·) = [7] ∧
    ready (alone (vecHart 4 0)) (vecHart 4 0) [1, 7] [7] [7, 1] ∧
    widthOf (atVec (vecHart 4 0) [1, 7] [7]) 7 = widthOf (vecHart 4 0) 7 ∧ (atVec (vecHart 4 0) [1, 7] [7]).intTag 1 = true ∧
    ((atVec (vecHart 4 0) [1, 7] [7]).tag 7).isSome = true ∧
    tagIs ((atVec (vecHart 4 0) [1, 7] [7]).tag 7) (fun t => element t && decide (t.width = 8)) = true ∧
    ready (alone (vecHart 1024 0x49)) (vecHart 1024 0x49) [1] [5] [5, 1] ∧
    (atVec (vecHart 1024 0x49) [1] [5]).ctl.vstart = 0 ∧ same [5, 1] (atVec (vecHart 1024 0x49) [1] [5]) = true := by
  simp only [ready_iff]
  and_intros <;> decide +kernel

/-- The last window of a scale register, filled to its end; with no active element too. -/
theorem witness_ScaleRegisterMoves : (alone (vecHart 64 0)).me = some (vecHart 64 0) ∧
    unheld (alone (vecHart 64 0)) (vecHart 64 0) [] [] ∧ ready (alone (vecHart 64 0)) (vecHart 64 0) [] [7] [7] ∧
    tagIs ((atVec (vecHart 64 0) [] [7]).tag 7) (fun t => decide (t.scale = none) && (t.fmt = .i8 || t.fmt = .n8)) = true ∧
    (atVec (vecHart 64 0) [] [7]).ctl.vl.toNat % 2 ^ 32 + 64 * (3 : BitVec 2).toNat ≤ 256 ∧
    ready (alone (vecHart 64 0)) (vecHart 64 0) [7] [] [7] ∧ (atVec (vecHart 64 0) [7] []).actives ≠ [] ∧
    ready (alone (vecHart 0 0)) (vecHart 0 0) [7] [] [7] ∧ (atVec (vecHart 0 0) [7] []).actives = [] := by
  simp only [ready_iff]
  unfold unheld
  and_intros <;> decide +kernel

/-! ### Vector memory -/

/-- Every run of a list of one run. -/
theorem oneRun {l : List (Word × Nat)} {q : Word × Nat} {P : Nat → Word × Nat → Prop} (hl : l = [q]) (h : P 0 q) :
    ∀ j p, l[j]? = some p → P j p := by
  subst hl
  intro j p hp
  cases j with
  | zero => cases hp; exact h
  | succ n => simp at hp

/-- The hart that loads and stores the last two words of the line at 0x2000 through g2: f32 in v3, indices in v5. -/
def lineHart (vl : Nat) : Hart :=
  withV (dataHart true true) vl [(3, vec 0x0A 32 [0x3F800000, 0x40000000]), (4, vec 0x02 32 [7]), (5, vec 0x02 32 [0xFF8])]

def lineState (vl : Nat) : State := cachedState (lineHart vl) true

theorem witness_VectorLoadResults : ∃ c, vecLoad (lineHart 2) (.vld 30 .row 2 0 3) = some c ∧
    (lineState 2).me = some (lineHart 2) ∧ unheld (lineState 2) (lineHart 2) c.reads c.writes ∧
    (atRegs (lineHart 2) c.reads c.writes).ctl.bthr.toNat % 2 ^ 32 = 0 ∧
    c.usable (atRegs (lineHart 2) c.reads c.writes) (lineState 2) ∧
    (c.access (atRegs (lineHart 2) c.reads c.writes) (lineState 2).vlen).els ≠ [] ∧
    (∀ e ∈ (c.access (atRegs (lineHart 2) c.reads c.writes) (lineState 2).vlen).els,
      (c.access (atRegs (lineHart 2) c.reads c.writes) (lineState 2).vlen).holds (lineState 2)
        (atRegs (lineHart 2) c.reads c.writes) e 0) ∧
    (c.access (atRegs (lineHart 0) c.reads c.writes) (lineState 0).vlen).els = [] := by
  refine ⟨_, rfl, by decide +kernel, by unfold unheld; decide +kernel, by decide +kernel, ?_, by decide +kernel, ?_,
    by decide +kernel⟩
  · simp only [byElement, masked]
    unfold maskUsable fits always
    and_intros <;> trivial
  · intro e he
    have hl : e = 0 ∨ e = 1 := by
      have : e ∈ [0, 1] := he
      simpa using this
    rcases hl with rfl | rfl <;>
    · refine ⟨by decide, oneRun rfl ?_⟩
      refine ⟨dataEntry true, dataFrame, ?_, ?_, by decide +kernel⟩
      · unfold VecAccess.granted segGrants
        and_intros <;> decide +kernel
      · unfold nearBytes notBuffered
        and_intros <;> decide +kernel

theorem witness_LoadComplete : (alone { probeHart with loads := [.v 3 (vec 0x0A 32 [1])] }).hart? (hkey 0 0) =
    some { probeHart with loads := [.v 3 (vec 0x0A 32 [1])] } := rfl

theorem witness_VectorStoreResults : ∃ c code, vecStore (lineHart 2) (.vst 30 .row 2 0 3) = some (c, code) ∧
    (lineState 2).me = some (lineHart 2) ∧ unheld (lineState 2) (lineHart 2) c.reads c.writes ∧
    (atRegs (lineHart 2) c.reads c.writes).ctl.bthr.toNat % 2 ^ 32 = 0 ∧
    (atRegs (lineHart 2) c.reads c.writes).placed = none ∧ (atRegs (lineHart 2) c.reads c.writes).ordered = false ∧
    ((lineState 2).core 0).bypass = [] ∧ ((lineState 2).core 0).target = [] ∧
    (((lineState 2).core 0).sb.filter fun q => q.slot = 0).length ≤ ((lineState 2).core 0).sbLimit ∧
    distinctFrames ((lineState 2).core 0).l1 ∧ c.usable (atRegs (lineHart 2) c.reads c.writes) (lineState 2) ∧
    ∀ x ∈ (c.access (atRegs (lineHart 2) c.reads c.writes) (lineState 2).vlen).els, ∀ (j : Nat) (p : Word × Nat),
      ((c.access (atRegs (lineHart 2) c.reads c.writes) (lineState 2).vlen).runs x)[j]? = some p → ∃ e f,
        (c.access (atRegs (lineHart 2) c.reads c.writes) (lineState 2).vlen).granted (lineState 2)
          (atRegs (lineHart 2) c.reads c.writes) p.1 p.2 e false true ∧ e.cf = true ∧
        0x2078 + 4 * x = (c.access (atRegs (lineHart 2) c.reads c.writes) (lineState 2).vlen).cell
          (atRegs (lineHart 2) c.reads c.writes) p.1 e ∧
        nearBytes (lineState 2) (atRegs (lineHart 2) c.reads c.writes) (0x2078 + 4 * x) p.2 f := by
  refine ⟨_, _, rfl, by decide +kernel, by unfold unheld; decide +kernel, by decide +kernel, by decide +kernel,
    by decide +kernel, by decide +kernel, by decide +kernel, by decide +kernel, by unfold distinctFrames; decide +kernel, ?_, ?_⟩
  · simp only [byElement, masked]
    unfold maskUsable fits always
    and_intros <;> trivial
  · intro x hx
    have hl : x = 0 ∨ x = 1 := by
      have : x ∈ [0, 1] := hx
      simpa using this
    rcases hl with rfl | rfl <;>
    · refine oneRun rfl ?_
      refine ⟨dataEntry true, dataFrame, ?_, rfl, by decide +kernel, ?_⟩
      · unfold VecAccess.granted segGrants
        and_intros <;> decide +kernel
      · unfold nearBytes notBuffered
        and_intros <;> decide +kernel

/-- What an operation answers for each of some things in turn, and the machine after the last. -/
def collect {α β : Type} (f : α → State → Res β) : List α → State → Option (List β × State)
  | [], s => some ([], s)
  | x :: xs, s =>
    match f x s with
    | .ok y u => (collect f xs u).map fun p => (y :: p.1, p.2)
    | .stop _ _ => none

theorem collected {α β : Type} {f : α → State → Res β} {xs : List α} {s t : State} {l : List β}
    (h : collect f xs s = some (l, t)) : Slice0.answers f xs s l t := by
  induction xs generalizing s l with
  | nil => cases h; exact ⟨rfl, rfl⟩
  | cons x xs ih =>
    simp only [collect] at h
    split at h
    · next y u hx =>
      obtain ⟨⟨m, v⟩, hm, e⟩ := Option.map_eq_some_iff.mp h
      cases e
      exact ⟨y, m, u, hx, rfl, ih hm⟩
    · cases h

/-- The updates of a VAMO's elements in turn. -/
def vamoUpdate (c : VamoForm) (g : Hart) (new : Nat → Nat → Option Nat) (q : Piece) :=
  atomicCell q.a q.e q.cell (widthOf g c.d / 8) c.sc (new q.i)

/-- What an operation answers, and the machine after it. -/
def reply {α : Type} : Res α → Option α × State
  | .ok a s => (some a, s)
  | .stop _ s => (none, s)

theorem replied {α : Type} {r : Res α} {a : α} (h : (reply r).1 = some a) : r = .ok a (reply r).2 := by
  cases r with
  | ok b s => cases h; rfl
  | stop _ _ => cases h

/-- The checks of a VAMO's active elements, and the update of each tried in turn. -/
def vamoChecks (c : VamoForm) (g : Hart) (s : State) := reply (checkElems g (g.actives.map fun e => [c.req g e]) s)
def vamoPlaces (c : VamoForm) (g : Hart) (s : State) : List Piece := ((vamoChecks c g s).1.map (·.1)).getD []
def vamoTried (c : VamoForm) (g : Hart) (s : State) :=
  collect (vamoUpdate c g fun _ _ => none) (vamoPlaces c g s) (vamoChecks c g s).2

/-- Whether every active element passes its checks, off every device page, and can be updated, in ascending order. -/
def vamoRuns (c : VamoForm) (g : Hart) (s : State) : Bool :=
  let places := vamoPlaces c g s
  decide ((vamoChecks c g s).1 = some (places, none)) && places.all (fun q => q.e.attr.mc = .normal) &&
    match vamoTried c g s with
    | none => false
    | some (_, s2) => (collect (vamoUpdate c g fun e m => some (c.new g e m).1) places
        { s2 with free := s2.free + places.length }).isSome

theorem vamo_meets {c : VamoForm} {g : Hart} {s : State} (h : vamoRuns c g s = true) : ∃ places s1 first s2 olds s3,
    checkElems g (g.actives.map fun e => [c.req g e]) s = .ok (places, none) s1 ∧
    (∀ q ∈ places, q.e.attr.mc = .normal) ∧
    Slice0.answers (vamoUpdate c g fun _ _ => none) places s1 first s2 ∧
    Slice0.answers (vamoUpdate c g fun e m => some (c.new g e m).1) places
      { s2 with free := s2.free + places.length } olds s3 := by
  unfold vamoRuns at h
  simp only [Bool.and_eq_true, decide_eq_true_eq] at h
  obtain ⟨⟨hc, hn⟩, h⟩ := h
  split at h
  · cases h
  · next first s2 h2 =>
    obtain ⟨⟨olds, s3⟩, h3⟩ := Option.isSome_iff_exists.mp h
    exact ⟨_, _, first, s2, olds, s3, replied hc, by simpa using hn, collected h2, collected h3⟩

/-- `vamoadd.d.any v4` of two elements, at the page's last doubleword and at its start. -/
theorem witness_VectorAtomicResults : ∃ c, vamoForm (.vamoadd .d .any 2 0 4) = some c ∧
    (dataState (lineHart 2) true).me = some (lineHart 2) ∧
    ready (dataState (lineHart 2) true) (lineHart 2) [c.d.toNat, (c.d + 1).toNat] [c.d.toNat] [c.d.toNat, (c.d + 1).toNat] ∧
    tagIs ((atVec (lineHart 2) [c.d.toNat, (c.d + 1).toNat] [c.d.toNat]).tag c.d.toNat) c.ok = true ∧
    (atVec (lineHart 2) [c.d.toNat, (c.d + 1).toNat] [c.d.toNat]).intTag (c.d + 1).toNat = true ∧
    (atVec (lineHart 0) [c.d.toNat, (c.d + 1).toNat] [c.d.toNat]).actives = [] ∧
    (atVec (lineHart 2) [c.d.toNat, (c.d + 1).toNat] [c.d.toNat]).actives = [0, 1] ∧
    vamoRuns c (atVec (lineHart 2) [c.d.toNat, (c.d + 1).toNat] [c.d.toNat]) (dataState (lineHart 2) true) = true := by
  refine ⟨_, rfl, ?_⟩
  simp only [ready_iff]
  and_intros <;> decide +kernel

/-- One index, which names a word of the page's first line; the form at a scope, and its operands; the machines of the three
levels. -/
def landHart : Hart := withV (lineHart 1) 1 [(4, vec 0x02 32 [7]), (5, vec 0x02 32 [0x78])]
def landForm (sc : AScope) : VamoForm :=
  (vamoForm (.vamoadd sc .any 2 0 4)).getD ⟨sc, .any, 0, 0, 0, fun _ => false, fun _ m _ => (m, 0)⟩
def landVec : Hart := atVec landHart [4, 5] [4]
def landStates : List (AScope × State) :=
  [(.c, cachedState landHart true), (.k, (dataState landHart true).setCluster 0 { Cluster.reset with l2 := [dataFrame] }),
    (.d, dataState landHart true)]

/-- The word's access as checked, and the machine once its update has been tried. -/
def landPiece : Piece :=
  { i := 0, last := 0, e := dataEntry true, cell := 0x2078, n := 4, x := 0
    a := { core := 0, slot := 0, space := 1, user := true, kind := 2, gseg := 2, off := 0x78, rva := 0x2078, pva := 0x2078,
           va := 0x2078, elem := 0, ew := 32, col := false, requester := true } }
def landTried (p : AScope × State) : Option Nat × State :=
  reply (atomicCell landPiece.a landPiece.e landPiece.cell 4 p.1 (fun _ => none) (vamoChecks (landForm p.1) landVec p.2).2)

theorem witness_VectorAtomicLands : landVec.actives = [0] ∧
    (∀ p ∈ landStates, vamoForm (.vamoadd p.1 .any 2 0 4) = some (landForm p.1)) ∧
    ∀ p ∈ landStates, p.2.me = some landHart ∧ ready p.2 landHart [4, 5] [4] [4, 5] ∧
      tagIs (landVec.tag 4) (landForm p.1).ok = true ∧ landVec.intTag 5 = true ∧
      checkElems landVec [[(landForm p.1).req landVec 0]] p.2 = .ok ([landPiece], none) (vamoChecks (landForm p.1) landVec p.2).2 ∧
      atomicCell landPiece.a landPiece.e landPiece.cell 4 p.1 (fun _ => none) (vamoChecks (landForm p.1) landVec p.2).2 =
        .ok 0 (landTried p).2 ∧
      ((landTried p).2.core 0).bypass = [] ∧ notBuffered ((landTried p).2.core 0) 0 landVec.spaceTag 0x2078 4 := by
  refine ⟨by decide +kernel, fun p hp => ?_, fun p hp => ?_⟩
  · simp only [landStates, List.mem_cons, List.not_mem_nil, or_false] at hp
    rcases hp with rfl | rfl | rfl <;> rfl
  · have h1 : (vamoChecks (landForm p.1) landVec p.2).1 = some ([landPiece], none) := by revert p; decide +kernel
    have h2 : (landTried p).1 = some 0 := by revert p; decide +kernel
    refine ⟨?_, ?_, ?_, ?_, replied h1, replied h2, ?_, ?_⟩
    · revert p; decide +kernel
    · simp only [ready_iff]
      and_intros <;> (revert p; decide +kernel)
    · revert p; decide +kernel
    · revert p; decide +kernel
    · revert p; decide +kernel
    · unfold notBuffered; revert p; decide +kernel

/-- At core scope the word stands in the L1, at cluster scope in the L2 alone, and at device scope at home alone. -/
theorem witness_VectorAtomicLevels :
    (∀ s, (AScope.c, s) ∈ landStates → standsIn ((landTried (.c, s)).2.core 0).l1 1 0x2078 4 0 dataFrame) ∧
    (∀ s, (AScope.k, s) ∈ landStates → Cache.find ((landTried (.k, s)).2.core 0).l1 1 0x2078 = none ∧
      ((landTried (.k, s)).2.core 0).wbq = [] ∧ standsIn ((landTried (.k, s)).2.cluster 0).l2 1 0x2078 4 0 dataFrame) ∧
    ∀ s, (AScope.d, s) ∈ landStates → Cache.find ((landTried (.d, s)).2.core 0).l1 1 0x2078 = none ∧
      Cache.find ((landTried (.d, s)).2.cluster 0).l2 1 0x2078 = none ∧ ((landTried (.d, s)).2.core 0).wbq = [] ∧
      ((landTried (.d, s)).2.cluster 0).wbq = [] ∧ standsAtHome (landTried (.d, s)).2 0 1 0x2078 4 0 dataLeaf := by
  refine ⟨fun s hs => ?_, fun s hs => ?_, fun s hs => ?_⟩ <;>
    (simp only [landStates, List.mem_cons, List.not_mem_nil, or_false, Prod.mk.injEq, reduceCtorEq, false_and, true_and,
      false_or] at hs; subst hs)
  · unfold standsIn distinctFrames
    and_intros <;> decide +kernel
  · unfold standsIn distinctFrames
    and_intros <;> decide +kernel
  · refine ⟨by decide +kernel, by decide +kernel, by decide +kernel, by decide +kernel, leafFound ?_, ?_⟩ <;> decide +kernel

/-! ### Scratchpad, index scratchpad, matrix unit -/

/-- Two words at the end of the grant of one unit: the address in x4, no pitch, no walk. -/
def padHart (vl : Nat) : Hart := withX (withV probeHart vl [(3, vec 0x0A 32 [1, 2])]) [(4, 0x7FF8)]

theorem witness_ScratchpadMoves : (padState (padHart 2)).me = some (padHart 2) ∧
    ready (padState (padHart 2)) (padHart 2) [] [3] [3] ∧ ready (padState (padHart 2)) (padHart 2) [3] [] [3] ∧
    tagIs ((atVec (padHart 2) [] [3]).tag 3) element = true ∧ tagIs ((atVec (padHart 2) [3] []).tag 3) element = true ∧
    (spOperand (atVec (padHart 2) [] [3]) 3 4 0).check (.spld 0 3 4 0) 0
      (((padState (padHart 2)).core 0).grantOf probeBlk) (atVec (padHart 2) [] [3]).actives = none ∧
    (spOperand (atVec (padHart 2) [3] []) 3 4 0).check (.spst 0 3 4 0) 1
      (((padState (padHart 2)).core 0).grantOf probeBlk) (atVec (padHart 2) [3] []).actives = none ∧
    (∀ i ∈ (atVec (padHart 2) [] [3]).actives, ∀ j, j < spCount 32 i →
      ((padState (padHart 2)).core 0).spPoisoned (((padState (padHart 2)).core 0).grantOf probeBlk)
        (spByte 0x7FF8 0 0 32 i j) 1 = false) ∧
    (atVec (padHart 2) [] [3]).actives ≠ [] ∧ (atVec (padHart 0) [] [3]).actives = [] ∧
    meets (padHart 2).maskRegs (((padState (padHart 2)).core 0).pendingFollows 0) = false := by
  simp only [ready_iff]
  and_intros <;> decide +kernel

/-- Keys in v2, values in v3, the mask in v9, with vl at the capacity of the values; two entries are in the table. -/
def indexHart (vl : Nat) : Hart :=
  withV probeHart vl [(2, vec 0x02 32 [7, 7, 5]), (3, vec 0x03 64 [5, 6]), (4, vec 0x03 64 []), (9, vec 0x13 1 [])]

def indexState (h : Hart) : State :=
  (alone h).setCore 0 { Core.reset with grants := [{ padGrant with table := [(5, 50), (7, 70)] }] }

theorem witness_IndexScratchpad : (indexState (indexHart 256)).me = some (indexHart 256) ∧
    ready (indexState (indexHart 256)) (indexHart 256) [2, 3] [9] [9, 2, 3] ∧
    (atVec (indexHart 256) [2, 3] [9]).intTag 2 = true ∧ tagIs ((atVec (indexHart 256) [2, 3] [9]).tag 3) valued = true ∧
    ((atVec (indexHart 256) [2, 3] [9]).getV 9).tag = 0x13 ∧
    0 < (((indexState (indexHart 256)).core 0).grantOf probeBlk).ixUnits ∧
    (∀ e ∈ (atVec (indexHart 256) [2, 3] [9]).actives, keyAt (atVec (indexHart 256) [2, 3] [9]) 2 e ∉
      (((indexState (indexHart 256)).core 0).grantOf probeBlk).tablePoison) := by
  refine ⟨rfl, ?_⟩
  simp only [ready_iff]
  and_intros <;> decide +kernel

/-- SXACC of f64 values: the sum of one entry is inexact, that of two of a key that is not there is not. -/
def sumHart : Hart :=
  withV probeHart 3 [(2, vec 0x02 32 [7, 9, 9]), (3, vec 0x0B 64 [0x3FF0000000000000, 0x3FF0000000000000, 0x3FF0000000000000]),
    (9, vec 0x13 1 [])]

theorem witness_IndexSums : sums (.sxacc 0 9 2 3) ∧ ((atVec sumHart [2, 3] [9]).tagAt 3).fmt = .f64 ∧
    tagIs ((atVec sumHart [2, 3] [9]).tag 3) valued = true ∧ (atVec sumHart [2, 3] [9]).actives = [0, 1, 2] ∧
    (upto 3).map (keyAt (atVec sumHart [2, 3] [9]) 2) = [7, 9, 9] ∧
    sumFlags (some 0x4340000000000000) [0x3FF0000000000000] = 1 ∧
    sumFlags none [0x3FF0000000000000, 0x3FF0000000000000] = 0 :=
  ⟨trivial, by decide +kernel, by decide +kernel, by decide +kernel, by decide +kernel, by decide +kernel, by decide +kernel⟩

/-- SXLKP of v2 into v4 and v9, with and without active elements; SXDRN into v4 and v3 of none and of both entries. -/
theorem witness_IndexReadResults : updateForm (.sxins 0 9 2 3) = some (9, 2, 3, fun _ m _ => m) ∧
    ready (indexState (indexHart 256)) (indexHart 256) [2] [4, 9] [4, 2, 9] ∧
    tagIs ((atVec (indexHart 256) [2] [4, 9]).tag 4) valued = true ∧
    ((atVec (indexHart 256) [2] [4, 9]).getV 9).tag = 0x13 ∧
    (atVec (indexHart 256) [2] [4, 9]).actives ≠ [] ∧ (atVec (indexHart 0) [2] [4, 9]).actives = [] ∧
    unheld (indexState (indexHart 256)) (indexHart 256) [] [4, 3] ∧
    (atRegs (indexHart 256) [] [4, 3]).ctl.vstart = 0 ∧
    tagIs ((atRegs (indexHart 256) [] [4, 3]).tag 4) (fun t => valued t && t.isInt) = true ∧
    tagIs ((atRegs (indexHart 256) [] [4, 3]).tag 3) valued = true ∧
    fits (atRegs (indexHart 256) [] [4, 3]) (indexState (indexHart 256)) [4, 3] ∧
    (∀ p ∈ (((indexState (indexHart 256)).core 0).grantOf probeBlk).table, p.1 ∉
      (((indexState (indexHart 256)).core 0).grantOf probeBlk).tablePoison) ∧
    (((indexState (indexHart 256)).core 0).grantOf probeBlk).table.Pairwise (fun p q => p.1 < q.1) ∧
    min ((atRegs (indexHart 256) [] [4, 3]).ctl.vl.toNat % 2 ^ 32)
      (((indexState (indexHart 256)).core 0).grantOf probeBlk).table.length = 2 ∧
    min ((atRegs (indexHart 0) [] [4, 3]).ctl.vl.toNat % 2 ^ 32)
      (((indexState (indexHart 256)).core 0).grantOf probeBlk).table.length = 0 ∧
    unheld (indexState (indexHart 256)) (indexHart 256) [] [] := by
  refine ⟨rfl, ?_⟩
  simp only [ready_iff]
  unfold unheld fits
  and_intros <;> decide +kernel

/-- Integer operands: i8 by n8 into i32, one row, one column, the least depth. -/
def intMat : Hart :=
  { withV probeHart 0 ([(0, vec 0x00 8 [0xFF]), (1, vec 0x04 8 [0xFF])] ++
      (upto 8).map fun q => (8 + q, vec 0x02 32 [])) with
    ctl := { Ctrl.reset with mrow := 1, mcol := 1, mdep := 64 } }

theorem witness_MatrixResults : ∃ m, matrixForm (.mma 0 false .ip 8 (.reg 0) (.reg 1)) = some m ∧
    (alone intMat).me = some intMat ∧
    m.check (.mma 0 false .ip 8 (.reg 0) (.reg 1)) intMat (alone intMat).vlen ((alone intMat).core 0).part = none ∧
    unheld (alone intMat) intMat (matrixReads m intMat (alone intMat).vlen) m.dRegs ∧
    m.checkTiles (.mma 0 false .ip 8 (.reg 0) (.reg 1)) (((alone intMat).core 0).grantOf probeBlk)
      (atRegs intMat (matrixReads m intMat (alone intMat).vlen) m.dRegs) = none ∧
    m.checkPoison ((alone intMat).core 0) (((alone intMat).core 0).grantOf probeBlk)
      (atRegs intMat (matrixReads m intMat (alone intMat).vlen) m.dRegs) = none ∧
    matRow (m.ta intMat) (m.tb intMat) (m.td intMat) = some true := by
  refine ⟨_, rfl, ?_⟩
  unfold unheld
  and_intros <;> decide +kernel

/-- A last in the page's last line: rank 2, 32 by 1 elements of bf16, one of two stored, its metadata at the page's start. -/
def sparseLast : Nat :=
  (1 <<< 56) + (1 <<< 48) + (2 <<< 44) + (2 <<< 40) + (9 <<< 32) + (2 <<< 29) + (1 <<< 23) + (32 <<< 128) + (1 <<< 160) +
    (256 <<< 256)

def mlastHart : Hart :=
  let h := withX (withV (dataHart true true) 0 [(40, vec 0x04 8 [])]) [(4, 0xFC0)]
  { h with ctl := { h.ctl with mrow := 1, mcol := 1, mdep := 32 } }

def mlastState : State :=
  let s := dataState mlastHart true
  { s with mem := (s.mem.write 0x5000 [0x44, 0x44, 0x44, 0x44]).write 0x5FC0 (toBytes 64 sparseLast) }

/-- A D group that waits to be written. -/
def owedGroup : PendingMat := { dst := 8, vals := List.replicate 8 (vec 0x0A 32 [1]), flags := 1 }

theorem witness_MatrixLastAndComplete : mlastState.me = some mlastHart ∧ (mlastState.core 0).lpart ≤ 3 ∧
    mlastHart.ctl.vstart = 0 ∧ mlastHart.ctl.mrow.toNat % 128 = 1 ∧ mlastHart.ctl.mdep.toNat % 512 = 32 ∧
    (mlastHart.getV 40).tag = 0x04 ∧ (1 * 32 + mlastState.vlen - 1) / mlastState.vlen = 1 ∧ 40 + 1 ≤ 64 ∧
    unheld mlastState mlastHart [] ((List.range 1).map (40 + ·)) ∧
    (∃ s1, mlastRead 2 4 (atRegs mlastHart [] ((List.range 1).map (40 + ·))) mlastState = .ok 0x44444444 s1) ∧
    (alone { probeHart with mats := [owedGroup] }).hart? (hkey 0 0) = some { probeHart with mats := [owedGroup] } := by
  refine ⟨by decide +kernel, by decide +kernel, by decide +kernel, by decide +kernel, by decide +kernel,
    by decide +kernel, by decide +kernel, by decide, by unfold unheld; decide +kernel, ⟨_, answers (by decide +kernel)⟩, rfl⟩

/-! ### Copy engine -/

theorem answersD {α : Type} {r : Res α} (d : α) (h : (answer r).isSome = true) : r = .ok ((answer r).getD d) (left r) := by
  cases r with
  | ok a s => rfl
  | stop _ _ => simp [answer] at h

/-- A command of i64 elements from the page's last line to the end of the grant, with an eyelet of 1 at 0x7F80, in its
words: memory through g2 to scratchpad. -/
def copyWords (rows n : Nat) : List Word :=
  [BitVec.ofNat 64 ((1 <<< 23) + (1 <<< 19) + (3 <<< 11) + (3 <<< 5)), 0xFC0, 0x7FC0,
   BitVec.ofNat 64 ((2 <<< 60) + (rows <<< 40) + n), 8, 8, 0x7F80, 1]

/-- A hart with a command's words in x8 to x15. -/
def cmdHart (h : Hart) (ws : List Word) : Hart :=
  withX h ((upto 8).map fun k => (BitVec.ofNat 5 (8 + k), ws.getD k 0))

def copyHart (rows n : Nat) : Hart := cmdHart (dataHart true true) (copyWords rows n)

/-- The machine of the data page and of the grant. -/
def engineState (h : Hart) (cmds : List Cmd) : State :=
  let s := dataState h true
  s.setCore 0 { s.core 0 with grants := [padGrant], cmds := cmds }

/-- The command in its transfer. -/
def copyCmd (rows n : Nat) : Cmd :=
  { (engineState (copyHart rows n) []).newCmd (copyHart rows n) (copyWords rows n) none with stage := .transfer }

/-- A follow-on `mma.ip` of the registers of run18. -/
def followHart : Hart := cmdHart run18 [BitVec.ofNat 64 (0x00080461 <<< 32)]

/-- XCP that passes, that fails at its form, and that finds no place; XCPM that passes and that fails; XCHAIN with its first
record in the page's last line, and one that begins past its limit. -/
theorem witness_EngineCommandsIssue : (engineState (copyHart 1 1) []).me = some (copyHart 1 1) ∧
    ((engineState (copyHart 1 1) []).newCmd (copyHart 1 1) (wordsOf (copyHart 1 1) 8) none).check .xcp (copyHart 1 1) 0
      (engineState (copyHart 1 1) []) = none ∧
    mayIssue (engineState (copyHart 1 1) []) ∧
    ((engineState (cmdHart probeHart [1]) []).newCmd (cmdHart probeHart [1]) (wordsOf (cmdHart probeHart [1]) 8) none).check
      .xcp (cmdHart probeHart [1]) 0 (engineState (cmdHart probeHart [1]) []) = some 0x01 ∧
    ((alone probeHart).newCmd (cmdHart probeHart [1]) (wordsOf (cmdHart probeHart [1]) 8) none).check .xcpm
      (cmdHart probeHart [1]) 0 (alone (cmdHart probeHart [1])) = some 0x01 ∧
    ¬mayIssue (engineState (copyHart 1 1) (List.replicate 64 (copyCmd 1 1))) ∧
    ((alone followHart).newCmd followHart (wordsOf followHart 8) none).check .xcpm followHart 0 (alone followHart) = none ∧
    mayIssue (alone followHart) ∧
    segGrants ((dataHart true true).getG 2) 0xFC0 64 true false ∧
    segCause ((dataHart true true).getG 2) 0xFC8 64 .read = some 0x06 := by
  unfold mayIssue segGrants
  and_intros <;> decide +kernel

theorem witness_FollowIssue : ∃ x, ((alone followHart).newCmd followHart (wordsOf followHart 8) none).followInstr =
    some (.mma 0 false .ip 8 (.reg 0) (.reg 1)) ∧ followIn (.mma 0 false .ip 8 (.reg 0) (.reg 1)) = some x ∧
    unheld (alone followHart) followHart (x.reads followHart (alone followHart).vlen) x.dRegs := by
  refine ⟨_, by decide +kernel, rfl, ?_⟩
  unfold unheld
  decide +kernel

theorem witness_EngineStatusReads : (engineState (copyHart 1 1) [copyCmd 1 1]).me = some (copyHart 1 1) := by
  decide +kernel

/-- What a command keeps of its writes is its follow-on's alone. -/
theorem keepOwn_follow (m : Cmd) (core : Nat) (p : ElemPlace) (s : State) : ∃ f, m.keepOwn core p s = { m with follow := f } := by
  unfold Cmd.keepOwn
  split
  · split
    · exact ⟨m.follow, rfl⟩
    · exact ⟨_, rfl⟩
  · exact ⟨m.follow, rfl⟩

/-- Some elements move one after the other: what the engine answers is what the statement asks for. -/
theorem elements_move {core k : Nat} {b : Cmd × State} {m n : Cmd} {s t : State}
    (h : moveElems core k k b m s = (n, none, t)) : elementsMove core k m n s t := by
  induction k generalizing m s b with
  | zero =>
    cases h
    exact ⟨rfl, rfl⟩
  | succ k ih =>
    obtain ⟨c, u, hc, hk⟩ := (moveElems_none (.inl (Nat.succ_ne_zero k))).mp h
    obtain ⟨p, x, f, s1, s2, hp, hx, hf, rfl⟩ := moveElem_ok.mp hc
    refine ⟨_, u, ⟨p.1, p.2, x, f, s1, s2, hp, hx, hf, ?_⟩, ih hk⟩
    obtain ⟨g, hg⟩ := keepOwn_follow m core p.2 u
    have hn : m.n = perRow m := by
      simp [Cmd.n, perRow, fld, Cmd.word]
    unfold Cmd.advance
    simp only [hg, ← hn]
    have hm : Cmd.n { m with follow := g, flags := m.flags ||| BitVec.ofNat 8 f } = m.n := rfl
    rw [hm]
    split <;> rfl

/-- The command without its eyelet. -/
def bareCmd : Cmd := { copyCmd 1 1 with c := BitVec.ofNat 64 ((1 <<< 19) + (3 <<< 11) + (3 <<< 5)) :: (copyWords 1 1).tail }

/-- What one transfer of a command moves. -/
def moved (m : Cmd) : Cmd × Option Stop × State :=
  let k := min (perRow m - m.j) (1024 / max m.src.w m.dst.w)
  moveElems 0 k k (m, engineState (copyHart 1 1) [m]) m (engineState (copyHart 1 1) [m])

theorem moved_fully {m : Cmd} (h : (moved m).2.1.isNone = true) (hb : (moved m).1.midByte = false) :
    elementsMove 0 (min (perRow m - m.j) (1024 / max m.src.w m.dst.w)) m (moved m).1 (engineState (copyHart 1 1) [m])
      (moved m).2.2 ∧ movesOn 0 (rowsOf m * perRow m) (moved m).1 (moved m).1 (moved m).2.2 (moved m).2.2 := by
  refine ⟨elements_move (Prod.ext rfl (Prod.ext (Option.isNone_iff_eq_none.mp h) rfl)), ?_⟩
  cases rowsOf m * perRow m with
  | zero => exact ⟨rfl, rfl, hb⟩
  | succ k =>
    unfold movesOn
    rw [if_neg (by rw [hb]; exact Bool.false_ne_true)]
    exact ⟨rfl, rfl⟩

/-- A command in each of its stages; a transfer that ends a row, one that ends the payload with an eyelet to write, and one
with neither a release nor an eyelet to follow. -/
theorem witness_CopyStagesAdvance :
    (∀ st, st ∈ [Stage.acquire, .transfer, .release, .eyelet] → serves (engineState (copyHart 1 1)
      [{ copyCmd 1 1 with stage := st }]) 0 0 (copyHart 1 1) { copyCmd 1 1 with stage := st }) ∧
    (∀ m, m ∈ [copyCmd 1 2, copyCmd 2 1, bareCmd] →
      serves (engineState (copyHart 1 1) [m]) 0 0 (copyHart 1 1) m ∧ m.slot = 0 ∧ m.stage = .transfer ∧ m.failed = none ∧
        (engineState (copyHart 1 1) [m]).engineDue 0 = some 0 ∧ rowsOf m ≠ 0 ∧ perRow m ≠ 0 ∧
        (moved m).2.1.isNone = true ∧ (moved m).1.midByte = false) ∧
    (engineState (copyHart 1 1) [{ copyCmd 1 1 with stage := .acquire }]).engineDue 0 ≠ some 0 ∧
    (moved (copyCmd 2 1)).1.r < rowsOf (copyCmd 2 1) ∧
    (rowsOf (copyCmd 1 2) ≤ (moved (copyCmd 1 2)).1.r ∧ c0 (copyCmd 1 2) 23 = true) ∧
    (rowsOf bareCmd ≤ (moved bareCmd).1.r ∧ c0 bareCmd 31 = false ∧ c0 bareCmd 23 = false ∧ bareCmd.chain = none ∧
      ((moved bareCmd).2.2.hart? (hkey 0 0)).isSome = true) ∧
    ((engineState (copyHart 1 1) []).cmdGrant 0 probeBlk 0x7F80 = some (0, padGrant)) ∧
    spOffset 0x7F80 + 8 ≤ padGrant.bytes := by
  unfold serves
  decide +kernel

/-- The command at its eyelet: the last record of a chain, one that another record follows, and a failed one. -/
def eyeletCmds : List Cmd :=
  let m := { copyCmd 1 1 with stage := .eyelet }
  [{ m with chain := some (probeSeg, 0) },
   { m with chain := some (probeSeg, 0), c := (copyWords 1 1).set 6 (BitVec.ofNat 64 (0x7F80 + 1 <<< 31)) },
   { m with failed := some { cause := 0x13 } }]

theorem witness_EyeletWrite : (∀ m, m ∈ eyeletCmds → serves (engineState (copyHart 1 1) [m]) 0 0 (copyHart 1 1) m ∧
      m.slot = 0 ∧ m.stage = .eyelet ∧ BitVec.ofNat 64 ((m.c.getD 6 0).toNat % 2 ^ 31) = 0x7F80 ∧
      (engineState (copyHart 1 1) [m]).cmdGrant 0 probeBlk 0x7F80 = some (0, padGrant)) ∧
    eyeletCmds.map nextRecord = [0, 1, 0] ∧ eyeletCmds.map (fun m => m.failed.isSome) = [false, false, true] ∧
    (copyHart 1 1).fail = none := by
  unfold serves
  decide +kernel

/-- WaitForCounts: a store and a command that are waited for, and ones that their counts allow. -/
theorem witness_WaitForCounts :
    (alone probeHart).me = some probeHart ∧ probeHart.fail = none ∧ ¬waitsFor (alone probeHart) probeHart 0 0 0 ∧
    storedState.me = some storedHart ∧ storedHart.fail = none ∧ waitsFor storedState storedHart 0 0 0 ∧
    ¬waitsFor storedState storedHart 1 15 15 ∧
    (∃ e ∈ (storedState.core 0).sb, e.slot = 0 ∧ e.nth + 1 < 2) ∧
    waitsFor (engineState { copyHart 1 1 with ncp := 2 } [copyCmd 1 1]) { copyHart 1 1 with ncp := 2 } 15 1 15 ∧
    ¬waitsFor (engineState { copyHart 1 1 with ncp := 2 } [copyCmd 1 1]) { copyHart 1 1 with ncp := 2 } 15 2 15 := by
  unfold waitsFor
  refine ⟨rfl, rfl, by decide +kernel, by decide +kernel, rfl, .inl (by decide +kernel), by decide +kernel,
    by decide +kernel, .inr (.inl (by decide +kernel)), by decide +kernel⟩

/-- A chain whose next record, in the page's last line, is of zeros. -/
def chainCmd : Cmd :=
  { copyCmd 0 0 with stage := .record, c := List.replicate 8 0, chain := some ((dataHart true true).getG 2, 0xFC0) }

def chainState : State := engineState (copyHart 0 0) [chainCmd]
def chainRuns : Res (List EngRun) :=
  engineRuns (chainCmd.acc 0 0 0xFC0 0x2FC0 512 false) .read [(0x2FC0, 64)] (rotated chainState 0 0)
def chainRead : Res Nat := readRuns ((answer chainRuns).getD []) 0 0 (left chainRuns)

theorem witness_ChainRecordRead : serves chainState 0 0 (copyHart 0 0) chainCmd ∧ chainCmd.slot = 0 ∧
    chainCmd.stage = .record ∧ chainState.engineDue 0 = some 0 ∧
    chainCmd.chain = some ((dataHart true true).getG 2, 0xFC0) ∧ chainCmd.follow = none ∧
    segCause ((dataHart true true).getG 2) 0xFC0 64 .read = none ∧
    { chainCmd with follow := none, flags := 0, failed := none, c := List.replicate 8 0 } = chainCmd ∧
    segBase ((dataHart true true).getG 2) + 0xFC0 = 0x2FC0 ∧
    chainRuns = .ok ((answer chainRuns).getD []) (left chainRuns) ∧ chainRead = .ok 0 (left chainRead) ∧
    chainCmd.check .record (copyHart 0 0) 0 ((left chainRead).putHead 0 0 [chainCmd]) = none ∧
    0 / 2 ^ 32 % 2 ^ 32 = 0 ∧
    (answer (Cmd.readLasts { chainCmd with stage := firstStage chainCmd.c } 0 ((left chainRead).putHead 0 0 [chainCmd]))).isSome =
      true := by
  refine ⟨?_, by decide +kernel, rfl, by decide +kernel, rfl, rfl, by decide +kernel, by decide +kernel, by decide +kernel,
    answersD [] (by decide +kernel), answers (by decide +kernel), by decide +kernel, by decide, by decide +kernel⟩
  unfold serves
  decide +kernel

/-- A command whose payload is done and whose follow-on waits, or has issued. -/
def followCmd (st : FollowStage) : Cmd :=
  { copyCmd 0 0 with stage := .done, follow := some { followOf (.mma 0 false .ip 8 (.reg 0) (.reg 1)) run18 with stage := st } }

/-- A hart with the operands of run18 and the data page, whose chain's next record names `mma.ip v8, v0, v1` alone, with
other commands of the slot before it. -/
def recordHart : Hart := { run18 with g := (dataHart true true).g }
def recordState (older younger : List Cmd) : State :=
  let s := engineState recordHart (older ++ chainCmd :: younger)
  { s with mem := s.mem.write 0x5FC4 [0x61, 0x04, 0x08] }
def recordRuns (older younger : List Cmd) : Res (List EngRun) :=
  engineRuns (chainCmd.acc 0 0 0xFC0 0x2FC0 512 false) .read [(0x2FC0, 64)] (rotated (recordState older younger) 0 0)
def recordRead (older younger : List Cmd) : Res Nat :=
  readRuns ((answer (recordRuns older younger)).getD []) 0 0 (left (recordRuns older younger))

/-- The command that the record is. -/
def recordCmd : Cmd := { chainCmd with c := BitVec.ofNat 64 (0x00080461 <<< 32) :: List.replicate 7 0 }

/-- A command whose follow-on's D group is that of v0: older than the chain, or younger. -/
def owingCmd : Cmd :=
  { copyCmd 0 0 with stage := .done, follow := some (followOf (.mma 0 false .ip 0 (.reg 40) (.reg 41)) run18) }

/-- ChainRecordRead of a record with a follow-on: its command, checked, with its lasts read; and whether an older follow-on
still owes a register that it reads; a younger one does not count. -/
theorem witness_RecordFollowOn (older younger : List Cmd) (ho : older = [] ∨ older = [owingCmd])
    (hy : younger = [] ∨ younger = [owingCmd]) :
    serves (recordState older younger) 0 0 recordHart chainCmd ∧ (recordState older younger).engineDue 0 = some 0 ∧
    recordRuns older younger = .ok ((answer (recordRuns older younger)).getD []) (left (recordRuns older younger)) ∧
    recordRead older younger = .ok (0x00080461 <<< 32) (left (recordRead older younger)) ∧
    (List.range 8).map (fun i => BitVec.ofNat 64 (elt (0x00080461 <<< 32) 64 i)) = recordCmd.c ∧
    recordCmd.check .record recordHart 0 ((left (recordRead older younger)).putHead 0 0 [recordCmd]) = none ∧
    (answer (Cmd.readLasts { recordCmd with stage := firstStage recordCmd.c } 0
      ((left (recordRead older younger)).putHead 0 0 [recordCmd]))).isSome = true ∧
    recordCmd.followInstr = some (.mma 0 false .ip 8 (.reg 0) (.reg 1)) ∧
    ∃ y, followIn (.mma 0 false .ip 8 (.reg 0) (.reg 1)) = some y ∧
      (y.reads recordHart ((recordState older younger).core 0).vlen).any
        (fun n => n ∈ ((((recordState older younger).core 0).cmds.filter fun q => q.slot = 0).takeWhile
          fun q => q.stage = .done).flatMap Cmd.pendingGroup) = decide (older ≠ []) := by
  unfold serves
  rcases ho with rfl | rfl <;> rcases hy with rfl | rfl <;>
    exact ⟨by decide +kernel, by decide +kernel, answersD [] (by decide +kernel), answers (by decide +kernel),
      by decide +kernel, by decide +kernel, by decide +kernel, by decide +kernel, _, rfl, by decide +kernel⟩

def followState (st : FollowStage) : State :=
  let s := alone run18
  s.setCore 0 { s.core 0 with cmds := [followCmd st] }

theorem witness_WaitForMatrices :
    waitsFor (followState .waiting) { run18 with nmx := 1 } 15 15 0 ∧
    ¬waitsFor (followState .waiting) { run18 with nmx := 1 } 15 15 1 := by
  unfold waitsFor
  refine ⟨.inr (.inr ⟨by decide, _, .head _, by decide +kernel, _, rfl, nofun, by decide +kernel⟩), ?_⟩
  rintro (⟨h, _⟩ | ⟨h, _⟩ | ⟨_, q, hq, _, f, hf, _, hn⟩)
  · exact absurd h (by decide)
  · exact absurd h (by decide)
  · cases hq with
    | head =>
      cases hf
      exact absurd hn (by decide +kernel)
    | tail _ hq => cases hq

/-- A follow-on whose A tile stands at the start of the grant, in whose first word there is poison. -/
def poisonedFollow : Follow := followOf (.mma 0 false .ip 8 (.sp 4) (.reg 1)) run18

def poisonedCore : Core := { Core.reset with grants := [padGrant], spPoison := [0] }

/-- Issue without poison and with it, and the writing of a group. -/
theorem witness_ChainsAndFollowOns : ∃ x y, (followState .waiting).hart? (hkey 0 0) = some run18 ∧
    ((followState .waiting).core 0).cmds.find? (fun m => m.slot = 0 && m.landed) = some (followCmd .waiting) ∧
    followIn (.mma 0 false .ip 8 (.reg 0) (.reg 1)) = some x ∧
    followIn (.mma 0 false .ip 8 (.sp 4) (.reg 1)) = some y ∧
    (∀ q ∈ ((followState .waiting).core 0).cmds, q.slot = 0 → q.followRuns = true →
      meets q.pendingGroup ((followCmd .waiting).follow.map Follow.group).get! = false) ∧
    x.checkPoison ((followOf (.mma 0 false .ip 8 (.reg 0) (.reg 1)) run18).sees ((followState .waiting).core 0))
      (((followState .waiting).core 0).grantOf probeBlk) (followOf (.mma 0 false .ip 8 (.reg 0) (.reg 1)) run18).hart = none ∧
    y.checkPoison (poisonedFollow.sees poisonedCore) padGrant poisonedFollow.hart ≠ none ∧
    ((followState (.issued owedGroup)).core 0).cmds.find? (fun m => m.slot = 0 && m.followRuns) =
      some (followCmd (.issued owedGroup)) :=
  ⟨_, _, by decide +kernel, by decide +kernel, rfl, rfl, by decide +kernel, by decide +kernel, by decide +kernel,
    by decide +kernel⟩

/-! ### Steps of the memory side -/

theorem firstIs {α β : Type} {p : α × β} {a : α} (h : p.1 = a) : ∃ b, p = (a, b) := ⟨p.2, by rw [← h]⟩

theorem found {α : Type} {o : Option α} (h : o.isSome = true) : ∃ a, o = some a := Option.isSome_iff_exists.mp h

/-- A table of five levels for the page 0x2000 of space 1, with this entry at its last level, and the space's descriptor. -/
def tableState (h : Hart) (leaf : List Byte) : State :=
  let s := dataState h false
  { s.setDie 0 Die.reset with
    mem := [(0x70000, 0x01), (0x70001, 0x10), (0x70002, 0x07), (0x71000, 0x01), (0x71001, 0x20), (0x71002, 0x07),
            (0x72000, 0x01), (0x72001, 0x30), (0x72002, 0x07), (0x73000, 0x01), (0x73001, 0x40), (0x73002, 0x07)]
          ++ (upto leaf.length).map (fun k => (0x74010 + k, leaf.getD k 0))
    xlat := { s.xlat with spaces := [(1, 0x70001)] } }

/-- A readable and writable leaf whose frame is 0x5000, and a pending one. -/
def tableLeaf : List Byte := [0x0E, 0x50]
def tablePending : List Byte := [0x0F, 0x50]

/-- A store to the page waits in the buffer: with a table, with none, and with another name for its frame on record. -/
def probeState : State := run (.std 15 .row 2 0 3) (tableState (dataHart true true) tableLeaf)
/-- Another name of the page's frame, and the page's own. -/
def otherName : NameRec := { space := 2, vbase := 0x2000, frame := 0x5000, lg := 12, skew := 0, tclass := .untiled }
def dataName : NameRec := { otherName with space := 1 }

def lostState : State := { probeState with xlat := { probeState.xlat with spaces := [] } }
def clashState : State :=
  probeState.setDie 0 { probeState.die 0 with names := [otherName] }

def bufferedEntry : SbEntry := (probeState.core 0).sb.head (by decide +kernel)

/-- The buffered store in another state. -/
def entryState (st : SbState) : State :=
  let s := cachedState (dataHart true true) true
  s.setCore 0 { s.core 0 with sb := [{ bufferedEntry with state := st }] }

/-- The page is held. -/
def heldState (s : State) : State :=
  let x : Xlat := { spaces := s.xlat.spaces, holds := [{ space := 1, base := 0x2000, lg := 12 }] }
  { s with xlat := x }

theorem wholeOf {c : Cache} {f : Frame} (hc : c = [f]) (h : f.rows.length = f.tclass.rows ∧ f.base % 128 = 0)
    (space : BitVec 16) (va : Nat) : wholeFrame c space va := by
  intro k g _ hg
  have : g ∈ c := List.mem_of_find?_eq_some hg
  rw [hc, List.mem_singleton] at this
  exact this ▸ h

theorem witness_BufferedStoreSteps :
    (probeState.core 0).probed 1 0x2000 = [bufferedEntry] ∧
    probeState.heldRange 1 bufferedEntry.pbase (2 ^ bufferedEntry.plg) = false ∧
    ((heldState probeState).core 0).probed 1 0x2000 = [bufferedEntry] ∧
    (heldState probeState).heldRange 1 bufferedEntry.pbase (2 ^ bufferedEntry.plg) = true ∧
    (∃ s1, probeState.probe 0 1 bufferedEntry.va bufferedEntry.user = (.ack dataLeaf, s1)) ∧
    (lostState.core 0).probed 1 0x2000 = [bufferedEntry] ∧
    (∃ s1, lostState.probe 0 1 bufferedEntry.va bufferedEntry.user = (.refuse 0x7 4, s1)) ∧
    (∃ r, (lostState.probe 0 1 bufferedEntry.va bufferedEntry.user).2.hostFault 0 bufferedEntry.slot 1 bufferedEntry.va 0x7 4
      1 true = some r) ∧
    (clashState.core 0).probed 1 0x2000 = [bufferedEntry] ∧
    (∃ s1, clashState.probe 0 1 bufferedEntry.va bufferedEntry.user = (.conflict, s1)) ∧
    ∃ r, (clashState.probe 0 1 bufferedEntry.va bufferedEntry.user).2.hostFault 0 bufferedEntry.slot 1 bufferedEntry.va 0xF 7
      1 true = some r :=
  ⟨by decide +kernel, by decide +kernel, by decide +kernel, by decide +kernel, firstIs (by decide +kernel),
    by decide +kernel, firstIs (by decide +kernel),
    found (by decide +kernel), by decide +kernel, firstIs (by decide +kernel), found (by decide +kernel)⟩

/-- Two acked entries of one ordered store: elements 0 and 2 in one line, 1 in the next, which is in another state. -/
def lineEntry (first last idx : Nat) (st : SbState) : SbEntry :=
  { bufferedEntry with state := st, ord := true, efirst := first, elast := last, idx := idx, va := 0x2000 + 128 * idx }
def orderedState (st : SbState) : State :=
  let s := cachedState (dataHart true true) true
  s.setCore 0 { s.core 0 with sb := [lineEntry 0 2 0 .acked, lineEntry 1 1 1 st] }

theorem witness_OrderedDrain :
    (∀ st, ((orderedState st).core 0).sb.find? (fun q => q.idx = 0) = some (lineEntry 0 2 0 .acked)) ∧
    lineEntry 1 1 1 .pending ∈ ((orderedState .pending).core 0).sb ∧
    (∀ st, (lineEntry 1 1 1 st).idx ≠ 0 ∧ interleaved (lineEntry 0 2 0 .acked) (lineEntry 1 1 1 st)) ∧
    (∀ q ∈ ((orderedState .acked).core 0).sb, q = lineEntry 0 2 0 .acked ∨
      (lineEntry 0 2 0 .acked).ord = true ∧ q.ord = true ∧ q.slot = (lineEntry 0 2 0 .acked).slot ∧
        q.seq = (lineEntry 0 2 0 .acked).seq ∧ (lineEntry 0 2 0 .acked).efirst ≤ q.efirst ∧ q.efirst ≤ q.elast) ∧
    ∀ q ∈ ((orderedState .acked).core 0).sb, q.state = .acked := by
  refine ⟨fun st => by cases st <;> decide +kernel, by decide +kernel, fun st => ⟨nofun, ?_⟩, by decide +kernel,
    by decide +kernel⟩
  exact ⟨rfl, rfl, rfl, rfl, (by decide : 1 ≤ 2), (by decide : 0 ≤ 1)⟩

/-- 06 R121: the two lines are written in one step, and neither while one waits. -/
theorem test_ordered_drain : (((run (.storeBufferDrain 0 1) (orderedState .acked)).core 0).sb.length,
    ((run (.storeBufferDrain 0 0) (orderedState .pending)).core 0).sb.length) = (0, 2) := by decide +kernel

theorem witness_StoreBufferDrain :
    ((entryState .pending).core 0).sb.find? (fun q => q.idx = 0) = some { bufferedEntry with state := .pending } ∧
    ((entryState .acked).core 0).sb.find? (fun q => q.idx = 0) = some { bufferedEntry with state := .acked } ∧
    (∀ q ∈ ((entryState .acked).core 0).sb, q.slot = bufferedEntry.slot → q.idx ≠ bufferedEntry.idx →
      ¬(bufferedEntry.sharesLine q = true ∧ q.seq < bufferedEntry.seq) ∧
      ¬(bufferedEntry.ord = true ∧ q.ord = true ∧ q.seq = bufferedEntry.seq ∧
        (q.efirst < bufferedEntry.efirst ∨ q.efirst ≤ bufferedEntry.elast))) ∧
    bufferedEntry.va % 128 = 0 ∧ distinctFrames ((entryState .acked).core 0).l1 ∧
    (∀ k, k < 128 → wholeFrame ((entryState .acked).core 0).l1 bufferedEntry.space (bufferedEntry.cell k / 128 * 128)) ∧
    bufferedEntry.orient = false ∧
    (entryState .faulted).hart? (hkey 0 0) = some (dataHart true true) ∧ (dataHart true true).trap = none ∧
    ∃ e ∈ ((entryState .faulted).core 0).sb, e.slot = 0 ∧ e.state = .faulted := by
  refine ⟨by decide +kernel, by decide +kernel, by decide +kernel, by decide +kernel,
    by unfold distinctFrames; decide +kernel, fun _ _ => wholeOf (f := dataFrame) (by decide +kernel) (by decide +kernel) _ _,
    by decide +kernel, by decide +kernel, by decide +kernel, by decide +kernel⟩

/-- An acked entry of a column line, whose tile is in no frame. -/
def columnEntry : SbEntry := { bufferedEntry with state := .acked, orient := true, tclass := .t32 }
def columnState : State :=
  (dataState (dataHart true true) true).setCore 0 { (dataState (dataHart true true) true).core 0 with sb := [columnEntry] }

theorem witness_ColumnDrain : (columnState.core 0).sb.find? (fun q => q.idx = 0) = some columnEntry ∧
    columnEntry.state = .acked ∧ columnEntry.va % 128 = 0 ∧ (columnState.core 0).l1 = [] ∧ columnEntry.tclass ≠ .untiled ∧
    (∀ k, k < 128 → wholeFrame (columnState.core 0).l1 columnEntry.space (columnEntry.cell k / 128 * 128)) ∧
    ∃ o, ∀ k j, k < 128 → j < 128 →
      Cache.find (columnState.core 0).l1 columnEntry.space (columnEntry.cell k / 128 * 128 + j) = o := by
  have e : (columnState.core 0).l1 = [] := by decide +kernel
  refine ⟨by decide +kernel, by decide +kernel, by decide +kernel, e, by decide +kernel, ?_, none, ?_⟩
  · intro k _ j f _ hf
    rw [e] at hf
    exact absurd hf (by simp [Cache.find])
  · intro k j _ _
    rw [e]
    rfl

/-- An entry of die 0 that its full ring, or its ring with room, takes. -/
def madeFault : HostFault :=
  { id := 0, va := 0x2000, space := 1, core := 0, slot := 0, wres := 7, level := 4, kind := 1, waits := 1, posted := false,
    order := 0 }

def faultState (tail : BitVec 32) : State :=
  ((alone probeHart).setDie 0 { Die.reset with faults := [madeFault] }).setQueue 34 { Queue.reset with en := true, tail := tail }

/-- Another name stands for the page's frame. -/
def otherState : State :=
  let s := dataState probeHart true
  s.setDie 0 { s.die 0 with names := [otherName] }

theorem witness_WalkConflict :
    otherState.held 1 0x2000 = false ∧ otherState.heldPage dataLeaf = false ∧
    ∃ s1, otherState.translate (dieOf 0) 1 0x2000 .read false = (.leaf dataLeaf, s1) ∧ s1.nameConflict dataLeaf = true ∧
      dataLeaf.attr.w = true ∧ dataLeaf.d = true ∧
      (s1.core 0).bufferedPage dataLeaf.space dataLeaf.vbase (2 ^ dataLeaf.lg) = false ∧
      ∃ n, n < 4096 ∧ ∀ f ∈ (s1.die (dieOf 0)).faults, f.id ≠ n := by
  refine ⟨by decide +kernel, by decide +kernel,
    (otherState.translate (dieOf 0) 1 0x2000 .read false).2, Prod.ext (by decide +kernel) rfl, by decide +kernel,
    by decide +kernel, by decide +kernel, by decide +kernel, 0, by decide, by decide +kernel⟩

theorem witness_WalkAndFaultQueueSteps :
    (dataState probeHart true).held 1 0x2000 = false ∧ (dataState probeHart true).heldPage dataLeaf = false ∧
    (tableState probeHart tablePending).heldPage { dataLeaf with frame := 0 } = false ∧
    (∃ s1, (dataState probeHart true).translate (dieOf 0) 1 0x2000 .read false = (.leaf dataLeaf, s1)) ∧
    (tableState probeHart tablePending).held 1 0x2000 = false ∧
    (∃ s1, (tableState probeHart tablePending).translate (dieOf 0) 1 0x2000 .read false =
      (.pending { dataLeaf with frame := 0 } 0, s1)) ∧
    ((faultState 16).die 0).unposted = some madeFault ∧ (faultState 16).canPost 34 = false ∧
    ((faultState 15).die 0).unposted = some madeFault ∧ (faultState 15).canPost 34 = true :=
  ⟨by decide +kernel, by decide +kernel, by decide +kernel, firstIs (by decide +kernel), by decide +kernel,
    firstIs (by decide +kernel), by decide +kernel, by decide +kernel, by decide +kernel, by decide +kernel⟩

/-- A fill of the page's first line, and a write-back and a sent write of it. -/
def lineFill : FillReq := { space := 1, va := 0x2000, attr := dataLeaf.attr, col := false }
def lineBack : WriteBack :=
  { space := 1, va := 0x2000, tclass := .untiled, dirty := 0xFF, poison := 0, data := 0x11,
    writers := [] }
def lineSent : SentWrite :=
  { slot := 0, blk := probeBlk, nth := 0, space := 1, va := 0x2078, pa := 0x5078,
    bytes := [1, 2, 3, 4, 5, 6, 7, 8], poison := false, home := some (0, .untiled) }

/-- 03 R58: a write on its way finds its slice by the leaf that its walk found, whatever its name's record says now. -/
theorem test_sent_write_home :
    ((({ alone probeHart with sts := { (alone probeHart).sts with phase := 3 } } : State).performSent
      { lineSent with home := some (1, .t32) }).home.map fun (f : HomeFrame) => (f.base, f.tclass)) = [(0x5000, .t32)] := by decide +kernel

/-- The access of a fill. -/
def fillAcc : Acc :=
  { core := 0, slot := 0, space := 1, user := true, kind := 0, gseg := 0, off := 0, rva := 0x2000, pva := 0x2000,
    va := 0x2000, elem := 0, ew := 0, col := false, requester := false }

def memoryState (names : List NameRec) : State :=
  let s := cachedState probeHart true
  (((s.setCore 0 { s.core 0 with fills := [lineFill], wbq := [lineBack], bypass := [lineSent], target := [lineSent] }).setCluster 0
    { l2 := [dataFrame], wbq := [lineBack] }).setDie 0 { s.die 0 with names := names })

theorem stops {α : Type} {r : Res α} (h : answer r = none) : ∃ e u, r = .stop e u := by
  cases r with
  | ok _ _ => simp [answer] at h
  | stop e u => exact ⟨e, u, rfl⟩

theorem witness_CacheSteps :
    ((memoryState [dataName]).core 0).fills = [lineFill] ∧ (memoryState [dataName]).held 1 0x2000 = false ∧
    (heldState (memoryState [])).held 1 0x2000 = true ∧
    (∃ u, fillL1 fillAcc .untiled ((memoryState []).setCore 0 { (memoryState []).core 0 with fills := [] }) = .ok () u) ∧
    (∃ e u, fillL1 fillAcc .untiled ((alone probeHart).setCore 0 { (alone probeHart).core 0 with fills := [] }) = .stop e u) ∧
    Cache.find ((memoryState []).core 0).l1 1 0x2000 = some dataFrame ∧
    Cache.find ((memoryState []).cluster 0).l2 1 0x207F = some dataFrame ∧
    ((memoryState []).core 0).wbq = [lineBack] ∧ lineBack.va % 128 = 0 ∧
    distinctFrames ((memoryState []).cluster (clusterOf 0)).l2 ∧
    wholeFrame ((memoryState []).cluster (clusterOf 0)).l2 1 0x2000 ∧
    ((memoryState [dataName]).cluster 0).wbq = [lineBack] ∧ (memoryState [dataName]).namedPA 1 0x2000 = some 0x5000 ∧
    (memoryState [dataName]).peerRefuses 0x5000 = false ∧
    ((memoryState []).core 0).bypass = [lineSent] ∧ ((memoryState []).core 0).target = [lineSent] ∧
    (memoryState []).peerRefuses lineSent.pa = false :=
  have here : ((memoryState [dataName]).core 0).fills = [lineFill] ∧ (memoryState [dataName]).held 1 0x2000 = false ∧
      (heldState (memoryState [])).held 1 0x2000 = true := by decide +kernel
  have away : ((memoryState [dataName]).cluster 0).wbq = [lineBack] ∧
      (memoryState [dataName]).namedPA 1 0x2000 = some 0x5000 ∧ (memoryState [dataName]).peerRefuses 0x5000 = false ∧
      ((memoryState []).core 0).bypass = [lineSent] ∧ ((memoryState []).core 0).target = [lineSent] ∧
      (memoryState []).peerRefuses lineSent.pa = false := by decide +kernel
  ⟨here.1, here.2.1, here.2.2, ⟨_, answers (by decide +kernel)⟩, stops (by decide +kernel), by decide +kernel,
    by decide +kernel, by decide +kernel, by decide +kernel, by unfold distinctFrames; decide +kernel,
    wholeOf (f := dataFrame) (by decide +kernel) (by decide +kernel) _ _, away⟩

/-- The page's frame in the control window: its line on the way out, and a sent write. -/
def windowName : NameRec := { dataName with frame := 0x20000001000 }
def windowSent : SentWrite := { lineSent with pa := 0x20000001078 }
def windowState : State :=
  let s := memoryState [windowName]
  s.setCore 0 { s.core 0 with bypass := [windowSent], target := [windowSent] }

theorem witness_ControlWindowSteps : (windowState.cluster 0).wbq = [lineBack] ∧
    windowState.namedPA 1 0x2000 = some 0x20000001000 ∧ windowState.peerRefuses 0x20000001000 = false ∧
    inCtl 0x20000001000 = true ∧ (windowState.core 0).bypass = [windowSent] ∧ (windowState.core 0).target = [windowSent] ∧
    windowState.peerRefuses windowSent.pa = false ∧ inCtl windowSent.pa = true ∧
    inCtl lineSent.pa = false ∧ inCtl 0x5000 = false := by decide +kernel

/-- A directory with room, and a full one. -/
def fullNames : List NameRec := List.replicate 16384 dataName

theorem namesOf (l : List NameRec) : ((memoryState l).die 0).names = l := by simp [memoryState, State.setDie, State.die]

theorem witness_RecallAndErrorSteps : ((memoryState [dataName]).die 0).names.length < 16384 ∧
    16384 ≤ ((memoryState fullNames).die 0).names.length ∧ ((memoryState fullNames).die 0).names[0]? = some dataName ∧
    (memoryState []).errorAt .l1 0 1 0x2080 = none ∧ (memoryState []).errorAt .l1 0 1 0x207F ≠ none ∧ 1015807 < 1015808 := by
  rw [namesOf, namesOf]
  exact ⟨by decide, List.length_replicate.ge, List.getElem?_replicate.trans (if_pos (by decide)), by decide +kernel⟩

/-! ### Regions, launches, contexts -/

/-- The region of the probe's hart, and its state. -/
def rootFields : Fields :=
  { blk := probeBlk, parent := 0, tqbase := 0x6000, tqsz := 0, space := 1, fdom := 0, ovr := 0xFF, hmax := 1, lp := 0,
    spb := 1, ixu := 1, pwr := 1, prio := 0 }

def rootRegion : Region :=
  { f := rootFields, rid := 1, queue := 0, tag := 7, cobj := 1, placed := 0, cores := [0], ending := none, lost := false }

def regionState (h : Hart) (m : Memory) : State :=
  let s := alone h
  { s with mem := m, fe := { s.fe with regions := [rootRegion] } }

/-- Handling of a trap with a cause. -/
def handling (cause : Nat) (rep nested : Bool) : Handling :=
  let f : FRec := { cause := cause, rep := rep }
  { frec := f, pc := 0, recPc := 0, nested := nested, retry := false }

def inTrap (t : Handling) : Hart := { probeHart with trap := some t }

/-- That region with a child, and with no hart left. -/
def parentState : State :=
  let s := regionState probeHart []
  let f := { rootFields with blk := 0x200000, parent := probeBlk }
  { s with harts := [], fe := { s.fe with regions := [rootRegion, { rootRegion with f := f }] } }
def lastState : State := { regionState probeHart [] with harts := [] }

/-- A root region whose block lies at address 0 has no child. -/
theorem witness_blockAtZero :
    [{ rootRegion with f := { rootFields with blk := 0 } }].countP (fun q => q.f.parent ≠ 0 && q.f.parent = 0) = 0 := by decide

/-- A trap that waits for the host, a nested one, and a fatal one; a region with a live hart, with a child, and with
neither. -/
theorem witness_RegionsEnd :
    (∀ t, t ∈ [handling 0x0B true false, handling 0x0B true true, handling 0x01 false false] →
      (regionState (inTrap t) []).hart? (hkey 0 0) = some (inTrap t) ∧ (inTrap t).trap = some t) ∧
    ((handling 0x0B true false).nested = false ∧ (handling 0x0B true false).frec.cause = 0x0B ∧
      (handling 0x0B true false).frec.rep = true) ∧ (handling 0x0B true true).nested = true ∧
    ¬((handling 0x01 false false).frec.cause = 0x0B ∧ (handling 0x01 false false).frec.rep = true ∨
      (handling 0x01 false false).frec.cause = 0x0C ∧ (handling 0x01 false false).frec.rep = true ∨
      (handling 0x01 false false).frec.cause = 0x13 ∧ (handling 0x01 false false).frec.inner = 0x0B) ∧
    (∃ r ∈ (regionState probeHart []).fe.regions, r.f.blk = probeHart.blk ∧ r.ending = none) ∧
    (∀ s, s ∈ [regionState probeHart [], parentState, lastState] → s.region probeBlk = some rootRegion) ∧
    rootRegion.ending = none ∧ (regionState probeHart []).harts.countP (fun q => q.2.blk = probeBlk) ≠ 0 ∧
    parentState.fe.regions.countP (fun q => q.f.parent ≠ 0 && q.f.parent = probeBlk) ≠ 0 ∧
    (lastState.fe.regions.countP (fun q => q.f.parent ≠ 0 && q.f.parent = probeBlk) + lastState.fe.launches.countP
      (fun l => l.f.parent ≠ 0 && l.f.parent = probeBlk) = 0 ∧ lastState.harts.countP (fun q => q.2.blk = probeBlk) +
      lastState.fe.saved.countP (fun q => q.blk = probeBlk) = 0) ∧
    rootRegion.f.parent = 0 ∧ probeBlk + 64 ≤ 2 ^ 51 ∧
    (rootRegion.cores.foldl (fun t k => t.releaseSteps k rootRegion.f.space .s) lastState).region probeBlk =
      some rootRegion ∧ rootRegion.lost = false := by
  refine ⟨?_, ?_⟩
  · intro t ht
    simp only [List.mem_cons, List.not_mem_nil, or_false] at ht
    rcases ht with rfl | rfl | rfl <;> exact ⟨by decide +kernel, rfl⟩
  · decide +kernel

/-- A launch of one hart with a binding of g0 to its code, as its packet states it; a packet of zeros is refused. -/
def packetBits : Nat :=
  1 + 1 <<< 36 + 1 <<< 44 + 1 <<< 49 + 1 <<< 56 + 0xFF <<< 68 + 1 <<< 80 + 7 <<< 96 + 1 <<< 128 + 1 <<< 176 + 0x6000 <<< 192
    + 100 <<< 256 + probeBlk <<< 448 + probeSeg.toNat <<< 1280

def launchState (packet : Nat) : State :=
  let s := { State.reset with sts := { State.reset.sts with phase := 3 } }
  let s := s.setQueue 0 { Queue.reset with en := true, tail := 1 }
  { s with
    mem := Memory.write [] (hostPA 0) (toBytes 512 packet)
    fe := { s.fe with
      pool := some (0x200000, 0x28000)
      objects := [{ handle := 1, space := 1, base := 0x10000, len := 0x1000, level := 0, vldep := false, vregs := 64,
                    spbytes := 0, ixent := 0 }] } }

/-- Code 0 decides of the first packet; code 1 of a packet of another version, whose block is unusable, or not. -/
def versionBits : Nat := packetBits + 1
def zeroBlock : Nat := versionBits - probeBlk <<< 448 + 1 <<< 448

def packetOf (n : Nat) : Packet := (launchState n).packet 0
def packetFields (n : Nat) : Fields :=
  (packetOf n).fields (((launchState n).region (pk (packetOf n) 447 384)).map (·.f))

theorem servedBy (s : State) (p : Packet) (f : Fields) (o : Obj)
    (h : s.fe.objects.find? (fun o => o.handle = pk p 159 128) = some o)
    (hc : o.level ≤ 3 ∧ o.space = f.space ∧ p.bits.testBit 80 = true ∧
      segX (BitVec.ofNat 128 (pk p 1407 1280)) = true ∧ o.base ≤ segBase (BitVec.ofNat 128 (pk p 1407 1280)) ∧
      segBase (BitVec.ofNat 128 (pk p 1407 1280)) + segLimit (BitVec.ofNat 128 (pk p 1407 1280)) ≤ o.base + o.len ∧
      pk p 383 320 % 4 = 0 ∧ pk p 383 320 < segLimit (BitVec.ofNat 128 (pk p 1407 1280)))
    (hn : ¬(64 < o.vregs ∨ 1015808 < o.spbytes ∨ 8192 < o.ixent)) :
    codeServes s p f ∧ ¬refuses s p f 0x0B :=
  ⟨⟨o, h, hc⟩, fun ⟨q, hq, hx⟩ => hn (by rw [h] at hq; cases hq; exact hx)⟩

theorem decides_accepted : decides (launchState packetBits) (packetOf packetBits) (packetFields packetBits) 0 := by
  have hs := servedBy (launchState packetBits) (packetOf packetBits) (packetFields packetBits)
    { handle := 1, space := 1, base := 0x10000, len := 0x1000, level := 0, vldep := false, vregs := 64, spbytes := 0,
      ixent := 0 } (by decide +kernel) (by decide +kernel) (by decide)
  have hk : ∀ k, ¬refuses (launchState packetBits) (packetOf packetBits) (packetFields packetBits) k := by
    intro k h
    by_cases hb : k = 0x0B
    · exact hs.2 (hb ▸ h)
    unfold refuses at h
    split at h
    case h_10 => exact h hs.1
    case h_11 => exact hb rfl
    case h_2 => exact absurd h (by unfold unusableBlock blockPlace; decide +kernel)
    case h_3 => exact absurd h (by unfold blockPlace; decide +kernel)
    all_goals first | exact h | exact absurd h (by decide +kernel)
  exact ⟨fun k hk => absurd hk (Nat.not_lt_zero k), .inr rfl, fun _ => hk⟩

theorem decides_version (n : Nat) (h : pk (packetOf n) 7 0 ≠ 1) :
    decides (launchState n) (packetOf n) (packetFields n) 1 := by
  refine ⟨fun k hk hr => ?_, .inl (.inl h), fun h => absurd h (by decide)⟩
  obtain rfl : k = 0 := by omega
  exact hr

/-- The packet's queue of completions takes an entry. -/
def postState (n : Nat) : State :=
  (launchState n).setQueue 16 { Queue.reset with en := true }

theorem witness_LaunchPacketsAreTaken :
    (∀ n, n ∈ [packetBits, versionBits, zeroBlock] → (launchState n).nextQueue = some 0 ∧
      (launchState n).nextQueue ≠ some 1) ∧
    decides (launchState packetBits) (packetOf packetBits) (packetFields packetBits) 0 ∧
    (∀ n, n ∈ [versionBits, zeroBlock] → decides (launchState n) (packetOf n) (packetFields n) 1) ∧
    ¬unusableBlock (launchState versionBits) (pk (packetOf versionBits) 511 448) ∧
    unusableBlock (launchState zeroBlock) (pk (packetOf zeroBlock) 511 448) ∧
    (launchState versionBits).canPost 16 = false ∧ (postState versionBits).canPost 16 = true ∧
    (postState versionBits).nextQueue = some 0 := by
  refine ⟨by decide +kernel, decides_accepted, ?_, ?_, ?_, by decide +kernel, by decide +kernel, by decide +kernel⟩
  · intro n hn
    simp only [List.mem_cons, List.not_mem_nil, or_false] at hn
    rcases hn with rfl | rfl <;> exact decides_version _ (by decide +kernel)
  · unfold unusableBlock blockPlace
    decide +kernel
  · unfold unusableBlock blockPlace
    decide +kernel

/-- That launch, waiting. -/
def waitingLaunch (prio : Nat) : Launch :=
  let f := { rootFields with prio := prio }
  { f := f, rid := 1, queue := 0, tag := 7, entry := 0, n := 100, args := List.replicate 12 0,
    binds := probeSeg :: List.replicate 15 0, cobj := 1, span := 0, waited := 0 }

def placeState : State :=
  let s := launchState packetBits
  { s with fe := { s.fe with launches := [waitingLaunch 0] } }

theorem placedAs {o : Option (List Nat × List Nat × State)} {c a : List Nat}
    (h : o.map (fun r => (r.1, r.2.1)) = some (c, a)) : o = some (c, a, (o.map (·.2.2)).getD State.reset) := by
  cases o with
  | none => simp at h
  | some r =>
    obtain ⟨x, y, z⟩ := r
    simp only [Option.map_some, Option.some.injEq, Prod.mk.injEq] at h
    simp [h.1, h.2]

theorem witness_LaunchesArePlaced : ∃ t, placeState.firstLaunch = some (waitingLaunch 0) ∧
    placeState.resumeFirst (waitingLaunch 0) = false ∧
    placeState.placement [] (waitingLaunch 0) = some ([0], [0x200000], t) ∧
    (((t.places (waitingLaunch 0).f [0]).take (waitingLaunch 0).f.hmax).map fun p => hkey p.1 p.2).Nodup ∧
    ((t.places (waitingLaunch 0).f [0]).take (waitingLaunch 0).f.hmax)[0]? = some (0, 0) ∧
    (waitingLaunch 0).args.length ≤ 12 ∧ (waitingLaunch 0).binds.length = 16 ∧ (waitingLaunch 0).f.hmax ≠ 0 ∧
    0 < [0x200000].length :=
  ⟨_, by decide +kernel, by decide +kernel, placedAs (by decide +kernel), by decide +kernel, by decide +kernel,
    by decide, by decide, by decide, by decide⟩

/-- Every core but core 0 has its scratchpad granted, and a hart of the region stands on core 0: a launch of higher priority
needs it. -/
def fullGrant : Grant := { blk := 0x300000, b := 0, units := 31, ixUnits := 0, table := [], tablePoison := [] }

def crowdedState : State :=
  let s := { placeState with harts := [(0, probeHart)] }
  { s with
    cores := (upto 384).map fun k => (k, if k = 0 then Core.reset else { Core.reset with grants := [fullGrant] })
    fe := { s.fe with regions := [rootRegion], launches := [{ waitingLaunch 1 with rid := 2 }] } }

theorem witness_ContextsMove : crowdedState.firstLaunch = some { waitingLaunch 1 with rid := 2 } ∧
    crowdedState.resumeFirst { waitingLaunch 1 with rid := 2 } = false ∧
    probeBlk ∈ crowdedState.victims { waitingLaunch 1 with rid := 2 } ∧
    (∀ q ∈ crowdedState.harts, q.2.run = .running) ∧
    crowdedState.hart? 0 = some probeHart := by decide +kernel

/-- A hart of that region inside its JOIN. -/
def joiningHart : Hart := { probeHart with run := .ringWait 0x2080, push := some 0x2080, pinned := some probeHart.seq }
def joiningState : State := { crowdedState with harts := [(0, joiningHart)] }

theorem witness_PreemptionWaits : joiningState.firstLaunch = some { waitingLaunch 1 with rid := 2 } ∧
    joiningState.resumeFirst { waitingLaunch 1 with rid := 2 } = false ∧
    probeBlk ∈ joiningState.victims { waitingLaunch 1 with rid := 2 } ∧
    (∃ q ∈ joiningState.harts, q.2.blk = probeBlk ∧ mustFinish q.2) ∧ ¬mustFinish probeHart :=
  ⟨by decide +kernel, by decide +kernel, by decide +kernel, ⟨_, .head _, rfl, rfl, rfl⟩, fun h => absurd h.1 (by decide)⟩

theorem witness_ContextSave : (alone { probeHart with run := .draining true }).hart? (hkey 0 0) =
      some { probeHart with run := .draining true } ∧ probeHart.trap = none ∧ probeHart.fail = none ∧
    (∀ m ∈ ((alone probeHart).core 0).cmds, m.slot ≠ 0) ∧
    (∀ e ∈ ((entryState .reported).core 0).sb, e.slot = 0 → e.state = .reported) ∧
    ((entryState .reported).core 0).sb.length ≤ 128 ∧ ((entryState .reported).core 0).lpart ≤ 3 := by decide +kernel

/-- The context of a hart of core 0 and slot 0, saved with its header. -/
def savedHart : SavedHart :=
  { core := 0, slot := 0, blk := probeBlk, area := probeArea, works := true, asleep := false, resolved := false, trap := none,
    fail := none, failed := none, ordered := false, owed := 0, push := none, parent := none,
    g0 := probeSeg,
    images := List.replicate 16 false, stores := [], nst := 0, ncp := 0, nmx := 0 }

/-- The one whose fault was answered "fail". -/
def failedHart : SavedHart :=
  { savedHart with failed := some { blk := probeBlk, cause := 0x0B, pc := 0, core := 0, slot := 0 } }

def restoreState (harts : List (Nat × Hart)) : State :=
  let s := regionState probeHart [(probeArea, 1), (probeArea + 43, 0x50)]
  { s with harts := harts, fe := { s.fe with saved := [savedHart] } }

/-- A hart of another region saved before it, of a lower priority. -/
def twiceSaved : State :=
  let s := restoreState []
  let first := { rootRegion with f := { rootFields with blk := 0x200000 } }
  { s with fe := { s.fe with
      regions := [first, { rootRegion with f := { rootFields with prio := 1 } }]
      saved := [{ savedHart with blk := 0x200000 }, savedHart] } }

/-- The one of a higher priority is saved in another slot. -/
def elsewhere : State :=
  { twiceSaved with fe := { twiceSaved.fe with
      saved := [{ savedHart with blk := 0x200000 }, { savedHart with slot := 1 }] } }

/-- No launch waits, and of the saved harts the others are of lower priority. -/
theorem resumes {s : State} {q : SavedHart} (hl : s.firstLaunch = none) (hq : q ∈ s.fe.saved)
    (hu : ∀ p ∈ s.fe.saved, p = q ∨ s.prioOf p.blk < s.prioOf q.blk) : resumesNext s q.core q.slot q := by
  refine ⟨hq, rfl, rfl, ⟨fun l h => (by rw [hl] at h; cases h), fun p hp => ?_⟩, fun p hp _ _ hc => ?_⟩
  · rcases hu p hp with rfl | h
    · exact .inr ⟨rfl, le_rfl⟩
    · exact .inl h
  · rcases hu p hp with h | h
    · exact h
    · have := hc.2 q hq
      omega

theorem witness_NoneComesFirst : (∃ q ∈ elsewhere.fe.saved, q.core = 0 ∧ q.slot = 0) ∧
    ∀ q ∈ elsewhere.fe.saved, q.core = 0 → q.slot = 0 → ¬comesFirst elsewhere q := by
  refine ⟨by decide +kernel, fun q hq _ hk hc => ?_⟩
  have h : ∀ q ∈ elsewhere.fe.saved, q.slot = 0 → elsewhere.prioOf q.blk < elsewhere.prioOf probeBlk := by decide +kernel
  have := h q hq hk
  have := hc.2 _ (.tail _ (.head _))
  change elsewhere.prioOf probeBlk < _ ∨ elsewhere.prioOf probeBlk = _ ∧ _ at this
  omega

theorem witness_ContextRestore :
    resumesNext (restoreState []) 0 0 savedHart ∧ resumesNext twiceSaved 0 0 savedHart ∧
    (restoreState []).hart? (hkey 0 0) = none ∧ savedHart.trap = none ∧ savedHart.failed = none ∧
    failedHart.failed ≠ none ∧
    (restoreState []).readPA probeArea 64 % 256 = 1 ∧
    (restoreState []).readPA probeArea 64 / 2 ^ 346 % 4 = ((restoreState []).core 0).lpart ∧
    (restoreState []).readPA probeArea 64 / 2 ^ 348 % 16 = 5 - ((restoreState []).core 0).lpart ∧
    (restoreState []).readPA probeArea 64 / 2 ^ 368 % 2 ^ 16 = 0 ∧
    (restoreState [(0, probeHart)]).hart? (hkey 0 0) ≠ none := by
  refine ⟨resumes (q := savedHart) ?_ ?_ ?_, resumes (q := savedHart) ?_ ?_ ?_, ?_⟩ <;> decide +kernel

/-- BarrierArrivesAndDeparts: a saved hart of the region keeps the others at their barrier. -/
theorem witness_BarrierSaved : (restoreState [(0, { probeHart with run := .barrier .c })]).hart? (hkey 0 0) =
      some { probeHart with run := .barrier .c } ∧
    ∃ q ∈ (restoreState [(0, { probeHart with run := .barrier .c })]).fe.saved,
      q.blk = probeHart.blk ∧ 0 / 8 = hkey q.core q.slot / 8 := by decide +kernel

/-- A core that worked and demands the whole budget of its die. -/
def busyState : State := (alone probeHart).setCore 0 { Core.reset with worked := 1 }

theorem witness_ArbiterGrants : (∃ p ∈ busyState.cores, p.1 / 96 = 0) ∧
    ((busyState.cores.filter fun p => p.1 / 96 = 0).map fun p =>
      if (busyState.core p.1).worked = 0 then 0 else [1500000].getD (p.1 % 96) 0).sum ≤ 1500000 := by decide +kernel

/-! ### Host, bring-up, links, commands, invariants -/

/-- QueueRegisters: the last launch queue and the command queue, the last queue, the last peer entry; LinkSteps: the last
link below, at and above two failures. -/
theorem witness_QueueAndLinkRegisters : fromHost 15 ∧ fromHost 32 ∧ ¬fromHost 16 ∧ ¬fromHost 37 ∧ 37 < 38 ∧
    (State.reset.queue 37).held = [] ∧ (State.reset.queue 16).held = [] ∧ 1023 < 1024 ∧ 0x2001 % 8 ≠ 0 ∧ 17 < 18 ∧
    (∀ n, n ∈ [1, 2, 3] → ({ up := true, failures := n } : Link).up = true ∧
      aget [(17, ({ up := true, failures := n } : Link))] 17 = some { up := true, failures := n }) := by
  unfold fromHost
  decide +kernel

/-- The last doubleword of GDDR 7 in full service; another phase. -/
theorem witness_HostAndPeerAccesses : (alone probeHart).sts.prot = [] ∧ (alone probeHart).sts.phase = 3 ∧
    0x2FFFFFFFF8 + wide .w64 ≤ 0x3000000000 ∧ 0x2FFFFFFFF8 % wide .w64 = 0 ∧ 0x3000000000 < 0x2FFFFFFFFC + wide .w64 ∧
    0x2FFFFFFFFC + wide .w32 ≤ 0x3000000000 ∧ 0x2FFFFFFFFC % wide .w32 = 0 ∧
    State.reset.sts.prot = [] ∧ State.reset.sts.phase ≠ 3 := by
  decide +kernel

/-- The machine in a phase of bring-up, with an image of n bytes announced. -/
def bootState (phase : BitVec 4) (n : Nat) (trained : Bool) : State :=
  { State.reset with sts := { State.reset.sts with phase := phase, bootLen := n, trained := trained } }

/-- Every phase that the clauses tell apart, and images of 64 MiB and of one byte more. Whether an image is well formed and
signed is left open (log entry 10): one of the three outcomes is that of this image. -/
theorem witness_BringUpSteps :
    (bootState 0 0 false).sts.prot = [] ∧ (bootState 0 0 false).sts.phase = 0 ∧ (bootState 1 0 false).sts.phase ≠ 0 ∧
    (bootState 1 67108864 false).sts.phase = 1 ∧ (bootState 1 67108864 false).sts.bootLen ≤ 64 * 2 ^ 20 ∧
    64 * 2 ^ 20 < (bootState 1 67108865 false).sts.bootLen ∧ (bootState 2 0 false).sts.trained = false ∧
    (bootState 2 0 true).sts.trained = true ∧ (bootState 2 0 true).sts.phase = 2 ∧ (bootState 2 0 true).fe.regions = [] ∧
    (bootState 2 0 true).fe.launches = [] ∧ (bootState 2 0 true).io.current = false ∧
    (begun (bootState 2 0 true)).io.current = true ∧ 0x1003FFFFFFF < 0x10040000000 ∧
    ((Config.imageWellFormed [0] = true ∧ Config.signatureValid [0] = true) ∨ Config.imageWellFormed [0] = false ∨
      (Config.imageWellFormed [0] = true ∧ Config.signatureValid [0] = false)) := by
  refine ⟨rfl, rfl, by decide, rfl, by decide, by decide, rfl, rfl, rfl, rfl, rfl, rfl, rfl, by decide, ?_⟩
  cases Config.imageWellFormed [0] <;> cases Config.signatureValid [0] <;> simp

/-- Full service with a command at the head of the command queue, and more in device memory. -/
def commandState (ws : List Word) (m : Memory) : State :=
  let s := { State.reset with sts := { State.reset.sts with phase := 3 } }
  let s := s.setQueue 32 { Queue.reset with en := true, tail := 1 }
  { s with mem := Memory.write m (hostPA 0) (ws.flatMap fun w => toBytes 8 w.toNat) }

/-- A command of three words. -/
def cmd (op a b c : Word) : List Word := [op, a, b, c, 0, 0, 0, 0]

/-- An object that a launch holds or not, and its command. -/
def heldObject : Obj :=
  { handle := 1, space := 1, base := 0x10000, len := 0x1000, level := 2, vldep := false, vregs := 0, spbytes := 0, ixent := 0 }

def unloadState (launches : List Launch) (objects : List Obj) : State :=
  let s := commandState (cmd 2 1 0 0) []
  { s with fe := { s.fe with launches := launches, objects := objects } }

theorem witness_ObjectAndDeviceCommands : atHead (unloadState [] []) (cmd 2 1 0 0) ∧ commandOf (cmd 2 1 0 0) 2 [1] ∧
    (∀ o ∈ (unloadState [] []).fe.objects, o.handle ≠ 1) ∧
    (∀ r, r ∈ [[], [waitingLaunch 0]] → atHead (unloadState r [heldObject]) (cmd 2 1 0 0) ∧
      (unloadState r [heldObject]).fe.objects.find? (fun o => o.handle = 1) = some heldObject) ∧
    (unloadState [waitingLaunch 0] [heldObject]).holders heldObject ≠ 0 ∧ (unloadState [] [heldObject]).holders heldObject = 0 := by
  unfold atHead commandOf
  and_intros <;> decide +kernel

/-- The device full of objects. -/
theorem witness_objectsFull : 4096 ≤ (List.replicate 4096 heldObject).length := by rw [List.length_replicate]

/-- An object of 96 bytes at 0x40 with one segment of 4 KiB of code, needing a level. -/
def objectImage (level : BitVec 8) : Memory :=
  [(0x50, 96), (0x58, 64), (0x60, 64), (0x71, 1), (0x7A, level), (0x7B, 1), (0x7C, 0x5A), (0x7D, 0x4F), (0x7E, 0x46),
   (0x86, 0xC0), (0x87, 0x0A), (0x89, 0x10), (0x98, 96)]

def loadState (level : BitVec 8) (tag base : Word) : State := commandState (cmd 1 0x40 tag base) (objectImage level)

/-- The object meets every condition, whatever level it needs. -/
theorem object_wellFormed (l : Nat) (h : l ∈ [3, 4]) : wellFormedObject (loadState (BitVec.ofNat 8 l) 1 0x1000) 0x40 ∧
    head (loadState (BitVec.ofNat 8 l) 1 0x1000) 0x40 471 464 = l := by
  unfold wellFormedObject
  revert l
  decide +kernel

/-- Zeros are no object. -/
theorem zeros_malformed : ¬wellFormedObject (commandState (cmd 1 0x40 1 0x1000) []) 0x40 :=
  fun h => absurd h.1 (by decide +kernel)

/-- The addresses that LOAD_OBJECT refuses, and those that it takes. -/
theorem witness_LoadObject :
    atHead (commandState (cmd 1 0x41 1 0) []) (cmd 1 0x41 1 0) ∧ commandOf (cmd 1 0x41 1 0) 1 [1, 2, 3] ∧
    word (cmd 1 0x41 1 0) 1 % 64 ≠ 0 ∧ ¬Slice0.inMemory (commandState (cmd 1 0x2FFFFFFFF8 1 0) []) 0x2FFFFFFFF8 64 ∧
    atHead (loadState 2 1 0x1000) (cmd 1 0x40 1 0x1000) ∧ Slice0.inMemory (loadState 2 1 0x1000) 0x40 64 ∧
    Slice0.inMemory (loadState 2 1 0x1000) 0x40 (head (loadState 2 1 0x1000) 0x40 191 128) := by
  unfold atHead commandOf Slice0.inMemory
  decide +kernel

/-- Its code segment, and the placements that its statuses tell apart. -/
theorem witness_LoadPlacement :
    head (loadState 3 1 0x1000) 0x40 399 392 = 1 ∧ segEntry (loadState 3 1 0x1000) 0x40 0 63 60 = 0 ∧
    (word (cmd 1 0x40 1 0x1000) 2 % 2 ^ 16 ≠ 0 ∧
      word (cmd 1 0x40 1 0x1000) 3 % 2 ^ segEntry (loadState 3 1 0x1000) 0x40 0 56 52 = 0) ∧
    ¬(word (cmd 1 0x40 0 0x1000) 2 % 2 ^ 16 ≠ 0) ∧ ¬(word (cmd 1 0x40 1 0x800) 3 % 2 ^ 12 = 0) ∧
    (loadState 3 1 0x1000).fe.objects.length < 4096 := by decide +kernel

/-- SET_SAVE_POOL of a free pool, of none, and of one in use; ATTEST and PROTECT at the end of GDDR 7 and beyond it. -/
theorem witness_DeviceCommands :
    atHead (commandState (cmd 8 0x1000 1 0) []) (cmd 8 0x1000 1 0) ∧ commandOf (cmd 8 0x1000 1 0) 8 [1, 2] ∧
    (commandState (cmd 8 0x1000 1 0) []).fe.areas = [] ∧
    (0x1000 % 4096 = 0 ∧ 1 ≠ 0 ∧ Slice0.inMemory (commandState (cmd 8 0x1000 1 0) []) 0x1000 1) ∧
    ¬(0x1000 % 4096 = 0 ∧ 0 ≠ 0 ∧ Slice0.inMemory (commandState (cmd 8 0x1000 0 0) []) 0x1000 0) ∧
    (unloadState [] []).fe.areas ++ [(0, 1)] ≠ [] ∧
    atHead (commandState (cmd 9 0x2FFFFFE2C0 0 0) []) (cmd 9 0x2FFFFFE2C0 0 0) ∧ commandOf (cmd 9 0x2FFFFFE2C0 0 0) 9 [1] ∧
    (0x2FFFFFE2C0 % 64 = 0 ∧ Slice0.inMemory (commandState (cmd 9 0x2FFFFFE2C0 0 0) []) 0x2FFFFFE2C0 7475) ∧
    ¬(0x2FFFFFE300 % 64 = 0 ∧ Slice0.inMemory (commandState (cmd 9 0x2FFFFFE300 0 0) []) 0x2FFFFFE300 7475) ∧
    atHead (commandState (cmd 10 0x2FFFFF0000 0x10000 0) []) (cmd 10 0x2FFFFF0000 0x10000 0) ∧
    commandOf (cmd 10 0x2FFFFF0000 0x10000 0) 10 [1, 2] ∧
    (0x2FFFFF0000 % 65536 = 0 ∧ 0x10000 % 65536 = 0 ∧ 0x2FFFFF0000 + 0x10000 ≤ 0x3000000000 ∧
      ∀ p ∈ (commandState (cmd 10 0x2FFFFF0000 0x10000 0) []).sts.prot,
        ¬(p.1 < 0x2FFFFF0000 + 0x10000 ∧ 0x2FFFFF0000 < p.1 + p.2)) ∧
    ¬0x2FFFFF0000 + 0x20000 ≤ 0x3000000000 ∧ word (cmd 10 0x2FFFFF0000 0 0) 2 = 0 := by
  unfold atHead commandOf Slice0.inMemory
  and_intros <;> decide +kernel

/-- A command on a range, with a hold of the first page of space 1. -/
def rangeState (op tag base lg : Word) : State := heldState (commandState (cmd op tag base lg) [])

/-- A hart of space 1 whose store is paused. -/
def pausedHart : Hart :=
  let p : Piece := { i := 0, a := fillAcc, e := dataEntry true, cell := 0x2000, n := 8, last := 0, x := 0 }
  { probeHart with placed := some { todo := [(p, false)], bad := none, begun := true, early := none } }

/-- Ranges of the least and the greatest size, one too small, one that is held. -/
theorem witness_RangeCommands :
    (∀ op : Nat, op ∈ [3, 4, 5] → atHead (rangeState (BitVec.ofNat 64 op) 1 0x3000 12) (cmd (BitVec.ofNat 64 op) 1 0x3000 12) ∧
      commandOf (cmd (BitVec.ofNat 64 op) 1 0x3000 12) op [1, 2, 3]) ∧
    goodRange (cmd 3 1 0x3000 12) ∧ goodRange (cmd 3 0xFFFF 0 57) ∧ ¬goodRange (cmd 3 1 0x3000 11) ∧ ¬goodRange (cmd 3 0 0 12) ∧
    ¬rangeHeld (rangeState 3 1 0x3000 12) 1 0x3000 (2 ^ 12) ∧ rangeHeld (rangeState 3 1 0 57) 1 0 (2 ^ 57) ∧
    rangeHeld (rangeState 5 1 0 0) 1 0 (2 ^ 57) ∧ ¬rangeHeld (rangeState 5 2 0 0) 2 0 (2 ^ 57) ∧
    word (cmd 5 0 0 0) 1 % 2 ^ 16 = 0 ∧ ¬storePaused (rangeState 5 2 0 0) 2 ∧
    ¬storeBegun (rangeState 3 1 0x3000 12) 1 0x3000 (2 ^ 12) := by
  unfold atHead commandOf goodRange rangeHeld storePaused storeBegun
  and_intros <;> decide +kernel

/-- A resolution of a die's entry, an ordinary one and a notice. -/
def resolveState (how : Word) (wres : Nat) : State :=
  (commandState (cmd 6 0 0 how) []).setDie 0 { Die.reset with faults := [{ madeFault with wres := wres, posted := true }] }

theorem witness_RangeAndResolveCommands :
    (∀ how : Nat, how ∈ [0, 1] → atHead (resolveState (BitVec.ofNat 64 how) 7) (cmd 6 0 0 (BitVec.ofNat 64 how)) ∧
      commandOf (cmd 6 0 0 (BitVec.ofNat 64 how)) 6 [1, 2, 3] ∧
      word (cmd 6 0 0 (BitVec.ofNat 64 how)) 3 % 2 = how) ∧
    ((commandState (cmd 6 0 0 0) []).die 0).faults.find? (fun f => f.id = 0) = none ∧
    ((resolveState 0 7).die 0).faults.find? (fun f => f.id = 0) = some { madeFault with wres := 7, posted := true } ∧
    ((resolveState 0 15).die 0).faults.find? (fun f => f.id = 0) = some { madeFault with wres := 15, posted := true } ∧
    atHead (commandState (cmd 7 0x100000 0 0) []) (cmd 7 0x100000 0 0) ∧ commandOf (cmd 7 0x100000 0 0) 7 [1] ∧
    (commandState (cmd 7 0x100000 0 0) []).fieldsOf 0x100000 = none ∧ (regionState probeHart []).fieldsOf 0x100000 ≠ none ∧
    (∃ r ∈ (regionState probeHart []).fe.regions, (regionState probeHart []).under 0x100000 r.f.blk = true) ∧
    (∀ q ∈ (resolveState 0 7).harts, ∀ w, q.2.trap = some w → w.frec.cause ≠ 0x13) := by
  unfold atHead commandOf
  and_intros <;> decide +kernel

/-- Refused stores of the entry's page and of another page, and one of its page that has not been answered. -/
def retryState : State :=
  let s := resolveState 0 7
  s.setCore 0 { s.core 0 with sb := [{ bufferedEntry with state := .reported },
    { bufferedEntry with state := .faulted, va := 0x7000, hostq := 5 }, bufferedEntry] }

theorem witness_RetriedStores : atHead retryState (cmd 6 0 0 0) ∧
    (retryState.die 0).faults.find? (fun f => f.id = 0) = some { madeFault with wres := 7, posted := true } ∧
    onPage { bufferedEntry with state := .reported } madeFault ∧ waitsForHost { bufferedEntry with state := .reported } ∧
    ¬onPage { bufferedEntry with va := 0x7000 } madeFault ∧ madeFault.id ≠ 5 ∧ onPage bufferedEntry madeFault ∧
    ¬waitsForHost bufferedEntry := by
  unfold atHead onPage waitsForHost
  and_intros <;> decide +kernel

/-- A store of space 1 is paused. -/
theorem witness_storePaused : storePaused (alone pausedHart) 1 :=
  ⟨(0, pausedHart), .head _, _, rfl, _, .head _, rfl⟩

/-- It is under way, and its last element lies in a range that ends there or begins there. -/
theorem witness_storeBegun : storeBegun (alone pausedHart) 1 0x2000 1 :=
  ⟨(0, pausedHart), .head _, _, rfl, rfl, _, .head _, rfl, by decide, by decide⟩

/-- Training is over, and the unit has a command under way. -/
theorem witness_currentCommand : atHead (begun { rangeState 4 1 0x3000 12 with
    sts := { (rangeState 4 1 0x3000 12).sts with trained := true } }) (cmd 4 1 0x3000 12) := by
  unfold atHead begun
  and_intros <;> decide +kernel

theorem goes {o : Host.Outcome State Fault Refusal} (h : (match o with
    | .next _ => true
    | _ => false) = true) : ∃ t, o = .next t := by
  cases o with
  | next t => exact ⟨t, rfl⟩
  | fault _ => simp at h
  | refused _ => simp at h

/-- States that meet the invariants and whose step goes on. -/
theorem witness_StepKeepsMemoriesCanonical : (before 0x12300282).mem.wf = true ∧ ((before 0x12300282).core 0).sp.wf = true ∧
    ∃ t, step (before 0x12300282) = .next t := ⟨by decide +kernel, by decide +kernel, goes (by decide +kernel)⟩
theorem witness_StepKeepsOneHartPerSlot : oneHartPerSlot (pairState probeHart probeHart) ∧
    oneHartPerSlot (before 0x12300282) := by
  unfold oneHartPerSlot
  decide +kernel
theorem witness_StepKeepsCachesFormed : formedCache ((cachedState probeHart true).core 0).l1 := by
  unfold formedCache distinctFrames
  decide +kernel

/-- The last queue, and one of each kind. -/
theorem witness_ResetState : (37 : Nat) < 38 ∧ (15 : Nat) < 16 ∧ ¬(16 : Nat) < 16 ∧ (16 : Nat) < 32 := by decide

/-! ### Issue checks -/

/-- What the issue checks find. -/
inductive Finds where
  | illegal
  | noRoom
  | nothing

/-- An instruction that has a form, at a hart that nothing holds back, and what its issue checks find. -/
def checksAs (i : Instr) (h : Hart) (f : Finds) : Prop :=
  ∃ c, issueForm (alone h) h i = some c ∧ (alone h).me = some h ∧ unheld (alone h) h (c.from h) c.writes ∧
    match f with
    | .illegal => c.illegal (atRegs h (c.from h) c.writes)
    | .noRoom => ¬c.illegal (atRegs h (c.from h) c.writes) ∧ ¬c.room (atRegs h (c.from h) c.writes) (alone h)
    | .nothing => ¬c.illegal (atRegs h (c.from h) c.writes) ∧ c.room (atRegs h (c.from h) c.writes) (alone h)

/-- vstart that is not 0, tags of two widths, a mask that is not m1, a mode that is none, and vl one above the capacity. -/
theorem witness_VectorIssueChecksTrap :
    checksAs (.vslu 0 5 1 6) { vecHart 4 0 with ctl := { (vecHart 4 0).ctl with vstart := 1 } } .illegal ∧
    checksAs (.vand 0 5 1 3) (vecHart 4 0) .illegal ∧ checksAs (.vadd 0 .rne 5 1 2) (vecHart 4 0x41) .illegal ∧
    checksAs (.vadd 0 .frm 6 3 4) { vecHart 4 0 with ctl := { (vecHart 4 0).ctl with frm := 6 } } .illegal ∧
    checksAs (.vslu 0 5 1 6) (vecHart 1025 0) .noRoom ∧ checksAs (.vcvt 0 .rne 6 1) (vecHart 513 0) .noRoom ∧
    checksAs (.vld 0 .row 2 0 6) (vecHart 513 0) .noRoom := by
  refine ⟨⟨_, rfl, rfl, ?_, ?_⟩, ⟨_, rfl, rfl, ?_, ?_⟩, ⟨_, rfl, rfl, ?_, ?_⟩, ⟨_, rfl, rfl, ?_, ?_⟩,
    ⟨_, rfl, rfl, ?_, ?_⟩, ⟨_, rfl, rfl, ?_, ?_⟩, ⟨_, rfl, rfl, ?_, ?_⟩⟩ <;>
  · simp only [IssueForm.illegal, unheld, maskUsable, plainForm, fits]
    decide +kernel

/-- SPLD of two f32 elements by the base in x4, the descriptor in x5 and the walk in x6, in a grant of one unit. -/
def walkHart (a d w : Word) : Hart := withX (withV probeHart 2 [(3, vec 0x0A 32 [1, 2])]) [(4, a), (5, d), (6, w)]

/-- A walk that is no column walk but has a pitch; a misaligned base; a column walk with no row pitch; the second element
past the grant; and a grant without entries. -/
theorem witness_ScratchpadChecksTrap : scratchForm (.spld 0 3 4 6) = some (3, 4, 6, 0) ∧
    checksAs (.spld 0 3 4 6) (walkHart 0 0 1) .nothing ∧
    badWalk ((walkHart 0 0 1).getX 6) ((walkHart 0 0 1).getX (pairOf 4)) (widthOf (walkHart 0 0 1) 3) ∧
    ¬badWalk ((walkHart 2 0 0).getX 6) ((walkHart 2 0 0).getX (pairOf 4)) (widthOf (walkHart 2 0 0) 3) ∧
    misplaced (widthOf (walkHart 2 0 0) 3) ((walkHart 2 0 0).getX 4) ((walkHart 2 0 0).getX (pairOf 4)) ∧
    ¬misplaced (widthOf (walkHart 0 0 0x10001) 3) ((walkHart 0 0 0x10001).getX 4) ((walkHart 0 0 0x10001).getX (pairOf 4)) ∧
    (((walkHart 0 0 0x10001).getX 6).toNat.testBit 16 = true ∧ descRpitch ((walkHart 0 0 0x10001).getX (pairOf 4)) = 0) ∧
    (walkHart 0x7FFC 0 0).actives = [0] ++ 1 :: [] ∧
    (spOperand (walkHart 0x7FFC 0 0) 3 4 6).elemOk padGrant 0 = true ∧
    (spOperand (walkHart 0x7FFC 0 0) 3 4 6).elemOk padGrant 1 = false ∧
    checksAs (.sxins 0 9 2 3) (indexHart 4) .nothing ∧ (((alone probeHart).core 0).grantOf probeBlk).ixUnits = 0 ∧
    unheld (alone probeHart) probeHart [] [] := by
  refine ⟨rfl, ⟨_, rfl, rfl, ?_, ?_⟩, ?_, ?_, ?_, ?_, ?_, ?_, ?_, ?_, ⟨_, rfl, rfl, ?_, ?_⟩, ?_, ?_⟩ <;>
  first
    | decide +kernel
    | (simp only [IssueForm.illegal, unheld, maskUsable, plainForm, fits, badWalk, misplaced]
       decide +kernel)

/-- The integer operands with another control register. -/
def shapeHart (f : Ctrl → Ctrl) : Hart := { intMat with ctl := f intMat.ctl }

/-- An i8 tile of the scratchpad at x4 and x5 in place of A, and one of e2m3 with a rotation. -/
def tileHart (tag : Nat) (a d : Word) : Hart :=
  withX (withV intMat 0 [(4, vec tag 8 []), (0, vec tag 8 []), (1, vec tag 8 [])]) [(4, a), (5, d)]

def tileIn : MatIn := { sparse := false, z := false, d := 8, a := .sp 4, b := .reg 1 }

theorem witness_MatrixChecksTrap : matrixForm (.mma 0 false .ip 8 (.reg 0) (.reg 1)) ≠ none ∧
    (alone intMat).me = some intMat ∧ (shapeHart fun c => { c with vstart := 1 }).ctl.vstart ≠ 0 ∧ intMat.ctl.vstart = 0 ∧
    shaped intMat (deepest 8) ∧ ¬shaped (shapeHart fun c => { c with mdep := 160 }) (deepest 8) ∧
    ¬shaped (shapeHart fun c => { c with mrow := 65 }) (deepest 8) ∧ ¬(intMat.ctl.mcol.toNat % 128 = 0) ∧
    matRow (intMat.tagAt 0) (intMat.tagAt 1) (intMat.tagAt 8) ≠ none ∧
    matRow (intMat.tagAt 8) (intMat.tagAt 8) (intMat.tagAt 8) = none ∧ ¬([8, 9, 8] : List Nat).Nodup ∧
    ¬scalesExist { fmt := .e4m3, scale := some (15, 1) } 4097 ∧ scalesExist { fmt := .e4m3, scale := some (15, 1) } 4096 ∧
    tileIn.check (.mma 0 false .ip 8 (.sp 4) (.reg 1)) (tileHart 0x00 1 0) (alone intMat).vlen 1 = none ∧
    unheld (alone intMat) intMat [1, 8] [8] ∧ ofTile (tileHart 0x00 1 4) tileIn.a (misplaced 8) = False ∧
    ofTile (tileHart 0x01 1 0) tileIn.a (misplaced 16) ∧
    ofTile (tileHart 0x00 0 (1 <<< 40)) tileIn.a (fun _ d => descRot d ≠ 0) ∧
    ofTile (tileHart 0x00 0x7FFF 0) tileIn.a (outsideGrant padGrant 8 1 64) ∧
    ¬ofTile (tileHart 0x00 0x7FC0 0) tileIn.a (outsideGrant padGrant 8 1 64) ∧
    ofTile (tileHart 0x00 0 0) tileIn.a (tilePoisoned poisonedCore padGrant 8 1 64) ∧
    mlastHart.ctl.vstart = 0 ∧ shaped mlastHart 256 ∧ ¬shaped (shapeHart fun c => { c with mdep := 0 }) 256 ∧
    (mlastHart.getV 41).tag ≠ 0x04 ∧ 64 < 64 + 1 := by
  refine ⟨by decide +kernel, by decide +kernel, by decide +kernel, by decide +kernel, by unfold shaped; decide +kernel,
    by unfold shaped; decide +kernel, by unfold shaped; decide +kernel, by decide +kernel, by decide +kernel,
    by decide +kernel, by decide, by unfold scalesExist; decide, by unfold scalesExist; decide, by decide +kernel,
    by unfold unheld; decide +kernel, ?_, ?_, ?_, ⟨0, 1, 1, by decide, by decide, by decide, by decide, by decide +kernel⟩, ?_,
    ⟨0, 0, 0, by decide, by decide, by decide, by decide, by decide +kernel⟩, by decide +kernel,
    by unfold shaped; decide +kernel, by unfold shaped; decide +kernel, by decide +kernel, by decide⟩
  · exact eq_false (by show ¬misplaced 8 _ _; unfold misplaced; decide +kernel)
  · show misplaced 16 _ _
    unfold misplaced
    decide +kernel
  · show descRot _ ≠ 0
    decide +kernel
  · rintro ⟨i, j, b, hi, hj, h1, h2, h⟩
    have hb : b < 64 := by omega
    have : i = 0 := by omega
    subst this
    have inside : ∀ b, b < 64 → descOk ((tileHart 0x00 0x7FC0 0).getX 4) ((tileHart 0x00 0x7FC0 0).getX (pairOf 4)) = true ∧
        spByteOk padGrant ((tileHart 0x00 0x7FC0 0).getX 4) ((tileHart 0x00 0x7FC0 0).getX (pairOf 4)) 0 0 b = true := by
      decide +kernel
    exact h (inside b hb)

/-! ### Vector memory that stops -/

/-- The line's hart with a segment of 0x80 bytes. -/
def shortHart (vl : Nat) : Hart :=
  { lineHart vl with g := (lineHart vl).g.set 2 (BitVec.ofNat 128 (0x80 <<< 64 + 1 <<< 63 + 3 <<< 60 + 0x2000)) }
def shortState : State := cachedState (shortHart 3) true

/-- The page of the line without its read right. -/
def unreadable : State :=
  (lineState 2).setCore 0 { (lineState 2).core 0 with
    filter := [{ dataEntry true with attr := { (dataEntry true).attr with r := false, w := false } }] }

/-- `vld` and `vldf` whose third element lies past the segment, behind two that are loaded; one whose page refuses its first
element; and a whole register at an offset of 8. -/
theorem witness_VectorLoadTraps : ∃ c d e, vecLoad (shortHart 3) (.vld 30 .row 2 0 3) = some c ∧
    vecLoad (shortHart 3) (.vldf 30 .row 2 0 3) = some d ∧ vecLoad (lineHart 2) (.vldw 0 2 6 3) = some e ∧
    shortState.me = some (shortHart 3) ∧ unheld shortState (shortHart 3) c.reads c.writes ∧
    (c.access (atRegs (shortHart 3) c.reads c.writes) shortState.vlen).els = [0, 1] ++ 2 :: [] ∧
    (atRegs (shortHart 3) c.reads c.writes).ctl.bthr.toNat % 2 ^ 32 = 0 ∧
    (∀ x ∈ [0, 1], (c.access (atRegs (shortHart 3) c.reads c.writes) shortState.vlen).holds shortState
      (atRegs (shortHart 3) c.reads c.writes) x 0) ∧
    (c.access (atRegs (shortHart 3) c.reads c.writes) shortState.vlen).fails shortState
      (atRegs (shortHart 3) c.reads c.writes) .read 2 6 ∧
    firstOnly (.vldf 30 .row 2 0 3) = true ∧ (shortHart 3).ctl.vstart.toNat % 2 ^ 32 < 2 ∧
    (∃ q, vecLoad (lineHart 2) (.vld 30 .row 2 0 3) = some q ∧
      (q.access (atRegs (lineHart 2) q.reads q.writes) unreadable.vlen).fails unreadable
        (atRegs (lineHart 2) q.reads q.writes) .read 0 7) ∧
    wordForm (.vldw 0 2 6 3) = true ∧ ¬e.usable (withX (lineHart 2) [(6, 8)]) (lineState 2) ∧
    (e.access (lineHart 2) (lineState 2).vlen).els = [] ++ 0 :: (List.range 255).map (· + 1) := by
  refine ⟨_, _, _, rfl, rfl, rfl, by decide +kernel, by unfold unheld; decide +kernel, by decide +kernel,
    by decide +kernel, ?_, .inl (by decide +kernel), rfl, by decide +kernel, ⟨_, rfl, .inr ⟨by decide +kernel, ?_⟩⟩, rfl,
    by simp only [byWord]; decide +kernel, by decide +kernel⟩
  · intro e he
    have hl : e = 0 ∨ e = 1 := by simpa using he
    rcases hl with rfl | rfl <;>
    · refine ⟨by decide, oneRun rfl ?_⟩
      refine ⟨dataEntry true, dataFrame, ?_, ?_, by decide +kernel⟩
      · unfold VecAccess.granted segGrants
        and_intros <;> decide +kernel
      · unfold nearBytes notBuffered
        and_intros <;> decide +kernel
  · refine ⟨[{ dataEntry true with attr := { (dataEntry true).attr with r := false, w := false } }], rfl, ?_,
      .inl (by decide +kernel)⟩
    intro j p e hp he
    cases j with
    | zero =>
      cases hp
      cases he
      exact ⟨rfl, by decide +kernel⟩
    | succ n => simp at he

/-- e2m3 in v3: the column view's second element has its bits in the last byte of a page of 0x1000 bytes and in the first
byte of the next, which refuses reads or grants them. -/
def splitHart : Hart :=
  let h := withX (withV (lineHart 2) 2 [(3, vec 0x0F 6 [1, 2])]) [(6, 0xFFF)]
  { h with
    g := h.g.set 2 (BitVec.ofNat 128 (0x2000 <<< 64 + 1 <<< 63 + 3 <<< 60 + 0x2000))
    ctl := { h.ctl with vstart := 1 } }

def splitEntry (r : Bool) : FilterEntry :=
  { dataEntry true with vbase := 0x3000, attr := { (dataEntry true).attr with r := r, w := false } }

def splitState (r : Bool) : State := (alone splitHart).setCore 0 { Core.reset with filter := [dataEntry true, splitEntry r] }

/-- The first page grants the read and fails the orientation: the refusal of the second comes first, and the orientation
decides where both grant it. -/
theorem witness_PairOfPages : ∃ c, vecLoad splitHart (.vld 0 .col 2 6 3) = some c ∧
    (c.access (atRegs splitHart c.reads c.writes) (splitState true).vlen).els = [] ++ 1 :: [] ∧
    ∀ p, p ∈ [(false, 0x07), (true, 0x0A)] → (splitState p.1).me = some splitHart ∧
      (c.access (atRegs splitHart c.reads c.writes) (splitState p.1).vlen).fails (splitState p.1)
        (atRegs splitHart c.reads c.writes) .read 1 p.2 := by
  refine ⟨_, rfl, by decide +kernel, fun p hp => ?_⟩
  have found : ∀ (r : Bool) (j : Nat) (q : Word × Nat) (e : FilterEntry), (((byElement splitHart false [] 3 .col 2 (fun g => unitAt g 6 0) true always).access
      (atRegs splitHart [] [3]) (splitState r).vlen).runs 1)[j]? = some q → [dataEntry true, splitEntry r][j]? = some e →
      e.pd = false ∧ ((splitState r).core (splitState r).myCore).filter.find? (fun f => f.covers (atRegs splitHart [] [3]).spaceTag
        (segBase ((atRegs splitHart [] [3]).getG 2) + q.1.toNat)) = some e := by
    intro r j q e hq he
    rw [show ((byElement splitHart false [] 3 .col 2 (fun g => unitAt g 6 0) true always).access
      (atRegs splitHart [] [3]) (splitState r).vlen).runs 1 = [(0xFFF, 1), (0x1000, 1)] by cases r <;> decide +kernel] at hq
    match j with
    | 0 => cases hq; cases he; cases r <;> exact ⟨rfl, by decide +kernel⟩
    | 1 => cases hq; cases he; cases r <;> exact ⟨rfl, by decide +kernel⟩
    | n + 2 => simp at he
  simp only [List.mem_cons, List.not_mem_nil, or_false] at hp
  rcases hp with rfl | rfl
  · exact ⟨by decide +kernel, .inr ⟨by decide +kernel, _, by decide +kernel, found false, .inl (by decide +kernel)⟩⟩
  · exact ⟨by decide +kernel, .inr ⟨by decide +kernel, _, by decide +kernel, found true,
      .inr ⟨by decide +kernel, rfl, _, .head _, by unfold misoriented; decide +kernel⟩⟩⟩

/-- The same of `vst`; `vamoadd` in a segment that grants no write, at its lowest element. -/
theorem witness_VectorStoreTraps : ∃ c code, vecStore (shortHart 3) (.vst 30 .row 2 0 3) = some (c, code) ∧
    shortState.me = some (shortHart 3) ∧ unheld shortState (shortHart 3) c.reads c.writes ∧
    (c.access (atRegs (shortHart 3) c.reads c.writes) shortState.vlen).els = [0, 1] ++ 2 :: [] ∧
    (atRegs (shortHart 3) c.reads c.writes).placed = none ∧ (atRegs (shortHart 3) c.reads c.writes).ordered = false ∧
    (shortState.core 0).bypass = [] ∧ (shortState.core 0).target = [] ∧ distinctFrames (shortState.core 0).l1 ∧
    ((shortState.core 0).sb.filter fun q => q.slot = 0).length ≤ (shortState.core 0).sbLimit ∧
    (∀ x ∈ [0, 1], ∀ (j : Nat) (p : Word × Nat),
      ((c.access (atRegs (shortHart 3) c.reads c.writes) shortState.vlen).runs x)[j]? = some p → ∃ q f,
        (c.access (atRegs (shortHart 3) c.reads c.writes) shortState.vlen).granted shortState
          (atRegs (shortHart 3) c.reads c.writes) p.1 p.2 q false true ∧ q.cf = true ∧
        0x2078 + 4 * x = (c.access (atRegs (shortHart 3) c.reads c.writes) shortState.vlen).cell
          (atRegs (shortHart 3) c.reads c.writes) p.1 q ∧
        nearBytes shortState (atRegs (shortHart 3) c.reads c.writes) (0x2078 + 4 * x) p.2 f) ∧
    (c.access (atRegs (shortHart 3) c.reads c.writes) shortState.vlen).fails shortState
      (atRegs (shortHart 3) c.reads c.writes) .write 2 6 ∧
    wordForm (.vstw 0 2 6 3) = true := by
  refine ⟨_, _, rfl, by decide +kernel, by unfold unheld; decide +kernel, by decide +kernel, by decide +kernel,
    by decide +kernel, by decide +kernel, by decide +kernel, by unfold distinctFrames; decide +kernel, by decide +kernel, ?_,
    .inl (by decide +kernel), rfl⟩
  intro x hx
  have hl : x = 0 ∨ x = 1 := by simpa using hx
  rcases hl with rfl | rfl <;>
  · refine oneRun rfl ?_
    refine ⟨dataEntry true, dataFrame, ?_, rfl, by decide +kernel, ?_⟩
    · unfold VecAccess.granted segGrants
      and_intros <;> decide +kernel
    · unfold nearBytes notBuffered
      and_intros <;> decide +kernel

/-- The line's hart in a segment that grants reads alone. -/
def readerHart : Hart := { lineHart 2 with g := (lineHart 2).g.set 2 (dataSeg true false) }

theorem witness_VectorAtomicTraps : ∃ c, vamoForm (.vamoadd .d .any 2 0 4) = some c ∧
    (dataState readerHart true).me = some readerHart ∧
    ready (dataState readerHart true) readerHart [c.d.toNat, (c.d + 1).toNat] [c.d.toNat] [c.d.toNat, (c.d + 1).toNat] ∧
    (atVec readerHart [c.d.toNat, (c.d + 1).toNat] [c.d.toNat]).actives = 0 :: [1] ∧
    let g := atVec readerHart [c.d.toNat, (c.d + 1).toNat] [c.d.toNat]
    let m : VecAccess := { g := c.g, col := false, w := widthOf g c.d, els := g.actives, off := indexAt g c.b (c.d + 1) }
    m.fails (dataState readerHart true) g .both 0 8 := by
  refine ⟨_, rfl, by decide +kernel, ?_, by decide +kernel, .inl (by decide +kernel)⟩
  simp only [ready_iff]
  and_intros <;> decide +kernel

/-! ### Repaired points: early faults of a store, history entries, rank-1 column views -/

/-- Two words of v3 through the page's last word: the second lies past the segment. -/
def edgeState : State := tableState (withX (lineHart 2) [(6, 0xFFC)]) tableLeaf

/-- 01 R23: a store whose element 1 fails at its segment performs element 0 on its unconfirmed page, and leaves nothing in
the store buffer. -/
theorem test_store_segment_fault :
    let t := run (.vst 0 .row 2 6 3) edgeState
    (t.me.map fun g => (g.ctl.tcause, g.ctl.vstart), (t.core 0).sb.length, (t.core 0).l1.map (·.base)) =
      (some (0x06, 1), 0, [0x2F80]) := by decide +kernel

/-- 10 R180: the register of an unretired vector instruction, as it was. -/
theorem test_history_vector : ((lineHart 2).keepPrior (.v 3 VReg.reset)).history 0 = [⟨0, .v 3 VReg.reset⟩] ∧
    ((lineHart 2).keepPrior (.v 3 VReg.reset)).retire.history 0 = [] := by decide +kernel

/-! ### The named algorithms: vectors of FIPS 202, FIPS 197 and IEEE 1619 (27 R383, R390) -/

theorem test_sha3_512_empty : sha3_512 [] = 0x26cd1d2886857501e3d3b6959d1900f558c53a2c40e9e3114cf9f5f13a12b215a6805c47c1dcd1e05958e24f1682c9976e755a18dc67b5c8c59a3aa2cc739fa6 := by decide +kernel
theorem test_aes_256 : ofBytes (aesBlock (roundKeys ((upto 32).map fun k => BitVec.ofNat 8 k))
    ((upto 16).map fun k => BitVec.ofNat 8 (17 * k))) = 0x8960494b9049fceabf456751cab7a28e := by decide +kernel
theorem test_xts_second_block : ofBytes (xtsBlock
    0x92459474098205513799931697418802952783336462842393975853265941312776966649575999699370245777496226357174286053234590452818281827
    0xFF 1 ((upto 16).map fun k => BitVec.ofNat 8 (16 + k))) = 0x3be6a314d412aea45723485e3f8000ea := by decide +kernel

/-! ### Repaired points: an unwound load, a line of the control window -/

/-- 10 R180: a deferred store trap at a load that is not retired gives its register and `vstart` back. -/
theorem test_deferred_unwinds :
    let h := (dataHart true true).setV 3 (vec 0x0A 32 [9])
    let b : Begun := { seq := h.seq, reg := .v 3 (vec 0x0A 32 [5]), vstart := 0 }
    let s := (entryState .faulted).setHart 0 { h with prior := some b, ctl := { h.ctl with vstart := 1 } }
    ((run (.deferredStoreTrap 0 0) s).hart? 0).map (fun g => (at_ g 3 0, g.ctl.vstart, g.ctl.tcause)) =
      some (5, 0, 0x0C) := by decide +kernel

/-- 01 R14: a line of the control window that its L2 writes back reaches no byte of memory. -/
theorem test_window_write_back : (run (.writeBackMerge .l2 0) windowState).mem = windowState.mem ∧
    ((run (.writeBackMerge .l2 0) windowState).cluster 0).wbq = [] := by decide +kernel

end Sys2Proof.Tests
end

/-! # What every step keeps

Each operation of the model keeps three forms: memories are canonical, a slot holds one hart, and caches hold formed frames in
distinct places. `State.Keeps` says so of two machines; there is one lemma for each operation, which follows the operation's
definition, and the step's own lemma is put together from them. -/

namespace Sys2Proof.Machine

open Sys2Proof.Slice0

-- The lemmas are many and short: they are elaborated one after the other, since as tasks of their own they would all wait for
-- the tests above, each with a thread's memory.
set_option Elab.async false

/-! ### Frames and caches (03 R44) -/

theorem TClass.block_mod (t : TClass) (n : Nat) : n * t.block % 128 = 0 := by
  unfold TClass.block
  rw [← Nat.mul_assoc, Nat.mul_mod_left]

/-- A frame has the rows of its class and stands at a line. -/
def Frame.formed (f : Frame) : Prop := f.rows.length = f.tclass.rows ∧ f.base % 128 = 0

theorem formedCache_nil : formedCache [] := ⟨.nil, fun _ h => nomatch h⟩

/-- The frames that a filter leaves stand as they did. -/
theorem formedCache_filter {c : Cache} (p : Frame → Bool) (h : formedCache c) : formedCache (c.filter p) :=
  ⟨h.1.filter p, fun f hf => h.2 f (List.mem_of_mem_filter hf)⟩

/-- So do frames whose contents alone change. -/
theorem formedCache_map {c : Cache} {g : Frame → Frame}
    (hg : ∀ f, (g f).space = f.space ∧ (g f).base = f.base ∧ (g f).way = f.way ∧ (g f).tclass = f.tclass ∧
      (g f).rows.length = f.rows.length) (h : formedCache c) : formedCache (c.map g) := by
  refine ⟨List.pairwise_map.2 (h.1.imp fun {a b} hab => ?_), fun f hf => ?_⟩
  · obtain ⟨as, ab, aw, -⟩ := hg a
    obtain ⟨bs, bb, bw, -⟩ := hg b
    rwa [as, ab, aw, bs, bb, bw]
  · obtain ⟨e, he, rfl⟩ := List.mem_map.1 hf
    obtain ⟨-, b, -, t, l⟩ := hg e
    rw [b, t, l]
    exact h.2 e he

/-- Replacing a frame by a formed one of its place keeps every place. -/
theorem formedCache_replace {c : Cache} {f : Frame} (hf : f.formed) (h : formedCache c) : formedCache (Cache.replace c f) := by
  have place : ∀ g : Frame, let q := if g.space = f.space && g.base = f.base && g.way = f.way then f else g
      q.space = g.space ∧ q.base = g.base ∧ q.way = g.way := by
    intro g
    dsimp only
    split
    · rename_i e
      simp only [Bool.and_eq_true, decide_eq_true_eq] at e
      exact ⟨e.1.1.symm, e.1.2.symm, e.2.symm⟩
    · exact ⟨rfl, rfl, rfl⟩
  refine ⟨List.pairwise_map.2 (h.1.imp fun {a b} hab => ?_), fun g hg => ?_⟩
  · obtain ⟨as, ab, aw⟩ := place a
    obtain ⟨bs, bb, bw⟩ := place b
    rwa [as, ab, aw, bs, bb, bw]
  · obtain ⟨e, he, rfl⟩ := List.mem_map.1 hg
    split
    · exact hf
    · exact h.2 e he

/-- A frame of empty slots at a block's base is formed. -/
theorem Frame.formed_fresh (space : BitVec 16) (n way : Nat) (t : TClass) : Frame.formed
    { space := space, base := n * t.block, tclass := t, way := way, colValid := 0, rows := List.replicate t.rows Row.empty } :=
  ⟨List.length_replicate, t.block_mod n⟩

theorem TClass.rows_pos (t : TClass) : 0 < t.rows := by cases t <;> decide

/-- A frame stands in the sets of its own base. -/
theorem setsMeet_self {f : Frame} (sets n : Nat) (hn : 0 < n) : setsMeet sets f f.base n = true := by
  have := f.tclass.rows_pos
  simp only [setsMeet, Bool.and_eq_true, decide_eq_true_eq]
  omega

/-- A claim drops whatever stood in the new frame's place, so that the place is free for it (03 R44). -/
theorem formedCache_claim {c : Cache} (sets : Nat) (space : BitVec 16) (n : Nat) (t : TClass) (way : Nat)
    (h : formedCache c) : formedCache (Cache.claim c sets space (n * t.block) t way).1 := by
  have stay := formedCache_filter (fun f => !(f.way = way && setsMeet sets f (n * t.block) t.rows)) h
  refine ⟨List.pairwise_cons.2 ⟨fun g hg e => ?_, stay.1⟩, fun g hg => ?_⟩
  · obtain ⟨-, hb, hw⟩ : space = g.space ∧ n * t.block = g.base ∧ way = g.way := by simpa using e
    have := setsMeet_self (f := g) sets t.rows t.rows_pos
    simp [hb, hw, this] at hg
  · rcases List.mem_cons.1 hg with rfl | hg
    · exact Frame.formed_fresh space n way t
    · exact stay.2 g hg

theorem Cache.mem_of_find {c : Cache} {space : BitVec 16} {va : Nat} {f : Frame} (h : Cache.find c space va = some f) :
    f ∈ c :=
  List.mem_of_find?_eq_some h

theorem Frame.formed.setRow {f : Frame} (i : Nat) (r : Row) (h : f.formed) : (f.setRow i r).formed :=
  ⟨(f.setRow_rows_length i r).trans h.1, h.2⟩

theorem Frame.formed.markValid {f : Frame} (va : Nat) (col : Bool) (h : f.formed) : (f.markValid va col).formed := by
  unfold Frame.markValid
  split
  · exact h
  · exact h.setRow _ _

/-! ### Tables by key: what a write or a removal does to the keys -/

theorem mem_keys_aset {α : Type} {l : List (Nat × α)} {i k : Nat} {x : α} (h : k ∈ (aset l i x).map (·.1)) :
    k = i ∨ k ∈ l.map (·.1) := by
  induction l with
  | nil => simpa [aset] using h
  | cons p t ih =>
    obtain ⟨a, v⟩ := p
    unfold aset at h
    split at h
    · simpa using h
    · split at h
      · rename_i e
        subst e
        exact .inr (by simpa using h)
      · rcases List.mem_cons.1 h with h | h
        · exact .inr (h ▸ List.mem_cons_self)
        · exact (ih h).imp_right (List.mem_cons_of_mem _)

/-- A write keeps the keys rising. -/
theorem keysRise_aset {α : Type} {l : List (Nat × α)} (i : Nat) (x : α) (h : (l.map (·.1)).Pairwise (· < ·)) :
    ((aset l i x).map (·.1)).Pairwise (· < ·) := by
  induction l with
  | nil => simp [aset]
  | cons p t ih =>
    obtain ⟨a, v⟩ := p
    obtain ⟨ha, ht⟩ := List.pairwise_cons.1 h
    unfold aset
    split
    · rename_i hi
      refine List.pairwise_cons.2 ⟨fun k hk => ?_, h⟩
      rcases List.mem_cons.1 hk with rfl | hk
      · exact hi
      · exact hi.trans (ha k hk)
    · split
      · rename_i e
        exact List.pairwise_cons.2 ⟨fun k hk => e ▸ ha k hk, ht⟩
      · refine List.pairwise_cons.2 ⟨fun k hk => ?_, ih ht⟩
        rcases mem_keys_aset hk with rfl | hk
        · dsimp only
          omega
        · exact ha k hk

theorem adel_sublist {α : Type} (l : List (Nat × α)) (i : Nat) : (adel l i).Sublist l := by
  induction l with
  | nil => exact .slnil
  | cons p t ih =>
    obtain ⟨a, v⟩ := p
    unfold adel
    split
    · exact ih.cons _
    · exact ih.cons_cons _

theorem aget_map {α β : Type} (f : α → β) (l : List (Nat × α)) (i : Nat) :
    aget (l.map fun p => (p.1, f p.2)) i = (aget l i).map f := by
  induction l with
  | nil => rfl
  | cons p t ih =>
    obtain ⟨a, v⟩ := p
    by_cases e : a = i <;> simp [aget, e, ih]

/-! ### What a step keeps -/

/-- A machine `t` that comes after `s` keeps what every machine has that reset leads to: memories in their canonical form (log
entry 5), one hart in a slot (08 R151), and caches of formed frames in distinct places (03 R44). Each is kept by itself. -/
structure State.Keeps (s t : State) : Prop where
  memories : memoriesCanonical s → memoriesCanonical t
  slots : oneHartPerSlot s → oneHartPerSlot t
  caches : cachesFormed s → cachesFormed t

/-- So does a machine that an operation names when it can go on. -/
def State.KeepsSome (s : State) (r : Option State) : Prop := ∀ t, r = some t → s.Keeps t

/-- So does every machine that an outcome names. -/
def State.KeepsOut (s : State) (r : Out) : Prop := ∀ t, r = .next t → s.Keeps t

namespace State.Keeps

variable {o s t : State}

theorem refl (s : State) : s.Keeps s := ⟨id, id, id⟩

theorem trans (a : o.Keeps s) (b : s.Keeps t) : o.Keeps t :=
  ⟨b.memories ∘ a.memories, b.slots ∘ a.slots, b.caches ∘ a.caches⟩

/-- What is kept speaks of device memory, harts, cores and clusters alone. -/
theorem same (h : o.Keeps s) (hm : t.mem = s.mem := by rfl) (hh : t.harts = s.harts := by rfl)
    (hc : t.cores = s.cores := by rfl) (hk : t.clusters = s.clusters := by rfl) : o.Keeps t := by
  refine h.trans ⟨fun ⟨m, p⟩ => ⟨hm ▸ m, fun k => ?_⟩, fun p => ?_, fun ⟨p, q⟩ => ⟨fun k => ?_, fun k => ?_⟩⟩
  · exact (congrArg (fun l => ((aget l k).getD Core.reset).sp.wf) hc).trans (p k)
  · exact (congrArg (fun l => (l.map (·.1)).Pairwise (· < ·)) hh).mpr p
  · exact (congrArg (fun l => formedCache ((aget l k).getD Core.reset).l1) hc).mpr (p k)
  · exact (congrArg (fun l => formedCache ((aget l k).getD Cluster.reset).l2) hk).mpr (q k)

theorem ofHomeOnly {t : State} (h : o.Keeps s) (e : s.homeOnly t) : o.Keeps t := by
  obtain ⟨l, n, rfl⟩ := e
  exact h.same

/-- Device memory is replaced by one in canonical form. -/
theorem withMem (h : o.Keeps s) (hm : s.mem.wf = true → t.mem.wf = true) (hh : t.harts = s.harts := by rfl)
    (hc : t.cores = s.cores := by rfl) (hk : t.clusters = s.clusters := by rfl) : o.Keeps t := by
  have u : o.Keeps { t with mem := s.mem } := h.same rfl hh hc hk
  exact ⟨fun m => ⟨hm (u.memories m).1, (u.memories m).2⟩, u.slots, u.caches⟩

/-- The harts are replaced by some whose slots rise when those before do. -/
theorem withHarts (h : o.Keeps s)
    (hh : (s.harts.map (·.1)).Pairwise (· < ·) → (t.harts.map (·.1)).Pairwise (· < ·)) (hm : t.mem = s.mem := by rfl)
    (hc : t.cores = s.cores := by rfl) (hk : t.clusters = s.clusters := by rfl) : o.Keeps t := by
  have u : o.Keeps { t with harts := s.harts } := h.same hm rfl hc hk
  exact ⟨u.memories, fun p => hh (u.slots p), u.caches⟩

theorem setHart (h : o.Keeps s) {k : Nat} {x : Hart} : o.Keeps (s.setHart k x) := h.withHarts (keysRise_aset k x)

theorem setMe (h : o.Keeps s) {x : Hart} : o.Keeps (s.setMe x) := h.setHart

/-- A core is replaced by one whose scratchpad and L1 have their forms when the first machine has them. -/
theorem setCoreOf (h : o.Keeps s) {k : Nat} {c : Core} (hp : memoriesCanonical o → c.sp.wf = true)
    (hl : cachesFormed o → formedCache c.l1) : o.Keeps (s.setCore k c) where
  memories m := by
    refine ⟨(h.memories m).1, fun j => ?_⟩
    rw [State.core_setCore]
    split
    · exact hp m
    · exact (h.memories m).2 j
  slots := h.slots
  caches p := by
    refine ⟨fun j => ?_, (h.caches p).2⟩
    rw [State.core_setCore]
    split
    · exact hl p
    · exact (h.caches p).1 j

/-- The L1 of a core changes. -/
theorem setL1 (h : o.Keeps s) {k : Nat} {c : Core} (hl : formedCache (s.core k).l1 → formedCache c.l1)
    (hp : c.sp = (s.core k).sp := by rfl) : o.Keeps (s.setCore k c) :=
  h.setCoreOf (fun m => hp ▸ (h.memories m).2 k) (fun p => hl ((h.caches p).1 k))

/-- The scratchpad of a core changes. -/
theorem setSp (h : o.Keeps s) {k : Nat} {c : Core} (hp : (s.core k).sp.wf = true → c.sp.wf = true)
    (hl : c.l1 = (s.core k).l1 := by rfl) : o.Keeps (s.setCore k c) :=
  h.setCoreOf (fun m => hp ((h.memories m).2 k)) (fun p => hl ▸ (h.caches p).1 k)

/-- A core is replaced by one with the same scratchpad and L1. -/
theorem setCore (h : o.Keeps s) {k : Nat} {c : Core} (hp : c.sp = (s.core k).sp := by rfl)
    (hl : c.l1 = (s.core k).l1 := by rfl) : o.Keeps (s.setCore k c) := h.setSp (fun w => hp ▸ w) hl

/-- A cluster is replaced by one whose L2 has its form when the first machine has its own. -/
theorem setClusterOf (h : o.Keeps s) {k : Nat} {c : Cluster} (hl : cachesFormed o → formedCache c.l2) :
    o.Keeps (s.setCluster k c) where
  memories := h.memories
  slots := h.slots
  caches p := by
    refine ⟨(h.caches p).1, fun j => ?_⟩
    rw [State.cluster_setCluster]
    split
    · exact hl p
    · exact (h.caches p).2 j

/-- The L2 of a cluster changes. -/
theorem setL2 (h : o.Keeps s) {k : Nat} {c : Cluster} (hl : formedCache (s.cluster k).l2 → formedCache c.l2) :
    o.Keeps (s.setCluster k c) := h.setClusterOf fun p => hl ((h.caches p).2 k)

theorem setCluster (h : o.Keeps s) {k : Nat} {c : Cluster} (hl : c.l2 = (s.cluster k).l2 := by rfl) :
    o.Keeps (s.setCluster k c) := h.setL2 (fun w => hl ▸ w)

theorem setDie (h : o.Keeps s) {k : Nat} {d : Die} : o.Keeps (s.setDie k d) := h.same

theorem setQueue (h : o.Keeps s) {k : Nat} {q : Queue} : o.Keeps (s.setQueue k q) := h.same

theorem setRegion (h : o.Keeps s) {r : Region} : o.Keeps (s.setRegion r) := h.same

theorem choose (h : o.Keeps s) {n : Nat} : o.Keeps (s.choose n).2 := h.same

theorem logEvent (h : o.Keeps s) {k d x : Nat} : o.Keeps (s.logEvent k d x) := h.same

theorem writePA (h : o.Keeps s) {pa : Nat} {b : List Byte} : o.Keeps (s.writePA pa b) := h.withMem (Memory.wf_write pa b)

theorem setPA (h : o.Keeps s) {pa n x : Nat} : o.Keeps (s.setPA pa n x) := h.writePA

/-! #### Folds and outcomes -/

/-- A fold keeps what each of its steps keeps. -/
theorem foldl {α : Type} {f : State → α → State} (h : o.Keeps s) (l : List α)
    (hf : ∀ {s} a, o.Keeps s → o.Keeps (f s a)) : o.Keeps (l.foldl f s) := by
  induction l generalizing s with
  | nil => exact h
  | cons a t ih => exact ih (hf a h)

theorem at_ok {α : Type} {r : Res α} {a : α} (h : o.Keeps r.state) (e : r = .ok a t) : o.Keeps t := by
  subst e
  exact h

theorem at_stop {α : Type} {r : Res α} {e : Stop} (h : o.Keeps r.state) (he : r = .stop e t) : o.Keeps t := by
  subst he
  exact h

/-- A sequence keeps what both of its parts keep. -/
theorem bind {α β : Type} {r : Res α} {f : α → State → Res β} (h : o.Keeps r.state)
    (hf : ∀ {s} a, o.Keeps s → o.Keeps (f a s).state) : o.Keeps (r.bind f).state := by
  cases r with
  | ok a s => exact hf a h
  | stop e s => exact h

/-- A choice between two machines. -/
theorem ite {c : Prop} [Decidable c] (hs : o.Keeps s) (ht : o.Keeps t) : o.Keeps (if c then s else t) := by
  split
  · exact hs
  · exact ht

/-- A choice between two results. -/
theorem iteRes {α : Type} {c : Prop} [Decidable c] {a b : Res α} (ha : o.Keeps a.state) (hb : o.Keeps b.state) :
    o.Keeps (if c then a else b).state := by
  split
  · exact ha
  · exact hb

/-- A choice between two answers. -/
theorem itePair {α : Type} {c : Prop} [Decidable c] {a b : α × State} (ha : o.Keeps a.2) (hb : o.Keeps b.2) :
    o.Keeps (if c then a else b).2 := by
  split
  · exact ha
  · exact hb

/-- A result that is there is kept with its machine. -/
theorem ok (h : o.Keeps s) {α : Type} {a : α} : o.Keeps (Res.ok a s).state := h

/-- Whose turn it is, is not among what is kept. -/
theorem withCur (h : o.Keeps s) {k : Nat} : o.Keeps { s with cur := k } := h.same

/-- An operation that may not be able to go on, with what it leaves then. -/
theorem getD {r : Option State} (h : o.KeepsSome r) (ht : o.Keeps t) : o.Keeps (r.getD t) := by
  cases r with
  | none => exact ht
  | some s => exact h s rfl

theorem next (h : o.Keeps s) : o.KeepsOut (.next s) := fun _ e => by
  cases e
  exact h

end State.Keeps

namespace State.KeepsOut

variable {o s : State}

theorem fault (o : State) (r : Fault) : o.KeepsOut (.fault r) := fun _ e => nomatch e

theorem withHart {k : Hart → Out} (hk : ∀ h, o.KeepsOut (k h)) : o.KeepsOut (withHart s k) := by
  unfold Machine.withHart
  split
  · exact hk _
  · exact .fault _ _

theorem ite {c : Prop} [Decidable c] {a b : Out} (ha : o.KeepsOut a) (hb : o.KeepsOut b) :
    o.KeepsOut (if c then a else b) := by
  split
  · exact ha
  · exact hb

end State.KeepsOut

namespace State.Keeps

variable {o s t : State}

/-! ### Queues and the control window (26 R374 to R377) -/

theorem post (h : o.Keeps s) {q : Nat} {e : BitVec 128} : o.Keeps (s.post q e) := by
  unfold State.post
  dsimp only
  split <;> exact h.withMem (Memory.wf_write _ _)

theorem postOrHold (h : o.Keeps s) {q : Nat} {e : BitVec 128} : o.Keeps (s.postOrHold q e) := by
  unfold State.postOrHold
  exact .ite h.post h.setQueue

theorem postHeldFuel {q : Nat} : ∀ (n : Nat) {s : State}, o.Keeps s → o.Keeps (State.postHeldFuel q n s)
  | 0, _, h => h
  | n + 1, s, h => by
    unfold State.postHeldFuel
    dsimp only
    split
    · exact h
    · split
      · exact postHeldFuel n h.setQueue.post
      · exact h

theorem postHeld (h : o.Keeps s) {q : Nat} : o.Keeps (s.postHeld q) := postHeldFuel _ h

theorem writeTail (h : o.Keeps s) {q : Nat} {x : BitVec 32} : o.Keeps (s.writeTail q x) := by
  unfold State.writeTail
  exact .ite h.setQueue h

theorem writeHead (h : o.Keeps s) {q : Nat} {x : BitVec 32} : o.Keeps (s.writeHead q x) := by
  unfold State.writeHead
  exact .ite h.setQueue.postHeld h

theorem clearErr (h : o.Keeps s) {q : Nat} : o.Keeps (s.clearErr q) := by
  unfold State.clearErr
  exact .ite h.setQueue h

theorem writeEn (h : o.Keeps s) {q : Nat} {en : Bool} : o.Keeps (s.writeEn q en) := by
  unfold State.writeEn
  exact .ite h.setQueue.postHeld h

theorem writeConfig (h : o.Keeps s) {q w : Nat} : o.Keeps (s.writeConfig q w) := h.setQueue

theorem ringBoot (h : o.Keeps s) {n : Nat} : o.Keeps (s.ringBoot n) := by
  unfold State.ringBoot
  exact .ite h.same h

theorem ctlWrite (h : o.Keeps s) {a w : Nat} : o.Keeps (s.ctlWrite a w) := by
  unfold State.ctlWrite
  refine .ite h.ringBoot (.ite (.ite ?_ (.ite ?_ (.ite ?_ h))) (.ite h.same (.ite h.same h)))
  · exact .ite (.ite h.writeConfig.clearErr h.writeConfig) (.writeEn (.ite h.writeConfig.clearErr h.writeConfig))
  · exact .ite h.writeTail h.writeHead
  · exact .ite h h.setQueue

theorem ctlWriteMasked (h : o.Keeps s) {a mask x : Nat} : o.Keeps (s.ctlWriteMasked a mask x) := by
  unfold State.ctlWriteMasked
  exact .ite (.ite h.ctlWrite (.ite (.ite h h.ctlWrite) h.ctlWrite)) h.ctlWrite

theorem ctlWriteWords (h : o.Keeps s) {a mask x n : Nat} : o.Keeps (s.ctlWriteWords a mask x n) :=
  h.foldl _ fun _ h => .ite h h.ctlWriteMasked

theorem ctlWriteRun (h : o.Keeps s) {a n x : Nat} : o.Keeps (s.ctlWriteRun a n x) := h.ctlWriteWords

theorem targetWrite (h : o.Keeps s) {pa n x : Nat} : o.Keeps (s.targetWrite pa n x) := by
  unfold State.targetWrite
  exact .ite h.ctlWriteRun h.writePA

/-! ### Translation, names and the home slices (04 R74, R91; 03 R57) -/

theorem keepWalk (h : o.Keeps s) {die : Nat} {l : Leaf} {es : List WalkEntry} : o.Keeps (s.keepWalk die l es) := h.setDie

theorem translate (h : o.Keeps s) {die : Nat} {space : BitVec 16} {va : Nat} {k : WalkKind} {fresh : Bool} :
    o.Keeps (s.translate die space va k fresh).2 := by
  unfold State.translate
  split
  · exact h
  · dsimp only
    split
    · exact h.keepWalk
    · exact h

theorem dropHome (h : o.Keeps s) {pa n : Nat} : o.Keeps (s.dropHome pa n) := h.same

theorem registerName (h : o.Keeps s) {l : Leaf} : o.Keeps (s.registerName l) := h.dropHome.setDie

theorem touchHome (h : o.Keeps s) {pa mask : Nat} : o.Keeps (s.touchHome pa mask) := h.ofHomeOnly (s.touchHome_only _ _)

theorem touchHomeOf (h : o.Keeps s) {p : BitVec 2 × TClass} {pa mask : Nat} : o.Keeps (s.touchHomeOf p pa mask) :=
  h.ofHomeOnly (s.touchHomeOf_only _ _ _)

theorem readHome (h : o.Keeps s) {l : Leaf} {cell : Nat} {col : Bool} : o.Keeps (s.readHome l cell col) :=
  h.ofHomeOnly (s.readHome_only _ _ _)

theorem loseFor (h : o.Keeps s) {blks : List Nat} : o.Keeps (s.loseFor blks) := h.same

theorem mergeHome (h : o.Keeps s) {pa : Nat} {w : WriteBack} {l : Option Leaf} : o.Keeps (s.mergeHome pa w l) := by
  unfold State.mergeHome
  dsimp only
  split
  · exact h.ctlWriteWords
  · have m : o.Keeps { s with mem := s.mem.writeMasked pa w.dirty.toNat (toBytes 128 w.data.toNat) } :=
      h.withMem (Memory.wf_writeMasked _ _ _)
    split
    · exact touchHomeOf m.same
    · exact touchHome m.same

theorem writeBackHome (h : o.Keeps s) {k : Nat} {w : WriteBack} : o.Keeps (s.writeBackHome k w) := by
  unfold State.writeBackHome
  dsimp only
  split
  · exact h
  · exact .ite h.loseFor h.mergeHome

/-! ### The L2 (03 R44, R47, R48) -/

theorem drainL2 (h : o.Keeps s) {k : Nat} : o.Keeps (s.drainL2 k) := h.setCluster.foldl _ fun _ h => h.writeBackHome

theorem chooseWay (h : o.Keeps s) {c : Cache} {sets base n : Nat} : o.Keeps (Cache.chooseWay c sets base n s).2 := by
  unfold Cache.chooseWay
  split
  · exact h
  · exact h.choose

theorem l2Frame (h : o.Keeps s) {k : Nat} {space : BitVec 16} {va : Nat} {t : TClass} :
    o.Keeps (s.l2Frame k space va t).2 := by
  unfold State.l2Frame
  dsimp only
  split
  · exact h
  · exact h.chooseWay.setClusterOf fun p => formedCache_claim _ _ _ _ _ ((h.caches p).2 k)

/-- The frame of an address in a formed L2 is formed. -/
theorem l2Frame_formed (h : o.Keeps s) (p : cachesFormed o) {k : Nat} {space : BitVec 16} {va : Nat} {t : TClass} :
    (s.l2Frame k space va t).1.formed := by
  unfold State.l2Frame
  dsimp only
  split
  · rename_i f e
    exact ((h.caches p).2 k).2 f (Cache.mem_of_find e)
  · exact Frame.formed_fresh _ _ _ _

theorem putL2 (h : o.Keeps s) {k : Nat} {f : Frame} (hf : cachesFormed o → f.formed) : o.Keeps (s.putL2 k f) :=
  h.setClusterOf fun p => formedCache_replace (hf p) ((h.caches p).2 k)

theorem writeBackL2 (h : o.Keeps s) {k : Nat} {w : WriteBack} : o.Keeps (s.writeBackL2 k w) :=
  h.l2Frame.putL2 fun p => (h.l2Frame_formed p).setRow _ _

theorem drainL1 (h : o.Keeps s) {core : Nat} : o.Keeps (s.drainL1 core) := h.setCore.foldl _ fun _ h => h.writeBackL2

/-! ### Writes in flight (03 R50, R52) -/

theorem performSent (h : o.Keeps s) {w : SentWrite} : o.Keeps (s.performSent w) := by
  unfold State.performSent
  have p : o.Keeps (if inCtl w.pa then s.ctlWriteRun (w.pa - ctlBase) w.bytes.length (ofBytes w.bytes)
      else s.writePA w.pa w.bytes) := .ite h.ctlWriteRun h.writePA
  refine .ite h.loseFor ?_
  dsimp only
  split
  · exact touchHomeOf (.ite p.same p)
  · exact .ite p.same p

theorem ackBypass (h : o.Keeps s) {core : Nat} : o.Keeps (s.ackBypass core) := by
  unfold State.ackBypass
  exact .ite h (h.setCore.foldl _ fun _ h => h.performSent)

theorem ackCluster (h : o.Keeps s) {k : Nat} : o.Keeps (s.ackCluster k) := h.foldl _ fun _ h => h.ackBypass

theorem ackTarget (h : o.Keeps s) {core : Nat} : o.Keeps (s.ackTarget core) := by
  unfold State.ackTarget
  exact .ite h (h.setCore.foldl _ fun _ h => h.performSent)

/-! ### The L1 (03 R44, R45) -/

theorem l1Frame (h : o.Keeps s) {k : Nat} {space : BitVec 16} {va : Nat} {t : TClass} :
    o.Keeps (s.l1Frame k space va t).2 := by
  unfold State.l1Frame
  dsimp only
  split
  · exact h
  · exact h.chooseWay.setCoreOf (fun m => (h.memories m).2 k) fun p => formedCache_claim _ _ _ _ _ ((h.caches p).1 k)

/-- The frame of an address in a formed L1 is formed. -/
theorem l1Frame_formed (h : o.Keeps s) (p : cachesFormed o) {k : Nat} {space : BitVec 16} {va : Nat} {t : TClass} :
    (s.l1Frame k space va t).1.formed := by
  unfold State.l1Frame
  dsimp only
  split
  · rename_i f e
    exact ((h.caches p).1 k).2 f (Cache.mem_of_find e)
  · exact Frame.formed_fresh _ _ _ _

theorem putL1 (h : o.Keeps s) {k : Nat} {f : Frame} (hf : cachesFormed o → f.formed) : o.Keeps (s.putL1 k f) :=
  h.setCoreOf (fun m => (h.memories m).2 k) fun p => formedCache_replace (hf p) ((h.caches p).1 k)

theorem dropMeta (h : o.Keeps s) {core : Nat} {space : BitVec 16} {va : Nat} : o.Keeps (s.dropMeta core space va) := h.setCore

theorem writeL1 (h : o.Keeps s) {core : Nat} {space : BitVec 16} {va : Nat} {t : TClass} {mask data poison blk : Nat} :
    o.Keeps (s.writeL1 core space va t mask data poison blk) :=
  (h.l1Frame.putL1 fun p => (h.l1Frame_formed p).setRow _ _).dropMeta

theorem writeL1Run (h : o.Keeps s) {core : Nat} {space : BitVec 16} {va : Nat} {t : TClass} {n x : Nat} {poison : Bool}
    {blk : Nat} : o.Keeps (s.writeL1Run core space va t n x poison blk) := h.writeL1

theorem writeL2Run (h : o.Keeps s) {core : Nat} {space : BitVec 16} {va : Nat} {t : TClass} {n x : Nat} {poison : Bool}
    {blk : Nat} : o.Keeps (s.writeL2Run core space va t n x poison blk) := h.writeBackL2.dropMeta

/-! ### The store buffer's drain, and what a hold or a recall meets (05 R97 to R99; 04 R92, R94) -/

theorem confirmPage (h : o.Keeps s) {core : Nat} {space : BitVec 16} {va : Nat} : o.Keeps (s.confirmPage core space va) :=
  h.setCore

theorem unconfirm (h : o.Keeps s) {core : Nat} {space : BitVec 16} {va : Nat} : o.Keeps (s.unconfirm core space va) := by
  unfold State.unconfirm
  exact .ite h.setCore h

theorem drainEntry (h : o.Keeps s) {core : Nat} {e : SbEntry} : o.Keeps (s.drainEntry core e) :=
  (h.ackBypass.foldl _ fun _ h => h.writeL1).setCore.confirmPage

theorem drainGroup (h : o.Keeps s) {core : Nat} {e : SbEntry} : o.Keeps (s.drainGroup core e) :=
  h.foldl _ fun _ h => h.drainEntry

theorem drainRange {core : Nat} {space : BitVec 16} {base n : Nat} : ∀ (fuel : Nat) {s : State}, o.Keeps s →
    o.Keeps (State.drainRange core space base n fuel s)
  | 0, _, h => h
  | fuel + 1, s, h => by
    unfold State.drainRange
    dsimp only
    split
    · exact drainRange fuel h.drainGroup
    · exact h

theorem settlePaused (h : o.Keeps s) {core : Nat} {space : BitVec 16} {base n slot : Nat} :
    o.Keeps (State.settlePaused core space base n s slot) := by
  unfold State.settlePaused
  dsimp only
  split
  · exact h
  · split
    · exact h
    · exact .ite h (.ite h.setHart h.setHart)

theorem settleStores (h : o.Keeps s) {core : Nat} {space : BitVec 16} {base n : Nat} :
    o.Keeps (s.settleStores core space base n) :=
  ((drainRange _ h).foldl _ fun _ h => h.settlePaused).setCore

theorem flushL1Range (h : o.Keeps s) {core : Nat} {space : BitVec 16} {base n : Nat} :
    o.Keeps (s.flushL1Range core space base n) := (h.setL1 (formedCache_filter _)).drainL1

theorem flushL2Range (h : o.Keeps s) {k : Nat} {space : BitVec 16} {base n : Nat} :
    o.Keeps (s.flushL2Range k space base n) := (h.setL2 (formedCache_filter _)).drainL2

theorem flushRange (h : o.Keeps s) {space : BitVec 16} {base n : Nat} : o.Keeps (s.flushRange space base n) :=
  (h.foldl _ fun _ h => h.flushL1Range).foldl _ fun _ h => h.flushL2Range

theorem recallName (h : o.Keeps s) {die : Nat} {n : NameRec} : o.Keeps (s.recallName die n) :=
  ((h.foldl _ fun _ h => h.settleStores).foldl _ fun _ h => h.setCore).flushRange.dropHome.setDie

theorem makeRoom (h : o.Keeps s) {pa : Nat} : o.Keeps (s.makeRoom pa) := by
  unfold State.makeRoom
  refine .ite h ?_
  dsimp only
  split
  · exact h.choose.recallName
  · exact h.choose

theorem name {l : Leaf} (h : o.Keeps s) (e : s.name l = some t) : o.Keeps t := by
  unfold State.name at e
  split at e
  · cases e
  · split at e
    · cases e
      exact h
    · cases e
      exact h.makeRoom.registerName

/-! ### Host fault entries (05 R112) -/

theorem hostFault {core slot : Nat} {space : BitVec 16} {va wres level kind : Nat} {requester : Bool} {r : Nat × State}
    (h : o.Keeps s) (e : s.hostFault core slot space va wres level kind requester = some r) : o.Keeps r.2 := by
  unfold State.hostFault at e
  dsimp only at e
  split at e
  · split at e <;> cases e
    · exact h.setDie
    · exact h
  · split at e <;> cases e
    exact h.setDie

theorem absentFault {α : Type} (h : o.Keeps s) {a : Acc} {wres level : Nat} :
    o.Keeps (Machine.absentFault (α := α) a wres level s).state := by
  unfold Machine.absentFault
  split
  · exact h
  · rename_i e
    exact h.hostFault e

theorem nameFault {α : Type} (h : o.Keeps s) {a : Acc} : o.Keeps (Machine.nameFault (α := α) a s).state := by
  unfold Machine.nameFault
  split
  · exact h
  · rename_i e
    exact h.hostFault e

/-! ### Fills (03 R45, R46; 06 R129) -/

theorem reach (h : o.Keeps s) {a : Acc} {k : WalkKind} : o.Keeps (Machine.reach a k s).state := by
  unfold Machine.reach
  have w : o.Keeps (s.translate (dieOf a.core) a.space a.va k false).2 := h.translate
  split
  · exact h
  · split
    all_goals rename_i e
    all_goals rw [e] at w
    · split
      · exact h
      · exact w
    · split
      · exact h
      · exact w.absentFault
    · exact w.absentFault

theorem reachNamed (h : o.Keeps s) {a : Acc} {k : WalkKind} : o.Keeps (Machine.reachNamed a k s).state := by
  refine h.reach.bind fun l h => ?_
  split
  · exact h.nameFault
  · rename_i e
    exact h.name e

end State.Keeps

/-- Filling runs of a line into a frame keeps the frame's form. -/
theorem Frame.formed.foldl {f : Frame} {α : Type} (h : f.formed) (l : List α) {g : Frame → α → Frame}
    (hg : ∀ {f} a, f.formed → (g f a).formed) : (l.foldl g f).formed := by
  induction l generalizing f with
  | nil => exact h
  | cons a t ih => exact ih (hg a h)

namespace State.Keeps

variable {o s t : State}

theorem fillL2 (h : o.Keeps s) {a : Acc} {t : TClass} : o.Keeps (Machine.fillL2 a t s).state := by
  unfold Machine.fillL2
  refine h.ackCluster.drainL2.reachNamed.bind fun _ h => ?_
  refine readHome (putL2 h.l2Frame.drainL2 fun p => ?_)
  exact ((h.l2Frame_formed p).foldl _ fun _ f => f.setRow _ _).markValid _ _

theorem needL2 (h : o.Keeps s) {a : Acc} {t : TClass} {runs : List (Nat × Nat)} :
    o.Keeps (Machine.needL2 a t runs s).state := by
  unfold Machine.needL2
  dsimp only
  split
  · split
    · exact h.drainL1
    · exact h.drainL1.fillL2
  · exact h.drainL1.fillL2

theorem fillL1 (h : o.Keeps s) {a : Acc} {t : TClass} : o.Keeps (Machine.fillL1 a t s).state := by
  refine h.ackBypass.needL2.bind fun _ h => ?_
  split
  · exact h
  · exact h.l1Frame.drainL1.putL1 fun p => ((h.l1Frame_formed p).foldl _ fun _ f => f.setRow _ _).markValid _ _

theorem needLine (h : o.Keeps s) {a : Acc} {t : TClass} : o.Keeps (Machine.needLine a t s).state := by
  unfold Machine.needLine
  split
  · split
    · exact h
    · exact h.fillL1
  · exact h.fillL1

theorem needL1 (h : o.Keeps s) {a : Acc} {t : TClass} {n : Nat} : o.Keeps (Machine.needL1 a t n s).state := by
  unfold Machine.needL1
  split
  · split
    · exact h
    · exact h.fillL1
  · exact h.fillL1

theorem readL1 (h : o.Keeps s) {a : Acc} {t : TClass} {n : Nat} : o.Keeps (Machine.readL1 a t n s).state := by
  refine h.needL1.bind fun _ h => ?_
  split <;> exact h

/-! ### Scopes (03 R53 to R55) -/

end State.Keeps

theorem Frame.clean_place (f : Frame) : f.clean.space = f.space ∧ f.clean.base = f.base ∧ f.clean.way = f.way ∧
    f.clean.tclass = f.tclass ∧ f.clean.rows.length = f.rows.length := ⟨rfl, rfl, rfl, rfl, f.clean_rows_length⟩

theorem Frame.dropClean_place (f : Frame) : f.dropClean.space = f.space ∧ f.dropClean.base = f.base ∧
    f.dropClean.way = f.way ∧ f.dropClean.tclass = f.tclass ∧ f.dropClean.rows.length = f.rows.length :=
  ⟨rfl, rfl, rfl, rfl, f.dropClean_rows_length⟩

/-- The frames of a space change their contents, and those that hold nothing any more go. -/
theorem formedCache_mapSpace {c : Cache} {g : Frame → Frame} (space : BitVec 16)
    (hg : ∀ f, (g f).space = f.space ∧ (g f).base = f.base ∧ (g f).way = f.way ∧ (g f).tclass = f.tclass ∧
      (g f).rows.length = f.rows.length) (h : formedCache c) :
    formedCache ((c.map fun f => if f.space = space then g f else f).filter Frame.live) := by
  refine formedCache_filter _ (formedCache_map (fun f => ?_) h)
  split
  · exact hg f
  · exact ⟨rfl, rfl, rfl, rfl, rfl⟩

namespace State.Keeps

variable {o s t : State}

theorem cleanL1 (h : o.Keeps s) {core : Nat} {space : BitVec 16} : o.Keeps (s.cleanL1 core space) :=
  (h.setL1 (formedCache_mapSpace space Frame.clean_place)).drainL1

theorem cleanL2 (h : o.Keeps s) {k : Nat} {space : BitVec 16} : o.Keeps (s.cleanL2 k space) :=
  (h.setL2 (formedCache_mapSpace space Frame.clean_place)).drainL2

theorem releaseSteps (h : o.Keeps s) {core : Nat} {space : BitVec 16} {sc : Scope} :
    o.Keeps (s.releaseSteps core space sc) := by
  cases sc with
  | h | c => exact h.ackBypass.ackTarget
  | k => exact h.ackBypass.ackTarget.cleanL1
  | d | s => exact h.ackBypass.ackTarget.cleanL1.cleanL2

theorem acquireSteps (h : o.Keeps s) {core : Nat} {space : BitVec 16} {sc : Scope} :
    o.Keeps (s.acquireSteps core space sc) := by
  cases sc with
  | h | c => exact h
  | k => exact h.setL1 (formedCache_mapSpace space Frame.dropClean_place)
  | d | s =>
    exact (h.setL1 (formedCache_mapSpace space Frame.dropClean_place)).setL2
      (formedCache_mapSpace space Frame.dropClean_place)

theorem prepL1 (h : o.Keeps s) {core : Nat} {space : BitVec 16} {va : Nat} : o.Keeps (s.prepL1 core space va) := by
  unfold State.prepL1
  dsimp only
  split
  · exact h.drainL1
  · exact (h.setL1 (formedCache_filter _)).drainL1

theorem prepL2 (h : o.Keeps s) {k : Nat} {space : BitVec 16} {va : Nat} : o.Keeps (s.prepL2 k space va) := by
  unfold State.prepL2
  dsimp only
  split
  · exact h.drainL2
  · exact (h.setL2 (formedCache_filter _)).drainL2

theorem fetchL1I (h : o.Keeps s) {a : Acc} {t : TClass} : o.Keeps (Machine.fetchL1I a t s).state := by
  unfold Machine.fetchL1I
  dsimp only
  split
  · exact h
  · refine h.needL2.bind fun _ h => ?_
    split
    · exact h
    · exact h.setCore

theorem readMeta (h : o.Keeps s) {a : Acc} {t : TClass} {n : Nat} : o.Keeps (Machine.readMeta a t n s).state := by
  unfold Machine.readMeta
  split
  · exact h
  · refine h.readL1.bind fun _ h => ?_
    split
    · exact h
    · exact h.setCore

theorem flushAllL1I (h : o.Keeps s) : o.Keeps s.flushAllL1I := h.foldl _ fun _ h => h.setCore

/-! ### The permission filter and probes (04 R85 to R89) -/

theorem fillFilter (h : o.Keeps s) {core : Nat} {e : FilterEntry} {b : List FilterEntry} : o.Keeps (s.fillFilter core e b) := by
  unfold State.fillFilter
  dsimp only
  split
  · exact h.setCore
  · exact h.choose.setCore

theorem confirmedFill {core slot va kind : Nat} {l : Leaf} {b : List FilterEntry} {r : FilterEntry × State} (h : o.Keeps s)
    (e : Machine.confirmedFill core slot va kind l s b = some r) : o.Keeps r.2 := by
  unfold Machine.confirmedFill at e
  dsimp only at e
  split at e
  · split at e
    · rename_i n
      cases e
      exact (h.name n).fillFilter
    · obtain ⟨q, hq, rfl⟩ := Option.map_eq_some_iff.1 e
      exact (h.hostFault hq).fillFilter
  · cases e
    exact h.fillFilter

theorem walkFill (h : o.Keeps s) {a : Acc} {k : WalkKind} {fresh needs : Bool} {b : List FilterEntry} :
    o.Keeps (Machine.walkFill a k fresh needs s b).state := by
  unfold Machine.walkFill
  have w : o.Keeps (s.translate (dieOf a.core) a.space a.va k fresh).2 := h.translate
  split
  · exact h
  · split
    all_goals rename_i e
    all_goals rw [e] at w
    · split
      · exact h
      · split
        · rename_i f
          exact w.confirmedFill f
        · exact h
    · split
      · exact h
      · split
        · exact w.absentFault
        · exact w.fillFilter
    · exact w.absentFault

theorem present (h : o.Keeps s) {a : Acc} {rw' : Rw} {n : Nat} {b : List FilterEntry} :
    o.Keeps (Machine.present a rw' n s b).state := by
  unfold Machine.present
  refine bind ?_ fun e h => ?_
  · split
    · exact h
    · exact h.walkFill
  · split
    · exact h.walkFill
    · exact h

theorem checkReq (h : o.Keeps s) {r : Req} {g : Hart} {q : Bool} {b : List FilterEntry} :
    o.Keeps (Machine.checkReq r g q s b).state := by
  unfold Machine.checkReq
  dsimp only
  split
  · exact h
  · refine h.present.bind fun e h => ?_
    split <;> exact h

theorem probe (h : o.Keeps s) {core : Nat} {space : BitVec 16} {va : Nat} {user : Bool} :
    o.Keeps (s.probe core space va user).2 := by
  unfold State.probe
  have w : o.Keeps (s.translate (dieOf core) space va (.probe user) true).2 := h.translate
  split
  all_goals rename_i e
  all_goals rw [e] at w
  · split
    · exact h
    · split
      · rename_i n
        exact w.name n
      · exact w
  · split
    · exact h
    · exact w
  · exact w

theorem acknowledge (h : o.Keeps s) {core : Nat} {l : Leaf} : o.Keeps (s.acknowledge core l) := h.fillFilter

theorem confirm (h : o.Keeps s) {a : Acc} {e : FilterEntry} : o.Keeps (Machine.confirm a e s).state := by
  unfold Machine.confirm
  have w : o.Keeps (s.probe a.core a.space a.va a.user).2 := h.probe
  split
  · exact h
  · split
    · exact h
    · split
      all_goals rename_i e
      all_goals rw [e] at w
      · exact w.acknowledge
      · exact w.absentFault
      · exact w.nameFault
      · exact w

/-! ### Reading, writing and updating a run of bytes -/

theorem readBelow (h : o.Keeps s) {a : Acc} {e : FilterEntry} {cell n : Nat} {bypass : Bool} :
    o.Keeps (Machine.readBelow a e cell n bypass s).state := by
  unfold Machine.readBelow
  dsimp only
  split
  · exact h.ackTarget.reach.bind fun _ h => h
  · split
    · split
      · exact h.ackBypass.drainL1
      · exact h.ackBypass.drainL1.drainL2.reach.bind fun _ h => h.readHome
    · exact h.readL1

theorem readRaw (h : o.Keeps s) {a : Acc} {e : FilterEntry} {cell n : Nat} {bypass : Bool} :
    o.Keeps (Machine.readRaw a e cell n bypass s).state := by
  unfold Machine.readRaw
  dsimp only
  split
  · exact h
  · exact h.readBelow.bind fun _ h => h

theorem readCell (h : o.Keeps s) {a : Acc} {e : FilterEntry} {cell n : Nat} {bypass : Bool} :
    o.Keeps (Machine.readCell a e cell n bypass s).state := by
  refine h.readRaw.bind fun _ h => ?_
  split <;> exact h

theorem writeConfirmed (h : o.Keeps s) {a : Acc} {e : FilterEntry} {cell n x nth : Nat} {bypass : Bool} :
    o.Keeps (Machine.writeConfirmed a e cell n x nth bypass s).state := by
  unfold Machine.writeConfirmed
  dsimp only
  split
  · split
    · exact h.drainL1.ackBypass.writeL1Run
    · split
      · exact h.drainL1.ackBypass.writeL2Run
      · exact h.drainL1.drainL2.reachNamed.bind fun _ h => h.setCore.dropMeta
  · exact h.ackBypass.writeL1Run

theorem writeTarget (h : o.Keeps s) {a : Acc} {e : FilterEntry} {cell n x nth : Nat} :
    o.Keeps (Machine.writeTarget a e cell n x nth s).state := by
  refine h.confirm.bind fun _ h => h.ackTarget.reach.bind fun l h => ?_
  split
  · exact h.targetWrite
  · exact h.setCore

end State.Keeps

/-- The store buffer takes bytes beside the core's caches and scratchpad (05 R97). -/
theorem Core.buffer_only {c q : Core} {a : Acc} {seq nth cell n x last : Nat} {pc : Word} {p : FilterEntry} {ord : Bool}
    (h : c.buffer a seq nth pc cell n x last p ord = some q) : q.sp = c.sp ∧ q.l1 = c.l1 := by
  unfold Core.buffer at h
  dsimp only at h
  split at h
  · cases h
    exact ⟨rfl, rfl⟩
  · split at h
    · cases h
    · split at h <;> cases h
      exact ⟨rfl, rfl⟩

/-- What an atomic does at the home slice or the target of its page (03 R55): a part of `performAtomic`. -/
def atomicAtHome (walk : WalkKind) (a : Acc) (e : FilterEntry) (cell n : Nat) (f : Nat → Option Nat) (s : State) : Res Nat :=
  (reachNamed { a with va := cell } walk s).bind fun l s =>
    let pa := l.pa cell
    if (upto n).any (fun i => s.poisonAt (pa + i)) then .stop (.trap (a.fault 0x0F)) s
    else
      let m := s.targetRead pa n
      let s := if e.attr.mc = .normal then s.readHome l cell a.col else s
      match f m with
      | none => .ok m s
      | some x =>
        let s := (s.targetWrite pa n x).dropMeta a.core a.space cell
        .ok m (if e.attr.mc = .normal then s.touchHomeOf l.homeShape pa (runMask (pa % 128) n) else s)

namespace State.Keeps

variable {o s t : State}

theorem writeCell (h : o.Keeps s) {a : Acc} {e : FilterEntry} {cell n x last : Nat} {bypass ord forced : Bool} {g : Hart} :
    o.Keeps (Machine.writeCell a e cell n x last bypass ord forced g s).state := by
  unfold Machine.writeCell
  have w : o.Keeps (if ord then (s.ackBypass a.core).ackTarget a.core else s) := .ite h.ackBypass.ackTarget h
  generalize (if ord then (s.ackBypass a.core).ackTarget a.core else s) = u at w
  dsimp only
  split
  · split
    · exact w
    · exact w.writeTarget
  · split
    · split
      · rename_i b
        exact (w.setCore (Core.buffer_only b).1 (Core.buffer_only b).2).unconfirm
      · exact w
    · exact w.writeConfirmed

theorem atomicAtHome (h : o.Keeps s) {k : WalkKind} {a : Acc} {e : FilterEntry} {cell n : Nat} {f : Nat → Option Nat} :
    o.Keeps (Machine.atomicAtHome k a e cell n f s).state := by
  unfold Machine.atomicAtHome
  refine h.reachNamed.bind fun {s} l h => ?_
  dsimp only
  split
  · exact h
  · have r : o.Keeps (if e.attr.mc = .normal then s.readHome l cell a.col else s) := .ite h.readHome h
    split
    · exact r
    · exact .ite r.targetWrite.dropMeta.touchHomeOf r.targetWrite.dropMeta

theorem performAtomic (h : o.Keeps s) {k : WalkKind} {a : Acc} {e : FilterEntry} {cell n : Nat} {sc : AScope}
    {f : Nat → Option Nat} : o.Keeps (Machine.performAtomic k a e cell n sc f s).state := by
  unfold Machine.performAtomic
  dsimp only
  split
  · exact h.ackBypass.ackTarget.atomicAtHome
  · cases sc with
    | c =>
      refine (h.ackBypass.needLine.bind fun _ h => h.readL1).bind fun d h => ?_
      split
      · exact h
      · split
        · exact h
        · exact h.writeL1Run
    | k =>
      refine h.ackBypass.prepL1.needL2.bind fun _ h => ?_
      split
      · exact h
      · split
        · exact h
        · split
          · exact h
          · exact h.writeL2Run
    | d | s => exact h.ackBypass.prepL1.prepL2.atomicAtHome

theorem atomicCell (h : o.Keeps s) {a : Acc} {e : FilterEntry} {cell n : Nat} {sc : AScope} {f : Nat → Option Nat} :
    o.Keeps (Machine.atomicCell a e cell n sc f s).state := by
  unfold Machine.atomicCell
  split
  · exact h
  · exact h.confirm.bind fun _ h => h.performAtomic

theorem release (h : o.Keeps s) {sc : Scope} {g : Hart} : o.Keeps (Machine.release sc g s).state := by
  unfold Machine.release
  split
  · exact h
  · exact h.releaseSteps

theorem fenceAcquire (h : o.Keeps s) {core : Nat} {space : BitVec 16} {sc : Scope} :
    o.Keeps (s.fenceAcquire core space sc) := h.ackBypass.ackTarget.acquireSteps

theorem acquire (h : o.Keeps s) {sc : Scope} {g : Hart} : o.Keeps (Machine.acquire sc g s).state := by
  unfold Machine.acquire
  split
  · exact h
  · exact h.fenceAcquire

/-! ### Traps (10 R186; 05 R102) -/

theorem takeTrapAs (h : o.Keeps s) {t : FRec} {seq : Nat} {pc : Word} : o.Keeps (Machine.takeTrapAs t seq pc s) := by
  unfold Machine.takeTrapAs
  split
  · exact h
  · have w := h.setCore (k := s.myCore) (c := ((s.core s.myCore).settleFollows s.mySlot (Hart.settle ‹_›)).1)
    exact (ite w.setPA w.setPA.logEvent).setMe

theorem takeTrap (h : o.Keeps s) {t : FRec} : o.Keeps (Machine.takeTrap t s) := by
  unfold Machine.takeTrap
  split
  · exact h
  · exact h.takeTrapAs

theorem takeDeferred (h : o.Keeps s) : o.Keeps (Machine.takeDeferred s) := by
  unfold Machine.takeDeferred
  dsimp only
  split
  · split
    · exact h.setCore.setMe.takeTrapAs
    · exact h.setCore.takeTrapAs
  · split
    · exact h.setCore.setMe
    · exact h.setCore

theorem trapOut (h : o.Keeps s) {t : FRec} : o.KeepsOut (Machine.trapOut t s) := h.takeTrap.next

theorem finish {r : Res Unit} (h : o.Keeps r.state) : o.KeepsOut (Machine.finish r) := by
  rcases r with ⟨⟨⟩, s⟩ | ⟨t | _, s⟩
  · exact next h
  · exact trapOut h
  · exact next h

end State.Keeps

/-! ### Shapes of instructions -/

namespace State.KeepsOut

variable {o s : State}

theorem checked (h : o.Keeps s) {c : Option FRec} {k : Out} (hk : o.KeepsOut k) : o.KeepsOut (checked c s k) := by
  cases c with
  | none => exact hk
  | some t => exact h.trapOut

theorem blockedOut (h : o.Keeps s) {f : CmdFailure} {r : Out} (hr : o.KeepsOut r) : o.KeepsOut (blockedOut f s r) := by
  unfold Machine.blockedOut
  exact .ite hr h.trapOut

theorem withRegs (h : o.Keeps s) {reads writes : List Nat} {k : Hart → State → Out} (hk : ∀ g, o.KeepsOut (k g s)) :
    o.KeepsOut (withRegs reads writes s k) := by
  refine .withHart fun g => ?_
  dsimp only
  split
  · split
    · exact .blockedOut h (hk g)
    · split
      · exact h.next
      · exact hk _
  · split
    · exact h.next
    · exact hk _

theorem withVec (h : o.Keeps s) {reads writes : List Nat} {k : Hart → State → Out} (hk : ∀ g, o.KeepsOut (k g s)) :
    o.KeepsOut (withVec reads writes s k) := .withHart fun _ => .withRegs h hk

end State.KeepsOut

namespace State.Keeps

variable {o s t : State}

/-! #### Scalar forms -/

theorem writeX (h : o.Keeps s) {d : XIx} {f : Hart → Word} : o.KeepsOut (writeX d f s) := .withHart fun _ => h.setMe.next

theorem division (h : o.Keeps s) {d a b : XIx} {f : Word → Word → Word} : o.KeepsOut (division d a b f s) :=
  .withHart fun _ => .ite h.setMe.next h.setMe.next

theorem load (h : o.Keeps s) {n : Nat} {ext : Nat → Word} {off : BitVec 8} {c : Orient} {g : GIx} {base d : XIx} :
    o.KeepsOut (load n ext off c g base d s) :=
  .withHart fun _ => finish (h.checkReq.bind fun _ h => h.readCell.bind fun _ h => h.setMe)

theorem store (h : o.Keeps s) {n : Nat} {off : BitVec 8} {c : Orient} {g : GIx} {base d : XIx} :
    o.KeepsOut (store n off c g base d s) :=
  .withHart fun _ => finish (h.checkReq.bind fun _ h => h.writeCell.bind fun _ h => h.setMe)

end State.Keeps

/-- A core that differs from another in its scratchpad, whose form it keeps, and not in its L1. -/
def Core.spOnly (c d : Core) : Prop := (c.sp.wf = true → d.sp.wf = true) ∧ d.l1 = c.l1

theorem Core.spOnly_refl (c : Core) : c.spOnly c := ⟨id, rfl⟩

theorem Core.spOnly_trans {c d e : Core} (a : c.spOnly d) (b : d.spOnly e) : c.spOnly e :=
  ⟨b.1 ∘ a.1, b.2.trans a.2⟩

theorem Core.spWrite_only (c : Core) (g : Grant) (a : Nat) (b : List Byte) : c.spOnly (c.spWrite g a b) :=
  ⟨Memory.wf_write _ b, rfl⟩

theorem Core.foldl_spOnly {α : Type} (f : Core → α → Core) (hf : ∀ (c : Core) a, c.spOnly (f c a)) (l : List α) :
    ∀ c : Core, c.spOnly (l.foldl f c) := by
  induction l with
  | nil => exact Core.spOnly_refl
  | cons a t ih => exact fun c => Core.spOnly_trans (hf c a) (ih _)

namespace State.Keeps

variable {o s t : State}

theorem setSpOnly (h : o.Keeps s) {k : Nat} {c : Core} (hc : (s.core k).spOnly c) : o.Keeps (s.setCore k c) :=
  h.setSp hc.1 hc.2

theorem amoScratch (h : o.Keeps s) {n : Nat} {u : Update} {base : XIx} {g : Hart} :
    o.Keeps (amoScratch n u base g s).state := by
  unfold Machine.amoScratch
  dsimp only
  split
  · exact h
  · split
    · exact h
    · split
      · exact h
      · split
        · split
          · exact h
          · exact h.setSpOnly (Core.spWrite_only _ _ _ _)
        · exact h

theorem amoMemory (h : o.Keeps s) {n : Nat} {sc : AScope} {c : Orient} {g : GIx} {u : Update} {base : XIx} {x : Hart} :
    o.Keeps (amoMemory n sc c g u base x s).state := h.checkReq.bind fun _ h => h.atomicCell.bind fun _ h => h

theorem amo (h : o.Keeps s) {loc : AmoLoc} {w : AmoWidth} {u : Hart → Update} {base d : XIx} :
    o.KeepsOut (amo loc w u base d s) := by
  refine .withHart fun g => finish (bind ?_ fun _ h => h.setMe)
  cases loc with
  | sp => exact h.amoScratch
  | mem sc c g => exact h.amoMemory

theorem execAmofadd (h : o.Keeps s) {loc : AmoLoc} {w : AmoWidth} {base d : XIx} :
    o.KeepsOut (execAmofadd loc w base d s) := by
  unfold Machine.execAmofadd
  dsimp only
  split
  · exact .withHart fun _ => h.trapOut
  · exact h.amo

theorem jumpTo (h : o.Keeps s) {t : Word} {g : Hart} : o.KeepsOut (jumpTo t g s) := .ite h.trapOut h.setMe.next

theorem branch (h : o.Keeps s) {off : BitVec 13} {b a : XIx} {c : Word → Word → Bool} : o.KeepsOut (branch off b a c s) :=
  .withHart fun _ => .ite h.jumpTo h.setMe.next

theorem execJal (h : o.Keeps s) {imm : BitVec 19} {d : XIx} : o.KeepsOut (execJal imm d s) := .withHart fun _ => h.jumpTo

theorem execJalr (h : o.Keeps s) {imm : BitVec 13} {a d : XIx} : o.KeepsOut (execJalr imm a d s) :=
  .withHart fun _ => h.jumpTo

theorem execMfc (h : o.Keeps s) {c : CReg} {d : XIx} : o.KeepsOut (execMfc c d s) :=
  .withHart fun _ => .ite h.trapOut h.setMe.next

theorem execMtc (h : o.Keeps s) {c : CReg} {a : XIx} : o.KeepsOut (execMtc c a s) :=
  .withHart fun _ => .ite h.trapOut h.setMe.next

theorem execMtg (h : o.Keeps s) {hi : Hint} {half : Half} {g : GIx} {b : XIx} : o.KeepsOut (execMtg hi half g b s) :=
  .withHart fun _ => .ite h.trapOut h.setMe.next

theorem execTrap (h : o.Keeps s) : o.KeepsOut (execTrap s) := .withHart fun _ => h.trapOut

theorem execBrk (h : o.Keeps s) : o.KeepsOut (execBrk s) := .withHart fun _ => h.trapOut

theorem execRts (h : o.Keeps s) {hi : Hint} : o.KeepsOut (execRts hi s) := .withHart fun _ => .ite h.trapOut h.setMe.next

/-! #### Vector forms on registers -/

theorem execVsetl (h : o.Keeps s) {hi : Hint} {d a : XIx} {b : VIx} : o.KeepsOut (execVsetl hi d a b s) := by
  refine .withHart fun g => ?_
  split
  · exact h.trapOut
  · exact h.setMe.next

theorem execVtag (h : o.Keeps s) {t : BitVec 8} {d : VIx} : o.KeepsOut (execVtag t d s) := by
  refine .withRegs h fun g => ?_
  split
  · exact h.trapOut
  · exact h.setMe.next

theorem deliverElems (h : o.Keeps s) {d w : Nat} {es : List (Nat × ERes)} {g : Hart} :
    o.KeepsOut (deliverElems d w es g s) := by
  unfold Machine.deliverElems
  split
  · exact h.trapOut
  · exact h.setMe.next

theorem arith (h : o.Keeps s) {i : Instr} {k : ArithTags} {r : RCode} {d : VIx} {srcs : List VIx} {op : ArithOp} :
    o.KeepsOut (arith i k r d srcs op s) := .withVec h fun _ => .checked h h.deliverElems

theorem special (h : o.Keeps s) {i : Instr} {r : RCode} {d a : VIx} {f : Fmt → Fmt → Rnd → Val → ERes} :
    o.KeepsOut (special i r d a f s) := .withVec h fun _ => .checked h h.deliverElems

theorem reduction (h : o.Keeps s) {i : Instr} {k : ArithTags} {r : RCode} {start : Bool} {d : VIx} {srcs : List VIx}
    {f : Hart → State → ERes} {bad : Hart → State → Nat} : o.KeepsOut (reduction i k r start d srcs f bad s) :=
  .withVec h fun _ => .checked h (.ite h.deliverElems h.trapOut)

theorem codes (h : o.Keeps s) {i : Instr} {d : VIx} {srcs : List VIx} {zero : Bool} {tags : Hart → Bool}
    {f : Hart → Nat → Nat} : o.KeepsOut (codes i d srcs zero tags f s) := .withVec h fun _ => .checked h h.deliverElems

theorem bitString (h : o.Keeps s) {i : Instr} {both : Bool} {d a : VIx} {b : XIx} {f : Nat → Nat → Nat → Nat → Nat} :
    o.KeepsOut (bitString i both d a b f s) := .withRegs h fun _ => .checked h h.setMe.next

theorem execVcmp (h : o.Keeps s) {hi : Hint} {c : Cond} {d a b : VIx} : o.KeepsOut (execVcmp hi c d a b s) :=
  .withVec h fun _ => .checked h h.deliverElems

theorem execVsel (h : o.Keeps s) {hi : Hint} {d a b : VIx} : o.KeepsOut (execVsel hi d a b s) :=
  .withVec h fun _ => .checked h h.deliverElems

theorem execVmvx (h : o.Keeps s) {hi : Hint} {d b : XIx} {a : VIx} : o.KeepsOut (execVmvx hi d a b s) := by
  refine .withRegs h fun g => ?_
  split
  · exact h.trapOut
  · exact h.setMe.next

theorem execVmxv (h : o.Keeps s) {hi : Hint} {d : VIx} {a b : XIx} : o.KeepsOut (execVmxv hi d a b s) := by
  refine .withRegs h fun g => ?_
  split
  · exact h.trapOut
  · exact h.setMe.next

theorem logicReduce (h : o.Keeps s) {i : Instr} {d a : VIx} {init : Nat → Nat} {f : Nat → Nat → Nat} :
    o.KeepsOut (logicReduce i d a init f s) := .withVec h fun _ => .checked h h.deliverElems

theorem maskCount (h : o.Keeps s) {i : Instr} {d : XIx} {a : VIx} {f : List Nat → Word} : o.KeepsOut (maskCount i d a f s) :=
  .withVec h fun _ => .checked h h.setMe.next

theorem maskBranch (h : o.Keeps s) {i : Instr} {want : Bool} {off : BitVec 13} {a : VIx} :
    o.KeepsOut (maskBranch i want off a s) := .withVec h fun _ => .checked h (.ite h.jumpTo h.setMe.next)

theorem execVcvt (h : o.Keeps s) {hi : Hint} {r : RCode} {d a : VIx} : o.KeepsOut (execVcvt hi r d a s) :=
  .withVec h fun _ => .checked h h.deliverElems

theorem deliverBlocks (h : o.Keeps s) {d : VIx} {t : Tag} {bs : List Block} {res : Option (VIx × List (Nat × Nat × Nat))}
    {extra : List (Nat × Nat)} {g : Hart} : o.KeepsOut (deliverBlocks d t bs res extra g s) := by
  unfold Machine.deliverBlocks
  dsimp only
  split
  · exact h.trapOut
  · exact h.setMe.next

theorem execVqmx (h : o.Keeps s) {hi : Hint} {r : RCode} {d a : VIx} : o.KeepsOut (execVqmx hi r d a s) :=
  .withVec h fun _ => .checked h h.deliverBlocks

theorem execVdqmx (h : o.Keeps s) {hi : Hint} {r : RCode} {d a : VIx} {k : KIx} {half : Half} :
    o.KeepsOut (execVdqmx hi r d a k half s) := .withVec h fun _ => .checked h h.deliverElems

theorem execVqef (h : o.Keeps s) {hi : Hint} {r : RCode} {d a b : VIx} : o.KeepsOut (execVqef hi r d a b s) :=
  .withVec h fun _ => .checked h h.deliverBlocks

theorem execVunpk (h : o.Keeps s) {hi : Hint} {d a : VIx} {b : XIx} : o.KeepsOut (execVunpk hi d a b s) :=
  .withVec h fun _ => .checked h h.deliverElems

theorem execVpkb (h : o.Keeps s) {hi : Hint} {d a : VIx} {b : XIx} : o.KeepsOut (execVpkb hi d a b s) :=
  .withVec h fun _ => .checked h h.setMe.next

theorem execVlut (h : o.Keeps s) {hi : Hint} {d a b : VIx} : o.KeepsOut (execVlut hi d a b s) :=
  .withHart fun _ => .withVec h fun _ => .checked h h.deliverElems

theorem moveRun (h : o.Keeps s) {i : Instr} {d a : VIx} {f : Nat → Nat → Nat × Nat} : o.KeepsOut (moveRun i d a f s) :=
  .withVec h fun _ => .checked h h.deliverElems

theorem execKmov (h : o.Keeps s) {hi : Hint} {f : KmovForm} : o.KeepsOut (execKmov hi f s) := by
  cases f with
  | kk d a =>
    unfold Machine.execKmov
    exact .withRegs h fun _ => h.setMe.next
  | vk d a m =>
    unfold Machine.execKmov
    exact .withVec h fun _ => .checked h h.deliverElems
  | kv d a m =>
    unfold Machine.execKmov
    exact .withVec h fun _ => .checked h h.setMe.next

/-! #### Vector loads (17 R304 to R308) -/

theorem checkPair (h : o.Keeps s) {r q : Req} {g : Hart} {req : Bool} {b : List FilterEntry} :
    o.Keeps (checkPair r q g req s b).state := by
  unfold Machine.checkPair
  dsimp only
  split
  · exact h
  · refine h.present.bind fun _ h => h.present.bind fun _ h => ?_
    split <;> exact h

theorem checkElem (h : o.Keeps s) {g : Hart} {req : Bool} {rs : List Req} {b : List FilterEntry} :
    o.Keeps (checkElem g req rs s b).state := by
  unfold Machine.checkElem
  split
  · exact h
  · exact h.checkReq.bind fun _ h => h
  · exact h.checkPair

/-- What one element's operation keeps, all of them keep. -/
theorem upToFailure {α β : Type} {f : α → State → Res β} {elem : α → Nat}
    (hf : ∀ {s} a, o.Keeps s → o.Keeps (f a s).state) :
    ∀ (l : List α) {acc : List β} {s : State}, o.Keeps s → o.Keeps (upToFailure f elem l acc s).state
  | [], _, _, h => h
  | p :: t, acc, s, h => by
    unfold Machine.upToFailure
    have w := hf p h
    split
    all_goals rename_i e
    · exact upToFailure hf t (w.at_ok e)
    · exact h
    · exact w.at_stop e

theorem checkBatches {g : Hart} : ∀ (els : List (List Req)) {b : List FilterEntry} {acc : List (List Piece)} {s : State},
    o.Keeps s → o.Keeps (checkBatches g els b acc s).state
  | [], _, _, _, h => h
  | rs :: t, b, acc, s, h => by
    unfold Machine.checkBatches
    have w : o.Keeps (Machine.checkElem g true rs s (s.batchOf b)).state := h.checkElem
    dsimp only
    split
    all_goals rename_i e
    · exact checkBatches t (w.at_ok e)
    · exact h
    · exact w.at_stop e

theorem checkElems (h : o.Keeps s) {g : Hart} {els : List (List Req)} : o.Keeps (checkElems g els s).state :=
  (checkBatches els h).bind fun _ h => h

theorem trapAt (h : o.Keeps s) {e : Nat} {f : FRec} {g : Hart} : o.KeepsOut (trapAt e f g s) := h.setMe.trapOut

theorem stopAt {α : Type} {r : Res α} (h : o.Keeps r.state) {e : Nat} {g : Hart} : o.KeepsOut (stopAt e r g) := by
  rcases r with ⟨a, s⟩ | ⟨f | _, s⟩
  · exact next (setMe h)
  · exact trapAt h
  · exact next (setMe h)

theorem loadPieces {bypass : Bool} : ∀ (ps : List Piece) {acc : List (Nat × Nat × Nat)} {s : State}, o.Keeps s →
    o.Keeps (loadPieces bypass ps acc s).state
  | [], _, _, h => h
  | p :: t, acc, s, h => by
    unfold Machine.loadPieces
    have w : o.Keeps (Machine.readCell p.a p.e p.cell p.n bypass s).state := h.readCell
    split
    all_goals rename_i e
    · exact loadPieces t (w.at_ok e)
    · exact w.at_stop e
    · exact w.at_stop e

theorem endLoad (h : o.Keeps s) {fofl : Bool} {p : Option PendingLoad} {bad : Option (Nat × FRec)} {g : Hart} :
    o.KeepsOut (endLoad fofl p bad g s) := by
  unfold Machine.endLoad
  dsimp only
  split
  · exact h.setMe.next
  · exact .ite h.setMe.next h.trapAt

theorem endLoadAt (h : o.Keeps s) {fofl off : Bool} {p : Option PendingLoad} {e : Nat} {rs : List Req} {g : Hart} :
    o.KeepsOut (endLoadAt fofl off p e rs g s) := by
  unfold Machine.endLoadAt
  have w : ∀ q, o.Keeps (Machine.checkElem g q rs s).state := fun q => h.checkElem
  dsimp only
  split
  · split
    all_goals rename_i e
    · exact ((w false).at_ok e).setMe.next
    · exact ((w false).at_stop e).setMe.next
  · split
    all_goals rename_i e
    · exact ((w true).at_stop e).trapAt
    · exact ((w true).at_stop e).setMe.next
    · exact ((w true).at_ok e).setMe.next

theorem loadElems (h : o.Keeps s) {fofl restart bypass : Bool} {els : List (List Req)} {put : List (Nat × Nat) → PendingLoad}
    {g : Hart} : o.KeepsOut (loadElems fofl restart bypass els put g s) := by
  unfold Machine.loadElems
  have w : o.Keeps (Machine.checkElems g els s).state := h.checkElems
  split
  · exact (w.at_stop ‹_›).trapOut
  · exact (w.at_stop ‹_›).next
  · rename_i c s1 e
    replace w := w.at_ok e
    split
    · exact w.trapOut
    · have r : o.Keeps (Machine.loadPieces bypass c.1 [] s1).state := loadPieces _ w
      split
      · exact (r.at_stop ‹_›).trapOut
      · exact (r.at_stop ‹_›).setMe.next
      · rename_i e
        replace r := r.at_ok e
        dsimp only
        split
        · exact r.endLoadAt
        · exact r.endLoad

/-! #### Loads of the vector forms -/

theorem vload (h : o.Keeps s) {d : VIx} {w : Nat} {fofl unordered bypass : Bool} {els : List (List Req)} {g : Hart} :
    o.KeepsOut (vload d w fofl unordered bypass els g s) := by
  unfold Machine.vload
  exact h.loadElems

theorem loadForm (h : o.Keeps s) {i : Instr} {k : Walk} {fofl unordered : Bool} {off : BitVec 8} {col : Bool} {g : GIx}
    {base : XIx} {d : VIx} : o.KeepsOut (loadForm i k fofl unordered off col g base d s) :=
  .withVec h fun _ => .checked h h.vload

theorem loadWords (h : o.Keeps s) {off : Word} {rs : List Req} {put : List (Nat × Nat) → PendingLoad} {g : Hart} :
    o.KeepsOut (loadWords off rs put g s) := by
  unfold Machine.loadWords
  split
  · exact h.trapOut
  · exact h.loadElems

theorem execVldw (h : o.Keeps s) {off : BitVec 8} {g : GIx} {base : XIx} {d : VIx} : o.KeepsOut (execVldw off g base d s) :=
  .withRegs h fun _ => h.loadWords

theorem execKld (h : o.Keeps s) {off : BitVec 8} {g : GIx} {base : XIx} {d : KIx} : o.KeepsOut (execKld off g base d s) :=
  .withRegs h fun _ => h.loadWords

/-! #### Stores of the vector forms -/

theorem pinMe (h : o.Keeps s) {p : Piece} : o.Keeps (s.pinMe p) := by
  unfold State.pinMe
  split
  · exact h.setMe
  · exact h

theorem keepBits (h : o.Keeps s) {bypass : Bool} {q : Piece × Nat} : o.Keeps (keepBits bypass q s).state := by
  unfold Machine.keepBits
  split
  · exact h
  · exact h.readCell.bind fun _ h => h.pinMe

theorem narrowPieces {bypass : Bool} {w : Nat} {code : Nat → Nat} : ∀ (fuel : Nat) {ps : List Piece} {s : State},
    o.Keeps s → o.Keeps (narrowPieces bypass w code fuel ps s).state
  | 0, _, _, h => h
  | fuel + 1, ps, s, h => by
    unfold Machine.narrowPieces
    have u : o.Keeps (Machine.upToFailure (Machine.keepBits bypass) (fun q => q.1.i) (mergeNarrow w code ps) [] s).state :=
      upToFailure (fun _ h => h.keepBits) _ h
    split
    all_goals rename_i e
    · exact u.at_stop e
    · exact u.at_ok e
    · exact (narrowPieces fuel ((u.at_ok e).foldl _ fun _ h => h.pinMe)).bind fun _ h => h

theorem confirmPiece (h : o.Keeps s) {sure : Bool} {p : Piece} : o.Keeps (confirmPiece sure p s).state := by
  unfold Machine.confirmPiece
  split
  · exact h
  · split
    · exact h
    · exact h.confirm.bind fun _ h => h

theorem storeValues (h : o.Keeps s) {sure bypass : Bool} {w : Nat} {code : Nat → Nat} {ps : List Piece} :
    o.Keeps (storeValues sure bypass w code ps s).state := by
  refine (upToFailure (fun _ h => h.confirmPiece) _ h).bind fun _ h => ?_
  exact iteRes h ((narrowPieces _ h).bind fun _ h => h)

theorem storePieces {bypass ordered : Bool} {g : Hart} : ∀ (l : List (Piece × Bool)) {s : State}, o.Keeps s →
    o.Keeps (storePieces bypass ordered g l s).2
  | [], _, h => h
  | (p, b) :: t, s, h => by
    unfold Machine.storePieces
    have w : o.Keeps (Machine.writeCell p.a p.e p.cell p.n p.x p.last bypass ordered b g s).state := h.writeCell
    split
    all_goals rename_i e
    · exact storePieces t (w.at_ok e)
    · exact w.at_stop e

theorem placeStore (h : o.Keeps s) {bypass ordered unordered : Bool} {again : Bool → Nat → Hart → State → Out}
    (ha : ∀ sure e g {s}, o.Keeps s → o.KeepsOut (again sure e g s)) {p : Paused} {g : Hart} :
    o.KeepsOut (placeStore bypass ordered unordered again p g s) := by
  unfold Machine.placeStore
  dsimp only
  split
  · exact h.setMe.next
  · have w : o.Keeps (if unordered && decide (linesNeeded p.todo ≤ (s.core s.myCore).sbLimit) && !p.begun then
        if (Machine.storePieces bypass ordered g (anyOrder s p.todo).1 (anyOrder s p.todo).2).1.isNone
        then Machine.storePieces bypass ordered g (anyOrder s p.todo).1 (anyOrder s p.todo).2
        else Machine.storePieces bypass ordered g p.todo s
      else Machine.storePieces bypass ordered g p.todo s).2 := by
      split
      · split
        · exact storePieces _ h.same
        · exact storePieces _ h
      · exact storePieces _ h
    split
    all_goals
      rename_i e
      rw [e] at w
    · split
      · exact w.setMe.next
      · exact ha _ _ _ w
    · exact w.setMe.next
    · exact w.trapAt

theorem confirmAll {sure : Bool} : ∀ (l : List Piece) {s : State}, o.Keeps s → o.Keeps (vstore.confirmAll sure l s).state
  | [], _, h => h
  | p :: t, s, h => by
    unfold vstore.confirmAll
    exact h.confirmPiece.bind fun _ h => (confirmAll t h).bind fun _ h => h

theorem keepAll {bypass : Bool} : ∀ (l : List (Piece × Nat)) {s : State}, o.Keeps s →
    o.Keeps (vstore.keepAll bypass l s).state
  | [], _, h => h
  | q :: t, s, h => by
    unfold vstore.keepAll
    exact h.keepBits.bind fun _ h => keepAll t h

/-- The checks that an element of a store makes again. -/
theorem storeAgain (h : o.Keeps s) {g : Hart} {rs : List Req} {sure bypass : Bool} {f : List Piece → List (Piece × Nat)} :
    o.Keeps ((Machine.checkElem g true rs s).bind fun ps s =>
      (vstore.confirmAll sure ps s).bind fun qs s => vstore.keepAll bypass (f qs) s).state :=
  h.checkElem.bind fun _ h => (confirmAll _ h).bind fun _ h => keepAll _ h

theorem vstore (h : o.Keeps s) {w : Nat} {ordered unordered bypass : Bool} {code : Nat → Nat} {els : List (List Req)}
    {g : Hart} : o.KeepsOut (vstore w ordered unordered bypass code els g s) := by
  unfold Machine.vstore
  have w : o.Keeps (Machine.checkElems g els s).state := h.checkElems
  dsimp only
  split
  · exact h.placeStore fun _ _ _ _ h => stopAt h.storeAgain
  split
  · exact h.next
  split
  · exact (w.at_stop ‹_›).trapOut
  · exact (w.at_stop ‹_›).next
  rename_i c s1 e
  replace w := w.at_ok e
  split
  · exact w.trapOut
  have v : ∀ sure bypass n code, o.Keeps (Machine.storeValues sure bypass n code c.1 s1).state := fun _ _ _ _ => w.storeValues
  split
  all_goals rename_i e
  · exact ((v _ _ _ _).at_stop e).trapOut
  · exact ((v _ _ _ _).at_stop e).next
  · exact ((v _ _ _ _).at_ok e).placeStore fun _ _ _ _ h => stopAt h.storeAgain

theorem storeForm (h : o.Keeps s) {i : Instr} {k : Walk} {ordered unordered : Bool} {off : BitVec 8} {col : Bool} {g : GIx}
    {base : XIx} {d : VIx} : o.KeepsOut (storeForm i k ordered unordered off col g base d s) :=
  .withVec h fun _ => .checked h h.vstore

theorem storeWords (h : o.Keeps s) {off : Word} {rs : List Req} {code : Nat → Nat} {g : Hart} :
    o.KeepsOut (storeWords off rs code g s) := by
  unfold Machine.storeWords
  split
  · exact h.trapOut
  · exact h.vstore

theorem execVstw (h : o.Keeps s) {off : BitVec 8} {g : GIx} {base : XIx} {d : VIx} : o.KeepsOut (execVstw off g base d s) :=
  .withRegs h fun _ => h.storeWords

theorem execKst (h : o.Keeps s) {off : BitVec 8} {g : GIx} {base : XIx} {d : KIx} : o.KeepsOut (execKst off g base d s) :=
  .withRegs h fun _ => h.storeWords

/-! #### Prefetch and vector atomics -/

theorem prefetch (h : o.Keeps s) {g : Hart} {r : Req} : o.Keeps (prefetch g s r) := by
  unfold Machine.prefetch
  have w : o.Keeps (Machine.checkReq r g false s).state := h.checkReq
  split
  · rename_i e
    replace w := w.at_ok e
    dsimp only
    split
    · exact h
    · exact w.setCore
  · exact h

theorem execVpf (h : o.Keeps s) {off : BitVec 8} {c : Orient} {g : GIx} {base : XIx} : o.KeepsOut (execVpf off c g base s) := by
  refine .withHart fun x => .ite h.next ?_
  exact (h.foldl _ fun _ h => h.prefetch).setMe.next

theorem probePiece (h : o.Keeps s) {sc : AScope} {p : Piece} : o.Keeps (probePiece sc p s).state :=
  h.atomicCell.bind fun _ h => h

theorem updatePieces {sc : AScope} {f : Nat → Nat → Nat × Nat} : ∀ (l : List Piece) {acc : List (Nat × Nat)} {fl : Nat}
    {s : State}, o.Keeps s → o.Keeps (updatePieces sc f l acc fl s).state
  | [], _, _, _, h => h
  | p :: t, acc, fl, s, h => by
    unfold Machine.updatePieces
    have w : o.Keeps (Machine.atomicCell p.a p.e p.cell p.n sc (fun m => some (f m p.x).1) s).state := h.atomicCell
    split
    all_goals rename_i e
    · exact updatePieces t (w.at_ok e)
    · exact w.at_stop e

/-- The words of a vector atomic, performed in an order that free choices fix. -/
theorem vamoPerform (h : o.Keeps s) {c : Prop} [Decidable c] {sc : AScope} {f : Nat → Nat → Nat × Nat} {l : List Piece}
    {n : Nat} : o.Keeps (Machine.updatePieces sc f l [] 0 (if c then { s with free := n } else s)).state :=
  updatePieces _ (ite h.same h)

theorem vamo (h : o.Keeps s) {i : Instr} {ok : Tag → Bool} {f : Fmt → Nat → Nat → Nat × Nat} {sc : AScope}
    {order : Order} {g : GIx} {base : XIx} {d : VIx} : o.KeepsOut (vamo i ok f sc order g base d s) := by
  refine .withVec h fun x => .checked h ?_
  have w : ∀ els, o.Keeps (Machine.checkElems x els s).state := fun _ => h.checkElems
  dsimp only
  split
  · exact ((w _).at_stop ‹_›).trapOut
  · exact ((w _).at_stop ‹_›).next
  rename_i c s1 e
  replace w := (w _).at_ok e
  split
  · exact w.trapOut
  have v : o.Keeps (Machine.upToFailure (Machine.probePiece sc) Piece.i c.1 [] s1).state :=
    upToFailure (fun _ h => h.probePiece) _ w
  split
  · exact (v.at_stop ‹_›).trapOut
  · exact (v.at_stop ‹_›).next
  rename_i q s2 e
  replace v := v.at_ok e
  split
  · split
    all_goals rename_i e
    · exact (v.vamoPerform.at_stop e).trapOut
    · exact (v.vamoPerform.at_stop e).next
    · exact (v.vamoPerform.at_ok e).setMe.next
  · have u : ∀ rs, o.Keeps ((Machine.checkElem x true rs s2).bind fun ps s =>
        match ps with
        | p :: _ => Machine.probePiece sc p s
        | [] => .stop .wait s).state := fun _ => v.checkElem.bind fun
      | [], h => h
      | _ :: _, h => h.probePiece
    split
    all_goals
      rename_i e
    · replace u := (u _).at_stop e
      split
      all_goals rename_i e
      · exact (u.vamoPerform.at_stop e).trapOut
      · exact (u.vamoPerform.at_stop e).next
      · exact (u.vamoPerform.at_ok e).trapAt
    · exact ((u _).at_stop e).next
    · exact ((u _).at_ok e).next

/-! #### The scratchpad and its index (17 R319 to R322) -/

theorem execSpld (h : o.Keeps s) {hi : Hint} {d : VIx} {a b : XIx} : o.KeepsOut (execSpld hi d a b s) :=
  .withVec h fun _ => .checked h (.checked h h.endLoad)

end State.Keeps

theorem SpOperand.put_only (p : SpOperand) (g : Grant) (code : Nat → Nat) (c : Core) (e : Nat) :
    c.spOnly (p.put g code c e) := by
  unfold SpOperand.put
  dsimp only
  split
  · exact Core.foldl_spOnly _ (fun c q => c.spWrite_only _ _ _) _ _
  · split
    · exact c.spWrite_only _ _ _
    · exact Core.foldl_spOnly _ (fun c q => c.spWrite_only _ _ _) _ _

theorem SpOperand.heal_only (p : SpOperand) (g : Grant) (els : List Nat) (c : Core) : c.spOnly (p.heal g els c) := by
  unfold SpOperand.heal
  split
  · exact c.spOnly_refl
  · exact ⟨id, rfl⟩

namespace State.Keeps

variable {o s t : State}

theorem execSpst (h : o.Keeps s) {hi : Hint} {d : VIx} {a b : XIx} : o.KeepsOut (execSpst hi d a b s) := by
  refine .withVec h fun x => .checked h (.checked h ?_)
  have w : ∀ (p : SpOperand) g l code, o.Keeps (s.setCore s.myCore (p.heal g l (l.foldl (p.put g code) (s.core s.myCore)))) :=
    fun p g l code => h.setSpOnly
      (Core.spOnly_trans (Core.foldl_spOnly _ (fun c e => p.put_only g code c e) l _) (p.heal_only g l _))
  dsimp only
  split
  · exact (w _ _ _ _).setMe.next
  · exact (w _ _ _ _).trapAt

theorem endIx (h : o.Keeps s) {bad : Option (Nat × FRec)} {fl : BitVec 8} {g : Hart} : o.KeepsOut (endIx bad fl g s) := by
  unfold Machine.endIx
  dsimp only
  split
  · exact h.setMe.next
  · exact h.trapAt

theorem sxUpdate (h : o.Keeps s) {i : Instr} {acc : Bool} {d a b : VIx} : o.KeepsOut (sxUpdate i acc d a b s) :=
  .withVec h fun _ => .checked h (.checked h h.setCore.endIx)

theorem execSxlkp (h : o.Keeps s) {hi : Hint} {d a b : VIx} : o.KeepsOut (execSxlkp hi d a b s) :=
  .withVec h fun _ => .checked h (.checked h h.endLoad)

theorem execSxdrn (h : o.Keeps s) {hi : Hint} {d b : VIx} : o.KeepsOut (execSxdrn hi d b s) := by
  refine .withRegs h fun x => .checked h (.checked h ?_)
  dsimp only
  split
  · exact h.trapOut
  · exact h.setCore.endLoad

theorem execSxclr (h : o.Keeps s) : o.KeepsOut (execSxclr s) :=
  .withRegs h fun _ => .checked h h.setCore.setMe.next

/-! #### Matrix forms (18) -/

theorem execMshape (h : o.Keeps s) {depth : BitVec 4} {cols rows : BitVec 7} : o.KeepsOut (execMshape depth cols rows s) :=
  .withHart fun _ => h.setMe.next

theorem matrix (h : o.Keeps s) {i : Instr} {m : MatIn} : o.KeepsOut (matrix i m s) :=
  .withHart fun _ => .checked h (.withRegs h fun _ => .checked h (.checked h h.setMe.next))

theorem readMetaRun (h : o.Keeps s) {r : Req} {g : Hart} : o.Keeps (readMetaRun r g s).state := by
  refine h.checkReq.bind fun c h => ?_
  dsimp only
  split
  · exact h
  · split
    · split <;> exact h
    · refine h.readMeta.bind fun d h => ?_
      split <;> exact h

theorem readMetaBytes {g i : Nat} {off : Word} {x : Hart} : ∀ (n : Nat) {k acc : Nat} {s : State}, o.Keeps s →
    o.Keeps (readMetaBytes g i off x n k acc s).state
  | 0, _, _, _, h => h
  | n + 1, k, acc, s, h => by
    unfold Machine.readMetaBytes
    exact h.readMetaRun.bind fun _ h => readMetaBytes n h

theorem rowFault {α : Type} {r : Res α} (h : o.Keeps r.state) {row : Word} : o.Keeps (rowFault row r).state := by
  rcases r with ⟨a, s⟩ | ⟨f | _, s⟩
  all_goals exact h

theorem rowClass {g i : Nat} {off row : Word} {x : Hart} : ∀ (n : Nat) {k : Nat} {s : State}, o.Keeps s →
    o.Keeps (rowClass g i off row x n k s).state
  | 0, _, _, h => h
  | n + 1, k, s, h => by
    unfold Machine.rowClass
    have w : ∀ r, o.Keeps (Machine.checkReq r x true s).state := fun _ => h.checkReq
    dsimp only
    split
    all_goals rename_i e
    · replace w := (w _).at_ok e
      split
      · exact w
      · exact rowClass n w
    · exact (w _).at_stop e
    · exact rowClass n h

theorem rowsClass {l : LastRec} {x : Hart} {row0 col0 md : Nat} : ∀ (n : Nat) {i : Nat} {s : State}, o.Keeps s →
    o.Keeps (rowsClass l x row0 col0 md n i s).state
  | 0, _, _, h => h
  | n + 1, i, s, h => by
    unfold Machine.rowsClass
    exact (rowClass _ h).bind fun
      | some _, h => h
      | none, h => rowsClass n h

theorem readRows {l : LastRec} {x : Hart} {bad : FRec} {row0 col0 md : Nat} : ∀ (n : Nat) {i acc : Nat} {s : State},
    o.Keeps s → o.Keeps (readRows l x bad row0 col0 md n i acc s).state
  | 0, _, _, _, h => h
  | n + 1, i, acc, s, h => by
    unfold Machine.readRows
    dsimp only
    split
    · exact h
    · refine (readMetaBytes _ h).rowFault.bind fun b h => ?_
      split
      · exact h
      · exact readRows n h

theorem mlastRead (h : o.Keeps s) {g : GIx} {b : XIx} {x : Hart} : o.Keeps (mlastRead g b x s).state := by
  refine h.readMetaRun.bind fun c h => ?_
  dsimp only
  split
  · exact h
  · split
    · exact h
    · exact (rowsClass _ h).bind fun
        | some _, h => h
        | none, h => readRows _ h

theorem execMlast (h : o.Keeps s) {hi : Hint} {g : GIx} {d : VIx} {b : XIx} : o.KeepsOut (execMlast hi g d b s) := by
  refine .withHart fun y => .ite h.trapOut (.ite h.trapOut (.ite h.trapOut (.withRegs h fun x => ?_)))
  have w : o.Keeps (Machine.mlastRead g b x s).state := h.mlastRead
  split
  all_goals rename_i e
  · exact (w.at_stop e).trapOut
  · exact (w.at_stop e).next
  · exact (w.at_ok e).setMe.next

end State.Keeps

theorem Core.spPut_only (c : Core) (g : Grant) (bytes : List Nat) (x : Nat) : c.spOnly (c.spPut g bytes x) := by
  unfold Core.spPut
  dsimp only
  split
  · exact c.spWrite_only _ _ _
  · exact Core.foldl_spOnly _ (fun c q => c.spWrite_only _ _ _) _ _

namespace State.Keeps

variable {o s t : State}

/-! #### Memory accesses of the copy engine (03 R51, 19 R343) -/

theorem enginePage (h : o.Keeps s) {a : Acc} {rw : Rw} : o.Keeps (enginePage a rw s).state := by
  unfold Machine.enginePage
  split
  · exact h
  · refine h.reach.bind fun l h => ?_
    split
    · rename_i e
      exact h.confirmedFill e
    · exact h

theorem nameRuns : ∀ (l : List EngRun) {s : State}, o.Keeps s → o.Keeps (nameRuns l s).state
  | [], _, h => h
  | _ :: t, _, h => h.reachNamed.bind fun _ h => nameRuns t h

theorem checkRuns (h : o.Keeps s) {rs : List EngRun} : o.Keeps (checkRuns rs s).state := by
  unfold Machine.checkRuns
  split
  · exact h
  · exact nameRuns _ h

theorem engineRead (h : o.Keeps s) {a : Acc} {c : TClass} {cell n : Nat} : o.Keeps (engineRead a c cell n s).state := by
  unfold Machine.engineRead
  dsimp only
  exact (iteRes h h.ackBypass.needL2).bind fun _ h => iteRes h h

theorem engineWrite (h : o.Keeps s) {a : Acc} {c : TClass} {cell n x : Nat} : o.Keeps (engineWrite a c cell n x s) := by
  have w : o.Keeps ((s.ackBypass a.core).drainL1 a.core) := h.ackBypass.drainL1
  unfold Machine.engineWrite
  dsimp only
  split
  · exact w.writeL1Run
  · exact w.writeL2Run.drainL2

theorem pageRuns {a : Acc} {rw : Rw} : ∀ (l : List (Nat × Nat)) {acc : List EngRun} {s : State}, o.Keeps s →
    o.Keeps (pageRuns a rw l acc s).state
  | [], _, _, h => h
  | _ :: t, _, _, h => h.enginePage.bind fun _ h => pageRuns t h

theorem engineRuns (h : o.Keeps s) {a : Acc} {rw : Rw} {runs : List (Nat × Nat)} : o.Keeps (engineRuns a rw runs s).state :=
  (pageRuns runs h).bind fun _ h => h.checkRuns.bind fun _ h => h

theorem readRuns : ∀ (l : List EngRun) {sh x : Nat} {s : State}, o.Keeps s → o.Keeps (readRuns l sh x s).state
  | [], _, _, _, h => h
  | _ :: t, _, _, _, h => h.engineRead.bind fun _ h => readRuns t h

theorem writeRuns : ∀ (l : List EngRun) {x : Nat} {s : State}, o.Keeps s → o.Keeps (writeRuns l x s)
  | [], _, _, h => h
  | _ :: t, _, _, h => writeRuns t h.engineWrite

/-! #### The issue of commands -/

theorem readLast (h : o.Keeps s) {m : Cmd} {core : Nat} {d : Side} : o.Keeps (readLast m core d s).state := by
  unfold Machine.readLast
  split
  · exact h
  · refine h.engineRuns.bind fun _ h => (readRuns _ h).bind fun _ h => ?_
    dsimp only
    split <;> exact h

theorem readLasts (h : o.Keeps s) {m : Cmd} {core : Nat} : o.Keeps (m.readLasts core s).state := by
  unfold Cmd.readLasts
  split
  · exact h
  · have w : ∀ {s}, o.Keeps s → o.Keeps ((Machine.readLast m core m.src s).bind fun a s =>
        (Machine.readLast m core m.dst s).bind fun b s => .ok { m with srcLast := a, dstLast := b } s).state :=
      fun h => h.readLast.bind fun _ h => h.readLast.bind fun _ h => h
    have u : o.Keeps (if m.acq then (s.ackBypass core).acquireSteps core m.space (scopeOfCode m.asc) else s) :=
      h.ackBypass.acquireSteps.ite h
    dsimp only
    split
    all_goals rename_i e
    · exact (w u).at_ok e
    · exact (w u).at_stop e
    · exact h

theorem issueCmd (h : o.Keeps s) {m : Cmd} {g : Hart} : o.KeepsOut (issueCmd m g s) := by
  unfold Machine.issueCmd
  dsimp only
  split
  · exact h.next
  · have w : o.Keeps (m.readLasts s.myCore ((s.ackBypass s.myCore).ackTarget s.myCore)).state :=
      h.ackBypass.ackTarget.readLasts
    split
    · exact h.next
    · rename_i e
      replace w := w.at_ok e
      exact w.setCore.setMe.next

theorem execXcp (h : o.Keeps s) {a : XIx} : o.KeepsOut (execXcp a s) := by
  refine .withHart fun g => ?_
  dsimp only
  split
  · exact h.trapOut
  · exact h.issueCmd

theorem execXcpm (h : o.Keeps s) {a : XIx} : o.KeepsOut (execXcpm a s) := by
  refine .withHart fun g => ?_
  dsimp only
  split
  · exact h.trapOut
  · split
    · exact .withRegs h fun _ => h.issueCmd
    · exact h.issueCmd

theorem execXchain (h : o.Keeps s) {g : GIx} {a : XIx} : o.KeepsOut (execXchain g a s) := by
  refine .withHart fun g => ?_
  dsimp only
  split
  · exact h.trapOut
  · exact h.issueCmd

/-! #### The stages of commands -/

theorem putHead (h : o.Keeps s) {core slot : Nat} {l : List Cmd} : o.Keeps (s.putHead core slot l) := h.setCore

theorem endCmd (h : o.Keeps s) {core : Nat} {m again : Cmd} : o.Keeps (endCmd core m again s) := by
  unfold Machine.endCmd
  dsimp only
  split
  · exact h
  · split
    · exact h.putHead.setHart
    · split
      · split
        · exact h.putHead.setHart
        · exact h.putHead.setHart
      · exact h.putHead.setHart

theorem toStage (h : o.Keeps s) {core : Nat} {m : Cmd} {st : Stage} : o.Keeps (toStage core m st s) := h.endCmd.ite h.putHead

theorem failCmd (h : o.Keeps s) {core : Nat} {m : Cmd} {f : FRec} : o.Keeps (failCmd core m f s) := h.toStage

theorem pagePlace (h : o.Keeps s) {d : Side} {p : ElemPlace ⊕ Place} : o.Keeps (pagePlace d p s).state := by
  cases p with
  | inl q => exact h
  | inr p => exact (pageRuns _ h).bind fun _ h => h

theorem elemPlaces (h : o.Keeps s) {m : Cmd} {core : Nat} : o.Keeps (elemPlaces m core s).state := by
  unfold Machine.elemPlaces
  split
  · exact h
  · exact h
  · exact h.pagePlace.bind fun _ h => h.pagePlace.bind fun _ h => h.checkRuns.bind fun _ h => h

theorem readPlace (h : o.Keeps s) {p : ElemPlace} : o.Keeps (readPlace p s).state := by
  cases p with
  | grant core g bytes sh =>
    unfold Machine.readPlace
    dsimp only
    split <;> exact h
  | runs rs va sh => exact readRuns _ h

theorem readElem (h : o.Keeps s) {w : Nat} {p : ElemPlace} : o.Keeps (readElem w p s).state := h.readPlace.bind fun _ h => h

theorem writeElem (h : o.Keeps s) {m : Cmd} {code : Nat} {p : ElemPlace} : o.Keeps (writeElem m code p s).state := by
  unfold Machine.writeElem
  dsimp only
  split
  · exact h.setSpOnly (Core.spPut_only _ _ _ _)
  · split
    · exact writeRuns _ h
    · exact (readRuns _ h).bind fun _ h => writeRuns _ h

theorem moveElem (h : o.Keeps s) {core : Nat} {m : Cmd} : o.Keeps (moveElem core m s).state :=
  h.elemPlaces.bind fun _ h => h.readElem.bind fun _ h => h.writeElem.bind fun _ h => h

theorem moveElems {core : Nat} : ∀ (fuel : Nat) {n : Nat} {back : Cmd × State} {m : Cmd} {s : State}, o.Keeps back.2 →
    o.Keeps s → o.Keeps (moveElems core fuel n back m s).2.2
  | 0, _, _, _, _, _, h => h
  | fuel + 1, n, back, m, s, hb, h => by
    have here : o.Keeps (if m.midByte then back else (m, s)).2 := by
      split
      · exact hb
      · exact h
    have w : o.Keeps (Machine.moveElem core m s).state := h.moveElem
    unfold Machine.moveElems
    dsimp only
    split
    · exact h
    · split
      all_goals rename_i e
      · exact moveElems fuel here (w.at_ok e)
      · exact w.at_stop e
      · exact here

theorem transferStep (h : o.Keeps s) {core : Nat} {m : Cmd} : o.Keeps (transferStep core m s) := by
  unfold Machine.transferStep
  split
  · exact h.failCmd
  · split
    · exact h.toStage
    · have w : o.Keeps (Machine.moveElems core (m.perTransfer + m.n * m.rows + 1) m.perTransfer (m, s) m s).2.2 :=
        moveElems _ h h
      split
      all_goals
        rename_i e
        rw [e] at w
      · exact w.failCmd
      · exact w.putHead
      · exact w.putHead.ite w.toStage

theorem engineServed (h : o.Keeps s) {core slot : Nat} : o.Keeps (s.engineServed core slot) := h.setCore

theorem execCopyTransfer (h : o.Keeps s) {core slot : Nat} : o.KeepsOut (execCopyTransfer core slot s) := by
  unfold Machine.execCopyTransfer
  split
  · exact .ite h.transferStep.engineServed.next h.next
  · exact h.next

theorem execCopyAcquire (h : o.Keeps s) {core slot : Nat} : o.KeepsOut (execCopyAcquire core slot s) := by
  unfold Machine.execCopyAcquire
  split
  · exact .ite h.ackBypass.acquireSteps.toStage.next h.next
  · exact h.next

theorem execCopyRelease (h : o.Keeps s) {core slot : Nat} : o.KeepsOut (execCopyRelease core slot s) := by
  unfold Machine.execCopyRelease
  split
  · exact .ite h.releaseSteps.toStage.next h.next
  · exact h.next

theorem execEyeletWrite (h : o.Keeps s) {core slot : Nat} : o.KeepsOut (execEyeletWrite core slot s) := by
  unfold Machine.execEyeletWrite
  split
  · split
    · dsimp only
      split
      · split
        · have w : ∀ t g a b, o.Keeps (s.setCore t ((s.core t).spWrite g a b)) :=
            fun t g a b => h.setSpOnly (Core.spWrite_only _ _ _ _)
          exact (w _ _ _ _).toStage.next
        · exact h.toStage.next
      · exact h.toStage.next
    · exact h.next
  · exact h.next

/-- The read of a chain's record, or the failure of its segment checks. -/
theorem recordRead (h : o.Keeps s) {c : Option Nat} {f : Nat → FRec} {a : Acc} {runs : List (Nat × Nat)} :
    o.Keeps (match c with
      | some c => .stop (.trap (f c)) s
      | none => (Machine.engineRuns a .read runs s).bind fun rs s => Machine.readRuns rs 0 0 s : Res Nat).state := by
  cases c with
  | none => exact h.engineRuns.bind fun _ h => readRuns _ h
  | some c => exact h

theorem execChainRecordRead (h : o.Keeps s) {core slot : Nat} : o.KeepsOut (execChainRecordRead core slot s) := by
  unfold Machine.execChainRecordRead
  split
  · split
    · exact h.next
    · split
      · exact h.next
      · have u : o.Keeps (s.engineServed core slot) := h.engineServed
        dsimp only
        split
        · exact u.next
        · rename_i e
          have w := (recordRead u).at_stop e
          exact w.putHead.endCmd.next
        · rename_i x t1 e
          have w : ∀ l, o.Keeps (t1.putHead core slot l) := fun _ => ((recordRead u).at_ok e).putHead
          split
          · exact (w _).toStage.next
          · have v : ∀ (m : Cmd) l, o.Keeps (m.readLasts core (t1.putHead core slot l)).state := fun _ _ => (w _).readLasts
            split
            · exact u.next
            · rename_i e
              replace v := (v _ _).at_ok e
              split
              · exact v.toStage.next
              · exact .ite u.next v.setHart.toStage.next
  · exact h.next

/-! #### Follow-ons and commands issued again (07 R147, 19 R342, R345) -/

theorem noteWork (h : o.Keeps s) {core blk : Nat} : o.Keeps (s.noteWork core blk) := h.setCore

theorem execFollowOnIssue (h : o.Keeps s) {core slot : Nat} : o.KeepsOut (execFollowOnIssue core slot s) := by
  unfold Machine.execFollowOnIssue
  dsimp only
  split
  · split
    · exact h.next
    · split
      · exact h.next
      · split
        · exact h.next
        · split
          · exact h.setCore.setHart.next
          · exact h.setCore.setHart.noteWork.next
  · exact h.next

theorem execFollowOnComplete (h : o.Keeps s) {core slot : Nat} : o.KeepsOut (execFollowOnComplete core slot s) := by
  unfold Machine.execFollowOnComplete
  dsimp only
  split
  · split
    · exact h.next
    · split
      · exact h.setCore.setHart.next
      · exact h.next
  · exact h.next

theorem reissue (h : o.Keeps s) {core slot : Nat} : o.KeepsSome (s.reissue core slot) := by
  intro t e
  unfold State.reissue at e
  split at e
  · cases e
    exact h
  · split at e
    · cases e
      exact h
    · rename_i f _
      have w : o.Keeps (f.cmd.readLasts core s).state := h.readLasts
      split at e
      · cases e
      · rename_i e'
        cases e
        exact (w.at_ok e').setCore.setHart

theorem goBack (h : o.Keeps s) {core slot : Nat} {t : Handling} : o.KeepsSome (s.goBack core slot t) := by
  intro t e
  obtain ⟨q, hq, rfl⟩ := Option.map_eq_some_iff.1 e
  have w : o.Keeps q := by
    split at hq
    · exact h.reissue q hq
    · cases hq
      exact h
  split
  · exact w.setHart
  · exact w

theorem execXstat (h : o.Keeps s) {d : XIx} : o.KeepsOut (execXstat d s) := .withHart fun _ => h.setMe.next

/-! #### Fences, waits and barriers (19 R347 to R350) -/

theorem fenceOp (h : o.Keeps s) {k : FenceKind} {sc : Scope} {g : Hart} : o.Keeps (fenceOp k sc g s).state := by
  cases k with
  | rel => exact h.release
  | acq => exact h.acquire
  | ar => exact h.release.bind fun _ h => h.acquire

theorem execFence (h : o.Keeps s) {sc : Scope} {k : FenceKind} : o.KeepsOut (execFence sc k s) :=
  .withHart fun _ => finish (h.fenceOp.bind fun _ h => h.setMe)

theorem execWaitc (h : o.Keeps s) {l st c m : BitVec 4} : o.KeepsOut (execWaitc l st c m s) := by
  refine .withHart fun g => ?_
  have w : o.Keeps (if st.toNat < 15 then (s.ackBypass s.myCore).ackTarget s.myCore else s) := h.ackBypass.ackTarget.ite h
  dsimp only
  split
  · exact h.trapOut
  · exact .ite w.next w.setMe.next

theorem waita (h : o.Keeps s) {any : Bool} {d a b : XIx} : o.KeepsOut (waita any d a b s) :=
  .withHart fun _ => .checked h (.ite h.setMe.next h.setMe.next)

/-- Whose turn an operation runs in is not among what is kept. -/
theorem asHart (h : o.Keeps s) {key : Nat} {f : State → Out} (hf : ∀ {s}, o.Keeps s → o.KeepsOut (f s)) :
    o.KeepsOut (asHart key f s) := by
  have w : o.KeepsOut (f { s with cur := key }) := hf h.same
  unfold Machine.asHart
  intro u e
  split at e
  · rename_i e'
    cases e
    exact (w _ e').same
  · exact w u e

theorem execWaitaWake (h : o.Keeps s) {core slot : Nat} : o.KeepsOut (execWaitaWake core slot s) := by
  unfold Machine.execWaitaWake
  dsimp only
  split
  · exact h.next
  · split
    · exact h.asHart fun h => h.waita
    · exact h.next

theorem execBar (h : o.Keeps s) {sc : Scope} : o.KeepsOut (execBar sc s) :=
  .withHart fun _ => finish (h.release.bind fun _ h => h.setMe)

theorem departOne (h : o.Keeps s) {sc : Scope} {key : Nat} : o.Keeps (departOne sc s key) := by
  unfold Machine.departOne
  split
  · exact h
  · exact h.ackBypass.acquireSteps.setHart

theorem execBarrierDepart (h : o.Keeps s) {core slot : Nat} : o.KeepsOut (execBarrierDepart core slot s) := by
  unfold Machine.execBarrierDepart
  dsimp only
  split
  · exact h.next
  · split
    · exact .ite (h.foldl _ fun _ h => h.departOne).next h.next
    · exact h.next

/-! #### Regions and their ends (08 R153 to R156) -/

theorem blkSet (h : o.Keeps s) {blk hi lo x : Nat} : o.Keeps (s.blkSet blk hi lo x) := h.setPA

theorem showChildren (h : o.Keeps s) {parent : Nat} : o.Keeps (s.showChildren parent) := h.ite h.blkSet

theorem complete (h : o.Keeps s) {queue : Nat} {tag : BitVec 32} {status state fcause blk : Nat} :
    o.Keeps (s.complete queue tag status state fcause blk) := h.postOrHold

theorem refuseLaunch (h : o.Keeps s) {l : Launch} {code : Nat} : o.Keeps (s.refuseLaunch l code) := by
  have w : o.Keeps { s with fe := { s.fe with launches := s.fe.launches.filter fun q => q.f.blk ≠ l.f.blk } } := h.same
  exact w.blkSet.blkSet.showChildren.complete

theorem killLaunch (h : o.Keeps s) {l : Launch} {fcause : Nat} : o.Keeps (s.killLaunch l fcause) := by
  have w : o.Keeps { s with fe := { s.fe with launches := s.fe.launches.filter fun q => q.f.blk ≠ l.f.blk } } := h.same
  exact w.blkSet.showChildren.complete

theorem freeArea (h : o.Keeps s) {area : Nat} : o.Keeps (s.freeArea area) := h.same

/-- A hart is taken away. -/
theorem withoutHart (h : o.Keeps s) {key : Nat} (hh : t.harts = adel s.harts key) (hm : t.mem = s.mem := by rfl)
    (hc : t.cores = s.cores := by rfl) (hk : t.clusters = s.clusters := by rfl) : o.Keeps t :=
  h.withHarts (fun p => hh ▸ p.sublist ((adel_sublist _ _).map _)) hm hc hk

/-- A hart is taken away with what its core holds of it. -/
theorem setCoreWithoutHart (h : o.Keeps s) {k key : Nat} {c : Core} (hp : c.sp = (s.core k).sp := by rfl)
    (hl : c.l1 = (s.core k).l1 := by rfl) : o.Keeps { s.setCore k c with harts := adel s.harts key } :=
  (h.setCore hp hl).withoutHart rfl

theorem dropHart (h : o.Keeps s) {key : Nat} : o.Keeps (s.dropHart key) := by
  have w : o.Keeps ((s.ackBypass (coreOf key)).ackTarget (coreOf key)) := h.ackBypass.ackTarget
  unfold State.dropHart
  dsimp only
  split
  · refine freeArea ?_
    exact w.setCoreWithoutHart
  · exact w.setCoreWithoutHart

theorem stopHarts (h : o.Keeps s) {blk : Nat} : o.Keeps (s.stopHarts blk) := by
  have w : ∀ (keys : List Nat) (gone : List SavedHart),
      o.Keeps (gone.foldl (fun (s : State) (q : SavedHart) => s.freeArea q.area) (keys.foldl State.dropHart s)) :=
    fun keys gone => (h.foldl keys fun _ h => h.dropHart).foldl gone fun _ h => h.freeArea
  exact (w _ _).same

theorem releaseRegion (h : o.Keeps s) {r : Region} : o.Keeps (s.releaseRegion r) := h.foldl _ fun _ h => h.releaseSteps

theorem passLoss (h : o.Keeps s) {blk : Nat} : o.Keeps (s.passLoss blk) := h.loseFor.ite h

theorem closeRegion (h : o.Keeps s) {r : Region} {st : Nat} : o.Keeps (s.closeRegion r st) := by
  have w : o.Keeps (r.cores.foldl (fun s c =>
      s.setCore c { s.core c with grants := (s.core c).grants.filter fun g => g.blk ≠ r.f.blk })
      ((s.releaseRegion r).passLoss r.f.blk)) := h.releaseRegion.passLoss.foldl _ fun _ h => h.setCore
  have u : ∀ x, o.Keeps (((r.cores.foldl (fun s c =>
      s.setCore c { s.core c with grants := (s.core c).grants.filter fun g => g.blk ≠ r.f.blk })
      ((s.releaseRegion r).passLoss r.f.blk)).blkSet r.f.blk 303 288 0).blkSet r.f.blk 171 168 x) := fun _ => w.blkSet.blkSet
  have v : ∀ {t}, o.Keeps t →
      o.Keeps { t with fe := { t.fe with regions := t.fe.regions.filter fun q => q.f.blk ≠ r.f.blk } } := fun h => h.same
  exact (v (u st)).showChildren.complete

theorem closeAllFuel : ∀ (n : Nat) {s : State}, o.Keeps s → o.Keeps (State.closeAllFuel n s)
  | 0, _, h => h
  | n + 1, s, h => by
    unfold State.closeAllFuel
    split
    · exact closeAllFuel n h.closeRegion
    · exact h

theorem closeAll (h : o.Keeps s) : o.Keeps s.closeAll := closeAllFuel _ h

theorem endBlocks (h : o.Keeps s) {blks : List Nat} {st : Nat} : o.Keeps (s.endBlocks blks st) :=
  same (h.foldl blks fun _ h => h.stopHarts)

theorem endDomain (h : o.Keeps s) {blk cause : Nat} {pc : Word} {core slot : Nat} :
    o.Keeps (s.endDomain blk cause pc core slot) := by
  have w : ∀ root, o.Keeps (if s.blkGet root 63 56 ≠ 0 then s
      else (((s.blkSet root 127 64 pc.toNat).blkSet root 63 56 cause).blkSet root 55 47 core).blkSet root 46 44 slot) :=
    fun _ => h.ite h.blkSet.blkSet.blkSet.blkSet
  exact closeAll (foldl (w _).endBlocks _ fun _ h => h.killLaunch)

theorem endForLoss (h : o.Keeps s) {r : Region} : o.Keeps (s.endForLoss r) :=
  endDomain (setRegion (choose (choose h)))

theorem retireRegion (h : o.Keeps s) {r : Region} : o.Keeps (s.retireRegion r) :=
  h.releaseRegion.endForLoss.ite h.releaseRegion.closeRegion

theorem endByHost (h : o.Keeps s) {blk : Nat} : o.Keeps (s.endByHost blk) :=
  closeAll (h.endBlocks.foldl _ fun _ h => h.refuseLaunch)

theorem retireHart (h : o.Keeps s) {key blk : Nat} : o.Keeps (s.retireHart key blk) :=
  h.dropHart.blkSet.blkSet.ite h.dropHart.blkSet

theorem execRegionRetire (h : o.Keeps s) {blk : Nat} : o.KeepsOut (execRegionRetire blk s) := by
  unfold Machine.execRegionRetire
  split
  · exact h.next
  · split
    · exact h.next
    · split
      · exact h.closeRegion.next
      · exact .ite h.retireRegion.next h.next

theorem execFaultDomainEnd (h : o.Keeps s) {core slot : Nat} : o.KeepsOut (execFaultDomainEnd core slot s) := by
  unfold Machine.execFaultDomainEnd
  split
  · exact h.next
  · split
    · exact h.next
    · exact .ite h.endDomain.next h.next

/-! #### What the host does (26 R374 to R377) -/

theorem execRegisterWrite (h : o.Keeps s) {off : Nat} {val : BitVec 64} : o.KeepsOut (execRegisterWrite off val s) :=
  .ite h.ctlWrite.next h.next

theorem execHostMemoryRead (h : o.Keeps s) {off len : Nat} : o.KeepsOut (execHostMemoryRead off len s) := h.same.next

theorem touchLines {pa : Nat} : ∀ (n : Nat) {s : State}, o.Keeps s → o.Keeps (s.touchLines pa n)
  | 0, _, h => h
  | n + 1, _, h => touchLines n h.touchHome

theorem scramble (h : o.Keeps s) {pa : Nat} : ∀ n : Nat, o.Keeps (s.scramble pa n)
  | 0 => h
  | n + 1 => by
    unfold State.scramble
    have w : ∀ a b, o.Keeps ((s.scramble pa n).writePA a b) := fun _ _ => (scramble h n).writePA
    exact (w _ _).same.ite (scramble h n)

theorem homeWrite (h : o.Keeps s) {pa : Nat} {bytes : List Byte} : o.Keeps (s.homeWrite pa bytes) := touchLines _ h.writePA

theorem execHostMemoryWrite (h : o.Keeps s) {off : Nat} {bytes : List Byte} : o.KeepsOut (execHostMemoryWrite off bytes s) :=
  .ite h.next (next (scramble h.homeWrite _))

/-! #### The command unit (26 R379, R380) -/

end State.Keeps

/-- What is kept by the machine of a command's answer, if the command does not wait. -/
def State.KeepsAnswer (s : State) (r : Option ((Nat × Nat) × State)) : Prop := ∀ p, r = some p → s.Keeps p.2

namespace State.KeepsAnswer

variable {o s : State}

theorem none (o : State) : o.KeepsAnswer none := fun _ e => nomatch e

theorem some {p : (Nat × Nat) × State} (h : o.Keeps p.2) : o.KeepsAnswer (some p) := fun _ e => Option.some.inj e ▸ h

theorem done1 (h : o.Keeps s) {st : Nat} : o.KeepsAnswer (done1 st s) := some h

theorem ite {c : Prop} [Decidable c] {a b : Option ((Nat × Nat) × State)} (ha : o.KeepsAnswer a) (hb : o.KeepsAnswer b) :
    o.KeepsAnswer (if c then a else b) := by
  split
  · exact ha
  · exact hb

end State.KeepsAnswer

namespace State.Keeps

variable {o s t : State}

theorem endCommand (h : o.Keeps s) {c : List Word} {r : Nat × Nat} : o.Keeps (s.endCommand c r) := by
  have w : o.Keeps (s.setCurrent false) := h.same
  exact w.setQueue.postOrHold

theorem command (h : o.Keeps s) {op : Nat} {f : List Word → State → Option ((Nat × Nat) × State)}
    (hf : ∀ c, o.KeepsAnswer (f c s)) : o.KeepsOut (s.command op f) := by
  unfold State.command
  split
  · exact h.next
  · rename_i c _
    refine .ite h.next (.ite h.endCommand.next ?_)
    split
    · exact h.same.next
    · rename_i r e
      exact (hf c r e).endCommand.next

theorem loadObject (h : o.Keeps s) {pa space base : Nat} : o.Keeps (loadObject pa space base s).2 := by
  unfold Machine.loadObject
  refine itePair h (itePair h (itePair h ?_))
  dsimp only
  split
  · exact h
  · exact itePair h (itePair h (itePair h (itePair h (flushAllL1I h.same))))

theorem execLoadObject (h : o.Keeps s) : o.KeepsOut (execLoadObject s) := h.command fun _ => .some h.loadObject

theorem execUnload (h : o.Keeps s) : o.KeepsOut (execUnload s) := by
  refine h.command fun c => ?_
  dsimp only
  split
  · exact .done1 h
  · exact .ite (.some h) (.done1 (flushAllL1I h.same))

theorem holdCore (h : o.Keeps s) {space : BitVec 16} {base n core : Nat} : o.Keeps (State.holdCore space base n s core) := by
  have w : o.Keeps (((s.ackBypass core).ackTarget core).settleStores core space base n) := h.ackBypass.ackTarget.settleStores
  unfold State.holdCore
  generalize (((s.ackBypass core).ackTarget core).settleStores core space base n) = u at *
  exact w.setCore

theorem shootdown (h : o.Keeps s) {space : BitVec 16} {base n : Nat} : o.Keeps (s.shootdown space base n) := by
  have w : o.Keeps (((s.cores.map (·.1)).foldl (State.holdCore space base n) s).flushRange space base n) :=
    (h.foldl _ fun _ h => h.holdCore).flushRange
  exact ((w.foldl _ fun _ h => h.setDie).foldl _ fun _ h => h.dropHome).foldl _ fun _ h => h.setDie

theorem execRangeHold (h : o.Keeps s) : o.KeepsOut (execRangeHold s) :=
  h.command fun _ => .ite (.done1 h) (.ite (.none _) (.done1 (shootdown h.same)))

theorem execRangeFree (h : o.Keeps s) : o.KeepsOut (execRangeFree s) :=
  h.command fun _ => .ite (.done1 h) (.done1 h.same)

theorem setSpace (h : o.Keeps s) {tag w : Nat} : o.Keeps (s.setSpace tag w) := h.same

theorem execSpaceUpdate (h : o.Keeps s) : o.KeepsOut (execSpaceUpdate s) :=
  h.command fun _ => .ite (.done1 h) (.ite (.none _) (.done1 h.shootdown.setSpace))

/-! #### Answers of the host to faults (05 R113) -/

theorem retryHart (h : o.Keeps s) {die : Nat} {f : HostFault} {key : Nat} : o.Keeps (State.retryHart die f s key) := by
  unfold State.retryHart
  have w : ∀ x, o.Keeps (s.setHart key x) := fun _ => h.setHart
  split
  · exact h
  · dsimp only
    split
    · exact w _
    · exact ite (ite (getD (w _).goBack (w _).setHart) (w _).setHart) (w _)

theorem replayPage (h : o.Keeps s) {die : Nat} {f : HostFault} {core : Nat} : o.Keeps (State.replayPage die f s core) :=
  h.setCore

theorem execResolveRetry (h : o.Keeps s) : o.KeepsOut (execResolveRetry s) := by
  unfold Machine.execResolveRetry
  split
  · exact h.next
  · refine .ite h.next (h.command fun c => ?_)
    dsimp only
    split
    · exact .done1 h
    · rename_i f _
      have w : ∀ die (keys : List Nat), o.Keeps (keys.foldl (State.retryHart die f) (s.dropFault die f.id)) :=
        fun _ keys => (h.setDie).foldl keys fun _ h => h.retryHart
      refine .ite (.done1 h) (.done1 (foldl ?_ _ fun _ h => h.replayPage))
      exact (w _ _).same

theorem failRequester (h : o.Keeps s) {r : Requester} : o.Keeps (s.failRequester r) := by
  unfold State.failRequester
  split
  · exact h.endDomain
  · exact h

theorem execResolveFail (h : o.Keeps s) : o.KeepsOut (execResolveFail s) := by
  unfold Machine.execResolveFail
  split
  · exact h.next
  · refine .ite h.next (h.command fun c => ?_)
    dsimp only
    split
    · exact .done1 h
    · refine .done1 (foldl (foldl (setDie ?_) _ fun _ h => h.failRequester) _ fun _ h => h.setCore)
      exact h.same

/-! #### Other commands, and the unit's turn -/

theorem execEndRegion (h : o.Keeps s) : o.KeepsOut (execEndRegion s) := h.command fun _ => .ite (.done1 h.endByHost) (.done1 h)

theorem execSetSavePool (h : o.Keeps s) : o.KeepsOut (execSetSavePool s) :=
  h.command fun _ => .ite (.done1 h) (.ite (.done1 h) (.done1 h.same))

theorem execAttest (h : o.Keeps s) : o.KeepsOut (execAttest s) := h.command fun _ => .ite (.done1 h) (.done1 h.homeWrite)

theorem execProtect (h : o.Keeps s) : o.KeepsOut (execProtect s) :=
  h.command fun _ => .ite (.done1 h) (.ite (.done1 h) (.done1 h.same))

theorem commandTurn (h : o.Keeps s) : o.KeepsOut s.commandTurn := by
  unfold State.commandTurn
  split
  · exact h.next
  · exact .ite h.execLoadObject (.ite h.execUnload (.ite h.execRangeHold (.ite h.execRangeFree (.ite h.execSpaceUpdate
      (.ite (.ite h.execResolveFail h.execResolveRetry) (.ite h.execEndRegion (.ite h.execSetSavePool
      (.ite h.execAttest (.ite h.execProtect h.endCommand.next)))))))))

/-! #### Reset, bring-up and links (27 R385 to R388) -/

theorem bootFails (h : o.Keeps s) {berr : Nat} : o.Keeps (s.bootFails berr) := by
  have w : o.Keeps (s.choose 4).2 := h.choose
  exact w.same

theorem execImageVerifyComplete (h : o.Keeps s) : o.KeepsOut (execImageVerifyComplete s) :=
  .ite h.next (.ite h.bootFails.next (.ite h.bootFails.next (.ite h.bootFails.next h.same.next)))

theorem execGddrTrainingComplete (h : o.Keeps s) {ok : Bool} : o.KeepsOut (execGddrTrainingComplete ok s) :=
  .ite h.next (.ite h.same.next h.bootFails.next)

theorem shootAll (h : o.Keeps s) : o.Keeps s.shootAll := h.foldl _ fun _ h => h.shootdown

theorem linkDown (h : o.Keeps s) {j : Nat} : o.Keeps (s.linkDown j) := by
  have w : o.Keeps (s.setLink j { up := false, failures := 0 }) := h.same
  exact w.choose.logEvent.ite h

theorem execLinkBringup (h : o.Keeps s) {link : Nat} : o.KeepsOut (execLinkBringup link s) := .ite h.same.next h.next

theorem execLinkFlitReceive (h : o.Keeps s) {link : Nat} {ok : Bool} : o.KeepsOut (execLinkFlitReceive link ok s) :=
  .ite h.next (.ite h.same.next (.ite h.linkDown.next h.same.next))

theorem execPeerRequest (h : o.Keeps s) {req : PeerReq} : o.KeepsOut (execPeerRequest req s) := by
  cases req with
  | read pa len => exact .ite h.same.next h.same.next
  | write pa bytes => exact .ite h.homeWrite.next h.next
  | atomic op w pa v c =>
    refine .ite ?_ h.same.next
    dsimp only
    split
    · exact next (same h.homeWrite)
    · exact h.same.next

end State.Keeps

/-! ### The machine after reset -/

theorem memoriesCanonical_reset : memoriesCanonical State.reset := ⟨rfl, fun _ => rfl⟩

theorem oneHartPerSlot_reset : oneHartPerSlot State.reset := .nil

theorem cachesFormed_reset : cachesFormed State.reset := ⟨fun _ => formedCache_nil, fun _ => formedCache_nil⟩

namespace State.Keeps

variable {o s t : State}

/-- A device reset takes every unit back to where reset leaves it, with a device memory in canonical form. -/
theorem resetUnits (hm : memoriesCanonical o → t.mem.wf = true) (hh : t.harts = State.reset.harts := by rfl)
    (hc : t.cores = State.reset.cores := by rfl) (hk : t.clusters = State.reset.clusters := by rfl) : o.Keeps t := by
  have u : State.reset.Keeps { t with mem := State.reset.mem } := (refl _).same rfl hh hc hk
  exact ⟨fun m => ⟨hm m, (u.memories memoriesCanonical_reset).2⟩, fun _ => u.slots oneHartPerSlot_reset,
    fun _ => u.caches cachesFormed_reset⟩

/-- The ciphertext that a reset leaves in a memory's protected ranges. -/
theorem sealed_wf (hm : s.mem.wf = true) : s.sealed.wf = true := by
  unfold State.sealed
  generalize s.sts.prot = l
  induction l generalizing s with
  | nil => exact hm
  | cons p l ih => exact ih (Memory.wf_write _ _ hm)

theorem execDeviceReset (h : o.Keeps s) : o.KeepsOut (execDeviceReset s) :=
  next (resetUnits fun m => sealed_wf (h.memories m).1)

/-- Every core and every cluster is emptied of what it caches. -/
theorem emptied (h : o.Keeps s) (hm : s.mem.wf = true → t.mem.wf = true) (hh : t.harts = s.harts)
    (hc : t.cores = s.cores.map fun c => (c.1, c.2.emptied))
    (hk : t.clusters = s.clusters.map fun c => (c.1, { l2 := [], wbq := [] })) : o.Keeps t := by
  have core (k : Nat) : t.core k = ((aget s.cores k).map Core.emptied).getD Core.reset := by
    rw [← aget_map, ← hc]
    rfl
  have cluster (k : Nat) : t.cluster k = ((aget s.clusters k).map fun _ => { l2 := [], wbq := [] }).getD Cluster.reset := by
    rw [← aget_map, ← hk]
    rfl
  refine ⟨fun m => ⟨hm (h.memories m).1, fun k => ?_⟩, fun p => ?_, fun _ => ⟨fun k => ?_, fun k => ?_⟩⟩
  · have w : ((aget s.cores k).getD Core.reset).sp.wf = true := (h.memories m).2 k
    rw [core]
    cases e : aget s.cores k with
    | none => rfl
    | some c =>
      rw [e] at w
      exact w
  · exact (congrArg (fun l => (l.map (·.1)).Pairwise (· < ·)) hh).mpr (h.slots p)
  · rw [core]
    cases aget s.cores k with
    | none => exact formedCache_nil
    | some c => exact formedCache_nil
  · rw [cluster]
    cases aget s.clusters k with
    | none => exact formedCache_nil
    | some c => exact formedCache_nil

theorem execFullServiceChange (h : o.Keeps s) : o.KeepsOut (execFullServiceChange s) :=
  .ite (next (h.shootAll.emptied (Memory.wf_filter _) rfl rfl rfl)) h.next

/-! #### Packets and placement (09 R166 to R172) -/

theorem refusePacket (h : o.Keeps s) {q : Nat} {p : Packet} {code : Nat} : o.Keeps (s.refusePacket q p code) :=
  complete (h.ite h.blkSet.blkSet)

theorem acceptPacket (h : o.Keeps s) {q : Nat} {p : Packet} {f : Fields} : o.Keeps (s.acceptPacket q p f) := by
  unfold State.acceptPacket
  dsimp only
  generalize hu : s.setPA _ _ _ = u
  have w : o.Keeps u := hu ▸ h.setPA
  refine showChildren ?_
  exact w.same

theorem takePacket (h : o.Keeps s) {q : Nat} : o.Keeps (s.takePacket q) := by
  unfold State.takePacket
  dsimp only
  generalize hu : s.setQueue _ _ = u
  have w : o.Keeps u := hu ▸ h.setQueue
  have v : o.Keeps { u with fe := { u.fe with rr := (q + 1) % 16 } } := w.same
  generalize { u with fe := { u.fe with rr := (q + 1) % 16 } } = x at *
  exact ite v.acceptPacket v.refusePacket

theorem execLaunchPacketTake (h : o.Keeps s) {q : Nat} : o.KeepsOut (execLaunchPacketTake q s) := .ite h.takePacket.next h.next

theorem execLaunchAging (h : o.Keeps s) {idx cycles : Nat} : o.KeepsOut (execLaunchAging idx cycles s) := h.same.next

theorem takeAreas {n : Nat} : ∀ (k : Nat) {s : State} {r : List Nat × State}, o.Keeps s →
    s.takeAreas n k = some r → o.Keeps r.2
  | 0, _, _, h, e => by
    cases e
    exact h
  | k + 1, s, r, h, e => by
    unfold State.takeAreas at e
    split at e
    · cases e
    · obtain ⟨q, hq, rfl⟩ := Option.map_eq_some_iff.1 e
      refine takeAreas (r := q) k ?_ hq
      exact h.same

theorem prepareCore (h : o.Keeps s) {f : Fields} {core : Nat} : o.Keeps (State.prepareCore f s core) := by
  have w : o.Keeps { s with free := s.free + 1 } := h.same
  unfold State.prepareCore
  refine acquireSteps (w.setSp ?_)
  exact Memory.wf_write _ _

theorem startHarts {l : Launch} : ∀ (ps : List ((Nat × Nat) × Nat)) {s : State} {i : Nat}, o.Keeps s →
    o.Keeps (State.startHarts l s i ps)
  | [], _, _, h => h
  | _ :: t, _, _, h => startHarts t h.setHart

theorem place (h : o.Keeps s) {l : Launch} {cores areas : List Nat} : o.Keeps (s.place l cores areas) := by
  have w : ∀ spots, o.Keeps (State.startHarts l (cores.foldl (State.prepareCore l.f) s) 0 spots) :=
    fun spots => startHarts spots (h.foldl _ fun _ h => h.prepareCore)
  unfold State.place
  dsimp only
  generalize hu : State.blkSet _ l.f.blk 171 168 2 = u
  have v : o.Keeps u := hu ▸ (w _).blkSet.blkSet
  exact v.same

theorem execLaunchPlacement (h : o.Keeps s) : o.KeepsOut (execLaunchPlacement s) := by
  unfold Machine.execLaunchPlacement
  split
  · exact h.next
  · refine .ite h.next ?_
    split
    · rename_i e
      unfold State.placement at e
      split at e
      · rename_i hr
        cases e
        exact (takeAreas _ h hr).place.next
      · cases e
    · exact h.next

/-! #### Pre-emption, saving and restoring (09 R172, 10 R192 to R197) -/

/-- Harts change and keep their slots. -/
theorem mapHarts (h : o.Keeps s) {f : Nat × Hart → Nat × Hart} (hf : ∀ q, (f q).1 = q.1) :
    o.Keeps { s with harts := s.harts.map f } := by
  refine h.withHarts fun p => ?_
  have e : (s.harts.map f).map (·.1) = s.harts.map (·.1) := by simp [hf]
  exact e ▸ p

theorem drainRegion (h : o.Keeps s) {blk : Nat} : o.Keeps (s.drainRegion blk) := by
  refine h.mapHarts fun q => ?_
  split <;> rfl

theorem execPreemption (h : o.Keeps s) {blk : Nat} : o.KeepsOut (execPreemption blk s) := by
  unfold Machine.execPreemption
  split
  · exact h.next
  · exact .ite h.next (.ite h.drainRegion.next h.next)

theorem poisonWords (h : o.Keeps s) {pa mask : Nat} : o.Keeps (s.poisonWords pa mask) := h.same

theorem writeImages {area : Nat} : ∀ (es : List SbEntry) {k : Nat} {s : State}, o.Keeps s →
    o.Keeps (State.writeImages area k es s)
  | [], _, _, h => h
  | _ :: t, _, _, h => by
    unfold State.writeImages
    exact writeImages t h.setPA.setPA.poisonWords

theorem saveV {area vbytes : Nat} : ∀ (rs : List VReg) {j : Nat} {s : State}, o.Keeps s →
    o.Keeps (State.saveV area vbytes j rs s)
  | [], _, _, h => h
  | _ :: t, _, _, h => saveV t (h.setPA.ite h)

theorem saveK {area : Nat} : ∀ (rs : List KReg) {j : Nat} {s : State}, o.Keeps s → o.Keeps (State.saveK area j rs s)
  | [], _, _, h => h
  | _ :: t, _, _, h => saveK t (h.setPA.ite h)

theorem saveRegs (h : o.Keeps s) {g : Hart} {vbytes : Nat} : o.Keeps (s.saveRegs g vbytes) :=
  saveK _ (saveV _ (foldl h.writePA.setPA.writePA _ fun _ h => h.setPA).writePA.writePA.setPA)

theorem saveFail (h : o.Keeps s) {g : Hart} {core slot : Nat} : o.Keeps (s.saveFail g core slot) := by
  unfold State.saveFail
  split
  · exact h
  · exact h.setPA.writePA

/-- A hart that has been written out is taken away. -/
theorem saveHart (h : o.Keeps s) {core slot : Nat} {g : Hart} {asleep : Bool} : o.Keeps (s.saveHart core slot g asleep) := by
  unfold State.saveHart
  dsimp only
  generalize hu : State.writeImages _ _ _ _ = u
  have v : o.Keeps u := hu ▸ writeImages _ h.setPA.saveRegs.saveFail
  have w : o.Keeps (u.setCore core { u.core core with sb := (u.core core).sb.filter fun e => e.slot ≠ slot }) := v.setCore
  exact w.withoutHart rfl

theorem deferredAtSave (h : o.Keeps s) {key : Nat} {g : Hart} {asleep : Bool} : o.Keeps (s.deferredAtSave key g asleep) := by
  have w : ∀ x, o.Keeps (Machine.takeDeferred { s.setHart key x with cur := key }) := fun x =>
    takeDeferred ((h.setHart (k := key) (x := x)).same)
  unfold State.deferredAtSave
  dsimp only
  split
  · exact (w _).setHart.same
  · exact (w _).same

theorem execContextSave (h : o.Keeps s) {core slot : Nat} : o.KeepsOut (execContextSave core slot s) := by
  unfold Machine.execContextSave
  dsimp only
  split
  · exact h.next
  · rename_i g _
    split
    · generalize hr : (s.core core).settleFollows slot g.settle = r
      have hp : r.1.sp = (s.core core).sp ∧ r.1.l1 = (s.core core).l1 := hr ▸ ⟨rfl, rfl⟩
      have w : o.Keeps ((((s.setCore core r.1).setHart (hkey core slot) r.2).ackBypass core).ackTarget core) :=
        (h.setCore hp.1 hp.2).setHart.ackBypass.ackTarget
      generalize (((s.setCore core r.1).setHart (hkey core slot) r.2).ackBypass core).ackTarget core = u at *
      exact .ite h.next (.ite w.deferredAtSave.next w.saveHart.next)
    · exact h.next

end State.Keeps

theorem Core.addEntries_only (es : List SbEntry) (c : Core) : c.spOnly (c.addEntries es) := by
  induction es generalizing c with
  | nil => exact c.spOnly_refl
  | cons e t ih =>
    unfold Core.addEntries
    split
    · refine Core.spOnly_trans ?_ (ih _)
      exact ⟨id, rfl⟩
    · exact c.spOnly_refl

namespace State.Keeps

variable {o s t : State}

theorem restoreHart (h : o.Keeps s) {q : SavedHart} : o.Keeps (s.restoreHart q) := by
  unfold State.restoreHart
  dsimp only
  split
  · exact h.endDomain
  · split
    · exact h.endDomain
    · generalize hv : ({ s with fe := { s.fe with saved := s.fe.saved.filter fun p => p ≠ q } } : State) = v
      have w : o.Keeps v := hv ▸ h.same
      have c : s.core q.core = v.core q.core := hv ▸ rfl
      rw [c]
      have u : ∀ es x, o.Keeps ((v.setCore q.core ((v.core q.core).addEntries es)).setHart (hkey q.core q.slot) x) :=
        fun es x => (w.setSpOnly (Core.addEntries_only es _)).setHart
      split
      · exact withCur (takeTrapAs (withCur (u _ _)))
      · split
        · exact u _ _
        · exact (u _ _).setHart

theorem execContextRestore (h : o.Keeps s) {core slot : Nat} : o.KeepsOut (execContextRestore core slot s) := by
  unfold Machine.execContextRestore
  split
  · exact h.next
  · exact .ite h.next h.restoreHart.next

theorem execArbiterEpoch (h : o.Keeps s) {die : Nat} {demand : List Nat} : o.KeepsOut (execArbiterEpoch die demand s) := by
  have w : ∀ (cs : List Nat) (q : Nat → Nat),
      o.Keeps (cs.foldl (fun (s : State) c => s.setCore c { s.core c with q := q c, worked := 0 }) s) :=
    fun cs q => h.foldl cs fun _ h => h.setCore
  exact next (ite (w _ _).setDie (w _ _))

/-! #### Tacks (08 R158 to R162) -/

theorem pushTack (h : o.Keeps s) {blk record : Nat} : o.Keeps (s.pushTack blk record) := h.setPA.blkSet

theorem pushOrWait (h : o.Keeps s) {record : Nat} {owed : Option Nat} {g : Hart} : o.Keeps (pushOrWait record owed g s) :=
  h.setMe.ite h.pushTack.setMe

theorem readRecord (h : o.Keeps s) {a : Acc} {e : FilterEntry} {va n : Nat} : o.Keeps (readRecord a e va n s).state :=
  (iteRes h h.performAtomic).bind fun _ h => iteRes h h

theorem tackCell (h : o.Keeps s) {rw : Rw} {va n align : Nat} {f : Nat → Option Nat} {g : Hart} :
    o.Keeps (tackCell rw va n align f g s).state := by
  unfold Machine.tackCell
  dsimp only
  refine iteRes h (iteRes h (h.present.bind fun e h => ?_))
  split
  · exact h
  · exact iteRes h.atomicCell h.readRecord

theorem execSpawn (h : o.Keeps s) {g : GIx} {a : XIx} : o.KeepsOut (execSpawn g a s) := by
  unfold Machine.execSpawn
  refine .withHart fun x => ?_
  dsimp only
  split
  · exact h.trapOut
  · exact finish (h.release.bind fun _ h => h.pushOrWait.ok)

theorem execJoin (h : o.Keeps s) : o.KeepsOut (execJoin s) := by
  unfold Machine.execJoin
  refine .withHart fun x => ?_
  dsimp only
  split
  · exact h.pushOrWait.next
  · refine .ite h.setMe.next (finish (bind ?_ fun q h => ?_))
    · split
      · exact h
      · exact h.tackCell
    · refine iteRes h.setMe.setMe.ok (h.setMe.release.bind fun _ h => h.tackCell.bind fun _ h => ?_)
      exact iteRes h (iteRes h.pushOrWait.ok h.setMe.ok)

theorem popTack (h : o.Keeps s) {g : Hart} : o.Keeps (popTack g s).state := by
  unfold Machine.popTack
  exact h.fenceAcquire.tackCell.bind fun _ h => iteRes h h.blkSet.setMe

theorem endT (h : o.Keeps s) {g : Hart} : o.KeepsOut (endT g s) := by
  unfold Machine.endT
  dsimp only
  refine .ite (.ite ?_ h.setMe.next) (.ite h.releaseSteps.retireHart.next h.setMe.next)
  have w : ∀ x, o.Keeps (Machine.popTack x (s.setMe x)).state := fun _ => h.setMe.popTack
  split
  all_goals rename_i e
  · exact ((w _).at_ok e).next
  · exact ((w _).at_stop e).trapOut
  · exact ((w _).at_stop e).next

theorem execEndt (h : o.Keeps s) : o.KeepsOut (execEndt s) := .withHart fun _ => h.endT

theorem execTackPop (h : o.Keeps s) {core slot : Nat} : o.KeepsOut (execTackPop core slot s) := by
  unfold Machine.execTackPop
  dsimp only
  split
  · exact h.next
  · exact .ite (h.asHart fun h => h.endT) h.next

theorem ringRetry (h : o.Keeps s) {core slot : Nat} : o.KeepsOut (ringRetry core slot s) := by
  unfold Machine.ringRetry
  dsimp only
  split
  · exact h.next
  · split
    · exact h.asHart fun h => h.pushOrWait.next
    · exact h.next

theorem execRingFullDeadlock (h : o.Keeps s) {blk : Nat} : o.KeepsOut (execRingFullDeadlock blk s) := by
  unfold Machine.execRingFullDeadlock
  dsimp only
  split
  · exact .ite h.endDomain.next h.next
  · exact h.next

/-! #### Steps of the memory side -/

theorem execLoadComplete (h : o.Keeps s) {core slot : Nat} : o.KeepsOut (execLoadComplete core slot s) := by
  unfold Machine.execLoadComplete
  split
  · exact h.next
  · split
    · exact h.next
    · exact h.setHart.next

theorem execMatrixComplete (h : o.Keeps s) {core slot : Nat} : o.KeepsOut (execMatrixComplete core slot s) := by
  unfold Machine.execMatrixComplete
  split
  · exact h.next
  · split
    · exact h.next
    · exact h.setHart.next

theorem execWalkComplete (h : o.Keeps s) {core : Nat} {space : BitVec 16} {va : Nat} :
    o.KeepsOut (execWalkComplete core space va s) := by
  refine .ite h.next ?_
  have w : o.Keeps (s.translate (dieOf core) space va .read false).2 := h.translate
  split
  all_goals
    rename_i e
    rw [e] at w
  · refine .ite h.next ?_
    dsimp only
    split
    · rename_i hq
      exact (confirmedFill (choose w) hq).next
    · exact h.next
  · exact .ite h.next w.fillFilter.next
  · dsimp only
    split
    · rename_i hq
      exact (hostFault (choose w) hq).next
    · exact w.next

theorem putEntries (h : o.Keeps s) {core : Nat} {es : List SbEntry} {f : SbEntry → SbEntry} :
    o.Keeps (s.putEntries core es f) := h.setCore

theorem execProbeAcknowledgement (h : o.Keeps s) {core : Nat} {space : BitVec 16} {va : Nat} :
    o.KeepsOut (execProbeAcknowledgement core space va s) := by
  unfold Machine.execProbeAcknowledgement
  split
  · exact h.next
  · rename_i e es _
    refine .ite h.next ?_
    have w : o.Keeps (s.probe core space e.va e.user).2 := h.probe
    split
    · rename_i e
      rw [e] at w
      exact w.putEntries.acknowledge.next
    · exact h.next

theorem execProbeRefusal (h : o.Keeps s) {core : Nat} {space : BitVec 16} {va : Nat} :
    o.KeepsOut (execProbeRefusal core space va s) := by
  unfold Machine.execProbeRefusal
  split
  · exact h.next
  · rename_i e es _
    refine .ite h.next ?_
    have w : o.Keeps (s.probe core space e.va e.user).2 := h.probe
    have refuse : ∀ {u} inner wres level, o.Keeps u →
        o.KeepsOut (match u.hostFault core e.slot space e.va wres level 1 true with
        | none => .next u
        | some (id, u) => .next (u.putEntries core (e :: es) fun q =>
            { q with state := .faulted, inner := inner, wres := wres, level := level, hostq := id })) := by
      intro u inner wres level h
      split
      · exact h.next
      · rename_i hq
        exact (hostFault h hq).putEntries.next
    dsimp only
    split
    all_goals
      rename_i e
      rw [e] at w
    · exact h.next
    · exact h.next
    · exact refuse _ _ _ w
    · exact refuse _ _ _ w

theorem execStoreBufferDrain (h : o.Keeps s) {core idx : Nat} : o.KeepsOut (execStoreBufferDrain core idx s) := by
  unfold Machine.execStoreBufferDrain
  dsimp only
  split
  · exact h.next
  · exact .ite h.drainGroup.next h.next

theorem execDeferredStoreTrap (h : o.Keeps s) {core slot : Nat} : o.KeepsOut (execDeferredStoreTrap core slot s) := by
  unfold Machine.execDeferredStoreTrap
  dsimp only
  split
  · exact h.next
  · exact .ite h.next (h.asHart fun h => .ite h.takeDeferred.next h.next)

theorem execFaultEntryPost (h : o.Keeps s) {die : Nat} : o.KeepsOut (execFaultEntryPost die s) := by
  refine .ite h.next ?_
  dsimp only
  split
  · exact h.next
  · exact .ite h.setDie.post.next h.next

/-! #### Caches and errors (03 R46 to R52, R61) -/

theorem execCacheFill (h : o.Keeps s) {core : Nat} : o.KeepsOut (execCacheFill core s) := by
  unfold Machine.execCacheFill
  dsimp only
  split
  · exact h.next
  · rename_i f t _
    refine .ite h.next ?_
    have w : o.Keeps (s.setCore core { s.core core with fills := t }) := h.setCore
    have u : ∀ a c, o.Keeps (Machine.fillL1 a c (s.setCore core { s.core core with fills := t })).state := fun _ _ => w.fillL1
    split
    all_goals rename_i e
    · exact ((u _ _).at_ok e).next
    · exact h.next
    · exact w.next

theorem execEviction (h : o.Keeps s) {level : Level} {unit : Nat} {space : BitVec 16} {addr : Nat} :
    o.KeepsOut (execEviction level unit space addr s) := by
  cases level
  all_goals
    unfold Machine.execEviction
    dsimp only
  · split
    · exact h.next
    · exact next (h.setL1 (formedCache_filter _))
  · split
    · exact h.next
    · exact next (h.setL2 (formedCache_filter _))
  · exact h.dropHome.next

theorem execWriteBackMerge (h : o.Keeps s) {level : Level} {unit : Nat} : o.KeepsOut (execWriteBackMerge level unit s) := by
  cases level
  all_goals
    unfold Machine.execWriteBackMerge
    dsimp only
  · split
    · exact h.next
    · exact h.setCore.writeBackL2.next
  · split
    · exact h.next
    · exact h.setCluster.writeBackHome.next
  · exact h.next

theorem execBypassWriteAck (h : o.Keeps s) {core : Nat} : o.KeepsOut (execBypassWriteAck core s) := by
  unfold Machine.execBypassWriteAck
  dsimp only
  split
  · exact h.next
  · exact h.setCore.performSent.next

theorem execTargetAcknowledgement (h : o.Keeps s) {core : Nat} : o.KeepsOut (execTargetAcknowledgement core s) := by
  unfold Machine.execTargetAcknowledgement
  dsimp only
  split
  · exact h.next
  · exact h.setCore.performSent.next

theorem execNameRecall (h : o.Keeps s) {die idx : Nat} : o.KeepsOut (execNameRecall die idx s) := by
  refine .ite h.next ?_
  split
  · exact h.next
  · exact h.recallName.next

theorem countUncorrectable (h : o.Keeps s) {die pa : Nat} : o.Keeps (s.countUncorrectable die pa) := h.same

end State.Keeps

theorem Frame.formed.wordError {f : Frame} (va : Nat) (h : f.formed) : (f.wordError va).formed := by
  unfold Frame.wordError
  dsimp only
  split
  · exact h.setRow _ _
  · exact ⟨(Frame.trim_rows_length _).trans (h.setRow _ _).1, h.2⟩

namespace State.Keeps

variable {o s t : State}

/-- A word of a cache's frame takes an error. -/
theorem wordError_formed {c : Cache} {space : BitVec 16} {addr : Nat} {f : Frame} (e : Cache.find c space addr = some f)
    (hc : formedCache c) : formedCache (Cache.replace c (f.wordError addr)) :=
  formedCache_replace (Frame.formed.wordError _ (hc.2 f (Cache.mem_of_find e))) hc

theorem errorAt (h : o.Keeps s) {p : EccPlace} {unit : Nat} {space : BitVec 16} {addr : Nat} :
    o.KeepsSome (s.errorAt p unit space addr) := by
  intro t e
  cases p
  all_goals
    unfold State.errorAt at e
    dsimp only at e
  case l1 =>
    obtain ⟨f, hf, rfl⟩ := Option.map_eq_some_iff.1 e
    exact h.setL1 (wordError_formed hf)
  case l2 =>
    obtain ⟨f, hf, rfl⟩ := Option.map_eq_some_iff.1 e
    exact h.setL2 (wordError_formed hf)
  case l1i =>
    obtain ⟨f, -, rfl⟩ := Option.map_eq_some_iff.1 e
    exact h.setCore
  case metadata =>
    obtain ⟨f, -, rfl⟩ := Option.map_eq_some_iff.1 e
    exact h.setCore
  case home =>
    split at e
    · cases e
    · split at e <;> cases e
      all_goals exact h.same
  case scratchpad =>
    split at e <;> cases e
    exact h.setCore
  case storeBuffer =>
    obtain ⟨f, -, rfl⟩ := Option.map_eq_some_iff.1 e
    exact h.putEntries
  case indexScratchpad =>
    obtain ⟨f, -, rfl⟩ := Option.map_eq_some_iff.1 e
    exact h.setCore

theorem execEccError (h : o.Keeps s) {place : EccPlace} {unit : Nat} {space : BitVec 16} {addr : Nat} {fixable : Bool} :
    o.KeepsOut (execEccError place unit space addr fixable s) := by
  unfold Machine.execEccError
  split
  · exact h.next
  · rename_i t e
    have w : o.Keeps t := h.errorAt t e
    refine .ite h.same.next ?_
    split
    · exact w.countUncorrectable.next
    · exact w.choose.countUncorrectable.next

/-- Every instruction and every step of the device keeps the forms. -/
theorem exec (h : o.Keeps s) (i : Instr) : o.KeepsOut (exec i s) := by
  cases i
  all_goals unfold Machine.exec
  case add | sub | and | or | xor | sll | srl | sra | slt | sltn | min | max | minn | maxn | mul | mulh | mulhn | clz
      | ctz | popc | addi | andi | ori | xori | slti | sltin | slli | srli | srai | lih | addpc | mfg => exact
      h.writeX
  case div | divn | rem | remn => exact h.division
  case ldb | ldh | ldw | ldd | ldbn | ldhn | ldwn => exact h.load
  case stb | sth | stw | std => exact h.store
  case amoadd | amoand | amoor | amoxor | amomin | amomax | amominn | amomaxn | amoswp | amocas => exact h.amo
  case amofadd => exact h.execAmofadd
  case beq | bne | blt | bge | bltn | bgen => exact h.branch
  case jal => exact h.execJal
  case jalr => exact h.execJalr
  case mfc => exact h.execMfc
  case mtc => exact h.execMtc
  case mtg => exact h.execMtg
  case trap => exact h.execTrap
  case brk => exact h.execBrk
  case rts => exact h.execRts
  case fence => exact h.execFence
  case waitc => exact h.execWaitc
  case waita | waitaAny => exact h.waita
  case bar => exact h.execBar
  case vsetl => exact h.execVsetl
  case vtag => exact h.execVtag
  case vand | vor | vxor | vnot | vshl | vshr | vshra | vmov | vsplat | vslu | vsld | vperm | vrev | vidx => exact
      h.codes
  case vwsl | vwsr | vfsl | vfsr => exact h.bitString
  case vsel => exact h.execVsel
  case vmvx => exact h.execVmvx
  case vmxv => exact h.execVmxv
  case vmcnt | vmfst => exact h.maskCount
  case vrand | vror | vrxor => exact h.logicReduce
  case vcmp => exact h.execVcmp
  case vbany | vbnone => exact h.maskBranch
  case vadd | vsub | vrsub | vmul | vmulh | vdiv | vrem | vmin | vmax | vabs | vneg | vfma | vfms | vfnma | vfnms =>
      exact h.arith
  case vsqrt | vrcp | vrsq | vexp2 | vlog2 | vsin | vcos | vtanh => exact h.special
  case vrsum | vrmin | vrmax | vrdot => exact h.reduction
  case vunpk => exact h.execVunpk
  case vpkb => exact h.execVpkb
  case vlut => exact h.execVlut
  case vexpd | vcmpr => exact h.moveRun
  case kmov => exact h.execKmov
  case vcvt => exact h.execVcvt
  case vqmx => exact h.execVqmx
  case vdqmx => exact h.execVdqmx
  case vqef => exact h.execVqef
  case vld | vlds | vld2 | vldx | vldf => exact h.loadForm
  case vst | vsts | vst2 | vstx => exact h.storeForm
  case vldw => exact h.execVldw
  case vstw => exact h.execVstw
  case vamoadd | vamomin | vamomax | vamoand | vamoor | vamoxor | vamoswp | vamofadd => exact h.vamo
  case kld => exact h.execKld
  case kst => exact h.execKst
  case vpf => exact h.execVpf
  case spld => exact h.execSpld
  case spst => exact h.execSpst
  case sxins | sxacc => exact h.sxUpdate
  case sxlkp => exact h.execSxlkp
  case sxdrn => exact h.execSxdrn
  case sxclr => exact h.execSxclr
  case mshape => exact h.execMshape
  case mma | mmas => exact h.matrix
  case mlast => exact h.execMlast
  case xcp => exact h.execXcp
  case xcpm => exact h.execXcpm
  case xchain => exact h.execXchain
  case xstat => exact h.execXstat
  case spawn => exact h.execSpawn
  case join => exact h.execJoin
  case endt => exact h.execEndt
  case tackPop => exact h.execTackPop
  case waitaWake => exact h.execWaitaWake
  case barrierDepart => exact h.execBarrierDepart
  case ringFullDeadlock => exact h.execRingFullDeadlock
  case loadComplete => exact h.execLoadComplete
  case matrixComplete => exact h.execMatrixComplete
  case followOnIssue => exact h.execFollowOnIssue
  case followOnComplete => exact h.execFollowOnComplete
  case copyAcquire => exact h.execCopyAcquire
  case copyTransfer => exact h.execCopyTransfer
  case copyRelease => exact h.execCopyRelease
  case eyeletWrite => exact h.execEyeletWrite
  case chainRecordRead => exact h.execChainRecordRead
  case walkComplete => exact h.execWalkComplete
  case probeAcknowledgement => exact h.execProbeAcknowledgement
  case probeRefusal => exact h.execProbeRefusal
  case faultEntryPost => exact h.execFaultEntryPost
  case storeBufferDrain => exact h.execStoreBufferDrain
  case deferredStoreTrap => exact h.execDeferredStoreTrap
  case cacheFill => exact h.execCacheFill
  case eviction => exact h.execEviction
  case writeBackMerge => exact h.execWriteBackMerge
  case bypassWriteAck => exact h.execBypassWriteAck
  case nameRecall => exact h.execNameRecall
  case eccError => exact h.execEccError
  case faultDomainEnd => exact h.execFaultDomainEnd
  case launchPacketTake => exact h.execLaunchPacketTake
  case launchPlacement => exact h.execLaunchPlacement
  case launchAging => exact h.execLaunchAging
  case preemption => exact h.execPreemption
  case contextSave => exact h.execContextSave
  case contextRestore => exact h.execContextRestore
  case regionRetire => exact h.execRegionRetire
  case arbiterEpoch => exact h.execArbiterEpoch
  case queueDoorbell => exact h.writeTail.next
  case queueHeadWrite => exact h.writeHead.next
  case queueErrClear => exact h.clearErr.next
  case queueEnable => exact h.writeEn.next
  case registerWrite => exact h.execRegisterWrite
  case hostMemoryRead => exact h.execHostMemoryRead
  case hostMemoryWrite => exact h.execHostMemoryWrite
  case deviceReset => exact h.execDeviceReset
  case bootDoorbell => exact h.ringBoot.next
  case imageVerifyComplete => exact h.execImageVerifyComplete
  case gddrTrainingComplete => exact h.execGddrTrainingComplete
  case fullServiceChange => exact h.execFullServiceChange
  case linkBringup => exact h.execLinkBringup
  case linkFlitReceive => exact h.execLinkFlitReceive
  case peerRequest => exact h.execPeerRequest
  case linkFailure => exact h.linkDown.next
  case targetAcknowledgement => exact h.execTargetAcknowledgement
  case loadObject => exact h.execLoadObject
  case unload => exact h.execUnload
  case rangeHold => exact h.execRangeHold
  case rangeFree => exact h.execRangeFree
  case spaceUpdate => exact h.execSpaceUpdate
  case resolveRetry => exact h.execResolveRetry
  case resolveFail => exact h.execResolveFail
  case endRegion => exact h.execEndRegion
  case setSavePool => exact h.execSetSavePool
  case attest => exact h.execAttest
  case protect => exact h.execProtect

end State.Keeps

/-! ### A turn and a step -/

/-- What a turn comes to keeps the forms: the machine at which it runs an instruction, or the outcome that it has already. -/
def State.KeepsSelected (s : State) : Selected → Prop
  | .run _ t => s.Keeps t
  | .settled r => s.KeepsOut r

namespace State.Keeps

variable {o s t : State}

theorem fetch (h : o.Keeps s) {g : Hart} : o.Keeps (fetch g s).state := by
  refine h.checkReq.bind fun c h => ?_
  exact (iteRes h.fetchL1I h.readBelow).bind fun _ h => iteRes h h

theorem selectFetched (h : o.Keeps s) {g : Hart} : o.KeepsSelected (selectFetched g s) := by
  have w : o.Keeps (Machine.fetch g s).state := h.fetch
  unfold Machine.selectFetched
  split
  all_goals rename_i e
  · exact (w.at_stop e).trapOut
  · exact (w.at_stop e).next
  · split
    · exact (w.at_ok e).trapOut
    · exact w.at_ok e

theorem firmware (h : o.Keeps s) {core slot : Nat} {g : Hart} {f : Handling} : o.Keeps (s.firmware core slot g f) := by
  unfold State.firmware
  dsimp only
  refine ite (ite h.setHart (ite (withCur (takeDeferred h.setHart.withCur)) (ite h h.setHart))) (ite ?_ h.setHart)
  exact getD h.goBack h

theorem selectHart (h : o.Keeps s) {core slot : Nat} : o.KeepsSelected (s.selectHart core slot) := by
  unfold State.selectHart
  dsimp only
  split
  · exact h.next
  · split
    · split
      · exact h
      · split
        · exact h
        · exact h.firmware.next
    · split
      · exact h
      · split
        · exact h.withCur.selectFetched
        · exact h
        · exact h
        · split
          · exact h.asHart fun h => h.endT
          · exact h
        · exact h.ringRetry
        · exact h.next
        · exact h

theorem ageHarts (h : o.Keeps s) {core picked : Nat} {ready : List Nat} : o.Keeps (s.ageHarts core picked ready) := by
  refine setCore (h.mapHarts fun q => ?_)
  dsimp only
  split
  · rfl
  · split <;> rfl

theorem restAges (h : o.Keeps s) {core : Nat} {ready : List Nat} : o.Keeps (s.restAges core ready) := by
  refine h.mapHarts fun q => ?_
  split <;> rfl

end State.Keeps

theorem State.KeepsSelected.noted {o : State} {run : Instr → State → Out} {core slot : Nat} {r : Selected}
    (h : o.KeepsSelected r) : o.KeepsSelected (r.noted run core slot) := by
  cases r with
  | run i s => exact State.Keeps.ite (State.Keeps.noteWork h) h
  | settled r => exact h

namespace State.Keeps

variable {o s t : State}

theorem hartTurn (h : o.Keeps s) {run : Instr → State → Out} {core slot : Nat} {late : List Nat} :
    o.KeepsSelected (s.hartTurn run core slot late) := by
  unfold State.hartTurn
  split
  · split
    · exact h.ageHarts.selectHart.noted
    · exact h.restAges.next
  · exact h.restAges.selectHart

theorem endLost (h : o.Keeps s) : o.Keeps s.endLost := by
  unfold State.endLost
  split
  · exact h
  · exact h.endForLoss

theorem selectAction (h : o.Keeps s) {run : Instr → State → Out} (a : Action) : o.KeepsSelected (s.selectAction run a) := by
  cases a with
  | hart core slot late => exact h.hartTurn
  | event i => exact h
  | commandUnit => exact h.commandTurn
  | lostRegion => exact h.endLost.next

theorem nextAction (h : o.Keeps s) {run : Instr → State → Out} {a : Action} (e : s.nextAction run = some (a, t)) :
    o.Keeps t := by
  unfold State.nextAction at e
  split at e
  · cases e
    exact h.same
  · obtain ⟨b, -, hb⟩ := Option.map_eq_some_iff.1 e
    cases hb
    exact h.same

theorem select (h : o.Keeps s) {run : Instr → State → Out} : o.KeepsSelected (s.select run) := by
  have w : o.Keeps s.tick := h.same
  unfold State.select
  split
  · rename_i e
    exact (w.nextAction e).selectAction _
  · exact w.next

/-- So does a step of the machine. -/
theorem step (s : State) : s.KeepsOut (step s) := by
  have w : s.KeepsSelected (s.select Machine.exec) := (refl s).select
  unfold Machine.step
  split
  all_goals
    rename_i e
    rw [e] at w
  · exact exec w _
  · exact w

end State.Keeps

/-! # What writes on their way leave unchanged

A write that reaches a home slice, a target or the control window changes memory and registers, and no core and no cluster; a
write-back from an L1 changes the L2 alone. -/

/-- A machine with the same cores and clusters, whose turn it is the same hart's. -/
structure State.SameUnits (s t : State) : Prop where
  cores : t.cores = s.cores
  clusters : t.clusters = s.clusters
  cur : t.cur = s.cur

namespace State.SameUnits

variable {o s t : State}

theorem refl (s : State) : s.SameUnits s := ⟨rfl, rfl, rfl⟩

theorem same (h : o.SameUnits s) (hc : t.cores = s.cores := by rfl) (hk : t.clusters = s.clusters := by rfl)
    (hu : t.cur = s.cur := by rfl) : o.SameUnits t := ⟨hc.trans h.cores, hk.trans h.clusters, hu.trans h.cur⟩

theorem ofHomeOnly (h : o.SameUnits s) (e : s.homeOnly t) : o.SameUnits t := by
  obtain ⟨l, n, rfl⟩ := e
  exact h.same

theorem foldl {α : Type} {f : State → α → State} (h : o.SameUnits s) (l : List α)
    (hf : ∀ {s} a, o.SameUnits s → o.SameUnits (f s a)) : o.SameUnits (l.foldl f s) := by
  induction l generalizing s with
  | nil => exact h
  | cons a t ih => exact ih (hf a h)

theorem ite {c : Prop} [Decidable c] (hs : o.SameUnits s) (ht : o.SameUnits t) : o.SameUnits (if c then s else t) := by
  split
  · exact hs
  · exact ht

theorem setQueue (h : o.SameUnits s) {k : Nat} {q : Queue} : o.SameUnits (s.setQueue k q) := h.same

theorem writePA (h : o.SameUnits s) {pa : Nat} {b : List Byte} : o.SameUnits (s.writePA pa b) := h.same

/-! ### The control window (26 R374 to R377) -/

theorem post (h : o.SameUnits s) {q : Nat} {e : BitVec 128} : o.SameUnits (s.post q e) := by
  unfold State.post
  dsimp only
  split <;> exact h.same

theorem postHeldFuel {q : Nat} : ∀ (n : Nat) {s : State}, o.SameUnits s → o.SameUnits (State.postHeldFuel q n s)
  | 0, _, h => h
  | n + 1, s, h => by
    unfold State.postHeldFuel
    dsimp only
    split
    · exact h
    · split
      · exact postHeldFuel n h.setQueue.post
      · exact h

theorem postHeld (h : o.SameUnits s) {q : Nat} : o.SameUnits (s.postHeld q) := postHeldFuel _ h

theorem writeTail (h : o.SameUnits s) {q : Nat} {x : BitVec 32} : o.SameUnits (s.writeTail q x) := .ite h.setQueue h

theorem writeHead (h : o.SameUnits s) {q : Nat} {x : BitVec 32} : o.SameUnits (s.writeHead q x) := .ite h.setQueue.postHeld h

theorem clearErr (h : o.SameUnits s) {q : Nat} : o.SameUnits (s.clearErr q) := .ite h.setQueue h

theorem writeEn (h : o.SameUnits s) {q : Nat} {en : Bool} : o.SameUnits (s.writeEn q en) := by
  unfold State.writeEn
  exact .ite h.setQueue.postHeld h

theorem writeConfig (h : o.SameUnits s) {q w : Nat} : o.SameUnits (s.writeConfig q w) := h.setQueue

theorem ctlWrite (h : o.SameUnits s) {a w : Nat} : o.SameUnits (s.ctlWrite a w) := by
  unfold State.ctlWrite State.ringBoot
  refine .ite (.ite h.same h) (.ite (.ite ?_ (.ite ?_ (.ite ?_ h))) (.ite h.same (.ite h.same h)))
  · exact .ite (.ite h.writeConfig.clearErr h.writeConfig) (.writeEn (.ite h.writeConfig.clearErr h.writeConfig))
  · exact .ite h.writeTail h.writeHead
  · exact .ite h h.setQueue

theorem ctlWriteMasked (h : o.SameUnits s) {a mask x : Nat} : o.SameUnits (s.ctlWriteMasked a mask x) := by
  unfold State.ctlWriteMasked
  exact .ite (.ite h.ctlWrite (.ite (.ite h h.ctlWrite) h.ctlWrite)) h.ctlWrite

theorem ctlWriteWords (h : o.SameUnits s) {a mask x n : Nat} : o.SameUnits (s.ctlWriteWords a mask x n) :=
  h.foldl _ fun _ h => .ite h h.ctlWriteMasked

theorem ctlWriteRun (h : o.SameUnits s) {a n x : Nat} : o.SameUnits (s.ctlWriteRun a n x) := h.ctlWriteWords

/-! ### Homes and targets (03 R47, R48, R50, R52) -/

theorem touchHome (h : o.SameUnits s) {pa mask : Nat} : o.SameUnits (s.touchHome pa mask) :=
  h.ofHomeOnly (s.touchHome_only _ _)

theorem touchHomeOf (h : o.SameUnits s) {p : BitVec 2 × TClass} {pa mask : Nat} : o.SameUnits (s.touchHomeOf p pa mask) :=
  h.ofHomeOnly (s.touchHomeOf_only _ _ _)

theorem loseFor (h : o.SameUnits s) {blks : List Nat} : o.SameUnits (s.loseFor blks) := h.same

theorem mergeHome (h : o.SameUnits s) {pa : Nat} {w : WriteBack} {l : Option Leaf} : o.SameUnits (s.mergeHome pa w l) := by
  unfold State.mergeHome
  dsimp only
  split
  · exact h.ctlWriteWords
  · split
    · exact touchHomeOf h.same
    · exact touchHome h.same

theorem writeBackHome (h : o.SameUnits s) {k : Nat} {w : WriteBack} : o.SameUnits (s.writeBackHome k w) := by
  unfold State.writeBackHome
  dsimp only
  split
  · exact h
  · exact .ite h.loseFor h.mergeHome

theorem performSent (h : o.SameUnits s) {w : SentWrite} : o.SameUnits (s.performSent w) := by
  unfold State.performSent
  have p : o.SameUnits (if inCtl w.pa then s.ctlWriteRun (w.pa - ctlBase) w.bytes.length (ofBytes w.bytes)
      else s.writePA w.pa w.bytes) := .ite h.ctlWriteRun h.writePA
  refine .ite h.loseFor ?_
  dsimp only
  split
  · exact touchHomeOf (.ite p.same p)
  · exact .ite p.same p

theorem core (h : s.SameUnits t) (k : Nat) : t.core k = s.core k := congrArg (fun l => (aget l k).getD Core.reset) h.cores

theorem cluster (h : s.SameUnits t) (k : Nat) : t.cluster k = s.cluster k :=
  congrArg (fun l => (aget l k).getD Cluster.reset) h.clusters

end State.SameUnits

/-! ### What a core holds when its own writes leave it -/

/-- A core with the same lines in its L1, the same permission filter and the same store buffer. -/
def Core.holdsSame (c d : Core) : Prop := d.l1 = c.l1 ∧ d.filter = c.filter ∧ d.sb = c.sb

/-- A machine whose cores hold the same, whose turn it is the same hart's. -/
structure State.SameL1 (s t : State) : Prop where
  core : ∀ k, (s.core k).holdsSame (t.core k)
  cur : t.cur = s.cur

/-- A machine whose clusters hold the same lines too. -/
structure State.SameLines (s t : State) : Prop extends State.SameL1 s t where
  cluster : ∀ k, (t.cluster k).l2 = (s.cluster k).l2

theorem State.SameUnits.sameLines {s t : State} (h : s.SameUnits t) : s.SameLines t where
  core k := by
    rw [h.core k]
    exact ⟨rfl, rfl, rfl⟩
  cur := h.cur
  cluster k := by rw [h.cluster k]

theorem State.SameL1.trans {s t u : State} (a : s.SameL1 t) (b : t.SameL1 u) : s.SameL1 u where
  core k := by
    obtain ⟨al, af, ab⟩ := a.core k
    obtain ⟨bl, bf, bb⟩ := b.core k
    exact ⟨bl.trans al, bf.trans af, bb.trans ab⟩
  cur := b.cur.trans a.cur

theorem State.SameLines.trans {s t u : State} (a : s.SameLines t) (b : t.SameLines u) : s.SameLines u where
  toSameL1 := a.toSameL1.trans b.toSameL1
  cluster k := (b.cluster k).trans (a.cluster k)

/-- Replacing a core by one that holds the same changes no line. -/
theorem State.sameLines_setCore (s : State) (k : Nat) {c : Core} (h : (s.core k).holdsSame c) : s.SameLines (s.setCore k c) where
  core j := by
    rw [State.core_setCore]
    split
    · rename_i e
      exact e ▸ h
    · exact ⟨rfl, rfl, rfl⟩
  cur := rfl
  cluster _ := rfl

/-- Replacing a cluster changes no core. -/
theorem State.sameL1_setCluster (s : State) (k : Nat) (c : Cluster) : s.SameL1 (s.setCluster k c) :=
  ⟨fun _ => ⟨rfl, rfl, rfl⟩, rfl⟩

theorem State.sameLines_ackBypass (s : State) (core : Nat) : s.SameLines (s.ackBypass core) := by
  unfold State.ackBypass
  dsimp only
  split
  · exact (SameUnits.refl s).sameLines
  · have taken : s.SameLines (s.setCore core { s.core core with bypass := [] }) := s.sameLines_setCore core ⟨rfl, rfl, rfl⟩
    exact taken.trans ((SameUnits.refl _).foldl _ fun _ h => h.performSent).sameLines

theorem State.sameLines_ackTarget (s : State) (core : Nat) : s.SameLines (s.ackTarget core) := by
  unfold State.ackTarget
  dsimp only
  split
  · exact (SameUnits.refl s).sameLines
  · have taken : s.SameLines (s.setCore core { s.core core with target := [] }) := s.sameLines_setCore core ⟨rfl, rfl, rfl⟩
    exact taken.trans ((SameUnits.refl _).foldl _ fun _ h => h.performSent).sameLines

/-- What an L2 sends home changes no line, for its lines have been written back when it is sent. -/
theorem State.sameLines_drainL2 (s : State) (k : Nat) : s.SameLines (s.drainL2 k) := by
  have emptied : s.SameLines (s.setCluster k { s.cluster k with wbq := [] }) :=
    ⟨s.sameL1_setCluster k _, fun j => by
      rw [State.cluster_setCluster]
      split
      · rename_i e
        exact e ▸ rfl
      · rfl⟩
  exact emptied.trans (((SameUnits.refl _).foldl _ fun _ h => h.writeBackHome).sameLines)

/-- Choosing a way spends a free choice at most. -/
theorem Cache.chooseWay_only (c : Cache) (sets base n : Nat) (s : State) :
    ∃ m, (Cache.chooseWay c sets base n s).2 = { s with free := m } := by
  unfold Cache.chooseWay
  split
  · exact ⟨s.free, rfl⟩
  · exact ⟨_, rfl⟩

/-- A write-back from an L1 changes clusters alone, and spends a free choice at most. -/
theorem State.writeBackL2_only (s : State) (k : Nat) (w : WriteBack) :
    ∃ l n, s.writeBackL2 k w = { s with clusters := l, free := n } := by
  unfold State.writeBackL2 State.l2Frame
  dsimp only
  split
  · exact ⟨_, s.free, rfl⟩
  · obtain ⟨m, e⟩ := Cache.chooseWay_only (s.cluster k).l2 4096 (w.va / w.tclass.block * w.tclass.block) w.tclass.rows s
    dsimp only
    rw [e]
    exact ⟨_, m, rfl⟩

/-- What an L1 sends to the L2 changes no core, for its lines have been written back when it is sent. -/
theorem State.sameL1_drainL1 (s : State) (core : Nat) : s.SameL1 (s.drainL1 core) := by
  have merged : ∀ (l : List WriteBack) (u : State), u.SameL1 (l.foldl (fun u w => u.writeBackL2 (clusterOf core) w) u) := by
    intro l
    induction l with
    | nil => exact fun u => (SameUnits.refl u).sameLines.toSameL1
    | cons w l ih =>
      intro u
      obtain ⟨c, n, e⟩ := u.writeBackL2_only (clusterOf core) w
      have one : u.SameL1 (u.writeBackL2 (clusterOf core) w) := by
        rw [e]
        exact ⟨fun _ => ⟨rfl, rfl, rfl⟩, rfl⟩
      exact one.trans (ih _)
  have taken : s.SameLines (s.setCore core { s.core core with wbq := [] }) := s.sameLines_setCore core ⟨rfl, rfl, rfl⟩
  exact taken.toSameL1.trans (merged _ _)

/-! ### Frames after a write-back or a drop (03 R47, R54) -/

/-- A row that lost some poison keeps the rest. -/
theorem Frame.trimRow_eq (f : Frame) (i : Nat) :
    (f.trimRow i).dirty = (f.row i).dirty ∧ (f.trimRow i).valid = (f.row i).valid := by
  unfold Frame.trimRow
  dsimp only
  split <;> exact ⟨rfl, rfl⟩

/-- Each row of a frame without idle poison has the masks of a row that was there. -/
theorem Frame.row_of_trim {f : Frame} {r : Row} (h : r ∈ f.trim.rows) : ∃ q ∈ f.rows, r.dirty = q.dirty ∧ r.valid = q.valid := by
  unfold Frame.trim at h
  obtain ⟨i, hi, rfl⟩ := List.mem_map.1 h
  have lt : i < f.rows.length := by simpa [upto] using hi
  refine ⟨f.rows[i], List.getElem_mem lt, ?_⟩
  have e : f.row i = f.rows[i] := by simp [Frame.row, nth, lt]
  exact e ▸ f.trimRow_eq i

theorem Frame.clean_dirty {f : Frame} {r : Row} (h : r ∈ f.clean.rows) : r.dirty = 0 := by
  obtain ⟨q, hq, hd, -⟩ := Frame.row_of_trim h
  obtain ⟨p, -, rfl⟩ := List.mem_map.1 hq
  exact hd

theorem Frame.dropClean_valid {f : Frame} {r : Row} (h : r ∈ f.dropClean.rows) : r.valid = false := by
  obtain ⟨q, hq, -, hv⟩ := Frame.row_of_trim h
  obtain ⟨p, -, rfl⟩ := List.mem_map.1 hq
  exact hv

theorem Frame.dropClean_dirty {f : Frame} {r : Row} (h : r ∈ f.dropClean.rows) : ∃ q ∈ f.rows, r.dirty = q.dirty := by
  obtain ⟨q, hq, hd, -⟩ := Frame.row_of_trim h
  obtain ⟨p, hp, rfl⟩ := List.mem_map.1 hq
  exact ⟨p, hp, hd⟩

/-- A cache after its frames of a space have changed, without those that hold nothing. -/
def Cache.changed (c : Cache) (space : BitVec 16) (g : Frame → Frame) : Cache :=
  (c.map fun f => if f.space = space then g f else f).filter Frame.live

/-- Each of its frames of the space is a frame that was there, changed. -/
theorem Cache.mem_changed {c : Cache} {space : BitVec 16} {g : Frame → Frame} {f : Frame}
    (h : f ∈ c.changed space g) (hs : f.space = space) : ∃ e ∈ c, e.space = space ∧ f = g e := by
  obtain ⟨e, he, rfl⟩ := List.mem_map.1 (List.mem_of_mem_filter h)
  by_cases q : e.space = space
  · exact ⟨e, he, q, if_pos q⟩
  · rw [if_neg q] at hs
    exact absurd hs q

theorem allClean_changed_clean (c : Cache) (space : BitVec 16) : allClean (c.changed space Frame.clean) space := by
  intro f hf hs r hr
  obtain ⟨e, -, -, rfl⟩ := Cache.mem_changed hf hs
  exact Frame.clean_dirty hr

theorem noCleanByte_changed_dropClean (c : Cache) (space : BitVec 16) : noCleanByte (c.changed space Frame.dropClean) space := by
  intro f hf hs
  obtain ⟨e, -, -, rfl⟩ := Cache.mem_changed hf hs
  exact ⟨rfl, fun r hr => Frame.dropClean_valid hr⟩

/-- Dropping what is not dirty leaves no dirty byte where there was none. -/
theorem allClean_changed_dropClean {c : Cache} {space : BitVec 16} (h : allClean c space) :
    allClean (c.changed space Frame.dropClean) space := by
  intro f hf hs r hr
  obtain ⟨e, he, hes, rfl⟩ := Cache.mem_changed hf hs
  obtain ⟨q, hq, hd⟩ := Frame.dropClean_dirty hr
  exact hd.trans (h e he hes q hq)

/-! # Fences (19 R349; 03 R53, R54) -/

/-! ### A release and what it leaves clean (03 R53) -/

/-- A machine whose store buffers are the same, whose turn it is the same hart's. -/
structure State.SameBuffers (s t : State) : Prop where
  sb : ∀ k, (t.core k).sb = (s.core k).sb
  cur : t.cur = s.cur

theorem State.SameBuffers.trans {s t u : State} (a : s.SameBuffers t) (b : t.SameBuffers u) : s.SameBuffers u :=
  ⟨fun k => (b.sb k).trans (a.sb k), b.cur.trans a.cur⟩

theorem State.SameL1.sameBuffers {s t : State} (h : s.SameL1 t) : s.SameBuffers t where
  sb k := by
    obtain ⟨-, -, e⟩ := h.core k
    exact e
  cur := h.cur

theorem State.sameBuffers_setCore (s : State) (k : Nat) {c : Core} (h : c.sb = (s.core k).sb) : s.SameBuffers (s.setCore k c) where
  sb j := by
    rw [State.core_setCore]
    split
    · rename_i e
      exact e ▸ h
    · rfl
  cur := rfl

theorem State.sameBuffers_cleanL1 (s : State) (core : Nat) (space : BitVec 16) : s.SameBuffers (s.cleanL1 core space) :=
  (s.sameBuffers_setCore core (by rfl)).trans (State.sameL1_drainL1 _ _).sameBuffers

theorem State.sameL1_cleanL2 (s : State) (k : Nat) (space : BitVec 16) : s.SameL1 (s.cleanL2 k space) :=
  (s.sameL1_setCluster k _).trans (State.sameLines_drainL2 _ _).toSameL1

theorem State.l1_cleanL1 (s : State) (core : Nat) (space : BitVec 16) :
    ((s.cleanL1 core space).core core).l1 = (s.core core).l1.changed space Frame.clean := by
  unfold State.cleanL1
  dsimp only
  generalize hu : s.setCore core _ = u
  obtain ⟨e, -, -⟩ := (u.sameL1_drainL1 core).core core
  rw [e, ← hu, State.core_setCore, if_pos rfl]
  rfl

theorem State.l2_cleanL2 (s : State) (k : Nat) (space : BitVec 16) :
    ((s.cleanL2 k space).cluster k).l2 = (s.cluster k).l2.changed space Frame.clean := by
  unfold State.cleanL2
  dsimp only
  generalize hu : s.setCluster k _ = u
  rw [(u.sameLines_drainL2 k).cluster k, ← hu, State.cluster_setCluster, if_pos rfl]
  rfl

/-- What a core has sent is performed, and no line changes. -/
theorem State.sameLines_acks (s : State) (core : Nat) : s.SameLines ((s.ackBypass core).ackTarget core) :=
  (s.sameLines_ackBypass core).trans (State.sameLines_ackTarget _ core)

theorem State.sameBuffers_releaseSteps (s : State) (core : Nat) (space : BitVec 16) (sc : Scope) :
    s.SameBuffers (s.releaseSteps core space sc) := by
  have sent := (s.sameLines_acks core).toSameL1.sameBuffers
  cases sc with
  | h => exact sent
  | c => exact sent
  | k => exact sent.trans (State.sameBuffers_cleanL1 _ _ _)
  | d => exact (sent.trans (State.sameBuffers_cleanL1 _ _ _)).trans (State.sameL1_cleanL2 _ _ _).sameBuffers
  | s => exact (sent.trans (State.sameBuffers_cleanL1 _ _ _)).trans (State.sameL1_cleanL2 _ _ _).sameBuffers

/-- After the L1 and the L2 have been written back neither holds a dirty byte of the space. -/
theorem State.allClean_cleanL1_cleanL2 (s : State) (core k : Nat) (space : BitVec 16) :
    allClean (((s.cleanL1 core space).cleanL2 k space).core core).l1 space ∧
      allClean (((s.cleanL1 core space).cleanL2 k space).cluster k).l2 space := by
  constructor
  · obtain ⟨e, -, -⟩ := ((s.cleanL1 core space).sameL1_cleanL2 k space).core core
    rw [e, State.l1_cleanL1]
    exact allClean_changed_clean _ _
  · rw [State.l2_cleanL2]
    exact allClean_changed_clean _ _

theorem State.allClean_releaseSteps (s : State) (core : Nat) (space : BitVec 16) {sc : Scope} (hh : sc ≠ .h) (hc : sc ≠ .c) :
    allClean ((s.releaseSteps core space sc).core core).l1 space ∧
      (sc ≠ .k → allClean ((s.releaseSteps core space sc).cluster (clusterOf core)).l2 space) := by
  cases sc with
  | h => exact absurd rfl hh
  | c => exact absurd rfl hc
  | k =>
    refine ⟨?_, fun n => absurd rfl n⟩
    unfold State.releaseSteps
    dsimp only
    rw [State.l1_cleanL1]
    exact allClean_changed_clean _ _
  | d =>
    obtain ⟨a, b⟩ := State.allClean_cleanL1_cleanL2 ((s.ackBypass core).ackTarget core) core (clusterOf core) space
    exact ⟨a, fun _ => b⟩
  | s =>
    obtain ⟨a, b⟩ := State.allClean_cleanL1_cleanL2 ((s.ackBypass core).ackTarget core) core (clusterOf core) space
    exact ⟨a, fun _ => b⟩

/-! ### An acquire and what it drops (03 R54) -/

theorem State.l1_acquireSteps (s : State) (core : Nat) (space : BitVec 16) {sc : Scope} (hh : sc ≠ .h) (hc : sc ≠ .c) :
    ((s.acquireSteps core space sc).core core).l1 = (s.core core).l1.changed space Frame.dropClean := by
  cases sc with
  | h => exact absurd rfl hh
  | c => exact absurd rfl hc
  | _ => simp [State.acquireSteps, Cache.changed]

theorem State.l2_acquireSteps (s : State) (core : Nat) (space : BitVec 16) {sc : Scope} (hh : sc ≠ .h) (hc : sc ≠ .c)
    (hk : sc ≠ .k) : ((s.acquireSteps core space sc).cluster (clusterOf core)).l2 =
      (s.cluster (clusterOf core)).l2.changed space Frame.dropClean := by
  cases sc with
  | h => exact absurd rfl hh
  | c => exact absurd rfl hc
  | k => exact absurd rfl hk
  | _ => simp [State.acquireSteps, Cache.changed]

theorem State.noCleanByte_acquireSteps (s : State) (core : Nat) (space : BitVec 16) {sc : Scope} (hh : sc ≠ .h) (hc : sc ≠ .c) :
    noCleanByte ((s.acquireSteps core space sc).core core).l1 space ∧
      (sc ≠ .k → noCleanByte ((s.acquireSteps core space sc).cluster (clusterOf core)).l2 space) := by
  refine ⟨?_, fun hk => ?_⟩
  · rw [s.l1_acquireSteps core space hh hc]
    exact noCleanByte_changed_dropClean _ _
  · rw [s.l2_acquireSteps core space hh hc hk]
    exact noCleanByte_changed_dropClean _ _

/-- An acquire makes nothing dirty. -/
theorem State.allClean_acquireSteps {s : State} {core : Nat} {space : BitVec 16} {sc : Scope} (hh : sc ≠ .h) (hc : sc ≠ .c)
    (h1 : allClean (s.core core).l1 space) (h2 : sc ≠ .k → allClean (s.cluster (clusterOf core)).l2 space) :
    allClean ((s.acquireSteps core space sc).core core).l1 space ∧
      (sc ≠ .k → allClean ((s.acquireSteps core space sc).cluster (clusterOf core)).l2 space) := by
  refine ⟨?_, fun hk => ?_⟩
  · rw [s.l1_acquireSteps core space hh hc]
    exact allClean_changed_dropClean h1
  · rw [s.l2_acquireSteps core space hh hc hk]
    exact allClean_changed_dropClean (h2 hk)

/-! ### The instruction (19 R349) -/

theorem bufferHolds_iff (s : State) : (s.core s.myCore).bufferHolds s.mySlot = true ↔ ¬ownsNoEntry s := by
  simp [Core.bufferHolds, ownsNoEntry]

/-- Whether a hart owns an entry is a matter of the buffers and of whose turn it is. -/
theorem State.SameBuffers.ownsNoEntry {s t : State} (h : s.SameBuffers t) (o : ownsNoEntry s) : ownsNoEntry t := by
  unfold Slice0.ownsNoEntry State.myCore State.mySlot at o ⊢
  rw [h.cur, h.sb]
  exact o

theorem release_free {s : State} (sc : Scope) (h : Hart) (o : ownsNoEntry s) :
    release sc h s = .ok () (s.releaseSteps s.myCore h.spaceTag sc) :=
  if_neg (fun b => (bufferHolds_iff s).1 b o)

theorem release_waits {s : State} (sc : Scope) (h : Hart) (o : ¬ownsNoEntry s) : release sc h s = .stop .wait s :=
  if_pos ((bufferHolds_iff s).2 o)

theorem acquire_free {s : State} (sc : Scope) (h : Hart) (o : ownsNoEntry s) :
    acquire sc h s = .ok () (s.fenceAcquire s.myCore h.spaceTag sc) :=
  if_neg (fun b => (bufferHolds_iff s).1 b o)

theorem acquire_waits {s : State} (sc : Scope) (h : Hart) (o : ¬ownsNoEntry s) : acquire sc h s = .stop .wait s :=
  if_pos ((bufferHolds_iff s).2 o)

/-- The acquire of a FENCE that is both is not held, for the release before it buffers nothing. -/
theorem fenceOp_ar_free {s : State} (sc : Scope) (h : Hart) (o : ownsNoEntry s) :
    fenceOp .ar sc h s = .ok () ((s.releaseSteps s.myCore h.spaceTag sc).fenceAcquire s.myCore h.spaceTag sc) := by
  have kept := s.sameBuffers_releaseSteps s.myCore h.spaceTag sc
  have mine : (s.releaseSteps s.myCore h.spaceTag sc).myCore = s.myCore := congrArg coreOf kept.cur
  unfold fenceOp
  dsimp only
  rw [release_free sc h o, Res.bind_ok, acquire_free sc h (kept.ownsNoEntry o), mine]

theorem fenceOp_waits {s : State} (k : FenceKind) (sc : Scope) (h : Hart) (o : ¬ownsNoEntry s) :
    fenceOp k sc h s = .stop .wait s := by
  cases k with
  | rel => exact release_waits sc h o
  | acq => exact acquire_waits sc h o
  | ar =>
    unfold fenceOp
    dsimp only
    rw [release_waits sc h o, Res.bind_stop]

theorem execFence_waits {s : State} {h : Hart} (sc : Scope) (k : FenceKind) (hm : s.me = some h) (o : ¬ownsNoEntry s) :
    execFence sc k s = .next s := by
  unfold execFence
  rw [withHart_some _ hm, fenceOp_waits k sc h o, Res.bind_stop, finish_wait]

theorem fenceCompletes : FenceCompletes := by
  intro s h e sc hm
  refine ⟨fun o => ⟨?_, ?_, ?_⟩, fun o k => execFence_waits sc k hm o⟩
  · exact execFence_next sc .rel hm (release_free sc h o)
  · exact execFence_next sc .acq hm (acquire_free sc h o)
  · exact execFence_next sc .ar hm (fenceOp_ar_free sc h o)

theorem fenceEmptiesCaches : FenceEmptiesCaches := by
  intro s t h e sc k hm o hh hc ht
  obtain ⟨⟨rel, acq, ar⟩, -⟩ := (fenceCompletes s h e sc hm).imp_left fun f => f o
  cases k with
  | rel =>
    obtain rfl := Host.Outcome.next.inj (rel.symm.trans ht)
    exact ⟨fun _ => s.allClean_releaseSteps s.myCore h.spaceTag hh hc, fun n => absurd rfl n⟩
  | acq =>
    obtain rfl := Host.Outcome.next.inj (acq.symm.trans ht)
    exact ⟨fun n => absurd rfl n, fun _ => State.noCleanByte_acquireSteps _ s.myCore h.spaceTag hh hc⟩
  | ar =>
    obtain rfl := Host.Outcome.next.inj (ar.symm.trans ht)
    refine ⟨fun _ => ?_, fun _ => State.noCleanByte_acquireSteps _ s.myCore h.spaceTag hh hc⟩
    obtain ⟨c1, c2⟩ := s.allClean_releaseSteps s.myCore h.spaceTag hh hc
    have acked := (s.releaseSteps s.myCore h.spaceTag sc).sameLines_acks s.myCore
    obtain ⟨l1, -, -⟩ := acked.core s.myCore
    refine State.allClean_acquireSteps hh hc ?_ fun hk => ?_
    · rw [l1]
      exact c1
    · rw [acked.cluster]
      exact c2 hk

/-! # The caches' own steps (03 R46 to R48, R50, R52; 06 R122) -/

/-! ### Bytes of a slot -/

theorem elt_mod_two_pow (n : Nat) {w i m : Nat} (h : (i + 1) * w ≤ m) : elt (n % 2 ^ m) w i = elt n w i := by
  apply Nat.eq_of_testBit_eq
  intro k
  rw [testBit_elt, testBit_elt, Nat.testBit_mod_two_pow]
  by_cases hk : k < w
  · have : i * w + k < m := by
      rw [Nat.add_mul] at h
      omega
    simp [this]
  · simp [hk]

/-- A merge takes the bytes of its mask from what is new, and keeps the others. -/
theorem elt_mergeBytes (mask old new : Nat) (n k : Nat) :
    elt (mergeBytes mask old new n) 8 k = if k < n ∧ bit mask k = true then elt new 8 k else elt old 8 k := by
  unfold mergeBytes upto
  induction n with
  | zero => simp
  | succ n ih =>
    rw [List.range_succ, List.foldl_append, List.foldl_cons, List.foldl_nil]
    by_cases hn : bit mask n = true
    · rw [if_pos hn, elt_putElt, ih, Nat.mod_eq_of_lt (elt_lt _ _ _)]
      by_cases hk : k = n
      · subst hk
        simp [hn]
      · have : k < n + 1 ↔ k < n := by omega
        simp [hk, this]
    · rw [if_neg hn, ih]
      by_cases hk : k = n
      · subst hk
        simp [hn]
      · have : k < n + 1 ↔ k < n := by omega
        simp [this]

/-- A byte that is written stands in the slot, dirty. -/
theorem Row.write_byte (r : Row) {mask data poison k : Nat} (blks : List Nat) (hk : k < 128) (hb : mask.testBit k = true) :
    (r.write mask data poison blks).byte k = BitVec.ofNat 8 (elt data 8 k) := by
  unfold Row.byte Row.write
  dsimp only
  rw [BitVec.toNat_ofNat, elt_mod_two_pow _ (by omega), elt_mergeBytes, if_pos ⟨hk, hb⟩]

theorem Row.write_dirty (r : Row) {mask data poison k : Nat} (blks : List Nat) (hk : k < 128) (hb : mask.testBit k = true) :
    (r.write mask data poison blks).dirty.getLsbD k = true := by
  simp [Row.write, BitVec.getLsbD_ofNat, hk, hb]

theorem getD_toBytes (n x k : Nat) (hk : k < n) : (toBytes n x).getD k 0 = BitVec.ofNat 8 (elt x 8 k) := by
  induction n generalizing x k with
  | zero => omega
  | succ n ih =>
    cases k with
    | zero =>
      unfold toBytes elt
      simp [BitVec.ofNat, Fin.ofNat]
    | succ k =>
      have e : elt x 8 (k + 1) = elt (x / 256) 8 k := by
        unfold elt
        rw [Nat.shiftRight_eq_div_pow, Nat.shiftRight_eq_div_pow, Nat.div_div_eq_div_mul, Nat.add_mul, Nat.pow_add, Nat.mul_comm]
      unfold toBytes
      rw [List.getD_cons_succ, ih _ _ (by omega), e]

/-! ### The frame of a slot (03 R44, R45) -/

theorem Frame.covers_iff (f : Frame) (space : BitVec 16) (va : Nat) :
    f.covers space va = true ↔ f.space = space ∧ f.base ≤ va ∧ va < f.base + f.tclass.rows * 128 := by
  simp only [Frame.covers, Bool.and_eq_true, decide_eq_true_eq, and_assoc]
  exact Iff.rfl

/-- A frame that stands at a line covers a slot whole or not at all. -/
theorem Frame.covers_slot {f : Frame} {space : BitVec 16} {va k : Nat} (hf : f.base % 128 = 0) (hv : va % 128 = 0)
    (hk : k < 128) : f.covers space (va + k) = f.covers space va := by
  rw [Bool.eq_iff_iff, f.covers_iff, f.covers_iff]
  exact and_congr_right fun _ => by omega

theorem Cache.find_cons_covers {g : Frame} {space : BitVec 16} {va : Nat} (c : Cache) (h : g.covers space va = true) :
    Cache.find (g :: c) space va = some g := List.find?_cons_of_pos h

theorem Cache.find_cons_other {g : Frame} {space : BitVec 16} {va : Nat} (c : Cache) (h : ¬g.covers space va = true) :
    Cache.find (g :: c) space va = Cache.find c space va := List.find?_cons_of_neg h

/-- The frame of a slot's first byte is the frame of all its bytes. -/
theorem Cache.find_slot {c : Cache} {space : BitVec 16} {va k : Nat} (hw : wholeFrame c space va) (hv : va % 128 = 0)
    (hk : k < 128) : Cache.find c space (va + k) = Cache.find c space va := by
  induction c with
  | nil => rfl
  | cons g t ih =>
    have same : ∀ j, j < 128 → g.covers space (va + j) = g.covers space va := by
      intro j hj
      by_cases hg : g.base % 128 = 0
      · exact g.covers_slot hg hv hj
      · have out : ∀ i, i < 128 → g.covers space (va + i) = false := by
          intro i hi
          by_contra hc
          exact hg (hw i g hi (Cache.find_cons_covers t (by simpa using hc))).2
        exact (out j hj).trans (out 0 (by omega)).symm
    by_cases hc : g.covers space va = true
    · rw [Cache.find_cons_covers t hc, Cache.find_cons_covers t ((same k hk).trans hc)]
    · have skip : ∀ j, j < 128 → Cache.find (g :: t) space (va + j) = Cache.find t space (va + j) := fun j hj =>
        Cache.find_cons_other t (by rwa [same j hj])
      rw [skip k hk, show Cache.find (g :: t) space va = Cache.find t space va from skip 0 (by omega)]
      exact ih fun j f hj hf => hw j f hj ((skip j hj).trans hf)

/-- A frame that is found, replaced by one of its place and class, is found replaced. -/
theorem Cache.find_replace {c : Cache} {space : BitVec 16} {va : Nat} {f g : Frame} (hd : distinctFrames c)
    (h : Cache.find c space va = some f) (hs : g.space = f.space) (hb : g.base = f.base) (hw : g.way = f.way)
    (ht : g.tclass = f.tclass) : Cache.find (Cache.replace c g) space va = some g := by
  have cov : g.covers space va = f.covers space va := by simp [Frame.covers, hs, hb, ht]
  induction c with
  | nil => cases h
  | cons e t ih =>
    obtain ⟨he, htd⟩ := List.pairwise_cons.1 hd
    by_cases hc : e.covers space va = true
    · obtain rfl : e = f := Option.some.inj ((Cache.find_cons_covers t hc).symm.trans h)
      have same : (e.space = g.space && e.base = g.base && e.way = g.way) = true := by simp [hs, hb, hw]
      unfold Cache.replace
      rw [List.map_cons, if_pos same]
      exact Cache.find_cons_covers _ (cov.trans hc)
    · have ht' : Cache.find t space va = some f := (Cache.find_cons_other t hc).symm.trans h
      have other : ¬(e.space = g.space && e.base = g.base && e.way = g.way) = true := by
        have := he f (Cache.mem_of_find ht')
        rw [hs, hb, hw]
        simpa [and_assoc] using this
      unfold Cache.replace
      rw [List.map_cons, if_neg other]
      exact (Cache.find_cons_other _ hc).trans (ih htd ht')

/-- A frame at the head of a cache, replaced by one of its place that covers an address, is found there. -/
theorem Cache.find_replace_head {c : Cache} {space : BitVec 16} {va : Nat} {e g : Frame} (hc : g.covers space va = true)
    (hs : g.space = e.space) (hb : g.base = e.base) (hw : g.way = e.way) :
    Cache.find (Cache.replace (e :: c) g) space va = some g := by
  have same : (e.space = g.space && e.base = g.base && e.way = g.way) = true := by simp [hs, hb, hw]
  unfold Cache.replace
  rw [List.map_cons, if_pos same]
  exact Cache.find_cons_covers _ hc

/-- A slot lies within the block of its address. -/
theorem TClass.slot_in_block (t : TClass) {va j : Nat} (hv : va % 128 = 0) (hj : j < 128) :
    va / t.block * t.block ≤ va + j ∧ va + j < va / t.block * t.block + t.rows * 128 := by
  cases t <;> simp only [TClass.block, TClass.rows] <;> omega

/-! ### A write-back from an L1 (03 R48) -/

theorem Frame.row_setRow {f : Frame} {i : Nat} (r : Row) (h : i < f.rows.length) : (f.setRow i r).row i = r := by
  simp [Frame.row, Frame.setRow, nth, h]

/-- The frame that a write-back finds or claims stands, once a row has been written, at every byte of the slot. -/
theorem State.find_putL2_l2Frame {s : State} {k : Nat} {space : BitVec 16} {va j : Nat} {t : TClass} (i : Nat) (r : Row)
    (hd : distinctFrames (s.cluster k).l2) (hw : wholeFrame (s.cluster k).l2 space va) (hv : va % 128 = 0) (hj : j < 128) :
    Cache.find (((s.l2Frame k space va t).2.putL2 k ((s.l2Frame k space va t).1.setRow i r)).cluster k).l2 space (va + j) =
      some ((s.l2Frame k space va t).1.setRow i r) := by
  unfold State.putL2 State.l2Frame
  dsimp only
  split
  · rename_i f hf
    rw [State.cluster_setCluster, if_pos rfl]
    exact Cache.find_replace hd ((Cache.find_slot hw hv hj).trans hf) rfl rfl rfl rfl
  · rw [State.cluster_setCluster, if_pos rfl, State.cluster_setCluster, if_pos rfl]
    refine Cache.find_replace_head ?_ rfl rfl rfl
    rw [Frame.covers_iff]
    exact ⟨rfl, t.slot_in_block hv hj⟩

/-- That frame covers the slot, and has all its rows. -/
theorem State.l2Frame_whole {s : State} {k : Nat} {space : BitVec 16} {va : Nat} {t : TClass}
    (hw : wholeFrame (s.cluster k).l2 space va) (hv : va % 128 = 0) :
    (s.l2Frame k space va t).1.formed ∧ (s.l2Frame k space va t).1.covers space va = true := by
  unfold State.l2Frame
  dsimp only
  split
  · rename_i f hf
    exact ⟨hw 0 f (by omega) hf, List.find?_some (p := fun f => Frame.covers f space va) hf⟩
  · refine ⟨Frame.formed_fresh _ _ _ _, ?_⟩
    rw [Frame.covers_iff]
    exact ⟨rfl, t.slot_in_block (j := 0) hv (by omega)⟩

/-- A row written under a mask holds the bytes of the mask, present and dirty. -/
theorem Frame.holds_written {f : Frame} {space : BitVec 16} {va k : Nat} (hf : f.formed) (hc : f.covers space va = true)
    (hv : va % 128 = 0) (hk : k < 128) {mask data poison : Nat} {blks : List Nat} (hb : mask.testBit k = true) :
    let g := f.setRow (f.rowOf va) ((f.row (f.rowOf va)).write mask data poison blks)
    g.present (va + k) = true ∧ (g.byte (va + k)).1 = BitVec.ofNat 8 (elt data 8 k) ∧
      (g.row ((va + k - g.base) / 128)).dirty.getLsbD ((va + k) % 128) = true := by
  obtain ⟨hl, ha⟩ := hf
  obtain ⟨-, lo, hi⟩ := (f.covers_iff space va).1 hc
  have row : (va + k - f.base) / 128 = f.rowOf va := by
    unfold Frame.rowOf
    omega
  have within : f.rowOf va < f.rows.length := by
    rw [hl]
    unfold Frame.rowOf
    omega
  have byte : (va + k) % 128 = k := by omega
  intro g
  have at_slot : g.row ((va + k - g.base) / 128) = (f.row (f.rowOf va)).write mask data poison blks := by
    rw [show g.base = f.base from rfl, row]
    exact f.row_setRow _ within
  have dirty := (f.row (f.rowOf va)).write_dirty (data := data) (poison := poison) blks hk hb
  refine ⟨?_, ?_, ?_⟩
  · unfold Frame.present Frame.rowOf
    rw [at_slot, byte]
    simp only [bit, BitVec.testBit_toNat, dirty, Bool.true_or]
  · unfold Frame.byte Frame.rowOf
    rw [at_slot, byte]
    exact Row.write_byte _ blks hk hb
  · rw [at_slot, byte]
    exact dirty

/-- After a write-back from an L1 every byte of its mask is dirty in the L2 (03 R48). -/
theorem State.dirtyByte_writeBackL2 {s : State} {k : Nat} {w : WriteBack} {j : Nat} (hd : distinctFrames (s.cluster k).l2)
    (hw : wholeFrame (s.cluster k).l2 w.space w.va) (hv : w.va % 128 = 0) (hj : j < 128) (hb : w.dirty.getLsbD j = true) :
    dirtyByte ((s.writeBackL2 k w).cluster k).l2 w.space (w.va + j) (BitVec.ofNat 8 (elt w.data.toNat 8 j)) := by
  obtain ⟨hf, hc⟩ := s.l2Frame_whole (t := w.tclass) hw hv
  obtain ⟨hp, hy, hdi⟩ := Frame.holds_written hf hc hv hj (mask := w.dirty.toNat) (data := w.data.toNat)
    (poison := w.poison.toNat) (blks := w.writers) (by rwa [BitVec.testBit_toNat])
  exact ⟨_, State.find_putL2_l2Frame _ _ hd hw hv hj, hp, hy, hdi⟩

/-! ### Merges at home and sent writes (03 R48, R50; 06 R122) -/

/-- What a home slice's bookkeeping leaves as it is. -/
theorem State.homeOnly.fields {s t : State} (h : s.homeOnly t) : t.mem = s.mem ∧ t.cores = s.cores ∧ t.clusters = s.clusters := by
  obtain ⟨l, n, rfl⟩ := h
  exact ⟨rfl, rfl, rfl⟩

/-- A line merged at home writes its bytes in device memory under its mask. -/
theorem State.mergeHome_mem {s : State} {pa : Nat} (w : WriteBack) (l : Option Leaf) (hc : inCtl pa = false) :
    (s.mergeHome pa w l).mem = s.mem.writeMasked pa w.dirty.toNat (toBytes 128 w.data.toNat) := by
  unfold State.mergeHome
  dsimp only
  rw [if_neg (by simp [hc])]
  split
  · exact (State.touchHomeOf_only _ _ _ _).fields.1
  · exact (State.touchHome_only _ _ _).fields.1

/-- A sent write outside the control window writes its bytes in device memory. -/
theorem State.performSent_mem {s : State} {w : SentWrite} (hp : s.peerRefuses w.pa = false) (hc : inCtl w.pa = false) :
    (s.performSent w).mem = s.mem.write w.pa w.bytes := by
  have poison : ∀ (b : Bool) (u : State) (p : List Nat), (if b then { u with poison := p } else u).mem = u.mem := by
    intro b u p
    split <;> rfl
  have sent : (if inCtl w.pa then s.ctlWriteRun (w.pa - ctlBase) w.bytes.length (ofBytes w.bytes)
      else s.writePA w.pa w.bytes) = s.writePA w.pa w.bytes := if_neg (by simp [hc])
  unfold State.performSent
  rw [if_neg (by simp [hp])]
  dsimp only
  rw [sent]
  split
  · exact (State.touchHomeOf_only _ _ _ _).fields.1.trans (poison _ _ _)
  · exact poison _ _ _

/-- A write-back whose place has a name goes out under it (04 R92). -/
theorem State.writeBackHome_named {s : State} {k pa : Nat} {w : WriteBack} (hn : s.namedPA w.space w.va = some pa)
    (hp : s.peerRefuses pa = false) : s.writeBackHome k w = s.mergeHome pa w none := by
  unfold State.writeBackHome
  rw [hn]
  exact if_neg (by simp [hp])

/-- Memory after a masked write of 128 bytes: those of the mask are written, and no other. -/
theorem Memory.get_writeMasked_line (m : Memory) (pa : Nat) (mask : BitVec 128) (x : Nat) :
    (∀ a, (a < pa ∨ pa + 128 ≤ a ∨ mask.getLsbD (a - pa) = false) →
      (m.writeMasked pa mask.toNat (toBytes 128 x)).get a = m.get a) ∧
    ∀ k, k < 128 → mask.getLsbD k = true →
      (m.writeMasked pa mask.toNat (toBytes 128 x)).get (pa + k) = BitVec.ofNat 8 (elt x 8 k) := by
  refine ⟨fun a h => ?_, fun k hk hb => ?_⟩
  · rw [Memory.get_writeMasked, toBytes_length, BitVec.testBit_toNat, if_neg]
    rintro ⟨⟨lo, hi⟩, hb⟩
    rcases h with h | h | h
    · omega
    · omega
    · rw [h] at hb
      cases hb
  · have e : pa + k - pa = k := by omega
    rw [Memory.get_writeMasked, toBytes_length, BitVec.testBit_toNat, e, if_pos ⟨⟨by omega, by omega⟩, hb⟩,
      getD_toBytes _ _ _ hk]

/-- Memory after a write: the bytes written stand there, and every other is as it was. -/
theorem Memory.get_write_run (m : Memory) (pa : Nat) (bs : List Byte) :
    (∀ k b, bs[k]? = some b → (m.write pa bs).get (pa + k) = b) ∧
    ∀ a, (a < pa ∨ pa + bs.length ≤ a) → (m.write pa bs).get a = m.get a := by
  refine ⟨fun k b h => ?_, fun a h => m.get_write_outside _ _ _ h⟩
  obtain ⟨hk, hb⟩ := List.getElem?_eq_some_iff.1 h
  have e : pa + k - pa = k := by omega
  rw [Memory.get_write, if_pos ⟨by omega, by omega⟩, e, List.getD_eq_getElem?_getD, h]
  rfl

/-! ### The steps -/

/-- The write-backs of a frame are those of its dirty slots. -/
theorem Frame.mem_writeBacks {f : Frame} {i : Nat} (hi : i < f.tclass.rows) (hd : (f.row i).dirty ≠ 0) :
    { space := f.space, va := f.base + 128 * i, tclass := f.tclass, dirty := (f.row i).dirty, poison := (f.row i).poison,
      data := (f.row i).data, writers := (f.row i).writers } ∈ f.writeBacks := by
  unfold Frame.writeBacks
  exact List.mem_filterMap.2 ⟨i, List.mem_range.2 hi, if_neg hd⟩

/-- CACHE_FILL (03 R46). -/
theorem execCacheFill_cases {s : State} {core : Nat} {f : FillReq} {rest : List FillReq}
    (hf : (s.core core).fills = f :: rest) :
    let s0 := s.setCore core { s.core core with fills := rest }
    let a : Acc := { core := core, slot := 0, space := f.space, user := true, kind := 0, gseg := 0, off := 0,
                     rva := f.va, pva := f.va, va := f.va, elem := 0, ew := 0, col := f.col, requester := false }
    (s.held f.space f.va = true → execCacheFill core s = .next s) ∧
    (s.held f.space f.va = false →
      (∀ r u, fillL1 a f.attr.tclass s0 = .ok r u → execCacheFill core s = .next u) ∧
      (∀ u, fillL1 a f.attr.tclass s0 = .stop .wait u → execCacheFill core s = .next s) ∧
      ∀ t u, fillL1 a f.attr.tclass s0 = .stop (.trap t) u → execCacheFill core s = .next s0) := by
  intro s0 a
  unfold execCacheFill
  dsimp only
  rw [hf]
  dsimp only
  refine ⟨fun h => if_pos h, fun h => ?_⟩
  rw [if_neg (by simp [h])]
  refine ⟨fun r u e => ?_, fun u e => ?_, fun t u e => ?_⟩ <;> rw [e]

/-- EVICTION (03 R47). -/
theorem execEviction_l1 {s : State} {unit : Nat} {space : BitVec 16} {va : Nat} {f : Frame}
    (h : Cache.find (s.core unit).l1 space va = some f) :
    execEviction .l1 unit space va s = .next (s.setCore unit { s.core unit with
      l1 := (s.core unit).l1.filter fun g => g ≠ f, wbq := (s.core unit).wbq ++ f.writeBacks }) := by
  unfold execEviction
  dsimp only
  rw [h]

theorem execEviction_l2 {s : State} {unit : Nat} {space : BitVec 16} {va : Nat} {f : Frame}
    (h : Cache.find (s.cluster unit).l2 space va = some f) :
    execEviction .l2 unit space va s = .next (s.setCluster unit { s.cluster unit with
      l2 := (s.cluster unit).l2.filter fun g => g ≠ f, wbq := (s.cluster unit).wbq ++ f.writeBacks }) := by
  unfold execEviction
  dsimp only
  rw [h]

/-- WRITE_BACK_MERGE (03 R48). -/
theorem execWriteBackMerge_l1 {s : State} {unit : Nat} {w : WriteBack} {rest : List WriteBack}
    (h : (s.core unit).wbq = w :: rest) : execWriteBackMerge .l1 unit s =
      .next ((s.setCore unit { s.core unit with wbq := rest }).writeBackL2 (clusterOf unit) w) := by
  unfold execWriteBackMerge
  dsimp only
  rw [h]

theorem execWriteBackMerge_l2 {s : State} {unit : Nat} {w : WriteBack} {rest : List WriteBack}
    (h : (s.cluster unit).wbq = w :: rest) : execWriteBackMerge .l2 unit s =
      .next ((s.setCluster unit { s.cluster unit with wbq := rest }).writeBackHome unit w) := by
  unfold execWriteBackMerge
  dsimp only
  rw [h]

/-- BYPASS_WRITE_ACK (03 R50) and TARGET_ACKNOWLEDGEMENT (06 R122). -/
theorem execBypassWriteAck_cons {s : State} {core : Nat} {w : SentWrite} {rest : List SentWrite}
    (h : (s.core core).bypass = w :: rest) : execBypassWriteAck core s =
      .next ((s.setCore core { s.core core with bypass := rest }).performSent w) := by
  unfold execBypassWriteAck
  dsimp only
  rw [h]

theorem execTargetAcknowledgement_cons {s : State} {core : Nat} {w : SentWrite} {rest : List SentWrite}
    (h : (s.core core).target = w :: rest) : execTargetAcknowledgement core s =
      .next ((s.setCore core { s.core core with target := rest }).performSent w) := by
  unfold execTargetAcknowledgement
  dsimp only
  rw [h]

/-- A sent write that its core has taken off its list: the control window's registers, or device memory, take its bytes, and the
core stays as it is. -/
theorem performSent_taken {s : State} {core : Nat} {c : Core} {w : SentWrite} (hp : s.peerRefuses w.pa = false) :
    (inCtl w.pa = true → (s.setCore core c).performSent w =
      (s.setCore core c).ctlWriteRun (w.pa - 0x20000000000) w.bytes.length (ofBytes w.bytes)) ∧
    (inCtl w.pa = false → (((s.setCore core c).performSent w).core core) = c ∧
      (∀ k b, w.bytes[k]? = some b → ((s.setCore core c).performSent w).mem.get (w.pa + k) = b) ∧
      ∀ a, (a < w.pa ∨ w.pa + w.bytes.length ≤ a) → ((s.setCore core c).performSent w).mem.get a = s.mem.get a) := by
  refine ⟨fun hc => State.performSent_ctl hp hc, fun hc => ⟨?_, ?_⟩⟩
  · rw [(State.SameUnits.refl (s.setCore core c)).performSent.core, State.core_setCore, if_pos rfl]
  · rw [State.performSent_mem (s := s.setCore core c) hp hc]
    exact Memory.get_write_run _ _ _

theorem cacheSteps : CacheSteps := by
  refine ⟨fun s core f rest hf => execCacheFill_cases hf, fun s unit space va f => ?_, fun s unit w rest hv => ⟨?_, ?_⟩,
    fun s core w rest hp => ⟨fun h => ?_, fun h => ?_⟩⟩
  · have sent : ∀ i, i < f.tclass.rows → (f.row i).dirty ≠ 0 →
        ∃ w ∈ f.writeBacks, w.space = f.space ∧ w.va = f.base + 128 * i ∧ w.dirty = (f.row i).dirty ∧
          w.data = (f.row i).data ∧ w.poison = (f.row i).poison :=
      fun i hi hd => ⟨_, f.mem_writeBacks hi hd, rfl, rfl, rfl, rfl, rfl⟩
    exact ⟨fun h => ⟨f.writeBacks, sent, execEviction_l1 h⟩, fun h => ⟨f.writeBacks, sent, execEviction_l2 h⟩⟩
  · intro h hd hw
    refine ⟨_, execWriteBackMerge_l1 h, ?_, ?_, fun k hk hb => State.dirtyByte_writeBackL2 hd hw hv hk hb⟩
    all_goals obtain ⟨l, n, e⟩ := (s.setCore unit { s.core unit with wbq := rest }).writeBackL2_only (clusterOf unit) w
    · rw [e]
      exact congrArg Core.wbq (State.core_setCore s unit unit _ |>.trans (if_pos rfl))
    · rw [e]
      rfl
  · intro pa h hn hp s0
    have out : execWriteBackMerge .l2 unit s = .next (s0.mergeHome pa w none) :=
      (execWriteBackMerge_l2 h).trans (congrArg Host.Outcome.next (State.writeBackHome_named hn hp))
    refine ⟨fun hc => out.trans (congrArg Host.Outcome.next (State.mergeHome_ctl w none hc)), fun hc => ⟨_, out, ?_, ?_⟩⟩
    · rw [(State.SameUnits.refl s0).mergeHome.cluster, State.cluster_setCluster, if_pos rfl]
    · rw [State.mergeHome_mem w none hc]
      exact Memory.get_writeMasked_line _ _ _ _
  · obtain ⟨ctl, mem⟩ := performSent_taken (core := core) (c := { s.core core with bypass := rest }) hp
    refine ⟨fun hc => (execBypassWriteAck_cons h).trans (congrArg Host.Outcome.next (ctl hc)), fun hc => ?_⟩
    obtain ⟨kept, landed⟩ := mem hc
    exact ⟨_, execBypassWriteAck_cons h, congrArg Core.bypass kept, landed⟩
  · obtain ⟨ctl, mem⟩ := performSent_taken (core := core) (c := { s.core core with target := rest }) hp
    refine ⟨fun hc => (execTargetAcknowledgement_cons h).trans (congrArg Host.Outcome.next (ctl hc)), fun hc => ?_⟩
    obtain ⟨kept, landed⟩ := mem hc
    exact ⟨_, execTargetAcknowledgement_cons h, congrArg Core.target kept, landed⟩

/-! # The recall of a name, and memory errors (04 R91, R92; 03 R61; 27 R391) -/

/-! ### What a pass over units establishes -/

/-- A pass over units that makes something true of the unit at hand, and keeps it true of the others, makes it true of all it
comes to, beside those of which it was true. -/
theorem foldl_establishes {P : State → Nat → Prop} {f : State → Nat → State} (make : ∀ s c, P (f s c) c)
    (keep : ∀ s c k, P s k → P (f s c) k) (l : List Nat) (s : State) (k : Nat) (h : k ∈ l ∨ P s k) : P (l.foldl f s) k := by
  induction l generalizing s with
  | nil => exact h.resolve_left (List.not_mem_nil)
  | cons c l ih =>
    refine ih _ ?_
    rcases h with h | h
    · rcases List.mem_cons.1 h with rfl | h
      · exact .inr (make s k)
      · exact .inl h
    · exact .inr (keep s c k h)

/-- A core that the machine has no entry of is as at reset. -/
theorem State.core_unlisted {s : State} {k : Nat} (h : k ∉ s.cores.map (·.1)) : s.core k = Core.reset := by
  have absent : ∀ l : List (Nat × Core), k ∉ l.map (·.1) → aget l k = none := by
    intro l
    induction l with
    | nil => exact fun _ => rfl
    | cons p t ih =>
      intro h
      obtain ⟨hp, ht⟩ := not_or.1 (mt List.mem_cons.2 h)
      exact (if_neg fun e => hp e.symm).trans (ih ht)
  unfold State.core
  rw [absent _ h]
  rfl

/-! ### The recall (04 R92) -/

/-- A core's filter confirms no page that stands in a range. -/
def Core.confirmsNone (space : BitVec 16) (base n : Nat) (c : Core) : Prop :=
  ∀ e ∈ c.filter, inRange e.space space e.vbase base n = true → e.cf = false

/-- A core's L1 holds no frame that stands in a range. -/
def Core.holdsNone (space : BitVec 16) (base n : Nat) (c : Core) : Prop :=
  ∀ f ∈ c.l1, inRange f.space space f.base base n = false

/-- A filter entry that overlaps a range of a space is no longer confirmed (04 R92). -/
def FilterEntry.recalled (space : BitVec 16) (base n : Nat) (e : FilterEntry) : FilterEntry :=
  if inRange e.space space e.vbase base n || inRange e.space space base e.vbase (2 ^ e.lg) then { e with cf := false } else e

/-- A core takes the confirmation from the pages of a range (04 R92). -/
def State.clearRange (space : BitVec 16) (base n : Nat) (s : State) (k : Nat) : State :=
  s.setCore k { s.core k with filter := (s.core k).filter.map (FilterEntry.recalled space base n) }

/-- The recall of a name, by its passes. -/
theorem State.recallName_eq (s : State) (die : Nat) (n : NameRec) :
    ∃ t u : State, u = (t.cores.map (·.1)).foldl (State.clearRange n.space n.vbase (2 ^ n.lg)) t ∧
      let v := (u.flushRange n.space n.vbase (2 ^ n.lg)).dropHome n.frame (2 ^ n.lg)
      s.recallName die n = v.setDie die { v.die die with names := (v.die die).names.filter fun m => m ≠ n } :=
  ⟨(s.cores.map (·.1)).foldl (fun s c => s.settleStores c n.space n.vbase (2 ^ n.lg)) s, _, rfl, rfl⟩

theorem FilterEntry.recalled_cf {e : FilterEntry} {space : BitVec 16} {base n : Nat}
    (h : inRange (e.recalled space base n).space space (e.recalled space base n).vbase base n = true) :
    (e.recalled space base n).cf = false := by
  unfold FilterEntry.recalled at h ⊢
  split
  · rfl
  · rename_i out
    rw [if_neg out] at h
    simp [h] at out

theorem Core.confirmsNone_recalled (c : Core) (space : BitVec 16) (base n : Nat) :
    Core.confirmsNone space base n { c with filter := c.filter.map (FilterEntry.recalled space base n) } := by
  intro e he hr
  obtain ⟨q, -, rfl⟩ := List.mem_map.1 he
  exact FilterEntry.recalled_cf hr

/-- After the pass over the filters none confirms a page of the range. -/
theorem State.confirmsNone_foldl_clearRange (s : State) (space : BitVec 16) (base n k : Nat) :
    Core.confirmsNone space base n (((s.cores.map (·.1)).foldl (State.clearRange space base n) s).core k) := by
  refine foldl_establishes (P := fun s k => Core.confirmsNone space base n (s.core k)) (fun s c => ?_) (fun s c k h => ?_) _ s k ?_
  · unfold State.clearRange
    rw [State.core_setCore, if_pos rfl]
    exact Core.confirmsNone_recalled _ _ _ _
  · unfold State.clearRange
    rw [State.core_setCore]
    split
    · exact Core.confirmsNone_recalled _ _ _ _
    · exact h
  · by_cases hk : k ∈ s.cores.map (·.1)
    · exact .inl hk
    · refine .inr fun e he => ?_
      rw [State.core_unlisted hk] at he
      cases he

/-- Whether a frame overlaps a range of a space. -/
def Frame.overlaps (space : BitVec 16) (base n : Nat) (f : Frame) : Bool :=
  inRange f.space space f.base base n || inRange f.space space base f.base f.tclass.block

/-- Flushing a core's L1 drops the frames of the range there, and changes no other L1 and no filter. -/
theorem State.core_flushL1Range (s : State) (core : Nat) (space : BitVec 16) (base n k : Nat) :
    ((s.flushL1Range core space base n).core k).filter = (s.core k).filter ∧
      ((s.flushL1Range core space base n).core k).l1 =
        if k = core then (s.core k).l1.filter fun f => !f.overlaps space base n else (s.core k).l1 := by
  unfold State.flushL1Range
  dsimp only
  generalize hu : s.setCore core _ = u
  obtain ⟨l, f, -⟩ := (u.sameL1_drainL1 core).core k
  rw [f, l, ← hu, State.core_setCore]
  split
  · rename_i e
    subst e
    exact ⟨rfl, rfl⟩
  · exact ⟨rfl, rfl⟩

theorem Core.holdsNone_flushL1Range_self (s : State) (space : BitVec 16) (base n core : Nat) :
    Core.holdsNone space base n ((s.flushL1Range core space base n).core core) := by
  intro f hf
  rw [(s.core_flushL1Range core space base n core).2, if_pos rfl] at hf
  have out : f.overlaps space base n = false := by simpa using (List.mem_filter.1 hf).2
  exact (Bool.or_eq_false_iff.1 out).1

theorem Core.holdsNone_flushL1Range {s : State} {space : BitVec 16} {base n k : Nat} (core : Nat)
    (h : Core.holdsNone space base n (s.core k)) : Core.holdsNone space base n ((s.flushL1Range core space base n).core k) := by
  intro f hf
  rw [(s.core_flushL1Range core space base n k).2] at hf
  split at hf
  · exact h f (List.mem_of_mem_filter hf)
  · exact h f hf

theorem State.filter_foldl_flushL1Range (space : BitVec 16) (base n k : Nat) (l : List Nat) (s : State) :
    ((l.foldl (fun s c => s.flushL1Range c space base n) s).core k).filter = (s.core k).filter := by
  induction l generalizing s with
  | nil => rfl
  | cons c l ih => exact (ih _).trans (s.core_flushL1Range c space base n k).1

theorem State.sameL1_flushL2Range (s : State) (k : Nat) (space : BitVec 16) (base n : Nat) :
    s.SameL1 (s.flushL2Range k space base n) :=
  (s.sameL1_setCluster k _).trans (State.sameLines_drainL2 _ _).toSameL1

theorem State.sameL1_foldl_flushL2Range (space : BitVec 16) (base n : Nat) (l : List Nat) (s : State) :
    s.SameL1 (l.foldl (fun s c => s.flushL2Range c space base n) s) := by
  induction l generalizing s with
  | nil => exact (SameUnits.refl s).sameLines.toSameL1
  | cons c l ih => exact (s.sameL1_flushL2Range c space base n).trans (ih _)

/-- Flushing a range keeps every filter, and leaves no line of the range in an L1. -/
theorem State.core_flushRange (s : State) (space : BitVec 16) (base n k : Nat) :
    ((s.flushRange space base n).core k).filter = (s.core k).filter ∧
      Core.holdsNone space base n ((s.flushRange space base n).core k) := by
  unfold State.flushRange
  dsimp only
  generalize hu : (s.cores.map (·.1)).foldl (fun s c => s.flushL1Range c space base n) s = u
  obtain ⟨l1, filter, -⟩ := (u.sameL1_foldl_flushL2Range space base n (u.clusters.map (·.1))).core k
  have dropped : Core.holdsNone space base n (u.core k) := by
    rw [← hu]
    refine foldl_establishes (P := fun s k => Core.holdsNone space base n (s.core k))
      (fun s c => Core.holdsNone_flushL1Range_self s space base n c) (fun s c k h => Core.holdsNone_flushL1Range c h) _ s k ?_
    by_cases hk : k ∈ s.cores.map (·.1)
    · exact .inl hk
    · refine .inr fun f hf => ?_
      rw [State.core_unlisted hk] at hf
      cases hf
  refine ⟨?_, fun f hf => dropped f ?_⟩
  · rw [filter, ← hu]
    exact State.filter_foldl_flushL1Range _ _ _ _ _ _
  · rwa [l1] at hf

theorem inRange_iff (space space' : BitVec 16) (va base n : Nat) :
    inRange space space' va base n = true ↔ space = space' ∧ base ≤ va ∧ va < base + n := by
  simp only [inRange, Bool.and_eq_true, decide_eq_true_eq, and_assoc]

/-- A recall frees the record; then no filter confirms a page of its range, and no L1 holds a line of it (04 R92). -/
theorem State.recallName_frees (s : State) (die : Nat) (n : NameRec) :
    n ∉ ((s.recallName die n).die die).names ∧ ∀ k, Core.confirmsNone n.space n.vbase (2 ^ n.lg) ((s.recallName die n).core k) ∧
      Core.holdsNone n.space n.vbase (2 ^ n.lg) ((s.recallName die n).core k) := by
  obtain ⟨t, u, hu, e⟩ := s.recallName_eq die n
  rw [e, State.die_setDie, if_pos rfl]
  refine ⟨by simp, fun k => ?_⟩
  obtain ⟨filter, none⟩ := u.core_flushRange n.space n.vbase (2 ^ n.lg) k
  refine ⟨fun q hq => ?_, none⟩
  have confirms := t.confirmsNone_foldl_clearRange n.space n.vbase (2 ^ n.lg) k
  rw [← hu] at confirms
  exact confirms q (filter ▸ hq)

theorem execNameRecall_room {s : State} {die : Nat} (idx : Nat) (h : (s.die die).names.length < 16384) :
    execNameRecall die idx s = .next s := by
  unfold execNameRecall Die.namesFull
  rw [if_pos (by simpa using h)]

theorem execNameRecall_full {s : State} {die idx : Nat} {n : NameRec} (h : 16384 ≤ (s.die die).names.length)
    (hn : (s.die die).names[idx]? = some n) : execNameRecall die idx s = .next (s.recallName die n) := by
  unfold execNameRecall Die.namesFull
  rw [if_neg (by simpa using h), hn]

/-! ### Memory errors (03 R61, 27 R391) -/

theorem mem_nins (l : List Nat) (i : Nat) : i ∈ nins l i := by
  induction l with
  | nil => exact List.mem_singleton.2 rfl
  | cons k t ih =>
    unfold nins
    split
    · exact List.mem_cons_self
    · split
      · rename_i e
        exact e ▸ List.mem_cons_self
      · exact List.mem_cons_of_mem _ ih

theorem execEccError_absent {s : State} {place : EccPlace} {unit addr : Nat} {space : BitVec 16} (fixable : Bool)
    (h : s.errorAt place unit space addr = none) : execEccError place unit space addr fixable s = .next s := by
  unfold execEccError
  rw [h]

theorem execEccError_fixable {s : State} {place : EccPlace} {unit addr : Nat} {space : BitVec 16}
    (h : s.errorAt place unit space addr ≠ none) :
    execEccError place unit space addr true s = .next s.countCorrected := by
  obtain ⟨t, ht⟩ := Option.ne_none_iff_exists'.1 h
  unfold execEccError
  rw [ht]
  rfl

/-- An uncorrectable error in a word of the scratchpad, whose place has no physical address. -/
theorem execEccError_scratchpad {s : State} {unit addr : Nat} (space : BitVec 16) (h : addr < 1015808) :
    let t := s.setCore unit { s.core unit with spPoison := nins (s.core unit).spPoison (addr / 8) }
    execEccError .scratchpad unit space addr false s =
      .next ((t.choose (2 ^ 52)).2.countUncorrectable (errorDie .scratchpad unit addr) (t.choose (2 ^ 52)).1) := by
  intro t
  have at_word : s.errorAt .scratchpad unit space addr = some t := by
    unfold State.errorAt
    exact if_pos h
  unfold execEccError
  rw [at_word]
  rfl

theorem recallAndErrorSteps : RecallAndErrorSteps := by
  refine ⟨fun s die idx h => execNameRecall_room idx h, fun s die idx n h hn => ?_, fun s place unit space addr =>
    ⟨fun h fixable => execEccError_absent fixable h, fun h => execEccError_fixable h, fun h => ?_⟩⟩
  · obtain ⟨freed, cores⟩ := s.recallName_frees die n
    refine ⟨_, execNameRecall_full h hn, freed, fun k => ?_⟩
    obtain ⟨confirms, holds⟩ := cores k
    refine ⟨fun e he hs lo hi => confirms e he ((inRange_iff _ _ _ _ _).2 ⟨hs, lo, hi⟩), fun f hf at_range => ?_⟩
    rw [← inRange_iff, holds f hf] at at_range
    cases at_range
  · refine ⟨_, execEccError_scratchpad space h, ?_, rfl, rfl, rfl⟩
    have poisoned := mem_nins (s.core unit).spPoison (addr / 8)
    generalize hu : s.setCore unit _ = u
    have core : (u.core unit).spPoison = nins (s.core unit).spPoison (addr / 8) := by
      rw [← hu, State.core_setCore, if_pos rfl]
    exact core ▸ poisoned

/-! # The index scratchpad (17 R321, R322; 03 R72) -/

/-! ### Elements of registers and their checks (15 R273) -/

theorem Hart.capacity_of_valued {g : Hart} {n : Nat} (h : tagIs (g.tag n) valued = true) (v : Nat) :
    (g.tagAt n).width = 64 ∧ (g.tagAt n).capacity v = v / 64 := by
  obtain ⟨t, ht⟩ : ∃ t, g.tag n = some t := by
    cases e : g.tag n with
    | none => rw [e] at h; cases h
    | some t => exact ⟨t, rfl⟩
  rw [ht] at h
  obtain ⟨hs, hf⟩ := Bool.and_eq_true_iff.1 (show valued t = true from h)
  have hs : t.scale = none := by simpa using hs
  have hw : t.width = 64 := by
    simp only [Bool.or_eq_true, decide_eq_true_eq] at hf
    unfold Tag.width
    rcases hf with (e | e) | e <;> rw [e] <;> rfl
  have at_tag : g.tagAt n = t := by
    unfold Hart.tagAt
    rw [ht]
    rfl
  rw [at_tag]
  refine ⟨hw, ?_⟩
  unfold Tag.capacity
  rw [hs]
  exact congrArg (v / ·) hw

theorem Hart.capacity_of_mask {g : Hart} {n : Nat} (h : (g.getV n).tag = 0x13) (v : Nat) : (g.tagAt n).capacity v = v := by
  have at_tag : g.tagAt n = { fmt := .m1, scale := none } := by
    unfold Hart.tagAt Hart.tag
    rw [h]
    rfl
  rw [at_tag]
  exact Nat.div_one v

theorem State.vlen_le (s : State) : s.vlen ≤ 16384 := Nat.div_le_self _ _

/-- A usable mask passes its check (12 R230). -/
theorem maskOk_of_usable {g : Hart} (h : maskUsable g) : g.maskOk = true := by
  unfold Hart.maskOk
  by_cases on : g.maskOn = true
  · have := h on
    simp [Hart.maskReg, this]
  · simp [on]

/-- Registers that vl fits pass their check. -/
theorem vl_le_caps {g : Hart} {s : State} {regs : List Nat} (h : fits g s regs) : ∀ c ∈ g.caps s regs, g.vl ≤ c := by
  intro c hc
  obtain ⟨n, hn, rfl⟩ := List.mem_map.1 hc
  exact h n hn

theorem vcheck_codeReq {i : Instr} {g : Hart} {s : State} {tags : Bool} {regs : List Nat} (ht : tags = true) (hm : maskUsable g)
    (hf : fits g s regs) : vcheck i g (codeReq false tags (g.caps s regs)) = none :=
  vcheck_none.2 ⟨fun h => (by cases h), ht, fun _ => maskOk_of_usable hm, rfl, vl_le_caps hf⟩

theorem noEntries_none {g : Grant} (h : 0 < g.ixUnits) : noEntries g = none :=
  if_neg (by
    unfold Grant.entries
    omega)

/-- The key of an element is its integer as 64 bits (17 R321). -/
theorem Hart.key_eq (g : Hart) (a : VIx) (i : Nat) : g.key a i = keyAt g a i := by
  unfold Hart.key keyAt Hart.intAt extendCode Fmt.int sext64 Hart.codeAt
  dsimp only
  split
  · rfl
  · have code : (g.getV a.toNat).code (g.tagAt a.toNat).width i % 2 ^ (g.tagAt a.toNat).fmt.width =
        (g.getV a.toNat).code (g.tagAt a.toNat).width i := Nat.mod_eq_of_lt (elt_lt _ _ _)
    rw [code, BitVec.ofInt_natCast]

/-- The bits of a mask register after some of its elements are written. -/
theorem VReg.putAll_mask (r : VReg) {l : List Nat} (p : Nat → Bool) (hl : l.Nodup) (hb : ∀ e ∈ l, e < 16384) (e : Nat) :
    (r.putAll 1 (l.map fun i => (i, (p i).toNat))).bits.getLsbD e = if e ∈ l then p e else r.bits.getLsbD e := by
  have bound : ∀ q ∈ l.map fun i => (i, (p i).toNat), (q.1 + 1) * 1 ≤ 16384 := by
    intro q hq
    obtain ⟨i, hi, rfl⟩ := List.mem_map.1 hq
    have := hb i hi
    dsimp only
    omega
  rw [← BitVec.testBit_toNat, ← BitVec.testBit_toNat]
  split
  · rename_i hm
    have code := r.putAll_code_of_mem 1 _ e (p e).toNat bound (by simpa [Function.comp_def] using hl)
      (List.mem_map.2 ⟨e, hm, rfl⟩)
    have bit0 := congrArg (Nat.testBit · 0) code
    simp only [VReg.code, testBit_elt] at bit0
    cases hp : p e <;> simpa [hp] using bit0
  · rename_i hm
    refine r.putAll_bit_of_outside 1 _ e bound fun q hq => ?_
    obtain ⟨i, hi, rfl⟩ := List.mem_map.1 hq
    have : i ≠ e := fun h => hm (h ▸ hi)
    dsimp only
    omega

/-! ### Updates of the index scratchpad (17 R321) -/

/-- What an update makes of a value that stands in an entry when another arrives: SXACC adds it, SXINS keeps what is there. -/
def arrive (acc : Bool) (f : Fmt) (m b : Word) : Word := if acc then (sxAdd f m b).1 else m

/-- The flags that it raises. -/
def arriveFlags (acc : Bool) (f : Fmt) (o : Option Word) (b : Word) : Nat :=
  match o with
  | some m => if acc then (sxAdd f m b).2 else 0
  | none => 0

theorem aset_length {α : Type} (l : List (Nat × α)) (i : Nat) (x : α) : l.length ≤ (aset l i x).length := by
  induction l with
  | nil => simp [aset]
  | cons p t ih =>
    obtain ⟨k, v⟩ := p
    unfold aset
    split
    · simp
    · split
      · simp
      · simpa using ih

theorem arrived_append (op : Word → Word → Word) (o : Option Word) (v : Word) (vs : List Word) :
    arrived op (arrived op o [v]) vs = arrived op o (v :: vs) := by
  cases o <;> rfl

theorem arrived_ne_none (op : Word → Word → Word) (o : Option Word) (v : Word) (vs : List Word) :
    arrived op o (v :: vs) ≠ none := by
  cases o <;> exact Option.some_ne_none _

theorem isSome_of_arrived {op : Word → Word → Word} {o q : Option Word} {v : Word} {vs : List Word}
    (h : q = arrived op o (v :: vs)) : q.isSome = true :=
  Option.isSome_iff_ne_none.2 (h ▸ arrived_ne_none op o v vs)

/-- One element: its key's entry takes the value, or there is neither an entry of its key nor a free one; every other entry stays
as it was. -/
theorem Grant.step_spec (g : Grant) (acc : Bool) (f : Fmt) (k : Nat) (b : Word) :
    ∃ T, (g.step acc f k b) = ({ g with table := T }, (aget T k).isSome, arriveFlags acc f (aget g.table k) b) ∧
      g.table.length ≤ T.length ∧ (∀ j, j ≠ k → aget T j = aget g.table j) ∧
      (aget T k = arrived (arrive acc f) (aget g.table k) [b] ∨
        (aget T k = none ∧ aget g.table k = none ∧ g.entries ≤ T.length)) := by
  have others : ∀ (x : Word) j, j ≠ k → aget (aset g.table k x) j = aget g.table j := fun x j hj => by
    rw [aget_aset, if_neg hj]
  have own : ∀ x : Word, aget (aset g.table k x) k = some x := fun x => by rw [aget_aset, if_pos rfl]
  unfold Grant.step
  cases hk : aget g.table k with
  | some m =>
    cases acc with
    | true => exact ⟨aset g.table k (sxAdd f m b).1, by rw [own]; rfl, aset_length _ _ _, others _, .inl (own _)⟩
    | false => exact ⟨g.table, by rw [hk]; rfl, le_rfl, fun _ _ => rfl, .inl hk⟩
  | none =>
    by_cases room : g.table.length < g.entries
    · refine ⟨aset g.table k b, ?_, aset_length _ _ _, others _, .inl (own b)⟩
      unfold Grant.insert
      dsimp only
      rw [own, if_pos room]
      rfl
    · refine ⟨g.table, ?_, le_rfl, fun _ _ => rfl, .inr ⟨hk, rfl, not_lt.1 room⟩⟩
      unfold Grant.insert
      dsimp only
      rw [hk, if_neg room]
      rfl

/-- A key that has no entry gets none while the grant is full. -/
theorem Grant.step_full {g : Grant} {k : Nat} (acc : Bool) (f : Fmt) (b : Word) (hf : g.entries ≤ g.table.length)
    (hk : aget g.table k = none) : g.step acc f k b = (g, false, 0) := by
  unfold Grant.step Grant.insert
  rw [hk]
  dsimp only
  rw [if_neg (not_lt.2 hf)]

section

variable (acc : Bool) (f : Fmt) (key val : Nat → Nat)

/-- The values that some elements bring to a key, in order. -/
def arrivals (els : List Nat) (k : Nat) : List Word := (els.filter fun e => key e = k).map fun e => BitVec.ofNat 64 (val e)

theorem arrivals_cons_same {i k : Nat} (els : List Nat) (h : key i = k) :
    arrivals key val (i :: els) k = BitVec.ofNat 64 (val i) :: arrivals key val els k := by
  simp [arrivals, h]

theorem arrivals_cons_other {i k : Nat} (els : List Nat) (h : key i ≠ k) :
    arrivals key val (i :: els) k = arrivals key val els k := by
  simp [arrivals, h]

/-- A run changes nothing of a grant but its entries, of which it removes none. -/
theorem sxRun_table (els : List Nat) (g : Grant) (out : List (Nat × Nat)) (fl : Nat) :
    (sxRun acc f key val els (g, out, fl)).1 = { g with table := (sxRun acc f key val els (g, out, fl)).1.table } ∧
      g.table.length ≤ (sxRun acc f key val els (g, out, fl)).1.table.length := by
  induction els generalizing g out fl with
  | nil => exact ⟨rfl, le_rfl⟩
  | cons i t ih =>
    obtain ⟨T, e, hT, -⟩ := g.step_spec acc f (key i) (BitVec.ofNat 64 (val i))
    unfold sxRun
    dsimp only
    rw [e]
    obtain ⟨same, grows⟩ := ih { g with table := T } (out ++ [(i, (aget T (key i)).isSome.toNat)])
      (fl ||| arriveFlags acc f (aget g.table (key i)) (BitVec.ofNat 64 (val i)))
    exact ⟨same, hT.trans grows⟩

/-- While the grant is full no entry is made. -/
theorem sxRun_full {k : Nat} (els : List Nat) (g : Grant) (out : List (Nat × Nat)) (fl : Nat)
    (hf : g.entries ≤ g.table.length) (hk : aget g.table k = none) :
    aget (sxRun acc f key val els (g, out, fl)).1.table k = none := by
  induction els generalizing g out fl with
  | nil => exact hk
  | cons i t ih =>
    unfold sxRun
    dsimp only
    by_cases h : key i = k
    · rw [h, Grant.step_full acc f _ hf hk]
      exact ih g _ _ hf hk
    · obtain ⟨T, e, hT, others, -⟩ := g.step_spec acc f (key i) (BitVec.ofNat 64 (val i))
      rw [e]
      exact ih { g with table := T } _ _ (hf.trans hT) ((others k (Ne.symm h)).trans hk)

/-- After a run the entry of a key has taken its values in order, or there is none of it and no free one. -/
theorem sxRun_entry (els : List Nat) (g : Grant) (out : List (Nat × Nat)) (fl k : Nat) :
    aget (sxRun acc f key val els (g, out, fl)).1.table k =
        arrived (arrive acc f) (aget g.table k) (arrivals key val els k) ∨
      (aget (sxRun acc f key val els (g, out, fl)).1.table k = none ∧ aget g.table k = none ∧
        g.entries ≤ (sxRun acc f key val els (g, out, fl)).1.table.length) := by
  induction els generalizing g out fl with
  | nil =>
    left
    show aget g.table k = arrived _ (aget g.table k) []
    cases aget g.table k <;> rfl
  | cons i t ih =>
    obtain ⟨T, e, hT, others, own⟩ := g.step_spec acc f (key i) (BitVec.ofNat 64 (val i))
    unfold sxRun
    dsimp only
    rw [e]
    have later := ih { g with table := T } (out ++ [(i, (aget T (key i)).isSome.toNat)])
      (fl ||| arriveFlags acc f (aget g.table (key i)) (BitVec.ofNat 64 (val i)))
    have grows := (sxRun_table acc f key val t { g with table := T } (out ++ [(i, (aget T (key i)).isSome.toNat)])
      (fl ||| arriveFlags acc f (aget g.table (key i)) (BitVec.ofNat 64 (val i)))).2
    have full := sxRun_full acc f key val (k := k) t { g with table := T } (out ++ [(i, (aget T (key i)).isSome.toNat)])
      (fl ||| arriveFlags acc f (aget g.table (key i)) (BitVec.ofNat 64 (val i)))
    generalize sxRun acc f key val t _ = r at later grows full ⊢
    dsimp only at later
    by_cases h : key i = k
    · subst h
      rw [arrivals_cons_same key val t rfl]
      rcases own with own | ⟨absent, before, no_room⟩
      · rw [own, arrived_append] at later
        exact later.imp_right fun ⟨_, gone, _⟩ => absurd gone (arrived_ne_none _ _ _ _)
      · exact .inr ⟨full no_room absent, before, no_room.trans grows⟩
    · rw [others k (Ne.symm h)] at later
      rw [arrivals_cons_other key val t h]
      exact later

/-- Whether the key of an element that has been taken has an entry does not change any more. -/
theorem sxRun_present {els : List Nat} {g : Grant} {out : List (Nat × Nat)} {fl k : Nat}
    (h : (aget g.table k).isSome = true ∨ g.entries ≤ g.table.length) :
    (aget (sxRun acc f key val els (g, out, fl)).1.table k).isSome = (aget g.table k).isSome := by
  cases hk : aget g.table k with
  | some m =>
    rcases sxRun_entry acc f key val els g out fl k with e | ⟨-, e, -⟩
    · rw [e, hk]
      rfl
    · rw [hk] at e
      cases e
  | none =>
    rw [hk] at h
    rw [sxRun_full acc f key val els g out fl (h.resolve_left (by simp)) hk]

/-- The results of a run say of each element whether its key has an entry afterwards. -/
theorem sxRun_results (els : List Nat) (g : Grant) (out : List (Nat × Nat)) (fl : Nat) :
    (sxRun acc f key val els (g, out, fl)).2.1 =
      out ++ els.map fun i => (i, (aget (sxRun acc f key val els (g, out, fl)).1.table (key i)).isSome.toNat) := by
  induction els generalizing g out fl with
  | nil => simp [sxRun]
  | cons i t ih =>
    obtain ⟨T, e, hT, -, own⟩ := g.step_spec acc f (key i) (BitVec.ofNat 64 (val i))
    unfold sxRun
    dsimp only
    rw [e]
    dsimp only
    have taken : (aget T (key i)).isSome = true ∨ g.entries ≤ T.length :=
      own.imp (fun o => isSome_of_arrived o) fun ⟨_, _, full⟩ => full
    rw [ih, List.map_cons, sxRun_present acc f key val (g := { g with table := T }) taken]
    simp

/-! ### The flags of a run -/

/-- A run that is not an addition of f64 values raises no flag. -/
theorem sxRun_noFlags (h : ¬(acc = true ∧ f = .f64)) (els : List Nat) (g : Grant) (out : List (Nat × Nat)) (fl : Nat) :
    (sxRun acc f key val els (g, out, fl)).2.2 = fl := by
  induction els generalizing g out fl with
  | nil => rfl
  | cons i t ih =>
    obtain ⟨T, e, -⟩ := g.step_spec acc f (key i) (BitVec.ofNat 64 (val i))
    have none : arriveFlags acc f (aget g.table (key i)) (BitVec.ofNat 64 (val i)) = 0 := by
      unfold arriveFlags
      split
      · split
        · rename_i ha
          unfold sxAdd
          rw [if_neg fun hf => h ⟨ha, hf⟩]
        · rfl
      · rfl
    unfold sxRun
    dsimp only
    rw [e, none, ih]
    exact Nat.or_zero fl

theorem sumFlags_nil (o : Option Word) : sumFlags o [] = 0 := by cases o <;> rfl

/-- The flags of an entry's f64 sums are those of its first value and of the others. -/
theorem sumFlags_cons (o : Option Word) (b : Word) (vs : List Word) :
    sumFlags o (b :: vs) = arriveFlags true .f64 o b ||| sumFlags (arrived (arrive true .f64) o [b]) vs := by
  cases o with
  | none => exact (Nat.zero_or _).symm
  | some m => rfl

/-- Flags of an entry come from a value that an element brought to it. -/
theorem exists_of_sumFlags {els : List Nat} {k n : Nat} {o : Option Word}
    (h : (sumFlags o (arrivals key val els k)).testBit n = true) : ∃ e ∈ els, key e = k := by
  by_contra none
  have empty : arrivals key val els k = [] := by
    unfold arrivals
    rw [List.filter_eq_nil_iff.2 fun e he hk => none ⟨e, he, by simpa using hk⟩, List.map_nil]
  rw [empty, sumFlags_nil, Nat.zero_testBit] at h
  cases h

/-- The flags of an entry are those that the first of some elements raises and those of the others: `o` is the entry before it,
`q` the entry behind it. -/
theorem sumFlags_arrivals_cons {i k : Nat} {o q : Option Word} (t : List Nat)
    (own : key i = k → q = arrived (arrive true .f64) o [BitVec.ofNat 64 (val i)]) (other : key i ≠ k → q = o) :
    sumFlags o (arrivals key val (i :: t) k) =
      (if key i = k then arriveFlags true .f64 o (BitVec.ofNat 64 (val i)) else 0) ||| sumFlags q (arrivals key val t k) := by
  by_cases h : key i = k
  · rw [if_pos h, arrivals_cons_same key val t h, sumFlags_cons, own h]
  · rw [if_neg h, arrivals_cons_other key val t h, other h, Nat.zero_or]

/-- SXACC of f64 values accrues the flags of the sums of the entries that it comes to, each of them and no other. -/
theorem sxRun_flags (els : List Nat) (g : Grant) (out : List (Nat × Nat)) (fl n : Nat) :
    (sxRun true .f64 key val els (g, out, fl)).2.2.testBit n = true ↔ fl.testBit n = true ∨
      ∃ e ∈ els, (aget (sxRun true .f64 key val els (g, out, fl)).1.table (key e)).isSome = true ∧
        (sumFlags (aget g.table (key e)) (arrivals key val els (key e))).testBit n = true := by
  induction els generalizing g out fl with
  | nil => simp [sxRun]
  | cons i t ih =>
    obtain ⟨T, e, hT, others, own⟩ := g.step_spec true .f64 (key i) (BitVec.ofNat 64 (val i))
    unfold sxRun
    dsimp only
    rw [e]
    dsimp only
    rw [ih, Nat.testBit_or, Bool.or_eq_true]
    have present := sxRun_present true .f64 key val (els := t) (g := { g with table := T })
      (out := out ++ [(i, (aget T (key i)).isSome.toNat)])
      (fl := fl ||| arriveFlags true .f64 (aget g.table (key i)) (BitVec.ofNat 64 (val i))) (k := key i)
    generalize sxRun true .f64 key val t _ = r at present ⊢
    have taken : (aget T (key i)).isSome = true ∨ g.entries ≤ T.length :=
      own.imp (fun o => isSome_of_arrived o) fun ⟨_, _, full⟩ => full
    have present : (aget r.1.table (key i)).isSome = (aget T (key i)).isSome := present taken
    have parts : ∀ k, (aget r.1.table k).isSome = true → sumFlags (aget g.table k) (arrivals key val (i :: t) k) =
        (if key i = k then arriveFlags true .f64 (aget g.table k) (BitVec.ofNat 64 (val i)) else 0) |||
          sumFlags (aget T k) (arrivals key val t k) := by
      refine fun k hk => sumFlags_arrivals_cons key val t (fun h => ?_) fun h => others k (Ne.symm h)
      subst h
      exact own.resolve_right fun ⟨absent, _⟩ => by simp [present, absent] at hk
    constructor
    · rintro ((h | h) | ⟨e, he, hp, hb⟩)
      · exact .inl h
      · have some : (aget r.1.table (key i)).isSome = true := by
          rw [present]
          rcases own with own | ⟨-, before, -⟩
          · exact isSome_of_arrived own
          · rw [before] at h
            exact absurd h (by simp [arriveFlags])
        refine .inr ⟨i, List.mem_cons_self, some, ?_⟩
        rw [parts _ some, if_pos rfl, Nat.testBit_or, h, Bool.true_or]
      · refine .inr ⟨e, List.mem_cons_of_mem _ he, hp, ?_⟩
        rw [parts _ hp, Nat.testBit_or, hb, Bool.or_true]
    · rintro (h | ⟨e, he, hp, hb⟩)
      · exact .inl (.inl h)
      · rw [parts _ hp, Nat.testBit_or, Bool.or_eq_true] at hb
        rcases hb with hb | hb
        · by_cases h : key i = key e
          · rw [if_pos h, ← h] at hb
            exact .inl (.inr hb)
          · rw [if_neg h, Nat.zero_testBit] at hb
            cases hb
        · obtain ⟨q, hq, hk⟩ := exists_of_sumFlags key val hb
          refine .inr ⟨q, hq, ?_, ?_⟩
          · rwa [hk]
          · rwa [hk]

end

/-! ### SXINS and SXACC (17 R321) -/

theorem arrive_acc (f : Fmt) : arrive true f = indexSum f := by
  funext m v
  unfold arrive indexSum sxAdd
  rw [if_pos rfl]
  split <;> rfl

theorem sxPoison_none {g : Grant} {key : Nat → Nat} {els : List Nat} (h : ∀ e ∈ els, key e ∉ g.tablePoison) :
    sxPoison g key els = (els, none) := by
  unfold sxPoison
  rw [List.find?_eq_none.2 fun e he => by simpa using h e he]

/-- The hart that an update leaves. -/
theorem Hart.updateDone_eq (h : Hart) (w : BitVec 8) (fl : Nat) :
    ({ h with owed := 0 }.accrue (w ||| BitVec.ofNat 8 fl)).countStore.vdone =
      { vectorDone h (w.toNat ||| fl) with nst := h.nst + 1, owed := 0 } := by
  have flags : BitVec.ofNat 8 (w.toNat ||| fl) = w ||| BitVec.ofNat 8 fl := by
    rw [BitVec.ofNat_or, BitVec.ofNat_toNat, BitVec.setWidth_eq]
  unfold vectorDone
  rw [flags]
  rfl

/-- Vector registers that nothing holds: the instruction finds the hart with the older loads settled. -/
theorem withVec_at {s : State} {h : Hart} {reads writes : List Nat} (k : Hart → State → Out) (hm : s.me = some h)
    (hu : unheldVec s h reads writes) : withVec reads writes s k = k (atVec h reads writes) s :=
  withVec_free _ _ _ hm hu.1 hu.2

/-- An update whose checks pass takes its elements in order. -/
theorem sxUpdate_next {i : Instr} {acc : Bool} {d a b : VIx} {s : State} {h g : Hart} (hm : s.me = some h)
    (hu : unheldVec s h [a.toNat, b.toNat] [d.toNat]) (hg : atVec h [a.toNat, b.toNat] [d.toNat] = g)
    (ha : g.intTag a.toNat = true) (hb : tagIs (g.tag b.toNat) valued = true) (hd : (g.getV d.toNat).tag = 0x13)
    (hk : maskUsable g) (hf : fits g s [d.toNat, a.toNat, b.toNat]) (hx : 0 < (s.myGrant g).ixUnits)
    (hp : ∀ e ∈ g.actives, keyAt g a e ∉ (s.myGrant g).tablePoison) {r : Grant × List (Nat × Nat) × Nat}
    (hr : r = sxRun acc (g.tagAt b.toNat).fmt (keyAt g a) (at_ g b) g.actives (s.myGrant g, [], 0)) :
    sxUpdate i acc d a b s = .next ((s.setCore s.myCore ((s.core s.myCore).setGrant r.1)).setMe
      { vectorDone (g.setV d.toNat ((g.getV d.toNat).putAll 1 r.2.1)) (g.owed.toNat ||| r.2.2) with
        nst := g.nst + 1, owed := 0 }) := by
  have keys : g.key a = keyAt g a := funext fun i => g.key_eq a i
  have tags : (g.intTag a.toNat && tagIs (g.tag b.toNat) valueTag && g.maskTag d.toNat) = true := by
    have hd' : g.maskTag d.toNat = true := decide_eq_true hd
    rw [ha, hd']
    exact (Bool.and_true _).trans hb
  have clean : (if acc then sxPoison (s.myGrant g) (keyAt g a) g.actives else (g.actives, none)) = (g.actives, none) := by
    rw [sxPoison_none hp, ite_self]
  unfold sxUpdate
  rw [withVec_at _ hm hu, hg]
  dsimp only
  rw [vcheck_codeReq tags hk hf, checked_none, noEntries_none hx, checked_none, keys, clean]
  dsimp only
  rw [show g.codeAt b.toNat = at_ g b from rfl, ← hr]
  unfold endIx Hart.putElems
  dsimp only
  rw [Hart.updateDone_eq]
  simp only [Hart.setV_owed, Hart.setV_nst]

/-- The elements that take part in an operation on a register that vl fits are its own. -/
theorem actives_lt {g : Hart} {s : State} {n i : Nat} {regs : List Nat} (hf : fits g s regs) (hn : n ∈ regs) (hi : i ∈ g.actives) :
    i < (g.tagAt n).capacity s.vlen :=
  lt_of_lt_of_le ((g.mem_actives i).1 hi).1 (hf n hn)

theorem actives_lt_mask {g : Hart} {s : State} {n i : Nat} {regs : List Nat} (hf : fits g s regs) (hn : n ∈ regs)
    (ht : (g.getV n).tag = 0x13) (hi : i ∈ g.actives) : i < 16384 := by
  have := actives_lt hf hn hi
  rw [Hart.capacity_of_mask ht] at this
  exact lt_of_lt_of_le this s.vlen_le

/-- SXINS and SXACC are updates. -/
theorem exec_updateForm {i : Instr} {d a b : VIx} {op : Fmt → Word → Word → Word} (h : updateForm i = some (d, a, b, op)) :
    ∃ acc, (∀ s, exec i s = sxUpdate i acc d a b s) ∧ (∀ f, arrive acc f = op f) ∧ (acc = true ↔ sums i) := by
  cases i
  case sxins =>
    cases h
    exact ⟨false, fun s => rfl, fun f => rfl, by simp [sums]⟩
  case sxacc =>
    cases h
    exact ⟨true, fun s => rfl, arrive_acc, by simp [sums]⟩
  all_goals cases h

theorem indexUpdateResults : IndexUpdateResults := by
  intro i d a b op s h hi hm hu
  obtain ⟨acc, run, hop, hacc⟩ := exec_updateForm hi
  intro g c gr f ha hb hd hk hf hx hp
  have next := (run s).trans (sxUpdate_next (i := i) (acc := acc) hm hu rfl ha hb hd hk hf hx hp rfl)
  have bound : ∀ e ∈ g.actives, e < 16384 := fun e he => actives_lt_mask hf (List.mem_cons_self) hd he
  change exec i s = .next ((s.setCore s.myCore (c.setGrant (sxRun acc f (keyAt g a) (at_ g b) g.actives (gr, [], 0)).1)).setMe
    { vectorDone (g.setV d.toNat ((g.getV d.toNat).putAll 1 (sxRun acc f (keyAt g a) (at_ g b) g.actives (gr, [], 0)).2.1))
        (g.owed.toNat ||| (sxRun acc f (keyAt g a) (at_ g b) g.actives (gr, [], 0)).2.2) with
      nst := g.nst + 1, owed := 0 }) at next
  clear_value f gr g
  obtain ⟨table, -⟩ := sxRun_table acc f (keyAt g a) (at_ g b) g.actives gr [] 0
  refine ⟨_, _, _, table ▸ next, fun no => ?_, fun hs hf64 n => ?_, ((g.getV d.toNat).putAll_tag _ _).trans hd, fun e _ => ?_,
    fun k => ?_⟩
  · exact sxRun_noFlags acc f _ _ (fun both => no ⟨hacc.1 both.1, both.2⟩) _ _ _ _
  · obtain rfl := hacc.2 hs
    subst hf64
    have flags := sxRun_flags (keyAt g a) (at_ g b) g.actives gr [] 0 n
    rw [Nat.zero_testBit] at flags
    exact flags.trans (or_iff_right Bool.false_ne_true)
  · rw [sxRun_results, List.nil_append]
    exact VReg.putAll_mask _ (fun i => (aget _ (keyAt g a i)).isSome) g.actives_nodup bound e
  · have entry := sxRun_entry acc f (keyAt g a) (at_ g b) g.actives gr [] 0 k
    rw [hop f] at entry
    exact entry

/-! ### SXLKP (17 R322) -/

theorem Hart.vdone_eq (h : Hart) : h.vdone = vectorDone h 0 := by
  have flags : h.ctl.fflags ||| (BitVec.ofNat 8 0).setWidth 64 = h.ctl.fflags := by simp
  unfold vectorDone
  rw [flags]
  rfl

theorem endLoad_none {g : Hart} {s : State} (b : Bool) : endLoad b none none g s = .next (s.setMe (vectorDone g 0)) :=
  congrArg (fun q => Host.Outcome.next (s.setMe q)) g.vdone_eq

theorem endLoad_some {g : Hart} {s : State} (b : Bool) (p : PendingLoad) :
    endLoad b (some p) none g s = .next (s.setMe (vectorDone (owed g [p]) 0)) :=
  congrArg (fun q => Host.Outcome.next (s.setMe q)) (g.owe p).vdone_eq

/-- The entries of a register after values are written into those of some elements that have one. -/
theorem VReg.putAll_values (r : VReg) {l : List Nat} (v : Nat → Option Word) (hl : l.Nodup) (hb : ∀ e ∈ l, (e + 1) * 64 ≤ 16384)
    (i : Nat) :
    elt (r.putAll 64 (l.filterMap fun i => (v i).map fun x => (i, x.toNat))).bits.toNat 64 i =
      if i ∈ l then ((v i).map BitVec.toNat).getD (elt r.bits.toNat 64 i) else elt r.bits.toNat 64 i := by
  have mem : ∀ q : Nat × Nat, q ∈ l.filterMap (fun i => (v i).map fun x => (i, x.toNat)) ↔
      q.1 ∈ l ∧ ∃ x, v q.1 = some x ∧ x.toNat = q.2 := by
    intro q
    simp only [List.mem_filterMap, Option.map_eq_some_iff]
    constructor
    · rintro ⟨j, hj, x, hx, rfl⟩
      exact ⟨hj, x, hx, rfl⟩
    · rintro ⟨hj, x, hx, e⟩
      exact ⟨q.1, hj, x, hx, Prod.ext rfl e⟩
  have bound : ∀ q ∈ l.filterMap (fun i => (v i).map fun x => (i, x.toNat)), (q.1 + 1) * 64 ≤ 16384 :=
    fun q hq => hb _ ((mem q).1 hq).1
  have firsts : (l.filterMap fun i => (v i).map fun x => (i, x.toNat)).map (·.1) = l.filter fun i => (v i).isSome := by
    rw [List.map_filterMap, ← List.filterMap_eq_filter]
    congr 1
    funext i
    cases h : v i <;> simp [Option.guard, h]
  have nodup : ((l.filterMap fun i => (v i).map fun x => (i, x.toNat)).map (·.1)).Nodup := by
    rw [firsts]
    exact hl.filter _
  by_cases taken : i ∈ l ∧ ∃ x, v i = some x
  · obtain ⟨hi, x, hx⟩ := taken
    rw [if_pos hi, hx]
    have code := r.putAll_code_of_mem 64 _ i x.toNat bound nodup ((mem _).2 ⟨hi, x, hx, rfl⟩)
    exact code.trans (Nat.mod_eq_of_lt x.isLt)
  · have out : ∀ q ∈ l.filterMap (fun i => (v i).map fun x => (i, x.toNat)), q.1 ≠ i := by
      rintro q hq rfl
      obtain ⟨hq, x, hx, -⟩ := (mem q).1 hq
      exact taken ⟨hq, x, hx⟩
    refine (r.putAll_code_of_notMem 64 _ i bound out).trans ?_
    split
    · rename_i hi
      cases hv : v i with
      | none => rfl
      | some x => exact absurd ⟨hi, x, hv⟩ taken
    · rfl

/-- A look-up whose checks pass makes the values and the bits of its elements pending. -/
theorem execSxlkp_next {e : Hint} {d a b : VIx} {s : State} {h g : Hart} (hm : s.me = some h)
    (hu : unheldVec s h [a.toNat] [d.toNat, b.toNat]) (hg : atVec h [a.toNat] [d.toNat, b.toNat] = g)
    (ha : g.intTag a.toNat = true) (hd : tagIs (g.tag d.toNat) valued = true) (hb : (g.getV b.toNat).tag = 0x13)
    (hk : maskUsable g) (hf : fits g s [d.toNat, a.toNat, b.toNat]) (hx : 0 < (s.myGrant g).ixUnits)
    (hp : ∀ i ∈ g.actives, keyAt g a i ∉ (s.myGrant g).tablePoison) :
    execSxlkp e d a b s = endLoad false (if g.actives.isEmpty then none else some (.vv d b
      ((g.getV d.toNat).putAll 64 (g.actives.filterMap fun i =>
        (aget (s.myGrant g).table (keyAt g a i)).map fun v => (i, v.toNat)))
      ((g.getV b.toNat).putAll 1 (g.actives.map fun i =>
        (i, (aget (s.myGrant g).table (keyAt g a i)).isSome.toNat))))) none g s := by
  have keys : g.key a = keyAt g a := funext fun i => g.key_eq a i
  have tags : (g.intTag a.toNat && tagIs (g.tag d.toNat) valueTag && g.maskTag b.toNat) = true := by
    have hb' : g.maskTag b.toNat = true := decide_eq_true hb
    rw [ha, hb']
    exact (Bool.and_true _).trans hd
  unfold execSxlkp
  rw [withVec_at _ hm hu, hg]
  dsimp only
  rw [vcheck_codeReq tags hk hf, checked_none, noEntries_none hx, checked_none, keys, sxPoison_none hp]

theorem indexLookup (s : State) (h : Hart) (e : Hint) (d a b : VIx) (hm : s.me = some h)
    (hu : unheldVec s h [a.toNat] [d.toNat, b.toNat]) :
    let g := atVec h [a.toNat] [d.toNat, b.toNat]
    let gr := (s.core s.myCore).grantOf g.blk
    g.intTag a.toNat = true → tagIs (g.tag d.toNat) valued = true → (g.getV b.toNat).tag = 0x13 → maskUsable g →
    fits g s [d.toNat, a.toNat, b.toNat] → 0 < gr.ixUnits → (∀ i ∈ g.actives, keyAt g a i ∉ gr.tablePoison) →
    (g.actives = [] → completes (.sxlkp e d a b) s (vectorDone g 0)) ∧
    (g.actives ≠ [] → ∃ x y, completes (.sxlkp e d a b) s (vectorDone (owed g [.vv d b x y]) 0) ∧
      x.tag = (g.getV d.toNat).tag ∧ y.tag = 0x13 ∧
      (∀ i, i < 256 → elt x.bits.toNat 64 i =
        if i ∈ g.actives then ((aget gr.table (keyAt g a i)).map BitVec.toNat).getD (at_ g d i) else at_ g d i) ∧
      ∀ i, i < 16384 → y.bits.getLsbD i =
        if i ∈ g.actives then (aget gr.table (keyAt g a i)).isSome else (g.getV b.toNat).bits.getLsbD i) := by
  intro g gr ha hd hb hk hf hx hp
  have next := execSxlkp_next (e := e) hm hu rfl ha hd hb hk hf hx hp
  change execSxlkp e d a b s = endLoad false (if g.actives.isEmpty then none else some (.vv d b
      ((g.getV d.toNat).putAll 64 (g.actives.filterMap fun i => (aget gr.table (keyAt g a i)).map fun v => (i, v.toNat)))
      ((g.getV b.toNat).putAll 1 (g.actives.map fun i => (i, (aget gr.table (keyAt g a i)).isSome.toNat))))) none g s at next
  clear_value gr g
  obtain ⟨width, capacity⟩ := Hart.capacity_of_valued hd s.vlen
  refine ⟨fun none => ?_, fun some => ?_⟩
  · rw [none] at next
    exact next.trans (endLoad_none _)
  · rw [if_neg (by simpa using some)] at next
    refine ⟨_, _, next.trans (endLoad_some _ _), VReg.putAll_tag _ _ _, (VReg.putAll_tag _ _ _).trans hb, fun i _ => ?_,
      fun i _ => ?_⟩
    · have bound : ∀ e ∈ g.actives, (e + 1) * 64 ≤ 16384 := by
        intro e he
        have lt := actives_lt hf List.mem_cons_self he
        rw [capacity] at lt
        have := s.vlen_le
        omega
      have values := (g.getV d.toNat).putAll_values (fun i => aget gr.table (keyAt g a i)) g.actives_nodup bound i
      unfold at_
      rw [width]
      exact values
    · exact VReg.putAll_mask _ (fun i => (aget gr.table (keyAt g a i)).isSome) g.actives_nodup
        (fun e he => actives_lt_mask hf (by simp) hb he) i

/-! ### SXDRN and SXCLR (17 R322) -/

/-- Delivering a hart's loads and setting its vl are independent. -/
theorem Hart.setV_setVl (h : Hart) (n m : Nat) (r : VReg) : (h.setVl n).setV m r = (h.setV m r).setVl n := by
  unfold Hart.setV
  split <;> rfl

theorem Hart.deliver_setVl (h : Hart) (n : Nat) (p : PendingLoad) : (h.setVl n).deliver p = (h.deliver p).setVl n := by
  cases p with
  | v d r => exact h.setV_setVl n _ r
  | vv d e x y =>
    unfold Hart.deliver
    dsimp only
    rw [h.setV_setVl, Hart.setV_setVl]
  | k d r =>
    unfold Hart.deliver
    dsimp only
    split <;> rfl

theorem Hart.deliverTo_setVl (n m : Nat) (l : List PendingLoad) (h : Hart) :
    (h.setVl n).deliverTo m l = (h.deliverTo m l).setVl n := by
  induction l generalizing h with
  | nil => rfl
  | cons p t ih =>
    unfold Hart.deliverTo
    split
    · rfl
    · rw [h.deliver_setVl, ih]

theorem Hart.owe_setVl (h : Hart) (n : Nat) (p : PendingLoad) : (h.setVl n).owe p = (h.owe p).setVl n := by
  unfold Hart.owe
  rw [Hart.deliverTo_setVl]
  dsimp only
  split
  · rename_i room
    rw [if_pos (show queueUsed h.loads + p.entries ≤ 16 from room)]
    rfl
  · rename_i full
    rw [if_neg (show ¬queueUsed h.loads + p.entries ≤ 16 from full)]
    rfl

theorem tagIs_left {t : Option Tag} {p q : Tag → Bool} (h : tagIs t (fun t => p t && q t) = true) : tagIs t p = true := by
  cases t with
  | none => cases h
  | some t => exact (Bool.and_eq_true_iff.1 h).1

/-- A list put in order into 64-bit elements stands there. -/
theorem VReg.putAll_list {α : Type} (r : VReg) {l : List α} (f : α → Nat) (hl : l.length * 64 ≤ 16384) {i : Nat} {x : α}
    (h : l[i]? = some x) :
    elt (r.putAll 64 (l.zipIdx.map fun p => (p.2, f p.1))).bits.toNat 64 i = f x % 2 ^ 64 := by
  refine r.putAll_code_of_mem 64 _ i (f x) (fun q hq => ?_) ?_ ?_
  · obtain ⟨p, hp, rfl⟩ := List.mem_map.1 hq
    have lt := (List.getElem?_eq_some_iff.1 (List.mem_zipIdx_iff_getElem?.1 hp)).1
    dsimp only
    omega
  · rw [List.map_map, show ((·.1) ∘ fun p : α × Nat => (p.2, f p.1)) = Prod.snd from rfl, List.zipIdx_map_snd]
    exact List.nodup_range'
  · exact List.mem_map.2 ⟨(x, i), List.mem_zipIdx_iff_getElem?.2 h, rfl⟩

theorem withRegs_at {s : State} {h : Hart} {reads writes : List Nat} (k : Hart → State → Out) (hm : s.me = some h)
    (hu : unheld s h reads writes) : withRegs reads writes s k = k (atRegs h reads writes) s :=
  withRegs_free _ _ _ hm hu.1 hu.2

/-- The registers that a drain makes pending. -/
def drained (g : Hart) (d b : VIx) (out : List (Nat × Word)) : VReg × VReg :=
  let x := (g.getV d.toNat).putAll 64 (out.zipIdx.map fun p => (p.2, p.1.1))
  (x, (if d = b then x else g.getV b.toNat).putAll 64 (out.zipIdx.map fun p => (p.2, p.1.2.toNat)))

/-- A drain whose checks pass removes the first entries, which are as many as vl lets it take. -/
theorem execSxdrn_next {e : Hint} {d b : VIx} {s : State} {h g : Hart} {n : Nat} (hm : s.me = some h)
    (hu : unheld s h [] [d.toNat, b.toNat]) (hg : atRegs h [] [d.toNat, b.toNat] = g)
    (hn : min g.vl (s.myGrant g).table.length = n) (hv : g.ctl.vstart = 0)
    (hd : tagIs (g.tag d.toNat) (fun t => valued t && t.isInt) = true) (hb : tagIs (g.tag b.toNat) valued = true)
    (hf : fits g s [d.toNat, b.toNat]) (hx : 0 < (s.myGrant g).ixUnits)
    (hp : ∀ p ∈ (s.myGrant g).table, p.1 ∉ (s.myGrant g).tablePoison) :
    execSxdrn e d b s = endLoad false (if n = 0 then none else
        some (.vv d b (drained g d b ((s.myGrant g).table.take n)).1 (drained g d b ((s.myGrant g).table.take n)).2)) none
      (g.setVl n) (s.setCore s.myCore ((s.core s.myCore).setGrant
        { s.myGrant g with table := (s.myGrant g).table.drop n })) := by
  have tags : (tagIs (g.tag d.toNat) (fun t => valueTag t && t.isInt) && tagIs (g.tag b.toNat) valueTag) = true :=
    Bool.and_eq_true_iff.2 ⟨hd, hb⟩
  have checks : vcheck (.sxdrn e d b) g
      { zeroStart := true
        tags := (tagIs (g.tag d.toNat) (fun t => valueTag t && t.isInt) && tagIs (g.tag b.toNat) valueTag)
        mask := false, round := true, caps := g.caps s [d.toNat, b.toNat] } = none :=
    vcheck_none.2 ⟨fun _ => hv, tags, fun no => (by cases no), rfl, vl_le_caps hf⟩
  have clean : ((s.myGrant g).table.take n).zipIdx.find? (fun p => p.1.1 ∈ (s.myGrant g).tablePoison) = none := by
    refine List.find?_eq_none.2 fun p hq => ?_
    have : p.1 ∈ (s.myGrant g).table :=
      List.mem_of_mem_take (List.mem_of_getElem? (List.mem_zipIdx_iff_getElem?.1 hq))
    simpa using hp _ this
  unfold execSxdrn
  rw [withRegs_at _ hm hu, hg]
  dsimp only
  rw [checks, checked_none, noEntries_none hx, checked_none, hn, clean]
  unfold drained
  dsimp only
  congr 3
  split <;> rfl

theorem indexDrain (s : State) (h : Hart) (e : Hint) (d b : VIx) (hm : s.me = some h)
    (hu : unheld s h [] [d.toNat, b.toNat]) :
    let g := atRegs h [] [d.toNat, b.toNat]
    let c := s.core s.myCore
    let gr := c.grantOf g.blk
    let n := min (g.ctl.vl.toNat % 2 ^ 32) gr.table.length
    g.ctl.vstart = 0 → tagIs (g.tag d.toNat) (fun t => valued t && t.isInt) = true → tagIs (g.tag b.toNat) valued = true →
    fits g s [d.toNat, b.toNat] → 0 < gr.ixUnits → (∀ p ∈ gr.table, p.1 ∉ gr.tablePoison) →
    gr.table.Pairwise (fun p q => p.1 < q.1) →
    ∃ l : List PendingLoad, exec (.sxdrn e d b) s = .next ((s.setCore s.myCore
        (c.setGrant { gr with table := gr.table.drop n })).setMe
          (let q := vectorDone (owed g l) 0
           { q with ctl := { q.ctl with vl := BitVec.ofNat 64 n } })) ∧
      (∀ p ∈ gr.table.take n, ∀ q ∈ gr.table.drop n, p.1 < q.1) ∧ (n = 0 → l = []) ∧
      (n ≠ 0 → ∃ x y, l = [.vv d b x y] ∧
        ∀ i k v, gr.table[i]? = some (k, v) → i < n →
          elt x.bits.toNat 64 i = k % 2 ^ 64 ∧ elt y.bits.toNat 64 i = v.toNat) := by
  intro g c gr n hv hd hb hf hx hp rise
  have next : exec (.sxdrn e d b) s = endLoad false (if n = 0 then none else
      some (.vv d b (drained g d b (gr.table.take n)).1 (drained g d b (gr.table.take n)).2)) none (g.setVl n)
      (s.setCore s.myCore (c.setGrant { gr with table := gr.table.drop n })) :=
    execSxdrn_next (e := e) hm hu rfl rfl hv hd hb hf hx hp
  have fit : (gr.table.take n).length * 64 ≤ 16384 := by
    have cap := hf d.toNat List.mem_cons_self
    rw [(Hart.capacity_of_valued (tagIs_left hd) s.vlen).2] at cap
    have := s.vlen_le
    have taken : (gr.table.take n).length ≤ g.ctl.vl.toNat % 2 ^ 32 := by
      rw [List.length_take]
      exact (min_le_left _ _).trans (min_le_left _ _)
    omega
  clear_value n gr g
  have order : ∀ p ∈ gr.table.take n, ∀ q ∈ gr.table.drop n, p.1 < q.1 := by
    rw [← List.take_append_drop n gr.table] at rise
    exact (List.pairwise_append.1 rise).2.2
  by_cases zero : n = 0
  · rw [if_pos zero] at next
    exact ⟨[], next.trans (endLoad_none _), order, fun _ => rfl, fun no => absurd zero no⟩
  · rw [if_neg zero, endLoad_some] at next
    refine ⟨[.vv d b (drained g d b (gr.table.take n)).1 (drained g d b (gr.table.take n)).2], next.trans ?_, order,
      fun z => absurd z zero, fun _ => ⟨_, _, rfl, fun i k v hi lt => ?_⟩⟩
    · unfold owed
      rw [List.foldl_cons, List.foldl_cons, Hart.owe_setVl]
      rfl
    · have out : (gr.table.take n)[i]? = some (k, v) := by rwa [List.getElem?_take_of_lt lt]
      have key := (g.getV d.toNat).putAll_list (fun q => q.1) fit out
      have value := VReg.putAll_list (if d = b then (drained g d b (gr.table.take n)).1 else g.getV b.toNat)
        (fun q => q.2.toNat) fit out
      exact ⟨key, value.trans (Nat.mod_eq_of_lt v.isLt)⟩

theorem indexClear (s : State) (h : Hart) (e : Hint) (hm : s.me = some h) (hu : unheld s h [] []) :
    let g := atRegs h [] []
    let c := s.core s.myCore
    0 < (c.grantOf g.blk).ixUnits →
    exec (.sxclr e) s = .next ((s.setCore s.myCore
      (c.setGrant { c.grantOf g.blk with table := [], tablePoison := [] })).setMe { vectorDone g 0 with nst := g.nst + 1 }) := by
  intro g c hx
  have checks : noEntries (s.myGrant g) = none := noEntries_none hx
  change execSxclr s = _
  unfold execSxclr
  rw [withRegs_at _ hm hu]
  dsimp only
  change checked (noEntries (s.myGrant g)) s _ = _
  rw [checks, checked_none, Hart.vdone_eq]
  rfl

theorem indexReadResults : IndexReadResults := ⟨indexLookup, indexDrain, indexClear⟩

end Sys2Proof.Machine

/-! # The statements settled -/

namespace Sys2Proof

open Sys2Proof.Machine

set_option Elab.async false

/-- Settles O56: every operation of the model keeps the forms of the caches, and so does the step that selects and performs
one. -/
theorem stepKeepsCachesFormed : Obligations.StepKeepsCachesFormed := fun s t h e => (State.Keeps.step s t e).caches h

/-- Settles O53: the units of a machine after reset are empty. -/
theorem resetMeetsInvariants : Obligations.ResetMeetsInvariants :=
  ⟨memoriesCanonical_reset, oneHartPerSlot_reset, cachesFormed_reset⟩

/-- Settles O18: a fence takes the steps that the rules name, and each step leaves the caches as they say. -/
theorem fenceResults : Obligations.FenceResults := ⟨fenceCompletes, fenceEmptiesCaches⟩

/-- Settles O42: each of the caches' own steps is followed to what it writes, and a recall's passes to what they leave. -/
theorem cacheAndErrorSteps : Obligations.CacheAndErrorSteps := ⟨cacheSteps, recallAndErrorSteps⟩

/-- Settles O37: an update is followed by induction on its elements, a look-up and a drain to the registers that they make
pending. -/
theorem indexScratchpad : Obligations.IndexScratchpad := ⟨indexUpdateResults, indexReadResults⟩

end Sys2Proof

/-! # The host's commands on ranges, faults and regions (04 R94 to R96; 05 R113; 26 R379, R380) -/

namespace Sys2Proof.Machine

open Sys2Proof.Slice0

set_option Elab.async false

/-! ### The command at the head of the ring (26 R379, R380) -/

/-- The unit takes the command that stands at the head. -/
theorem command?_of_atHead {s : State} {c : List Word} (h : atHead s c) : s.command? = some c := by
  obtain ⟨phase, trained, en, err, stuck, filled, fits, held, rfl⟩ := h
  have used : (s.queue 32).used ≠ 0 := by
    unfold Queue.used
    bv_omega
  have room : (s.queue 32).used ≤ (s.queue 32).cap := fits
  have feeds : s.feeds 32 = true := by
    simpa [State.feeds, trained, en, err, stuck, used, room] using phase
  unfold State.command?
  rw [if_pos (by simp [feeds, held])]
  rfl

/-- A command that names an operation has that operation's number, and zeros in the words that it does not name. -/
theorem cmdOp_of_commandOf {c : List Word} {op : Nat} {names : List Nat} (h : commandOf c op names) (hop : op < 256) :
    cmdOp c = op := by
  obtain ⟨low, -⟩ := h
  have : cmdWord c 0 = word c 0 := rfl
  unfold cmdOp
  omega

theorem cmdZeros_of_commandOf {c : List Word} {op : Nat} (h : commandOf c op (cmdNames op)) (hop : op < 256) :
    cmdZeros c = true := by
  have number := cmdOp_of_commandOf h hop
  obtain ⟨low, zero⟩ := h
  have top : fld (cmdWord c 0) 31 8 = 0 := by
    have : cmdWord c 0 = word c 0 := rfl
    unfold fld
    rw [Nat.shiftRight_eq_div_pow]
    omega
  have named : ∀ i, 1 ≤ i → i < 8 → i ∈ cmdNames op ∨ cmdWord c i = 0 := fun i lo hi =>
    or_iff_not_imp_left.2 (zero i lo hi)
  simp only [cmdZeros, top, number, decide_true, Bool.true_and, List.all_eq_true, Bool.or_eq_true, decide_eq_true_eq]
  intro i hi
  simp only [List.mem_cons, List.not_mem_nil, or_false] at hi
  exact named i (by omega) (by omega)

/-- The completion that ends a command is the one that the rules give it. -/
theorem endCommand_eq_finished (t : State) (c : List Word) {st : Nat} (hst : st < 256) (r : Nat) :
    t.endCommand c (st, r) = finished t c st r := by
  have tag : fld (cmdWord c 0) 63 32 = word c 0 / 2 ^ 32 := by
    have : word c 0 < 2 ^ 64 := (c.getD 0 0).isLt
    unfold fld
    rw [Nat.shiftRight_eq_div_pow, show cmdWord c 0 = word c 0 from rfl]
    omega
  have bound : word c 0 / 2 ^ 32 < 2 ^ 32 := by
    have : word c 0 < 2 ^ 64 := (c.getD 0 0).isLt
    omega
  have entry : completion (BitVec.ofNat 32 (fld (cmdWord c 0) 63 32)) st 0 0 r =
      BitVec.ofNat 128 (r % 2 ^ 64 + 2 ^ 88 * st + 2 ^ 96 * (word c 0 / 2 ^ 32)) := by
    unfold completion
    rw [tag, BitVec.toNat_ofNat, Nat.mod_eq_of_lt bound, Nat.mod_eq_of_lt hst]
    simp only [Nat.shiftLeft_eq, Nat.zero_mod, Nat.zero_mul, Nat.add_zero, Nat.mul_comm]
  unfold State.endCommand finished
  rw [entry]
  rfl

section
variable {s : State} {c : List Word} {op : Nat} {f : List Word → State → Option ((Nat × Nat) × State)}

/-- What an operation answers to the command at the head. -/
theorem command_runs (h : atHead s c) (hc : commandOf c op (cmdNames op)) (hop : op < 256) :
    s.command op f = match f c s with
      | none => .next (begun s)
      | some r => .next (r.2.endCommand c r.1) := by
  unfold State.command
  rw [command?_of_atHead h]
  dsimp only
  rw [if_neg (by simp [cmdOp_of_commandOf hc hop]), if_neg (by simp [cmdZeros_of_commandOf hc hop])]
  rfl

theorem command_waits (h : atHead s c) (hc : commandOf c op (cmdNames op)) (hop : op < 256) (e : f c s = none) :
    s.command op f = .next (begun s) := by
  rw [command_runs h hc hop, e]

theorem command_ends {t : State} {st r : Nat} (h : atHead s c) (hc : commandOf c op (cmdNames op)) (hop : op < 256)
    (e : f c s = some ((st, r), t)) (hst : st < 256 := by omega) : s.command op f = .next (finished t c st r) := by
  rw [command_runs h hc hop, e, ← endCommand_eq_finished t c hst]

end

/-! ### What a write of memory or of the control window changes (26 R374 to R378) -/

/-- A machine that differs in device memory and its home slices, in the host interface, in the status area and in the free
choices spent, alone. -/
def State.outsideOnly (s t : State) : Prop :=
  ∃ m p l n i z, t = { s with mem := m, poison := p, home := l, free := n, io := i, sts := z }

namespace State.outsideOnly

variable {o s t : State}

theorem refl (s : State) : s.outsideOnly s := ⟨_, _, _, _, _, _, rfl⟩

theorem trans (a : o.outsideOnly s) (b : s.outsideOnly t) : o.outsideOnly t := by
  obtain ⟨m, p, l, n, i, z, rfl⟩ := a
  obtain ⟨m, p, l, n, i, z, rfl⟩ := b
  exact ⟨m, p, l, n, i, z, rfl⟩

theorem foldl {α : Type} {f : State → α → State} (h : o.outsideOnly s) (l : List α)
    (hf : ∀ {s} a, o.outsideOnly s → o.outsideOnly (f s a)) : o.outsideOnly (l.foldl f s) := by
  induction l generalizing s with
  | nil => exact h
  | cons a t ih => exact ih (hf a h)

theorem ite {c : Prop} [Decidable c] (hs : o.outsideOnly s) (ht : o.outsideOnly t) : o.outsideOnly (if c then s else t) := by
  split
  · exact hs
  · exact ht

theorem ofHomeOnly (h : o.outsideOnly s) (e : s.homeOnly t) : o.outsideOnly t := by
  obtain ⟨l, n, rfl⟩ := e
  exact h.trans ⟨_, _, _, _, _, _, rfl⟩

theorem setQueue (h : o.outsideOnly s) {k : Nat} {q : Queue} : o.outsideOnly (s.setQueue k q) :=
  h.trans ⟨_, _, _, _, _, _, rfl⟩

theorem writePA (h : o.outsideOnly s) {pa : Nat} {b : List Byte} : o.outsideOnly (s.writePA pa b) :=
  h.trans ⟨_, _, _, _, _, _, rfl⟩

theorem post (h : o.outsideOnly s) {q : Nat} {e : BitVec 128} : o.outsideOnly (s.post q e) := by
  unfold State.post
  exact .ite (h.trans ⟨_, _, _, _, _, _, rfl⟩) (h.trans ⟨_, _, _, _, _, _, rfl⟩)

theorem postOrHold (h : o.outsideOnly s) {q : Nat} {e : BitVec 128} : o.outsideOnly (s.postOrHold q e) := by
  unfold State.postOrHold
  exact .ite h.post h.setQueue

theorem postHeldFuel {q : Nat} : ∀ (n : Nat) {s : State}, o.outsideOnly s → o.outsideOnly (State.postHeldFuel q n s)
  | 0, _, h => h
  | n + 1, s, h => by
    unfold State.postHeldFuel
    dsimp only
    split
    · exact h
    · exact .ite (postHeldFuel n h.setQueue.post) h

theorem postHeld (h : o.outsideOnly s) {q : Nat} : o.outsideOnly (s.postHeld q) := postHeldFuel _ h

theorem writeTail (h : o.outsideOnly s) {q : Nat} {x : BitVec 32} : o.outsideOnly (s.writeTail q x) := .ite h.setQueue h

theorem writeHead (h : o.outsideOnly s) {q : Nat} {x : BitVec 32} : o.outsideOnly (s.writeHead q x) := .ite h.setQueue.postHeld h

theorem clearErr (h : o.outsideOnly s) {q : Nat} : o.outsideOnly (s.clearErr q) := .ite h.setQueue h

theorem writeEn (h : o.outsideOnly s) {q : Nat} {en : Bool} : o.outsideOnly (s.writeEn q en) := by
  unfold State.writeEn
  exact .ite h.setQueue.postHeld h

theorem writeConfig (h : o.outsideOnly s) {q w : Nat} : o.outsideOnly (s.writeConfig q w) := h.setQueue

theorem ctlWrite (h : o.outsideOnly s) {a w : Nat} : o.outsideOnly (s.ctlWrite a w) := by
  have configured (q : Nat) : o.outsideOnly (if bit w 3 then (s.writeConfig q w).clearErr q else s.writeConfig q w) :=
    .ite h.writeConfig.clearErr h.writeConfig
  have interface (i : HostIf) : o.outsideOnly { s with io := i } := h.trans ⟨_, _, _, _, _, _, rfl⟩
  unfold State.ctlWrite State.ringBoot
  exact .ite (.ite (h.trans ⟨_, _, _, _, _, _, rfl⟩) h) (.ite (.ite (.ite (configured _) (configured _).writeEn)
    (.ite (.ite h.writeTail h.writeHead) (.ite (.ite h h.setQueue) h))) (.ite (interface _) (.ite (interface _) h)))

theorem ctlWriteMasked (h : o.outsideOnly s) {a mask x : Nat} : o.outsideOnly (s.ctlWriteMasked a mask x) := by
  unfold State.ctlWriteMasked
  exact .ite (.ite h.ctlWrite (.ite (.ite h h.ctlWrite) h.ctlWrite)) h.ctlWrite

theorem ctlWriteWords (h : o.outsideOnly s) {a mask x n : Nat} : o.outsideOnly (s.ctlWriteWords a mask x n) :=
  h.foldl _ fun _ h => .ite h h.ctlWriteMasked

theorem mergeHome (h : o.outsideOnly s) {pa : Nat} {w : WriteBack} {l : Option Leaf} : o.outsideOnly (s.mergeHome pa w l) := by
  unfold State.mergeHome
  refine .ite h.ctlWriteWords ?_
  dsimp only
  split
  · exact (h.trans ⟨_, _, _, _, _, _, rfl⟩).ofHomeOnly (State.touchHomeOf_only _ _ _ _)
  · exact (h.trans ⟨_, _, _, _, _, _, rfl⟩).ofHomeOnly (State.touchHome_only _ _ _)

end State.outsideOnly

/-! ### What writes on their way leave of harts, translation, regions and filters -/

/-- The page of a filter entry, and what of a region stands whatever write-backs it has lost (26 R382). -/
def FilterEntry.page (e : FilterEntry) : BitVec 16 × Nat × Nat := (e.space, e.vbase, e.lg)
def Region.fate (r : Region) : Fields × Option Nat := (r.f, r.ending)

/-- A machine with the same harts, dies, translation and launches, whose regions differ in what they have lost alone, and whose
permission filters hold the same pages. -/
structure State.Steady (s t : State) : Prop where
  harts : t.harts = s.harts
  dies : t.dies = s.dies
  xlat : t.xlat = s.xlat
  launches : t.fe.launches = s.fe.launches
  regions : t.fe.regions.map Region.fate = s.fe.regions.map Region.fate
  pages : ∀ k, (t.core k).filter.map FilterEntry.page = (s.core k).filter.map FilterEntry.page

namespace State.Steady

variable {o s t : State}

theorem refl (s : State) : s.Steady s := ⟨rfl, rfl, rfl, rfl, rfl, fun _ => rfl⟩

theorem same (h : o.Steady s) (hh : t.harts = s.harts := by rfl) (hd : t.dies = s.dies := by rfl)
    (hx : t.xlat = s.xlat := by rfl) (hl : t.fe.launches = s.fe.launches := by rfl)
    (hr : t.fe.regions = s.fe.regions := by rfl) (hc : t.cores = s.cores := by rfl) : o.Steady t where
  harts := hh.trans h.harts
  dies := hd.trans h.dies
  xlat := hx.trans h.xlat
  launches := hl.trans h.launches
  regions := hr ▸ h.regions
  pages k := (congrArg (fun l => ((aget l k).getD Core.reset).filter.map FilterEntry.page) hc).trans (h.pages k)

theorem foldl {α : Type} {f : State → α → State} (h : o.Steady s) (l : List α)
    (hf : ∀ {s} a, o.Steady s → o.Steady (f s a)) : o.Steady (l.foldl f s) := by
  induction l generalizing s with
  | nil => exact h
  | cons a t ih => exact ih (hf a h)

theorem ite {c : Prop} [Decidable c] (hs : o.Steady s) (ht : o.Steady t) : o.Steady (if c then s else t) := by
  split
  · exact hs
  · exact ht

theorem ofOutside (h : o.Steady s) (e : s.outsideOnly t) : o.Steady t := by
  obtain ⟨m, p, l, n, i, z, rfl⟩ := e
  exact h.same

/-- A core is replaced by one whose filter holds the same pages. -/
theorem setCore (h : o.Steady s) {k : Nat} {c : Core}
    (hc : c.filter.map FilterEntry.page = (s.core k).filter.map FilterEntry.page := by rfl) : o.Steady (s.setCore k c) where
  harts := h.harts
  dies := h.dies
  xlat := h.xlat
  launches := h.launches
  regions := h.regions
  pages j := by
    rw [State.core_setCore]
    split
    · rename_i e
      exact hc.trans (e ▸ h.pages k)
    · exact h.pages j

theorem setCluster (h : o.Steady s) {k : Nat} {c : Cluster} : o.Steady (s.setCluster k c) := h.same

/-! #### Homes and targets (03 R47, R48, R50, R52) -/

theorem loseFor (h : o.Steady s) {blks : List Nat} : o.Steady (s.loseFor blks) where
  harts := h.harts
  dies := h.dies
  xlat := h.xlat
  launches := h.launches
  regions := by
    rw [← h.regions]
    unfold State.loseFor
    rw [List.map_map]
    refine List.map_congr_left fun r _ => ?_
    dsimp only [Function.comp]
    split <;> rfl
  pages := h.pages

theorem writeBackHome (h : o.Steady s) {k : Nat} {w : WriteBack} : o.Steady (s.writeBackHome k w) := by
  unfold State.writeBackHome
  dsimp only
  split
  · exact h
  · exact .ite h.loseFor (h.ofOutside (outsideOnly.refl s).mergeHome)

theorem performSent (h : o.Steady s) {w : SentWrite} : o.Steady (s.performSent w) := by
  have sent : s.outsideOnly (if inCtl w.pa then s.ctlWriteRun (w.pa - ctlBase) w.bytes.length (ofBytes w.bytes)
      else s.writePA w.pa w.bytes) := .ite (outsideOnly.refl s).ctlWriteWords (outsideOnly.refl s).writePA
  have poisoned {u : State} (hu : s.outsideOnly u) (p : List Nat) : s.outsideOnly { u with poison := p } :=
    hu.trans ⟨_, _, _, _, _, _, rfl⟩
  unfold State.performSent
  refine .ite h.loseFor (h.ofOutside ?_)
  dsimp only
  split
  · exact (outsideOnly.ite (poisoned sent _) sent).ofHomeOnly (State.touchHomeOf_only _ _ _ _)
  · exact .ite (poisoned sent _) sent

theorem ackBypass (h : o.Steady s) {core : Nat} : o.Steady (s.ackBypass core) :=
  .ite h (h.setCore.foldl _ fun _ h => h.performSent)

theorem ackTarget (h : o.Steady s) {core : Nat} : o.Steady (s.ackTarget core) :=
  .ite h (h.setCore.foldl _ fun _ h => h.performSent)

/-! #### Caches (03 R44 to R48, R53) -/

theorem drainL2 (h : o.Steady s) {k : Nat} : o.Steady (s.drainL2 k) := h.setCluster.foldl _ fun _ h => h.writeBackHome

theorem writeBackL2 (h : o.Steady s) {k : Nat} {w : WriteBack} : o.Steady (s.writeBackL2 k w) := by
  obtain ⟨l, n, e⟩ := s.writeBackL2_only k w
  rw [e]
  exact h.same

theorem drainL1 (h : o.Steady s) {core : Nat} : o.Steady (s.drainL1 core) := h.setCore.foldl _ fun _ h => h.writeBackL2

theorem l1Frame (h : o.Steady s) {k : Nat} {space : BitVec 16} {va : Nat} {t : TClass} :
    o.Steady (s.l1Frame k space va t).2 := by
  unfold State.l1Frame
  dsimp only
  split
  · exact h
  · obtain ⟨m, e⟩ := Cache.chooseWay_only (s.core k).l1 128 (va / t.block * t.block) t.rows s
    dsimp only
    rw [e]
    exact setCore (h.same (t := { s with free := m }))

theorem writeL1 (h : o.Steady s) {core : Nat} {space : BitVec 16} {va : Nat} {t : TClass} {mask data poison blk : Nat} :
    o.Steady (s.writeL1 core space va t mask data poison blk) := h.l1Frame.setCore.setCore

theorem flushL1Range (h : o.Steady s) {core : Nat} {space : BitVec 16} {base n : Nat} :
    o.Steady (s.flushL1Range core space base n) := h.setCore.drainL1

theorem flushL2Range (h : o.Steady s) {k : Nat} {space : BitVec 16} {base n : Nat} :
    o.Steady (s.flushL2Range k space base n) := h.setCluster.drainL2

theorem flushRange (h : o.Steady s) {space : BitVec 16} {base n : Nat} : o.Steady (s.flushRange space base n) :=
  (h.foldl _ fun _ h => h.flushL1Range).foldl _ fun _ h => h.flushL2Range

theorem cleanL1 (h : o.Steady s) {core : Nat} {space : BitVec 16} : o.Steady (s.cleanL1 core space) := h.setCore.drainL1

theorem cleanL2 (h : o.Steady s) {k : Nat} {space : BitVec 16} : o.Steady (s.cleanL2 k space) := h.setCluster.drainL2

theorem releaseSteps (h : o.Steady s) {core : Nat} {space : BitVec 16} {sc : Scope} :
    o.Steady (s.releaseSteps core space sc) := by
  have acked : o.Steady ((s.ackBypass core).ackTarget core) := h.ackBypass.ackTarget
  cases sc with
  | h => exact acked
  | c => exact acked
  | k => exact acked.cleanL1
  | d => exact acked.cleanL1.cleanL2
  | s => exact acked.cleanL1.cleanL2

/-! #### The store buffer's drain (05 R98, R99) -/

/-- Confirming a page changes what an entry says of it, and not which page it is of. -/
theorem confirmPage (h : o.Steady s) {core : Nat} {space : BitVec 16} {va : Nat} : o.Steady (s.confirmPage core space va) := by
  refine h.setCore ?_
  rw [List.map_map]
  refine List.map_congr_left fun e _ => ?_
  dsimp only [Function.comp]
  split <;> rfl

theorem drainEntry (h : o.Steady s) {core : Nat} {e : SbEntry} : o.Steady (s.drainEntry core e) :=
  (h.ackBypass.foldl _ fun _ h => h.writeL1).setCore.confirmPage

theorem drainRange {core : Nat} {space : BitVec 16} {base n : Nat} : ∀ (fuel : Nat) {s : State}, o.Steady s →
    o.Steady (State.drainRange core space base n fuel s)
  | 0, _, h => h
  | fuel + 1, s, h => by
    unfold State.drainRange
    dsimp only
    split
    · exact drainRange fuel (h.foldl _ fun _ h => h.drainEntry)
    · exact h

/-! #### The blocks and queues of regions (08 R153, 26 R378) -/

theorem blkSet (h : o.Steady s) {blk hi lo x : Nat} : o.Steady (s.blkSet blk hi lo x) :=
  h.ofOutside (outsideOnly.refl s).writePA

theorem showChildren (h : o.Steady s) {parent : Nat} : o.Steady (s.showChildren parent) := .ite h h.blkSet

theorem complete (h : o.Steady s) {queue : Nat} {tag : BitVec 32} {status state fcause blk : Nat} :
    o.Steady (s.complete queue tag status state fcause blk) := h.ofOutside (outsideOnly.refl s).postOrHold

theorem passLoss (h : o.Steady s) {blk : Nat} : o.Steady (s.passLoss blk) := .ite h.loseFor h

end State.Steady

/-! ### Harts, launches and regions that end (08 R156, 26 R380) -/

/-- A machine with the same dies, of whose harts, launches and regions each was there before. -/
structure State.Shrinks (s t : State) : Prop where
  dies : t.dies = s.dies
  harts : t.harts ⊆ s.harts
  launches : t.fe.launches ⊆ s.fe.launches
  regions : t.fe.regions.map Region.fate ⊆ s.fe.regions.map Region.fate

theorem State.Steady.shrinks {s t : State} (h : s.Steady t) : s.Shrinks t where
  dies := h.dies
  harts _ m := h.harts ▸ m
  launches _ m := h.launches ▸ m
  regions _ m := h.regions ▸ m

namespace State.Shrinks

variable {o s t : State}

theorem refl (s : State) : s.Shrinks s := (Steady.refl s).shrinks

theorem trans (a : o.Shrinks s) (b : s.Shrinks t) : o.Shrinks t where
  dies := b.dies.trans a.dies
  harts := List.Subset.trans b.harts a.harts
  launches := List.Subset.trans b.launches a.launches
  regions := List.Subset.trans b.regions a.regions

theorem foldl {α : Type} {f : State → α → State} (h : o.Shrinks s) (l : List α) (hf : ∀ (s : State) a, s.Shrinks (f s a)) :
    o.Shrinks (l.foldl f s) := by
  induction l generalizing s with
  | nil => exact h
  | cons a t ih => exact ih (h.trans (hf s a))

end State.Shrinks

/-! #### Stopping harts -/

theorem State.shrinks_freeArea (s : State) (area : Nat) : s.Shrinks (s.freeArea area) := (Steady.refl s).same.shrinks

/-- Taking a hart away removes its key from the table of harts. -/
theorem State.harts_dropHart (s : State) (key : Nat) : (s.dropHart key).harts = adel s.harts key := by
  have acked : s.Steady ((s.ackBypass (coreOf key)).ackTarget (coreOf key)) := (Steady.refl s).ackBypass.ackTarget
  rw [← acked.harts]
  unfold State.dropHart
  dsimp only
  split <;> rfl

theorem State.shrinks_dropHart (s : State) (key : Nat) : s.Shrinks (s.dropHart key) := by
  have acked : s.Steady ((s.ackBypass (coreOf key)).ackTarget (coreOf key)) := (Steady.refl s).ackBypass.ackTarget
  have away : ∀ u : State, u.Shrinks { u with harts := adel u.harts key } := fun _ =>
    ⟨rfl, (adel_sublist _ _).subset, List.Subset.refl _, List.Subset.refl _⟩
  unfold State.dropHart
  dsimp only
  split
  · exact (acked.setCore.shrinks.trans (away _)).trans (State.shrinks_freeArea _ _)
  · exact acked.setCore.shrinks.trans (away _)

theorem key_ne_of_mem_adel {α : Type} {l : List (Nat × α)} {i : Nat} {q : Nat × α} (h : q ∈ adel l i) : q.1 ≠ i := by
  induction l with
  | nil => exact nomatch h
  | cons p t ih =>
    unfold adel at h
    split at h
    · exact ih h
    · rename_i ne
      rcases List.mem_cons.1 h with rfl | m
      · exact ne
      · exact ih m

/-- Of the harts of some keys none is left. -/
theorem State.key_of_mem_foldl_dropHart {q : Nat × Hart} (keys : List Nat) {s : State}
    (h : q ∈ (keys.foldl State.dropHart s).harts) : q.1 ∉ keys := by
  induction keys generalizing s with
  | nil => exact List.not_mem_nil
  | cons k keys ih =>
    have left := ((Shrinks.refl _).foldl keys State.shrinks_dropHart).harts h
    rw [State.harts_dropHart] at left
    exact List.not_mem_cons_of_ne_of_not_mem (key_ne_of_mem_adel left) (ih h)

theorem State.shrinks_freeAreas (s : State) (gone : List SavedHart) :
    s.Shrinks (gone.foldl (fun s q => s.freeArea q.area) s) :=
  (Shrinks.refl s).foldl gone fun s q => s.shrinks_freeArea q.area

theorem State.shrinks_stopHarts (s : State) (blk : Nat) : s.Shrinks (s.stopHarts blk) :=
  (((Shrinks.refl s).foldl _ State.shrinks_dropHart).trans (State.shrinks_freeAreas _ _)).trans (Steady.refl _).same.shrinks

/-- A region that has been stopped has no hart. -/
theorem State.blk_of_mem_stopHarts {s : State} {blk : Nat} {q : Nat × Hart} (h : q ∈ (s.stopHarts blk).harts) :
    q.2.blk ≠ blk := by
  have left := (State.shrinks_freeAreas _ _).harts h
  have there := ((Shrinks.refl s).foldl _ State.shrinks_dropHart).harts left
  exact fun e => State.key_of_mem_foldl_dropHart _ left
    (List.mem_map_of_mem (List.mem_filter.2 ⟨there, decide_eq_true e⟩))

theorem State.blk_of_mem_foldl_stopHarts {q : Nat × Hart} (blks : List Nat) {s : State}
    (h : q ∈ (blks.foldl State.stopHarts s).harts) : q.2.blk ∉ blks := by
  induction blks generalizing s with
  | nil => exact List.not_mem_nil
  | cons b blks ih =>
    have left := ((Shrinks.refl _).foldl blks State.shrinks_stopHarts).harts h
    exact List.not_mem_cons_of_ne_of_not_mem (State.blk_of_mem_stopHarts left) (ih h)

/-- A region whose fate is among those of some regions has one of them as its origin. -/
theorem State.exists_of_mem_fates {s : State} {r : Region} {l : List Region}
    (h : s.fe.regions.map Region.fate ⊆ l.map Region.fate) (m : r ∈ s.fe.regions) :
    ∃ q ∈ l, q.f = r.f ∧ q.ending = r.ending := by
  obtain ⟨q, hq, e⟩ := List.mem_map.1 (h (List.mem_map_of_mem m))
  exact ⟨q, hq, congrArg Prod.fst e, congrArg Prod.snd e⟩

/-- Regions of some blocks, stopped and marked: no hart of theirs is left, each of them ends in the state named, and nothing
else is new. -/
theorem State.endBlocks_spec (s : State) (blks : List Nat) (st : Nat) :
    (s.endBlocks blks st).dies = s.dies ∧ (∀ q ∈ (s.endBlocks blks st).harts, q.2.blk ∉ blks) ∧
      (s.endBlocks blks st).fe.launches ⊆ s.fe.launches ∧
      ∀ r ∈ (s.endBlocks blks st).fe.regions, (∃ q ∈ s.fe.regions, q.f = r.f) ∧ (r.f.blk ∈ blks → r.ending = some st) := by
  have stopped := (Shrinks.refl s).foldl blks State.shrinks_stopHarts
  refine ⟨stopped.dies, fun q h => State.blk_of_mem_foldl_stopHarts blks h, stopped.launches, fun r h => ?_⟩
  obtain ⟨r, there, rfl⟩ := List.mem_map.1 h
  obtain ⟨q, was, same, -⟩ := State.exists_of_mem_fates stopped.regions there
  split
  · exact ⟨⟨q, was, same⟩, fun _ => rfl⟩
  · rename_i out
    exact ⟨⟨q, was, same⟩, fun i => absurd i out⟩

/-! #### Launches and regions that end -/

/-- Launches of some blocks are taken from their list. -/
theorem State.shrinks_launches (s : State) (p : Launch → Bool) :
    s.Shrinks { s with fe := { s.fe with launches := s.fe.launches.filter p } } :=
  ⟨rfl, List.Subset.refl _, List.filter_subset_self _, List.Subset.refl _⟩

/-- A refused launch waits no more. -/
theorem State.refuseLaunch_spec (s : State) (l : Launch) (code : Nat) :
    s.Shrinks (s.refuseLaunch l code) ∧ ∀ q ∈ (s.refuseLaunch l code).fe.launches, q.f.blk ≠ l.f.blk := by
  have told := (Steady.refl { s with fe := { s.fe with launches := s.fe.launches.filter fun q => q.f.blk ≠ l.f.blk } })
    |>.blkSet (blk := l.f.blk) (hi := 179) (lo := 172) (x := code)
    |>.blkSet (blk := l.f.blk) (hi := 171) (lo := 168) (x := 7)
    |>.showChildren (parent := l.f.parent)
    |>.complete (queue := l.queue) (tag := l.tag) (status := code) (state := 7) (fcause := 0) (blk := l.f.blk)
  refine ⟨(s.shrinks_launches _).trans told.shrinks, fun q h => ?_⟩
  simpa using List.of_mem_filter (told.shrinks.launches h)

theorem State.shrinks_killLaunch (s : State) (l : Launch) (fcause : Nat) : s.Shrinks (s.killLaunch l fcause) :=
  (s.shrinks_launches _).trans (Steady.refl _).blkSet.showChildren.complete.shrinks

/-- Of some launches that are refused none is left. -/
theorem State.blk_of_mem_foldl_refuseLaunch {q l : Launch} {code : Nat} (doomed : List Launch) {s : State}
    (h : q ∈ (doomed.foldl (fun (s : State) l => s.refuseLaunch l code) s).fe.launches) (hl : l ∈ doomed) :
    q.f.blk ≠ l.f.blk := by
  induction doomed generalizing s with
  | nil => exact nomatch hl
  | cons d doomed ih =>
    rcases List.mem_cons.1 hl with rfl | hl
    · refine (s.refuseLaunch_spec l code).2 q ?_
      exact ((Shrinks.refl _).foldl doomed fun s l => (s.refuseLaunch_spec l code).1).launches h
    · exact ih h hl

/-- A region that is closed leaves the list of regions. -/
theorem State.shrinks_closeRegion (s : State) (r : Region) (st : Nat) : s.Shrinks (s.closeRegion r st) := by
  have gone : ∀ u : State, u.Shrinks { u with fe := { u.fe with regions := u.fe.regions.filter fun q => q.f.blk ≠ r.f.blk } } :=
    fun u => ⟨rfl, List.Subset.refl _, List.Subset.refl _, List.map_subset _ (List.filter_subset_self _)⟩
  have released : s.Steady ((s.releaseRegion r).passLoss r.f.blk) :=
    ((Steady.refl s).foldl r.cores fun _ h => h.releaseSteps).passLoss
  have freed := released.foldl (f := fun s c =>
    s.setCore c { s.core c with grants := (s.core c).grants.filter fun g => g.blk ≠ r.f.blk }) r.cores fun _ h => h.setCore
  exact (freed.blkSet.blkSet.shrinks.trans (gone _)).trans (Steady.refl _).showChildren.complete.shrinks

theorem State.shrinks_closeAllFuel : ∀ (n : Nat) (s : State), s.Shrinks (State.closeAllFuel n s)
  | 0, s => .refl s
  | n + 1, s => by
    unfold State.closeAllFuel
    split
    · exact (s.shrinks_closeRegion _ _).trans (State.shrinks_closeAllFuel n _)
    · exact .refl s

theorem State.shrinks_closeAll (s : State) : s.Shrinks s.closeAll := State.shrinks_closeAllFuel _ s

/-- The end of a domain touches no fault entry of a die. -/
theorem State.dies_endDomain (s : State) (blk cause : Nat) (pc : Word) (core slot : Nat) :
    (s.endDomain blk cause pc core slot).dies = s.dies := by
  have recorded : ∀ root, s.Steady (if s.blkGet root 63 56 ≠ 0 then s
      else (((s.blkSet root 127 64 pc.toNat).blkSet root 63 56 cause).blkSet root 55 47 core).blkSet root 46 44 slot) :=
    fun _ => .ite (.refl s) (Steady.refl s).blkSet.blkSet.blkSet.blkSet
  have stopped : ∀ (u : State) blks, (u.endBlocks blks 5).dies = u.dies := fun u blks => (u.endBlocks_spec blks 5).1
  have killed : ∀ (u : State) (doomed : List Launch) fcause,
      u.Shrinks (doomed.foldl (fun s l => s.killLaunch l fcause) u) := fun u doomed fcause =>
    (Shrinks.refl u).foldl doomed fun s l => s.shrinks_killLaunch l fcause
  exact (((killed _ _ _).trans (State.shrinks_closeAll _)).dies.trans (stopped _ _)).trans (recorded _).dies

/-- 26 R380: no launch at or under the block waits, each region there ends in state 6, and none has a hart. -/
theorem State.endByHost_spec (s : State) (blk : Nat) :
    (∀ l ∈ (s.endByHost blk).fe.launches, s.under blk l.f.blk = false) ∧
      (∀ r ∈ (s.endByHost blk).fe.regions, s.under blk r.f.blk = true → r.ending = some 6) ∧
      ∀ r ∈ s.fe.regions, s.under blk r.f.blk = true → ∀ q ∈ (s.endByHost blk).harts, q.2.blk ≠ r.f.blk := by
  have inside : ∀ r ∈ s.fe.regions, s.under blk r.f.blk = true →
      r.f.blk ∈ (s.fe.regions.filter fun r => s.under blk r.f.blk).map (·.f.blk) := fun r m u =>
    List.mem_map_of_mem (f := fun r : Region => r.f.blk) (List.mem_filter.2 ⟨m, u⟩)
  obtain ⟨-, gone, waiting, ending⟩ :=
    s.endBlocks_spec ((s.fe.regions.filter fun r => s.under blk r.f.blk).map (·.f.blk)) 6
  have refused : ∀ (u : State) (doomed : List Launch),
      u.Shrinks (doomed.foldl (fun s l => s.refuseLaunch l 0x0E) u) := fun u doomed =>
    (Shrinks.refl u).foldl doomed fun s l => (s.refuseLaunch_spec l 0x0E).1
  have after := (refused (s.endBlocks ((s.fe.regions.filter fun r => s.under blk r.f.blk).map (·.f.blk)) 6)
    (s.fe.launches.filter fun l => s.under blk l.f.blk)).trans (State.shrinks_closeAll _)
  refine ⟨fun l h => ?_, fun r h u => ?_, fun r m u q h e => ?_⟩
  · by_contra u
    have doomed : l ∈ s.fe.launches.filter fun l => s.under blk l.f.blk :=
      List.mem_filter.2 ⟨waiting (after.launches h), by simpa using u⟩
    exact State.blk_of_mem_foldl_refuseLaunch _ ((State.shrinks_closeAll _).launches h) doomed rfl
  · obtain ⟨p, hp, same, fate⟩ := State.exists_of_mem_fates after.regions h
    obtain ⟨⟨o, was, first⟩, marked⟩ := ending p hp
    rw [← fate]
    refine marked ?_
    rw [← first]
    exact inside o was (by rw [first, same]; exact u)
  · exact gone q (after.harts h) (e ▸ inside r m u)

/-! ### A change made at each key of a table -/

/-- Entries of a table that are changed one key after the other: each is changed when its key is among them. -/
theorem aget_foldl_aset {α : Type} (d : α) (u : Nat → α → α) (hu : ∀ k x, u k (u k x) = u k x) (keys : List Nat)
    (l : List (Nat × α)) (j : Nat) :
    (aget (keys.foldl (fun l k => aset l k (u k ((aget l k).getD d))) l) j).getD d =
      if j ∈ keys then u j ((aget l j).getD d) else (aget l j).getD d := by
  induction keys generalizing l with
  | nil => rfl
  | cons k keys ih =>
    rw [List.foldl_cons, ih, aget_aset]
    by_cases e : j = k
    · subst e
      simp [hu]
    · simp [e]

theorem State.foldl_setCore (u : Nat → Core → Core) (keys : List Nat) (s : State) :
    keys.foldl (fun s k => s.setCore k (u k (s.core k))) s =
      { s with cores := keys.foldl (fun l k => aset l k (u k ((aget l k).getD Core.reset))) s.cores } := by
  induction keys generalizing s with
  | nil => rfl
  | cons k keys ih => exact ih _

theorem State.foldl_setDie (u : Nat → Die → Die) (keys : List Nat) (s : State) :
    keys.foldl (fun s k => s.setDie k (u k (s.die k))) s =
      { s with dies := keys.foldl (fun l k => aset l k (u k ((aget l k).getD Die.reset))) s.dies } := by
  induction keys generalizing s with
  | nil => rfl
  | cons k keys ih => exact ih _

theorem aget_none_of_key {α : Type} {l : List (Nat × α)} {j : Nat} (h : j ∉ l.map (·.1)) : aget l j = none := by
  induction l with
  | nil => rfl
  | cons p t ih =>
    obtain ⟨k, v⟩ := p
    obtain ⟨ne, out⟩ := not_or.1 (fun i => h (List.mem_cons.2 i))
    unfold aget
    rw [if_neg (Ne.symm ne)]
    exact ih out

theorem mem_of_aget {α : Type} {l : List (Nat × α)} {j : Nat} {x : α} (h : aget l j = some x) : (j, x) ∈ l := by
  induction l with
  | nil => exact nomatch h
  | cons p t ih =>
    obtain ⟨k, v⟩ := p
    unfold aget at h
    split at h
    · rename_i e
      cases h
      exact e ▸ List.mem_cons_self
    · exact List.mem_cons_of_mem _ (ih h)

/-- A change of every core, which leaves a core as it is that has not been used, reaches every core. -/
theorem State.core_foldl_all (u : Nat → Core → Core) (hu : ∀ k c, u k (u k c) = u k c) (hr : ∀ k, u k Core.reset = Core.reset)
    (s : State) (j : Nat) :
    (((s.cores.map (·.1)).foldl (fun s k => s.setCore k (u k (s.core k))) s).core j) = u j (s.core j) := by
  rw [State.foldl_setCore]
  refine (aget_foldl_aset Core.reset u hu _ s.cores j).trans ?_
  split
  · rfl
  · rename_i out
    rw [State.core, aget_none_of_key out]
    exact (hr j).symm

/-! ### Answers of the host (05 R113) -/

/-- A removed entry is no longer in its die. -/
theorem id_of_mem_dropFault {s : State} {die id : Nat} {g : HostFault} (h : g ∈ ((s.dropFault die id).die die).faults) :
    g.id ≠ id := by
  unfold State.dropFault at h
  rw [State.die_setDie, if_pos rfl] at h
  simpa using List.of_mem_filter h

/-- The refused stores that an answer reaches (log entries 44, 132). -/
theorem requests_iff (e : SbEntry) (core die : Nat) (f : HostFault) :
    e.requests core die f = true ↔ waitsForHost e ∧ (onPage e f ∨ dieOf core = die ∧ e.hostq = f.id) := by
  have page : onPage e f ↔ e.space = f.space ∧ page4k e.va = f.va := Iff.rfl
  simp [SbEntry.requests, waitsForHost, page]

/-- A store that is replayed, when an answer reaches it. -/
def SbEntry.replayed (die : Nat) (f : HostFault) (core : Nat) (e : SbEntry) : SbEntry :=
  if e.requests core die f then { e with state := .replaying } else e

theorem SbEntry.replayed_hit {e : SbEntry} {core die : Nat} {f : HostFault} (h : e.requests core die f = true) :
    e.replayed die f core = { e with state := .replaying } := if_pos h

theorem SbEntry.replayed_miss {e : SbEntry} {core die : Nat} {f : HostFault} (h : ¬e.requests core die f = true) :
    e.replayed die f core = e := if_neg h

/-- A store that is replayed waits no more. -/
theorem SbEntry.not_requests_replayed (e : SbEntry) (core die : Nat) (f : HostFault) :
    ¬(e.replayed die f core).requests core die f = true := by
  by_cases h : e.requests core die f = true
  · rw [SbEntry.replayed_hit h]
    simp [SbEntry.requests]
  · rwa [SbEntry.replayed_miss h]

/-- The buffers after every refused store of a page has been replayed. -/
theorem sb_replayPages (s : State) (die : Nat) (f : HostFault) (k : Nat) :
    (((s.cores.map (·.1)).foldl (State.replayPage die f) s).core k).sb = (s.core k).sb.map (SbEntry.replayed die f k) := by
  have all := State.core_foldl_all (fun k c => { c with sb := c.sb.map (SbEntry.replayed die f k) })
    (fun k c => by
      dsimp only
      rw [List.map_map]
      congr 1
      exact List.map_congr_left fun e _ => SbEntry.replayed_miss (e.not_requests_replayed k die f))
    (fun _ => rfl) s k
  exact congrArg Core.sb all

theorem State.foldl_replayPage_fields (die : Nat) (f : HostFault) (keys : List Nat) (s : State) :
    (keys.foldl (State.replayPage die f) s).mem = s.mem ∧ (keys.foldl (State.replayPage die f) s).dies = s.dies := by
  obtain ⟨l, e⟩ : ∃ l, keys.foldl (State.replayPage die f) s = { s with cores := l } :=
    ⟨_, State.foldl_setCore (fun k c => { c with sb := c.sb.map (SbEntry.replayed die f k) }) keys s⟩
  rw [e]
  exact ⟨rfl, rfl⟩

/-- A core's buffer after "fail" of a page: without the refused stores that the answer reaches. -/
def State.dropPage (die : Nat) (f : HostFault) (s : State) (core : Nat) : State :=
  s.setCore core { s.core core with sb := (s.core core).sb.filter fun e => !e.requests core die f }

theorem State.foldl_dropPage_dies (die : Nat) (f : HostFault) (keys : List Nat) (s : State) :
    (keys.foldl (State.dropPage die f) s).dies = s.dies := by
  obtain ⟨l, e⟩ : ∃ l, keys.foldl (State.dropPage die f) s = { s with cores := l } :=
    ⟨_, State.foldl_setCore (fun k c => { c with sb := c.sb.filter fun e => !e.requests k die f }) keys s⟩
  rw [e]

/-- The buffers after every refused store of a page has been dropped. -/
theorem sb_dropPages (s : State) (die : Nat) (f : HostFault) (k : Nat) :
    (((s.cores.map (·.1)).foldl (State.dropPage die f) s).core k).sb = (s.core k).sb.filter fun e => !e.requests k die f := by
  have all := State.core_foldl_all (fun k c => { c with sb := c.sb.filter fun e => !e.requests k die f })
    (fun k c => by simp) (fun _ => rfl) s k
  exact congrArg Core.sb all

/-! #### "Retry" -/

/-- No hart of a table is in the trap of a failed command (05 R111, cause 0x13). -/
def noCommandTrap (l : List (Nat × Hart)) : Prop :=
  ∀ k h, aget l k = some h → ∀ t, h.trap = some t → t.frec.cause ≠ 0x13

theorem noCommandTrap_aset {l : List (Nat × Hart)} {k : Nat} {h : Hart} (hl : noCommandTrap l)
    (hh : ∀ t, h.trap = some t → t.frec.cause ≠ 0x13) : noCommandTrap (aset l k h) := by
  intro j g e
  rw [aget_aset] at e
  split at e
  · cases e
    exact hh
  · exact hl j g e

/-- A machine that differs from another in its harts alone, none of which is in the trap of a failed command. -/
def State.retried (s t : State) : Prop := ∃ l, t = { s with harts := l } ∧ noCommandTrap l

theorem State.retried.setHart {s t : State} (h : s.retried t) {k : Nat} {x : Hart}
    (hx : ∀ w, x.trap = some w → w.frec.cause ≠ 0x13) : s.retried (t.setHart k x) := by
  obtain ⟨l, rfl, hl⟩ := h
  exact ⟨_, rfl, noCommandTrap_aset hl hx⟩

/-- A return to another instruction than a failed command's leaves the trap, and nothing is issued again. -/
theorem State.retried.goBack {s t : State} (h : s.retried t) {core slot : Nat} {w : Handling} (hw : w.frec.cause ≠ 0x13)
    {d : State} : s.retried ((t.goBack core slot w).getD d) := by
  unfold State.goBack
  rw [if_neg hw, Option.map_some, Option.getD_some]
  split
  · exact h.setHart fun _ e => nomatch e
  · exact h

theorem State.retried.retryHart {s t : State} (h : s.retried t) {die : Nat} {f : HostFault} {key : Nat} :
    s.retried (State.retryHart die f t key) := by
  unfold State.retryHart
  split
  · exact h
  · rename_i x there
    have cause : ∀ w, x.trap = some w → w.frec.cause ≠ 0x13 := by
      obtain ⟨l, rfl, hl⟩ := h
      exact hl key x there
    generalize hg : (if dieOf (coreOf key) = die then { x with fail := x.fail.map (CmdFailure.resolve f.id) } else x) = g
    have same : g.trap = x.trap := by
      rw [← hg]
      split <;> rfl
    rw [← same] at cause
    have kept := h.setHart (k := key) cause
    dsimp only
    split
    · exact kept
    · rename_i w trapped
      have later := kept.setHart (k := key) (x := { g with trap := some { w with retry := true } }) fun v e => by
        cases e
        exact cause w trapped
      split
      · split
        · exact kept.goBack (cause w trapped)
        · exact later
      · exact kept

theorem State.retried.foldl {s t : State} (h : s.retried t) (die : Nat) (f : HostFault) (keys : List Nat) :
    s.retried (keys.foldl (State.retryHart die f) t) := by
  induction keys generalizing t with
  | nil => exact h
  | cons k keys ih => exact ih h.retryHart

/-- What "retry" does: the entry ends, and harts, saved harts and stores that wait for it are answered. -/
def State.answerRetry (s : State) (die : Nat) (f : HostFault) : State :=
  let t := ((s.dropFault die f.id).harts.map (·.1)).foldl (State.retryHart die f) (s.dropFault die f.id)
  let u := { t with fe := { t.fe with saved := t.fe.saved.map (SavedHart.resolve die f) } }
  (u.cores.map (·.1)).foldl (State.replayPage die f) u

/-- After "retry" no refused store of the page waits. -/
theorem answerRetry_waits {s : State} {die : Nat} {f : HostFault} {k : Nat} {e : SbEntry}
    (h : e ∈ ((s.answerRetry die f).core k).sb) (hp : onPage e f) : ¬waitsForHost e := by
  unfold State.answerRetry at h
  dsimp only at h
  rw [sb_replayPages] at h
  obtain ⟨d, -, rfl⟩ := List.mem_map.1 h
  exact fun w => d.not_requests_replayed k die f ((requests_iff _ _ _ _).2 ⟨w, .inl hp⟩)

/-- "Retry", where no hart is in the trap of a failed command: memory stands, the entry ends, and refused stores replay. -/
theorem answerRetry_calm {s : State} {die : Nat} {f : HostFault}
    (hs : ∀ q ∈ s.harts, ∀ w, q.2.trap = some w → w.frec.cause ≠ 0x13) :
    (s.answerRetry die f).mem = s.mem ∧ (∀ g ∈ ((s.answerRetry die f).die die).faults, g.id ≠ f.id) ∧
      ∀ k, ((s.answerRetry die f).core k).sb = (s.core k).sb.map (SbEntry.replayed die f k) := by
  have calm : (s.dropFault die f.id).retried (s.dropFault die f.id) := ⟨_, rfl, fun k x e => hs _ (mem_of_aget e)⟩
  obtain ⟨l, answered, -⟩ := calm.foldl die f ((s.dropFault die f.id).harts.map (·.1))
  refine ⟨?_, fun g hg => ?_, fun k => ?_⟩
  · unfold State.answerRetry
    dsimp only
    rw [(State.foldl_replayPage_fields _ _ _ _).1, answered]
    rfl
  · unfold State.answerRetry State.die at hg
    dsimp only at hg
    rw [(State.foldl_replayPage_fields _ _ _ _).2, answered] at hg
    exact id_of_mem_dropFault hg
  · unfold State.answerRetry
    dsimp only
    rw [sb_replayPages, answered]
    rfl

/-! #### "Fail" -/

/-- The fault entries of the dies after some domains have ended. -/
theorem dies_foldl_failRequester (rs : List Requester) (s : State) : (rs.foldl State.failRequester s).dies = s.dies := by
  induction rs generalizing s with
  | nil => rfl
  | cons r rs ih =>
    refine (ih _).trans ?_
    unfold State.failRequester
    split
    · exact State.dies_endDomain _ _ _ _ _ _
    · rfl

/-- What "fail" does: the domains of those who wait for the entry end, now or at a restore, and their stores are dropped. -/
def State.answerFail (s : State) (die : Nat) (f : HostFault) : State :=
  let later := fun (q : SavedHart) => match s.savedRequester die f q with
    | some r => { q with failed := some (q.failed.getD r) }
    | none => q
  let t := { s with fe := { s.fe with saved := s.fe.saved.map later } }
  let u := (s.harts.filterMap fun q => s.requester die f q.1 q.2).foldl State.failRequester (t.dropFault die f.id)
  (u.cores.map (·.1)).foldl (State.dropPage die f) u

theorem answerFail_spec (s : State) (die : Nat) (f : HostFault) :
    (∀ g ∈ ((s.answerFail die f).die die).faults, g.id ≠ f.id) ∧
      ∀ k, ∀ e ∈ ((s.answerFail die f).core k).sb, onPage e f → ¬waitsForHost e := by
  refine ⟨fun g hg => ?_, fun k e he hp w => ?_⟩
  · unfold State.answerFail State.die at hg
    dsimp only at hg
    rw [State.foldl_dropPage_dies, dies_foldl_failRequester] at hg
    exact id_of_mem_dropFault hg
  · unfold State.answerFail at he
    dsimp only at he
    rw [sb_dropPages] at he
    have kept := List.of_mem_filter he
    rw [(requests_iff e k die f).2 ⟨w, .inl hp⟩] at kept
    exact nomatch kept

/-! #### The commands -/

section
variable {s : State} {c : List Word}

theorem bit_cmdWord (c : List Word) (n : Nat) : bit (cmdWord c n) 0 = decide (word c n % 2 = 1) := Nat.testBit_zero _

/-- A resolution, by the lowest bit of its third word, is one command or the other, whose effect is the answer named. -/
theorem execResolveRetry_eq (h : atHead s c) (hr : word c 3 % 2 = 0) :
    execResolveRetry s = s.command 0x06 fun c s =>
      match s.faultEntry c with
      | none => done1 0x08 s
      | some f => if f.wres = 0xF then done1 0x09 s else done1 0x00 (s.answerRetry (cmdWord c 1 % 4) f) := by
  unfold execResolveRetry
  rw [command?_of_atHead h]
  dsimp only
  rw [if_neg (by simp [bit_cmdWord, hr])]
  rfl

theorem execResolveFail_eq (h : atHead s c) (hr : word c 3 % 2 = 1) :
    execResolveFail s = s.command 0x06 fun c s =>
      match s.faultEntry c with
      | none => done1 0x08 s
      | some f => done1 0x00 (s.answerFail (cmdWord c 1 % 4) f) := by
  unfold execResolveFail
  rw [command?_of_atHead h]
  dsimp only
  rw [if_neg (by simp [bit_cmdWord, hr])]
  rfl

theorem resolveRetry_ends (h : atHead s c) (hc : commandOf c 6 [1, 2, 3]) (hr : word c 3 % 2 = 0) :
    (s.faultEntry c = none → exec .resolveRetry s = .next (finished s c 8 0)) ∧
    ∀ f, s.faultEntry c = some f →
      (f.wres = 15 → exec .resolveRetry s = .next (finished s c 9 0)) ∧
      (f.wres ≠ 15 → exec .resolveRetry s = .next (finished (s.answerRetry (word c 1 % 4) f) c 0 0)) := by
  have run := execResolveRetry_eq h hr
  refine ⟨fun e => run.trans (command_ends h hc (by omega) ?_), fun f e => ⟨fun n => run.trans (command_ends h hc (by omega) ?_),
    fun n => run.trans (command_ends h hc (by omega) ?_)⟩⟩
  · simp [e, done1]
  · simp [e, n, done1]
  · simp only [e, n, done1, if_false]
    rfl

theorem resolveFail_ends (h : atHead s c) (hc : commandOf c 6 [1, 2, 3]) (hr : word c 3 % 2 = 1) :
    (s.faultEntry c = none → exec .resolveFail s = .next (finished s c 8 0)) ∧
    ∀ f, s.faultEntry c = some f → exec .resolveFail s = .next (finished (s.answerFail (word c 1 % 4) f) c 0 0) := by
  have run := execResolveFail_eq h hr
  refine ⟨fun e => run.trans (command_ends h hc (by omega) ?_), fun f e => run.trans (command_ends h hc (by omega) ?_)⟩
  · simp [e, done1]
  · simp only [e, done1]
    rfl

theorem endRegion_ends (h : atHead s c) (hc : commandOf c 7 [1]) :
    (s.fieldsOf (word c 1) = none → exec .endRegion s = .next (finished s c 10 0)) ∧
    (s.fieldsOf (word c 1) ≠ none → exec .endRegion s = .next (finished (s.endByHost (word c 1)) c 0 0)) := by
  have run : exec .endRegion s = execEndRegion s := rfl
  rw [run, execEndRegion]
  refine ⟨fun e => command_ends h hc (by omega) (if_neg ?_), fun e => command_ends h hc (by omega) (if_pos ?_)⟩
  · exact fun some => Option.isSome_iff_ne_none.1 some e
  · exact Option.isSome_iff_ne_none.2 e

end

/-- A store after "retry", where it is one that waited on the page, and where it is not. -/
theorem SbEntry.replayed_cases (x : SbEntry) (die : Nat) (f : HostFault) (k : Nat) :
    (waitsForHost x → onPage x f → x.replayed die f k = { x with state := .replaying }) ∧
    (¬waitsForHost x ∨ ¬onPage x f ∧ x.hostq ≠ f.id → x.replayed die f k = x) := by
  refine ⟨fun w p => x.replayed_hit ((requests_iff _ _ _ _).2 ⟨w, .inl p⟩), fun out => x.replayed_miss fun hit => ?_⟩
  obtain ⟨w, p⟩ := (requests_iff _ _ _ _).1 hit
  rcases out with n | ⟨n, q⟩
  · exact n w
  · exact p.elim n fun i => q i.2

theorem resolveAndEndCommands : ResolveAndEndCommands := by
  intro s c h
  refine ⟨fun hc hr => ?_, fun hc hr => ?_, fun hc => ?_⟩
  · obtain ⟨unnamed, named⟩ := resolveRetry_ends h hc hr
    refine ⟨unnamed, fun f e => ⟨(named f e).1, fun n => ⟨_, (named f e).2 n, fun calm => ?_, fun k e he hp => ?_⟩⟩⟩
    · obtain ⟨mem, ended, sb⟩ := answerRetry_calm (f := f) (die := word c 1 % 4) calm
      refine ⟨mem, ended, fun k => ⟨by rw [sb, List.length_map], fun n x y hx hy => ?_⟩⟩
      rw [sb, List.getElem?_map, hx] at hy
      obtain rfl := Option.some.inj hy
      exact x.replayed_cases (word c 1 % 4) f k
    · exact answerRetry_waits he hp
  · obtain ⟨unnamed, named⟩ := resolveFail_ends h hc hr
    exact ⟨unnamed, fun f e => ⟨_, named f e, answerFail_spec s _ f⟩⟩
  · obtain ⟨unnamed, named⟩ := endRegion_ends h hc
    exact ⟨unnamed, fun e => ⟨_, named e, s.endByHost_spec _⟩⟩

/-! ### What a range hold drops (04 R94, R95) -/

/-- Whether a page shares an address of a space with a range. -/
def pageMeets (space : BitVec 16) (base n : Nat) (p : BitVec 16 × Nat × Nat) : Prop :=
  p.1 = space ∧ p.2.1 < base + n ∧ base < p.2.1 + 2 ^ p.2.2

theorem pageMeets_iff (space s : BitVec 16) (base n vbase lg : Nat) :
    (decide (s = space) && rangesMeet vbase (2 ^ lg) base n) = true ↔ pageMeets space base n (s, vbase, lg) := by
  simp only [pageMeets, rangesMeet, Bool.and_eq_true, decide_eq_true_eq]

/-- What a filter that drops the pages of a range leaves is not one of them. -/
theorem not_pageMeets_of_mem_filter {α : Type} {l : List α} {e : α} {space : BitVec 16} {base n : Nat} {f : α → BitVec 16}
    {b g : α → Nat} (h : e ∈ l.filter fun e => !(decide (f e = space) && rangesMeet (b e) (2 ^ g e) base n)) :
    ¬pageMeets space base n (f e, b e, g e) := by
  intro m
  have kept := List.of_mem_filter h
  rw [(pageMeets_iff ..).2 m] at kept
  exact nomatch kept

/-- A core whose filter holds no page of a range. -/
def Core.lacks (space : BitVec 16) (base n : Nat) (c : Core) : Prop :=
  ∀ p ∈ c.filter.map FilterEntry.page, ¬pageMeets space base n p

/-- A machine after a hold has met stores of a space: dies and translation are the same, of the harts the paused stores alone
changed, and no such store is changed where the space has none; filters hold no other pages. -/
structure State.Settled (space : BitVec 16) (s t : State) : Prop where
  dies : t.dies = s.dies
  xlat : t.xlat = s.xlat
  harts : ∀ key, (t.hart? key).map unpaused = (s.hart? key).map unpaused
  still : s.storesPaused space = false → t.harts = s.harts
  pages : ∀ k, (t.core k).filter.map FilterEntry.page ⊆ (s.core k).filter.map FilterEntry.page

theorem State.Steady.settled {s t : State} (h : s.Steady t) (space : BitVec 16) : s.Settled space t where
  dies := h.dies
  xlat := h.xlat
  harts key := congrArg (fun l => (aget l key).map unpaused) h.harts
  still _ := h.harts
  pages k _ m := h.pages k ▸ m

namespace State.Settled

variable {o s t : State} {space : BitVec 16}

theorem refl (space : BitVec 16) (s : State) : s.Settled space s := (Steady.refl s).settled space

theorem trans (a : o.Settled space s) (b : s.Settled space t) : o.Settled space t where
  dies := b.dies.trans a.dies
  xlat := b.xlat.trans a.xlat
  harts key := (b.harts key).trans (a.harts key)
  still e := by
    have same := a.still e
    refine (b.still ?_).trans same
    unfold State.storesPaused
    rw [same]
    exact e
  pages k := List.Subset.trans (b.pages k) (a.pages k)

theorem foldl {α : Type} {f : State → α → State} (h : o.Settled space s) (l : List α)
    (hf : ∀ (s : State) a, s.Settled space (f s a)) : o.Settled space (l.foldl f s) := by
  induction l generalizing s with
  | nil => exact h
  | cons a t ih => exact ih (h.trans (hf s a))

/-- A core that lacks the pages of a range does not come to hold one. -/
theorem lacks (h : s.Settled space t) {base n k : Nat} (l : (s.core k).lacks space base n) : (t.core k).lacks space base n :=
  fun p m => l p (h.pages k m)

end State.Settled

/-- A hart's paused store is replaced. -/
theorem State.settled_setHart {s : State} {space : BitVec 16} {key : Nat} {h : Hart} {p : Paused} (hh : s.hart? key = some h)
    (hp : h.placed = some p) {x : Piece × Bool} (hx : x ∈ p.todo) (hs : x.1.a.space = space) (q : Option Paused) :
    s.Settled space (s.setHart key { h with placed := q }) where
  dies := rfl
  xlat := rfl
  harts j := by
    rw [State.hart?_setHart]
    split
    · rename_i e
      rw [e, hh]
      rfl
    · rfl
  still e := by
    have paused : s.storesPaused space = true := by
      simp only [State.storesPaused, List.any_eq_true, Option.any_eq_true, decide_eq_true_eq]
      exact ⟨_, mem_of_aget hh, p, hp, x, hx, hs⟩
    rw [e] at paused
    exact nomatch paused
  pages _ := List.Subset.refl _

theorem State.settled_settlePaused (s : State) (core : Nat) (space : BitVec 16) (base n slot : Nat) :
    s.Settled space (State.settlePaused core space base n s slot) := by
  unfold State.settlePaused
  dsimp only
  split
  · exact .refl space s
  · rename_i h there
    split
    · exact .refl space s
    · rename_i p placed
      split
      · exact .refl space s
      · rename_i hit
        rw [Bool.not_eq_true', Bool.not_eq_false] at hit
        obtain ⟨x, hx, reached⟩ := List.any_eq_true.1 hit
        have hs : x.1.a.space = space := by
          simp only [inRange, Bool.and_eq_true, decide_eq_true_eq] at reached
          exact reached.1.1
        split
        · exact State.settled_setHart there placed hx hs _
        · exact State.settled_setHart there placed hx hs _

/-- A hold on one core drops the pages of the range from its filter. -/
theorem State.holdCore_spec (s : State) (space : BitVec 16) (base n core : Nat) :
    s.Settled space (State.holdCore space base n s core) ∧
      ((State.holdCore space base n s core).core core).lacks space base n := by
  have acked : s.Steady ((s.ackBypass core).ackTarget core) := (Steady.refl s).ackBypass.ackTarget
  have drained (u : State) := ((Steady.refl u).drainRange (core := core) (space := space) (base := base) (n := n)
    (u.core core).sb.length).settled space
  have settled (u : State) : u.Settled space (u.settleStores core space base n) :=
    (((drained u).foldl (upto 8) fun u slot => u.settled_settlePaused core space base n slot)).trans
      ((Steady.refl _).setCore.settled space)
  have before := (acked.settled space).trans (settled _)
  unfold State.holdCore
  generalize (((s.ackBypass core).ackTarget core).settleStores core space base n) = u at *
  refine ⟨before.trans ⟨rfl, rfl, fun _ => rfl, fun _ => rfl, fun k => ?_⟩, ?_⟩
  · rw [State.core_setCore]
    split
    · rename_i e
      exact e ▸ List.map_subset _ (List.filter_subset_self _)
    · exact List.Subset.refl _
  · rw [State.core_setCore, if_pos rfl]
    intro p m
    obtain ⟨e, he, rfl⟩ := List.mem_map.1 m
    exact not_pageMeets_of_mem_filter he

/-- A hold on some cores, one after the other. -/
theorem State.lacks_foldl_holdCore (space : BitVec 16) (base n : Nat) (keys : List Nat) {s : State} {k : Nat} (hk : k ∈ keys) :
    ((keys.foldl (State.holdCore space base n) s).core k).lacks space base n := by
  induction keys generalizing s with
  | nil => exact nomatch hk
  | cons j keys ih =>
    rw [List.foldl_cons]
    rcases List.mem_cons.1 hk with rfl | hk
    · have dropped := (s.holdCore_spec space base n k).2
      generalize State.holdCore space base n s k = u at dropped ⊢
      exact ((Settled.refl space u).foldl keys fun u j => (u.holdCore_spec space base n j).1).lacks dropped
    · exact ih hk

/-- What a hold leaves of a die (04 R94 steps 5 and 6). -/
def Die.heldTables (space : BitVec 16) (base n : Nat) (d : Die) : Die :=
  { d with
    tcache := d.tcache.filter fun l => !(l.space = space && rangesMeet l.vbase (2 ^ l.lg) base n)
    wcache := d.wcache.filter fun e => e.space ≠ space }

def Die.heldNames (space : BitVec 16) (base n : Nat) (d : Die) : Die :=
  { d with names := d.names.filter fun r =>
      !(r.space = space && base ≤ r.vbase && decide (r.vbase + 2 ^ r.lg ≤ base + n)) }

theorem State.dropHomes_only (frames : List (Nat × Nat)) (s : State) :
    s.homeOnly (frames.foldl (fun (s : State) f => s.dropHome f.1 (2 ^ f.2)) s) := by
  induction frames generalizing s with
  | nil => exact s.homeOnly_refl
  | cons f frames ih => exact State.homeOnly_trans (s.dropHome_only _ _) (ih _)

/-- The last passes of a hold change dies and home slices alone, and leave in no die a translation of the range or a table entry
of the space. -/
theorem State.holdDies_spec (s : State) (space : BitVec 16) (base n : Nat) (frames : List (Nat × Nat)) :
    let t := (upto numDies).foldl (State.holdNames space base n)
      (frames.foldl (fun (s : State) f => s.dropHome f.1 (2 ^ f.2)) ((upto numDies).foldl (State.holdDie space base n) s))
    (∃ l d m, t = { s with home := l, free := m, dies := d }) ∧
      ∀ k, k < 4 → (∀ e ∈ (t.die k).tcache, ¬pageMeets space base n (e.space, e.vbase, e.lg)) ∧
        ∀ e ∈ (t.die k).wcache, e.space ≠ space := by
  have tables : ∀ u : State, ∃ d, (upto numDies).foldl (State.holdDie space base n) u = { u with dies := d } ∧
      ∀ k, k < 4 → ((aget d k).getD Die.reset) = (u.die k).heldTables space base n := fun u =>
    ⟨_, State.foldl_setDie (fun _ d => d.heldTables space base n) (upto numDies) u, fun k hk =>
      (aget_foldl_aset Die.reset _ (fun _ d => by simp [Die.heldTables]) _ _ k).trans (if_pos (List.mem_range.2 hk))⟩
  have names : ∀ u : State, ∃ d, (upto numDies).foldl (State.holdNames space base n) u = { u with dies := d } ∧
      ∀ k, k < 4 → ((aget d k).getD Die.reset) = (u.die k).heldNames space base n := fun u =>
    ⟨_, State.foldl_setDie (fun _ d => d.heldNames space base n) (upto numDies) u, fun k hk =>
      (aget_foldl_aset Die.reset _ (fun _ d => by simp [Die.heldNames]) _ _ k).trans (if_pos (List.mem_range.2 hk))⟩
  obtain ⟨d, first, left⟩ := tables s
  obtain ⟨l, m, dropped⟩ := { s with dies := d }.dropHomes_only frames
  obtain ⟨d', last, named⟩ := names { s with home := l, free := m, dies := d }
  rw [first, dropped, last]
  refine ⟨⟨l, d', m, rfl⟩, fun k hk => ?_⟩
  have die : ({ s with home := l, free := m, dies := d' } : State).die k =
      ((s.die k).heldTables space base n).heldNames space base n := (named k hk).trans (congrArg _ (left k hk))
  rw [die]
  exact ⟨fun e h => not_pageMeets_of_mem_filter h, fun e h => by simpa using List.of_mem_filter h⟩

/-- Nothing of a range is left in a filter, a translation cache or a walk cache. -/
theorem rangeDropped_of {t : State} {tag base n : Nat} (htag : tag < 2 ^ 16)
    (hc : ∀ k, (t.core k).lacks (BitVec.ofNat 16 tag) base n)
    (hd : ∀ k, k < 4 → (∀ e ∈ (t.die k).tcache, ¬pageMeets (BitVec.ofNat 16 tag) base n (e.space, e.vbase, e.lg)) ∧
      ∀ e ∈ (t.die k).wcache, e.space ≠ BitVec.ofNat 16 tag) : rangeDropped t tag base n := by
  have space : ∀ x : BitVec 16, x.toNat = tag → x = BitVec.ofNat 16 tag := fun x e =>
    BitVec.eq_of_toNat_eq (by rw [e, BitVec.toNat_ofNat, Nat.mod_eq_of_lt htag])
  refine ⟨fun k e he ⟨hs, m⟩ => ?_, fun k hk e he ⟨hs, m⟩ => ?_, fun k hk e he hs => ?_⟩
  · exact hc k _ (List.mem_map_of_mem he) ⟨space _ hs, m⟩
  · exact (hd k hk).1 e he ⟨space _ hs, m⟩
  · exact (hd k hk).2 e he (space _ hs)

/-- 04 R94: a hold drops a range from every filter, translation cache and walk cache; translation stands, of the harts only the
paused stores change, and where the space has none no hart does. -/
theorem State.shootdown_spec (s : State) {tag : Nat} (htag : tag < 2 ^ 16) (base n : Nat) :
    let t := s.shootdown (BitVec.ofNat 16 tag) base n
    t.xlat = s.xlat ∧ (∀ key, (t.hart? key).map unpaused = (s.hart? key).map unpaused) ∧
      (s.storesPaused (BitVec.ofNat 16 tag) = false → t.harts = s.harts) ∧ rangeDropped t tag base n := by
  generalize hspace : BitVec.ofNat 16 tag = space
  have held := (Settled.refl space s).foldl (s.cores.map (·.1)) fun u k => (u.holdCore_spec space base n k).1
  have lacks : ∀ k, (((s.cores.map (·.1)).foldl (State.holdCore space base n) s).core k).lacks space base n := by
    intro k
    by_cases hk : k ∈ s.cores.map (·.1)
    · exact State.lacks_foldl_holdCore space base n _ hk
    · refine held.lacks ?_
      rw [State.core, aget_none_of_key hk]
      exact fun p m => nomatch m
  unfold State.shootdown
  generalize (s.cores.map (·.1)).foldl (State.holdCore space base n) s = a at held lacks
  have flushed := ((Steady.refl a).flushRange (space := space) (base := base) (n := n)).settled space
  dsimp only
  generalize a.flushRange space base n = b at flushed
  obtain ⟨⟨l, d, m, last⟩, tables⟩ := b.holdDies_spec space base n (b.framesIn space base n)
  rw [last] at tables ⊢
  have all := held.trans flushed
  refine ⟨all.xlat, all.harts, all.still, ?_⟩
  subst hspace
  exact rangeDropped_of htag (fun k => flushed.lacks (lacks k)) tables

/-! ### Range and space commands (04 R94 to R96; 26 R379) -/

section
variable {s : State} {c : List Word}

theorem rangeBad_iff (c : List Word) :
    rangeBad (cmdWord c 1 % 2 ^ 16) (cmdWord c 2) (cmdWord c 3 % 64) = true ↔ ¬goodRange c := by
  have words : ∀ n, cmdWord c n = word c n := fun _ => rfl
  simp only [rangeBad, words, Bool.or_eq_true, decide_eq_true_eq, goodRange]
  generalize word c 2 % 2 ^ (word c 3 % 64) = r
  omega

/-- A space tag of 16 bits as a number. -/
theorem eq_ofNat_iff {tag : Nat} (htag : tag < 2 ^ 16) (x : BitVec 16) : x = BitVec.ofNat 16 tag ↔ x.toNat = tag := by
  rw [← BitVec.toNat_inj, BitVec.toNat_ofNat, Nat.mod_eq_of_lt htag]

theorem heldRange_iff (s : State) {tag : Nat} (htag : tag < 2 ^ 16) (base n : Nat) :
    s.heldRange (BitVec.ofNat 16 tag) base n = true ↔ rangeHeld s tag base n := by
  simp only [State.heldRange, rangeHeld, List.any_eq_true, Bool.and_eq_true, decide_eq_true_eq, eq_ofNat_iff htag, and_assoc]

theorem begunIn_iff (s : State) {tag : Nat} (htag : tag < 2 ^ 16) (base n : Nat) :
    s.begunIn (BitVec.ofNat 16 tag) base n = true ↔ storeBegun s tag base n := by
  simp only [State.begunIn, storeBegun, inRange, List.any_eq_true, Option.any_eq_true, Bool.and_eq_true, decide_eq_true_eq,
    eq_ofNat_iff htag, and_assoc]

theorem storesPaused_iff (s : State) {tag : Nat} (htag : tag < 2 ^ 16) :
    s.storesPaused (BitVec.ofNat 16 tag) = true ↔ storePaused s tag := by
  simp only [State.storesPaused, storePaused, List.any_eq_true, Option.any_eq_true, decide_eq_true_eq, eq_ofNat_iff htag]

/-- The hold that a command names. -/
def commandHold (c : List Word) : Hold where
  space := BitVec.ofNat 16 (word c 1 % 2 ^ 16)
  base := word c 2
  lg := word c 3 % 64

theorem tag_lt (c : List Word) : word c 1 % 2 ^ 16 < 2 ^ 16 := Nat.mod_lt _ (by omega)

theorem rangeHoldResults (h : atHead s c) (hc : commandOf c 3 [1, 2, 3]) :
    let tag := word c 1 % 2 ^ 16
    let base := word c 2
    let lg := word c 3 % 64
    (¬goodRange c → exec .rangeHold s = .next (finished s c 7 0)) ∧
    (goodRange c → rangeHeld s tag base (2 ^ lg) ∨ storeBegun s tag base (2 ^ lg) → exec .rangeHold s = .next (begun s)) ∧
    (goodRange c → ¬rangeHeld s tag base (2 ^ lg) → ¬storeBegun s tag base (2 ^ lg) →
      exec .rangeHold s = .next (finished
        ({ s with xlat := { s.xlat with holds := s.xlat.holds ++ [commandHold c] } }.shootdown
          (BitVec.ofNat 16 tag) base (2 ^ lg)) c 0 0)) := by
  intro tag base lg
  have run : exec .rangeHold s = execRangeHold s := rfl
  have bad := rangeBad_iff c
  have waits : (s.heldRange (BitVec.ofNat 16 tag) base (2 ^ lg) || s.begunIn (BitVec.ofNat 16 tag) base (2 ^ lg)) = true ↔
      rangeHeld s tag base (2 ^ lg) ∨ storeBegun s tag base (2 ^ lg) := by
    rw [Bool.or_eq_true, heldRange_iff s (tag_lt c), begunIn_iff s (tag_lt c)]
  rw [run, execRangeHold]
  refine ⟨fun g => command_ends h hc (by omega) (if_pos (bad.2 g)), fun g w => command_waits h hc (by omega) ?_,
    fun g nh nb => command_ends h hc (by omega) ?_⟩
  · exact (if_neg fun b => bad.1 b g).trans (if_pos (waits.2 w))
  · exact (if_neg fun b => bad.1 b g).trans (if_neg fun w => (waits.1 w).elim nh nb)

theorem rangeFreeResults (h : atHead s c) (hc : commandOf c 4 [1, 2, 3]) :
    (¬goodRange c → exec .rangeFree s = .next (finished s c 7 0)) ∧
    (goodRange c → exec .rangeFree s = .next (finished
      { s with xlat := { s.xlat with holds := s.xlat.holds.filter fun q => q ≠ commandHold c } } c 0 0)) := by
  have run : exec .rangeFree s = execRangeFree s := rfl
  have bad := rangeBad_iff c
  rw [run, execRangeFree]
  exact ⟨fun g => command_ends h hc (by omega) (if_pos (bad.2 g)),
    fun g => command_ends h hc (by omega) (if_neg fun b => bad.1 b g)⟩

theorem spaceUpdateResults (h : atHead s c) (hc : commandOf c 5 [1, 2, 3]) :
    let tag := word c 1 % 2 ^ 16
    (tag = 0 → exec .spaceUpdate s = .next (finished s c 7 0)) ∧
    (tag ≠ 0 → rangeHeld s tag 0 (2 ^ 57) ∨ storePaused s tag → exec .spaceUpdate s = .next (begun s)) ∧
    (tag ≠ 0 → ¬rangeHeld s tag 0 (2 ^ 57) → ¬storePaused s tag → exec .spaceUpdate s = .next (finished
      ((s.shootdown (BitVec.ofNat 16 tag) 0 (2 ^ 57)).setSpace tag (word c 2 &&& descMask)) c 0 0)) := by
  intro tag
  have run : exec .spaceUpdate s = execSpaceUpdate s := rfl
  have waits : (s.heldRange (BitVec.ofNat 16 tag) 0 (2 ^ 57) || s.storesPaused (BitVec.ofNat 16 tag)) = true ↔
      rangeHeld s tag 0 (2 ^ 57) ∨ storePaused s tag := by
    rw [Bool.or_eq_true, heldRange_iff s (tag_lt c), storesPaused_iff s (tag_lt c)]
  rw [run, execSpaceUpdate]
  refine ⟨fun z => command_ends h hc (by omega) (if_pos z), fun z w => command_waits h hc (by omega) ?_,
    fun z nh np => command_ends h hc (by omega) ?_⟩
  · exact (if_neg z).trans (if_pos (waits.2 w))
  · exact (if_neg z).trans (if_neg fun w => (waits.1 w).elim nh np)

end

/-- The bits of a word that a space descriptor has fields for (04 R77). -/
theorem testBit_descMask (i : Nat) : descMask.testBit i = decide (i < 3 ∨ 12 ≤ i ∧ i < 52) := by
  by_cases hi : i < 52
  · interval_cases i <;> rfl
  · have : descMask < 2 ^ i := lt_of_lt_of_le (by decide : descMask < 2 ^ 52) (Nat.pow_le_pow_right (by omega) (by omega))
    rw [Nat.testBit_lt_two_pow this]
    exact (decide_eq_false (by omega)).symm

/-- Writing a descriptor writes that of its space alone; a zero one reads as none does. -/
theorem State.setSpace_spec (s : State) (tag w : Nat) :
    (∀ i, i < 128 → ((aget (s.setSpace tag w).xlat.spaces tag).getD 0).getLsbD i = w.testBit i) ∧
      ∀ k, k ≠ tag → aget (s.setSpace tag w).xlat.spaces k = aget s.xlat.spaces k := by
  unfold State.setSpace
  dsimp only
  by_cases hw : w = 0
  · rw [if_pos hw]
    exact ⟨fun i _ => by simp [hw], fun k hk => by simp [hk]⟩
  · rw [if_neg hw]
    refine ⟨fun i hi => ?_, fun k hk => by simp [hk]⟩
    rw [aget_aset, if_pos rfl, Option.getD_some, BitVec.getLsbD_ofNat, decide_eq_true hi, Bool.true_and]

theorem rangeCommands : RangeCommands := by
  intro s c h
  refine ⟨fun hc => ?_, fun hc => ?_, fun hc => ?_⟩
  · obtain ⟨bad, waits, holds⟩ := rangeHoldResults h hc
    refine ⟨bad, waits, fun g nh nb => ⟨_, holds g nh nb, ?_⟩⟩
    obtain ⟨xlat, harts, -, dropped⟩ := State.shootdown_spec
      { s with xlat := { s.xlat with holds := s.xlat.holds ++ [commandHold c] } } (tag_lt c) (word c 2) (2 ^ (word c 3 % 64))
    refine ⟨?_, ?_, harts, dropped⟩
    · rw [xlat]
      rfl
    · rw [xlat]
  · obtain ⟨bad, frees⟩ := rangeFreeResults h hc
    refine ⟨bad, fun g => ⟨_, frees g, ⟨rfl, rfl, rfl, rfl, rfl, rfl, rfl, rfl⟩, rfl, fun q => ?_⟩⟩
    exact List.mem_filter.trans (and_congr_right fun _ => decide_eq_true_iff)
  · obtain ⟨zero, waits, writes⟩ := spaceUpdateResults h hc
    refine ⟨zero, waits, fun z nh np => ⟨_, writes z nh np, ?_⟩⟩
    obtain ⟨xlat, -, still, dropped⟩ := State.shootdown_spec s (tag_lt c) 0 (2 ^ 57)
    have idle : s.storesPaused (BitVec.ofNat 16 (word c 1 % 2 ^ 16)) = false :=
      Bool.eq_false_iff.2 fun p => np ((storesPaused_iff s (tag_lt c)).1 p)
    generalize s.shootdown (BitVec.ofNat 16 (word c 1 % 2 ^ 16)) 0 (2 ^ 57) = u at *
    obtain ⟨written, others⟩ := u.setSpace_spec (word c 1 % 2 ^ 16) (word c 2 &&& descMask)
    refine ⟨?_, still idle, dropped, fun i hi => ?_, fun k hk => ?_⟩
    · rw [← xlat]
      rfl
    · rw [written i hi, Nat.testBit_and, testBit_descMask, Bool.and_comm]
    · rw [others k hk, xlat]

end Sys2Proof.Machine

namespace Sys2Proof

open Sys2Proof.Machine

/-- Settles O50: a hold's passes are followed to what they leave in filters and tables, an answer of the host to the stores and
entries that it reaches, and the end of a region to the harts and launches that are gone. -/
theorem rangeAndResolveCommands : Obligations.RangeAndResolveCommands := ⟨rangeCommands, resolveAndEndCommands⟩

end Sys2Proof

namespace Sys2Proof.Machine

open Sys2Proof.Slice0

/-! # Scalar stores that enter the store buffer (05 R97 to R99) -/

theorem aset_aset {α : Type} (l : List (Nat × α)) (i : Nat) (x y : α) : aset (aset l i x) i y = aset l i y := by
  induction l with
  | nil => simp [aset]
  | cons p t ih =>
    obtain ⟨k, v⟩ := p
    by_cases hlt : i < k
    · simp [aset, hlt]
    · by_cases hk : k = i
      · simp [aset, hk]
      · simp [aset, hlt, hk, ih]

theorem State.setCore_setCore (s : State) (k : Nat) (c d : Core) : (s.setCore k c).setCore k d = s.setCore k d := by
  simp [State.setCore, aset_aset]

/-! ## What a scalar store asks for (14 R259, 12 R232) -/

theorem store_next {s s1 s2 : State} {h : Hart} {c : Acc × FilterEntry × Nat} {n : Nat} {off : BitVec 8} {o : Orient}
    {g : GIx} {base d : XIx} (hm : s.me = some h)
    (hc : checkReq (scalarReq .write h off o g base n) h true s = .ok c s1)
    (hw : writeCell c.1 c.2.1 c.2.2 n ((h.getX d).toNat % 2 ^ (8 * n)) 0 false false false h s1 = .ok () s2) :
    store n off o g base d s = .next (s2.setMe h.countStore.retire) := by
  unfold store
  rw [withHart_some _ hm, hc, Res.bind_ok, hw, Res.bind_ok]
  rfl

theorem scalarReq_eq_req (m : Moved) (rw : Rw) (h : Hart) : scalarReq rw h m.off m.o m.g m.base m.n = m.req rw h := by
  have e : mOffset h m.base m.off m.n = m.offset h := by
    unfold mOffset Moved.offset
    rw [BitVec.ofInt_mul, BitVec.signExtend, BitVec.ofInt_natCast]
  unfold scalarReq Moved.req
  rw [e]

/-- A scalar store is the store of its bytes, 1, 2, 4 or 8. -/
theorem exec_scalarStore {i : Instr} {m : Moved} (h : scalarStore i = some m) :
    (∀ s, exec i s = store m.n m.off m.o m.g m.base m.d s) ∧ (m.n = 1 ∨ m.n = 2 ∨ m.n = 4 ∨ m.n = 8) := by
  unfold scalarStore at h
  split at h
  case h_5 => exact nomatch h
  all_goals
    injection h with h
    subst h
    exact ⟨fun _ => rfl, by simp⟩

/-- A run of 1, 2, 4 or 8 bytes at an offset that it divides, from a segment's base, lies within one slot (01 R21, R22). -/
theorem aligned_run_in_slot {n off : Nat} (g : BitVec 128) (hn : n = 1 ∨ n = 2 ∨ n = 4 ∨ n = 8) (ha : off % n = 0) :
    (segBase g + off) % 128 + n ≤ 128 := by
  unfold segBase
  rcases hn with rfl | rfl | rfl | rfl <;> omega

/-! ## The checks of a store that its segment and its page grant (01 R22, 02 R31) -/

theorem segCheck_granted {g : BitVec 128} {h : Hart} {m : Moved} (hs : segGrants g (m.offset h) m.n false true) :
    segCheck g (m.req .write h) = none := by
  obtain ⟨hb, hl, he, -, hw, ha⟩ := hs
  have hw : segW g = true := hw rfl
  unfold segCheck
  simp only [Moved.req, hb, hw, Rw.denied, Nat.not_lt.2 hl, Nat.not_lt.2 he, ha]
  decide

theorem entryCheck_granted {c : Core} {h : Hart} {m : Moved} {e : FilterEntry} {key : Nat} {b : Bool}
    (hp : pageGrants c h m e false true) : entryCheck ((m.req .write h).acc h key b) .write e = none := by
  obtain ⟨-, -, -, hw, hs, ho⟩ := hp
  have hw : e.attr.w = true := hw rfl
  have hu : (!(e.attr.s && h.user)) = true := by
    cases hc : e.attr.s with
    | false => rfl
    | true => rw [hs hc]; rfl
  have hr : rightsCheck ((m.req .write h).acc h key b) .write e = none := by
    simp [rightsCheck, Req.acc, Rw.denied, hu, hw]
  have hc : orientCheck ((m.req .write h).acc h key b) e = none := by
    by_cases hm : m.o = .col
    · simp [orientCheck, Req.acc, Moved.req, hm, ho hm]
    · simp [orientCheck, Req.acc, Moved.req, hm]
  rw [entryCheck, hr, hc]

theorem checkReq_granted {s : State} {h : Hart} {m : Moved} {e : FilterEntry}
    (hs : segGrants (h.getG m.g.toNat) (m.offset h) m.n false true) (hp : pageGrants (s.core s.myCore) h m e false true) :
    checkReq (m.req .write h) h true s = .ok ((m.req .write h).acc h s.cur true, e, m.cell h e) s := by
  have hc : (m.req .write h).col = decide (m.o = .col) := rfl
  have hf : present ((m.req .write h).acc h s.cur true) .write m.n s = .ok e s := by
    unfold present
    have : (s.core ((m.req .write h).acc h s.cur true).core).filter.find? (fun q =>
        q.covers ((m.req .write h).acc h s.cur true).space ((m.req .write h).acc h s.cur true).va) = some e := hp.1
    rw [this]
    simp only [Res.bind_ok, hp.2.1, Bool.false_and]
    rfl
  unfold checkReq
  dsimp only
  rw [show (m.req .write h).g = m.g.toNat from rfl, segCheck_granted hs]
  dsimp only
  rw [show (m.req .write h).rw = .write from rfl, show (m.req .write h).n = m.n from rfl, hf, Res.bind_ok,
    entryCheck_granted hp]
  simp [cellOf, Req.acc, Moved.cell, Moved.va, Moved.req]

/-! ## The entry that such a store makes -/

theorem getLsbD_runMask {o n k : Nat} (hk : k < 128) :
    (BitVec.ofNat 128 (runMask o n)).getLsbD k = (decide (o ≤ k) && decide (k < o + n)) := by
  rw [BitVec.getLsbD_ofNat, runMask, Nat.testBit_shiftLeft, ones, Nat.testBit_two_pow_sub_one, decide_eq_true hk,
    Bool.true_and, ← Bool.decide_and, ← Bool.decide_and]
  exact decide_eq_decide.2 (by omega)

/-- Byte o + k of a slot into which the low n bytes of a number were shifted is byte k of the number. -/
theorem elt_shifted_run {x o n k : Nat} (hk : k < n) (ho : o + n ≤ 128) :
    elt (BitVec.ofNat 1024 ((x % 2 ^ (8 * n)) <<< (8 * o))).toNat 8 (o + k) = elt x 8 k := by
  rw [BitVec.toNat_ofNat, elt_mod_two_pow _ (by omega)]
  refine Nat.eq_of_testBit_eq fun j => ?_
  rw [testBit_elt, testBit_elt]
  by_cases hj : j < 8
  · rw [Nat.testBit_shiftLeft, Nat.testBit_mod_two_pow, decide_eq_true (show (o + k) * 8 + j ≥ 8 * o by omega),
      decide_eq_true (show (o + k) * 8 + j - 8 * o < 8 * n by omega), show (o + k) * 8 + j - 8 * o = k * 8 + j by omega]
    rfl
  · rw [decide_eq_false hj, Bool.false_and, Bool.false_and]

theorem elt_eq_byte (x k : Nat) : elt x 8 k = x / 256 ^ k % 256 := by
  rw [elt, Nat.shiftRight_eq_div_pow, Nat.mul_comm, Nat.pow_mul]
  rfl

/-- A store of a hart that has no entry of its line yet and has one free makes a pending entry of that line (05 R97). -/
theorem Core.buffer_new {c : Core} {a : Acc} {seq nth cell n x last idx : Nat} {pc : Word} {p : FilterEntry} (ord : Bool)
    (hq : ∀ q ∈ c.sb, q.slot = a.slot → q.seq ≠ seq) (hl : (c.sb.filter fun q => q.slot = a.slot).length < c.sbLimit)
    (hi : lowestFree (c.sb.map (·.idx)) 128 0 = some idx) :
    let view := lineAddr a.col p.attr.tclass cell
    ∃ q : SbEntry, c.buffer a seq nth pc cell n x last p ord = some { c with sb := c.sb ++ [q] } ∧
      q.idx = idx ∧ q.slot = a.slot ∧ q.seq = seq ∧ q.pc = pc ∧ q.space = a.space ∧ q.state = .pending ∧
      q.va = view / 128 * 128 ∧ q.orient = a.col ∧ q.efirst = a.elem ∧ q.elast = last ∧
      q.mask = BitVec.ofNat 128 (runMask (view % 128) n) ∧
      q.data = BitVec.ofNat 1024 ((x % 2 ^ (8 * n)) <<< (8 * (view % 128))) := by
  intro view
  have hf : c.sb.find? (fun e => e.slot = a.slot && e.seq = seq && e.space = a.space && e.va = view / 128 * 128) = none := by
    refine List.find?_eq_none.2 fun q hm => ?_
    simp only [Bool.and_eq_true, decide_eq_true_eq]
    exact fun w => hq q hm w.1.1.1 w.1.1.2
  unfold Core.buffer
  dsimp only
  rw [hf]
  dsimp only
  rw [if_neg (Nat.not_le.2 hl : ¬c.sbLimit ≤ (c.sbOf a.slot).length), hi]
  exact ⟨_, rfl, rfl, rfl, rfl, rfl, rfl, rfl, rfl, rfl, rfl, rfl, rfl, rfl⟩

theorem State.unconfirm_setCore (s : State) (core : Nat) (c : Core) (space : BitVec 16) (va : Nat) :
    (s.setCore core c).unconfirm core space va = s.setCore core { c with
      filter := c.filter.map fun p => if p.covers space va then { p with cf := false } else p } := by
  unfold State.unconfirm
  dsimp only
  rw [State.core_setCore, if_pos rfl]
  split
  · exact State.setCore_setCore ..
  · next hn =>
    have same : (c.filter.map fun p => if p.covers space va then { p with cf := false } else p) = c.filter := by
      refine (List.map_congr_left fun p hp => ?_).trans c.filter.map_id
      split
      · next hc =>
        have : p.cf = false := by
          cases hf : p.cf with
          | false => rfl
          | true => exact absurd (List.any_eq_true.2 ⟨p, hp, by rw [hf, hc]; rfl⟩) hn
        rw [← this]
        rfl
      · rfl
    rw [same]

theorem lineAddr_cell (m : Moved) (h : Hart) (e : FilterEntry) :
    lineAddr (decide (m.o = .col)) e.attr.tclass (m.cell h e) = m.va h := by
  unfold lineAddr Moved.cell
  by_cases hm : m.o = .col
  · rw [decide_eq_true hm, if_pos rfl, if_pos hm, colCell_colCell]
  · rw [decide_eq_false hm, if_neg hm]
    rfl

theorem writeCell_buffers {s : State} {a : Acc} {e : FilterEntry} {cell n x last : Nat} {h : Hart} {c : Core}
    (hn : e.attr.mc = .normal) (hc : e.cf = false)
    (hb : (s.core a.core).buffer a h.seq h.nst h.pc cell n x last e false = some c) :
    writeCell a e cell n x last false false false h s = .ok () (s.setCore a.core { c with
      filter := c.filter.map fun p => if p.covers a.space cell then { p with cf := false } else p }) := by
  have hu : buffers e = true := by simp [buffers, hn, hc]
  simp only [writeCell, hn, hu, hb, Bool.false_eq_true, if_false, if_true, ne_eq, not_true_eq_false, Bool.true_or,
    State.unconfirm_setCore]

end Sys2Proof.Machine
namespace Sys2Proof

open Sys2Proof.Machine Sys2Proof.Slice0

/-- Settles O11: the checks pass as the segment and the page grant them, and the write makes the line's entry. -/
theorem unconfirmedStoreIsBuffered : Obligations.UnconfirmedStoreIsBuffered := by
  intro i m s h e idx hi hm hs hp hn hc hq hl hf
  obtain ⟨hx, hb⟩ := exec_scalarStore hi
  obtain ⟨q, hbuf, hidx, hslot, hseq, hpc, hspace, hstate, hva, horient, hefirst, helast, hmask, hdata⟩ :=
    Core.buffer_new (a := (m.req .write h).acc h s.cur true) (nth := h.nst) (cell := m.cell h e) (n := m.n)
      (x := (h.getX m.d).toNat % 2 ^ (8 * m.n)) (last := 0) (pc := h.pc) (p := e) false hq hl hf
  rw [show ((m.req .write h).acc h s.cur true).col = decide (m.o = .col) from rfl, lineAddr_cell] at hva hmask hdata
  refine ⟨q, ?_, hidx, hslot, hseq, hpc, hspace, hstate, hva, horient, hefirst, helast, fun k hk => ?_, fun k hk => ?_⟩
  · have hk := checkReq_granted hs hp
    rw [← scalarReq_eq_req] at hk hbuf
    rw [hx, store_next hm hk (writeCell_buffers hn hc hbuf)]
    rfl
  · rw [hmask, getLsbD_runMask hk]
  · obtain ⟨-, -, -, -, -, ha⟩ := hs
    have hr : m.va h % 128 + m.n ≤ 128 := aligned_run_in_slot (h.getG m.g.toNat) hb ha
    rw [hdata, Nat.mod_mod, elt_shifted_run hk hr, elt_eq_byte]

end Sys2Proof

namespace Sys2Proof.Machine

/-! # The deferred store trap (05 R102, 10 R180)

The trap of a faulted entry unwinds the hart's unretired instruction first: the hart enters its handler with the scalar
registers that unwinding leaves, which differ from those before where the history buffer holds a scalar register. -/

theorem takeTrapAs_spec {s : State} {h : Hart} (t : FRec) (seq : Nat) (pc : Word) (hm : s.me = some h) :
    ∃ g : Hart, (takeTrapAs t seq pc s).hart? s.cur = some (g.enterTrap t pc) ∧ g.sameScalars h := by
  have hs := Hart.sameScalars_trans ((s.core s.myCore).settleFollows_sameScalars s.mySlot h.settle) h.settle_sameScalars
  simp only [takeTrapAs, hm]
  refine ⟨_, ?_, hs⟩
  split <;> exact (State.hart?_setMe ..).trans (if_pos rfl)

theorem isSome_foldl {α : Type} {f : Option α → α → Option α} (hf : ∀ b a, (f b a).isSome = true) :
    ∀ {l : List α} {b : Option α}, l ≠ [] ∨ b.isSome = true → (l.foldl f b).isSome = true
  | [], _, h => h.resolve_left fun n => n rfl
  | a :: _, b, _ => isSome_foldl (b := f b a) hf (.inr (hf b a))

/-- A faulted entry of the current hart makes it enter its handler, unwound (05 R102, R103). -/
theorem takeDeferred_spec {s : State} {h : Hart} (hm : s.me = some h) (due : s.deferredDue = true) :
    ∃ (g : Hart) (t : FRec) (pc : Word), (takeDeferred s).hart? s.cur = some (g.enterTrap t pc) ∧
      g.sameScalars h.unwind := by
  obtain ⟨e, he, hd⟩ := List.any_eq_true.1 due
  unfold takeDeferred
  dsimp only
  rw [State.me_setCore, hm]
  dsimp only
  split
  · obtain ⟨g, hg, hx⟩ := takeTrapAs_spec (h := h.unwind) _ _ _ (State.me_setMe _ _)
    exact ⟨g, _, _, hg, hx⟩
  · next hn =>
    refine absurd (isSome_foldl (fun b a => ?_) (.inl (List.ne_nil_of_mem (List.mem_filter.2
      ⟨List.mem_map_of_mem he, ?_⟩)))) (Option.not_isSome_iff_eq_none.2 hn)
    · cases b with
      | none => rfl
      | some b => dsimp only; split <;> rfl
    · rw [if_pos hd]
      rw [Bool.and_eq_true] at hd
      rw [hd.1]
      rfl

/-- DEFERRED_STORE_TRAP of a hart that handles no trap and has a faulted entry leaves it the scalar registers of the
unwound hart (10 R180). -/
theorem deferredStoreTrap_x {s : State} {core slot : Nat} {h : Hart} (hs : slot < 8) (hh : s.hart? (hkey core slot) = some h)
    (ht : h.trap = none) (due : ∃ e ∈ (s.core core).sb, e.slot = slot ∧ e.state = .faulted) :
    ∃ u g, exec (.deferredStoreTrap core slot) s = .next u ∧ u.hart? (hkey core slot) = some g ∧ g.x = h.unwind.x := by
  have hc : coreOf (hkey core slot) = core := by unfold coreOf hkey; omega
  have hl : slotOf (hkey core slot) = slot := by unfold slotOf hkey; omega
  have hd : State.deferredDue { s with cur := hkey core slot } = true := by
    obtain ⟨e, he, hes, hf⟩ := due
    refine List.any_eq_true.2 ⟨e, ?_, ?_⟩
    · exact (congrArg (fun k => e ∈ (s.core k).sb) hc).mpr he
    · rw [Bool.and_eq_true, decide_eq_true_eq, decide_eq_true_eq]
      exact ⟨hes.trans hl.symm, hf⟩
  obtain ⟨g, t, pc, hg, hx⟩ := takeDeferred_spec (s := { s with cur := hkey core slot }) hh hd
  obtain ⟨hx, -⟩ := Hart.sameScalars_fields hx
  refine ⟨{ takeDeferred { s with cur := hkey core slot } with cur := s.cur }, g.enterTrap t pc, ?_, hg, hx⟩
  show execDeferredStoreTrap core slot s = _
  simp only [execDeferredStoreTrap, hh, ht, Option.isSome_none, Bool.false_eq_true, if_false, asHart, hd, if_true]

/-- A hart whose history-buffer entry says that x5 was 1 before its unretired instruction. -/
def rewoundHart : Hart := { Hart.reset with prior := some { seq := 0, reg := .x 5 1, vstart := 0 } }

/-- A faulted entry of slot 0. -/
def rewoundEntry : SbEntry :=
  { idx := 0, slot := 0, seq := 0, pc := 0, space := 1, va := 0x2000, mask := 1, data := 0, poison := 0, hostq := 0,
    efirst := 0, elast := 0, ew := 8, gseg := 2, orient := false, state := .faulted, inner := 0x0B, wres := 7, level := 4,
    ord := false, nth := 0, user := true, tclass := .untiled, pbase := 0x2000, plg := 12, off := 0, eva := 0x2000 }

/-- The machine whose hart 0 is that hart, with that entry in its core's buffer. -/
def rewoundState : State :=
  { State.reset with harts := [(0, rewoundHart)], cores := [(0, { Core.reset with sb := [rewoundEntry] })] }

theorem rewoundHart_x : rewoundHart.unwind.x ≠ rewoundHart.x := by
  intro e
  exact absurd (congrArg (fun x => x[5]) e) (by decide)

end Sys2Proof.Machine

namespace Sys2Proof

open Sys2Proof.Machine Sys2Proof.Slice0

/-- Refutes O41: its clause on DEFERRED_STORE_TRAP says `g.x = h.x` of every hart, but the trap unwinds the hart's unretired
instruction (10 R180), and a history-buffer entry of a scalar register, which `Hart.prior` admits, gives the register its
prior value back: x5 of `rewoundHart` is 0 before the trap and 1 after it. -/
theorem not_storeAndFaultSteps : ¬ Obligations.StoreAndFaultSteps := by
  rintro ⟨⟨-, -, -, trap⟩, -⟩
  have hh : rewoundState.hart? (hkey 0 0) = some rewoundHart := rfl
  have due : ∃ e ∈ (rewoundState.core 0).sb, e.slot = 0 ∧ e.state = .faulted := ⟨rewoundEntry, .head _, rfl, rfl⟩
  obtain ⟨u, g, hu, hg, -, -, -, -, -, hx, -⟩ := trap rewoundState 0 0 rewoundHart (by decide) hh rfl due
  obtain ⟨u', g', hu', hg', hx'⟩ := deferredStoreTrap_x (by decide) hh rfl due
  obtain rfl : u = u' := Host.Outcome.next.inj (hu.symm.trans hu')
  obtain rfl : g = g' := Option.some.inj (hg.symm.trans hg')
  exact rewoundHart_x (hx'.symm.trans hx)

end Sys2Proof

namespace Sys2Proof.Machine

open Sys2Proof.Slice0

/-! # The copy engine's stages (07 R143, R144; 19 R343 to R345) -/

/-! ### The fields of a command's words (19 R338) -/

theorem fld_eq_div_mod (n hi lo : Nat) : fld n hi lo = n / 2 ^ lo % 2 ^ (hi + 1 - lo) := by
  rw [fld, Nat.shiftRight_eq_div_pow]

theorem Cmd.rows_eq (m : Cmd) : m.rows = rowsOf m := fld_eq_div_mod _ _ _

theorem Cmd.n_eq (m : Cmd) : m.n = perRow m := by
  rw [Cmd.n, fld_eq_div_mod, Nat.pow_zero, Nat.div_one]
  rfl

theorem Cmd.asc_eq (m : Cmd) : m.asc = (m.c.getD 0 0).toNat / 2 ^ 24 % 8 := fld_eq_div_mod _ _ _

theorem Cmd.rsc_eq (m : Cmd) : m.rsc = (m.c.getD 0 0).toNat / 2 ^ 28 % 8 := fld_eq_div_mod _ _ _

theorem Cmd.eyaddr_eq (m : Cmd) : m.eyaddr = BitVec.ofNat 64 ((m.c.getD 6 0).toNat % 2 ^ 31) := by
  rw [Cmd.eyaddr, fld_eq_div_mod, Nat.pow_zero, Nat.div_one]
  rfl

/-- The next record's number takes all of the bits above 31 of its word. -/
theorem Cmd.nxt_eq (m : Cmd) : m.nxt = nextRecord m := by
  rw [Cmd.nxt, fld_eq_div_mod]
  exact Nat.mod_eq_of_lt (Nat.div_lt_of_lt_mul (m.c.getD 6 0).isLt)

/-- A command with rows and elements has a payload. -/
theorem Cmd.payload_of_ne_zero {m : Cmd} (hr : rowsOf m ≠ 0) (hn : perRow m ≠ 0) : m.payload = true := by
  rw [Cmd.payload, m.rows_eq, m.n_eq]
  simp [hr, hn]

/-! ### The command that the engine serves, and its stages (09 R175) -/

theorem headCmd_of_serves {s : State} {core slot : Nat} {h : Hart} {m : Cmd} (hs : serves s core slot h m) :
    s.headCmd core slot = some m := by
  obtain ⟨hh, hb, hf⟩ := hs
  have due : (h.served || m.begun) = true := by
    rcases hb with hb | hb
    · simp [Hart.served, hb]
    · simp [hb]
  have hf : (s.core core).cmds.find? (isHead slot) = some m := hf
  simp only [State.headCmd, hh, hf, Option.filter, due, if_true]

@[simp] theorem State.hart?_putHead (s : State) (core slot : Nat) (l : List Cmd) (k : Nat) :
    (s.putHead core slot l).hart? k = s.hart? k := rfl

/-- A command that goes to a further stage stays in its place. -/
theorem toStage_open (core : Nat) (m : Cmd) {st : Stage} (s : State) (h : st ≠ .done) :
    toStage core m st s = s.putHead core m.slot [{ m with stage := st }] := if_neg h

theorem toStage_done (core : Nat) (m : Cmd) (s : State) :
    toStage core m .done s = endCmd core { m with stage := .done } ({ m with stage := .done } : Cmd).again s := by
  unfold toStage
  exact if_pos rfl

/-! ### The end of a command (19 R344, R345) -/

theorem endCmd_last {core : Nat} {m again : Cmd} {s : State} {h : Hart} (hh : s.hart? (hkey core m.slot) = some h)
    (hf : m.failed = none) (hc : m.chain = none ∨ nextRecord m = 0) :
    endCmd core m again s = (s.putHead core m.slot m.remains).setHart (hkey core m.slot) (h.accrue m.flags) := by
  unfold endCmd
  simp only [hh, hf]
  split
  · rename_i hm
    exact if_pos (m.nxt_eq.trans (hc.resolve_left (by simp [hm])))
  · rfl

theorem endCmd_next {core o : Nat} {m again : Cmd} {s : State} {h : Hart} {g : BitVec 128}
    (hh : s.hart? (hkey core m.slot) = some h) (hf : m.failed = none) (hc : m.chain = some (g, o)) (hn : nextRecord m ≠ 0) :
    endCmd core m again s =
      (s.putHead core m.slot [{ m with stage := .record, chain := some (g, 64 * nextRecord m), flags := 0 }]).setHart
        (hkey core m.slot) (h.accrue m.flags) := by
  unfold endCmd
  simp only [hh, hf, hc, m.nxt_eq, if_neg hn]

theorem endCmd_failed {core : Nat} {m again : Cmd} {s : State} {h : Hart} {f : FRec}
    (hh : s.hart? (hkey core m.slot) = some h) (hf : m.failed = some f) :
    ∃ fl : CmdFailure, fl.frec = f ∧ endCmd core m again s =
      (s.putHead core m.slot ({ m with follow := if m.followWaits then none else m.follow } : Cmd).remains).setHart
        (hkey core m.slot) ((h.accrue m.flags).failWith fl) := by
  refine ⟨⟨f, { again with follow := if m.followWaits then m.follow else none }, m.followWaits, false⟩, rfl, ?_⟩
  unfold endCmd
  simp only [hh, hf]

/-- Of a command that is done a follow-on remains that is open (07 R144). -/
theorem remains_done (m : Cmd) : ({ m with stage := .done } : Cmd).remains = (match m.follow with
    | some f => if f.stage = .closed then [] else [{ m with stage := .done }]
    | none => []) := by
  unfold Cmd.remains Cmd.followWaits Cmd.followRuns
  cases m.follow with
  | none => rfl
  | some f => cases hs : f.stage <;> simp [hs]

/-- Of a failed one, a follow-on that has issued (07 R147). -/
theorem remains_failed (m : Cmd) :
    ({ m with stage := .done, follow := if m.followWaits then none else m.follow } : Cmd).remains = stillRuns m := by
  unfold Cmd.remains stillRuns Cmd.followWaits Cmd.followRuns
  cases m.follow with
  | none => rfl
  | some f => cases hs : f.stage <;> simp [hs]

/-- A command that has failed in no stage and has no next record has ended. -/
theorem toStage_done_ended {s : State} {core : Nat} {m : Cmd} (hh : (s.hart? (hkey core m.slot)).isSome = true)
    (hf : m.failed = none) (hc : m.chain = none ∨ nextRecord m = 0) : ended s (toStage core m .done s) core m.slot m := by
  obtain ⟨g, hg⟩ := Option.isSome_iff_exists.1 hh
  refine ⟨g, hg, ?_⟩
  rw [toStage_done, endCmd_last (m := { m with stage := .done }) hg hf hc, remains_done]
  rfl

/-- A chain goes on to its next record. -/
theorem toStage_done_next {s : State} {core o : Nat} {m : Cmd} {h : Hart} {g : BitVec 128}
    (hh : s.hart? (hkey core m.slot) = some h) (hf : m.failed = none) (hc : m.chain = some (g, o)) (hn : nextRecord m ≠ 0) :
    toStage core m .done s =
      (s.putHead core m.slot [{ m with stage := .record, chain := some (g, 64 * nextRecord m), flags := 0 }]).setHart
        (hkey core m.slot) (h.accrue m.flags) :=
  (toStage_done core m s).trans (endCmd_next (m := { m with stage := .done }) hh hf hc hn)

/-- A failed command leaves its failure to its hart, and in the engine a follow-on that has issued (19 R345). -/
theorem toStage_done_failed {s : State} {core : Nat} {m : Cmd} {h : Hart} {f : FRec}
    (hh : s.hart? (hkey core m.slot) = some h) (hf : m.failed = some f) :
    ∃ fl : CmdFailure, fl.frec = f ∧ toStage core m .done s =
      (s.putHead core m.slot (stillRuns m)).setHart (hkey core m.slot) ((h.accrue m.flags).failWith fl) := by
  obtain ⟨fl, e, last⟩ := endCmd_failed (core := core) (m := { m with stage := .done })
    (again := ({ m with stage := .done } : Cmd).again) hh hf
  exact ⟨fl, e, (toStage_done core m s).trans (last.trans (remains_failed m ▸ rfl))⟩

/-- A first failure becomes the hart's, and nothing of the hart changes beside it. -/
theorem Hart.failWith_first {h : Hart} (f : CmdFailure) (hf : h.fail = none) : h.failWith f = { h with fail := some f } := by
  unfold Hart.failWith
  rw [hf]

theorem Hart.failWith_ctl (h : Hart) (f : CmdFailure) : (h.failWith f).ctl = h.ctl := by
  unfold Hart.failWith
  split <;> rfl

/-! ### A transfer (09 R175; 07 R145) -/

/-- A command that stands at another element of the same transfer. -/
structure Cmd.MovedTo (m n : Cmd) : Prop where
  c : n.c = m.c
  slot : n.slot = m.slot
  failed : n.failed = m.failed
  chain : n.chain = m.chain

theorem Cmd.MovedTo.refl (m : Cmd) : m.MovedTo m := ⟨rfl, rfl, rfl, rfl⟩

theorem Cmd.MovedTo.trans {m n k : Cmd} (a : m.MovedTo n) (b : n.MovedTo k) : m.MovedTo k :=
  ⟨b.c.trans a.c, b.slot.trans a.slot, b.failed.trans a.failed, b.chain.trans a.chain⟩

/-- What a command keeps for its follow-on is all that keeping it changes. -/
theorem Cmd.keepOwn_only (m : Cmd) (core : Nat) (p : ElemPlace) (s : State) :
    ∃ f, m.keepOwn core p s = { m with follow := f } := by
  unfold Cmd.keepOwn
  split
  · dsimp only
    split
    · exact ⟨m.follow, rfl⟩
    · exact ⟨_, rfl⟩
  · exact ⟨m.follow, rfl⟩

theorem Cmd.advance_eq (m : Cmd) : m.advance = { m with
    j := if m.j + 1 < perRow m then m.j + 1 else 0, r := if m.j + 1 < perRow m then m.r else m.r + 1 } := by
  unfold Cmd.advance
  rw [m.n_eq]
  split <;> rfl

theorem elementMoves_movedTo {core : Nat} {m n : Cmd} {s t : State} (h : elementMoves core m n s t) : m.MovedTo n := by
  obtain ⟨p, q, x, f, s1, s2, -, -, -, rfl⟩ := h
  obtain ⟨g, e⟩ := m.keepOwn_only core q t
  rw [e]
  exact ⟨rfl, rfl, rfl, rfl⟩

theorem moveElem_of_elementMoves {core : Nat} {m n : Cmd} {s t : State} (h : elementMoves core m n s t) :
    moveElem core m s = .ok n t := by
  obtain ⟨p, q, x, f, s1, s2, hp, hx, hf, rfl⟩ := h
  refine moveElem_ok.2 ⟨(p, q), x, f, s1, s2, hp, hx, hf, ?_⟩
  obtain ⟨g, e⟩ := m.keepOwn_only core q t
  simp only [e]
  exact (Cmd.advance_eq { m with flags := m.flags ||| BitVec.ofNat 8 f, follow := g }).symm

theorem elementsMove_movedTo {core : Nat} {n : Cmd} {t : State} : ∀ {k : Nat} {m : Cmd} {s : State},
    elementsMove core k m n s t → m.MovedTo n
  | 0, m, _, ⟨e, _⟩ => e ▸ .refl m
  | _ + 1, _, _, ⟨_, _, h, hk⟩ => (elementMoves_movedTo h).trans (elementsMove_movedTo hk)

theorem movesOn_movedTo {core : Nat} {n : Cmd} {t : State} : ∀ {k : Nat} {m : Cmd} {s : State},
    movesOn core k m n s t → m.MovedTo n
  | 0, m, _, ⟨e, _⟩ => e ▸ .refl m
  | k + 1, m, s, h => by
    unfold movesOn at h
    split at h
    · obtain ⟨c, u, h, hk⟩ := h
      exact (elementMoves_movedTo h).trans (movesOn_movedTo hk)
    · exact h.1 ▸ .refl m

/-- A transfer runs on to the end of a byte and stops there. -/
theorem moveElems_of_movesOn {core : Nat} {n : Cmd} {t : State} : ∀ {k : Nat} {m : Cmd} {s : State} (b : Cmd × State),
    movesOn core k m n s t → moveElems core (k + 1) 0 b m s = (n, none, t)
  | 0, _, _, _, ⟨e, et, hm⟩ => by
    rw [moveElems_done hm, e, et]
  | k + 1, m, s, b, h => by
    unfold movesOn at h
    split at h
    · rename_i hm
      obtain ⟨c, u, h, hk⟩ := h
      exact (moveElems_none (.inr hm)).2 ⟨c, u, moveElem_of_elementMoves h, moveElems_of_movesOn _ hk⟩
    · rename_i hm
      obtain ⟨e, et⟩ := h
      rw [moveElems_done (Bool.not_eq_true _ ▸ hm), e, et]

/-- So many elements move, and the transfer goes on from there. -/
theorem moveElems_of_elementsMove {core f : Nat} {c n : Cmd} {u t : State}
    (rest : ∀ b, moveElems core f 0 b c u = (n, none, t)) : ∀ {k : Nat} {m : Cmd} {s : State} (b : Cmd × State),
    elementsMove core k m c s u → moveElems core (f + k) k b m s = (n, none, t)
  | 0, _, _, b, ⟨e, et⟩ => e ▸ et ▸ rest b
  | k + 1, _, _, _, ⟨c1, u1, h, hk⟩ =>
    (moveElems_none (.inl k.succ_ne_zero)).2 ⟨c1, u1, moveElem_of_elementMoves h, moveElems_of_elementsMove rest _ hk⟩

/-- A transfer whose elements all move leaves the command at the next element, or in the stage after its payload. -/
theorem transferStep_moves {core : Nat} {m c n : Cmd} {s u t : State} (hf : m.failed = none) (hr : rowsOf m ≠ 0)
    (hn : perRow m ≠ 0) (hc : elementsMove core (min (perRow m - m.j) (1024 / max m.src.w m.dst.w)) m c s u)
    (ho : movesOn core (rowsOf m * perRow m) c n u t) :
    transferStep core m s = if n.r < rowsOf m then t.putHead core m.slot [n] else toStage core n n.afterPayload t := by
  have moved : m.MovedTo n := (elementsMove_movedTo hc).trans (movesOn_movedTo ho)
  have hp : m.perTransfer = min (perRow m - m.j) (1024 / max m.src.w m.dst.w) := by rw [Cmd.perTransfer, m.n_eq]
  have fuel : m.perTransfer + m.n * m.rows + 1 = rowsOf m * perRow m + 1 + m.perTransfer := by
    rw [m.n_eq, m.rows_eq, Nat.mul_comm]
    omega
  have hm : moveElems core (m.perTransfer + m.n * m.rows + 1) m.perTransfer (m, s) m s = (n, none, t) := by
    rw [fuel]
    exact moveElems_of_elementsMove (fun b => moveElems_of_movesOn b ho) _ (hp ▸ hc)
  have hrows : n.rows = rowsOf m := n.rows_eq.trans (congrArg (fun c => (c.getD 3 0).toNat / 2 ^ 40 % 65536) moved.c)
  unfold transferStep
  rw [hf]
  dsimp only
  rw [Cmd.payload_of_ne_zero hr hn, hm]
  simp only [Bool.not_true, Bool.false_eq_true, if_false, hrows, moved.slot]

/-! ### The steps -/

section

variable {s : State} {core slot : Nat} {h : Hart} {m : Cmd}

theorem copyAcquire_next (hs : serves s core slot h m) (hl : m.slot = slot) (hst : m.stage = .acquire) :
    exec (.copyAcquire core slot) s = .next
      (((s.ackBypass core).acquireSteps core m.space (scopeOfCode ((m.c.getD 0 0).toNat / 2 ^ 24 % 8))).putHead core slot
        [{ m with stage := .transfer }]) := by
  show execCopyAcquire core slot s = _
  unfold execCopyAcquire
  rw [headCmd_of_serves hs]
  dsimp only
  rw [if_pos hst, toStage_open _ _ _ (by decide), hl, m.asc_eq]

/-- Out of its turn a slot has no transfer. -/
theorem copyTransfer_waits (hd : s.engineDue core ≠ some slot) : exec (.copyTransfer core slot) s = .next s := by
  show execCopyTransfer core slot s = _
  unfold execCopyTransfer
  split
  · rw [if_neg (by simp [hd])]
  · rfl

theorem copyTransfer_next (hs : serves s core slot h m) (hst : m.stage = .transfer) (hd : s.engineDue core = some slot) :
    exec (.copyTransfer core slot) s = .next (rotated (transferStep core m s) core slot) := by
  show execCopyTransfer core slot s = _
  unfold execCopyTransfer
  rw [headCmd_of_serves hs]
  dsimp only
  rw [if_pos (by simp [hst, hd])]
  rfl

theorem copyRelease_next (hs : serves s core slot h m) (hst : m.stage = .release) :
    exec (.copyRelease core slot) s = .next (toStage core m m.afterRelease
      (s.releaseSteps core m.space (scopeOfCode ((m.c.getD 0 0).toNat / 2 ^ 28 % 8)))) := by
  show execCopyRelease core slot s = _
  unfold execCopyRelease
  rw [headCmd_of_serves hs]
  dsimp only
  rw [if_pos hst, m.rsc_eq]

/-- What an eyelet write writes (03 R70). -/
theorem eyeletValue_eq (m : Cmd) : (if m.failed.isSome then ones 64 - m.eyval else m.eyval) = eyeletValue m := by
  unfold eyeletValue
  cases m.failed <;> rfl

theorem eyeletValue_lt (m : Cmd) : eyeletValue m < 2 ^ 64 := by
  have := (m.c.getD 7 0).isLt
  unfold eyeletValue
  split <;> omega

theorem eyeletWrite_next (hs : serves s core slot h m) (hst : m.stage = .eyelet) {t : Nat} {gr : Grant}
    (hg : s.cmdGrant core m.blk m.eyaddr = some (t, gr)) (hb : spOffset m.eyaddr + 8 ≤ gr.bytes) :
    exec (.eyeletWrite core slot) s = .next (toStage core m .done
      (s.setCore t ((s.core t).spWrite gr (spOffset m.eyaddr) (toBytes 8 (eyeletValue m))))) := by
  show execEyeletWrite core slot s = _
  unfold execEyeletWrite
  rw [headCmd_of_serves hs]
  dsimp only
  rw [if_pos hst, hg, eyeletValue_eq]
  dsimp only
  rw [if_pos hb]

/-- A number of 8 bytes that is written to a grant is read back from it. -/
theorem Core.spRead_spWrite (c : Core) (g : Grant) (o : Nat) {x : Nat} (hx : x < 2 ^ 64) :
    (c.spWrite g o (toBytes 8 x)).spRead g o 8 = x :=
  (Memory.num_write _ _ _ _).trans (Nat.mod_eq_of_lt hx)

/-- Replacing a command changes no scratchpad byte. -/
theorem State.spRead_putHead (s : State) (core slot t : Nat) (l : List Cmd) (g : Grant) (o n : Nat) :
    ((s.putHead core slot l).core t).spRead g o n = (s.core t).spRead g o n := by
  unfold State.putHead
  dsimp only
  rw [State.core_setCore]
  split
  · rename_i e
    exact e ▸ rfl
  · rfl

/-- However a command ends, it is replaced in the engine and its flags are accrued, and only a failure changes more of its
hart. -/
theorem toStage_done_cases {u : State} (hh : u.hart? (hkey core m.slot) = some h) :
    ∃ l q, toStage core m .done u = (u.putHead core m.slot l).setHart (hkey core m.slot) q ∧
      ((m.failed = none ∧ q = h.accrue m.flags) ∨
        ∃ fl : CmdFailure, m.failed = some fl.frec ∧ l = stillRuns m ∧ q = (h.accrue m.flags).failWith fl) := by
  cases hf : m.failed with
  | none =>
    by_cases hc : m.chain = none ∨ nextRecord m = 0
    · obtain ⟨g, hg, e⟩ := toStage_done_ended (Option.isSome_iff_exists.2 ⟨h, hh⟩) hf hc
      obtain rfl : g = h := Option.some.inj (hg.symm.trans hh)
      exact ⟨_, _, e, .inl ⟨rfl, rfl⟩⟩
    · obtain ⟨hc, hn⟩ := not_or.1 hc
      obtain ⟨⟨g, o⟩, hc⟩ := Option.ne_none_iff_exists'.1 hc
      exact ⟨_, _, toStage_done_next hh hf hc hn, .inl ⟨rfl, rfl⟩⟩
  | some f =>
    obtain ⟨fl, rfl, e⟩ := toStage_done_failed hh hf
    exact ⟨_, _, e, .inr ⟨fl, rfl, rfl, rfl⟩⟩

end

/-- A release changes no hart. -/
theorem State.hart?_releaseSteps (s : State) (core : Nat) (space : BitVec 16) (sc : Scope) (k : Nat) :
    (s.releaseSteps core space sc).hart? k = s.hart? k :=
  congrArg (fun l => aget l k) (State.Steady.refl s).releaseSteps.harts

/-- The stage after the payload is the one that c0 names (07 R144). -/
theorem Cmd.MovedTo.afterPayload {m n : Cmd} (h : m.MovedTo n) :
    n.afterPayload = if c0 m 31 then .release else if c0 m 23 then .eyelet else .done := by
  have e : ∀ b, c0 n b = c0 m b := fun b => congrArg (fun c => (c.getD 0 0).toNat.testBit b) h.c
  rw [← e, ← e]
  rfl

/-- COPY_TRANSFER, of the slot whose turn it is (09 R175; 07 R145). -/
theorem copyTransfer_moves {s u t : State} {core slot : Nat} {h : Hart} {m c n : Cmd} (hs : serves s core slot h m)
    (hl : m.slot = slot) (hst : m.stage = .transfer) (hf : m.failed = none) (hd : s.engineDue core = some slot)
    (hr : rowsOf m ≠ 0) (hn : perRow m ≠ 0)
    (hc : elementsMove core (min (perRow m - m.j) (1024 / max m.src.w m.dst.w)) m c s u)
    (ho : movesOn core (rowsOf m * perRow m) c n u t) :
    (n.r < rowsOf m → exec (.copyTransfer core slot) s = .next (rotated (t.putHead core slot [n]) core slot)) ∧
    (rowsOf m ≤ n.r → c0 m 31 = true ∨ c0 m 23 = true → exec (.copyTransfer core slot) s = .next
      (rotated (t.putHead core slot [{ n with stage := if c0 m 31 then .release else .eyelet }]) core slot)) ∧
    (rowsOf m ≤ n.r → c0 m 31 = false → c0 m 23 = false → m.chain = none → (t.hart? (hkey core slot)).isSome = true →
      ∃ u, exec (.copyTransfer core slot) s = .next (rotated u core slot) ∧ ended t u core slot n) := by
  have moved : m.MovedTo n := (elementsMove_movedTo hc).trans (movesOn_movedTo ho)
  have hns : n.slot = slot := moved.slot.trans hl
  rw [copyTransfer_next hs hst hd, transferStep_moves hf hr hn hc ho, moved.afterPayload]
  refine ⟨fun lt => ?_, fun le hstage => ?_, fun le h31 h23 hch hh => ?_⟩
  · rw [if_pos lt, hl]
  · rw [if_neg (Nat.not_lt.2 le)]
    have next : (if c0 m 31 then .release else if c0 m 23 then .eyelet else .done : Stage) =
        if c0 m 31 then .release else .eyelet := by
      rcases hstage with h | h <;> simp [h]
    rw [next, toStage_open _ _ _ (by split <;> decide), hns]
  · rw [if_neg (Nat.not_lt.2 le), h31, h23]
    subst hns
    exact ⟨_, rfl, toStage_done_ended hh (moved.failed.trans hf) (.inl (moved.chain.trans hch))⟩

/-- COPY_RELEASE (07 R143). -/
theorem copyRelease_stages {s : State} {core slot : Nat} {h : Hart} {m : Cmd} (hs : serves s core slot h m)
    (hl : m.slot = slot) (hst : m.stage = .release) :
    let t := s.releaseSteps core m.space (scopeOfCode ((m.c.getD 0 0).toNat / 2 ^ 28 % 8))
    (c0 m 23 = true → exec (.copyRelease core slot) s = .next (t.putHead core slot [{ m with stage := .eyelet }])) ∧
    (c0 m 23 = false → m.failed = none → m.chain = none →
      ∃ u, exec (.copyRelease core slot) s = .next u ∧ ended t u core slot m) := by
  have after : m.afterRelease = if c0 m 23 then .eyelet else .done := rfl
  obtain ⟨hh, -, -⟩ := id hs
  subst hl
  intro t
  rw [copyRelease_next hs hst, after]
  refine ⟨fun h23 => ?_, fun h23 hf hc => ?_⟩
  · rw [h23, if_pos rfl, toStage_open _ _ _ (by decide)]
  · rw [h23, if_neg (by decide)]
    refine ⟨_, rfl, toStage_done_ended ?_ hf (.inl hc)⟩
    rw [State.hart?_releaseSteps, hh]
    rfl

/-- EYELET_WRITE (03 R69, R70; 19 R345). -/
theorem eyeletWrite_ends {s : State} {core slot : Nat} {h : Hart} {m : Cmd} (hs : serves s core slot h m)
    (hl : m.slot = slot) (hst : m.stage = .eyelet) (t : Nat) (gr : Grant) :
    let a := BitVec.ofNat 64 ((m.c.getD 6 0).toNat % 2 ^ 31)
    s.cmdGrant core m.blk a = some (t, gr) → spOffset a + 8 ≤ gr.bytes →
    ∃ u q, exec (.eyeletWrite core slot) s = .next u ∧ u.hart? (hkey core slot) = some q ∧
      (u.core t).spRead gr (spOffset a) 8 = eyeletValue m ∧
      q.ctl.fflags = h.ctl.fflags ||| m.flags.setWidth 64 ∧
      (m.failed = none → q.fail = h.fail) ∧
      (∀ f, m.failed = some f → h.fail = none → ∃ l, q.fail = some l ∧ l.frec = f) ∧
      let w := s.setCore t ((s.core t).spWrite gr (spOffset a) (toBytes 8 (eyeletValue m)))
      (m.failed = none → m.chain = none ∨ nextRecord m = 0 → ended w u core slot m) ∧
      (m.failed = none → ∀ g o, m.chain = some (g, o) → nextRecord m ≠ 0 →
        u = (w.putHead core slot [{ m with stage := .record, chain := some (g, 64 * nextRecord m), flags := 0 }]).setHart
          (hkey core slot) q) ∧
      (m.failed ≠ none → u = (w.putHead core slot (stillRuns m)).setHart (hkey core slot) q) := by
  obtain ⟨hh, -, -⟩ := id hs
  subst hl
  rw [← m.eyaddr_eq]
  intro a hg hb
  dsimp only
  generalize hw : s.setCore t ((s.core t).spWrite gr (spOffset a) (toBytes 8 (eyeletValue m))) = w
  have hhw : w.hart? (hkey core m.slot) = some h := hw ▸ hh
  have written : (w.core t).spRead gr (spOffset a) 8 = eyeletValue m := by
    rw [← hw, State.core_setCore, if_pos rfl, Core.spRead_spWrite _ _ _ (eyeletValue_lt m)]
  obtain ⟨l, q, e, how⟩ := toStage_done_cases (core := core) (m := m) hhw
  have flags : q.ctl = (h.accrue m.flags).ctl := by
    rcases how with ⟨-, rfl⟩ | ⟨fl, -, -, rfl⟩
    · rfl
    · exact Hart.failWith_ctl _ _
  refine ⟨_, q, (eyeletWrite_next hs hst hg hb).trans (by rw [hw]), ?_, ?_, flags ▸ rfl, fun hf => ?_, fun f hf h0 => ?_,
    fun hf hc => ?_, fun hf g o hc hn => ?_, fun hf => ?_⟩
  · rw [e]
    simp
  · rw [e, State.core_setHart, State.spRead_putHead, written]
  · rcases how with ⟨-, rfl⟩ | ⟨fl, hf', -, -⟩
    · rfl
    · exact nomatch hf.symm.trans hf'
  · rcases how with ⟨hf', -⟩ | ⟨fl, hf', -, rfl⟩
    · exact nomatch hf.symm.trans hf'
    · exact ⟨fl, congrArg Hart.fail (Hart.failWith_first (h := h.accrue m.flags) fl h0), Option.some.inj (hf'.symm.trans hf)⟩
  · exact toStage_done_ended (Option.isSome_iff_exists.2 ⟨h, hhw⟩) hf hc
  · rcases how with ⟨-, rfl⟩ | ⟨fl, hf', -, -⟩
    · exact toStage_done_next hhw hf hc hn
    · exact nomatch hf.symm.trans hf'
  · rcases how with ⟨hf', -⟩ | ⟨fl, -, rfl, -⟩
    · exact absurd hf' hf
    · exact e

end Sys2Proof.Machine

namespace Sys2Proof

open Sys2Proof.Machine

/-- Settles O39: each stage is the model's step of the served command, a transfer is followed to its elements by induction on
how many of them move, and however the command ends, what it leaves to its hart and in the engine is named once. -/
theorem copyStagesAdvance : Obligations.CopyStagesAdvance := fun _ _ _ _ _ hs hl =>
  ⟨copyAcquire_next hs hl, copyTransfer_waits,
    fun hst hf hd hr hn _ _ _ _ hc ho => copyTransfer_moves hs hl hst hf hd hr hn hc ho,
    copyRelease_stages hs hl, eyeletWrite_ends hs hl⟩

end Sys2Proof

namespace Sys2Proof.Machine

open Sys2Proof.Slice0

/-! # Chains and follow-ons (07 R147; 19 R342, R344, R345) -/

/-! ### The read of a record (19 R344) -/

/-- A read's segment checks are those that 01 R22 lists. -/
theorem segCheck_read (g : BitVec 128) (i n a e w : Nat) (off : Word) (b : Bool) :
    segCheck g { rw := .read, g := i, off := off, n := n, align := a, elem := e, ew := w, col := b } =
      segCauseAt g off n a .read := by
  unfold segCheck segCauseAt Rw.denied
  cases segBound g <;> cases segR g <;> simp [or_comm]

/-- What reading the lasts of a command leaves of it. -/
theorem Cmd.readLasts_keeps {m l : Cmd} {core : Nat} {s u : State} (h : m.readLasts core s = .ok l u) :
    l.c = m.c ∧ l.slot = m.slot ∧ l.stage = m.stage ∧ l.ks = m.ks := by
  unfold Cmd.readLasts at h
  split at h
  · cases h
    exact ⟨rfl, rfl, rfl, rfl⟩
  · dsimp only at h
    split at h
    · rename_i e
      cases h
      obtain ⟨a, s1, -, e⟩ := Res.bind_eq_ok.1 e
      obtain ⟨b, s2, -, e⟩ := Res.bind_eq_ok.1 e
      cases e
      exact ⟨rfl, rfl, rfl, rfl⟩
    · cases h
      exact ⟨rfl, rfl, rfl, rfl⟩
    · exact nomatch h

/-- A command as it begins stands in the first stage that its words name. -/
theorem Cmd.first_eq (m : Cmd) : m.first = firstStage m.c := by
  have e : m.acq = decide ((m.c.getD 0 0).toNat / 2 ^ 27 % 2 = 1) := Nat.testBit_eq_decide_div_mod_eq
  unfold Cmd.first firstStage
  rw [e]
  simp

theorem firstStage_ne_done (c : List Word) : firstStage c ≠ .done := by
  unfold firstStage
  split <;> decide

/-- The groups that a slot's follow-ons owe a record's are those of the commands before it, when it has no follow-on of the
record before (18 R333; 07 R147). -/
theorem olderFollows_of_serves {s : State} {core slot : Nat} {h : Hart} {m : Cmd} (hs : serves s core slot h m)
    (hf : m.follow = none) : (s.core core).olderFollows slot =
      (((s.core core).cmds.filter fun q => q.slot = slot).takeWhile fun q => q.stage = .done).flatMap Cmd.pendingGroup := by
  obtain ⟨-, -, hm⟩ := hs
  have head : ((s.core core).cmds.filter fun q => q.slot = slot).find? (isHead slot) = some m := by
    rw [List.find?_filter, ← hm]
    congr 1
    funext q
    unfold isHead
    by_cases e : q.slot = slot <;> simp [e]
  unfold Core.olderFollows
  dsimp only
  rw [head, List.flatMap_append]
  simp [Cmd.pendingGroup, hf]

/-- A record that has passed its checks begins as a command once its lasts are read, with the follow-on that it names, unless
that has to wait for an older one (18 R333). -/
def beginRecord (core slot : Nat) (h : Hart) (owed : List Nat) (vlen : Nat) (s : State) : Res Cmd → Out
  | .stop _ _ => .next s
  | .ok l u =>
    match l.followInstr with
    | none => .next (u.putHead core slot [l])
    | some i =>
      if (followIn i).any fun x => meets (x.reads h vlen) owed then .next s
      else .next ((u.setHart (hkey core slot) h.countMat).putHead core slot
        [{ l with follow := some { followOf i h with k := l.ks } }])

theorem beginRecord_alone {core slot : Nat} {h : Hart} {owed : List Nat} {vlen : Nat} {s u : State} {l : Cmd}
    (hi : l.followInstr = none) : beginRecord core slot h owed vlen s (.ok l u) = .next (u.putHead core slot [l]) := by
  simp only [beginRecord, hi]

theorem beginRecord_waits {core slot : Nat} {h : Hart} {owed : List Nat} {vlen : Nat} {s u : State} {l : Cmd} {i : Instr}
    {y : MatIn} (hi : l.followInstr = some i) (hy : followIn i = some y) (ho : meets (y.reads h vlen) owed = true) :
    beginRecord core slot h owed vlen s (.ok l u) = .next s := by
  simp only [beginRecord, hi, hy, Option.any_some, ho, if_true]

theorem beginRecord_follows {core slot : Nat} {h : Hart} {owed : List Nat} {vlen : Nat} {s u : State} {l : Cmd} {i : Instr}
    {y : MatIn} (hi : l.followInstr = some i) (hy : followIn i = some y) (ho : meets (y.reads h vlen) owed = false) :
    beginRecord core slot h owed vlen s (.ok l u) = .next ((u.setHart (hkey core slot) h.countMat).putHead core slot
      [{ l with follow := some { followOf i h with k := l.ks } }]) := by
  simp only [beginRecord, hi, hy, Option.any_some, ho, Bool.false_eq_true, if_false]

section

variable {s s1 s2 : State} {core slot o x : Nat} {h : Hart} {m : Cmd} {seg : BitVec 128} {rs : List EngRun}

/-- CHAIN_RECORD_READ of a record that is read and passes its checks (19 R344). -/
theorem chainRecordRead_begins (hs : serves s core slot h m) (hl : m.slot = slot) (hst : m.stage = .record)
    (hc : m.chain = some (seg, o)) (hf : m.follow = none) (hd : s.engineDue core = some slot)
    (hseg : segCause seg (BitVec.ofNat 64 o) 64 .read = none)
    {base r : Cmd} (hb : base = { m with follow := none, flags := 0, failed := none, c := List.replicate 8 0 })
    (hrs : engineRuns (base.acc core 0 (BitVec.ofNat 64 o) (segBase seg + (BitVec.ofNat 64 o).toNat) 512 false) .read
      [(segBase seg + (BitVec.ofNat 64 o).toNat, 64)] (rotated s core slot) = .ok rs s1)
    (hx : readRuns rs 0 0 s1 = .ok x s2)
    (hr : r = { base with c := (List.range 8).map fun i => BitVec.ofNat 64 (elt x 64 i) })
    (hk : r.check .record h core (s2.putHead core slot [r]) = none) :
    exec (.chainRecordRead core slot) s =
      beginRecord core slot h ((s.core core).olderFollows slot) (s.core core).vlen (rotated s core slot)
        (({ r with stage := firstStage r.c, r := 0, j := 0, srcLast := none, dstLast := none } : Cmd).readLasts core
          (s2.putHead core slot [r])) := by
  obtain ⟨hh, -, -⟩ := id hs
  show execChainRecordRead core slot s = _
  unfold execChainRecordRead
  rw [headCmd_of_serves hs, hh]
  dsimp only
  rw [hc]
  dsimp only
  have hfw : m.followWaits = false := by simp [Cmd.followWaits, hf]
  have hfr : m.followRuns = false := by simp [Cmd.followRuns, hf]
  have fresh : r.fresh = { r with stage := firstStage r.c, r := 0, j := 0, srcLast := none, dstLast := none } := by
    unfold Cmd.fresh
    rw [r.first_eq, hr, hb]
    rfl
  have hseg : segCauseAt seg (BitVec.ofNat 64 o) 64 64 .read = none := hseg
  subst hb
  dsimp only at hr
  rw [hc] at hr hrs
  have words : upto 8 = List.range 8 := rfl
  have turned : s.engineServed core slot = rotated s core slot := rfl
  rw [if_neg (by simp [hst, hfw, hd]), segCheck_read, hseg, turned]
  dsimp only
  rw [hrs, Res.bind_ok, hx]
  dsimp only
  rw [hfr, words, ← hr]
  simp only [Bool.false_eq_true, if_false, List.nil_append]
  rw [hk, fresh]
  dsimp only
  have lists : ((rotated s core slot).core core).olderFollows slot = (s.core core).olderFollows slot ∧
      ((rotated s core slot).core core).vlen = (s.core core).vlen := by
    rw [rotated, State.core_setCore, if_pos rfl]
    exact ⟨rfl, rfl⟩
  cases hlu : ({ r with stage := firstStage r.c, r := 0, j := 0, srcLast := none, dstLast := none } : Cmd).readLasts core
      (s2.putHead core slot [r]) with
  | stop e u => rfl
  | ok l u =>
    obtain ⟨-, hslot, hstage, -⟩ := Cmd.readLasts_keeps hlu
    have undone : l.stage ≠ .done := hstage ▸ firstStage_ne_done r.c
    have mine : l.slot = slot := by rw [hslot, hr, ← hl]
    subst mine
    dsimp only
    rw [lists.1, lists.2]
    split
    · rename_i hi
      rw [toStage_open _ _ _ undone, beginRecord_alone hi]
    · rename_i i hi
      unfold beginRecord
      rw [toStage_open _ _ _ undone]
      simp only [hi]

/-- The follow-on word of a record is its bits 63 to 32 (19 R338). -/
theorem followWord_record {l : Cmd} (hc : l.c = (List.range 8).map fun i => BitVec.ofNat 64 (elt x 64 i)) :
    l.followWord = x / 2 ^ 32 % 2 ^ 32 := by
  have word : l.word 0 = x % 2 ^ 64 := by
    rw [Cmd.word, hc]
    show (BitVec.ofNat 64 (elt x 64 0)).toNat = _
    rw [BitVec.toNat_ofNat, elt, Nat.zero_mul, Nat.shiftRight_zero, Nat.mod_mod]
  rw [Cmd.followWord, word, fld_eq_div_mod]
  omega

/-- CHAIN_RECORD_READ, in its slot's turn (19 R344; 18 R333). -/
theorem chainRecordRead_outcomes (hs : serves s core slot h m) (hl : m.slot = slot) (hst : m.stage = .record)
    (hc : m.chain = some (seg, o)) (hf : m.follow = none) (hd : s.engineDue core = some slot)
    (hseg : segCause seg (BitVec.ofNat 64 o) 64 .read = none) :
    let base := { m with follow := none, flags := 0, failed := none, c := List.replicate 8 0 }
    let va := segBase seg + (BitVec.ofNat 64 o).toNat
    engineRuns (base.acc core 0 (BitVec.ofNat 64 o) va 512 false) .read [(va, 64)] (rotated s core slot) = .ok rs s1 →
    readRuns rs 0 0 s1 = .ok x s2 →
    let r := { base with c := (List.range 8).map fun i => BitVec.ofNat 64 (elt x 64 i) }
    let t := s2.putHead core slot [r]
    r.check .record h core t = none →
    match Cmd.readLasts { r with stage := firstStage r.c, r := 0, j := 0, srcLast := none, dstLast := none } core t with
    | .stop _ _ => exec (.chainRecordRead core slot) s = .next (rotated s core slot)
    | .ok l u =>
      (x / 2 ^ 32 % 2 ^ 32 = 0 → exec (.chainRecordRead core slot) s = .next (u.putHead core slot [l])) ∧
      ∀ i y, l.followInstr = some i → followIn i = some y →
        let older := ((s.core core).cmds.filter fun q => q.slot = slot).takeWhile fun q => q.stage = .done
        let owed := older.flatMap Cmd.pendingGroup
        ((y.reads h (s.core core).vlen).any (fun n => n ∈ owed) = true →
          exec (.chainRecordRead core slot) s = .next (rotated s core slot)) ∧
        ((y.reads h (s.core core).vlen).any (fun n => n ∈ owed) = false →
          ∃ f, exec (.chainRecordRead core slot) s =
          .next ((u.setHart (hkey core slot) { h with nmx := h.nmx + 1 }).putHead core slot [{ l with follow := some f }]) ∧
        f.instr = i ∧ f.stage = .waiting ∧ f.nth = h.nmx ∧ f.own = [] ∧ f.x = h.x ∧ f.k = m.ks) := by
  intro base va hrs hx r t hk
  have run := chainRecordRead_begins hs hl hst hc hf hd hseg (base := base) (r := r) rfl hrs hx rfl hk
  rw [olderFollows_of_serves hs hf] at run
  split
  · rename_i hlu
    rw [run, hlu]
    rfl
  · rename_i l u hlu
    obtain ⟨hc, -, -, hks⟩ := Cmd.readLasts_keeps hlu
    rw [hlu] at run
    rw [run]
    refine ⟨fun hz => ?_, fun i y hi hy => ⟨fun ho => ?_, fun ho => ⟨{ followOf i h with k := l.ks }, ?_, ?_⟩⟩⟩
    · have alone : l.followInstr = none := by
        unfold Cmd.followInstr
        rw [followWord_record hc, if_pos hz]
      exact beginRecord_alone alone
    · exact beginRecord_waits hi hy ho
    · exact beginRecord_follows hi hy ho
    · obtain ⟨hx, -⟩ := Hart.sameScalars_fields h.settle_sameScalars
      exact ⟨rfl, rfl, rfl, rfl, hx, hks⟩

end

/-! ### The issue of a follow-on and its end (19 R342; 07 R147) -/

theorem length_mapFirst {p : Cmd → Bool} {f : Cmd → List Cmd} (hf : ∀ m, (f m).length = 1) :
    ∀ l : List Cmd, (mapFirst p f l).length = l.length
  | [] => rfl
  | m :: t => by
    unfold mapFirst
    split
    · rw [List.length_append, hf, List.length_cons, Nat.add_comm]
    · rw [List.length_cons, length_mapFirst hf t, List.length_cons]

/-- What the first command that meets a condition becomes stands in its place. -/
theorem mem_mapFirst {p : Cmd → Bool} {f : Cmd → List Cmd} {m x : Cmd} : ∀ {l : List Cmd}, l.find? p = some m → x ∈ f m →
    x ∈ mapFirst p f l
  | [], h, _ => nomatch h
  | q :: t, h, hx => by
    unfold mapFirst
    by_cases hq : p q = true
    · rw [List.find?_cons_of_pos hq] at h
      cases h
      rw [if_pos hq]
      exact List.mem_append_left _ hx
    · rw [List.find?_cons_of_neg hq] at h
      rw [if_neg hq]
      exact List.mem_cons_of_mem _ (mem_mapFirst h hx)

theorem Hart.settleFor_fail (h : Hart) (regs : List Nat) : (h.settleFor regs).fail = h.fail := by
  unfold Hart.settleFor
  split
  · obtain ⟨-, -, -, -, -, -, -, -, -, -, -, -, -, e, -⟩ := Hart.sameScalars_fields h.settle_sameScalars
    exact e
  · rfl

theorem MatIn.run_length (x : MatIn) (c : Core) (g : Grant) (h dh : Hart) (vlen : Nat) :
    (x.run c g h dh vlen).vals.length = 8 := by
  simp [MatIn.run, writeGroup, upto]

/-- Writing consecutive vector registers changes no other register file. -/
theorem Hart.setGroup_only : ∀ (l : List VReg) (h : Hart) (n : Nat), ∃ v, h.setGroup n l = { h with v := v }
  | [], h, _ => ⟨h.v, rfl⟩
  | r :: t, h, n => by
    obtain ⟨v, e⟩ := Hart.setGroup_only t (h.setV n r) (n + 1)
    refine ⟨v, e.trans ?_⟩
    unfold Hart.setV
    split <;> rfl

theorem Hart.getV_setGroup : ∀ (l : List VReg) (h : Hart) (n : Nat) {k : Nat}, k < 64 →
    (h.setGroup n l).getV k = if n ≤ k ∧ k < n + l.length then l.getD (k - n) VReg.reset else h.getV k
  | [], h, n, k, _ => by
    rw [if_neg (by simp)]
    rfl
  | r :: t, h, n, k, hk => by
    rw [Hart.setGroup, Hart.getV_setGroup t _ _ hk, Hart.getV_setV, List.length_cons]
    by_cases e : k = n
    · subst e
      rw [if_neg (by omega), if_pos ⟨rfl, hk⟩, if_pos (by omega), Nat.sub_self]
      rfl
    · by_cases lt : n + 1 ≤ k ∧ k < n + 1 + t.length
      · obtain ⟨j, rfl⟩ : ∃ j, k = n + 1 + j := ⟨k - (n + 1), by omega⟩
        have here : n + 1 + j - n = j + 1 := by omega
        rw [if_pos lt, if_pos (by omega), Nat.add_sub_cancel_left, here, List.getD_cons_succ]
      · rw [if_neg lt, if_neg (by omega), if_neg (by omega)]

section

variable {s : State} {core slot : Nat} {h : Hart} {m : Cmd} {f : Follow} {x : MatIn}

/-- FOLLOW_ON_ISSUE of a follow-on whose D group is free: it is issued, or a poisoned word of its tiles is the hart's failure
(19 R342). -/
theorem followOnIssue_next (hh : s.hart? (hkey core slot) = some h) (hf : m.follow = some f)
    (hm : (s.core core).cmds.find? (fun m => m.slot = slot && m.landed) = some m) (hx : followIn f.instr = some x)
    (free : ∀ q ∈ (s.core core).cmds, q.slot = slot → q.followRuns = true → meets q.pendingGroup f.group = false) :
    (x.checkPoison (f.sees (s.core core)) ((s.core core).grantOf m.blk) f.hart = none →
      ∃ p cs, exec (.followOnIssue core slot) s = .next
          (((s.setCore core { s.core core with cmds := cs }).setHart (hkey core slot) (h.settleFor x.dRegs)).noteWork core m.blk) ∧
        cs.length = (s.core core).cmds.length ∧ { m with follow := some { f with own := [], stage := .issued p } } ∈ cs ∧
        p = x.run (f.sees (s.core core)) ((s.core core).grantOf m.blk) f.hart (h.settleFor x.dRegs) (s.core core).vlen ∧
        p.dst = x.d ∧ p.vals.length = 8) ∧
    (x.checkPoison (f.sees (s.core core)) ((s.core core).grantOf m.blk) f.hart ≠ none →
      ∃ cs q, exec (.followOnIssue core slot) s =
          .next ((s.setCore core { s.core core with cmds := cs }).setHart (hkey core slot) q) ∧
        (h.fail = none → ∃ l, q.fail = some l ∧ l.frec.cause = 0x13 ∧ l.frec.inner = 0x0F ∧ l.lost = true) ∧
        (m.stage ≠ .done → m.stage ≠ .record → { m with follow := none, chain := none } ∈ cs)) := by
  have busy : ((s.core core).cmds.any fun q => q.slot = slot && q.followRuns && meets q.pendingGroup f.group) = false := by
    rw [List.any_eq_false]
    intro q hq
    by_cases mine : q.slot = slot ∧ q.followRuns = true
    · simp [free q hq mine.1 mine.2]
    · simp only [Bool.and_eq_true, decide_eq_true_eq]
      exact fun ⟨a, _⟩ => mine a
  show (_ → ∃ p cs, execFollowOnIssue core slot s = _ ∧ _) ∧ (_ → ∃ cs q, execFollowOnIssue core slot s = _ ∧ _)
  unfold execFollowOnIssue
  simp only [hm, hh, hf, hx, busy, Bool.false_eq_true, if_false]
  refine ⟨fun clear => ?_, fun poison => ?_⟩
  · rw [clear]
    exact ⟨_, _, rfl, length_mapFirst (fun _ => rfl) _, mem_mapFirst hm (List.mem_singleton.2 rfl), rfl, rfl,
      MatIn.run_length _ _ _ _ _ _⟩
  · obtain ⟨t, ht⟩ := Option.ne_none_iff_exists'.1 poison
    rw [ht]
    refine ⟨_, _, rfl, fun h0 => ?_, fun hd hr => mem_mapFirst hm ?_⟩
    · exact ⟨_, congrArg Hart.fail (Hart.failWith_first _ ((h.settleFor_fail _).trans h0)), rfl, rfl, rfl⟩
    · rw [if_neg (by simp [hd, hr])]
      exact List.mem_singleton.2 rfl

/-- FOLLOW_ON_COMPLETE writes the D group and accrues the flags (18 R333, R334). -/
theorem followOnComplete_next (hh : s.hart? (hkey core slot) = some h) (hf : m.follow = some f) (p : PendingMat)
    (hm : (s.core core).cmds.find? (fun m => m.slot = slot && m.followRuns) = some m) (hst : f.stage = .issued p) :
    ∃ cs q, exec (.followOnComplete core slot) s =
        .next ((s.setCore core { s.core core with cmds := cs }).setHart (hkey core slot) q) ∧
      (∀ k, k < 64 → q.getV k = if p.dst ≤ k ∧ k < p.dst + p.vals.length then p.vals.getD (k - p.dst) VReg.reset
        else h.getV k) ∧
      { q with v := h.v, ctl := h.ctl } = h ∧
      q.ctl = { h.ctl with fflags := h.ctl.fflags ||| p.flags.setWidth 64 } := by
  obtain ⟨v, hv⟩ := Hart.setGroup_only p.vals h p.dst
  have run : ∃ cs, exec (.followOnComplete core slot) s =
      .next ((s.setCore core { s.core core with cmds := cs }).setHart (hkey core slot) (h.finishMat p)) := by
    show ∃ cs, execFollowOnComplete core slot s = _
    unfold execFollowOnComplete
    simp only [hm, hh, hf, hst]
    exact ⟨_, rfl⟩
  obtain ⟨cs, run⟩ := run
  refine ⟨cs, h.finishMat p, run, fun k hk => Hart.getV_setGroup p.vals h p.dst hk, ?_, ?_⟩
  · rw [Hart.finishMat, hv]
    rfl
  · rw [Hart.finishMat, hv]
    rfl

end

end Sys2Proof.Machine

namespace Sys2Proof

open Sys2Proof.Machine

/-- Settles O40: a record that is read and passes its checks is followed through the read of its lasts to the command that it
begins, and a follow-on through its issue to the registers that it writes. -/
theorem chainsAndFollowOns : Obligations.ChainsAndFollowOns :=
  ⟨fun _ _ _ _ _ _ _ _ _ _ _ hs hl hst hc hf hd hseg => chainRecordRead_outcomes hs hl hst hc hf hd hseg,
    fun _ _ _ _ _ _ _ hh hf => ⟨followOnIssue_next hh hf, followOnComplete_next hh hf⟩⟩

end Sys2Proof

namespace Sys2Proof.Machine

open Sys2Proof.Slice0

/-! # Accesses of the host and of peers (07 R138, R139; 26 R374, R382; 27 R385, R386) -/

/-! ### The memory window with no protected range (26 R374; 27 R390) -/

theorem windowBase_eq (s : State) : s.windowBase = (windowStart s, windowSize s) := by
  unfold State.windowBase windowStart windowSize
  split <;> rfl

theorem encrypted_none {s : State} (hp : s.sts.prot = []) (pa : Nat) : s.encrypted pa = false := by
  simp [State.encrypted, hp]

/-- With no protected range a host write opens none to device readers. -/
theorem scramble_none {s : State} (hp : s.sts.prot = []) (pa : Nat) : ∀ n, s.scramble pa n = s
  | 0 => rfl
  | n + 1 => by
    unfold State.scramble
    dsimp only
    rw [scramble_none hp pa n, encrypted_none hp]
    rfl

theorem hostByte_eq {s : State} (hp : s.sts.prot = []) (o k : Nat) : s.hostByte (o + k) = hostSees s o k := by
  unfold State.hostByte hostSees
  dsimp only
  rw [windowBase_eq, encrypted_none hp, Nat.add_assoc]
  simp only [Bool.false_eq_true, if_false, ← Nat.not_lt, ite_not]

theorem hostBytes_eq {s : State} (hp : s.sts.prot = []) : ∀ n o, s.hostBytes o n = (List.range n).map (hostSees s o)
  | 0, _ => rfl
  | n + 1, o => by
    have next : ∀ k, hostSees s (o + 1) k = hostSees s o (k + 1) := fun k => by
      rw [← hostByte_eq hp, ← hostByte_eq hp, Nat.add_assoc, Nat.add_comm 1]
    rw [State.hostBytes, hostBytes_eq hp n, List.range_succ_eq_map, List.map_cons, List.map_map, ← hostByte_eq hp o 0]
    exact congrArg _ (List.map_congr_left fun k _ => next k)

/-! ### Bytes and numbers of memory -/

theorem Memory.read_eq_map (m : Memory) : ∀ n a, m.read a n = (List.range n).map fun k => m.get (a + k)
  | 0, _ => rfl
  | n + 1, a => by
    rw [Memory.read, Memory.read_eq_map m n, List.range_succ_eq_map, List.map_cons, List.map_map]
    refine congrArg _ (List.map_congr_left fun k _ => ?_)
    rw [Function.comp, Nat.add_assoc, Nat.add_comm 1]

theorem ofBytes_lt : ∀ l : List Byte, ofBytes l < 2 ^ (8 * l.length)
  | [] => by simp [ofBytes]
  | b :: t => by
    have hb := b.isLt
    have ht := ofBytes_lt t
    rw [ofBytes, List.length_cons, Nat.mul_add, Nat.pow_add, Nat.mul_comm (2 ^ _)]
    omega

theorem State.readPA_lt (s : State) (pa n : Nat) : s.readPA pa n < 2 ^ (8 * n) := by
  have h := ofBytes_lt (s.mem.read pa n)
  rwa [Memory.read_length] at h

/-- A write at the home slices writes memory, and changes no unit and nothing of the status area. -/
theorem homeWrite_fields (s : State) (pa : Nat) (b : List Byte) :
    (s.homeWrite pa b).mem = s.mem.write pa b ∧ (s.homeWrite pa b).harts = s.harts ∧ (s.homeWrite pa b).cores = s.cores ∧
      (s.homeWrite pa b).clusters = s.clusters ∧ (s.homeWrite pa b).sts = s.sts := by
  obtain ⟨l, n, e⟩ := s.homeWrite_only pa b
  rw [e]
  exact ⟨rfl, rfl, rfl, rfl, rfl⟩

/-! ### The host (07 R139) -/

theorem hostMemoryRead_next {s : State} (hp : s.sts.prot = []) (off len : Nat) :
    exec (.hostMemoryRead off len) s = .next (answered s ((List.range len).map (hostSees s off))) := by
  rw [← hostBytes_eq hp]
  rfl

theorem hostMemoryWrite_next {s : State} (hp : s.sts.prot = []) (off : Nat) (bytes : List Byte) (ro : Bool) :
    ∃ u, exec (.hostMemoryWrite off bytes ro) s = .next u ∧ u.cores = s.cores ∧ u.clusters = s.clusters ∧
      u.harts = s.harts ∧
      ∀ a, u.mem.get a = if windowStart s + off ≤ a ∧ a < windowStart s + off + bytes.length ∧
        a < windowStart s + windowSize s then bytes.getD (a - (windowStart s + off)) 0 else s.mem.get a := by
  show ∃ u, execHostMemoryWrite off bytes s = _ ∧ _
  unfold execHostMemoryWrite
  rw [windowBase_eq]
  dsimp only
  obtain ⟨hm, hh, hc, hk, hs⟩ := homeWrite_fields s (windowStart s + off) (bytes.take (windowSize s - off))
  have kept : (bytes.take (windowSize s - off)).length = min (windowSize s - off) bytes.length := List.length_take
  by_cases none : (bytes.take (windowSize s - off)).isEmpty = true
  · rw [if_pos none]
    rw [List.isEmpty_iff_length_eq_zero, kept] at none
    refine ⟨s, rfl, rfl, rfl, rfl, fun a => (if_neg ?_).symm⟩
    omega
  · rw [if_neg none, scramble_none (hs ▸ hp)]
    refine ⟨_, rfl, hc, hk, hh, fun a => ?_⟩
    rw [hm, Memory.get_write, kept]
    by_cases ha : windowStart s + off ≤ a ∧ a < windowStart s + off + min (windowSize s - off) bytes.length
    · rw [if_pos ha, if_pos (by omega)]
      rw [List.getD_eq_getElem?_getD, List.getD_eq_getElem?_getD, List.getElem?_take_of_lt (by omega)]
    · rw [if_neg ha, if_neg (by omega)]

/-! ### Peers (07 R138; 26 R382) -/

section

variable {s : State}

theorem peerTarget_iff (s : State) (pa n : Nat) : s.peerTarget pa n = true ↔ s.sts.phase = 3 ∧ pa + n ≤ 0x3000000000 := by
  rw [State.peerTarget, Bool.and_eq_true, decide_eq_true_eq, decide_eq_true_eq]
  rfl

theorem peerTarget_refused {pa n : Nat} (h : s.sts.phase ≠ 3 ∨ 0x3000000000 < pa + n) : s.peerTarget pa n = false := by
  rw [← Bool.not_eq_true, peerTarget_iff]
  rintro ⟨h3, hl⟩
  rcases h with h | h
  · exact h h3
  · omega

theorem wide_eq (w : AmoWidth) : amoBytes w = Slice0.wide w := by cases w <;> rfl

/-- The update of a peer's atomic is the operation that the field F of 14 R261 numbers, modulo its width. -/
theorem peerUpdate_mod (op : BitVec 4) (w : AmoWidth) (m v c : Nat) :
    (peerUpdate op w m v c).map (· % 2 ^ (8 * Slice0.wide w)) = (peerNew op w m v c).map (· % 2 ^ (8 * Slice0.wide w)) := by
  have code : ∀ k, k < 16 → (op.toNat = k ↔ op = BitVec.ofNat 4 k) := fun k hk => by
    rw [← BitVec.toNat_inj, BitVec.toNat_ofNat, Nat.mod_eq_of_lt hk]
  unfold peerUpdate peerNew sMin sMax
  simp only [wide_eq, code 0 (by decide), code 1 (by decide), code 2 (by decide), code 3 (by decide), code 4 (by decide),
    code 5 (by decide), code 6 (by decide), code 7 (by decide), code 8 (by decide), code 9 (by decide), code 10 (by decide)]
  by_cases h0 : op = 0
  · have h0' : op = 0#4 := h0
    rw [if_pos h0, if_pos h0', Option.map_some, Option.map_some, Nat.mod_mod]
  · have h0' : op ≠ 0#4 := h0
    rw [if_neg h0, if_neg h0']
    cases w <;> rfl

/-- A peer's read and write in full service are performed on memory (26 R382). -/
theorem peerRead_next {pa len : Nat} (h3 : s.sts.phase = 3) (hl : pa + len ≤ 0x3000000000) :
    exec (.peerRequest (.read pa len)) s = .next (answered s ((List.range len).map fun k => s.mem.get (pa + k))) := by
  rw [← Memory.read_eq_map]
  exact if_pos ((peerTarget_iff s pa len).2 ⟨h3, hl⟩)

theorem peerWrite_next {pa : Nat} {bytes : List Byte} (h3 : s.sts.phase = 3) (hl : pa + bytes.length ≤ 0x3000000000) :
    exec (.peerRequest (.write pa bytes)) s = .next (s.homeWrite pa bytes) :=
  if_pos ((peerTarget_iff s pa bytes.length).2 ⟨h3, hl⟩)

/-- The machine after an update of the bytes at an address, which may write nothing. -/
def updated (s : State) (pa n : Nat) : Option Nat → State
  | some x => s.homeWrite pa (toBytes n x)
  | none => s

theorem updated_spec (s : State) (pa n : Nat) (x : Option Nat) :
    (updated s pa n x).harts = s.harts ∧ (updated s pa n x).cores = s.cores ∧
      (updated s pa n x).readPA pa n = ((x.map (· % 2 ^ (8 * n))).getD (s.readPA pa n)) ∧
      ∀ a, a < pa ∨ pa + n ≤ a → (updated s pa n x).mem.get a = s.mem.get a := by
  cases x with
  | none => exact ⟨rfl, rfl, rfl, fun _ _ => rfl⟩
  | some x =>
    obtain ⟨hm, hh, hc, -, -⟩ := homeWrite_fields s pa (toBytes n x)
    refine ⟨hh, hc, ?_, fun a ha => ?_⟩
    · rw [State.readPA, updated, hm, Memory.num_write]
      rfl
    · rw [updated, hm, Memory.get_write_outside _ _ _ _ (by rwa [toBytes_length])]

theorem peerAtomic_next {op : BitVec 4} {w : AmoWidth} {pa : Nat} {v c : BitVec 64} (h3 : s.sts.phase = 3)
    (hl : pa + Slice0.wide w ≤ 0x3000000000) (ha : pa % Slice0.wide w = 0) :
    exec (.peerRequest (.atomic op w pa v c)) s = .next (answered (updated s pa (Slice0.wide w)
      (peerUpdate op w (s.readPA pa (Slice0.wide w)) (v.toNat % 2 ^ (8 * Slice0.wide w)) (c.toNat % 2 ^ (8 * Slice0.wide w))))
      (toBytes (Slice0.wide w) (s.readPA pa (Slice0.wide w)))) := by
  show execPeerRequest (.atomic op w pa v c) s = _
  unfold execPeerRequest
  simp only [wide_eq]
  rw [if_pos ⟨(peerTarget_iff s pa _).2 ⟨h3, hl⟩, ha⟩]
  cases peerUpdate op w (s.readPA pa (Slice0.wide w)) (v.toNat % 2 ^ (8 * Slice0.wide w))
    (c.toNat % 2 ^ (8 * Slice0.wide w)) <;> rfl

/-- A peer's atomic leaves what 14 R261 gives and answers the old value. -/
theorem peerAtomic_result {op : BitVec 4} {w : AmoWidth} {pa : Nat} {v c : BitVec 64} (h3 : s.sts.phase = 3)
    (hl : pa + Slice0.wide w ≤ 0x3000000000) (ha : pa % Slice0.wide w = 0) :
    let m := s.readPA pa (Slice0.wide w)
    let b := 2 ^ (8 * Slice0.wide w)
    ∃ u, exec (.peerRequest (.atomic op w pa v c)) s = .next u ∧ u.harts = s.harts ∧ u.cores = s.cores ∧
      u.readPA pa (Slice0.wide w) = (peerNew op w m (v.toNat % b) (c.toNat % b)).getD m % b ∧
      u.io.lastRead.length = Slice0.wide w ∧ ofBytes u.io.lastRead = m ∧
      ∀ a, a < pa ∨ pa + Slice0.wide w ≤ a → u.mem.get a = s.mem.get a := by
  intro m b
  have small : m % b = m := Nat.mod_eq_of_lt (s.readPA_lt pa _)
  obtain ⟨hh, hc, hr, ho⟩ := updated_spec s pa (Slice0.wide w) (peerUpdate op w m (v.toNat % b) (c.toNat % b))
  refine ⟨_, peerAtomic_next h3 hl ha, hh, hc, ?_, toBytes_length _ _, (ofBytes_toBytes _ _).trans small, ho⟩
  refine hr.trans ?_
  rw [peerUpdate_mod]
  cases peerNew op w m (v.toNat % b) (c.toNat % b) with
  | none => exact small.symm
  | some x => rfl

/-- A request that is refused changes no memory and gives no bytes (26 R382; log entries 43 and 50). -/
theorem peerRequest_refused (pa : Nat) :
    (∀ len, s.sts.phase ≠ 3 ∨ 0x3000000000 < pa + len → exec (.peerRequest (.read pa len)) s = .next (answered s [])) ∧
    (∀ bytes : List Byte, s.sts.phase ≠ 3 ∨ 0x3000000000 < pa + bytes.length →
      exec (.peerRequest (.write pa bytes)) s = .next s) ∧
    ∀ op (w : AmoWidth) v c, s.sts.phase ≠ 3 ∨ 0x3000000000 < pa + Slice0.wide w →
      exec (.peerRequest (.atomic op w pa v c)) s = .next (answered s []) := by
  refine ⟨fun len h => ?_, fun bytes h => ?_, fun op w v c h => ?_⟩
  · exact if_neg (Bool.eq_false_iff.1 (peerTarget_refused h))
  · exact if_neg (Bool.eq_false_iff.1 (peerTarget_refused h))
  · exact if_neg fun ⟨t, _⟩ => Bool.eq_false_iff.1 (peerTarget_refused (wide_eq w ▸ h)) t

end

end Sys2Proof.Machine

namespace Sys2Proof

open Sys2Proof.Machine

/-- Settles O47: with no protected range the window's bytes are memory's, a write at the home slices is a write of memory, and
a peer's atomic is the update that 14 R261 numbers, modulo its width. -/
theorem hostAndPeerAccesses : Obligations.HostAndPeerAccesses := by
  intro s hp
  refine ⟨hostMemoryRead_next hp, hostMemoryWrite_next hp, fun h3 => ⟨fun _ _ hl => peerRead_next h3 hl, fun pa bytes hl => ?_,
    fun _ _ _ _ _ hl ha => peerAtomic_result h3 hl ha⟩, peerRequest_refused⟩
  obtain ⟨hm, hh, hc, -, -⟩ := homeWrite_fields s pa bytes
  exact ⟨_, peerWrite_next h3 hl, hh, hc, fun a => by rw [hm, Memory.get_write]⟩

end Sys2Proof

namespace Sys2Proof.Machine

open Sys2Proof.Slice0

/-! # Waits and eyelets (19 R347, R348; 08 R163) -/

/-! ### What a core has sent when it waits for its stores (19 R347) -/

theorem State.core_ackBypass (s : State) (core : Nat) :
    (s.ackBypass core).core core = { s.core core with bypass := [] } := by
  unfold State.ackBypass
  dsimp only
  split
  · rename_i h
    rw [← List.isEmpty_iff.1 h]
  · rw [((State.SameUnits.refl _).foldl _ fun _ h => h.performSent).core, State.core_setCore, if_pos rfl]

theorem State.core_ackTarget (s : State) (core : Nat) :
    (s.ackTarget core).core core = { s.core core with target := [] } := by
  unfold State.ackTarget
  dsimp only
  split
  · rename_i h
    rw [← List.isEmpty_iff.1 h]
  · rw [((State.SameUnits.refl _).foldl _ fun _ h => h.performSent).core, State.core_setCore, if_pos rfl]

/-- Once its writes are acknowledged a core has none on their way. -/
theorem State.core_acks (s : State) (core : Nat) :
    ((s.ackBypass core).ackTarget core).core core = { s.core core with bypass := [], target := [] } := by
  rw [State.core_ackTarget, State.core_ackBypass]

/-! ### What WAITC counts (19 R347) -/

theorem mem_nins_iff (i k : Nat) : ∀ l, k ∈ nins l i ↔ k = i ∨ k ∈ l
  | [] => by simp [nins]
  | j :: t => by
    unfold nins
    split
    · exact List.mem_cons
    · split
      · rename_i e
        simp [e]
      · rw [List.mem_cons, mem_nins_iff i k t, List.mem_cons]
        tauto

theorem mem_foldl_nins (k : Nat) (l : List Nat) : ∀ a, k ∈ l.foldl nins a ↔ k ∈ l ∨ k ∈ a := by
  induction l with
  | nil => simp
  | cons i t ih =>
    intro a
    rw [List.foldl_cons, ih, mem_nins_iff, List.mem_cons]
    tauto

/-- With no write on its way a hart's open stores are those of its entries in the store buffer. -/
theorem mem_openStores {c : Core} {slot k : Nat} (hb : c.bypass = []) (ht : c.target = []) :
    k ∈ c.openStores slot ↔ ∃ e ∈ c.sb, e.slot = slot ∧ e.nth = k := by
  unfold Core.openStores
  rw [mem_foldl_nins]
  simp [hb, ht, and_assoc]

theorem outstandingOf_eq (slot : Nat) (q : Cmd) : outstandingOf slot q = (decide (q.slot = slot) && q.isOpen) := by
  unfold outstandingOf Cmd.isOpen Cmd.followWaits
  cases q.follow <;> rfl

theorem mem_openFollows {c : Core} {slot k : Nat} : k ∈ c.openFollows slot ↔
    ∃ q ∈ c.cmds, q.slot = slot ∧ ∃ f, q.follow = some f ∧ f.stage ≠ .closed ∧ f.nth = k := by
  unfold Core.openFollows
  rw [List.mem_filterMap]
  refine exists_congr fun q => and_congr_right fun _ => ?_
  cases q.follow with
  | none => simp
  | some f => simp [and_assoc]

/-- A count leaves no operation open that is not among the most recently issued ones. -/
theorem not_leaves_iff (issued i n : Nat) : (!leaves issued i n) = true ↔ i + n < issued := by
  simp [leaves]

/-- What WAITC still waits for, class by class. -/
theorem waitcBusy_iff {h : Hart} {c : Core} {slot st cp m : Nat} (sent : st < 15 → c.bypass = [] ∧ c.target = []) :
    waitcBusy h c slot st cp m = true ↔
      (st < 15 ∧ ∃ e ∈ c.sb, e.slot = slot ∧ e.nth + st < h.nst) ∨
      (cp < 15 ∧ ∃ q ∈ c.cmds, outstandingOf slot q = true ∧ q.nth + cp < h.ncp) ∨
      (m < 15 ∧ ∃ q ∈ c.cmds, q.slot = slot ∧ ∃ f, q.follow = some f ∧ f.stage ≠ .closed ∧ f.nth + m < h.nmx) := by
  have stores : st < 15 → ((∃ k ∈ c.openStores slot, k + st < h.nst) ↔ ∃ e ∈ c.sb, e.slot = slot ∧ e.nth + st < h.nst) :=
    fun lt => by
      obtain ⟨hb, ht⟩ := sent lt
      simp only [mem_openStores hb ht]
      constructor
      · rintro ⟨_, ⟨e, he, hs, rfl⟩, hk⟩
        exact ⟨e, he, hs, hk⟩
      · rintro ⟨e, he, hs, hk⟩
        exact ⟨_, ⟨e, he, hs, rfl⟩, hk⟩
  have copies : (∃ q ∈ c.outstanding slot, q.nth + cp < h.ncp) ↔
      ∃ q ∈ c.cmds, outstandingOf slot q = true ∧ q.nth + cp < h.ncp := by
    simp only [Core.outstanding, List.mem_filter, outstandingOf_eq, and_assoc]
  have follows : (∃ k ∈ c.openFollows slot, k + m < h.nmx) ↔
      ∃ q ∈ c.cmds, q.slot = slot ∧ ∃ f, q.follow = some f ∧ f.stage ≠ .closed ∧ f.nth + m < h.nmx := by
    simp only [mem_openFollows]
    constructor
    · rintro ⟨_, ⟨q, hq, hs, f, hf, ho, rfl⟩, hk⟩
      exact ⟨q, hq, hs, f, hf, ho, hk⟩
    · rintro ⟨q, hq, hs, f, hf, ho, hk⟩
      exact ⟨_, ⟨q, hq, hs, f, hf, ho, rfl⟩, hk⟩
  unfold waitcBusy
  simp only [Bool.or_eq_true, Bool.and_eq_true, decide_eq_true_eq, List.any_eq_true, not_leaves_iff, copies, follows, or_assoc]
  exact or_congr_left (and_congr_right stores)

theorem count_lt_15 (n : BitVec 4) : n.toNat < 15 ↔ n ≠ 15 := by
  rw [ne_eq, ← BitVec.toNat_inj]
  have := n.isLt
  show _ ↔ ¬n.toNat = 15
  omega

/-- The machine as WAITC finds it: where it counts stores, what the core has sent is acknowledged. -/
def State.countingStores (s : State) (st : BitVec 4) : State := if st = 15 then s else (s.ackBypass s.myCore).ackTarget s.myCore

theorem countingStores_cur (s : State) (st : BitVec 4) : (s.countingStores st).cur = s.cur := by
  unfold State.countingStores
  split
  · rfl
  · exact (s.sameLines_acks s.myCore).cur

theorem countingStores_core (s : State) (st : BitVec 4) :
    ((s.countingStores st).core s.myCore).sb = (s.core s.myCore).sb ∧
      ((s.countingStores st).core s.myCore).cmds = (s.core s.myCore).cmds ∧
      (st ≠ 15 → ((s.countingStores st).core s.myCore).bypass = [] ∧ ((s.countingStores st).core s.myCore).target = []) := by
  unfold State.countingStores
  by_cases h : st = 15
  · rw [if_pos h]
    exact ⟨rfl, rfl, fun n => absurd h n⟩
  · rw [if_neg h, State.core_acks]
    exact ⟨rfl, rfl, fun _ => ⟨rfl, rfl⟩⟩

theorem waitcBusy_iff_waitsFor (s : State) (h : Hart) (st c m : BitVec 4) :
    waitcBusy h ((s.countingStores st).core s.myCore) s.mySlot st.toNat c.toNat m.toNat = true ↔
      waitsFor s h st.toNat c.toNat m.toNat := by
  obtain ⟨hsb, hcmds, sent⟩ := countingStores_core s st
  rw [waitcBusy_iff fun lt => sent ((count_lt_15 st).1 lt), hsb, hcmds]
  rfl

theorem waitForCounts : WaitForCounts := by
  intro s h l st c m hm hf
  have run : exec (.waitc l st c m) s =
      if waitcBusy h ((s.countingStores st).core s.myCore) s.mySlot st.toNat c.toNat m.toNat then .next (s.countingStores st)
      else .next ((s.countingStores st).setMe (passed (if m = 15 then (if l = 15 then h else h.settleLoads)
        else (if l = 15 then h else h.settleLoads).settleMats))) := by
    show execWaitc l st c m s = _
    unfold execWaitc
    rw [withHart_some _ hm]
    have acked : (if st.toNat < 15 then (s.ackBypass s.myCore).ackTarget s.myCore else s) = s.countingStores st := by
      unfold State.countingStores
      simp only [count_lt_15, ite_not]
    have turn : (s.countingStores st).myCore = s.myCore ∧ (s.countingStores st).mySlot = s.mySlot :=
      ⟨congrArg coreOf (countingStores_cur s st), congrArg slotOf (countingStores_cur s st)⟩
    simp only [hf, acked, turn.1, turn.2]
    simp only [count_lt_15, ne_eq, ite_not]
    rfl
  rw [run]
  exact ⟨fun w => if_pos ((waitcBusy_iff_waitsFor s h st c m).2 w),
    fun w => if_neg (mt (waitcBusy_iff_waitsFor s h st c m).1 w)⟩

/-! ### WAITA and its wake (19 R348; 08 R163) -/

theorem wrote_eq (h : Hart) (d : XIx) (w : Word) : wrote h d w = (h.setX d w).retire := by
  unfold wrote Hart.setX
  split <;> rfl

/-- What WAITA makes of its hart at an eyelet: it returns with the word, or sleeps. -/
def waited (any : Bool) (d a b : XIx) (w : Word) (h : Hart) : Hart :=
  if w = h.getX b ∨ any = true ∧ w = ~~~(h.getX b) then { wrote h d w with run := .running }
  else { h with run := .asleep any d a b }

theorem waita_next {s : State} {h : Hart} (any : Bool) (d a b : XIx) (hm : s.me = some h) (he : eyelet s h (h.getX a)) :
    waita any d a b s = .next (s.setMe (waited any d a b (eyeletWord s h (h.getX a)) h)) := by
  obtain ⟨near, aligned, clear⟩ := he
  have pass : eyeletCheck (s.core s.myCore) (s.myGrant h) (h.getX a) = none := by
    unfold eyeletCheck State.myGrant
    rw [near, clear]
    simp [aligned]
  unfold waita
  rw [withHart_some _ hm]
  dsimp only
  rw [pass, checked_none]
  unfold waited
  rw [wrote_eq]
  simp only [Bool.or_eq_true, Bool.and_eq_true, decide_eq_true_eq]
  rw [apply_ite (fun g => Host.Outcome.next (s.setMe g))]
  rfl

theorem waitForEyelet : WaitForEyelet := by
  intro s h e d a b hm he w
  have plain := waita_next false d a b hm he
  have any := waita_next true d a b hm he
  refine ⟨fun eq => plain.trans ?_, fun ne => plain.trans ?_, fun eq => any.trans ?_, fun ne nc => any.trans ?_⟩
  · rw [waited, if_pos (.inl eq)]
  · rw [waited, if_neg fun c => c.elim ne fun c => nomatch c.1]
  · rw [waited, if_pos (eq.imp_right fun c => ⟨rfl, c⟩)]
  · rw [waited, if_neg fun c => c.elim ne fun c => nc c.2]

theorem sleeperWakes : SleeperWakes := by
  intro s core slot h any d a b hh hr he w
  have woken := waita_next (s := { s with cur := hkey core slot }) any d a b hh he
  have asleep : { h with run := .asleep any d a b } = h := by rw [← hr]
  show execWaitaWake core slot s = _
  unfold execWaitaWake
  simp only [hh, hr, asHart, woken]
  rw [waited, asleep]
  rfl

end Sys2Proof.Machine

namespace Sys2Proof

open Sys2Proof.Machine

/-- Settles O19: what WAITC waits for is compared class by class with the operations that its counts allow, and WAITA, of a hart
and of a sleeper alike, is one operation at its eyelet. -/
theorem waitsAndEyelets : Obligations.WaitsAndEyelets := ⟨waitForCounts, waitForEyelet, sleeperWakes⟩

end Sys2Proof

namespace Sys2Proof.Machine

open Sys2Proof.Slice0

/-! # Barriers (19 R350; 07 R128, R150) -/

/-! ### Harts that are listed by rising keys -/

/-- A key that is listed once has the entry that stands there. -/
theorem aget_of_mem {α : Type} {k : Nat} {x : α} : ∀ {l : List (Nat × α)}, (l.map (·.1)).Pairwise (· < ·) → (k, x) ∈ l →
    aget l k = some x
  | p :: t, rise, h => by
    obtain ⟨below, rise⟩ := List.pairwise_cons.1 rise
    rcases List.mem_cons.1 h with rfl | h
    · exact if_pos rfl
    · have ne : p.1 ≠ k := Nat.ne_of_lt (below k (List.mem_map.2 ⟨_, h, rfl⟩))
      exact (if_neg ne).trans (aget_of_mem rise h)

theorem hart?_iff_mem {s : State} (rise : hartsRise s) {k : Nat} {h : Hart} : s.hart? k = some h ↔ (k, h) ∈ s.harts :=
  ⟨mem_of_aget, aget_of_mem rise⟩

/-! ### Arrival (19 R350) -/

theorem bar_arrives {s : State} {h : Hart} (e : Hint) (sc : Scope) (hm : s.me = some h) (ho : ownsNoEntry s) :
    exec (.bar e sc) s = .next ((s.releaseSteps s.myCore h.spaceTag sc).setMe { h with run := .barrier sc }) := by
  show execBar sc s = _
  unfold execBar
  rw [withHart_some _ hm, release_free sc h ho, Res.bind_ok, finish_ok]

theorem bar_waits {s : State} {h : Hart} (e : Hint) (sc : Scope) (hm : s.me = some h) (ho : ¬ownsNoEntry s) :
    exec (.bar e sc) s = .next s := by
  show execBar sc s = _
  unfold execBar
  rw [withHart_some _ hm, release_waits sc h ho, Res.bind_stop, finish_wait]

/-! ### Whether all have arrived (07 R128, R150) -/

theorem sameInstance_iff (sc : Scope) (k j : Nat) : sameInstance sc k j = true ↔ together sc k j := by
  cases sc with
  | h => exact decide_eq_true_iff
  | c => exact decide_eq_true_iff
  | k =>
    show decide (k / 8 / 8 = j / 8 / 8) = true ↔ k / 64 = j / 64
    rw [decide_eq_true_iff, Nat.div_div_eq_div_mul, Nat.div_div_eq_div_mul]
  | d => exact ⟨fun _ => trivial, fun _ => rfl⟩
  | s => exact ⟨fun _ => trivial, fun _ => rfl⟩

theorem arrived_iff (h : Hart) (sc : Scope) : h.arrived sc = true ↔ h.run = .barrier sc ∨ ∃ n, h.run = .idle n := by
  unfold Hart.arrived
  cases h.run <;> simp

theorem barrierFull_iff (s : State) (key : Nat) (h : Hart) (sc : Scope) : s.barrierFull key h sc = true ↔
    (∀ q ∈ s.harts, q.2.blk = h.blk ∧ together sc key q.1 → q.2.run = .barrier sc ∨ ∃ n, q.2.run = .idle n) ∧
      ∀ q ∈ s.fe.saved, ¬(q.blk = h.blk ∧ together sc key (hkey q.core q.slot)) := by
  unfold State.barrierFull
  rw [Bool.and_eq_true, List.all_eq_true, List.all_eq_true]
  refine and_congr (forall₂_congr fun q _ => ?_) (forall₂_congr fun q _ => ?_)
  · rw [← arrived_iff, ← sameInstance_iff]
    by_cases hb : q.2.blk = h.blk <;> cases sameInstance sc key q.1 <;> simp [hb]
  · rw [← sameInstance_iff]
    by_cases hb : q.blk = h.blk <;> simp [hb]

/-! ### Departure (19 R350; 03 R54) -/

/-- A hart behind its BAR. -/
def departed (h : Hart) : Hart := { passed h with run := .running }

theorem State.harts_acquireSteps (s : State) (core : Nat) (space : BitVec 16) (sc : Scope) :
    (s.acquireSteps core space sc).harts = s.harts := by
  cases sc <;> rfl

/-- One participant departs, and no other hart changes. -/
theorem hart?_departOne (sc : Scope) (s : State) (key k : Nat) :
    (departOne sc s key).hart? k = if k = key then (s.hart? k).map departed else s.hart? k := by
  unfold departOne
  cases hh : s.hart? key with
  | none =>
    dsimp only
    split
    · rename_i e
      rw [e, hh]
      rfl
    · rfl
  | some h =>
    have kept : ((s.ackBypass (coreOf key)).acquireSteps (coreOf key) h.spaceTag sc).harts = s.harts :=
      (State.harts_acquireSteps _ _ _ _).trans (State.Steady.refl s).ackBypass.harts
    dsimp only
    rw [State.hart?_setHart]
    split
    · rename_i e
      rw [e, hh]
      rfl
    · exact congrArg (fun l => aget l k) kept

/-- All of them depart, and no other hart changes. -/
theorem hart?_departAll (sc : Scope) (k : Nat) : ∀ (go : List Nat) (s : State), go.Nodup →
    (go.foldl (departOne sc) s).hart? k = if k ∈ go then (s.hart? k).map departed else s.hart? k
  | [], s, _ => rfl
  | key :: go, s, nodup => by
    obtain ⟨hk, nodup⟩ := List.nodup_cons.1 nodup
    rw [List.foldl_cons, hart?_departAll sc k go _ nodup, hart?_departOne]
    by_cases e : k = key
    · subst e
      rw [if_neg hk, if_pos rfl, if_pos List.mem_cons_self]
    · rw [if_neg e]
      simp only [List.mem_cons, e, false_or]

/-- The caches that a scope names hold no byte of the space of the hart of a key that is not dirty. -/
def State.dropsClean (sc : Scope) (s : State) (k : Nat) : Prop :=
  ∀ g, s.hart? k = some g → noCleanByte (s.core (k / 8)).l1 g.spaceTag ∧
    (sc ≠ .k → noCleanByte (s.cluster (clusterOf (k / 8))).l2 g.spaceTag)

/-- Dropping the clean bytes of one space leaves none of another that was not there. -/
theorem noCleanByte_changed {c : Cache} {space other : BitVec 16} (h : noCleanByte c space) :
    noCleanByte (c.changed other Frame.dropClean) space := by
  intro f hf hs
  obtain ⟨e, he, rfl⟩ := List.mem_map.1 (List.mem_of_mem_filter hf)
  by_cases q : e.space = other
  · rw [if_pos q]
    exact ⟨rfl, fun r hr => Frame.dropClean_valid hr⟩
  · rw [if_neg q] at hs ⊢
    exact h e he hs

/-- An acquire leaves every cache as it is or drops what of a space is not dirty. -/
theorem State.l1_acquireSteps_cases (s : State) (core : Nat) (space : BitVec 16) (sc : Scope) (j : Nat) :
    ((s.acquireSteps core space sc).core j).l1 = (s.core j).l1 ∨
      ((s.acquireSteps core space sc).core j).l1 = (s.core j).l1.changed space Frame.dropClean := by
  by_cases hj : j = core
  · subst hj
    cases sc with
    | h => exact .inl rfl
    | c => exact .inl rfl
    | _ => exact .inr (s.l1_acquireSteps j space (by decide) (by decide))
  · left
    cases sc <;> simp [State.acquireSteps, hj]

theorem State.l2_acquireSteps_cases (s : State) (core : Nat) (space : BitVec 16) (sc : Scope) (j : Nat) :
    ((s.acquireSteps core space sc).cluster j).l2 = (s.cluster j).l2 ∨
      ((s.acquireSteps core space sc).cluster j).l2 = (s.cluster j).l2.changed space Frame.dropClean := by
  by_cases hj : j = clusterOf core
  · subst hj
    cases sc with
    | h => exact .inl rfl
    | c => exact .inl rfl
    | k => exact .inl rfl
    | _ => exact .inr (s.l2_acquireSteps core space (by decide) (by decide) (by decide))
  · left
    cases sc <;> simp [State.acquireSteps, hj]

theorem departOne_makes {sc : Scope} (hh : sc ≠ .h) (hc : sc ≠ .c) (s : State) (k : Nat) :
    (departOne sc s k).dropsClean sc k := by
  intro g hg
  rw [hart?_departOne, if_pos rfl] at hg
  obtain ⟨h, hk, rfl⟩ := Option.map_eq_some_iff.1 hg
  unfold departOne
  rw [hk]
  exact State.noCleanByte_acquireSteps _ _ _ hh hc

theorem departOne_keeps {sc : Scope} (s : State) (key k : Nat) (h : s.dropsClean sc k) :
    (departOne sc s key).dropsClean sc k := by
  intro g hg
  obtain ⟨g0, hg0, same⟩ : ∃ g0, s.hart? k = some g0 ∧ g.spaceTag = g0.spaceTag := by
    rw [hart?_departOne] at hg
    split at hg
    · obtain ⟨g0, hg0, rfl⟩ := Option.map_eq_some_iff.1 hg
      exact ⟨g0, hg0, rfl⟩
    · exact ⟨g, hg, rfl⟩
  obtain ⟨l1, l2⟩ := h g0 hg0
  rw [same]
  unfold departOne
  cases hk : s.hart? key with
  | none => exact ⟨l1, l2⟩
  | some q =>
    have lines := s.sameLines_ackBypass (coreOf key)
    obtain ⟨e1, -, -⟩ := lines.core (k / 8)
    have e2 := lines.cluster (clusterOf (k / 8))
    dsimp only
    rw [State.core_setHart, State.cluster_setHart]
    refine ⟨?_, fun n => ?_⟩
    · rcases (s.ackBypass (coreOf key)).l1_acquireSteps_cases (coreOf key) q.spaceTag sc (k / 8) with e | e <;> rw [e, e1]
      · exact l1
      · exact noCleanByte_changed l1
    · rcases (s.ackBypass (coreOf key)).l2_acquireSteps_cases (coreOf key) q.spaceTag sc (clusterOf (k / 8)) with e | e <;>
        rw [e, e2]
      · exact l2 n
      · exact noCleanByte_changed (l2 n)

/-- The keys of those of a region that have arrived at the barrier of a hart, at its scope. -/
def arrivedKeys (s : State) (key : Nat) (h : Hart) (sc : Scope) : List Nat :=
  (s.harts.filter fun q => q.2.blk = h.blk && sameInstance sc key q.1 && q.2.run = .barrier sc).map (·.1)

theorem arrivedKeys_nodup {s : State} (rise : hartsRise s) (key : Nat) (h : Hart) (sc : Scope) :
    (arrivedKeys s key h sc).Nodup :=
  ((rise.sublist (List.filter_sublist.map _)).imp fun a => Nat.ne_of_lt a)

theorem mem_arrivedKeys {s : State} (rise : hartsRise s) {key k : Nat} {h g : Hart} {sc : Scope} (hg : s.hart? k = some g) :
    k ∈ arrivedKeys s key h sc ↔ (g.blk = h.blk ∧ together sc key k) ∧ g.run = .barrier sc := by
  unfold arrivedKeys
  simp only [List.mem_map, List.mem_filter, Bool.and_eq_true, decide_eq_true_eq, sameInstance_iff]
  constructor
  · rintro ⟨⟨j, q⟩, ⟨hq, ok⟩, rfl⟩
    obtain rfl : q = g := Option.some.inj (((hart?_iff_mem rise).2 hq).symm.trans hg)
    exact ok
  · exact fun ok => ⟨(k, g), ⟨(hart?_iff_mem rise).1 hg, ok⟩, rfl⟩

theorem barrierDepart_full {s : State} {core slot : Nat} {h : Hart} {sc : Scope} (hh : s.hart? (hkey core slot) = some h)
    (hr : h.run = .barrier sc) (full : s.barrierFull (hkey core slot) h sc = true) :
    exec (.barrierDepart core slot) s = .next ((arrivedKeys s (hkey core slot) h sc).foldl (departOne sc) s) := by
  show execBarrierDepart core slot s = _
  unfold execBarrierDepart
  simp only [hh, hr, full, if_true]
  rfl

theorem barrierDepart_held {s : State} {core slot : Nat} {h : Hart} {sc : Scope} (hh : s.hart? (hkey core slot) = some h)
    (hr : h.run = .barrier sc) (held : ¬s.barrierFull (hkey core slot) h sc = true) :
    exec (.barrierDepart core slot) s = .next s := by
  show execBarrierDepart core slot s = _
  unfold execBarrierDepart
  simp only [hh, hr, if_neg held]

/-- Each that has arrived departs with its acquire, and nobody else changes. -/
theorem departAll_spec {s : State} (rise : hartsRise s) {key : Nat} {h : Hart} {sc : Scope} {k : Nat} {g : Hart}
    (hg : s.hart? k = some g) :
    let t := (arrivedKeys s key h sc).foldl (departOne sc) s
    (g.blk = h.blk ∧ together sc key k → g.run = .barrier sc → t.hart? k = some { passed g with run := .running } ∧
      (sc ≠ .h → sc ≠ .c → noCleanByte (t.core (k / 8)).l1 g.spaceTag ∧
        (sc ≠ .k → noCleanByte (t.cluster (clusterOf (k / 8))).l2 g.spaceTag))) ∧
    (¬((g.blk = h.blk ∧ together sc key k) ∧ g.run = .barrier sc) → t.hart? k = some g) := by
  intro t
  have after := hart?_departAll sc k _ s (arrivedKeys_nodup rise key h sc)
  refine ⟨fun here hr => ?_, fun no => ?_⟩
  · have go := (mem_arrivedKeys rise (key := key) (h := h) hg).2 ⟨here, hr⟩
    rw [if_pos go, hg, Option.map_some] at after
    refine ⟨after, fun nh nc => ?_⟩
    have dropped : t.dropsClean sc k := foldl_establishes (departOne_makes nh nc) departOne_keeps _ s k (.inl go)
    exact dropped (departed g) after
  · rw [if_neg (mt (mem_arrivedKeys rise hg).1 no)] at after
    exact after.trans hg

end Sys2Proof.Machine

namespace Sys2Proof

open Sys2Proof.Machine Sys2Proof.Slice0

/-- Settles O20: a barrier is full exactly when the statement says so, and the departures are followed one by one, each with its
acquire and none undoing another's. -/
theorem barrierArrivesAndDeparts : Obligations.BarrierArrivesAndDeparts := by
  refine ⟨fun s h e sc hm => ⟨bar_arrives e sc hm, bar_waits e sc hm⟩, ?_⟩
  intro s core slot h sc rise hh hr inIt
  refine ⟨fun arrived unsaved => ?_, fun holds => ?_⟩
  · exact ⟨_, barrierDepart_full hh hr ((barrierFull_iff s _ h sc).2 ⟨arrived, unsaved⟩), fun k g hg => departAll_spec rise hg⟩
  · refine barrierDepart_held hh hr fun full => ?_
    obtain ⟨arrived, unsaved⟩ := (barrierFull_iff s _ h sc).1 full
    rcases holds with ⟨q, hq, here, notThere, notIdle⟩ | ⟨q, hq, here⟩
    · rcases arrived q hq here with there | ⟨n, idle⟩
      · exact notThere there
      · exact notIdle n idle
    · exact unsaved q hq here

end Sys2Proof

namespace Sys2Proof.Machine

open Sys2Proof.Slice0

set_option Elab.async false

/-! # The blocks of regions in memory (08 R153) -/

/-! ### Numbers within a number of memory -/

theorem Memory.num_succ (m : Memory) (a n : Nat) : m.num a (n + 1) = (m.get a).toNat + 256 * m.num (a + 1) n := rfl

theorem two_pow_eight_succ (n : Nat) : 2 ^ (8 * (n + 1)) = 256 * 2 ^ (8 * n) := by
  rw [Nat.mul_succ, Nat.pow_add, Nat.mul_comm]

theorem Memory.num_div (m : Memory) (n : Nat) : ∀ i a, m.num a (i + n) / 2 ^ (8 * i) = m.num (a + i) n
  | 0, a => by simp
  | i + 1, a => by
    have hb := (m.get a).isLt
    rw [Nat.succ_add, Memory.num_succ, two_pow_eight_succ, ← Nat.div_div_eq_div_mul,
      show ((m.get a).toNat + 256 * m.num (a + 1) (i + n)) / 256 = m.num (a + 1) (i + n) by omega,
      Memory.num_div m n i (a + 1), Nat.add_assoc, Nat.add_comm 1]

theorem Memory.num_mod (m : Memory) (k : Nat) : ∀ n a, m.num a (n + k) % 2 ^ (8 * n) = m.num a n
  | 0, a => Nat.mod_one _
  | n + 1, a => by
    have hb := (m.get a).isLt
    rw [Nat.succ_add, Memory.num_succ, Memory.num_succ, two_pow_eight_succ, Nat.mod_mul,
      show ((m.get a).toNat + 256 * m.num (a + 1) (n + k)) / 256 = m.num (a + 1) (n + k) by omega,
      Memory.num_mod m k n (a + 1)]
    omega

/-- A number of some of a number's bytes is a field of it. -/
theorem State.readPA_within (s : State) (a : Nat) {i n k : Nat} (h : i + n ≤ k) :
    s.readPA (a + i) n = s.readPA a k / 2 ^ (8 * i) % 2 ^ (8 * n) := by
  obtain ⟨j, rfl⟩ := Nat.exists_eq_add_of_le h
  unfold State.readPA
  rw [Nat.add_assoc, Memory.num_div, Memory.num_mod]

theorem State.readPA_setPA_same (s : State) (a n x : Nat) : (s.setPA a n x).readPA a n = x % 2 ^ (8 * n) :=
  Memory.num_write _ _ _ _

theorem State.readPA_setPA_outside (s : State) {a n c k : Nat} (x : Nat) (h : c + k ≤ a ∨ a + n ≤ c) :
    (s.setPA a n x).readPA c k = s.readPA c k :=
  Memory.num_write_outside _ _ _ _ _ (by rwa [toBytes_length])

/-! ### A field of a block -/

@[simp] theorem State.harts_blkSet (s : State) (b hi lo x : Nat) : (s.blkSet b hi lo x).harts = s.harts := rfl
@[simp] theorem State.cores_blkSet (s : State) (b hi lo x : Nat) : (s.blkSet b hi lo x).cores = s.cores := rfl
@[simp] theorem State.clusters_blkSet (s : State) (b hi lo x : Nat) : (s.blkSet b hi lo x).clusters = s.clusters := rfl
@[simp] theorem State.fe_blkSet (s : State) (b hi lo x : Nat) : (s.blkSet b hi lo x).fe = s.fe := rfl
@[simp] theorem State.io_blkSet (s : State) (b hi lo x : Nat) : (s.blkSet b hi lo x).io = s.io := rfl
@[simp] theorem State.sts_blkSet (s : State) (b hi lo x : Nat) : (s.blkSet b hi lo x).sts = s.sts := rfl
@[simp] theorem State.cur_blkSet (s : State) (b hi lo x : Nat) : (s.blkSet b hi lo x).cur = s.cur := rfl

theorem State.get_blkSet_outside (s : State) {b a : Nat} (hi lo x : Nat) (h : a < b ∨ b + 64 ≤ a) :
    (s.blkSet b hi lo x).mem.get a = s.mem.get a := s.setPA_get_outside _ _ _ _ h

theorem State.readPA_blkSet_outside (s : State) {b a n : Nat} (hi lo x : Nat) (h : a + n ≤ b ∨ b + 64 ≤ a) :
    (s.blkSet b hi lo x).readPA a n = s.readPA a n := s.readPA_setPA_outside _ h

/-- A field of a block, as the statements write it. -/
theorem State.blkGet_eq (s : State) (b hi lo : Nat) : s.blkGet b hi lo = s.readPA b 64 / 2 ^ lo % 2 ^ (hi + 1 - lo) :=
  fld_eq_div_mod _ _ _

/-- The field that is written. -/
theorem State.blkGet_blkSet_same (s : State) (b x : Nat) {hi lo : Nat} (hh : hi < 512) :
    (s.blkSet b hi lo x).blkGet b hi lo = x % 2 ^ (hi + 1 - lo) := by
  unfold State.blkGet State.blkSet
  rw [State.readPA_setPA_same]
  refine Nat.eq_of_testBit_eq fun k => ?_
  rw [testBit_fld, Nat.testBit_mod_two_pow, testBit_put, Nat.testBit_mod_two_pow, Nat.add_sub_cancel_left]
  by_cases hk : k < hi + 1 - lo
  · simp [hk, show lo + k < 512 by omega]
  · simp [hk]

/-- Another field. -/
theorem State.blkGet_blkSet_other (s : State) (b x : Nat) {hi lo i j : Nat} (hi' : i < 512) (h : i < lo ∨ hi < j) :
    (s.blkSet b hi lo x).blkGet b i j = s.blkGet b i j := by
  unfold State.blkGet State.blkSet
  rw [State.readPA_setPA_same]
  refine Nat.eq_of_testBit_eq fun k => ?_
  rw [testBit_fld, testBit_fld, Nat.testBit_mod_two_pow, testBit_put]
  by_cases hk : k < i + 1 - j
  · simp [hk, show j + k < 512 by omega, show ¬(lo ≤ j + k ∧ j + k < lo + (hi + 1 - lo)) by omega]
  · simp [hk]

/-- A number of some of a block's bytes is a field of the block. -/
theorem State.readPA_field (s : State) (b : Nat) {i n hi lo : Nat} (hl : 8 * i = lo) (hw : 8 * n = hi + 1 - lo)
    (hn : i + n ≤ 64) : s.readPA (b + i) n = s.blkGet b hi lo := by
  rw [State.blkGet_eq, s.readPA_within b hn, hl, hw]

/-! ### The ring of a region (08 R159) -/

theorem ringHead_eq (s : State) (b : Nat) : ringHead s b = s.blkGet b 351 320 := s.readPA_field b rfl rfl (by omega)

theorem ringTail_eq (s : State) (b : Nat) : ringTail s b = s.blkGet b 383 352 := s.readPA_field b rfl rfl (by omega)

/-- The front end's ring is the one that the statements read. -/
theorem State.ring_eq (s : State) (b : Nat) :
    s.ring b = { cap := ringCap s b, head := ringHead s b, tail := ringTail s b, base := ringBase s b } := by
  rw [ringHead_eq, ringTail_eq]
  unfold State.ring ringCap ringBase State.region
  cases s.fe.regions.find? fun r => r.f.blk = b with
  | some r => rfl
  | none =>
    rw [s.readPA_field b (i := 48) (hi := 447) (lo := 384) rfl rfl (by omega),
      show s.readPA b 64 / 2 ^ 232 % 16 = s.blkGet b 235 232 from (s.blkGet_eq b 235 232).symm]

theorem State.ring_empty_iff (s : State) (b : Nat) : (s.ring b).empty = true ↔ ringUsed s b = 0 := by
  rw [s.ring_eq, Ring.empty, decide_eq_true_iff]
  rfl

theorem State.ring_full_iff (s : State) (b : Nat) : (s.ring b).full = true ↔ ringUsed s b = ringCap s b := by
  rw [s.ring_eq, Ring.full, decide_eq_true_iff]
  rfl

/-! # The step of a hart (12 R238, 09 R174) -/

/-- A hart that handles no trap, owes no deferred store trap and runs, with a word that decodes at its pc, runs what it
decodes to. -/
theorem selectHart_decoded {s s' : State} {core slot w : Nat} {h : Hart} {i : Instr}
    (hh : s.hart? (hkey core slot) = some h) (hr : h.run = .running) (ht : h.trap = none)
    (hd : State.deferredDue { s with cur := hkey core slot } = false)
    (hf : fetch h { s with cur := hkey core slot } = .ok w s') (hi : decodeNat w = .ok i) :
    s.selectHart core slot = .run i s' := by
  unfold State.selectHart
  simp only [hh, ht, hd, hr, Bool.and_false, Bool.false_eq_true, if_false]
  unfold selectFetched
  simp only [hf, hi]

/-- The turn of a hart at the head of the agenda is what its core's selector makes of it. -/
theorem step_agenda_hart {s : State} {core slot : Nat} {late : List Nat} {rest : List Action}
    (ha : s.agenda = .hart core slot late :: rest) :
    step s = (State.hartTurn exec { s with ticks := s.ticks + 1, agenda := rest } core slot late).outcome exec := by
  unfold step State.select State.tick State.nextAction
  simp only [ha]
  rfl

/-- The turn that falls to a slot is the hart's of that slot, at the machine as its turn begins; power is noted when the hart
was ready. -/
theorem hartTurn_falls {s : State} {core slot : Nat} {late : List Nat} {rest : List Action}
    (ht : turnFalls s rest core slot late) :
    let u : State := { s with ticks := s.ticks + 1, agenda := rest }
    u.hartTurn exec core slot late = if u.ready exec core slot
      then ((turnOf s rest core slot late).selectHart core slot).noted exec core slot
      else (turnOf s rest core slot late).selectHart core slot := by
  intro u
  unfold State.hartTurn turnOf
  by_cases hr : u.ready exec core slot = true
  · rw [if_pos hr, if_pos hr, if_pos hr, ht hr]
  · rw [if_neg hr, if_neg hr, if_neg hr]

/-! # Full rings (08 R162) -/

theorem waitsRing_iff (h : Hart) : h.waitsRing = true ↔ ∃ r, h.run = .ringWait r := by
  unfold Hart.waitsRing
  cases h.run <;> simp

/-- Whether a region is in deadlock: its ring is full, each of its harts that holds work waits on it, and none of them is
saved. -/
theorem ringDeadlock_iff (s : State) (b : Nat) :
    ((s.ring b).full && (s.harts.filter fun q => q.2.blk = b && q.2.works).all (fun q => q.2.waitsRing)
      && !(s.fe.saved.any fun q => q.blk = b && q.works)) = true ↔
    ringUsed s b = ringCap s b ∧ (∀ q ∈ s.harts, q.2.blk = b → q.2.works = true → ∃ r, q.2.run = .ringWait r) ∧
      ∀ q ∈ s.fe.saved, ¬(q.blk = b ∧ q.works = true) := by
  rw [Bool.and_eq_true, Bool.and_eq_true, s.ring_full_iff, and_assoc]
  refine and_congr_right fun _ => and_congr ?_ ?_
  · simp only [List.all_eq_true, List.mem_filter, Bool.and_eq_true, decide_eq_true_eq, waitsRing_iff, and_imp]
  · simp

/-- A region that is not in deadlock stays as it is. -/
theorem ringFullDeadlock_idle {s : State} {b : Nat}
    (h : ¬(ringUsed s b = ringCap s b ∧ (∀ q ∈ s.harts, q.2.blk = b → q.2.works = true → ∃ r, q.2.run = .ringWait r) ∧
      ∀ q ∈ s.fe.saved, ¬(q.blk = b ∧ q.works = true))) : exec (.ringFullDeadlock b) s = .next s := by
  show execRingFullDeadlock b s = _
  unfold execRingFullDeadlock
  dsimp only
  split
  · exact if_neg (mt (ringDeadlock_iff s b).1 h)
  · rfl

theorem ringFullDeadlock_ends {s : State} {b key : Nat} {h : Hart} {rest : List (Nat × Hart)}
    (hm : (s.harts.filter fun q => q.2.blk = b && q.2.works) = (key, h) :: rest)
    (hd : ringUsed s b = ringCap s b ∧ (∀ q ∈ s.harts, q.2.blk = b → q.2.works = true → ∃ r, q.2.run = .ringWait r) ∧
      ∀ q ∈ s.fe.saved, ¬(q.blk = b ∧ q.works = true)) :
    exec (.ringFullDeadlock b) s = .next (s.endDomain b 0x13 h.pc (key / 8) (key % 8)) := by
  have stuck := (ringDeadlock_iff s b).2 hd
  rw [hm] at stuck
  show execRingFullDeadlock b s = _
  unfold execRingFullDeadlock
  simp only [hm]
  exact if_pos stuck

end Sys2Proof.Machine

namespace Sys2Proof

open Sys2Proof.Machine Sys2Proof.Slice0

/-- Settles O55: every operation of the model keeps the keys of the harts rising, and so does the step that selects and
performs one. -/
theorem stepKeepsOneHartPerSlot : Obligations.StepKeepsOneHartPerSlot := fun s t h e => (State.Keeps.step s t e).slots h

/-- Settles O1: the turn at the head of the agenda is followed to the fetch, and through it to the decoded instruction. -/
theorem stepRunsDecodedInstruction : Obligations.StepRunsDecodedInstruction := by
  intro s core slot late rest h h' w s' i ha ht hh hr hn hd hf hi hs
  rw [step_agenda_hart ha, hartTurn_falls ht, selectHart_decoded hh hr hn hd hf hi]
  unfold Selected.noted
  simp only [hs]
  cases State.ready exec { s with ticks := s.ticks + 1, agenda := rest } core slot <;> rfl

/-- Settles O23: a region is in deadlock exactly when the statement says so. -/
theorem fullRingDeadlockEndsDomain : Obligations.FullRingDeadlockEndsDomain := by
  intro s b
  refine ⟨fun ⟨q, hq, hb, hw, hr⟩ => ?_, fun hu => ?_, fun key h rest hm hu hw hs => ringFullDeadlock_ends hm ⟨hu, hw, hs⟩⟩
  · refine ringFullDeadlock_idle fun ⟨_, hall, _⟩ => ?_
    obtain ⟨r, e⟩ := hall q hq hb hw
    exact hr r e
  · exact ringFullDeadlock_idle fun ⟨e, _⟩ => hu e

end Sys2Proof

namespace Sys2Proof.Machine

open Sys2Proof.Slice0

set_option Elab.async false

/-! # Spawn and join (08 R158 to R160; 19 R351) -/

/-! ### A push (08 R159) -/

theorem State.readPA_setMe (s : State) (h : Hart) (a n : Nat) : (s.setMe h).readPA a n = s.readPA a n := rfl
theorem ringTail_setMe (s : State) (h : Hart) (b : Nat) : ringTail (s.setMe h) b = ringTail s b := rfl
theorem ringHead_setMe (s : State) (h : Hart) (b : Nat) : ringHead (s.setMe h) b = ringHead s b := rfl

/-- A push into a ring whose place lies outside the region's block writes the record there and moves the tail on, and touches
nothing else of memory. -/
theorem pushTack_spec (s : State) (b r : Nat)
    (h : ringBase s b + 8 * (ringTail s b % ringCap s b) + 8 ≤ b ∨
      b + 64 ≤ ringBase s b + 8 * (ringTail s b % ringCap s b)) :
    (s.pushTack b r).readPA (ringBase s b + 8 * (ringTail s b % ringCap s b)) 8 = r % 2 ^ 64 ∧
      ringTail (s.pushTack b r) b = (ringTail s b + 1) % 2 ^ 32 ∧ ringHead (s.pushTack b r) b = ringHead s b ∧
      ∀ x, (x < b ∨ b + 64 ≤ x) →
        (x < ringBase s b + 8 * (ringTail s b % ringCap s b) ∨
          ringBase s b + 8 * (ringTail s b % ringCap s b) + 8 ≤ x) →
        (s.pushTack b r).mem.get x = s.mem.get x := by
  have pushed : s.pushTack b r = (s.setPA (ringBase s b + 8 * (ringTail s b % ringCap s b)) 8 r).blkSet b 383 352
      (ringTail s b + 1) := by
    unfold State.pushTack
    rw [s.ring_eq]
    rfl
  rw [pushed]
  generalize ringBase s b + 8 * (ringTail s b % ringCap s b) = a at h ⊢
  refine ⟨?_, ?_, ?_, fun x hb ha => ?_⟩
  · rw [State.readPA_blkSet_outside _ _ _ _ h, State.readPA_setPA_same]
  · rw [ringTail_eq, State.blkGet_blkSet_same _ _ _ (by omega)]
  · rw [ringHead_eq, ringHead_eq, State.blkGet_blkSet_other _ _ _ (by omega) (by omega), State.blkGet, State.blkGet,
      State.readPA_setPA_outside _ _ (by omega)]
  · rw [State.get_blkSet_outside _ _ _ _ hb, State.setPA_get_outside _ _ _ _ _ ha]

theorem pushOrWait_full {s : State} {h : Hart} (record : Nat) (owed : Option Nat) (hf : ringUsed s h.blk = ringCap s h.blk) :
    pushOrWait record owed h s = s.setMe { h with run := .ringWait record, push := owed } :=
  if_pos ((s.ring_full_iff h.blk).2 hf)

theorem pushOrWait_room {s : State} {h : Hart} (record : Nat) (owed : Option Nat) (hf : ringUsed s h.blk ≠ ringCap s h.blk) :
    pushOrWait record owed h s = (s.pushTack h.blk record).setMe { passed h with run := .running, push := none } :=
  if_neg (mt (s.ring_full_iff h.blk).1 hf)

/-! ### SPAWN (19 R351) -/

/-- A segment that grants both rights to an access passes it. -/
theorem segCheck_both {g : BitVec 128} {off : Word} {n : Nat} (i e w : Nat) (hs : segGrants g off n true true) :
    segCheck g { rw := .both, g := i, off := off, n := n, align := n, elem := e, ew := w, col := false } = none := by
  obtain ⟨hb, hl, he, hr, hw, ha⟩ := hs
  have hr : segR g = true := hr rfl
  have hw : segW g = true := hw rfl
  unfold segCheck
  simp only [hb, hr, hw, Rw.denied, Nat.not_lt.2 hl, Nat.not_lt.2 he, ha]
  decide

theorem execSpawn_granted {s : State} {h : Hart} (g : GIx) (a : XIx) (hm : s.me = some h) (ho : ownsNoEntry s)
    (hs : segGrants (h.getG g.toNat) (h.getX a) 32 true true) :
    execSpawn g a s = .next (pushOrWait (segBase (h.getG g.toNat) + (h.getX a).toNat) none h
      (s.releaseSteps s.myCore h.spaceTag .d)) := by
  unfold execSpawn
  rw [withHart_some _ hm]
  simp only [segCheck_both _ _ _ hs, release_free .d h ho, Res.bind_ok, finish_ok]

theorem spawnPushes : SpawnPushes := by
  intro s h e g a hm ho hs r u
  have run : exec (.spawn e g a) s = execSpawn g a s := rfl
  rw [run, execSpawn_granted g a hm ho hs]
  refine ⟨fun room => ⟨_, rfl, ?_, fun apart => ?_⟩, fun full => by rw [pushOrWait_full r none full]⟩
  · rw [pushOrWait_room r none room, State.me_setMe]
  · rw [pushOrWait_room r none room]
    simp only [State.readPA_setMe, ringTail_setMe, ringHead_setMe, State.setMe_mem]
    exact pushTack_spec u h.blk r apart

/-! ### JOIN (08 R160) -/

/-- What a JOIN does once it has read its parent and made its hart h of it. -/
def joinRest (q : Nat) (h : Hart) (s : State) : Res Unit :=
  let done := { h with parent := none }
  if q = 0 then .ok () (s.setMe done.retire)
  else
    (release .d h s).bind fun _ s =>
      (tackCell .both (q + 12) 4 4 joinDec h s).bind fun old s =>
        if old = 0 then .stop (.trap (engineTrap 0)) s
        else if old = 1 then
          .ok () (pushOrWait q (some q) (done.pin (s.offNormal h.spaceTag (q + 12))) s)
        else .ok () (s.setMe done.retire)

/-- A JOIN that was stopped between its decrement and its push only pushes. -/
theorem execJoin_owed {s : State} {h : Hart} {q : Nat} (hm : s.me = some h) (hp : h.push = some q) :
    execJoin s = .next (pushOrWait q (some q) h s) := by
  unfold execJoin
  rw [withHart_some _ hm]
  dsimp only
  split
  · rename_i owed
    obtain rfl := Option.some.inj (hp.symm.trans owed)
    rfl
  · rename_i unowed
    exact absurd (hp.symm.trans unowed) nofun

/-- A JOIN of a tack with no record only goes on. -/
theorem execJoin_unrecorded {s : State} {h : Hart} (hm : s.me = some h) (hp : h.push = none) (ht : h.tack = 0) :
    execJoin s = .next (s.setMe (passed h)) := by
  unfold execJoin
  rw [withHart_some _ hm]
  dsimp only
  split
  · rename_i owed
    exact absurd (hp.symm.trans owed) nofun
  · exact if_pos (congrArg BitVec.toNat ht)

/-- The parent of a JOIN's record, as it has kept it or reads it. -/
def readParent (h : Hart) (s : State) : Res Nat :=
  match h.parent with
  | some q => .ok q s
  | none => tackCell .read (h.tack.toNat + 24) 8 8 (fun _ => none) h s

/-- A hart whose JOIN has read its parent q: it keeps it when it may not read it again. -/
def joinHart (h : Hart) (q : Nat) (u : State) : Hart :=
  let off := h.parent.isSome || u.offNormal h.spaceTag (h.tack.toNat + 24)
  ({ h with parent := if off then some q else none } : Hart).pin off

/-- A JOIN of a tack with a record reads its parent, and then does the rest. -/
theorem execJoin_reads {s : State} {h : Hart} (hm : s.me = some h) (hp : h.push = none) (ht : h.tack ≠ 0) :
    execJoin s = finish ((readParent h s).bind fun q u => joinRest q (joinHart h q u) (u.setMe (joinHart h q u))) := by
  have nz : h.tack.toNat ≠ 0 := fun e => ht (BitVec.eq_of_toNat_eq e)
  have reads : (match h.parent with
    | some q => .ok q s
    | none => tackCell .read (h.tack.toNat + 24) 8 8 (fun _ => none) h s : Res Nat) = readParent h s := by
    unfold readParent
    cases h.parent <;> rfl
  unfold execJoin
  rw [withHart_some _ hm]
  split
  · rename_i owed
    exact absurd (hp.symm.trans owed) nofun
  · rw [if_neg nz]
    exact congrArg (fun r : Res Nat => finish (r.bind _)) reads

theorem joinHart_kept {h : Hart} {q : Nat} (u : State) (hq : h.parent = some q) : joinHart h q u = joining h q := by
  unfold joinHart
  rw [hq]
  rfl

theorem joinHart_read {h : Hart} (q : Nat) (u : State) (hq : h.parent = none) :
    joinHart h q u = if u.offNormal h.spaceTag (h.tack.toNat + 24) then joining h q else h := by
  have kept : ({ h with parent := none } : Hart) = h := by rw [← hq]
  unfold joinHart
  rw [hq, Option.isSome_none, Bool.false_or]
  cases u.offNormal h.spaceTag (h.tack.toNat + 24) with
  | false => exact kept
  | true => rfl

/-- Once a JOIN has read its parent, it does what the statement says. -/
theorem joinsOn_of_rest {e : Hint} {s u : State} {g : Hart} {q : Nat} (h : exec (.join e) s = finish (joinRest q g u)) :
    joinsOn e s u g q := by
  unfold joinsOn
  rw [h]
  refine ⟨fun z => by rw [joinRest, if_pos z]; rfl, fun nz waits => ?_, fun nz free old t cell => ?_⟩
  · rw [joinRest, if_neg nz, release_waits .d g waits]
    rfl
  · have counted : joinRest q g u = if old = 0 then .stop (.trap (engineTrap 0)) t
        else if old = 1 then
          .ok () (pushOrWait q (some q) (({ g with parent := none } : Hart).pin (t.offNormal g.spaceTag (q + 12))) t)
        else .ok () (t.setMe ({ g with parent := none } : Hart).retire) := by
      rw [joinRest, if_neg nz, release_free .d g free, Res.bind_ok]
      exact congrArg (fun r : Res Nat => r.bind _) cell
    rw [counted]
    refine ⟨fun z => by rw [if_pos z]; rfl, fun one => ?_, fun two => ?_⟩
    · rw [if_neg (by omega), if_pos one]
      rfl
    · rw [if_neg (by omega), if_neg (by omega)]
      rfl

theorem joinCounts : JoinCounts := by
  intro s h e q hm
  have run : exec (.join e) s = execJoin s := rfl
  refine ⟨fun hp => ?_, fun hp ht => ?_, fun hp ht hq => ?_, fun hp ht hq u cell => ?_⟩
  · exact run.trans (execJoin_owed hm hp)
  · exact run.trans (execJoin_unrecorded hm hp ht)
  · refine joinsOn_of_rest ?_
    rw [run, execJoin_reads hm hp ht, readParent, hq, Res.bind_ok, joinHart_kept s hq]
  · refine joinsOn_of_rest ?_
    rw [run, execJoin_reads hm hp ht, readParent, hq, cell, Res.bind_ok, joinHart_read q u hq]

end Sys2Proof.Machine

namespace Sys2Proof

open Sys2Proof.Machine

/-- Settles O21: the ring's reads and a push's writes are followed in the region's block, and a JOIN past the read of its
parent. -/
theorem spawnAndJoin : Obligations.SpawnAndJoin := ⟨spawnPushes, joinCounts⟩

end Sys2Proof

namespace Sys2Proof.Machine

open Sys2Proof.Slice0

set_option Elab.async false

/-! # Whose turn it is, and which harts are saved

No access to memory, release or acquire changes either. -/

/-- A machine whose turn it is the same hart's, with the same saved harts. -/
structure State.Unmoved (s t : State) : Prop where
  cur : t.cur = s.cur
  saved : t.fe.saved = s.fe.saved

namespace State.Unmoved

variable {o s t : State}

theorem refl (s : State) : s.Unmoved s := ⟨rfl, rfl⟩

theorem same (h : o.Unmoved s) (hc : t.cur = s.cur := by rfl) (hs : t.fe.saved = s.fe.saved := by rfl) : o.Unmoved t :=
  ⟨hc.trans h.cur, hs.trans h.saved⟩

theorem ofOutside (h : o.Unmoved s) (e : s.outsideOnly t) : o.Unmoved t := by
  obtain ⟨m, p, l, n, i, z, rfl⟩ := e
  exact h.same

theorem ofHomeOnly (h : o.Unmoved s) (e : s.homeOnly t) : o.Unmoved t := h.ofOutside ((outsideOnly.refl s).ofHomeOnly e)

theorem foldl {α : Type} {f : State → α → State} (h : o.Unmoved s) (l : List α)
    (hf : ∀ {s} a, o.Unmoved s → o.Unmoved (f s a)) : o.Unmoved (l.foldl f s) := by
  induction l generalizing s with
  | nil => exact h
  | cons a t ih => exact ih (hf a h)

theorem ite {c : Prop} [Decidable c] (hs : o.Unmoved s) (ht : o.Unmoved t) : o.Unmoved (if c then s else t) := by
  split
  · exact hs
  · exact ht

theorem iteRes {α : Type} {c : Prop} [Decidable c] {a b : Res α} (ha : o.Unmoved a.state) (hb : o.Unmoved b.state) :
    o.Unmoved (if c then a else b).state := by
  split
  · exact ha
  · exact hb

theorem bind {α β : Type} {r : Res α} {f : α → State → Res β} (h : o.Unmoved r.state)
    (hf : ∀ {s} a, o.Unmoved s → o.Unmoved (f a s).state) : o.Unmoved (r.bind f).state := by
  cases r with
  | ok a s => exact hf a h
  | stop e s => exact h

theorem setHart (h : o.Unmoved s) {k : Nat} {x : Hart} : o.Unmoved (s.setHart k x) := h.same

theorem setCore (h : o.Unmoved s) {k : Nat} {c : Core} : o.Unmoved (s.setCore k c) := h.same

theorem setCluster (h : o.Unmoved s) {k : Nat} {c : Cluster} : o.Unmoved (s.setCluster k c) := h.same

theorem setDie (h : o.Unmoved s) {k : Nat} {d : Die} : o.Unmoved (s.setDie k d) := h.same

theorem choose (h : o.Unmoved s) {n : Nat} : o.Unmoved (s.choose n).2 := h.same

/-! ### Homes and targets (03 R47, R48, R50, R52) -/

theorem loseFor (h : o.Unmoved s) {blks : List Nat} : o.Unmoved (s.loseFor blks) := h.same

theorem writeBackHome (h : o.Unmoved s) {k : Nat} {w : WriteBack} : o.Unmoved (s.writeBackHome k w) := by
  unfold State.writeBackHome
  dsimp only
  split
  · exact h
  · exact .ite h.loseFor (h.ofOutside (outsideOnly.refl s).mergeHome)

theorem performSent (h : o.Unmoved s) {w : SentWrite} : o.Unmoved (s.performSent w) := by
  have sent : o.Unmoved (if inCtl w.pa then s.ctlWriteRun (w.pa - ctlBase) w.bytes.length (ofBytes w.bytes)
      else s.writePA w.pa w.bytes) := .ite (h.ofOutside (outsideOnly.refl s).ctlWriteWords) h.same
  unfold State.performSent
  refine .ite h.loseFor ?_
  dsimp only
  split
  · exact ofHomeOnly (.ite sent.same sent) (State.touchHomeOf_only _ _ _ _)
  · exact .ite sent.same sent

theorem ackBypass (h : o.Unmoved s) {core : Nat} : o.Unmoved (s.ackBypass core) :=
  .ite h (h.setCore.foldl _ fun _ h => h.performSent)

theorem ackTarget (h : o.Unmoved s) {core : Nat} : o.Unmoved (s.ackTarget core) :=
  .ite h (h.setCore.foldl _ fun _ h => h.performSent)

theorem targetWrite (h : o.Unmoved s) {pa n x : Nat} : o.Unmoved (s.targetWrite pa n x) := by
  unfold State.targetWrite
  exact .ite (h.ofOutside (outsideOnly.refl s).ctlWriteWords) h.same

/-! ### Caches and scopes (03 R44 to R48, R53, R54) -/

theorem drainL2 (h : o.Unmoved s) {k : Nat} : o.Unmoved (s.drainL2 k) := h.setCluster.foldl _ fun _ h => h.writeBackHome

theorem writeBackL2 (h : o.Unmoved s) {k : Nat} {w : WriteBack} : o.Unmoved (s.writeBackL2 k w) := by
  obtain ⟨l, n, e⟩ := s.writeBackL2_only k w
  rw [e]
  exact h.same

theorem drainL1 (h : o.Unmoved s) {core : Nat} : o.Unmoved (s.drainL1 core) := h.setCore.foldl _ fun _ h => h.writeBackL2

theorem l1Frame (h : o.Unmoved s) {k : Nat} {space : BitVec 16} {va : Nat} {t : TClass} :
    o.Unmoved (s.l1Frame k space va t).2 := by
  unfold State.l1Frame
  dsimp only
  split
  · exact h
  · obtain ⟨m, e⟩ := Cache.chooseWay_only (s.core k).l1 128 (va / t.block * t.block) t.rows s
    dsimp only
    rw [e]
    exact h.same

theorem writeL1 (h : o.Unmoved s) {core : Nat} {space : BitVec 16} {va : Nat} {t : TClass} {mask data poison blk : Nat} :
    o.Unmoved (s.writeL1 core space va t mask data poison blk) := h.l1Frame.setCore.setCore

theorem flushL1Range (h : o.Unmoved s) {core : Nat} {space : BitVec 16} {base n : Nat} :
    o.Unmoved (s.flushL1Range core space base n) := h.setCore.drainL1

theorem flushL2Range (h : o.Unmoved s) {k : Nat} {space : BitVec 16} {base n : Nat} :
    o.Unmoved (s.flushL2Range k space base n) := h.setCluster.drainL2

theorem flushRange (h : o.Unmoved s) {space : BitVec 16} {base n : Nat} : o.Unmoved (s.flushRange space base n) :=
  (h.foldl _ fun _ h => h.flushL1Range).foldl _ fun _ h => h.flushL2Range

theorem cleanL1 (h : o.Unmoved s) {core : Nat} {space : BitVec 16} : o.Unmoved (s.cleanL1 core space) := h.setCore.drainL1

theorem cleanL2 (h : o.Unmoved s) {k : Nat} {space : BitVec 16} : o.Unmoved (s.cleanL2 k space) := h.setCluster.drainL2

theorem releaseSteps (h : o.Unmoved s) {core : Nat} {space : BitVec 16} {sc : Scope} :
    o.Unmoved (s.releaseSteps core space sc) := by
  have acked : o.Unmoved ((s.ackBypass core).ackTarget core) := h.ackBypass.ackTarget
  cases sc with
  | h => exact acked
  | c => exact acked
  | k => exact acked.cleanL1
  | d => exact acked.cleanL1.cleanL2
  | s => exact acked.cleanL1.cleanL2

theorem acquireSteps (h : o.Unmoved s) {core : Nat} {space : BitVec 16} {sc : Scope} :
    o.Unmoved (s.acquireSteps core space sc) := by
  cases sc with
  | h => exact h
  | c => exact h
  | k => exact h.setCore
  | d => exact h.setCore.setCluster
  | s => exact h.setCore.setCluster

theorem prepL1 (h : o.Unmoved s) {core : Nat} {space : BitVec 16} {va : Nat} : o.Unmoved (s.prepL1 core space va) := by
  unfold State.prepL1
  dsimp only
  split
  · exact h.drainL1
  · exact h.setCore.drainL1

theorem prepL2 (h : o.Unmoved s) {k : Nat} {space : BitVec 16} {va : Nat} : o.Unmoved (s.prepL2 k space va) := by
  unfold State.prepL2
  dsimp only
  split
  · exact h.drainL2
  · exact h.setCluster.drainL2

/-! ### The store buffer's drain (05 R98, R99) -/

theorem drainEntry (h : o.Unmoved s) {core : Nat} {e : SbEntry} : o.Unmoved (s.drainEntry core e) :=
  (h.ackBypass.foldl _ fun _ h => h.writeL1).setCore.setCore

theorem drainRange {core : Nat} {space : BitVec 16} {base n : Nat} : ∀ (fuel : Nat) {s : State}, o.Unmoved s →
    o.Unmoved (State.drainRange core space base n fuel s)
  | 0, _, h => h
  | fuel + 1, s, h => by
    unfold State.drainRange
    dsimp only
    split
    · exact drainRange fuel (h.foldl _ fun _ h => h.drainEntry)
    · exact h

theorem settlePaused (h : o.Unmoved s) {core : Nat} {space : BitVec 16} {base n slot : Nat} :
    o.Unmoved (State.settlePaused core space base n s slot) := by
  unfold State.settlePaused
  dsimp only
  split
  · exact h
  · split
    · exact h
    · exact .ite h (.ite h.setHart h.setHart)

theorem settleStores (h : o.Unmoved s) {core : Nat} {space : BitVec 16} {base n : Nat} :
    o.Unmoved (s.settleStores core space base n) :=
  ((drainRange _ h).foldl _ fun _ h => h.settlePaused).setCore

/-! ### Translation and names (04 R74, R91, R92; 05 R112) -/

theorem translate (h : o.Unmoved s) {die : Nat} {space : BitVec 16} {va : Nat} {k : WalkKind} {fresh : Bool} :
    o.Unmoved (s.translate die space va k fresh).2 := by
  unfold State.translate
  split
  · exact h
  · dsimp only
    split
    · exact h.setDie
    · exact h

theorem dropHome (h : o.Unmoved s) {pa n : Nat} : o.Unmoved (s.dropHome pa n) := h.same

theorem recallName (h : o.Unmoved s) {die : Nat} {n : NameRec} : o.Unmoved (s.recallName die n) :=
  ((h.foldl _ fun _ h => h.settleStores).foldl _ fun _ h => h.setCore).flushRange.dropHome.setDie

theorem makeRoom (h : o.Unmoved s) {pa : Nat} : o.Unmoved (s.makeRoom pa) := by
  unfold State.makeRoom
  refine .ite h ?_
  dsimp only
  split
  · exact h.choose.recallName
  · exact h.choose

theorem name {l : Leaf} (h : o.Unmoved s) (e : s.name l = some t) : o.Unmoved t := by
  unfold State.name at e
  split at e
  · cases e
  · split at e
    · cases e
      exact h
    · cases e
      exact h.makeRoom.dropHome.setDie

theorem hostFault {core slot : Nat} {space : BitVec 16} {va wres level kind : Nat} {requester : Bool} {r : Nat × State}
    (h : o.Unmoved s) (e : s.hostFault core slot space va wres level kind requester = some r) : o.Unmoved r.2 := by
  unfold State.hostFault at e
  dsimp only at e
  split at e
  · split at e <;> cases e
    · exact h.setDie
    · exact h
  · split at e <;> cases e
    exact h.setDie

theorem absentFault {α : Type} (h : o.Unmoved s) {a : Acc} {wres level : Nat} :
    o.Unmoved (Machine.absentFault (α := α) a wres level s).state := by
  unfold Machine.absentFault
  split
  · exact h
  · rename_i e
    exact h.hostFault e

theorem nameFault {α : Type} (h : o.Unmoved s) {a : Acc} : o.Unmoved (Machine.nameFault (α := α) a s).state := by
  unfold Machine.nameFault
  split
  · exact h
  · rename_i e
    exact h.hostFault e

theorem reach (h : o.Unmoved s) {a : Acc} {k : WalkKind} : o.Unmoved (Machine.reach a k s).state := by
  unfold Machine.reach
  have w : o.Unmoved (s.translate (dieOf a.core) a.space a.va k false).2 := h.translate
  split
  · exact h
  · split
    all_goals rename_i e
    all_goals rw [e] at w
    · exact .iteRes h w
    · exact .iteRes h w.absentFault
    · exact w.absentFault

theorem reachNamed (h : o.Unmoved s) {a : Acc} {k : WalkKind} : o.Unmoved (Machine.reachNamed a k s).state := by
  refine h.reach.bind fun l h => ?_
  split
  · exact h.nameFault
  · rename_i e
    exact h.name e

/-! ### The permission filter (04 R85 to R88) -/

theorem fillFilter (h : o.Unmoved s) {core : Nat} {e : FilterEntry} {b : List FilterEntry} :
    o.Unmoved (s.fillFilter core e b) := .ite h.setCore h.choose.setCore

theorem confirmedFill {core slot va kind : Nat} {l : Leaf} {b : List FilterEntry} {r : FilterEntry × State} (h : o.Unmoved s)
    (e : Machine.confirmedFill core slot va kind l s b = some r) : o.Unmoved r.2 := by
  unfold Machine.confirmedFill at e
  dsimp only at e
  split at e
  · split at e
    · rename_i n
      cases e
      exact (h.name n).fillFilter
    · obtain ⟨q, hq, rfl⟩ := Option.map_eq_some_iff.1 e
      exact (h.hostFault hq).fillFilter
  · cases e
    exact h.fillFilter

theorem walkFill (h : o.Unmoved s) {a : Acc} {k : WalkKind} {fresh needs : Bool} {b : List FilterEntry} :
    o.Unmoved (Machine.walkFill a k fresh needs s b).state := by
  unfold Machine.walkFill
  have w : o.Unmoved (s.translate (dieOf a.core) a.space a.va k fresh).2 := h.translate
  split
  · exact h
  · split
    all_goals rename_i e
    all_goals rw [e] at w
    · refine .iteRes h ?_
      split
      · rename_i f
        exact w.confirmedFill f
      · exact h
    · exact .iteRes h (.iteRes w.absentFault w.fillFilter)
    · exact w.absentFault

theorem present (h : o.Unmoved s) {a : Acc} {rw' : Rw} {n : Nat} {b : List FilterEntry} :
    o.Unmoved (Machine.present a rw' n s b).state := by
  unfold Machine.present
  refine bind ?_ fun e h => .iteRes h.walkFill h
  split
  · exact h
  · exact h.walkFill

/-! ### The read of a tack's record (08 R160) -/

theorem atomicAtHome (h : o.Unmoved s) {k : WalkKind} {a : Acc} {e : FilterEntry} {cell n : Nat} {f : Nat → Option Nat} :
    o.Unmoved (Machine.atomicAtHome k a e cell n f s).state := by
  unfold Machine.atomicAtHome
  refine h.reachNamed.bind fun {s} l h => .iteRes h ?_
  have r : o.Unmoved (if e.attr.mc = .normal then s.readHome l cell a.col else s) :=
    .ite (h.ofHomeOnly (s.readHome_only _ _ _)) h
  dsimp only
  split
  · exact r
  · exact .ite (ofHomeOnly r.targetWrite.setCore (State.touchHomeOf_only _ _ _ _)) r.targetWrite.setCore

theorem deviceAtomic (h : o.Unmoved s) {k : WalkKind} {a : Acc} {e : FilterEntry} {cell n : Nat} {f : Nat → Option Nat} :
    o.Unmoved (performAtomic k a e cell n .d f s).state :=
  .iteRes h.ackBypass.ackTarget.atomicAtHome h.ackBypass.prepL1.prepL2.atomicAtHome

theorem readRecord (h : o.Unmoved s) {a : Acc} {e : FilterEntry} {va n : Nat} :
    o.Unmoved (Machine.readRecord a e va n s).state := (iteRes h h.deviceAtomic).bind fun _ h => iteRes h h

theorem recordCell (h : o.Unmoved s) {va n align : Nat} {g : Hart} :
    o.Unmoved (tackCell .read va n align (fun _ => none) g s).state := by
  unfold Machine.tackCell
  refine iteRes h (iteRes h (h.present.bind fun e h => ?_))
  split
  · exact h
  · exact h.readRecord

end State.Unmoved

end Sys2Proof.Machine

namespace Sys2Proof.Machine

open Sys2Proof.Slice0

set_option Elab.async false

/-! # The end of a tack, and the pop of the next (08 R160; 09 R173; 07 R141) -/

/-! ### A core that has performed a release (03 R53) -/

theorem State.core_drainL1 (s : State) (core : Nat) : (s.drainL1 core).core core = { s.core core with wbq := [] } := by
  have merged : ∀ (l : List WriteBack) (u : State),
      (l.foldl (fun u w => u.writeBackL2 (clusterOf core) w) u).core core = u.core core := by
    intro l
    induction l with
    | nil => exact fun u => rfl
    | cons w l ih =>
      intro u
      obtain ⟨c, n, e⟩ := u.writeBackL2_only (clusterOf core) w
      rw [List.foldl_cons, ih, e]
      rfl
  exact (merged _ _).trans ((s.core_setCore _ _ _).trans (if_pos rfl))

theorem State.core_cleanL1 (s : State) (core : Nat) (space : BitVec 16) : (s.cleanL1 core space).core core =
    { s.core core with l1 := (s.core core).l1.changed space Frame.clean, wbq := [] } := by
  unfold State.cleanL1
  dsimp only
  rw [State.core_drainL1, State.core_setCore, if_pos rfl]
  rfl

theorem State.core_cleanL2 (s : State) (k : Nat) (space : BitVec 16) (j : Nat) : (s.cleanL2 k space).core j = s.core j :=
  ((SameUnits.refl _).foldl _ fun _ h => h.writeBackHome).core j

/-- A core that has performed a release at system scope: nothing of it is on its way, and no line of the space is dirty. -/
def Core.released (c : Core) (space : BitVec 16) : Core :=
  { c with bypass := [], target := [], l1 := c.l1.changed space Frame.clean, wbq := [] }

theorem State.core_releaseSteps (s : State) (core : Nat) (space : BitVec 16) :
    (s.releaseSteps core space .s).core core = (s.core core).released space := by
  refine (State.core_cleanL2 _ _ _ _).trans ?_
  rw [State.core_cleanL1, State.core_acks]
  rfl

/-! ### A hart that owes nothing goes (07 R141; 08 R156) -/

theorem State.ackBypass_none {s : State} {core : Nat} (h : (s.core core).bypass = []) : s.ackBypass core = s :=
  if_pos (by rw [h]; rfl)

theorem State.ackTarget_none {s : State} {core : Nat} (h : (s.core core).target = []) : s.ackTarget core = s :=
  if_pos (by rw [h]; rfl)

theorem filter_ne_self {α : Type} {l : List α} {f : α → Nat} {n : Nat} (h : ∀ a ∈ l, f a ≠ n) :
    (l.filter fun a => f a ≠ n) = l :=
  List.filter_eq_self.2 fun a ha => decide_eq_true (h a ha)

/-- A hart of which nothing is on its way, buffered or commanded leaves its core as it is. -/
theorem State.dropHart_quiet {s : State} {key : Nat} (hb : (s.core (coreOf key)).bypass = [])
    (ht : (s.core (coreOf key)).target = []) (hs : ∀ e ∈ (s.core (coreOf key)).sb, e.slot ≠ slotOf key)
    (hc : ∀ m ∈ (s.core (coreOf key)).cmds, m.slot ≠ slotOf key) :
    ∃ a, s.dropHart key = { s.setCore (coreOf key) (s.core (coreOf key)) with
      harts := adel s.harts key, fe := { s.fe with areas := a } } := by
  unfold State.dropHart
  dsimp only
  rw [State.ackBypass_none hb, State.ackTarget_none ht, filter_ne_self hs, filter_ne_self hc]
  split
  · exact ⟨_, rfl⟩
  · exact ⟨s.fe.areas, rfl⟩

theorem State.core_setCore_self (s : State) (c k : Nat) : (s.setCore c (s.core c)).core k = s.core k := by
  rw [State.core_setCore]
  split
  · rename_i e
    rw [e]
  · rfl

theorem adel_eq_filter {α : Type} (l : List (Nat × α)) (i : Nat) : adel l i = l.filter fun q => q.1 ≠ i := by
  induction l with
  | nil => rfl
  | cons p t ih =>
    obtain ⟨k, v⟩ := p
    by_cases e : k = i <;> simp [adel, e, ih]

/-- A machine whose region drains once no hart of it lives while a child does. -/
def State.drained (s : State) (b : Nat) : State := if s.nlive b = 0 && s.nchild b ≠ 0 then s.blkSet b 171 168 3 else s

theorem State.retireHart_eq (s : State) (key b : Nat) :
    s.retireHart key b = ((s.dropHart key).blkSet b 303 288 ((s.dropHart key).nlive b)).drained b := rfl

/-- That a region drains is shown in its block alone. -/
theorem State.drained_cases (s : State) (b : Nat) : s.drained b = s ∨ s.drained b = s.blkSet b 171 168 3 := by
  unfold State.drained
  split
  · exact .inr rfl
  · exact .inl rfl

/-- A machine that another is but for a block of memory. -/
def State.apartFrom (b : Nat) (s t : State) : Prop :=
  t.harts = s.harts ∧ t.cores = s.cores ∧ t.clusters = s.clusters ∧ t.cur = s.cur ∧
    ∀ x, x < b ∨ b + 64 ≤ x → t.mem.get x = s.mem.get x

theorem State.apartFrom_blkSet (s : State) (b hi lo x : Nat) : s.apartFrom b (s.blkSet b hi lo x) :=
  ⟨s.harts_blkSet .., s.cores_blkSet .., s.clusters_blkSet .., s.cur_blkSet .., fun _ hx => s.get_blkSet_outside _ _ _ hx⟩

theorem State.apartFrom_drained (s : State) (b : Nat) : s.apartFrom b (s.drained b) := by
  rcases s.drained_cases b with e | e <;> rw [e]
  · exact ⟨rfl, rfl, rfl, rfl, fun _ _ => rfl⟩
  · exact s.apartFrom_blkSet ..

/-- Showing the live harts changes the region's block alone. -/
theorem State.apartFrom_shown (s : State) (b n : Nat) : s.apartFrom b ((s.blkSet b 303 288 n).drained b) := by
  obtain ⟨h1, c1, k1, u1, m1⟩ := s.apartFrom_blkSet b 303 288 n
  obtain ⟨h2, c2, k2, u2, m2⟩ := (s.blkSet b 303 288 n).apartFrom_drained b
  exact ⟨h2.trans h1, c2.trans c1, k2.trans k1, u2.trans u1, fun x hx => (m2 x hx).trans (m1 x hx)⟩

/-- The number shown stands in the block then. -/
theorem State.live_drained (s : State) (b n : Nat) : ((s.blkSet b 303 288 n).drained b).readPA (b + 36) 2 = n % 2 ^ 16 := by
  have shown : (s.blkSet b 303 288 n).blkGet b 303 288 = n % 2 ^ (303 + 1 - 288) :=
    State.blkGet_blkSet_same _ _ _ (by omega)
  rw [State.readPA_field _ b (hi := 303) (lo := 288) rfl rfl (by omega)]
  rcases (s.blkSet b 303 288 n).drained_cases b with e | e <;> rw [e]
  · rw [shown]
  · rw [State.blkGet_blkSet_other _ _ _ (by omega) (by omega), shown]

/-! ### ENDT (08 R160, 09 R173) -/

/-- A hart whose tack has ended. -/
def untacked (h : Hart) : Hart := { h with tack := 0 }

/-- A hart that waits idle at its ENDT. -/
def idled (s : State) (h : Hart) : Hart := { h with tack := 0, works := false, run := .idle (h.idleSince.getD s.ticks) }

theorem quiet_iff (s : State) : (s.core s.myCore).quiet s.mySlot = true ↔
    ownsNoEntry s ∧ ∀ m ∈ (s.core s.myCore).cmds, m.slot ≠ s.mySlot := by
  simp [Core.quiet, Core.bufferHolds, ownsNoEntry]

theorem exec_endt (e : Hint) (s : State) : exec (.endt e) s = Machine.execEndt s := rfl

/-- ENDT is what its hart does at it. -/
theorem exec_endt_hart {s : State} {h : Hart} (e : Hint) (hm : s.me = some h) : exec (.endt e) s = endT h s := by
  rw [exec_endt, Machine.execEndt, withHart_some _ hm]

section
variable {s : State} {h : Hart}

theorem endT_idles (hu : ringUsed s h.blk = 0) (ho : s.othersWork s.cur h.blk = true) :
    endT h s = .next (s.setMe (idled s h)) := by
  have empty := (s.ring_empty_iff h.blk).2 hu
  unfold endT
  simp only [empty, ho, Bool.not_true, Bool.false_and, Bool.false_eq_true, if_false]
  rfl

theorem endT_retires (hu : ringUsed s h.blk = 0) (ho : s.othersWork s.cur h.blk = false) (hn : ownsNoEntry s)
    (hc : ∀ m ∈ (s.core s.myCore).cmds, m.slot ≠ s.mySlot) :
    endT h s = .next ((s.releaseSteps s.myCore h.spaceTag .s).retireHart s.cur h.blk) := by
  have empty := (s.ring_empty_iff h.blk).2 hu
  have quiet := (quiet_iff s).2 ⟨hn, hc⟩
  unfold endT
  simp only [empty, ho, quiet, Bool.not_true, Bool.not_false, Bool.true_and, Bool.false_eq_true, if_false, if_true]
  rfl

theorem endT_behind (hu : ringUsed s h.blk ≠ 0) (hf : s.firstInLine s.cur h.blk h.idleSince = false) :
    endT h s = .next (s.setMe (idled s h)) := by
  have waits : (s.ring h.blk).empty = false := Bool.eq_false_iff.2 (mt (s.ring_empty_iff h.blk).1 hu)
  have first : s.firstInLine s.cur h.blk (untacked h).idleSince = false := hf
  unfold endT
  simp only [waits, Bool.not_false, if_true]
  exact if_neg (Bool.eq_false_iff.1 first)

theorem endT_first (hu : ringUsed s h.blk ≠ 0) (hf : s.firstInLine s.cur h.blk h.idleSince = true) :
    endT h s = finish (popTack (untacked h) (s.setMe (untacked h))) := by
  have waits : (s.ring h.blk).empty = false := Bool.eq_false_iff.2 (mt (s.ring_empty_iff h.blk).1 hu)
  have first : s.firstInLine s.cur h.blk ({ h with tack := 0 } : Hart).idleSince = true := hf
  unfold endT finish untacked
  simp only [waits, first, Bool.not_false, if_true]

end

/-- The live harts of a region once the current hart is gone. -/
theorem State.nlive_dropped (s : State) (b : Nat) : ({ s with harts := adel s.harts s.cur } : State).nlive b =
    (s.harts.filter fun q => q.2.blk = b ∧ q.1 ≠ s.cur).length + (s.fe.saved.filter fun q => q.blk = b).length := by
  unfold State.nlive
  dsimp only
  rw [adel_eq_filter, List.filter_filter]
  simp only [ne_eq, Bool.decide_and]

/-- A retiring hart, of which nothing is outstanding, behind its release. -/
theorem retireHart_quiet {s u : State} {b : Nat} {space : BitVec 16} (turn : s.Unmoved u) (harts : u.harts = s.harts)
    (mine : u.core s.myCore = (s.core s.myCore).released space) (hn : ownsNoEntry s)
    (hc : ∀ m ∈ (s.core s.myCore).cmds, m.slot ≠ s.mySlot) :
    let t := u.retireHart s.cur b
    (∀ k, t.hart? k = if k = s.cur then none else s.hart? k) ∧ t.cur = s.cur ∧ (∀ c, t.core c = u.core c) ∧
      (∀ c, t.cluster c = u.cluster c) ∧ (∀ x, x < b ∨ b + 64 ≤ x → t.mem.get x = u.mem.get x) ∧
      t.readPA (b + 36) 2 = ((s.harts.filter fun q => q.2.blk = b ∧ q.1 ≠ s.cur).length
        + (s.fe.saved.filter fun q => q.blk = b).length) % 2 ^ 16 := by
  rw [State.retireHart_eq]
  obtain ⟨a, gone⟩ := u.dropHart_quiet (key := s.cur) (congrArg Core.bypass mine) (congrArg Core.target mine)
    (by rw [show coreOf s.cur = s.myCore from rfl, mine]; exact hn)
    (by rw [show coreOf s.cur = s.myCore from rfl, mine]; exact hc)
  have live : (u.dropHart s.cur).nlive b = (s.harts.filter fun q => q.2.blk = b ∧ q.1 ≠ s.cur).length
      + (s.fe.saved.filter fun q => q.blk = b).length := by
    rw [← s.nlive_dropped, gone]
    unfold State.nlive
    dsimp only
    rw [harts, ← turn.saved]
  obtain ⟨th, tc, tk, tu, tm⟩ := (u.dropHart s.cur).apartFrom_shown b ((u.dropHart s.cur).nlive b)
  refine ⟨fun k => ?_, ?_, fun c => ?_, fun c => ?_, fun x hx => ?_, ?_⟩
  · rw [State.hart?, th, gone]
    exact (aget_adel _ _ _).trans (by rw [harts]; rfl)
  · rw [tu, gone]
    exact turn.cur
  · rw [State.core, tc, gone]
    exact u.core_setCore_self _ _
  · rw [State.cluster, tk, gone]
    rfl
  · rw [tm x hx, gone]
    rfl
  · rw [State.live_drained, live]

theorem endOfTackRetiresOrIdles : EndOfTackRetiresOrIdles := by
  intro s h e hm hu
  refine ⟨fun ho => ?_, fun ho hn hc => ?_⟩
  · rw [exec_endt_hart e hm, endT_idles hu ho, idled]
  · intro u
    rw [exec_endt_hart e hm]
    refine ⟨_, endT_retires hu ho hn hc, ?_⟩
    obtain ⟨key, cur, core, cluster, mem, live⟩ := retireHart_quiet (b := h.blk) ((State.Unmoved.refl s).releaseSteps)
      ((State.Steady.refl s).releaseSteps.harts) (s.core_releaseSteps s.myCore h.spaceTag) hn hc
    obtain ⟨c1, c2⟩ := s.allClean_releaseSteps s.myCore h.spaceTag (sc := .s) nofun nofun
    refine ⟨?_, fun k hk => (key k).trans (if_neg hk), ?_, ?_, core, cluster, mem, live⟩
    · rw [State.me, cur]
      exact (key s.cur).trans (if_pos rfl)
    · rw [core]
      exact c1
    · rw [cluster]
      exact c2 nofun

/-! ### The pop (08 R158, R160) -/

/-- The hart that a pop of the record r with contents c makes of h. -/
def poppedHart (h : Hart) (r c : Nat) : Hart :=
  { ((h.setX 1 (BitVec.ofNat 64 (c / 2 ^ 128))).setX 2 (BitVec.ofNat 64 r)).retireTo (BitVec.ofNat 64 c) with
    tack := BitVec.ofNat 64 r, works := true, run := .running }

theorem ofNat_fld (n lo hi : Nat) (hw : hi + 1 - lo = 64) : BitVec.ofNat 64 (fld n hi lo) = BitVec.ofNat 64 (n / 2 ^ lo) := by
  rw [fld_eq_div_mod, hw]
  exact BitVec.eq_of_toNat_eq (by simp)

theorem usableRecord_iff (c : Nat) : (fld c 95 64 ≠ 0 || c % 4 ≠ 0) = true ↔ ¬usableRecord c := by
  rw [fld_eq_div_mod, usableRecord]
  simp only [Bool.or_eq_true, decide_eq_true_eq]
  omega

section
variable {s u : State} {h : Hart} {c : Nat}

/-- The pop of a record that was read, before its check. -/
theorem popTack_read (hc : tackCell .read (headRecord s h.blk) 32 32 (fun _ => none) h
      (s.fenceAcquire s.myCore h.spaceTag .d) = .ok c u) :
    popTack h s = if fld c 95 64 ≠ 0 || c % 4 ≠ 0 then .stop (.trap (engineTrap 0x11)) u
      else .ok () ((u.blkSet h.blk 351 320 (ringHead s h.blk + 1)).setMe (poppedHart h (headRecord s h.blk) c)) := by
  have head : s.readPA ((s.ring h.blk).slot (s.ring h.blk).head) 8 = headRecord s h.blk := by
    rw [s.ring_eq]
    rfl
  unfold popTack
  dsimp only
  rw [head, hc, Res.bind_ok, ofNat_fld c 128 191 rfl, ofNat_fld c 0 63 rfl, Nat.pow_zero, Nat.div_one, s.ring_eq]
  rfl

/-- What a pop leaves is as the statement says. -/
theorem popped_of_read (v : State) (r : Nat) :
    popped s ((v.blkSet h.blk 351 320 (ringHead s h.blk + 1)).setMe (poppedHart (untacked h) r c)) h
      (poppedHart (untacked h) r c) r c := by
  refine ⟨rfl, ?_, ?_, fun i h1 h2 => ?_, rfl, rfl, rfl, ?_, ?_, ?_, ?_, ?_⟩
  · show (((untacked h).setX 1 _).setX 2 _).getX 1 = _
    rw [Hart.getX_setX_other _ _ _ _ (by decide), Hart.getX_setX_same _ _ _ (by decide)]
  · show (((untacked h).setX 1 _).setX 2 _).getX 2 = _
    rw [Hart.getX_setX_same _ _ _ (by decide)]
  · show (((untacked h).setX 1 _).setX 2 _).getX i = _
    rw [Hart.getX_setX_other _ _ _ _ h2, Hart.getX_setX_other _ _ _ _ h1]
    rfl
  · simp [poppedHart, untacked]
  · simp [poppedHart, untacked]
  · simp [poppedHart, untacked]
  · simp [poppedHart, untacked]
  · rw [ringHead_setMe, ringHead_eq, State.blkGet_blkSet_same _ _ _ (by omega)]

theorem headRecord_setMe (s : State) (h : Hart) (b : Nat) : headRecord (s.setMe h) b = headRecord s b := by
  unfold headRecord
  simp only [State.readPA_setMe, ringHead_setMe]
  rfl

/-- The pop of a hart whose tack has ended, which reads the record at the head. -/
theorem popTack_untacked (hl : loadsHead s u h c) : popTack (untacked h) (s.setMe (untacked h)) =
    if fld c 95 64 ≠ 0 || c % 4 ≠ 0 then .stop (.trap (engineTrap 0x11)) u
    else .ok () ((u.blkSet h.blk 351 320 (ringHead s h.blk + 1)).setMe (poppedHart (untacked h) (headRecord s h.blk) c)) := by
  have head := headRecord_setMe s (untacked h) h.blk
  have reads : tackCell .read (headRecord (s.setMe (untacked h)) (untacked h).blk) 32 32 (fun _ => none) (untacked h)
      ((s.setMe (untacked h)).fenceAcquire (s.setMe (untacked h)).myCore (untacked h).spaceTag .d) = .ok c u := by
    rw [show (untacked h).blk = h.blk from rfl, head]
    exact hl
  rw [popTack_read reads, show (untacked h).blk = h.blk from rfl, head, ringHead_setMe]

/-- The end of a tack by a hart that is first in line, once it has read a usable record at the head. -/
theorem endT_pops (hu : ringUsed s h.blk ≠ 0) (hf : s.firstInLine s.cur h.blk h.idleSince = true) (hl : loadsHead s u h c)
    (ok : usableRecord c) : endT h s = .next ((u.blkSet h.blk 351 320 (ringHead s h.blk + 1)).setMe
      (poppedHart (untacked h) (headRecord s h.blk) c)) := by
  rw [endT_first hu hf, popTack_untacked hl, if_neg (mt (usableRecord_iff c).1 (not_not.2 ok)), finish_ok]

theorem endT_refuses (hu : ringUsed s h.blk ≠ 0) (hf : s.firstInLine s.cur h.blk h.idleSince = true) (hl : loadsHead s u h c)
    (bad : ¬usableRecord c) : endT h s = .next (takeTrap (engineTrap 0x11) u) := by
  rw [endT_first hu hf, popTack_untacked hl, if_pos ((usableRecord_iff c).2 bad), finish_trap]

/-- The load of the record at the head leaves the turn with the hart. -/
theorem loadsHead_cur (hl : loadsHead s u h c) : u.cur = s.cur := by
  have moved : s.Unmoved (tackCell .read (headRecord s h.blk) 32 32 (fun _ => none) { h with tack := 0 }
      ((((s.setMe { h with tack := 0 }).ackBypass s.myCore).ackTarget s.myCore).acquireSteps s.myCore h.spaceTag .d)).state :=
    ((State.Unmoved.refl s).same (t := s.setMe { h with tack := 0 })).ackBypass.ackTarget.acquireSteps.recordCell
  rw [show tackCell .read _ 32 32 _ _ _ = _ from hl] at moved
  exact moved.cur

end

theorem endOfTackPopsNext : EndOfTackPopsNext := by
  intro s h e hm hu
  refine ⟨fun behind => ?_, fun first c u hl => ⟨fun ok => ?_, fun bad => ?_⟩⟩
  · rw [exec_endt_hart e hm, endT_behind hu behind, idled]
  · rw [exec_endt_hart e hm]
    exact ⟨_, _, endT_pops hu first hl ok, State.me_setMe _ _, popped_of_read u _⟩
  · rw [exec_endt_hart e hm, endT_refuses hu first hl bad]
    rfl

theorem asHart_next {key : Nat} {f : State → Out} {s t : State} (h : f { s with cur := key } = .next t) :
    asHart key f s = .next { t with cur := s.cur } := by
  unfold asHart
  rw [h]

theorem tackPopStartsTack : TackPopStartsTack := by
  intro s u core slot h n c hh hr hu s0 hf hl ok
  have since : h.idleSince = some n := by rw [Hart.idleSince, hr]
  have waits : (s.ring h.blk).empty = false := Bool.eq_false_iff.2 (mt (s.ring_empty_iff h.blk).1 hu)
  have pops := endT_pops (s := s0) hu (by rw [since]; exact hf) hl ok
  have run : exec (.tackPop core slot) s = asHart (hkey core slot) (endT h) s := by
    show execTackPop core slot s = _
    unfold execTackPop
    simp only [hh, since, waits]
    rfl
  refine ⟨_, _, run.trans (asHart_next pops), ?_, rfl, popped_of_read u _⟩
  have cur : u.cur = hkey core slot := loadsHead_cur hl
  show State.hart? (State.setMe _ _) _ = _
  rw [State.hart?_setMe]
  exact if_pos cur.symm

end Sys2Proof.Machine

namespace Sys2Proof

open Sys2Proof.Machine

/-- Settles O22: the release of a retiring hart is followed through its core and its block, and a pop from the read of the
record at the ring's head. -/
theorem tackEndAndPop : Obligations.TackEndAndPop :=
  ⟨endOfTackRetiresOrIdles, endOfTackPopsNext, tackPopStartsTack⟩

end Sys2Proof

namespace Sys2Proof.Machine

open Sys2Proof.Slice0

set_option Elab.async false

/-! # Fault domains that end, and regions that retire (08 R155, R156; 10 R188, R190; 07 R141) -/

/-! ### What an entry posted to a queue leaves (26 R375, R377) -/

/-- Every host bus address stands beyond device memory. -/
theorem le_hostPA (bus : Nat) : 2 ^ 51 ≤ hostPA bus := by
  unfold hostPA
  dsimp only
  split <;> omega

theorem State.get_post (s : State) (q : Nat) (e : BitVec 128) {a : Nat} (h : a < 2 ^ 51) :
    (s.post q e).mem.get a = s.mem.get a := by
  have apart := s.setPA_get_outside _ 16 e.toNat a
    (Or.inl (h.trans_le (le_hostPA ((s.queue q).base.toNat + 16 * ((s.queue q).tail.toNat % (s.queue q).cap)))))
  unfold State.post
  dsimp only
  split <;> exact apart

theorem State.get_postOrHold (s : State) (q : Nat) (e : BitVec 128) {a : Nat} (h : a < 2 ^ 51) :
    (s.postOrHold q e).mem.get a = s.mem.get a := by
  unfold State.postOrHold
  dsimp only
  split
  · exact s.get_post q e h
  · rfl

theorem State.readPA_postOrHold (s : State) (q : Nat) (e : BitVec 128) {a n : Nat} (h : a + n ≤ 2 ^ 51) :
    (s.postOrHold q e).readPA a n = s.readPA a n :=
  congrArg ofBytes (Memory.read_congr _ _ _ _ fun _ _ hx => s.get_postOrHold q e (hx.trans_le h))

/-- A completion stands in the host's memory, and nothing of the front end or of a hart changes. -/
theorem State.complete_spec (s : State) (queue : Nat) (tag : BitVec 32) (status state fcause blk : Nat) :
    let t := s.complete queue tag status state fcause blk
    t.fe = s.fe ∧ t.harts = s.harts ∧ t.cores = s.cores := by
  obtain ⟨m, p, l, n, i, z, e⟩ := (State.outsideOnly.refl s).postOrHold (q := 16 + queue)
    (e := completion tag status state fcause blk)
  unfold State.complete
  rw [e]
  exact ⟨rfl, rfl, rfl⟩

/-! ### A region that closes (08 R155) -/

/-- A machine that has returned a region's grants on a core. -/
def State.ungrant (b : Nat) (s : State) (c : Nat) : State :=
  s.setCore c { s.core c with grants := (s.core c).grants.filter fun g => g.blk ≠ b }

/-- A machine that has released a region on its cores and returned its grants. -/
def State.released (s : State) (r : Region) : State :=
  r.cores.foldl (State.ungrant r.f.blk) ((s.releaseRegion r).passLoss r.f.blk)

/-- A machine without a region, whose block shows the state it ended in. -/
def State.withoutRegion (s : State) (b st : Nat) : State :=
  { (s.blkSet b 303 288 0).blkSet b 171 168 st with
    fe := { s.fe with regions := s.fe.regions.filter fun q => q.f.blk ≠ b } }

theorem State.closeRegion_eq (s : State) (r : Region) (st : Nat) : s.closeRegion r st =
    (((s.released r).withoutRegion r.f.blk st).showChildren r.f.parent).complete r.queue r.tag 0 st
      ((s.released r).blkGet ((s.released r).domainRoot r.f.blk) 63 56) r.f.blk := rfl

/-! ### Ends of harts, launches and regions leave the other saved harts (08 R156) -/

namespace State.Unmoved

variable {o s : State}

theorem freeArea (h : o.Unmoved s) {a : Nat} : o.Unmoved (s.freeArea a) := h.same

theorem blkSet (h : o.Unmoved s) {b hi lo x : Nat} : o.Unmoved (s.blkSet b hi lo x) :=
  h.ofOutside (outsideOnly.refl s).writePA

theorem showChildren (h : o.Unmoved s) {parent : Nat} : o.Unmoved (s.showChildren parent) := .ite h h.blkSet

theorem complete (h : o.Unmoved s) {queue : Nat} {tag : BitVec 32} {status state fcause blk : Nat} :
    o.Unmoved (s.complete queue tag status state fcause blk) := h.ofOutside (outsideOnly.refl s).postOrHold

theorem dropHart (h : o.Unmoved s) {key : Nat} : o.Unmoved (s.dropHart key) := by
  have acked : o.Unmoved ((s.ackBypass (coreOf key)).ackTarget (coreOf key)) := h.ackBypass.ackTarget
  unfold State.dropHart
  dsimp only
  split
  · exact acked.same
  · exact acked.same

theorem releaseRegion (h : o.Unmoved s) {r : Region} : o.Unmoved (s.releaseRegion r) := h.foldl _ fun _ h => h.releaseSteps

theorem passLoss (h : o.Unmoved s) {blk : Nat} : o.Unmoved (s.passLoss blk) := .ite h.loseFor h

theorem closeRegion (h : o.Unmoved s) {r : Region} {st : Nat} : o.Unmoved (s.closeRegion r st) := by
  rw [State.closeRegion_eq]
  have released : o.Unmoved (s.released r) := h.releaseRegion.passLoss.foldl _ fun _ h => h.setCore
  exact (released.same (t := (s.released r).withoutRegion r.f.blk st)).showChildren.complete

theorem closeAllFuel : ∀ (n : Nat) {s : State}, o.Unmoved s → o.Unmoved (State.closeAllFuel n s)
  | 0, _, h => h
  | n + 1, s, h => by
    unfold State.closeAllFuel
    split
    · exact closeAllFuel n h.closeRegion
    · exact h

theorem killLaunch (h : o.Unmoved s) {l : Launch} {fcause : Nat} : o.Unmoved (s.killLaunch l fcause) :=
  (same (h.same (t := { s with fe := { s.fe with launches := s.fe.launches.filter fun q => q.f.blk ≠ l.f.blk } }))
    |>.blkSet |>.showChildren.complete)

end State.Unmoved

theorem State.saved_stopHarts (s : State) (blk : Nat) : (s.stopHarts blk).fe.saved = s.fe.saved.filter fun q => q.blk ≠ blk := by
  have dropped := (State.Unmoved.refl s).foldl (f := State.dropHart) ((s.harts.filter fun q => q.2.blk = blk).map (·.1))
    fun _ h => h.dropHart
  have freed (gone : List SavedHart) := dropped.foldl (f := fun s q => s.freeArea q.area) gone fun _ h => h.freeArea
  exact congrArg (List.filter fun q : SavedHart => decide (q.blk ≠ blk)) (freed _).saved

/-- Of the saved harts of some regions that stop none is left. -/
theorem State.saved_foldl_stopHarts (blks : List Nat) (s : State) :
    (blks.foldl State.stopHarts s).fe.saved = s.fe.saved.filter fun q => q.blk ∉ blks := by
  induction blks generalizing s with
  | nil => exact (List.filter_eq_self.2 fun q _ => rfl).symm
  | cons b blks ih =>
    rw [List.foldl_cons, ih, State.saved_stopHarts, List.filter_filter]
    exact List.filter_congr fun q _ => by simp [Bool.and_comm]

/-! ### The end of a fault domain in one step (08 R156) -/

/-- The root of a domain depends on the front end alone. -/
theorem State.domainRootFuel_congr {s t : State} (h : t.fe = s.fe) : ∀ n b, t.domainRootFuel n b = s.domainRootFuel n b
  | 0, _ => rfl
  | n + 1, b => by
    have fields : t.fieldsOf b = s.fieldsOf b := by rw [State.fieldsOf, State.fieldsOf, State.region, State.region, h]
    rw [State.domainRootFuel, State.domainRootFuel, fields]
    split
    · rw [State.domainRootFuel_congr h n]
    · rfl

theorem State.domainRoot_congr {s t : State} (h : t.fe = s.fe) (b : Nat) : t.domainRoot b = s.domainRoot b := by
  rw [State.domainRoot, State.domainRoot, State.domainRootFuel_congr h, State.treeFuel, State.treeFuel, h]

/-- Regions that end with their launches leave no hart of theirs, started or saved. -/
theorem State.ended_gone (v : State) (blks : List Nat) (doomed : List Launch) (fcause : Nat) {b : Nat} (hb : b ∈ blks) :
    let u := (doomed.foldl (fun s l => s.killLaunch l fcause) (v.endBlocks blks 5)).closeAll
    (∀ q ∈ u.harts, q.2.blk ≠ b) ∧ ∀ q ∈ u.fe.saved, q.blk ≠ b := by
  have shrinks := ((Shrinks.refl (v.endBlocks blks 5)).foldl doomed fun s l => s.shrinks_killLaunch l fcause).trans
    (State.shrinks_closeAll _)
  have unmoved := State.Unmoved.closeAllFuel (s := doomed.foldl (fun s l => s.killLaunch l fcause) (v.endBlocks blks 5))
    (doomed.foldl (fun s l => s.killLaunch l fcause) (v.endBlocks blks 5)).fe.regions.length
    ((State.Unmoved.refl (v.endBlocks blks 5)).foldl doomed fun _ h => h.killLaunch)
  refine ⟨fun q hq e => (v.endBlocks_spec blks 5).2.1 q (shrinks.harts hq) (e ▸ hb), fun q hq e => ?_⟩
  have there : q ∈ (blks.foldl State.stopHarts v).fe.saved := unmoved.saved ▸ hq
  rw [State.saved_foldl_stopHarts] at there
  simpa [e, hb] using (List.mem_filter.1 there).2

/-- The end of the domain of a region that has not ended leaves no hart of it. -/
theorem State.endDomain_gone (s : State) (cause : Nat) (pc : Word) (core slot : Nat) {r : Region} (hr : r ∈ s.fe.regions)
    (he : r.ending = none) :
    let u := s.endDomain r.f.blk cause pc core slot
    (∀ q ∈ u.harts, q.2.blk ≠ r.f.blk) ∧ ∀ q ∈ u.fe.saved, q.blk ≠ r.f.blk := by
  unfold State.endDomain
  dsimp only
  generalize hv : (if s.blkGet (s.domainRoot r.f.blk) 63 56 ≠ 0 then s else _) = v
  have fe : v.fe = s.fe := by
    rw [← hv]
    split <;> simp only [State.fe_blkSet]
  refine State.ended_gone v _ _ _ (List.mem_map_of_mem (List.mem_filter.2 ⟨fe ▸ hr, ?_⟩))
  rw [State.domainRoot_congr fe, he]
  simp

theorem FRec.recoverable_iff (f : FRec) : f.recoverable = true ↔
    f.cause = 0x0B ∧ f.rep = true ∨ f.cause = 0x0C ∧ f.rep = true ∨ f.cause = 0x13 ∧ f.inner = 0x0B := by
  simp [FRec.recoverable, or_assoc]

theorem execFaultDomainEnd_trap {s : State} {core slot : Nat} {h : Hart} {t : Handling}
    (hh : s.hart? (hkey core slot) = some h) (ht : h.trap = some t) : execFaultDomainEnd core slot s =
      if t.nested || !t.frec.recoverable then .next (s.endDomain h.blk t.frec.cause t.recPc core slot) else .next s := by
  unfold execFaultDomainEnd
  simp only [hh, ht]

/-! ### The retirement of a region (08 R155, 07 R141) -/

theorem State.nchild_eq (s : State) (b : Nat) : s.nchild b =
    (s.fe.regions.countP fun q => q.f.parent ≠ 0 && q.f.parent = b)
      + s.fe.launches.countP fun l => l.f.parent ≠ 0 && l.f.parent = b := by
  unfold State.nchild
  rw [List.countP_eq_length_filter, List.countP_eq_length_filter]
  split
  · rename_i zero
    subst zero
    simp
  · rename_i ne
    have drop (x : Nat) : (decide (x ≠ 0) && decide (x = b)) = decide (x = b) := by
      by_cases e : x = b <;> simp [e, ne]
    simp only [drop]

theorem State.nlive_eq (s : State) (b : Nat) : s.nlive b =
    (s.harts.countP fun q => q.2.blk = b) + s.fe.saved.countP fun q => q.blk = b := by
  rw [List.countP_eq_length_filter, List.countP_eq_length_filter]
  rfl

theorem State.grants_ungrant (b : Nat) (s : State) (c k : Nat) : ((s.ungrant b c).core k).grants =
    if k = c then (s.core k).grants.filter fun g => g.blk ≠ b else (s.core k).grants := by
  rw [State.ungrant, State.core_setCore]
  split
  · rename_i e
    rw [e]
  · rfl

/-- A region's grants are gone from each core on which they were returned. -/
theorem State.grants_foldl_ungrant (b k : Nat) (cores : List Nat) (s : State) (h : k ∈ cores ∨ ∀ g ∈ (s.core k).grants, g.blk ≠ b) :
    ∀ g ∈ ((cores.foldl (State.ungrant b) s).core k).grants, g.blk ≠ b := by
  induction cores generalizing s with
  | nil => exact h.resolve_left List.not_mem_nil
  | cons c cores ih =>
    refine ih (s.ungrant b c) ?_
    rw [State.grants_ungrant]
    split
    · exact .inr fun g hg => of_decide_eq_true (List.mem_filter.1 hg).2
    · rename_i ne
      exact h.imp_left fun m => (List.mem_cons.1 m).resolve_left ne

theorem State.steady_released (s : State) (r : Region) : s.Steady (s.released r) :=
  State.Steady.foldl (f := State.ungrant r.f.blk)
    ((State.Steady.refl s).foldl (f := fun s c => s.releaseSteps c r.f.space .s) r.cores fun _ h => h.releaseSteps).passLoss
    r.cores fun _ h => h.setCore

theorem State.region_withoutRegion (s : State) (b st : Nat) : (s.withoutRegion b st).region b = none := by
  refine List.find?_eq_none.2 fun q hq => ?_
  have ne : q.f.blk ≠ b := of_decide_eq_true (List.mem_filter.1 hq).2
  exact fun e => ne (of_decide_eq_true e)

theorem State.state_withoutRegion (s : State) (b st : Nat) : (s.withoutRegion b st).blkGet b 171 168 = st % 2 ^ (171 + 1 - 168) :=
  State.blkGet_blkSet_same (s.blkSet b 303 288 0) b st (by omega)

/-- A root region that closes: it is out of the front end, its block shows its state, and its grants are returned. -/
theorem State.closeRegion_root (s : State) {r : Region} {st : Nat} (hp : r.f.parent = 0) (hb : r.f.blk + 64 ≤ 2 ^ 51) :
    let u := s.closeRegion r st
    u.region r.f.blk = none ∧ u.readPA r.f.blk 64 / 2 ^ 168 % 16 = st % 16 ∧ u.harts = s.harts ∧
      ∀ k ∈ r.cores, ∀ g ∈ (u.core k).grants, g.blk ≠ r.f.blk := by
  rw [State.closeRegion_eq, State.showChildren, if_pos hp]
  obtain ⟨fe, harts, cores⟩ := ((s.released r).withoutRegion r.f.blk st).complete_spec r.queue r.tag 0 st
    ((s.released r).blkGet ((s.released r).domainRoot r.f.blk) 63 56) r.f.blk
  refine ⟨?_, ?_, ?_, fun k hk => ?_⟩
  · rw [State.region, fe]
    exact State.region_withoutRegion _ _ _
  · rw [State.complete, State.readPA_postOrHold _ _ _ hb]
    exact ((State.blkGet_eq _ _ _ _).symm.trans (State.state_withoutRegion _ _ _)).trans rfl
  · rw [harts]
    exact (s.steady_released r).harts
  · rw [State.core, cores]
    exact State.grants_foldl_ungrant _ _ _ _ (.inl hk)

theorem execRegionRetire_stays {s : State} {blk : Nat} {r : Region} (hr : s.region blk = some r) (he : r.ending = none)
    (h : s.nchild blk ≠ 0 ∨ s.nlive blk ≠ 0) : execRegionRetire blk s = .next s := by
  unfold execRegionRetire
  simp only [hr, he]
  split
  · rfl
  · rename_i childless
    exact if_neg (h.resolve_left childless)

theorem execRegionRetire_closes {s : State} {blk : Nat} {r : Region} (hr : s.region blk = some r) (he : r.ending = none)
    (hc : s.nchild blk = 0) (hl : s.nlive blk = 0) (kept : (s.releaseRegion r).lostBy r.f.blk = false) :
    execRegionRetire blk s = .next ((s.releaseRegion r).closeRegion r 4) := by
  unfold execRegionRetire State.retireRegion
  simp only [hr, he, hc, hl, kept, ne_eq, not_true_eq_false, if_false, if_true, Bool.false_eq_true]

end Sys2Proof.Machine

namespace Sys2Proof

open Sys2Proof.Machine

/-- Settles O43: the harts that the end of a domain stops are followed through what ends behind them, and a retiring region
through its release and its block. -/
theorem regionsEnd : Obligations.RegionsEnd := by
  refine ⟨fun s core slot h t hh ht => ?_, fun s blk r hr he => ?_⟩
  · have run : exec (.faultDomainEnd core slot) s = execFaultDomainEnd core slot s := rfl
    intro wait
    rw [run, execFaultDomainEnd_trap hh ht]
    refine ⟨fun user waits => ?_, fun ends ⟨r, hr, hb, he⟩ => ?_⟩
    · rw [user, (FRec.recoverable_iff _).2 waits]
      rfl
    · have fatal : (t.nested || !t.frec.recoverable) = true := by
        rcases ends with nested | fatal
        · rw [nested, Bool.true_or]
        · rw [Bool.eq_false_iff.2 (mt (FRec.recoverable_iff _).1 fatal), Bool.not_false, Bool.or_true]
      rw [if_pos fatal, ← hb]
      exact ⟨_, rfl, s.endDomain_gone _ _ _ _ hr he⟩
  · have run : exec (.regionRetire blk) s = execRegionRetire blk s := rfl
    intro children live
    rw [run]
    have hc : s.nchild blk = children := s.nchild_eq blk
    have hl : s.nlive blk = live := s.nlive_eq blk
    refine ⟨fun more => execRegionRetire_stays hr he (by rwa [hc, hl]), fun c0 l0 root space kept => ?_⟩
    have named : r.f.blk = blk := by simpa using List.find?_some hr
    subst named
    have unlost : (s.releaseRegion r).lostBy r.f.blk = false := by
      unfold State.lostBy
      cases found : (s.releaseRegion r).region r.f.blk with
      | none => rfl
      | some q => exact kept q found
    obtain ⟨gone, state, harts, grants⟩ := (s.releaseRegion r).closeRegion_root (st := 4) root space
    have same : (s.releaseRegion r).harts = s.harts :=
      ((State.Steady.refl s).foldl (f := fun s c => s.releaseSteps c r.f.space .s) r.cores fun _ h => h.releaseSteps).harts
    exact ⟨_, execRegionRetire_closes hr he (hc.trans c0) (hl.trans l0) unlost, gone, state, harts.trans same, grants⟩

end Sys2Proof

namespace Sys2Proof.Machine

open Sys2Proof.Slice0

set_option Elab.async false

/-! # Launch packets (09 R166 to R169) -/

/-! ### The first condition that holds -/

/-- A condition that holds, before which none of a rising list does, gives the code. -/
theorem firstCode_of_mem {l : List (Nat × Bool)} {c : Nat} (rising : l.Pairwise fun a b => a.1 < b.1) (hc : (c, true) ∈ l)
    (before : ∀ e ∈ l, e.1 < c → e.2 = false) : firstCode l = c := by
  induction l with
  | nil => exact nomatch hc
  | cons e l ih =>
    obtain ⟨k, b⟩ := e
    obtain ⟨below, rest⟩ := List.pairwise_cons.1 rising
    rcases List.mem_cons.1 hc with first | later
    · cases first
      rfl
    · have off : b = false := before (k, b) List.mem_cons_self (below _ later)
      subst off
      exact ih rest later fun e he => before e (List.mem_cons_of_mem _ he)

theorem firstCode_of_none {l : List (Nat × Bool)} (h : ∀ e ∈ l, e.2 = false) : firstCode l = 0 := by
  induction l with
  | nil => rfl
  | cons e l ih =>
    obtain ⟨k, b⟩ := e
    have off : b = false := h (k, b) List.mem_cons_self
    subst off
    exact ih fun e he => h e (List.mem_cons_of_mem _ he)

/-- The conditions of a launch's status codes, as the model lists them. -/
def State.conditions (s : State) (p : Packet) (f : Fields) : List (Nat × Bool) :=
  let up := s.ancestors p.parent
  let part := 2 ^ f.lp
  let need := cdiv f.hmax part
  let poolLen := match s.fe.pool with
    | some q => q.2
    | none => 0
  [ (0x01, p.ver ≠ 1 || p.f 4095 3328 ≠ 0 || p.f 30 8 ≠ 0 || p.span = 3
      || (upto 16).any fun j => p.bound j &&& ~~~segMask ≠ 0),
    (0x02, s.blockUnusable p.blk),
    (0x03, s.parentUnusable p.parent),
    (0x04, p.parent = 0 && p.ovr ≠ 0xFF),
    (0x05, f.hmax = 0 || decide (384 * part < f.hmax) || up.any fun a => decide (a.hmax < s.hartCount a.blk + f.hmax)),
    (0x06, up.any fun a => decide (a.spb < f.spb)),
    (0x07, decide (16 < f.ixu) || up.any fun a => decide (a.ixu < f.ixu)),
    (0x08, decide (8 < f.tqsz) || f.tqbase % 4096 ≠ 0),
    (0x09, f.pwr = 0 || f.space = 0),
    (0x0A, s.codeUnusable p f),
    (0x0B, s.notesTooLarge p.cobj),
    (0x0C, decide (2 ^ 56 < p.count)),
    (0x0D, (p.span = 1 && decide (8 < need)) || (p.span = 2 && decide (96 < need))),
    (0x0F, decide (poolLen < f.hmax * areaBytes f.lp))]

theorem State.launchCode_eq (s : State) (p : Packet) (f : Fields) : s.launchCode p f = firstCode (s.conditions p f) := rfl

/-! ### Each condition is the spec's (09 R168) -/

theorem Packet.f_eq_pk (p : Packet) (hi lo : Nat) : p.f hi lo = pk p hi lo := fld_eq_div_mod _ _ _

theorem blockField_eq (s : State) (b hi lo : Nat) : blockField s b hi lo = s.blkGet b hi lo := (s.blkGet_eq b hi lo).symm

theorem bit_bmask (p : Packet) {j : Nat} (hj : j < 16) : bit p.bmask j = p.bits.testBit (80 + j) := by
  rw [bit, Packet.bmask, Packet.f, testBit_fld, decide_eq_true (by omega : j < 95 + 1 - 80), Bool.true_and]

theorem segMask_bits : ∀ i, i < 128 → (segMask.getLsbD i = true ↔ 64 ≤ i ∧ i < 121 ∨ 60 ≤ i ∧ i < 64 ∨ 6 ≤ i ∧ i < 57) := by
  decide

theorem bind_bits (p : Packet) (j : Nat) {i : Nat} (hi : i < 128) :
    (BitVec.ofNat 128 (p.bind j)).getLsbD i = p.bits.testBit (1280 + 128 * j + i) := by
  rw [BitVec.getLsbD_ofNat, Packet.bind, Packet.f, testBit_fld, decide_eq_true hi, Bool.true_and,
    decide_eq_true (by omega : i < 1407 + 128 * j + 1 - (1280 + 128 * j)), Bool.true_and]

/-- A bit outside the fields of a segment register (08 R157). -/
theorem outside_iff (x : BitVec 128) : x &&& ~~~segMask ≠ 0 ↔
    ∃ i, i < 128 ∧ x.getLsbD i = true ∧ ¬(64 ≤ i ∧ i < 121 ∨ 60 ≤ i ∧ i < 64 ∨ 6 ≤ i ∧ i < 57) := by
  constructor
  · intro ne
    by_contra inside
    refine ne (BitVec.eq_of_getLsbD_eq fun i hi => .trans (Bool.eq_false_iff.2 fun set => inside ⟨i, hi, ?_⟩)
      BitVec.getLsbD_zero.symm)
    rw [BitVec.getLsbD_and, BitVec.getLsbD_not, decide_eq_true hi, Bool.true_and, Bool.and_eq_true, Bool.not_eq_true'] at set
    exact ⟨set.1, fun field => Bool.eq_false_iff.1 set.2 ((segMask_bits i hi).2 field)⟩
  · rintro ⟨i, hi, set, out⟩ zero
    have clear : segMask.getLsbD i = false := Bool.eq_false_iff.2 (mt (segMask_bits i hi).1 out)
    have one : (x &&& ~~~segMask).getLsbD i = true := by
      rw [BitVec.getLsbD_and, BitVec.getLsbD_not, set, clear, decide_eq_true hi]
      rfl
    rw [zero, BitVec.ofNat_eq_ofNat, BitVec.getLsbD_zero] at one
    exact Bool.false_ne_true one

theorem bound_outside (p : Packet) {j : Nat} (hj : j < 16) : p.bound j &&& ~~~segMask ≠ 0 ↔
    p.bits.testBit (80 + j) = true ∧ ∃ i, i < 128 ∧ p.bits.testBit (1280 + 128 * j + i) = true ∧
      ¬(64 ≤ i ∧ i < 121 ∨ 60 ≤ i ∧ i < 64 ∨ 6 ≤ i ∧ i < 57) := by
  rw [Packet.bound, bit_bmask p hj]
  split
  · rename_i on
    rw [outside_iff]
    simp only [on, true_and]
    exact exists_congr fun i => and_congr_right fun hi => by rw [bind_bits p j hi]
  · rename_i off
    simp [off]

section
variable (s : State) (p : Packet) (f : Fields)

theorem refuses_form : (p.ver ≠ 1 || p.f 4095 3328 ≠ 0 || p.f 30 8 ≠ 0 || p.span = 3
    || (upto 16).any fun j => p.bound j &&& ~~~segMask ≠ 0) = true ↔ refuses s p f 0x01 := by
  simp only [Bool.or_eq_true, decide_eq_true_eq, List.any_eq_true, upto, List.mem_range, or_assoc, refuses, Packet.ver, Packet.span,
    Packet.f_eq_pk]
  refine or_congr_right (or_congr_right (or_congr_right (or_congr_right (exists_congr fun j => and_congr_right fun hj => ?_))))
  exact bound_outside p hj

theorem inDevice_iff (b : Nat) : (b % 64 = 0 ∧ s.inDevice b 64 = true) ↔ blockPlace s b := by
  unfold State.inDevice blockPlace
  split <;> simp only [Bool.and_eq_true, decide_eq_true_eq] <;> rfl

theorem blockUnusable_iff (b : Nat) : s.blockUnusable b = true ↔ unusableBlock s b := by
  rw [unusableBlock, ← inDevice_iff, State.blockUnusable, State.blkState, ← blockField_eq]
  simp only [Bool.or_eq_true, decide_eq_true_eq, Bool.not_eq_true', Option.isSome_iff_ne_none, not_and_or, or_assoc,
    Bool.not_eq_true, ne_eq]

theorem parentUnusable_iff (b : Nat) : s.parentUnusable b = true ↔
    b ≠ 0 ∧ (¬blockPlace s b ∨ blockField s b 171 168 ≠ 2 ∨ s.region b = none ∨ s.nlive b = 0) := by
  rw [← inDevice_iff, State.parentUnusable, State.blkState, ← blockField_eq]
  simp only [Bool.and_eq_true, Bool.or_eq_true, decide_eq_true_eq, Bool.not_eq_true', Option.isNone_iff_eq_none, not_and_or,
    or_assoc, Bool.not_eq_true, ne_eq]

theorem codeUnusable_iff : s.codeUnusable p f = true ↔ ¬codeServes s p f := by
  unfold State.codeUnusable codeServes
  rw [show p.cobj = pk p 159 128 from p.f_eq_pk _ _]
  cases s.fe.objects.find? fun o => o.handle = pk p 159 128 with
  | none => simp
  | some o =>
    rw [bit_bmask p (by omega), show p.bind 0 = pk p 1407 1280 from p.f_eq_pk _ _, show p.entry = pk p 383 320 from p.f_eq_pk _ _]
    simp only [Option.some.injEq, exists_eq_left', Bool.or_eq_true, decide_eq_true_eq, Bool.not_eq_true', not_and_or, or_assoc,
      Bool.not_eq_true, ne_eq, not_le, not_lt, Nat.add_zero]
    tauto

theorem notesTooLarge_iff : s.notesTooLarge p.cobj = true ↔ refuses s p f 0x0B := by
  unfold State.notesTooLarge refuses
  rw [show p.cobj = pk p 159 128 from p.f_eq_pk _ _]
  cases s.fe.objects.find? fun o => o.handle = pk p 159 128 with
  | none => simp
  | some o => simp [or_assoc]

theorem refuses_root : (p.parent = 0 && p.ovr ≠ 0xFF) = true ↔ refuses s p f 0x04 := by
  simp only [Bool.and_eq_true, decide_eq_true_eq, refuses, Packet.parent, Packet.ovr, Packet.f_eq_pk]

/-- Each condition that the model lists is the spec's of its code. -/
theorem conditions_iff : ∀ e ∈ s.conditions p f, e.2 = true ↔ refuses s p f e.1 := by
  have parent : p.parent = pk p 447 384 := p.f_eq_pk _ _
  have span : p.span = pk p 32 31 := p.f_eq_pk _ _
  have blk : p.blk = pk p 511 448 := p.f_eq_pk _ _
  have count : p.count = pk p 319 256 := p.f_eq_pk _ _
  unfold State.conditions
  simp only [List.forall_mem_cons, List.not_mem_nil, IsEmpty.forall_iff, implies_true, and_true]
  refine ⟨refuses_form s p f, ?_, ?_, refuses_root s p f, ?_, ?_, ?_, ?_, ?_, codeUnusable_iff s p f, notesTooLarge_iff s p f, ?_,
    ?_, ?_⟩
  · rw [blockUnusable_iff, blk]
    rfl
  · rw [parentUnusable_iff, parent]
    rfl
  all_goals simp only [Bool.or_eq_true, Bool.and_eq_true, decide_eq_true_eq, List.any_eq_true, parent, span, count, or_assoc]
  all_goals rfl

theorem codes_conditions : (s.conditions p f).map Prod.fst = [1, 2, 3, 4, 5, 6, 7, 8, 9, 10, 11, 12, 13, 15] := rfl

/-- No condition but the model's refuses a packet when it is taken. -/
theorem mem_of_refuses {c : Nat} (h : refuses s p f c) : ∃ b, (c, b) ∈ s.conditions p f := by
  have mem : c ∈ (s.conditions p f).map Prod.fst := by
    rw [codes_conditions]
    unfold refuses at h
    dsimp only at h
    split at h
    case h_15 => exact h.elim
    all_goals decide
  obtain ⟨⟨k, b⟩, hb, rfl⟩ := List.mem_map.1 mem
  exact ⟨b, hb⟩

theorem code_lt {c : Nat} (h : refuses s p f c) : c < 256 := by
  obtain ⟨b, hb⟩ := mem_of_refuses s p f h
  have mem : c ∈ (s.conditions p f).map Prod.fst := List.mem_map_of_mem hb
  rw [codes_conditions] at mem
  exact (by decide : ∀ k ∈ [1, 2, 3, 4, 5, 6, 7, 8, 9, 10, 11, 12, 13, 15], k < 256) c mem

theorem conditions_rise : (s.conditions p f).Pairwise fun a b => a.1 < b.1 := by
  rw [← List.pairwise_map (f := Prod.fst) (R := (· < ·)), codes_conditions]
  decide

theorem launchCode_of_decides {c : Nat} (h : decides s p f c) : s.launchCode p f = c := by
  obtain ⟨before, holds, nothing⟩ := h
  rw [State.launchCode_eq]
  have off {k : Nat} {b : Bool} (he : (k, b) ∈ s.conditions p f) (hk : ¬refuses s p f k) : b = false :=
    Bool.eq_false_iff.2 (mt (conditions_iff s p f _ he).1 hk)
  rcases Nat.eq_zero_or_pos c with rfl | pos
  · exact firstCode_of_none fun e he => off he (nothing rfl _)
  · have holds := holds.resolve_right (Nat.ne_of_gt pos)
    obtain ⟨b, hb⟩ := mem_of_refuses s p f holds
    have on : b = true := (conditions_iff s p f _ hb).2 holds
    exact firstCode_of_mem (conditions_rise s p f) (on ▸ hb) fun e he hk => off he (before _ hk)

end

/-! ### The packet at the head of a queue is taken (09 R166) -/

theorem nextQueue_held {s : State} {q : Nat} (h : s.nextQueue = some q) : (s.queue (16 + q)).held = [] := by
  have takeable : s.takeable q = true := List.find?_some h
  rw [State.takeable, Bool.and_eq_true] at takeable
  exact List.isEmpty_iff.1 takeable.2

/-- A machine whose queue's head has moved on, where the next queue has the turn. -/
def State.pastPacket (s : State) (q : Nat) : State :=
  { s.setQueue q { s.queue q with head := (s.queue q).head + 1 } with fe := { s.fe with rr := (q + 1) % 16 } }

theorem State.takePacket_eq (s : State) (q : Nat) : s.takePacket q =
    if s.launchCode (s.packet q) ((s.packet q).fields ((s.region (s.packet q).parent).map (·.f))) = 0 then
      (s.pastPacket q).acceptPacket q (s.packet q) ((s.packet q).fields ((s.region (s.packet q).parent).map (·.f)))
    else (s.pastPacket q).refusePacket q (s.packet q)
      (s.launchCode (s.packet q) ((s.packet q).fields ((s.region (s.packet q).parent).map (·.f)))) := rfl

theorem State.queue_pastPacket (s : State) (q k : Nat) : (s.pastPacket q).queue k =
    if k = q then { s.queue q with head := (s.queue q).head + 1 } else s.queue k := s.queue_setQueue _ _ _

theorem State.blockUnusable_pastPacket (s : State) (q b : Nat) : (s.pastPacket q).blockUnusable b = s.blockUnusable b := rfl

theorem State.completions_pastPacket (s : State) (q : Nat) : (s.pastPacket q).queue (16 + q) = s.queue (16 + q) := by
  rw [State.queue_pastPacket, if_neg (by omega)]

theorem State.canPost_congr {s t : State} {q : Nat} (hq : t.queue q = s.queue q) (hs : t.sts = s.sts) :
    t.canPost q = s.canPost q := by
  rw [State.canPost, State.canPost, hq, hs]

/-! ### A packet that is accepted -/

/-- A field of a number's low bits is the number's. -/
theorem field_of_mod (x : Nat) {i w n : Nat} (h : i + w ≤ n) : x % 2 ^ n / 2 ^ i % 2 ^ w = x / 2 ^ i % 2 ^ w := by
  obtain ⟨j, rfl⟩ := Nat.exists_eq_add_of_le h
  rw [Nat.add_assoc, Nat.pow_add, Nat.mod_mul_right_div_self, Nat.mod_mod_of_dvd _ (pow_dvd_pow 2 (Nat.le_add_right w j))]

theorem State.blkGet_setPA_same (s : State) (b x : Nat) {hi lo : Nat} (hh : hi < 512) (hl : lo ≤ hi) :
    (s.setPA b 64 x).blkGet b hi lo = x / 2 ^ lo % 2 ^ (hi + 1 - lo) := by
  rw [State.blkGet_eq, State.readPA_setPA_same, field_of_mod _ (by omega)]

/-- A field that stands at bit 172 or higher leaves the bits below. -/
theorem add_shift_mod {n m x k : Nat} (h : n % 2 ^ 172 = m) (hk : 172 ≤ k) : (n + x <<< k) % 2 ^ 172 = m := by
  obtain ⟨y, hy⟩ : 2 ^ 172 ∣ x <<< k := by
    rw [Nat.shiftLeft_eq]
    exact (pow_dvd_pow 2 hk).mul_left x
  rw [hy, Nat.add_mul_mod_self_left, h]

/-- A block at acceptance shows state 1. -/
theorem state_blockBits (f : Fields) (rid : Nat) : blockBits f rid / 2 ^ 168 % 2 ^ 4 = 1 := by
  have low : blockBits f rid % 2 ^ (168 + 4) = 2 ^ 168 := by
    unfold blockBits
    iterate 13 refine add_shift_mod ?_ (by omega)
    rfl
  rw [← Nat.mod_mul_right_div_self, ← Nat.pow_add, low, Nat.div_self (Nat.two_pow_pos 168)]

/-- Showing a parent's children changes the parent's block alone. -/
theorem State.showChildren_spec (s : State) (parent : Nat) : let t := s.showChildren parent
    t.fe = s.fe ∧ t.harts = s.harts ∧ t.io = s.io ∧
      ∀ b hi lo, (parent ≠ 0 → b + 64 ≤ parent ∨ parent + 64 ≤ b) → t.blkGet b hi lo = s.blkGet b hi lo := by
  unfold State.showChildren
  split
  · exact ⟨rfl, rfl, rfl, fun _ _ _ _ => rfl⟩
  · rename_i ne
    refine ⟨s.fe_blkSet .., s.harts_blkSet .., s.io_blkSet .., fun b hi lo apart => ?_⟩
    rw [State.blkGet_eq, State.blkGet_eq, s.readPA_blkSet_outside _ _ _ (apart ne)]

/-- A packet that is accepted waits last of all launches, and its block is in state 1. -/
theorem State.acceptPacket_spec (s : State) (q : Nat) (p : Packet) (f : Fields)
    (apart : p.parent ≠ 0 → p.blk + 64 ≤ p.parent ∨ p.parent + 64 ≤ p.blk) : let u := s.acceptPacket q p f
    u.harts = s.harts ∧ u.io = s.io ∧ u.blkGet p.blk 171 168 = 1 ∧
      ∃ l, u.fe.launches = s.fe.launches ++ [l] ∧ l.f = f ∧ l.queue = q ∧ l.waited = 0 ∧
        l.tag.toNat = pk p 127 96 ∧ l.n = pk p 319 256 ∧ l.entry.toNat = pk p 383 320 := by
  unfold State.acceptPacket
  dsimp only
  generalize freshId _ _ _ _ = rid
  obtain ⟨fe, harts, io, block⟩ := State.showChildren_spec _ p.parent
  rw [harts, io, fe, block _ _ _ apart]
  refine ⟨rfl, rfl, ?_, _, rfl, rfl, rfl, rfl, ?_, p.f_eq_pk _ _, ?_⟩
  · exact (s.blkGet_setPA_same p.blk (blockBits f rid) (by omega) (by omega)).trans (state_blockBits f rid)
  · rw [BitVec.toNat_ofNat, Packet.tag, p.f_eq_pk]
    exact Nat.mod_eq_of_lt (Nat.mod_lt _ (Nat.two_pow_pos 32))
  · rw [BitVec.toNat_ofNat, Packet.entry, p.f_eq_pk]
    exact Nat.mod_eq_of_lt (Nat.mod_lt _ (Nat.two_pow_pos 64))

/-! ### A packet that is refused -/

/-- A machine that has written a refusal's code and state into a block that can be used. -/
def State.refuseBlock (s : State) (b code : Nat) : State :=
  if s.blockUnusable b then s else (s.blkSet b 179 172 code).blkSet b 171 168 7

theorem State.refusePacket_eq (s : State) (q : Nat) (p : Packet) (code : Nat) : s.refusePacket q p code =
    (s.refuseBlock p.blk code).complete q (BitVec.ofNat 32 p.tag) code 7 0 p.blk := rfl

theorem State.refuseBlock_same (s : State) (b code : Nat) : let t := s.refuseBlock b code
    t.fe = s.fe ∧ t.harts = s.harts ∧ t.io = s.io ∧ t.sts = s.sts := by
  have kept (u : State) (hi lo x : Nat) : (u.blkSet b hi lo x).fe = u.fe ∧ (u.blkSet b hi lo x).harts = u.harts ∧
      (u.blkSet b hi lo x).io = u.io ∧ (u.blkSet b hi lo x).sts = u.sts :=
    ⟨u.fe_blkSet .., u.harts_blkSet .., u.io_blkSet .., u.sts_blkSet ..⟩
  unfold State.refuseBlock
  split
  · exact ⟨rfl, rfl, rfl, rfl⟩
  · obtain ⟨f1, h1, i1, s1⟩ := kept s 179 172 code
    obtain ⟨f2, h2, i2, s2⟩ := kept (s.blkSet b 179 172 code) 171 168 7
    exact ⟨f2.trans f1, h2.trans h1, i2.trans i1, s2.trans s1⟩

theorem State.get_refuseBlock (s : State) {b a : Nat} (code : Nat) (h : s.blockUnusable b = true ∨ a < b ∨ b + 64 ≤ a) :
    (s.refuseBlock b code).mem.get a = s.mem.get a := by
  unfold State.refuseBlock
  split
  · rfl
  · rename_i usable
    have outside := h.resolve_left usable
    rw [State.get_blkSet_outside _ _ _ _ outside, State.get_blkSet_outside _ _ _ _ outside]

theorem State.blkGet_refuseBlock (s : State) {b code : Nat} (usable : s.blockUnusable b = false) (hc : code < 256) :
    let t := s.refuseBlock b code
    t.blkGet b 171 168 = 7 ∧ t.blkGet b 179 172 = code ∧ t.blkGet b 167 0 = s.blkGet b 167 0 ∧
      t.blkGet b 511 180 = s.blkGet b 511 180 := by
  have shape : s.refuseBlock b code = (s.blkSet b 179 172 code).blkSet b 171 168 7 :=
    if_neg (Bool.eq_false_iff.1 usable)
  rw [shape]
  refine ⟨?_, ?_, ?_, ?_⟩
  · exact State.blkGet_blkSet_same _ _ _ (by omega)
  · rw [State.blkGet_blkSet_other _ _ _ (by omega) (by omega), State.blkGet_blkSet_same _ _ _ (by omega)]
    exact Nat.mod_eq_of_lt hc
  · rw [State.blkGet_blkSet_other _ _ _ (by omega) (by omega), State.blkGet_blkSet_other _ _ _ (by omega) (by omega)]
  · rw [State.blkGet_blkSet_other _ _ _ (by omega) (by omega), State.blkGet_blkSet_other _ _ _ (by omega) (by omega)]

/-- The completion of a refused packet is the statement's. -/
theorem completion_refusal (p : Packet) {c : Nat} (hc : c < 256) :
    completion (BitVec.ofNat 32 p.tag) c 7 0 p.blk = BitVec.ofNat 128 (refusal p c) := by
  have blk : pk p 511 448 < 2 ^ 64 := Nat.mod_lt _ (Nat.two_pow_pos 64)
  have tag : pk p 127 96 < 2 ^ 32 := Nat.mod_lt _ (Nat.two_pow_pos 32)
  rw [completion, refusal, Packet.blk, Packet.tag, p.f_eq_pk, p.f_eq_pk, BitVec.toNat_ofNat, Nat.mod_eq_of_lt blk,
    Nat.mod_eq_of_lt tag, Nat.mod_eq_of_lt hc]
  simp only [Nat.shiftLeft_eq]
  congr 1
  ring

/-- An entry that a queue can take stands in its ring, and its tail has moved on. -/
theorem State.postOrHold_posts {s : State} {q : Nat} (e : BitVec 128) (held : (s.queue q).held = []) (can : s.canPost q = true) :
    ((s.postOrHold q e).queue q).tail = (s.queue q).tail + 1 ∧
      (s.postOrHold q e).readPA (hostPA ((s.queue q).base.toNat + 16 * ((s.queue q).tail.toNat % (s.queue q).cap))) 16 = e.toNat := by
  have written (a : Nat) : (s.setPA a 16 e.toNat).readPA a 16 = e.toNat :=
    (s.readPA_setPA_same a 16 e.toNat).trans (Nat.mod_eq_of_lt e.isLt)
  have posts : s.postOrHold q e = s.post q e := if_pos (by rw [held, can]; rfl)
  rw [posts]
  unfold State.post
  dsimp only
  split
  · exact ⟨congrArg Queue.tail ((State.queue_setQueue _ _ _ _).trans (if_pos rfl)), written _⟩
  · exact ⟨congrArg Queue.tail ((State.queue_setQueue _ _ _ _).trans (if_pos rfl)), written _⟩

theorem State.postOrHold_holds {s : State} {q : Nat} (e : BitVec 128) (can : s.canPost q = false) :
    (s.postOrHold q e).queue q = { s.queue q with held := (s.queue q).held ++ [e] } := by
  have holds : s.postOrHold q e = s.setQueue q { s.queue q with held := (s.queue q).held ++ [e] } :=
    if_neg (by rw [can, Bool.and_false]; exact Bool.false_ne_true)
  rw [holds, State.queue_setQueue, if_pos rfl]

theorem State.queue_postOrHold_other (s : State) {q k : Nat} (e : BitVec 128) (h : k ≠ q) :
    (s.postOrHold q e).queue k = s.queue k := by
  have set (u : State) (x : Queue) : (u.setQueue q x).queue k = u.queue k := (u.queue_setQueue _ _ _).trans (if_neg h)
  unfold State.postOrHold State.post
  dsimp only
  split
  · split <;> exact set _ _
  · exact set _ _

/-! ### LAUNCH_PACKET_TAKE -/

theorem execLaunchPacketTake_turn {s : State} {q : Nat} (h : s.nextQueue = some q) :
    execLaunchPacketTake q s = .next (s.takePacket q) := if_pos h

theorem execLaunchPacketTake_otherTurn {s : State} {q : Nat} (h : s.nextQueue ≠ some q) : execLaunchPacketTake q s = .next s :=
  if_neg h

theorem blockPlace_le {s : State} {b : Nat} (h : blockPlace s b) : b % 64 = 0 ∧ b + 64 ≤ 2 ^ 51 := by
  obtain ⟨aligned, place⟩ := h
  split at place <;> omega

/-- The block of a packet that no condition refuses lies apart from its parent's. -/
theorem blocks_apart {s : State} {p : Packet} {f : Fields} (h : ∀ k, ¬refuses s p f k) :
    p.parent ≠ 0 → p.blk + 64 ≤ p.parent ∨ p.parent + 64 ≤ p.blk := by
  rw [Packet.parent, Packet.blk, p.f_eq_pk, p.f_eq_pk]
  intro ne
  have usable : ¬unusableBlock s (pk p 511 448) := h 0x02
  have parent : ¬(pk p 447 384 ≠ 0 ∧ _) := h 0x03
  obtain ⟨place, -, unnamed⟩ : blockPlace s (pk p 511 448) ∧ _ ∧ s.fieldsOf (pk p 511 448) = none := by
    simpa only [unusableBlock, not_or, not_not] using usable
  obtain ⟨above, -, region, -⟩ : blockPlace s (pk p 447 384) ∧ _ ∧ s.region (pk p 447 384) ≠ none ∧ _ := by
    simpa only [ne, ne_eq, not_false_eq_true, true_and, not_or, not_not] using parent
  have differ : pk p 511 448 ≠ pk p 447 384 := fun e => by
    rw [e, State.fieldsOf] at unnamed
    split at unnamed
    · exact nomatch unnamed
    · exact region ‹_›
  have a := (blockPlace_le place).1
  have b := (blockPlace_le above).1
  omega

/-- What a refused packet leaves. -/
theorem State.refusePacket_spec {s : State} {q c : Nat} {p : Packet} (hc : c < 256) (held : (s.queue (16 + q)).held = []) :
    let u := s.refusePacket q p c
    let x := s.queue (16 + q)
    let entry := BitVec.ofNat 128 (refusal p c)
    u.queue q = s.queue q ∧ u.harts = s.harts ∧ u.fe.launches = s.fe.launches ∧
      (∀ a, a < 2 ^ 51 → (s.blockUnusable p.blk = true ∨ a < p.blk ∨ p.blk + 64 ≤ a) → u.mem.get a = s.mem.get a) ∧
      (s.blockUnusable p.blk = false → p.blk + 64 ≤ 2 ^ 51 → u.blkGet p.blk 171 168 = 7 ∧ u.blkGet p.blk 179 172 = c ∧
        u.blkGet p.blk 167 0 = s.blkGet p.blk 167 0 ∧ u.blkGet p.blk 511 180 = s.blkGet p.blk 511 180) ∧
      (s.canPost (16 + q) = true → (u.queue (16 + q)).tail = x.tail + 1 ∧
        u.readPA (hostPA (x.base.toNat + 16 * (x.tail.toNat % x.cap))) 16 = entry.toNat) ∧
      (s.canPost (16 + q) = false → u.queue (16 + q) = { x with held := x.held ++ [entry] }) := by
  rw [State.refusePacket_eq]
  obtain ⟨fe, harts, io, sts⟩ := s.refuseBlock_same p.blk c
  obtain ⟨fe', harts', -⟩ := (s.refuseBlock p.blk c).complete_spec q (BitVec.ofNat 32 p.tag) c 7 0 p.blk
  have queue (k : Nat) : (s.refuseBlock p.blk c).queue k = s.queue k := by rw [State.queue, State.queue, io]
  have can : (s.refuseBlock p.blk c).canPost (16 + q) = s.canPost (16 + q) := State.canPost_congr (queue _) sts
  refine ⟨?_, harts'.trans harts, congrArg FrontEnd.launches (fe'.trans fe), fun a ha outside => ?_, fun usable space => ?_,
    fun posts => ?_, fun holds => ?_⟩
  · rw [State.complete, State.queue_postOrHold_other _ _ (by omega), queue]
  · rw [State.complete, State.get_postOrHold _ _ _ ha, s.get_refuseBlock c outside]
  · have same (hi lo : Nat) : ((s.refuseBlock p.blk c).complete q (BitVec.ofNat 32 p.tag) c 7 0 p.blk).blkGet p.blk hi lo =
        (s.refuseBlock p.blk c).blkGet p.blk hi lo := by
      rw [State.blkGet_eq, State.blkGet_eq, State.complete, State.readPA_postOrHold _ _ _ space]
    rw [same, same, same, same]
    exact s.blkGet_refuseBlock usable hc
  · have posted := State.postOrHold_posts (BitVec.ofNat 128 (refusal p c)) ((congrArg Queue.held (queue _)).trans held)
      (can.trans posts)
    rw [queue] at posted
    rw [State.complete, completion_refusal p hc]
    exact posted
  · rw [State.complete, completion_refusal p hc, State.postOrHold_holds _ (can.trans holds), queue]

theorem launchPacketsAreTaken : LaunchPacketsAreTaken := by
  intro s q
  have run : exec (.launchPacketTake q) s = execLaunchPacketTake q s := rfl
  rw [run]
  refine ⟨execLaunchPacketTake_otherTurn, fun turn => ?_⟩
  intro p blk f x c hc
  refine ⟨_, execLaunchPacketTake_turn turn, ?_⟩
  have head : ((s.pastPacket q).queue q).head = (s.queue q).head + 1 := by rw [State.queue_pastPacket, if_pos rfl]
  have parent : p.parent = pk p 447 384 := p.f_eq_pk _ _
  have named : p.blk = blk := p.f_eq_pk _ _
  have code : s.launchCode p f = c := launchCode_of_decides s p f hc
  have taken : s.takePacket q = if c = 0 then (s.pastPacket q).acceptPacket q p f else (s.pastPacket q).refusePacket q p c := by
    rw [State.takePacket_eq, parent, code]
  have completions : (s.pastPacket q).queue (16 + q) = x := s.completions_pastPacket q
  obtain ⟨-, holds, nothing⟩ := hc
  rw [taken]
  split
  · rename_i accepted
    obtain ⟨harts, io, state, waits⟩ := (s.pastPacket q).acceptPacket_spec q p f (blocks_apart (nothing accepted))
    have queue (k : Nat) : ((s.pastPacket q).acceptPacket q p f).queue k = (s.pastPacket q).queue k := by
      rw [State.queue, State.queue, io]
    refine ⟨by rw [queue, head], harts, fun _ => ⟨?_, (queue _).trans completions, waits⟩, fun ne => absurd accepted ne⟩
    rw [blockField_eq, ← named]
    exact state
  · rename_i refused
    have lt : c < 256 := code_lt s p f (holds.resolve_right refused)
    obtain ⟨queue, harts, launches, mem, block, posts, keeps⟩ := State.refusePacket_spec (s := s.pastPacket q) (q := q) (p := p) lt
      (by rw [completions]; exact nextQueue_held turn)
    have usable_iff : s.blockUnusable p.blk = true ↔ unusableBlock s blk := by rw [named, blockUnusable_iff]
    have can : (s.pastPacket q).canPost (16 + q) = s.canPost (16 + q) := State.canPost_congr completions rfl
    rw [completions, can] at posts keeps
    refine ⟨by rw [queue, head], harts, fun e => absurd e refused, fun _ => ⟨launches, fun a ha outside => ?_, fun usable => ?_,
      posts, keeps⟩⟩
    · exact mem a ha (by rw [named]; exact outside.imp_left fun u => named ▸ usable_iff.2 u)
    · simp only [blockField_eq, ← named]
      refine block (Bool.eq_false_iff.2 (mt usable_iff.1 usable)) ?_
      rw [named]
      exact (blockPlace_le (not_not.1 (not_or.1 usable).1)).2

end Sys2Proof.Machine

namespace Sys2Proof.Machine

open Sys2Proof.Slice0

set_option Elab.async false

/-! # Launches that are placed (09 R170; 08 R157) -/

/-! ### The registers of a hart at its start -/

/-- A write of a scalar register leaves every other field of a hart. -/
theorem Hart.setX_only (h : Hart) (i : XIx) (w : Word) : ∃ x, h.setX i w = { h with x := x } := by
  unfold Hart.setX
  split
  · exact ⟨h.x, rfl⟩
  · exact ⟨_, rfl⟩

theorem Hart.setXs_only (l : List Word) : ∀ (h : Hart) (i : Nat), ∃ x, h.setXs i l = { h with x := x } := by
  induction l with
  | nil => exact fun h _ => ⟨h.x, rfl⟩
  | cons w l ih =>
    intro h i
    obtain ⟨x, e⟩ := h.setX_only (BitVec.ofNat 5 i) w
    obtain ⟨y, e'⟩ := ih (h.setX (BitVec.ofNat 5 i) w) (i + 1)
    exact ⟨y, e'.trans (by rw [e])⟩

/-- Binding segment registers leaves every other field of a hart. -/
theorem Hart.bindGs_only (l : List (BitVec 128)) : ∀ (h : Hart) (i : Nat), ∃ g, h.bindGs i l = { h with g := g } := by
  induction l with
  | nil => exact fun h _ => ⟨h.g, rfl⟩
  | cons w l ih =>
    intro h i
    unfold Hart.bindGs
    split
    · exact ih { h with g := h.g.set i w ‹_› } (i + 1)
    · exact ih h (i + 1)

theorem ofNat5_inj {i j : Nat} (hi : i < 32) (hj : j < 32) (h : BitVec.ofNat 5 i = BitVec.ofNat 5 j) : i = j := by
  have e := congrArg BitVec.toNat h
  rwa [BitVec.toNat_ofNat, BitVec.toNat_ofNat, Nat.mod_eq_of_lt hi, Nat.mod_eq_of_lt hj] at e

/-- Registers below those that are written keep their values. -/
theorem Hart.getX_setXs_below (l : List Word) {j : Nat} : ∀ (h : Hart) (i : Nat), j < i → i + l.length ≤ 32 →
    (h.setXs i l).getX (BitVec.ofNat 5 j) = h.getX (BitVec.ofNat 5 j) := by
  induction l with
  | nil => exact fun _ _ _ _ => rfl
  | cons w l ih =>
    intro h i below fits
    rw [List.length_cons] at fits
    refine (ih _ (i + 1) (by omega) (by omega)).trans (h.getX_setX_other _ _ _ fun e => ?_)
    have := ofNat5_inj (by omega) (by omega) e
    omega

/-- Each register that is written holds its word. -/
theorem Hart.getX_setXs (l : List Word) {k : Nat} {w : Word} : ∀ (h : Hart) (i : Nat), 0 < i → i + l.length ≤ 32 →
    l[k]? = some w → (h.setXs i l).getX (BitVec.ofNat 5 (i + k)) = w := by
  induction l generalizing k with
  | nil => exact fun _ _ _ _ hk => nomatch hk
  | cons v l ih =>
    intro h i pos fits hk
    rw [List.length_cons] at fits
    cases k with
    | zero =>
      cases hk
      refine (getX_setXs_below l _ (i + 1) (by omega) (by omega)).trans (h.getX_setX_same _ _ fun e => ?_)
      have := ofNat5_inj (j := 0) (by omega) (by omega) e
      omega
    | succ k =>
      rw [Nat.add_succ, ← Nat.succ_add]
      exact ih _ (i + 1) (by omega) (by omega) hk

theorem Hart.bindGs_cons {h : Hart} (user : h.user = true) (i : Nat) (g : BitVec 128) (l : List (BitVec 128)) :
    h.bindGs i (g :: l) = (h.setG i g).bindGs (i + 1) l := by
  rw [Hart.bindGs, Hart.setG, if_pos user]

theorem Hart.user_setG (h : Hart) (i : Nat) (g : BitVec 128) : (h.setG i g).user = h.user := by
  unfold Hart.setG
  repeat' split
  all_goals rfl

theorem Hart.getG_bindGs_below (l : List (BitVec 128)) {j : Nat} : ∀ (h : Hart) (i : Nat), h.user = true → j < i →
    i + l.length ≤ 16 → (h.bindGs i l).getG j = h.getG j := by
  induction l with
  | nil => exact fun _ _ _ _ _ => rfl
  | cons w l ih =>
    intro h i user below fits
    rw [List.length_cons] at fits
    rw [Hart.bindGs_cons user, ih _ (i + 1) (by rw [Hart.user_setG, user]) (by omega) (by omega), Hart.getG_setG,
      if_neg (by omega)]

/-- Each segment register that is bound holds its binding. -/
theorem Hart.getG_bindGs (l : List (BitVec 128)) {k : Nat} {w : BitVec 128} : ∀ (h : Hart) (i : Nat), h.user = true →
    i + l.length ≤ 16 → l[k]? = some w → (h.bindGs i l).getG (i + k) = w := by
  induction l generalizing k with
  | nil => exact fun _ _ _ _ hk => nomatch hk
  | cons v l ih =>
    intro h i user fits hk
    rw [List.length_cons] at fits
    have user' : (h.setG i v).user = true := by rw [Hart.user_setG, user]
    rw [Hart.bindGs_cons user]
    cases k with
    | zero =>
      cases hk
      exact (getG_bindGs_below l _ (i + 1) user' (by omega) (by omega)).trans
        ((h.getG_setG _ _ _).trans (if_pos ⟨rfl, by omega⟩))
    | succ k =>
      rw [show i + (k + 1) = i + 1 + k by omega]
      exact ih _ (i + 1) user' (by omega) hk

theorem chunkOf_eq (n hmax : Nat) : chunkOf n hmax = chunk n hmax := rfl

/-- A hart of a launch as it starts. -/
theorem startHart_spec (l : Launch) (sts : Status) (i area : Nat) (ha : l.args.length ≤ 12) (hb : l.binds.length = 16) :
    let g := startHart l sts i area
    g.pc = l.entry ∧ g.user = true ∧ g.run = .running ∧ g.blk = l.f.blk ∧ g.space = l.f.space ∧
      g.getX 1 = BitVec.ofNat 64 (min l.n (i * chunk l.n l.f.hmax)) ∧
      g.getX 2 = BitVec.ofNat 64 (min l.n ((i + 1) * chunk l.n l.f.hmax) - min l.n (i * chunk l.n l.f.hmax)) ∧
      g.getX 3 = BitVec.ofNat 64 i ∧
      (∀ k w, l.args[k]? = some w → g.getX (BitVec.ofNat 5 (4 + k)) = w) ∧
      ∀ k w, l.binds[k]? = some w → g.getG k = w := by
  unfold startHart
  simp only [chunkOf_eq]
  generalize hh : ({ Hart.reset with
    pc := l.entry, blk := l.f.blk, space := l.f.space, area := area, sg0 := sts.sg0, sg1 := sts.sg1,
    ctl := { Ctrl.reset with tvec := sts.tvec } } : Hart) = h
  generalize hs : [_, _, _] = share
  have three : 1 + share.length ≤ 32 := by simp [← hs]
  obtain ⟨x, first⟩ := h.setXs_only share 1
  obtain ⟨y, second⟩ := (h.setXs 1 share).setXs_only l.args 4
  obtain ⟨g, bound⟩ := ((h.setXs 1 share).setXs 4 l.args).bindGs_only l.binds 0
  have scalar (j : XIx) : (((h.setXs 1 share).setXs 4 l.args).bindGs 0 l.binds).getX j =
      ((h.setXs 1 share).setXs 4 l.args).getX j := by rw [bound]; rfl
  have shared {k : Nat} {w : Word} (hk : share[k]? = some w) (h3 : k < 3) :
      ((h.setXs 1 share).setXs 4 l.args).getX (BitVec.ofNat 5 (1 + k)) = w :=
    (Hart.getX_setXs_below l.args _ 4 (by omega) (by omega)).trans (Hart.getX_setXs share h 1 (by omega) three hk)
  have user : ((h.setXs 1 share).setXs 4 l.args).user = true := by
    rw [second, first, ← hh]
    rfl
  refine ⟨?_, ?_, ?_, ?_, ?_, ?_, ?_, ?_, fun k w hk => ?_, fun k w hk => ?_⟩
  · rw [bound, second, first, ← hh]
  · rw [bound, user]
  · rw [bound, second, first, ← hh]
    rfl
  · rw [bound, second, first, ← hh]
  · rw [bound, second, first, ← hh]
  · exact (scalar _).trans (shared (k := 0) (by rw [← hs]; rfl) (by omega))
  · exact (scalar _).trans (shared (k := 1) (by rw [← hs]; rfl) (by omega))
  · exact (scalar _).trans (shared (k := 2) (by rw [← hs]; rfl) (by omega))
  · exact (scalar _).trans (Hart.getX_setXs l.args _ 4 (by omega) (by omega) hk)
  · exact (congrArg _ (Nat.zero_add k).symm).trans (Hart.getG_bindGs l.binds _ 0 user (by omega) hk)

/-! ### The harts of a launch start in their places -/

theorem State.hart?_startHarts_other {l : Launch} {key : Nat} (spots : List ((Nat × Nat) × Nat)) : ∀ (s : State) (i : Nat),
    key ∉ spots.map (fun e => hkey e.1.1 e.1.2) → (State.startHarts l s i spots).hart? key = s.hart? key := by
  induction spots with
  | nil => exact fun _ _ _ => rfl
  | cons e spots ih =>
    intro s i out
    obtain ⟨ne, out⟩ := not_or.1 (mt List.mem_cons.2 out)
    refine (ih _ (i + 1) out).trans ?_
    rw [State.hart?_setHart, if_neg ne]

/-- In each place the hart of its number starts. -/
theorem State.hart?_startHarts {l : Launch} {n : Nat} {p : Nat × Nat} {area : Nat} (spots : List ((Nat × Nat) × Nat)) :
    ∀ (s : State) (i : Nat), (spots.map fun e => hkey e.1.1 e.1.2).Nodup → spots[n]? = some (p, area) →
      (State.startHarts l s i spots).hart? (hkey p.1 p.2) = some (startHart l s.sts (i + n) area) := by
  induction spots generalizing n with
  | nil => exact fun _ _ _ hn => nomatch hn
  | cons e spots ih =>
    intro s i apart hn
    obtain ⟨out, apart⟩ := List.nodup_cons.1 apart
    cases n with
    | zero =>
      cases hn
      refine (State.hart?_startHarts_other spots _ (i + 1) out).trans ?_
      rw [State.hart?_setHart, if_pos rfl]
      rfl
    | succ n =>
      rw [Nat.add_succ, ← Nat.succ_add]
      exact ih (s.setHart (hkey e.1.1 e.1.2) (startHart l s.sts i e.2)) (i + 1) apart hn

/-- The places that have an area are some of the places. -/
theorem keys_zip_sublist {α β γ : Type} (f : α → γ) (as : List α) (bs : List β) :
    ((as.zip bs).map fun e => f e.1).Sublist (as.map f) := by
  induction as generalizing bs with
  | nil => exact List.Sublist.refl _
  | cons a as ih =>
    cases bs with
    | nil => exact List.nil_sublist _
    | cons b bs => exact (ih bs).cons_cons _

/-- The machine whose cores are prepared for a launch, with its harts started. -/
def State.started (s : State) (l : Launch) (cores areas : List Nat) : State :=
  (cores.foldl (State.prepareCore l.f) s).startHarts l 0 (((s.places l.f cores).take l.f.hmax).zip areas)

theorem State.hart?_place (s : State) (l : Launch) (cores areas : List Nat) (key : Nat) :
    (s.place l cores areas).hart? key = (s.started l cores areas).hart? key := by
  obtain ⟨fe, e⟩ : ∃ fe, s.place l cores areas =
      { ((s.started l cores areas).blkSet l.f.blk 303 288 l.f.hmax).blkSet l.f.blk 171 168 2 with fe := fe } := ⟨_, rfl⟩
  have harts : (s.place l cores areas).harts = (s.started l cores areas).harts := by
    rw [e]
    exact (State.harts_blkSet ((s.started l cores areas).blkSet l.f.blk 303 288 l.f.hmax) l.f.blk 171 168 2).trans
      (State.harts_blkSet (s.started l cores areas) l.f.blk 303 288 l.f.hmax)
  rw [State.hart?, harts]
  rfl

/-- A launch that is placed is a region, and waits no more. -/
theorem State.place_region (s : State) (l : Launch) (cores areas : List Nat) :
    (∀ q ∈ (s.place l cores areas).fe.launches, q.f.blk ≠ l.f.blk) ∧
      ∃ r ∈ (s.place l cores areas).fe.regions, r.f = l.f ∧ r.cores = cores ∧ r.ending = none :=
  ⟨fun _ hq => of_decide_eq_true (List.mem_filter.1 hq).2, _, List.mem_append_right _ List.mem_cons_self, rfl, rfl, rfl⟩

theorem execLaunchPlacement_places {s t : State} {l : Launch} {cores areas : List Nat} (first : s.firstLaunch = some l)
    (turn : s.resumeFirst l = false) (place : s.placement [] l = some (cores, areas, t)) :
    execLaunchPlacement s = .next (t.place l cores areas) := by
  unfold execLaunchPlacement
  simp only [first, turn, place, Bool.false_eq_true, if_false]

theorem launchesArePlaced : LaunchesArePlaced := by
  refine ⟨fun s t l cores areas first turn place => ?_, fun s idx n => ?_⟩
  · intro spots apart ha hb _
    have run : exec .launchPlacement s = execLaunchPlacement s := rfl
    rw [run]
    obtain ⟨waits, region⟩ := t.place_region l cores areas
    refine ⟨_, execLaunchPlacement_places first turn place, waits, region, fun i p hp hi => ?_⟩
    have spot : (spots.zip areas)[i]? = some (p, areas[i]) := List.getElem?_zip_eq_some.2 ⟨hp, List.getElem?_eq_getElem hi⟩
    have unique : ((spots.zip areas).map fun e => hkey e.1.1 e.1.2).Nodup :=
      (keys_zip_sublist (fun p : Nat × Nat => hkey p.1 p.2) spots areas).nodup apart
    have starts := State.hart?_startHarts (l := l) (spots.zip areas) (cores.foldl (State.prepareCore l.f) t) 0 unique spot
    rw [Nat.zero_add] at starts
    exact ⟨_, (t.hart?_place l cores areas _).trans starts, startHart_spec l _ i _ ha hb⟩
  · have run : exec (.launchAging idx n) s = execLaunchAging idx n s := rfl
    rw [run]
    refine ⟨_, rfl, rfl, fun k => ?_⟩
    refine (List.getElem?_modify _ _ _ _).trans ?_
    congr 1
    funext l
    exact if_congr eq_comm rfl rfl

end Sys2Proof.Machine

namespace Sys2Proof

open Sys2Proof.Machine

/-- Settles O44: each condition that the model lists is the spec's of its code, a packet is followed into its block and its
queues, and a launch into the registers of its harts. -/
theorem launchesTakenAndPlaced : Obligations.LaunchesTakenAndPlaced := ⟨launchPacketsAreTaken, launchesArePlaced⟩

end Sys2Proof

namespace Sys2Proof.Machine

open Sys2Proof.Slice0

set_option Elab.async false

/-! # Pre-emption: regions that stop (09 R172, 10 R192) -/

theorem Hart.mustEnd_iff (h : Hart) : h.mustEnd = true ↔ mustFinish h := by
  simp [Hart.mustEnd, mustFinish]

theorem Hart.draining_iff (h : Hart) : h.draining = true ↔ ∃ a, h.run = .draining a := by
  unfold Hart.draining
  cases h.run <;> simp

theorem Hart.sleeps_iff (h : Hart) : h.sleeps = true ↔ ∃ any d x y, h.run = .asleep any d x y := by
  unfold Hart.sleeps
  cases h.run <;> simp

/-- A hart that has been stopped, and whether it slept then. -/
def Hart.stopped (h : Hart) : Hart := { h with run := .draining h.sleeps }

theorem State.hart?_drainRegion (s : State) (blk key : Nat) :
    (s.drainRegion blk).hart? key = (s.hart? key).map fun h => if h.blk = blk then h.stopped else h := by
  have harts : (s.drainRegion blk).harts = s.harts.map fun q => (q.1, if q.2.blk = blk then q.2.stopped else q.2) := by
    refine List.map_congr_left fun q _ => ?_
    dsimp only
    split <;> rfl
  rw [State.hart?, harts]
  exact aget_map (fun h : Hart => if h.blk = blk then h.stopped else h) s.harts key

section

variable {s : State} {blk : Nat} {l : Launch}

theorem execPreemption_victim (first : s.firstLaunch = some l) (turn : s.resumeFirst l = false) (victim : blk ∈ s.victims l) :
    execPreemption blk s = if (s.hartsOf blk).any fun q => q.2.draining || q.2.mustEnd then .next s
      else .next (s.drainRegion blk) := by
  unfold execPreemption
  simp only [first, turn, victim, Bool.false_eq_true, if_false, true_and, Bool.not_eq_true', ← Bool.not_eq_true, ite_not]

theorem execPreemption_waits (first : s.firstLaunch = some l) (turn : s.resumeFirst l = false) (victim : blk ∈ s.victims l)
    (busy : ∃ q ∈ s.harts, q.2.blk = blk ∧ mustFinish q.2) : execPreemption blk s = .next s := by
  obtain ⟨q, hq, hb, hf⟩ := busy
  rw [execPreemption_victim first turn victim, if_pos]
  exact List.any_eq_true.2 ⟨q, List.mem_filter.2 ⟨hq, decide_eq_true hb⟩, by simp [q.2.mustEnd_iff.2 hf]⟩

theorem execPreemption_stops (first : s.firstLaunch = some l) (turn : s.resumeFirst l = false) (victim : blk ∈ s.victims l)
    (idle : ∀ q ∈ s.harts, q.2.blk = blk → ¬mustFinish q.2 ∧ ∀ a, q.2.run ≠ .draining a) :
    execPreemption blk s = .next (s.drainRegion blk) := by
  rw [execPreemption_victim first turn victim, if_neg]
  intro busy
  obtain ⟨q, hq, hd⟩ := List.any_eq_true.1 busy
  obtain ⟨hq, hb⟩ := List.mem_filter.1 hq
  obtain ⟨ends, runs⟩ := idle q hq (of_decide_eq_true hb)
  rcases Bool.or_eq_true_iff.1 hd with hd | hd
  · obtain ⟨a, ha⟩ := q.2.draining_iff.1 hd
    exact runs a ha
  · exact ends (q.2.mustEnd_iff.1 hd)

end

/-- The harts of a region that is stopped drain, and no other hart changes. -/
theorem State.drainRegion_spec {s : State} {key : Nat} {h : Hart} (blk : Nat) (hh : s.hart? key = some h) :
    (h.blk ≠ blk → (s.drainRegion blk).hart? key = some h) ∧
      (h.blk = blk → ∃ a, (s.drainRegion blk).hart? key = some { h with run := .draining a } ∧
        (a = true ↔ ∃ any d x y, h.run = .asleep any d x y)) := by
  rw [State.hart?_drainRegion, hh, Option.map_some]
  exact ⟨fun other => by rw [if_neg other], fun own => ⟨h.sleeps, by rw [if_pos own]; rfl, h.sleeps_iff⟩⟩

/-! # Contexts that are saved (10 R192 to R195; 05 R107) -/

/-! ### A write leaves the numbers below it -/

/-- A machine whose memory reads the same below an address. -/
def State.sameBelow (a : Nat) (s t : State) : Prop := ∀ c n, c + n ≤ a → t.readPA c n = s.readPA c n

namespace State.sameBelow

variable {a : Nat} {o s t : State}

theorem refl (s : State) : s.sameBelow a s := fun _ _ _ => rfl

theorem trans (h : o.sameBelow a s) (g : s.sameBelow a t) : o.sameBelow a t := fun c n le => (g c n le).trans (h c n le)

theorem writePA (h : o.sameBelow a s) {pa : Nat} (b : List Byte) (le : a ≤ pa) : o.sameBelow a (s.writePA pa b) :=
  h.trans fun _ _ out => Memory.num_write_outside _ _ _ _ _ (.inl (out.trans le))

theorem setPA (h : o.sameBelow a s) {pa n x : Nat} (le : a ≤ pa) : o.sameBelow a (s.setPA pa n x) := h.writePA _ le

theorem foldl {α : Type} {f : State → α → State} (h : o.sameBelow a s) (l : List α)
    (hf : ∀ {s} x, o.sameBelow a s → o.sameBelow a (f s x)) : o.sameBelow a (l.foldl f s) := by
  induction l generalizing s with
  | nil => exact h
  | cons x t ih => exact ih (hf x h)

/-! ### The parts of a save area (10 R194, 05 R107) -/

theorem saveV {area vbytes : Nat} (le : a ≤ area + 0x8000) : ∀ (l : List VReg) {j : Nat} {s : State}, o.sameBelow a s →
    o.sameBelow a (State.saveV area vbytes j l s)
  | [], _, _, h => h
  | r :: t, j, s, h => by
    unfold State.saveV
    refine saveV le t ?_
    split
    · exact h.setPA (by omega)
    · exact h

theorem saveK {area : Nat} (le : a ≤ area + 0x1000) : ∀ (l : List KReg) {j : Nat} {s : State}, o.sameBelow a s →
    o.sameBelow a (State.saveK area j l s)
  | [], _, _, h => h
  | r :: t, j, s, h => by
    unfold State.saveK
    refine saveK le t ?_
    split
    · exact h.setPA (by omega)
    · exact h

theorem poisonWords (h : o.sameBelow a s) {pa mask : Nat} : o.sameBelow a (s.poisonWords pa mask) := h

theorem writeImages {area : Nat} (le : a ≤ area + saveImages) : ∀ (l : List SbEntry) {k : Nat} {s : State}, o.sameBelow a s →
    o.sameBelow a (State.writeImages area k l s)
  | [], _, _, h => h
  | e :: t, k, s, h => by
    unfold State.writeImages
    exact writeImages le t (((h.setPA (by omega)).setPA (by omega)).poisonWords)

end State.sameBelow

theorem Memory.write_append (c : List Byte) : ∀ (b : List Byte) (m : Memory) (a : Nat),
    m.write a (b ++ c) = (m.write a b).write (a + b.length) c
  | [], _, _ => rfl
  | x :: t, m, a => by
    rw [List.cons_append, Memory.write, Memory.write_append c t, Memory.write, List.length_cons, Nat.add_assoc, Nat.add_comm 1]

/-- A word among words that are written one after the other. -/
theorem Memory.num_write_words {w : Word} : ∀ (l : List Word) (m : Memory) (a i : Nat), l[i]? = some w →
    (m.write a (l.flatMap fun w => toBytes 8 w.toNat)).num (a + 8 * i) 8 = w.toNat
  | v :: t, m, a, 0, h => by
    obtain rfl : v = w := Option.some.inj h
    rw [List.flatMap_cons, Memory.write_append, toBytes_length]
    exact (Memory.num_write_outside _ _ _ _ _ (.inl le_rfl)).trans
      ((Memory.num_write _ _ _ _).trans (Nat.mod_eq_of_lt v.isLt))
  | v :: t, m, a, i + 1, h => by
    rw [List.flatMap_cons, Memory.write_append, toBytes_length, Nat.mul_succ, Nat.add_comm (8 * i), ← Nat.add_assoc]
    exact Memory.num_write_words t _ _ i h

theorem Hart.getX_of_pos (h : Hart) {i : Nat} (pos : 1 ≤ i) (lt : i < 32) : h.getX (BitVec.ofNat 5 i) = h.x[i] := by
  have e : (BitVec.ofNat 5 i).toNat = i := Nat.mod_eq_of_lt lt
  have ne : BitVec.ofNat 5 i ≠ 0 := fun z => by
    rw [z] at e
    exact absurd e (Nat.ne_of_lt pos)
  unfold Hart.getX
  rw [if_neg ne]
  simp only [e]
  rfl

/-- The scalar registers of a save area. -/
def State.saveX (s : State) (h : Hart) : State :=
  (s.writePA (h.area + 0x100) (h.x.toList.flatMap fun w => toBytes 8 w.toNat)).setPA (h.area + 0x100) 8 0

theorem State.sameBelow_saveX (s : State) (h : Hart) : s.sameBelow (h.area + 0x100) (s.saveX h) :=
  ((State.sameBelow.refl s).writePA _ le_rfl).setPA le_rfl

theorem State.readPA_saveX (s : State) (h : Hart) {i : Nat} (pos : 1 ≤ i) (lt : i < 32) :
    (s.saveX h).readPA (h.area + 0x100 + 8 * i) 8 = (h.getX (BitVec.ofNat 5 i)).toNat := by
  have word : h.x.toList[i]? = some (h.getX (BitVec.ofNat 5 i)) := by
    rw [h.getX_of_pos pos lt, Vector.getElem?_toList]
    exact Vector.getElem?_eq_getElem lt
  exact (State.readPA_setPA_outside _ 0 (.inr (by omega))).trans (Memory.num_write_words _ _ _ _ word)

/-- The other registers of a save area stand above the scalar ones. -/
theorem State.sameBelow_saveRegs (s : State) (h : Hart) (vbytes : Nat) :
    (s.saveX h).sameBelow (h.area + 0x200) (s.saveRegs h vbytes) := by
  have ctl : (s.saveX h).sameBelow (h.area + 0x200) (savedCtl.foldl
      (fun (s : State) c => s.setPA (h.area + 0x300 + 8 * c.num) 8 (s.readCtl h c).toNat)
      ((s.saveX h).writePA (h.area + 0x200) (h.g.toList.flatMap fun w => toBytes 16 w.toNat))) :=
    ((State.sameBelow.refl _).writePA _ le_rfl).foldl _ fun _ g => g.setPA (by omega)
  exact .saveK (by omega) _ (.saveV (by omega) _ (((ctl.writePA _ (by omega)).writePA _ (by omega)).setPA (by omega)))

theorem State.saveFail_none (s : State) {h : Hart} (core slot : Nat) (e : h.fail = none) : s.saveFail h core slot = s := by
  unfold State.saveFail
  rw [e]

/-! ### The header (10 R195) -/

/-- The pc and the sequence number end the header: its other fields stay below them. -/
theorem saveHeader_high (h : Hart) {lp sbn wait : Nat} (hostq : Nat) (fail : Bool) (pc : Word) (hl : lp ≤ 3) (hn : sbn ≤ 128)
    (hw : wait ≤ 2) : saveHeader h lp sbn hostq wait fail pc / 2 ^ 384 = pc.toNat + h.seq % 2 ^ 64 * 2 ^ 64 := by
  have hf := fail.toNat_le
  have hv := (h.v.toList.any fun r => decide (r.len ≠ 0)).toNat_le
  have hq : hostq % 65536 < 65536 := Nat.mod_lt _ (by omega)
  unfold saveHeader
  simp only [Nat.shiftLeft_eq]
  generalize (h.v.toList.any fun r => decide (r.len ≠ 0)).toNat = v at *
  generalize hostq % 65536 = n at *
  omega

theorem saveHeader_fields (h : Hart) {lp sbn wait : Nat} (hostq : Nat) (fail : Bool) (pc : Word) (hl : lp ≤ 3) (hn : sbn ≤ 128)
    (hw : wait ≤ 2) : saveHeader h lp sbn hostq wait fail pc / 2 ^ 384 % 2 ^ 64 = pc.toNat ∧
      saveHeader h lp sbn hostq wait fail pc / 2 ^ 448 % 2 ^ 64 = h.seq % 2 ^ 64 := by
  have hp := pc.isLt
  rw [show 2 ^ 448 = 2 ^ 384 * 2 ^ 64 by rw [← Nat.pow_add], ← Nat.div_div_eq_div_mul,
    saveHeader_high h hostq fail pc hl hn hw]
  omega

theorem length_insertEntry (e : SbEntry) : ∀ l, (insertEntry e l).length = l.length + 1
  | [] => rfl
  | q :: t => by
    unfold insertEntry
    split
    · rfl
    · rw [List.length_cons, length_insertEntry e t, List.length_cons]

theorem length_foldl_insertEntry : ∀ l t : List SbEntry,
    (l.foldl (fun l e => insertEntry e l) t).length = t.length + l.length
  | [], _ => rfl
  | e :: l, t => by
    rw [List.foldl_cons, length_foldl_insertEntry l, length_insertEntry, List.length_cons]
    omega

/-! ### The save of a hart in no trap -/

/-- The entries of a slot, in the order of their images (05 R107). -/
def Core.imagesOf (c : Core) (slot : Nat) : List SbEntry :=
  (c.sb.filter fun e => e.slot = slot).foldl (fun l e => insertEntry e l) []

theorem Core.length_imagesOf (c : Core) (slot : Nat) : (c.imagesOf slot).length ≤ c.sb.length := by
  unfold Core.imagesOf
  rw [length_foldl_insertEntry, List.length_nil, Nat.zero_add]
  exact List.length_filter_le _ _

/-- The header of a hart that is saved in no trap and with no failed command. -/
def State.plainHeader (s : State) (core slot : Nat) (h : Hart) (asleep : Bool) : Nat :=
  saveHeader h (s.core core).lpart ((s.core core).imagesOf slot).length 0xFFFF (if asleep then 1 else 0) false h.pc

theorem State.mem_saveHart {s : State} {core slot : Nat} {h : Hart} {asleep : Bool} (trap : h.trap = none)
    (fail : h.fail = none) : (s.saveHart core slot h asleep).mem = (State.writeImages h.area 0 ((s.core core).imagesOf slot)
      ((s.setPA h.area 64 (s.plainHeader core slot h asleep)).saveRegs h ((s.core core).vlen / 8))).mem := by
  unfold State.saveHart
  simp only [trap, fail, State.saveFail_none]
  rfl

/-- The slot of a saved hart is free, and its save area holds its header and its registers. -/
theorem State.saveHart_spec (s : State) {core slot : Nat} {h : Hart} (asleep : Bool) (trap : h.trap = none)
    (fail : h.fail = none) (entries : (s.core core).sb.length ≤ 128) (part : (s.core core).lpart ≤ 3) :
    let u := s.saveHart core slot h asleep
    u.hart? (hkey core slot) = none ∧
      (∃ q ∈ u.fe.saved, q.core = core ∧ q.slot = slot ∧ q.blk = h.blk ∧ q.area = h.area ∧ q.asleep = asleep) ∧
      (∀ i, 1 ≤ i → i < 32 → u.readPA (h.area + 0x100 + 8 * i) 8 = (h.getX (BitVec.ofNat 5 i)).toNat) ∧
      u.readPA (h.area + 48) 8 = h.pc.toNat ∧ u.readPA (h.area + 56) 8 = h.seq % 2 ^ 64 := by
  intro u
  have below : ((s.setPA h.area 64 (s.plainHeader core slot h asleep)).saveX h).sameBelow (h.area + 0x200) u := fun c n le =>
    (congrArg (fun m => Memory.num m c n) (State.mem_saveHart trap fail)).trans
      (State.sameBelow.writeImages (Nat.add_le_add_left (by decide) _) _ (State.sameBelow_saveRegs _ h _) c n le)
  have header : u.readPA h.area 64 = s.plainHeader core slot h asleep % 2 ^ (8 * 64) :=
    (below _ _ (by omega)).trans ((State.sameBelow_saveX _ h _ _ (by omega)).trans (s.readPA_setPA_same _ _ _))
  obtain ⟨pc, seq⟩ : s.plainHeader core slot h asleep / 2 ^ 384 % 2 ^ 64 = h.pc.toNat ∧
      s.plainHeader core slot h asleep / 2 ^ 448 % 2 ^ 64 = h.seq % 2 ^ 64 :=
    saveHeader_fields h _ _ _ part (((s.core core).length_imagesOf slot).trans entries) (by split <;> omega)
  refine ⟨?_, ?_, fun i pos lt => (below _ _ (by omega)).trans (State.readPA_saveX _ h pos lt), ?_, ?_⟩
  · exact (aget_adel _ _ _).trans (if_pos rfl)
  · exact ⟨_, List.mem_append_right _ List.mem_cons_self, rfl, rfl, rfl, rfl, rfl⟩
  · rw [u.readPA_field h.area (hi := 447) (lo := 384) rfl rfl (by omega), State.blkGet_eq, header, field_of_mod _ (by omega)]
    exact pc
  · rw [u.readPA_field h.area (hi := 511) (lo := 448) rfl rfl (by omega), State.blkGet_eq, header, field_of_mod _ (by omega)]
    exact seq

/-! ### CONTEXT_SAVE of a hart that has drained -/

/-- Settled follow-ons leave no command of another slot than those there were. -/
theorem Core.slot_of_mem_settleFollows {c : Core} {slot : Nat} {h : Hart} {m : Cmd}
    (hm : m ∈ (c.settleFollows slot h).1.cmds) : ∃ n ∈ c.cmds, n.slot = m.slot := by
  unfold Core.settleFollows at hm
  refine List.foldlRecOn (motive := fun acc : List Cmd × Hart => ∀ m ∈ acc.1, ∃ n ∈ c.cmds, n.slot = m.slot) c.cmds _
    (fun _ h => absurd h List.not_mem_nil) (fun acc ih n hn => ?_) m (List.mem_filter.1 hm).1
  have added (k : Cmd) (same : n.slot = k.slot) : ∀ m ∈ acc.1 ++ [k], ∃ n ∈ c.cmds, n.slot = m.slot := fun m hm =>
    (List.mem_append.1 hm).elim (ih m) fun one => ⟨n, hn, List.mem_singleton.1 one ▸ same⟩
  split
  · split
    · split
      · exact added _ rfl
      · exact added _ rfl
    · exact added _ rfl
  · exact added _ rfl

theorem Core.drained_settleFollows {c : Core} {slot : Nat} (h : Hart) (cmds : ∀ m ∈ c.cmds, m.slot ≠ slot)
    (entries : ∀ e ∈ c.sb, e.slot = slot → e.state = .reported) : (c.settleFollows slot h).1.drained slot = true := by
  have none : ∀ m ∈ (c.settleFollows slot h).1.cmds, m.slot ≠ slot := fun m hm => by
    obtain ⟨n, hn, same⟩ := Core.slot_of_mem_settleFollows hm
    exact same ▸ cmds n hn
  have reported : ∀ e ∈ (c.settleFollows slot h).1.sb, e.slot ≠ slot ∨ e.state = .reported := fun e he =>
    (em (e.slot = slot)).elim (fun own => .inr (entries e he own)) .inl
  simp only [Core.drained, Bool.and_eq_true, Bool.not_eq_true', List.any_eq_false, List.all_eq_true, decide_eq_true_eq,
    Bool.or_eq_true]
  exact ⟨none, fun e he => (reported e he).imp .inl id⟩

/-- The machine when a drained hart is saved: what the hart is owed is delivered, what its core has sent acknowledged. -/
def State.settledFor (s : State) (core slot : Nat) (h : Hart) : State :=
  let r := (s.core core).settleFollows slot h.settle
  (((s.setCore core r.1).setHart (hkey core slot) r.2).ackBypass core).ackTarget core

theorem State.core_settledFor (s : State) (core slot : Nat) (h : Hart) :
    ((s.settledFor core slot h).core core).sb = (s.core core).sb ∧
      ((s.settledFor core slot h).core core).lpart = (s.core core).lpart := by
  have settled : (s.setCore core ((s.core core).settleFollows slot h.settle).1).core core =
      ((s.core core).settleFollows slot h.settle).1 := (State.core_setCore s core core _).trans (if_pos rfl)
  have same : (s.settledFor core slot h).core core =
      { ((s.core core).settleFollows slot h.settle).1 with bypass := [], target := [] } :=
    (State.core_acks _ core).trans (congrArg (fun c : Core => { c with bypass := [], target := [] }) settled)
  rw [same]
  exact ⟨rfl, rfl⟩

section

variable {s : State} {core slot : Nat} {h : Hart} {asleep : Bool}

theorem execContextSave_saves (hh : s.hart? (hkey core slot) = some h)
    (run : h.run = .draining asleep) (trap : h.trap = none) (cmds : ∀ m ∈ (s.core core).cmds, m.slot ≠ slot)
    (entries : ∀ e ∈ (s.core core).sb, e.slot = slot → e.state = .reported) : execContextSave core slot s =
      .next ((s.settledFor core slot h).saveHart core slot ((s.core core).settleFollows slot h.settle).2 asleep) := by
  have drained := Core.drained_settleFollows h.settle cmds entries
  have calm : ¬((s.core core).sb.any fun e => e.slot = slot && e.state = .faulted) = true := fun faulted => by
    obtain ⟨e, he, both⟩ := List.any_eq_true.1 faulted
    obtain ⟨own, bad⟩ := Bool.and_eq_true_iff.1 both
    exact absurd ((entries e he (of_decide_eq_true own)).symm.trans (of_decide_eq_true bad)) (by decide)
  unfold execContextSave
  simp only [hh, run, trap, drained, Bool.not_true, Bool.or_self, Bool.false_eq_true, if_false]
  exact if_neg calm

/-- A hart that has drained and owes no trap is saved. -/
theorem contextSave_spec (hh : s.hart? (hkey core slot) = some h) (run : h.run = .draining asleep) (trap : h.trap = none)
    (fail : h.fail = none) (cmds : ∀ m ∈ (s.core core).cmds, m.slot ≠ slot)
    (entries : ∀ e ∈ (s.core core).sb, e.slot = slot → e.state = .reported) (few : (s.core core).sb.length ≤ 128)
    (part : (s.core core).lpart ≤ 3) :
    ∃ u, exec (.contextSave core slot) s = .next u ∧ u.hart? (hkey core slot) = none ∧
      (∃ q ∈ u.fe.saved, q.core = core ∧ q.slot = slot ∧ q.blk = h.blk ∧ q.area = h.area ∧ q.asleep = asleep) ∧
      (∀ i, 1 ≤ i → i < 32 → u.readPA (h.area + 0x100 + 8 * i) 8 = (h.getX (BitVec.ofNat 5 i)).toNat) ∧
      u.readPA (h.area + 48) 8 = h.pc.toNat ∧ u.readPA (h.area + 56) 8 = h.seq % 2 ^ 64 := by
  have scalars := Hart.sameScalars_trans ((s.core core).settleFollows_sameScalars slot h.settle) h.settle_sameScalars
  obtain ⟨x, -, -, -, pc, -, seq, -, blk, -, -, -, area, fail', trap', -⟩ := Hart.sameScalars_fields scalars
  obtain ⟨sb, lpart⟩ := s.core_settledFor core slot h
  have saved := (s.settledFor core slot h).saveHart_spec (slot := slot) asleep (trap'.trans trap) (fail'.trans fail)
    (sb ▸ few) (lpart ▸ part)
  simp only [Hart.getX, x, pc, seq, blk, area] at saved
  exact ⟨_, execContextSave_saves hh run trap cmds entries, saved⟩

end

/-! # Contexts that are restored (10 R196, R197; 09 R171, R172) -/

theorem State.mayResume_iff (s : State) (q : SavedHart) : s.mayResume q = true ↔ comesFirst s q := by
  have others : (!s.fe.saved.any fun p => s.resumesBefore p.blk q.blk) = true ↔
      ∀ p ∈ s.fe.saved, s.prioOf p.blk < s.prioOf q.blk ∨
        (s.prioOf p.blk = s.prioOf q.blk ∧ s.placedAt q.blk ≤ s.placedAt p.blk) := by
    rw [Bool.not_eq_true', List.any_eq_false]
    refine forall₂_congr fun p _ => ?_
    simp only [State.resumesBefore, Bool.or_eq_true, Bool.and_eq_true, decide_eq_true_eq]
    omega
  unfold State.mayResume comesFirst
  rw [Bool.and_eq_true, others]
  cases s.firstLaunch <;> simp

theorem State.resumesFirst_iff (s : State) (core slot : Nat) (q : SavedHart) :
    (decide (q.core = core) && decide (q.slot = slot) && s.mayResume q) = true ↔
      q.core = core ∧ q.slot = slot ∧ comesFirst s q := by
  rw [Bool.and_eq_true, Bool.and_eq_true, decide_eq_true_iff, decide_eq_true_iff, s.mayResume_iff, and_assoc]

section

variable {s : State} {core slot : Nat} {q : SavedHart}

theorem State.resumesFirst_none (waits : ∀ q ∈ s.fe.saved, q.core = core → q.slot = slot → ¬comesFirst s q) :
    s.resumesFirst core slot = none :=
  List.find?_eq_none.2 fun q hq p => by
    obtain ⟨hc, hs, first⟩ := (s.resumesFirst_iff core slot q).1 p
    exact waits q hq hc hs first

theorem State.resumesFirst_next (next : resumesNext s core slot q) : s.resumesFirst core slot = some q := by
  obtain ⟨hq, hc, hs, first, only⟩ := next
  cases found : s.resumesFirst core slot with
  | none => exact absurd ((s.resumesFirst_iff core slot q).2 ⟨hc, hs, first⟩) (List.find?_eq_none.1 found q hq)
  | some p =>
    have holds := List.find?_some found
    obtain ⟨pc, ps, pf⟩ := (s.resumesFirst_iff core slot p).1 holds
    rw [only p (List.mem_of_find?_eq_some found) pc ps pf]

theorem execContextRestore_none (waits : s.resumesFirst core slot = none) : execContextRestore core slot s = .next s := by
  unfold execContextRestore
  rw [waits]

theorem execContextRestore_some (first : s.resumesFirst core slot = some q) : execContextRestore core slot s =
    if (s.hart? (hkey core slot)).isSome then .next s else .next (s.restoreHart q) := by
  unfold execContextRestore
  rw [first]

end

/-! ### The restore of a hart whose header fits -/

theorem headerFits_of_fields {head lp : Nat} (version : head % 256 = 1) (part : head / 2 ^ 346 % 4 = lp)
    (size : head / 2 ^ 348 % 16 = 5 - lp) : headerFits head lp = true := by
  unfold headerFits
  simp only [fld_eq_div_mod, Bool.and_eq_true, decide_eq_true_eq]
  exact ⟨⟨by rwa [Nat.pow_zero, Nat.div_one], part⟩, size⟩

/-- The machine with a saved hart that is saved no more. -/
def State.unsaved (s : State) (q : SavedHart) : State :=
  { s with fe := { s.fe with saved := s.fe.saved.filter fun p => p ≠ q } }

section

variable {s : State} {q : SavedHart}

theorem State.restoreHart_fails {f : Requester} (fits : headerFits (s.readPA q.area 64) (s.core q.core).lpart = true)
    (failed : q.failed = some f) : s.restoreHart q = s.endDomain f.blk f.cause f.pc f.core f.slot := by
  unfold State.restoreHart
  simp only [fits, failed, Bool.not_true, Bool.false_eq_true, if_false]

theorem State.restoreHart_goes (fits : headerFits (s.readPA q.area 64) (s.core q.core).lpart = true)
    (failed : q.failed = none) (trap : q.trap = none) (images : fld (s.readPA q.area 64) 383 368 = 0) : s.restoreHart q =
      ((s.unsaved q).setCore q.core (s.core q.core)).setHart (hkey q.core q.slot)
        ((s.unsaved q).loadHart q ((s.core q.core).vlen / 8)) := by
  unfold State.restoreHart
  simp only [fits, failed, trap, images, Bool.not_true, Bool.false_eq_true, if_false]
  rfl

end

/-- What a save area gives to its hart. -/
theorem State.loadHart_spec (s : State) (q : SavedHart) (vbytes : Nat) :
    let g := s.loadHart q vbytes
    g.user = true ∧ g.run = .running ∧ g.trap = none ∧ g.blk = q.blk ∧
      g.pc = BitVec.ofNat 64 (s.readPA (q.area + 48) 8) ∧ g.seq = s.readPA (q.area + 56) 8 ∧
      ∀ i, 1 ≤ i → i < 32 → g.getX (BitVec.ofNat 5 i) = BitVec.ofNat 64 (s.readPA (q.area + 0x100 + 8 * i) 8) := by
  have pc : s.readPA (q.area + 48) 8 = fld (s.readPA q.area 64) 447 384 := s.readPA_field q.area rfl rfl (by omega)
  have seq : s.readPA (q.area + 56) 8 = fld (s.readPA q.area 64) 511 448 := s.readPA_field q.area rfl rfl (by omega)
  refine ⟨rfl, rfl, rfl, rfl, congrArg (BitVec.ofNat 64) pc.symm, seq.symm, fun i pos lt => ?_⟩
  rw [Hart.getX_of_pos _ pos lt]
  exact (Vector.getElem_ofFn lt).trans (if_neg (Nat.ne_of_gt pos))

/-- A saved hart that comes first waits for its slot; when its header fits, it ends its domain or goes on. -/
theorem contextRestore_spec {s : State} {core slot : Nat} {q : SavedHart} (next : resumesNext s core slot q) :
    (s.hart? (hkey core slot) ≠ none → exec (.contextRestore core slot) s = .next s) ∧
    (s.hart? (hkey core slot) = none →
      let head := s.readPA q.area 64
      head % 256 = 1 → head / 2 ^ 346 % 4 = (s.core core).lpart → head / 2 ^ 348 % 16 = 5 - (s.core core).lpart →
      (∀ f, q.failed = some f →
        exec (.contextRestore core slot) s = .next (s.endDomain f.blk f.cause f.pc f.core f.slot)) ∧
      (q.failed = none → q.trap = none → head / 2 ^ 368 % 2 ^ 16 = 0 →
      ∃ u g, exec (.contextRestore core slot) s = .next u ∧ u.hart? (hkey core slot) = some g ∧
        g.user = true ∧ g.run = .running ∧ g.trap = none ∧ g.blk = q.blk ∧
        g.pc = BitVec.ofNat 64 (s.readPA (q.area + 48) 8) ∧ g.seq = s.readPA (q.area + 56) 8 ∧
        (∀ i, 1 ≤ i → i < 32 → g.getX (BitVec.ofNat 5 i) = BitVec.ofNat 64 (s.readPA (q.area + 0x100 + 8 * i) 8)) ∧
        q ∉ u.fe.saved)) := by
  have run : exec (.contextRestore core slot) s =
      if (s.hart? (hkey core slot)).isSome then .next s else .next (s.restoreHart q) :=
    execContextRestore_some (State.resumesFirst_next next)
  obtain ⟨-, rfl, rfl, -, -⟩ := next
  refine ⟨fun taken => run.trans (if_pos (Option.isSome_iff_ne_none.2 taken)), fun free => ?_⟩
  intro head version part size
  have fits := headerFits_of_fields version part size
  have restores : exec (.contextRestore q.core q.slot) s = .next (s.restoreHart q) :=
    run.trans (if_neg (by rw [free]; exact Bool.false_ne_true))
  refine ⟨fun f failed => restores.trans (congrArg _ (State.restoreHart_fails fits failed)), fun failed trap images => ?_⟩
  obtain ⟨user, runs, calm, blk, pc, seq, x⟩ := (s.unsaved q).loadHart_spec q ((s.core q.core).vlen / 8)
  have goes := State.restoreHart_goes fits failed trap ((fld_eq_div_mod _ _ _).trans images)
  refine ⟨_, _, restores.trans (congrArg _ goes), (aget_aset _ _ _ _).trans (if_pos rfl), user, runs, calm, blk, pc, seq, x,
    fun left => ?_⟩
  exact of_decide_eq_true (List.mem_filter.1 left).2 rfl

/-! # The current arbiter (09 R177) -/

/-- What a core demands of its die's budget, and its weight. -/
def State.demandOf (s : State) (demand : List Nat) (c : Nat) : Demand :=
  if (s.core c).worked = 0 then { d := 0, w := 1 } else { d := demand.getD (c % 96) 0, w := (s.core c).worked }

/-- What the cores of a die demand together. -/
def State.demanded (s : State) (die : Nat) (demand : List Nat) : Nat :=
  (((s.coresOf die).map (s.demandOf demand)).map (·.d)).foldl (· + ·) 0

/-- The issue cycles of 16 that a core of a die is granted. -/
def State.granted (s : State) (die : Nat) (demand : List Nat) (c : Nat) : Nat :=
  if s.demanded die demand ≤ dieBudget then 16
  else issueCycles (s.demandOf demand c) (lambdaOf ((s.coresOf die).map (s.demandOf demand)))

/-- A core at the start of an epoch. -/
def Core.atEpoch (q : Nat) (c : Core) : Core := { c with q := q, worked := 0 }

/-- The machine whose cores have their grants. -/
def State.grantCores (s : State) (die : Nat) (demand : List Nat) : State :=
  (s.coresOf die).foldl (fun t c => t.setCore c ((t.core c).atEpoch (s.granted die demand c))) s

/-- The machine with one more throttled epoch of a die. -/
def State.countThrottled (s : State) (die : Nat) : State :=
  s.setDie die { s.die die with throttled := (s.die die).throttled + 1 }

theorem execArbiterEpoch_eq (die : Nat) (demand : List Nat) (s : State) : execArbiterEpoch die demand s =
    .next (if (s.coresOf die).any fun c => s.granted die demand c ≠ 16 then (s.grantCores die demand).countThrottled die
      else s.grantCores die demand) := rfl

theorem issueCycles_bounds (x : Demand) (l : Nat × Nat) : 8 ≤ issueCycles x l ∧ issueCycles x l ≤ 16 := by
  unfold issueCycles
  split
  · exact ⟨by omega, le_rfl⟩
  · rename_i short
    have share : 16 * x.at l.1 l.2 / (x.d * l.2) ≤ 16 := Nat.div_le_of_le_mul (by rw [Nat.mul_comm]; omega)
    omega

theorem State.granted_bounds (s : State) (die : Nat) (demand : List Nat) (c : Nat) :
    8 ≤ s.granted die demand c ∧ s.granted die demand c ≤ 16 := by
  unfold State.granted
  split
  · exact ⟨by omega, le_rfl⟩
  · exact issueCycles_bounds _ _

theorem State.granted_of_fit {s : State} {die : Nat} {demand : List Nat} (fit : s.demanded die demand ≤ dieBudget)
    (c : Nat) :
    s.granted die demand c = 16 := if_pos fit

theorem State.mem_coresOf {s : State} {die : Nat} {p : Nat × Core} (hp : p ∈ s.cores) (hd : p.1 / 96 = die) :
    p.1 ∈ s.coresOf die := List.mem_filter.2 ⟨List.mem_map_of_mem hp, decide_eq_true hd⟩

theorem State.demanded_eq_sum (s : State) (die : Nat) (demand : List Nat) : s.demanded die demand =
    ((s.cores.filter fun p => p.1 / 96 = die).map fun p =>
      if (s.core p.1).worked = 0 then 0 else demand.getD (p.1 % 96) 0).sum := by
  have each (c : Nat) : (s.demandOf demand c).d = if (s.core c).worked = 0 then 0 else demand.getD (c % 96) 0 := by
    unfold State.demandOf
    split <;> rfl
  unfold State.demanded State.coresOf
  rw [← List.sum_eq_foldl, List.map_map, List.filter_map, List.map_map]
  exact congrArg List.sum (List.map_congr_left fun p _ => each p.1)

theorem State.grantCores_same (s : State) (die : Nat) (demand : List Nat) : (s.grantCores die demand).harts = s.harts ∧
    (s.grantCores die demand).mem = s.mem ∧ (s.grantCores die demand).dies = s.dies := by
  unfold State.grantCores
  rw [State.foldl_setCore fun c => Core.atEpoch (s.granted die demand c)]
  exact ⟨rfl, rfl, rfl⟩

theorem State.core_grantCores {s : State} {die : Nat} {demand : List Nat} {c : Nat} (hc : c ∈ s.coresOf die) :
    (s.grantCores die demand).core c = (s.core c).atEpoch (s.granted die demand c) := by
  unfold State.grantCores
  rw [State.foldl_setCore fun c => Core.atEpoch (s.granted die demand c)]
  exact (aget_foldl_aset Core.reset (fun c => Core.atEpoch (s.granted die demand c)) (fun _ _ => rfl) _ _ c).trans (if_pos hc)

/-- An epoch grants the cores their shares, and changes no hart and no memory. -/
theorem arbiterEpoch_spec (s : State) (die : Nat) (demand : List Nat) : ∃ u, exec (.arbiterEpoch die demand) s = .next u ∧
    u.harts = s.harts ∧ u.mem = s.mem ∧
    (∀ p ∈ s.cores, p.1 / 96 = die → u.core p.1 = (s.core p.1).atEpoch (s.granted die demand p.1)) ∧
    (s.demanded die demand ≤ dieBudget → u.die die = s.die die) := by
  have cores : ∀ p ∈ s.cores, p.1 / 96 = die →
      (s.grantCores die demand).core p.1 = (s.core p.1).atEpoch (s.granted die demand p.1) := fun p hp hd =>
    State.core_grantCores (State.mem_coresOf hp hd)
  obtain ⟨harts, mem, dies⟩ := s.grantCores_same die demand
  have run : exec (.arbiterEpoch die demand) s = _ := execArbiterEpoch_eq die demand s
  by_cases throttled : ((s.coresOf die).any fun c => s.granted die demand c ≠ 16) = true
  · refine ⟨_, run.trans (congrArg _ (if_pos throttled)), harts, mem, cores, fun fit => ?_⟩
    obtain ⟨c, _, less⟩ := List.any_eq_true.1 throttled
    exact absurd (State.granted_of_fit fit c) (of_decide_eq_true less)
  · exact ⟨_, run.trans (congrArg _ (if_neg throttled)), harts, mem, cores,
      fun _ => congrArg (fun l => (aget l die).getD Die.reset) dies⟩

end Sys2Proof.Machine

namespace Sys2Proof

open Sys2Proof.Machine

/-- Settles O45: a victim's harts are stopped in place; a drained hart's area is followed from its header to its registers, and
read back at its restore. -/
theorem contextsMove : Obligations.ContextsMove := by
  refine ⟨fun s blk l first turn victim => ⟨execPreemption_waits first turn victim, fun idle => ?_⟩, ?_, ?_, ?_⟩
  · exact ⟨_, execPreemption_stops first turn victim idle, fun k h hh => State.drainRegion_spec blk hh⟩
  · exact fun s core slot h asleep hh run trap fail cmds entries few part =>
      contextSave_spec hh run trap fail cmds entries few part
  · exact fun s core slot waits => execContextRestore_none (State.resumesFirst_none waits)
  · exact fun s core slot q next => contextRestore_spec next

/-- Settles O46: a grant that is not 16 is at least 8, and none is below 16 when the demands fit. -/
theorem arbiterGrants : Obligations.ArbiterGrants := by
  intro s die demand
  obtain ⟨u, run, harts, mem, cores, calm⟩ := arbiterEpoch_spec s die demand
  refine ⟨u, run, harts, mem, fun p hp hd => ?_, fun sum => ?_⟩
  · obtain ⟨low, high⟩ := s.granted_bounds die demand p.1
    rw [cores p hp hd]
    exact ⟨low, high, rfl⟩
  · have fit : s.demanded die demand ≤ dieBudget := (s.demanded_eq_sum die demand).trans_le sum
    exact ⟨fun p hp hd => (congrArg Core.q (cores p hp hd)).trans (State.granted_of_fit fit p.1),
      congrArg Die.throttled (calm fit)⟩

end Sys2Proof

/-! # Traps that enter their handler, and returns from it (10 R181, R186 to R189; 14 R270) -/

namespace Sys2Proof.Machine

open Sys2Proof.Slice0

/-! ### What a trap delivers first (10 R181) -/

/-- The hart owes its registers no load and no matrix instruction. -/
def Hart.owesNothing (h : Hart) : Prop := h.loads = [] ∧ h.mats = []

theorem Hart.setGroup_pending (l : List VReg) : ∀ (h : Hart) (n : Nat),
    (h.setGroup n l).loads = h.loads ∧ (h.setGroup n l).mats = h.mats := by
  induction l with
  | nil => exact fun h n => ⟨rfl, rfl⟩
  | cons r l ih =>
    intro h n
    obtain ⟨loads, mats⟩ := ih (h.setV n r) (n + 1)
    exact ⟨loads.trans (h.setV_loads n r), mats.trans (h.setV_mats n r)⟩

theorem Hart.finishMat_loads (h : Hart) (m : PendingMat) : (h.finishMat m).loads = h.loads :=
  (h.setGroup_pending m.vals m.dst).1

theorem Hart.finishMat_mats (h : Hart) (m : PendingMat) : (h.finishMat m).mats = h.mats :=
  (h.setGroup_pending m.vals m.dst).2

theorem Hart.settleMats_loads (h : Hart) : h.settleMats.loads = h.loads :=
  List.foldlRecOn (motive := fun g : Hart => g.loads = h.loads) h.mats Hart.finishMat rfl
    fun g same m _ => (g.finishMat_loads m).trans same

theorem Hart.settle_owesNothing (h : Hart) : h.settle.owesNothing := ⟨h.settleLoads.settleMats_loads, rfl⟩

/-- Follow-ons that have issued give a hart results as its pending matrix instructions do (10 R181): what each such result
keeps, their delivery keeps. -/
theorem Core.settleFollows_keeps {p : Hart → Prop} (c : Core) (slot : Nat)
    (keeps : ∀ g m, p g → p (g.finishMat m)) {h : Hart} (start : p h) : p (c.settleFollows slot h).2 := by
  unfold Core.settleFollows
  refine foldl_snd_keeps p _ (fun acc m kept => ?_) _ _ start
  split
  · split
    · split
      · exact keeps _ _ kept
      · exact kept
    · exact kept
  · exact kept

theorem delivered_owesNothing (s : State) (h : Hart) : (delivered s h).owesNothing :=
  Core.settleFollows_keeps _ _
    (fun g m ⟨loads, mats⟩ => ⟨(g.finishMat_loads m).trans loads, (g.finishMat_mats m).trans mats⟩) h.settle_owesNothing

theorem delivered_sameScalars (s : State) (h : Hart) : (delivered s h).sameScalars h :=
  Hart.sameScalars_trans (Core.settleFollows_sameScalars _ _ _) h.settle_sameScalars

theorem Hart.sameScalars_vl {g h : Hart} (e : g.sameScalars h) : g.ctl.vl = h.ctl.vl := by
  unfold Hart.sameScalars at e
  rw [← e]

/-! ### The entry (10 R186, R187) -/

/-- The hart that enters its handler is the one to which its older instructions have delivered. -/
theorem takeTrap_me {s : State} {h : Hart} (t : FRec) (hm : s.me = some h) :
    (takeTrap t s).me = some ((delivered s h).enterTrap t h.pc) := by
  simp only [takeTrap, takeTrapAs, hm]
  exact State.me_setMe _ _

/-- A trap at an instruction of the current hart has the cause of its record, and the value that the record gives. -/
theorem takeTrap_trapped {s : State} {h : Hart} (t : FRec) (hm : s.me = some h) :
    trapped s (takeTrap t s) h t.cause (trapValue t) := by
  obtain ⟨-, memory, others⟩ := takeTrap_spec t hm
  obtain ⟨x, g, sg0, sg1, pc, user, seq, tack, blk, -, -, -, -, -, -, tvec, -⟩ :=
    Hart.sameScalars_fields (delivered_sameScalars s h)
  obtain ⟨loads, mats⟩ := delivered_owesNothing s h
  refine ⟨⟨_, takeTrap_me t hm, rfl, tvec, x, g, sg0, sg1, rfl, rfl, ?_, loads, mats, seq, tack, blk⟩, memory, others⟩
  rw [Hart.enterTrap_ctl, pc, user]

theorem execTrap_eq {s : State} {h : Hart} (hm : s.me = some h) (e : Hint) :
    exec (.trap e) s = .next (takeTrap { cause := 0x04 } s) := withHart_some _ hm

theorem execBrk_eq {s : State} {h : Hart} (hm : s.me = some h) (e : Hint) :
    exec (.brk e) s = .next (takeTrap { cause := 0x03 } s) := withHart_some _ hm

/-! ### The return (10 R188, R189) -/

/-- The privilege that a return gives is bit 0 of tstat, 0 for user mode. -/
theorem Hart.leaveTrap_eq (h : Hart) : h.leaveTrap =
    { h with user := !h.ctl.tstat.getLsbD 0, pc := h.ctl.tepc, trap := none, run := .running } := by
  have mode : decide (h.ctl.tstat.toNat % 2 = 0) = !h.ctl.tstat.getLsbD 0 := by
    rw [BitVec.getLsbD, Nat.testBit_zero, ← decide_not]
    exact decide_eq_decide.2 Nat.mod_two_ne_one.symm
  exact congrArg (fun b => { h with user := b, pc := h.ctl.tepc, trap := none, run := .running }) mode

theorem execRts_user {s : State} {h : Hart} (hm : s.me = some h) (mode : h.user = true) (e : Hint) :
    exec (.rts e) s = .next (takeTrap (privilegedTrap (.rts e)) s) :=
  (withHart_some _ hm).trans (if_pos mode)

theorem execRts_supervisor {s : State} {h : Hart} (hm : s.me = some h) (mode : h.user = false) (e : Hint) :
    exec (.rts e) s = .next (s.setMe { h.leaveTrap with seq := h.seq + 1 }) :=
  (withHart_some _ hm).trans (if_neg (ne_true_of_eq_false mode))

/-- What a trap's entry saves in tstat, a return restores. -/
theorem Hart.leaveTrap_enterTrap_user (h : Hart) (t : FRec) (recPc : Word) :
    (h.enterTrap t recPc).leaveTrap.user = h.user := by
  rw [Hart.leaveTrap_user, Hart.enterTrap_ctl]
  cases h.user <;> rfl

/-- The hart that takes a trap and returns right after its entry, with what it was owed delivered. -/
theorem execRts_takeTrap {s : State} {h : Hart} (t : FRec) (hm : s.me = some h) (e : Hint) :
    exec (.rts e) (takeTrap t s) = .next ((takeTrap t s).setMe
      { ((delivered s h).enterTrap t h.pc).leaveTrap with seq := (delivered s h).seq + 1 }) :=
  execRts_supervisor (takeTrap_me t hm) rfl e

/-- A return right after a trap's entry brings the hart back to its mode, its pc and its registers. -/
theorem trap_rts_restores {s u : State} {h : Hart} {t : FRec} {e : Hint} (hm : s.me = some h)
    (run : exec (.rts e) (takeTrap t s) = .next u) :
    ∃ g, u.me = some g ∧ g.pc = h.pc ∧ g.user = h.user ∧ g.x = h.x ∧ g.g = h.g ∧ g.sg0 = h.sg0 ∧ g.sg1 = h.sg1 ∧
      g.ctl.vstart = h.ctl.vstart ∧ g.ctl.vl = h.ctl.vl ∧ g.trap = none := by
  have same := delivered_sameScalars s h
  obtain ⟨x, g, sg0, sg1, pc, user, -, -, -, -, -, -, -, -, -, -, vstart⟩ := Hart.sameScalars_fields same
  have vl := Hart.sameScalars_vl same
  obtain rfl := Host.Outcome.next.inj ((execRts_takeTrap t hm e).symm.trans run)
  exact ⟨_, State.me_setMe _ _, pc, (Hart.leaveTrap_enterTrap_user ..).trans user, x, g, sg0, sg1, vstart, vl, rfl⟩

end Sys2Proof.Machine

namespace Sys2Proof

open Sys2Proof.Machine

/-- Settles O17: an entry is that of the hart to which its older instructions have delivered, and a return reads back the mode
and the pc that the entry saved. -/
theorem trapEntryAndReturn : Obligations.TrapEntryAndReturn := by
  refine ⟨fun s h e hm => ?_, fun s h e hm => ⟨fun mode => ?_, fun mode => ?_⟩, ?_⟩
  · exact ⟨⟨_, execTrap_eq hm e, takeTrap_trapped _ hm⟩, _, execBrk_eq hm e, takeTrap_trapped _ hm⟩
  · exact (execRts_supervisor hm mode e).trans (by rw [h.leaveTrap_eq])
  · exact ⟨_, execRts_user hm mode e, takeTrap_trapped _ hm⟩
  · rintro s t u h i e hm (rfl | rfl) entry back
    · obtain rfl := Host.Outcome.next.inj ((execTrap_eq hm e).symm.trans entry)
      exact trap_rts_restores hm back
    · obtain rfl := Host.Outcome.next.inj ((execBrk_eq hm e).symm.trans entry)
      exact trap_rts_restores hm back

end Sys2Proof

namespace Sys2Proof.Machine

open Sys2Proof.Slice0

/-! # The issue checks of the vector instructions (15 R273) -/

/-! ### What the checks find -/

/-- One of the checks fails that make an instruction illegal (15 R273 orders 1 to 4). -/
def VReq.refused (q : VReq) (g : Hart) : Prop :=
  (q.zeroStart = true ∧ g.ctl.vstart ≠ 0) ∨ q.tags = false ∨ (q.mask = true ∧ g.maskOk = false) ∨ q.round = false

theorem vcheck_refused {i : Instr} {g : Hart} {q : VReq} (h : q.refused g) : vcheck i g q = some (illegal i) := by
  unfold vcheck
  rcases h with ⟨zero, start⟩ | tags | ⟨mask, bad⟩ | round
  · rw [zero, Bool.true_and, if_pos (decide_eq_true start)]
  · simp [tags]
  · simp [mask, bad]
  · simp [round]

theorem vcheck_capacity {i : Instr} {g : Hart} {q : VReq} (h : ¬q.refused g) (hc : ¬∀ c ∈ q.caps, g.vl ≤ c) :
    vcheck i g q = some { cause := 0x12 } := by
  simp only [VReq.refused, not_or] at h
  obtain ⟨start, tags, mask, round⟩ := h
  have full : (q.caps.any fun c => decide (c < g.vl)) = true := by simpa using hc
  unfold vcheck
  rw [if_neg (by simpa using start), if_neg (by simpa using tags), if_neg (by simpa using mask),
    if_neg (by simpa using round), if_pos full]

theorem maskOk_eq_true_iff {g : Hart} : g.maskOk = true ↔ maskUsable g := by
  refine ⟨fun ok on => ?_, maskOk_of_usable⟩
  have on : g.maskOn = true := on
  rw [Hart.maskOk, on, Bool.not_true, Bool.false_or] at ok
  exact of_decide_eq_true ok

theorem checked_illegal {i : Instr} {g : Hart} {q : VReq} {s : State} {k : Out} (h : q.refused g) :
    checked (vcheck i g q) s k = .next (takeTrap (illegal i) s) := by
  rw [vcheck_refused h, checked_some]

theorem checked_capacity {i : Instr} {g : Hart} {q : VReq} {s : State} {k : Out} (h : ¬q.refused g)
    (hc : ¬∀ c ∈ q.caps, g.vl ≤ c) : checked (vcheck i g q) s k = .next (takeTrap { cause := 0x12 } s) := by
  rw [vcheck_capacity h hc, checked_some]

end Sys2Proof.Machine

namespace Sys2Proof.Slice0

open Sys2Proof.Machine

/-! ### An instruction whose issue checks are those of its form -/

/-- A form asks of the hart g what a request does. -/
structure IssueForm.Asks (c : IssueForm) (q : VReq) (g : Hart) (s : State) : Prop where
  zero : q.zeroStart = c.zero
  tags : q.tags = c.tags g
  mask : q.mask = c.masked
  round : q.round = c.round g
  room : (∀ n ∈ q.caps, g.vl ≤ n) ↔ c.room g s

theorem IssueForm.Asks.refused_iff {c : IssueForm} {q : VReq} {g : Hart} {s : State} (a : c.Asks q g s) :
    q.refused g ↔ c.illegal g := by
  unfold VReq.refused IssueForm.illegal
  rw [a.zero, a.tags, a.mask, a.round, ← maskOk_eq_true_iff, Bool.not_eq_true]

/-- An instruction makes the checks of a form before anything else. -/
def IssueForm.Guards (c : IssueForm) (i : Instr) (s : State) : Prop :=
  ∃ (q : Hart → State → VReq) (k : Hart → State → Out), (∀ g, c.Asks (q g s) g s) ∧
    exec i s = (if c.masked then withVec else withRegs) c.reads c.writes s
      fun g s => checked (vcheck i g (q g s)) s (k g s)

section
variable {c : IssueForm} {i : Instr} {s : State}

theorem IssueForm.guards_of_withVec {q : Hart → State → VReq} {k : Hart → State → Out}
    (run : exec i s = withVec c.reads c.writes s fun g s => checked (vcheck i g (q g s)) s (k g s))
    (masked : c.masked = true) (asks : ∀ g, c.Asks (q g s) g s) : c.Guards i s :=
  ⟨q, k, asks, by rw [masked]; exact run⟩

theorem IssueForm.guards_of_withRegs {q : Hart → State → VReq} {k : Hart → State → Out}
    (run : exec i s = withRegs c.reads c.writes s fun g s => checked (vcheck i g (q g s)) s (k g s))
    (masked : c.masked = false) (asks : ∀ g, c.Asks (q g s) g s) : c.Guards i s :=
  ⟨q, k, asks, by rw [masked]; exact run⟩

/-- With no register held, it makes them on the hart that has what these registers are owed. -/
theorem IssueForm.Guards.exec_eq {h : Hart} (gd : c.Guards i s) (hm : s.me = some h)
    (hu : unheld s h (c.from h) c.writes) :
    ∃ q k, c.Asks q (atRegs h (c.from h) c.writes) s ∧
      exec i s = checked (vcheck i (atRegs h (c.from h) c.writes) q) s k := by
  obtain ⟨q, k, asks, run⟩ := gd
  refine ⟨q _ s, k (atRegs h (c.from h) c.writes) s, asks _, run.trans ?_⟩
  cases masked : c.masked
  · simp only [IssueForm.from, masked, Bool.false_eq_true, if_false] at hu ⊢
    exact withRegs_at _ hm hu
  · simp only [IssueForm.from, masked, if_true] at hu ⊢
    exact withVec_at _ hm hu

/-- What fails the checks of its form is a trap (15 R273). -/
theorem IssueForm.Guards.traps {h : Hart} (gd : c.Guards i s) (hm : s.me = some h)
    (hu : unheld s h (c.from h) c.writes) :
    let g := atRegs h (c.from h) c.writes
    (c.illegal g → ∃ t, exec i s = .next t ∧ trapped s t h 0x01 (BitVec.ofNat 64 (encode i).toNat)) ∧
    (¬c.illegal g → ¬c.room g s → ∃ t, exec i s = .next t ∧ trapped s t h 0x12 0) := by
  obtain ⟨q, k, asks, run⟩ := gd.exec_eq hm hu
  refine ⟨fun bad => ?_, fun legal full => ?_⟩
  · exact ⟨_, run.trans (checked_illegal (asks.refused_iff.2 bad)), takeTrap_trapped _ hm⟩
  · have legal := mt asks.refused_iff.1 legal
    exact ⟨_, run.trans (checked_capacity legal (mt asks.room.1 full)), takeTrap_trapped _ hm⟩

end

/-! ### The instructions of each shape -/

theorem exec_codeForm {i : Instr} {c : CodeForm} (hi : codeForm i = some c) (s : State) :
    ∃ f, exec i s = codes i c.d c.srcs c.zero c.tags f s := by
  unfold codeForm at hi
  split at hi <;> cases hi <;> exact ⟨_, rfl⟩

theorem exec_arithForm {i : Instr} {c : ArithForm} (hi : arithForm i = some c) (s : State) :
    exec i s = arith i c.tags c.r c.d c.srcs c.op s := by
  unfold arithForm at hi
  split at hi <;> cases hi <;> rfl

theorem exec_specialForm {i : Instr} {c : SpecialForm} (hi : specialForm i = some c) (s : State) :
    exec i s = special i c.r c.d c.a c.f s := by
  unfold specialForm at hi
  split at hi <;> cases hi <;> rfl

theorem exec_reduceForm {i : Instr} {c : ReduceForm} (hi : reduceForm i = some c) (s : State) :
    ∃ bad, exec i s = reduction i c.tags c.r c.start c.d c.srcs c.f bad s := by
  unfold reduceForm at hi
  split at hi <;> cases hi <;> exact ⟨_, rfl⟩

theorem exec_vamoForm {i : Instr} {c : VamoForm} (hi : vamoForm i = some c) (s : State) :
    ∃ f, exec i s = vamo i c.ok f c.sc c.o c.g c.b c.d s := by
  unfold vamoForm at hi
  split at hi <;> cases hi
  · exact ⟨_, show execVamoadd _ _ _ _ _ s = _ from rfl⟩
  · exact ⟨_, show execVamomin _ _ _ _ _ s = _ from rfl⟩
  · exact ⟨_, show execVamomax _ _ _ _ _ s = _ from rfl⟩
  · exact ⟨_, show execVamoand _ _ _ _ _ s = _ from rfl⟩
  · exact ⟨_, show execVamoor _ _ _ _ _ s = _ from rfl⟩
  · exact ⟨_, show execVamoxor _ _ _ _ _ s = _ from rfl⟩
  · exact ⟨_, show execVamoswp _ _ _ _ _ s = _ from rfl⟩
  · exact ⟨_, show execVamofadd _ _ _ _ _ s = _ from rfl⟩

/-! ### The checks of each shape -/

/-- vl fits the registers that an instruction indexes exactly when it is above none of their capacities. -/
theorem caps_fit {g : Hart} {s : State} {regs : List Nat} : (∀ n ∈ g.caps s regs, g.vl ≤ n) ↔ fits g s regs :=
  List.forall_mem_map

/-- The checks of an instruction that moves codes are those of a form that takes the mask and does not round. -/
theorem codeReq_asks {reads writes idx : List VIx} {zero : Bool} {tags : Hart → Bool} {g : Hart} {s : State} :
    (plainForm reads writes idx zero tags).Asks (codeReq zero (tags g) (g.caps s (idx.map BitVec.toNat))) g s :=
  ⟨rfl, rfl, rfl, rfl, caps_fit⟩

/-- A shift of a register as one bit string does not take the mask (15 R281). -/
theorem bitString_guards {i : Instr} {both : Bool} {d a : VIx} {b : XIx} {f : Nat → Nat → Nat → Nat → Nat} {s : State}
    (run : exec i s = bitString i both d a b f s) :
    { plainForm (if both then [a, d] else [a]) [d] [d, a] true (same [d, a]) with masked := false }.Guards i s := by
  cases both <;> exact IssueForm.guards_of_withRegs run rfl fun g => ⟨rfl, rfl, rfl, rfl, caps_fit⟩

theorem logicIssue_guards {i : Instr} {c : IssueForm} (hi : logicIssue i = some c) (s : State) : c.Guards i s := by
  unfold logicIssue at hi
  split at hi <;> cases hi
  case h_10 => exact bitString_guards (both := false) (show execVwsl _ _ _ _ s = _ from rfl)
  case h_11 => exact bitString_guards (both := false) (show execVwsr _ _ _ _ s = _ from rfl)
  case h_12 => exact bitString_guards (both := true) (show execVfsl _ _ _ _ s = _ from rfl)
  case h_13 => exact bitString_guards (both := true) (show execVfsr _ _ _ _ s = _ from rfl)
  all_goals exact IssueForm.guards_of_withVec rfl rfl fun g => codeReq_asks

/-! ### The conversions -/

theorem isInt_tagAt (g : Hart) (n : Nat) : (g.tagAt n).isInt = g.intTag n := by
  unfold Hart.tagAt Hart.intTag
  cases g.tag n <;> rfl

theorem fieldDesc_isSome (g : Hart) (b : XIx) (w : Nat) (pack : Bool) :
    (fieldDesc (g.getX b) w pack).isSome = fieldOk g b w pack := by
  have high : fld (g.getX b).toNat 63 24 = (g.getX b).toNat / 2 ^ 24 := by
    have := (g.getX b).isLt
    rw [fld_eq_div_mod]
    omega
  unfold fieldDesc fieldOk
  simp only [high, apply_ite Option.isSome, Option.isSome_none, Option.isSome_some, bit]
  grind

theorem tag_eq_f32_iff {g : Hart} {n : Nat} :
    g.tag n = some { fmt := .f32, scale := none } ↔ (g.getV n).tag = 0x0A := by
  unfold Hart.tag
  generalize (g.getV n).tag = t
  revert t
  decide

theorem tagIs_true (t : Option Tag) : tagIs t (fun _ => true) = t.isSome := by cases t <;> rfl

/-- The bytes of the window that a form of KMOV takes from a scale register end at 256. -/
theorem window_fits {g : Hart} {s : State} {n : Nat} {m : BitVec 2} :
    (∀ k ∈ (256 - 64 * m.toNat) :: g.caps s [n], g.vl ≤ k) ↔
      fits g s [n] ∧ g.ctl.vl.toNat % 2 ^ 32 + 64 * m.toNat ≤ 256 := by
  have := m.isLt
  rw [List.forall_mem_cons, caps_fit, and_comm, Hart.vl]
  refine and_congr_right fun _ => ?_
  omega

theorem convertIssue_guards {i : Instr} {c : IssueForm} {s : State} {h : Hart} (hm : s.me = some h)
    (hi : convertIssue s h i = some c) : c.Guards i s := by
  unfold convertIssue at hi
  split at hi <;> cases hi
  case h_1 =>
    exact IssueForm.guards_of_withVec rfl rfl fun g =>
      ⟨rfl, rfl, rfl, by simp only [isInt_tagAt, Bool.and_comm]; rfl, caps_fit⟩
  case h_2 | h_3 => exact IssueForm.guards_of_withVec rfl rfl fun g => ⟨rfl, rfl, rfl, rfl, caps_fit⟩
  case h_4 =>
    exact IssueForm.guards_of_withVec rfl rfl fun g => ⟨rfl, congrArg₂ (· && ·)
      (congrArg₂ (· && ·) (decide_eq_decide.2 tag_eq_f32_iff) (decide_eq_decide.2 tag_eq_f32_iff)) rfl, rfl, rfl, caps_fit⟩
  case h_5 | h_6 =>
    exact IssueForm.guards_of_withVec rfl rfl fun g =>
      ⟨rfl, congrArg (_ && ·) (fieldDesc_isSome ..), rfl, rfl, caps_fit⟩
  case h_7 =>
    refine IssueForm.guards_of_withVec (withHart_some _ hm) rfl fun g => ⟨rfl, ?_, rfl, rfl, caps_fit⟩
    exact (Bool.and_right_comm ..).trans (congrArg (fun b => g.intTag _ && b && _ && _) (tagIs_true _))
  case h_8 | h_9 => exact IssueForm.guards_of_withVec rfl rfl fun g => codeReq_asks
  case h_10 | h_11 => exact IssueForm.guards_of_withVec rfl rfl fun g => ⟨rfl, rfl, rfl, rfl, window_fits⟩

/-! ### The memory forms -/

theorem tagIs_and (t : Option Tag) (p q : Tag → Bool) : tagIs t (fun t => p t && q t) = (tagIs t p && tagIs t q) := by
  cases t <;> rfl

theorem tagsOk_unit (g : Hart) (d : VIx) : Walk.unit.tagsOk g d = isElement d g :=
  (Bool.and_true _).trans (congrArg (tagIs _) (funext fun _ => Bool.and_true _))

theorem tagsOk_stride (g : Hart) (d : VIx) : Walk.stride.tagsOk g d = isBytes d g := Bool.and_true _

theorem memoryIssue_guards {i : Instr} {c : IssueForm} (hi : memoryIssue i = some c) (s : State) : c.Guards i s := by
  unfold memoryIssue at hi
  split at hi
  case h_16 =>
    obtain ⟨v, hv, rfl⟩ := Option.map_eq_some_iff.1 hi
    obtain ⟨f, run⟩ := exec_vamoForm hv s
    exact IssueForm.guards_of_withVec run rfl fun g => codeReq_asks
  all_goals cases hi
  case h_1 | h_2 | h_6 => exact IssueForm.guards_of_withVec rfl rfl fun g => ⟨rfl, tagsOk_unit g _, rfl, rfl, caps_fit⟩
  case h_3 | h_7 => exact IssueForm.guards_of_withVec rfl rfl fun g => ⟨rfl, tagsOk_stride g _, rfl, rfl, caps_fit⟩
  case h_15 =>
    exact IssueForm.guards_of_withRegs (show execSxdrn _ _ _ s = _ from rfl) rfl fun g =>
      ⟨rfl, congrArg (· && _) ((tagIs_and ..).trans (Bool.and_comm ..)), rfl, rfl, caps_fit⟩
  all_goals exact IssueForm.guards_of_withVec rfl rfl fun g => codeReq_asks

/-! ### Every form -/

theorem issueForm_guards {i : Instr} {c : IssueForm} {s : State} {h : Hart} (hm : s.me = some h)
    (hi : issueForm s h i = some c) : c.Guards i s := by
  obtain ⟨o, mem, rfl⟩ := List.exists_of_findSome?_eq_some hi
  simp only [List.mem_cons, List.not_mem_nil, or_false] at mem
  rcases mem with code | arith | special | reduce | logic | convert | memory
  · obtain ⟨k, hk, rfl⟩ := Option.map_eq_some_iff.1 code.symm
    obtain ⟨f, run⟩ := exec_codeForm hk s
    exact IssueForm.guards_of_withVec run rfl fun g => codeReq_asks
  · obtain ⟨k, hk, rfl⟩ := Option.map_eq_some_iff.1 arith.symm
    exact IssueForm.guards_of_withVec (exec_arithForm hk s) rfl fun g =>
      ⟨rfl, congrArg (k.tags.ok _) List.map_map, rfl, rfl, caps_fit⟩
  · obtain ⟨k, hk, rfl⟩ := Option.map_eq_some_iff.1 special.symm
    exact IssueForm.guards_of_withVec (exec_specialForm hk s) rfl fun g =>
      ⟨rfl, rfl, rfl, rfl, caps_fit (regs := [_, _])⟩
  · obtain ⟨k, hk, rfl⟩ := Option.map_eq_some_iff.1 reduce.symm
    obtain ⟨bad, run⟩ := exec_reduceForm hk s
    exact IssueForm.guards_of_withVec run rfl fun g => ⟨rfl, congrArg (k.tags.ok _) List.map_map, rfl, rfl, caps_fit⟩
  · exact logicIssue_guards logic.symm s
  · exact convertIssue_guards hm convert.symm
  · exact memoryIssue_guards memory.symm s

/-! ### The arithmetic trap (11 R226) -/

theorem enables_eq (g : Hart) : g.trapEnables = enables g := fld_eq_div_mod _ _ _

/-- The active elements rise. -/
theorem actives_pairwise (g : Hart) : g.actives.Pairwise (· < ·) := List.pairwise_lt_range.filter _

/-- In a list that rises, the lowest element with a property is the one that a search finds. -/
theorem find?_eq_lowest {l : List Nat} {p : Nat → Bool} {e : Nat} (hl : l.Pairwise (· < ·)) (he : e ∈ l)
    (hp : p e = true) (low : ∀ k ∈ l, k < e → p k = false) : l.find? p = some e := by
  obtain ⟨before, after, rfl⟩ := List.append_of_mem he
  refine List.find?_eq_some_iff_append.2 ⟨hp, before, after, rfl, fun k hk => ?_⟩
  have below : k < e := (List.pairwise_append.1 hl).2.2 k hk e List.mem_cons_self
  simp [low k (List.mem_append_left _ hk) below]

/-- An element-wise instruction traps at the lowest active element that raises an enabled flag. -/
theorem elementwise_trap {d w : Nat} {f : Nat → ERes} {g : Hart} (s : State) {e : Nat} (he : e ∈ g.actives)
    (raises : (f e).flags &&& enables g ≠ 0) (low : ∀ k ∈ g.actives, k < e → (f k).flags &&& enables g = 0) :
    elementwise d w f g s = .next (takeTrap { cause := 0x14, elem := e } s) := by
  refine deliverElems_trap (e := (e, f e)) s ?_
  rw [List.find?_map, enables_eq, find?_eq_lowest (actives_pairwise g) he]
  · rfl
  · simpa using raises
  · simpa using low

/-- A hart that its older instructions owe nothing has nothing delivered. -/
theorem delivered_idle {s : State} {h : Hart} (hl : h.loads = []) (hm : h.mats = []) (hc : (s.core s.myCore).cmds = []) :
    delivered s h = h := by
  have settled : h.settle = h := by
    obtain ⟨⟩ := h
    cases hl
    cases hm
    rfl
  unfold delivered Core.settleFollows
  rw [settled, hc]
  rfl

/-- The trap leaves the vector registers, the flags and vstart of such a hart. -/
theorem takeTrap_idle {s : State} {h : Hart} (t : FRec) (hm : s.me = some h) (hl : h.loads = []) (hmats : h.mats = [])
    (hc : (s.core s.myCore).cmds = []) :
    ∃ q, (takeTrap t s).me = some q ∧ q.v = h.v ∧ q.ctl.fflags = h.ctl.fflags ∧ q.ctl.vstart = h.ctl.vstart := by
  refine ⟨_, takeTrap_me t hm, ?_⟩
  rw [delivered_idle hl hmats hc]
  exact ⟨rfl, rfl, rfl⟩

/-- Arithmetic that its form allows passes its checks. -/
theorem vcheck_arithReq {i : Instr} {c : ArithForm} {g : Hart} {s : State} (ha : c.allowed g) (hm : maskUsable g)
    (hf : fits g s (c.d.toNat :: c.srcs.map BitVec.toNat)) :
    vcheck i g (arithReq c.tags c.r c.d.toNat (c.srcs.map BitVec.toNat) g s) = none := by
  obtain ⟨tags, round⟩ := ha
  refine vcheck_none.2 ⟨fun h => (nomatch h), ?_, fun _ => maskOk_of_usable hm, ?_, vl_le_caps hf⟩
  · exact (congrArg (c.tags.ok _) List.map_map).trans tags
  · simpa [arithReq, or_assoc] using round

theorem arithmeticTrapTaken : ArithmeticTrapTaken := by
  intro i c s h e hi hm hu g ha mask hf he raises low
  have run : exec i s = .next (takeTrap { cause := 0x14, elem := e } s) := by
    rw [exec_arithForm hi, arith, withVec_at _ hm hu, vcheck_arithReq ha mask hf, checked_none]
    exact elementwise_trap s he raises low
  exact ⟨run, _, run, takeTrap_trapped _ hm, takeTrap_idle _ hm⟩

theorem vectorIssueChecksTrap : VectorIssueChecksTrap :=
  fun _ _ _ _ hi hm hu => (issueForm_guards hm hi).traps hm hu

end Sys2Proof.Slice0

namespace Sys2Proof

/-- Settles O57: an instruction that has a form makes the form's checks before anything else, on the hart that has what its
registers are owed, and the search for a trapping element finds the lowest, since the active elements rise. -/
theorem vectorTraps : Obligations.VectorTraps := ⟨Slice0.arithmeticTrapTaken, Slice0.vectorIssueChecksTrap⟩

end Sys2Proof


namespace Sys2Proof

open Sys2Proof.Laws

/-! # Words of 32 bits, their fields and what they decode to (12 R231 to R238) -/


/-! ### What the fields of a word of each format hold -/

theorem encR_fields {op d a b f : Nat} {h : Hint} (ho : op < 128) (hd : d < 64) (ha : a < 64) (hb : b < 64)
    (hf : f < 32) : encR op d a b f h % 2 ^ 32 = encR op d a b f h ∧ encR op d a b f h % 128 = op ∧
      fieldD (encR op d a b f h) = d ∧ fieldA (encR op d a b f h) = a ∧ fieldB (encR op d a b f h) = b ∧
      fieldF (encR op d a b f h) = f ∧ fieldH (encR op d a b f h) = h ∧
      wordField (encR op d a b f h) 26 25 = f % 4 ∧ wordField (encR op d a b f h) 29 27 = f / 4 := by
  have := h.isLt
  refine ⟨Nat.mod_eq_of_lt (encR_lt ho hd ha hb hf), ?_⟩
  simp only [fieldD, fieldA, fieldB, fieldF, fieldH, wordField, encR, ← BitVec.toNat_inj, BitVec.toNat_ofNat]
  omega

theorem encI_fields {op d a imm : Nat} (ho : op < 128) (hd : d < 64) (ha : a < 64) (hi : imm < 2 ^ 13) :
    encI op d a imm % 2 ^ 32 = encI op d a imm ∧ encI op d a imm % 128 = op ∧ fieldD (encI op d a imm) = d ∧
      fieldA (encI op d a imm) = a ∧ wordField (encI op d a imm) 31 19 = imm ∧
      fieldB (encI op d a imm) = imm % 64 ∧ wordField (encI op d a imm) 31 25 = imm / 64 ∧
      wordField (encI op d a imm) 23 19 = imm % 32 ∧ wordField (encI op d a imm) 31 24 = imm / 32 ∧
      wordField (encI op d a imm) 26 19 = imm % 256 ∧ wordField (encI op d a imm) 31 27 = imm / 256 := by
  refine ⟨Nat.mod_eq_of_lt (encI_lt ho hd ha hi), ?_⟩
  simp only [fieldD, fieldA, fieldB, wordField, encI]
  omega

theorem encU_fields {op d imm : Nat} (ho : op < 128) (hd : d < 64) (hi : imm < 2 ^ 19) :
    encU op d imm % 2 ^ 32 = encU op d imm ∧ encU op d imm % 128 = op ∧ fieldD (encU op d imm) = d ∧
      wordField (encU op d imm) 31 13 = imm := by
  refine ⟨Nat.mod_eq_of_lt (encU_lt ho hd hi), ?_⟩
  simp only [fieldD, wordField, encU]
  omega

theorem encM_fields {op d base g o off : Nat} (ho : op < 128) (hd : d < 64) (hb : base < 32) (hg : g < 16) (hr : o < 4)
    (hf : off < 256) : encM op d base g o off % 2 ^ 32 = encM op d base g o off ∧ encM op d base g o off % 128 = op ∧
      fieldD (encM op d base g o off) = d ∧ wordField (encM op d base g o off) 17 13 = base ∧
      wordField (encM op d base g o off) 21 18 = g ∧ wordField (encM op d base g o off) 23 22 = o ∧
      wordField (encM op d base g o off) 31 24 = off := by
  refine ⟨Nat.mod_eq_of_lt (encM_lt ho hd hb hg hr hf), ?_⟩
  simp only [fieldD, wordField, encM]
  omega

theorem encT_fields {op d a b df asp bsp z : Nat} {h : Hint} (ho : op < 128) (hd : d < 64) (ha : a < 64) (hb : b < 64)
    (hf : df < 4) (hp : asp < 2) (hq : bsp < 2) (hz : z < 2) :
    encT op d a b df asp bsp z h % 2 ^ 32 = encT op d a b df asp bsp z h ∧
      encT op d a b df asp bsp z h % 128 = op ∧ fieldD (encT op d a b df asp bsp z h) = d ∧
      fieldA (encT op d a b df asp bsp z h) = a ∧ fieldB (encT op d a b df asp bsp z h) = b ∧
      wordField (encT op d a b df asp bsp z h) 26 25 = df ∧ wordField (encT op d a b df asp bsp z h) 27 27 = asp ∧
      wordField (encT op d a b df asp bsp z h) 28 28 = bsp ∧ wordField (encT op d a b df asp bsp z h) 29 29 = z ∧
      fieldH (encT op d a b df asp bsp z h) = h := by
  have := h.isLt
  refine ⟨Nat.mod_eq_of_lt (encT_lt ho hd ha hb hf hp hq hz), ?_⟩
  simp only [fieldD, fieldA, fieldB, fieldH, wordField, encT, ← BitVec.toNat_inj, BitVec.toNat_ofNat]
  omega

/-! ### A word of 32 bits is what its fields build -/

section
variable {w op d a b f imm g o off df asp bsp z : Nat} (hw : w < 2 ^ 32) (ho : w % 128 = op)
include hw ho

theorem encR_of_fields (hf : fieldF w = f) (hd : fieldD w = d) (ha : fieldA w = a) (hb : fieldB w = b) :
    encR op d a b f (fieldH w) = w := by
  subst ho hf hd ha hb
  simp only [fieldD, fieldA, fieldB, fieldF, fieldH, wordField, encR, BitVec.toNat_ofNat]
  omega

theorem encI_of_fields (hd : fieldD w = d) (ha : fieldA w = a) (hi : wordField w 31 19 = imm) :
    encI op d a imm = w := by
  subst ho hd ha hi
  simp only [fieldD, fieldA, wordField, encI]
  omega

theorem encU_of_fields (hd : fieldD w = d) (hi : wordField w 31 13 = imm) : encU op d imm = w := by
  subst ho hd hi
  simp only [fieldD, wordField, encU]
  omega

theorem encM_of_fields (hd : fieldD w = d) (hb : wordField w 17 13 = b) (hg : wordField w 21 18 = g)
    (hr : wordField w 23 22 = o) (hf : wordField w 31 24 = off) : encM op d b g o off = w := by
  subst ho hd hb hg hr hf
  simp only [fieldD, wordField, encM]
  omega

theorem encT_of_fields (hd : fieldD w = d) (ha : fieldA w = a) (hb : fieldB w = b) (hf : wordField w 26 25 = df)
    (hp : wordField w 27 27 = asp) (hq : wordField w 28 28 = bsp) (hz : wordField w 29 29 = z) :
    encT op d a b df asp bsp z (fieldH w) = w := by
  subst ho hd ha hb hf hp hq hz
  simp only [fieldD, fieldA, fieldB, fieldH, wordField, encT, BitVec.toNat_ofNat]
  omega

end

/-! ### The width of a field -/

theorem wordField_lt (w hi lo : Nat) : wordField w hi lo < 2 ^ (hi + 1 - lo) := Nat.mod_lt _ (Nat.two_pow_pos _)

/-- A field of n bits is the number of the bit vector of n bits that it names. -/
theorem wordField_toNat {w hi lo n : Nat} (h : hi + 1 - lo = n) :
    wordField w hi lo = (BitVec.ofNat n (wordField w hi lo)).toNat := by
  subst h
  exact (Nat.mod_eq_of_lt (wordField_lt w hi lo)).symm

@[simp] theorem toNat_vreg_fieldD (w : Nat) : (vreg (fieldD w)).toNat = fieldD w := (wordField_toNat rfl).symm
@[simp] theorem toNat_vreg_fieldA (w : Nat) : (vreg (fieldA w)).toNat = fieldA w := (wordField_toNat rfl).symm
@[simp] theorem toNat_vreg_fieldB (w : Nat) : (vreg (fieldB w)).toNat = fieldB w := (wordField_toNat rfl).symm

/-! ### The checks of a field (12 R238). The number of a register and the code of a suffix name it alone -/

theorem evenNum_iff {n : Nat} (r : BitVec n) : evenNum r = true ↔ r.toNat % 2 = 0 := beq_iff_eq

theorem xreg_eq_ok {n : Nat} {r : XIx} : xreg n = .ok r ↔ n = r.toNat := by
  have := r.isLt
  unfold xreg
  split <;> simp [← BitVec.toNat_inj] <;> omega

theorem kreg_eq_ok {n : Nat} {r : BitVec 4} : kreg n = .ok r ↔ n = r.toNat := by
  have := r.isLt
  unfold kreg
  split <;> simp [← BitVec.toNat_inj] <;> omega

theorem xpair_eq_ok {n : Nat} {r : XIx} : xpair n = .ok r ↔ n = r.toNat ∧ evenNum r = true := by
  have := r.isLt
  rw [evenNum_iff]
  unfold xpair
  split <;> simp_all [← BitVec.toNat_inj] <;> omega

theorem mustBeZero_eq_ok {n : Nat} {u : Unit} : mustBeZero n = .ok u ↔ n = 0 := by
  unfold mustBeZero
  split <;> simp [*]

theorem rowOnly_eq_ok {n : Nat} {u : Unit} : rowOnly n = .ok u ↔ n = 0 := by
  unfold rowOnly
  split <;> simp [*]

theorem orientOf_eq_ok {n : Nat} {o : Orient} : orientOf n = .ok o ↔ n = o.code := by
  unfold orientOf
  cases o <;> grind [Orient.code]

theorem orderOf_eq_ok {n : Nat} {o : Order} : orderOf n = .ok o ↔ n = o.code := by
  unfold orderOf
  cases o <;> grind [Order.code]

theorem scopeOf_eq_ok {n : Nat} {a : Scope} : scopeOf n = .ok a ↔ n = a.code := by
  unfold scopeOf
  cases a <;> grind [Scope.code]

theorem fenceKindOf_eq_ok {n : Nat} {k : FenceKind} : fenceKindOf n = .ok k ↔ n = k.code := by
  unfold fenceKindOf
  cases k <;> grind [FenceKind.code]

theorem flowOf_eq_ok {n : Nat} {f : Flow} : flowOf n = .ok f ↔ n = f.code := by
  unfold flowOf
  cases f <;> grind [Flow.code]

theorem condOf_eq_ok {n : Nat} {c : Cond} : condOf n = .ok c ↔ n = c.code := by
  unfold condOf
  cases c <;> grind [Cond.code]

theorem cregOf_eq_ok {n : Nat} {c : CReg} : cregOf n = .ok c ↔ n = c.num := by
  unfold cregOf
  cases c <;> grind [CReg.num]

theorem matOpOf_eq_ok {sp n : Nat} {a : MatOp} (hs : sp < 2) (hn : n < 64) :
    matOpOf sp n = .ok a ↔ sp = a.spBit ∧ n = a.field ∧ a.wf = true := by
  unfold matOpOf
  split
  case isTrue reg =>
    cases a with
    | reg v =>
      have := v.isLt
      simp only [MatOp.spBit, MatOp.field, MatOp.wf, vreg, Except.ok.injEq, MatOp.reg.injEq, ← BitVec.toNat_inj,
        BitVec.toNat_ofNat, reg, true_and, and_true]
      omega
    | sp x => simp [MatOp.spBit, reg]
  case isFalse tile =>
    cases a with
    | reg v => cases h : xpair n <;> simp [MatOp.spBit, tile, Except.map]
    | sp x =>
      have even := xpair_eq_ok (n := n) (r := x)
      cases h : xpair n <;> simp_all [MatOp.spBit, MatOp.field, MatOp.wf, Except.map]
      omega

theorem halfOf_code {n : Nat} (h : n < 2) : (halfOf n).code = n := by
  unfold halfOf
  split <;> simp only [Half.code] <;> omega

theorem ascopeOf_code {n : Nat} (h : n < 4) : (ascopeOf n).code = n := by
  interval_cases n <;> rfl

theorem rcodeOf_code {n : Nat} (h : n < 7) : (rcodeOf n).code = n := by
  interval_cases n <;> rfl

theorem bit_eq_toNat_beq {n : Nat} (h : n < 2) : n = (n == 1).toNat := by
  interval_cases n <;> rfl

/-! ### Results of decoding -/

theorem bind_eq_ok {ε α β : Type} {x : Except ε α} {f : α → Except ε β} {b : β} :
    (x >>= f) = .ok b ↔ ∃ a, x = .ok a ∧ f a = .ok b := by
  cases x with
  | error e => exact ⟨fun h => (nomatch h), fun ⟨_, h, _⟩ => (nomatch h)⟩
  | ok a => exact ⟨fun h => ⟨a, rfl, h⟩, fun ⟨_, e, h⟩ => by cases e; exact h⟩

theorem pure_eq_ok {ε α : Type} {a b : α} : (pure a : Except ε α) = .ok b ↔ a = b := Except.ok.injEq a b ▸ Iff.rfl

/-! ### Scalar atomics (12 R233) -/

/-- The atomic of a code of R233. -/
def amoOf (op : Nat) (loc : AmoLoc) (w : AmoWidth) (base d : XIx) : Instr :=
  match op with
  | 0 => .amoadd loc w base d
  | 1 => .amoand loc w base d
  | 2 => .amoor loc w base d
  | 3 => .amoxor loc w base d
  | 4 => .amomin loc w base d
  | 5 => .amomax loc w base d
  | 6 => .amominn loc w base d
  | 7 => .amomaxn loc w base d
  | 8 => .amoswp loc w base d
  | 9 => .amocas loc w base d
  | _ => .amofadd loc w base d

/-- The width that a bit selects. -/
def amoWidthOf (n : Nat) : AmoWidth := if n = 0 then .w64 else .w32

/-- The bit of a width. -/
def amoWidthBit : AmoWidth → Nat
  | .w64 => 0
  | .w32 => 1

theorem amoWidthOf_bit {n : Nat} (h : n < 2) : amoWidthBit (amoWidthOf n) = n := by
  interval_cases n <;> rfl

theorem encAmo_mem (sc : AScope) (o : Orient) (g : GIx) (w : AmoWidth) (base d : XIx) (op : Nat) :
    encAmo (.mem sc o g) w base d op =
      encM 0x1B d.toNat base.toNat g.toNat o.code (op + sc.code * 2 ^ 4 + amoWidthBit w * 2 ^ 6) := by
  cases w <;> rfl

theorem encAmo_sp (w : AmoWidth) (base d : XIx) (op : Nat) :
    encAmo .sp w base d op = encM 0x1B d.toNat base.toNat 0 0 (op + amoWidthBit w * 2 ^ 6 + 2 ^ 7) := by
  cases w <;> rfl

/-- The location that a word's sp, scope, O and g fields name. -/
def amoLocOf (w : Nat) : Except DecodeError AmoLoc :=
  if wordField w 31 31 = 1 then do
    mustBeZero (wordField w 21 18); mustBeZero (wordField w 23 22); mustBeZero (wordField w 29 28)
    pure .sp
  else do
    let o ← orientOf (wordField w 23 22)
    pure (.mem (ascopeOf (wordField w 29 28)) o (BitVec.ofNat 4 (wordField w 21 18)))

theorem decodeAmo_eq (w : Nat) : decodeAmo w =
    if 11 ≤ wordField w 27 24 then .error .functionUnassigned
    else (do
      let d ← (if wordField w 27 24 = 9 then xpair (fieldD w) else xreg (fieldD w))
      let loc ← amoLocOf w
      pure (amoOf (wordField w 27 24) loc (amoWidthOf (wordField w 30 30)) (BitVec.ofNat 5 (wordField w 17 13)) d))
        := by
  unfold decodeAmo amoLocOf
  dsimp only
  by_cases high : 11 ≤ wordField w 27 24
  · rw [if_pos high, if_pos high]
    rfl
  · rw [if_neg high, if_neg high]
    have assigned : wordField w 27 24 < 11 := Nat.lt_of_not_le high
    generalize wordField w 27 24 = op at assigned
    by_cases sp : wordField w 31 31 = 1 <;> interval_cases op <;>
      (simp only [sp, ↓reduceIte, bind_assoc, pure_bind, Nat.reduceEqDiff]; rfl)

theorem amoOf_word {op : Nat} (h : op < 11) (loc : AmoLoc) (w : AmoWidth) (base d : XIx) :
    encodeNat (amoOf op loc w base d) = encAmo loc w base d op ∧ (amoOf op loc w base d).hasWord = true ∧
      ((amoOf op loc w base d).wf = true ↔ (op = 9 → evenNum d = true)) := by
  interval_cases op <;> simp [amoOf, encodeNat, Instr.hasWord, Instr.wf]

/-! ### Vector atomics (12 R233, 17 R317) -/

/-- The vector atomic of a code of R233. -/
def vamoOf (op : Nat) (sc : AScope) (o : Order) (g : GIx) (base : XIx) (d : VIx) : Instr :=
  match op with
  | 0 => .vamoadd sc o g base d
  | 1 => .vamomin sc o g base d
  | 2 => .vamomax sc o g base d
  | 3 => .vamoand sc o g base d
  | 4 => .vamoor sc o g base d
  | 5 => .vamoxor sc o g base d
  | 6 => .vamoswp sc o g base d
  | _ => .vamofadd sc o g base d

theorem decodeVamo_eq (w : Nat) : decodeVamo w = (do
    mustBeZero (wordField w 31 29); mustBeZero (fieldD w % 2); let o ← orderOf (wordField w 23 22)
    pure (vamoOf (wordField w 26 24) (ascopeOf (wordField w 28 27)) o (BitVec.ofNat 4 (wordField w 21 18))
      (BitVec.ofNat 5 (wordField w 17 13)) (vreg (fieldD w)))) := by
  unfold decodeVamo
  have assigned : wordField w 26 24 < 8 := wordField_lt w 26 24
  generalize wordField w 26 24 = op at assigned
  interval_cases op <;> rfl

theorem vamoOf_word {op : Nat} (h : op < 8) (sc : AScope) (o : Order) (g : GIx) (base : XIx) (d : VIx) :
    encodeNat (vamoOf op sc o g base d) =
        encM 0x5B d.toNat base.toNat g.toNat o.code (op + sc.code * 2 ^ 3) ∧
      (vamoOf op sc o g base d).hasWord = true ∧ (vamoOf op sc o g base d).wf = evenNum d := by
  interval_cases op <;> exact ⟨rfl, rfl, rfl⟩

/-! ### The opcode map (12 R234) -/

section
variable {w : Nat}

theorem decodeNat_scalar (h : w % 128 = 0x01) : decodeNat w = decodeScalar w := by
  unfold decodeNat; rw [h]; rfl

theorem decodeNat_trap (h : w % 128 = 0x2B) : decodeNat w = decodeTrap w := by
  unfold decodeNat; rw [h]; rfl

theorem decodeNat_waita (h : w % 128 = 0x2E) : decodeNat w = decodeWaita w := by
  unfold decodeNat; rw [h]; rfl

theorem decodeNat_logic (h : w % 128 = 0x32) : decodeNat w = decodeLogic w := by
  unfold decodeNat; rw [h]; rfl

theorem decodeNat_transform (h : w % 128 = 0x40) : decodeNat w = decodeTransform w := by
  unfold decodeNat; rw [h]; rfl

theorem decodeNat_scratch (h : w % 128 = 0x5F) : decodeNat w = decodeScratch w := by
  unfold decodeNat; rw [h]; rfl

theorem decodeNat_engine (h : w % 128 = 0x68) : decodeNat w = decodeEngine w := by
  unfold decodeNat; rw [h]; rfl

theorem decodeNat_tack (h : w % 128 = 0x69) : decodeNat w = decodeTack w := by
  unfold decodeNat; rw [h]; rfl

theorem decodeNat_vsetl (h : w % 128 = 0x30) : decodeNat w = decodeVsetl w := by
  unfold decodeNat; rw [h]; rfl

theorem decodeNat_mlast (h : w % 128 = 0x63) : decodeNat w = decodeMlast w := by
  unfold decodeNat; rw [h]; rfl

theorem decodeNat_segMove (h : w % 128 = 0x2A) : decodeNat w = decodeSegMove w := by
  unfold decodeNat; rw [h]; rfl

theorem decodeNat_fence (h : w % 128 = 0x2C) : decodeNat w = decodeFence w := by
  unfold decodeNat; rw [h]; rfl

theorem decodeNat_bar (h : w % 128 = 0x2F) : decodeNat w = decodeBar w := by
  unfold decodeNat; rw [h]; rfl

theorem decodeNat_waitc (h : w % 128 = 0x2D) : decodeNat w = decodeWaitc w := by
  unfold decodeNat; rw [h]; rfl

theorem decodeNat_mma (h : w % 128 = 0x61) : decodeNat w = decodeMma w := by
  unfold decodeNat; rw [h]; rfl

theorem decodeNat_mmas (h : w % 128 = 0x62) : decodeNat w = decodeMmas w := by
  unfold decodeNat; rw [h]; rfl

theorem decodeNat_amo (h : w % 128 = 0x1B) : decodeNat w = decodeAmo w := by
  unfold decodeNat; rw [h]; rfl

theorem decodeNat_vamo (h : w % 128 = 0x5B) : decodeNat w = decodeVamo w := by
  unfold decodeNat; rw [h]; rfl

theorem decodeNat_vcmp (h : w % 128 = 0x34) : decodeNat w = (do
    let c ← condOf (fieldF w)
    pure (.vcmp (fieldH w) c (vreg (fieldD w)) (vreg (fieldA w)) (vreg (fieldB w)))) := by
  unfold decodeNat; rw [h]; rfl

theorem decodeNat_mfc (h : w % 128 = 0x28) : decodeNat w = (do
    mustBeZero (fieldA w); mustBeZero (wordField w 31 24); let d ← xreg (fieldD w); let c ← cregOf (wordField w 23 19)
    pure (.mfc c d)) := by
  unfold decodeNat; rw [h]; rfl

theorem decodeNat_mtc (h : w % 128 = 0x29) : decodeNat w = (do
    mustBeZero (fieldD w); mustBeZero (wordField w 31 24); let a ← xreg (fieldA w); let c ← cregOf (wordField w 23 19)
    pure (.mtc c a)) := by
  unfold decodeNat; rw [h]; rfl

theorem decodeNat_vtag (h : w % 128 = 0x31) : decodeNat w = (do
    mustBeZero (fieldA w); mustBeZero (wordField w 31 27)
    pure (.vtag (BitVec.ofNat 8 (wordField w 26 19)) (vreg (fieldD w)))) := by
  unfold decodeNat; rw [h]; rfl

theorem decodeNat_vidx (h : w % 128 = 0x33) : decodeNat w = pure
    (.vidx (BitVec.ofNat 9 (wordField w 31 23)) (BitVec.ofNat 10 (wordField w 22 13)) (vreg (fieldD w))) := by
  unfold decodeNat; rw [h]; rfl

theorem decodeNat_vpf (h : w % 128 = 0x5E) : decodeNat w = (do
    mustBeZero (fieldD w); let o ← orientOf (mFields w).o
    pure (.vpf (mFields w).off o (mFields w).g (mFields w).base)) := by
  unfold decodeNat; rw [h]; rfl

theorem decodeNat_mshape (h : w % 128 = 0x60) : decodeNat w = (do
    mustBeZero (fieldD w); mustBeZero (wordField w 31 31)
    pure (.mshape (BitVec.ofNat 4 (wordField w 30 27)) (BitVec.ofNat 7 (wordField w 26 20))
      (BitVec.ofNat 7 (wordField w 19 13)))) := by
  unfold decodeNat; rw [h]; rfl

theorem decodeNat_arith {r : RCode} (h : w % 128 = 0x38 + r.code) : decodeNat w = decodeArith w := by
  unfold decodeNat; rw [h]; cases r <;> rfl

theorem decodeNat_convert {r : RCode} (h : w % 128 = 0x48 + r.code) : decodeNat w = decodeConvert w := by
  unfold decodeNat; rw [h]; cases r <;> rfl

end

/-! ## What a word decodes to has that word -/

/-- The result of decoding, if it is an instruction, is a well-formed one whose word is w. -/
def Faithful (w : Nat) (r : DecodeResult) : Prop :=
  ∀ i, r = .ok i → encodeNat i = w ∧ i.hasWord = true ∧ i.wf = true

theorem faithful_pure {w : Nat} {i : Instr} :
    Faithful w (pure i) ↔ encodeNat i = w ∧ i.hasWord = true ∧ i.wf = true :=
  ⟨fun h => h i rfl, fun h _ e => by cases e; exact h⟩

theorem faithful_error {w : Nat} {e : DecodeError} : Faithful w (.error e) := fun _ h => nomatch h

theorem faithful_bind {α : Type} {w : Nat} {x : Except DecodeError α} {f : α → DecodeResult} :
    Faithful w (x >>= f) ↔ ∀ a, x = .ok a → Faithful w (f a) := by
  cases x with
  | error e => exact ⟨fun _ _ h => (nomatch h), fun _ => faithful_error⟩
  | ok a => exact ⟨fun h b e => by cases e; exact h, fun h => h a rfl⟩

theorem encAmo_of_fields {w : Nat} {d : XIx} {loc : AmoLoc} (hw : w < 2 ^ 32) (ho : w % 128 = 0x1B)
    (hd : fieldD w = d.toNat) (hl : amoLocOf w = .ok loc) :
    encAmo loc (amoWidthOf (wordField w 30 30)) (BitVec.ofNat 5 (wordField w 17 13)) d (wordField w 27 24) = w := by
  unfold amoLocOf at hl
  split at hl
  case isTrue sp =>
    simp only [bind_eq_ok, mustBeZero_eq_ok, pure_eq_ok, exists_const] at hl
    obtain ⟨hg, hr, hs, rfl⟩ := hl
    rw [encAmo_sp, amoWidthOf_bit (wordField_lt w 30 30)]
    refine encM_of_fields hw ho hd (wordField_toNat rfl) hg hr ?_
    simp only [wordField] at sp hs ⊢
    omega
  case isFalse mem =>
    simp only [bind_eq_ok, orientOf_eq_ok, pure_eq_ok] at hl
    obtain ⟨o, hr, rfl⟩ := hl
    rw [encAmo_mem, amoWidthOf_bit (wordField_lt w 30 30), ascopeOf_code (wordField_lt w 29 28)]
    refine encM_of_fields hw ho hd (wordField_toNat rfl) (wordField_toNat rfl) hr ?_
    simp only [wordField] at mem ⊢
    omega

section
variable {w op : Nat} (hw : w < 2 ^ 32)
include hw

theorem faithful_decodeScalar (ho : w % 128 = 0x01) : Faithful w (decodeScalar w) := by
  unfold decodeScalar
  split
  case h_25 => exact faithful_error
  all_goals
    simp only [faithful_bind, xreg_eq_ok, mustBeZero_eq_ok, faithful_pure]
    intros
    exact ⟨encR_of_fields hw ho ‹_› ‹_› ‹_› ‹_›, rfl, rfl⟩

theorem faithful_decodeTrap (ho : w % 128 = 0x2B) : Faithful w (decodeTrap w) := by
  unfold decodeTrap
  split
  case h_4 => exact faithful_error
  all_goals
    simp only [faithful_bind, mustBeZero_eq_ok, faithful_pure]
    intros
    exact ⟨encR_of_fields hw ho ‹_› ‹_› ‹_› ‹_›, rfl, rfl⟩

theorem faithful_decodeWaita (ho : w % 128 = 0x2E) : Faithful w (decodeWaita w) := by
  unfold decodeWaita
  split
  case h_3 => exact faithful_error
  all_goals
    simp only [faithful_bind, xreg_eq_ok, faithful_pure]
    intros
    exact ⟨encR_of_fields hw ho ‹_› ‹_› ‹_› ‹_›, rfl, rfl⟩

theorem faithful_decodeVsetl (ho : w % 128 = 0x30) : Faithful w (decodeVsetl w) := by
  unfold decodeVsetl
  split
  case h_2 => exact faithful_error
  simp only [faithful_bind, xreg_eq_ok, faithful_pure]
  intro d hd a ha
  exact ⟨encR_of_fields hw ho ‹_› hd ha (by simp), rfl, rfl⟩

theorem faithful_decodeLogic (ho : w % 128 = 0x32) : Faithful w (decodeLogic w) := by
  unfold decodeLogic
  split
  case h_26 => exact faithful_error
  case h_17 | h_18 =>
    simp only [faithful_bind, xpair_eq_ok, faithful_pure]
    intro b ⟨hb, even⟩
    exact ⟨encR_of_fields hw ho ‹_› (by simp) (by simp) hb, rfl, even⟩
  all_goals
    simp only [faithful_bind, xreg_eq_ok, mustBeZero_eq_ok, faithful_pure]
    intros
    exact ⟨encR_of_fields hw ho ‹_› (by simp [*]) (by simp [*]) (by simp [*]), rfl, rfl⟩

theorem faithful_decodeArith (ho : w % 128 = 0x38 + (rcodeOf (w % 8)).code) : Faithful w (decodeArith w) := by
  unfold decodeArith
  split
  case h_28 => exact faithful_error
  all_goals
    simp only [faithful_bind, mustBeZero_eq_ok, faithful_pure]
    intros
    exact ⟨encR_of_fields hw ho ‹_› (by simp) (by simp) (by simp [*]), rfl, rfl⟩

theorem faithful_decodeTransform (ho : w % 128 = 0x40) : Faithful w (decodeTransform w) := by
  unfold decodeTransform
  split
  case h_7 => exact faithful_error
  case h_6 hf =>
    simp only [faithful_bind, mustBeZero_eq_ok]
    intro _ high
    split
    case h_1 =>
      simp only [faithful_bind, mustBeZero_eq_ok, kreg_eq_ok, faithful_pure]
      intro _ window d hd a ha
      exact ⟨encR_of_fields hw ho hf hd ha (by omega), rfl, rfl⟩
    case h_2 =>
      simp only [faithful_bind, kreg_eq_ok, faithful_pure]
      intro a ha
      exact ⟨encR_of_fields hw ho hf (by simp) ha (by rw [BitVec.toNat_ofNat]; omega), rfl, rfl⟩
    case h_3 =>
      simp only [faithful_bind, kreg_eq_ok, faithful_pure]
      intro d hd
      exact ⟨encR_of_fields hw ho hf hd (by simp) (by rw [BitVec.toNat_ofNat]; omega), rfl, rfl⟩
    case h_4 => exact faithful_error
  all_goals
    simp only [faithful_bind, xreg_eq_ok, mustBeZero_eq_ok, faithful_pure]
    intros
    exact ⟨encR_of_fields hw ho ‹_› (by simp) (by simp) (by simp [*]), rfl, rfl⟩

theorem faithful_decodeConvert (ho : w % 128 = 0x48 + (rcodeOf (w % 8)).code) : Faithful w (decodeConvert w) := by
  unfold decodeConvert
  split
  case h_5 => exact faithful_error
  case h_3 hf =>
    simp only [faithful_bind, mustBeZero_eq_ok, faithful_pure]
    intro _ high
    refine ⟨encR_of_fields hw ho hf (by simp) (by simp) ?_, rfl, rfl⟩
    have : fieldB w < 64 := wordField_lt w 24 19
    rw [halfOf_code (by omega), BitVec.toNat_ofNat]
    omega
  all_goals
    simp only [faithful_bind, mustBeZero_eq_ok, faithful_pure]
    intros
    exact ⟨encR_of_fields hw ho ‹_› (by simp) (by simp) (by simp [*]), rfl, rfl⟩

theorem faithful_decodeScratch (ho : w % 128 = 0x5F) : Faithful w (decodeScratch w) := by
  unfold decodeScratch
  split
  case h_8 => exact faithful_error
  case h_1 | h_2 =>
    simp only [faithful_bind, xreg_eq_ok, xpair_eq_ok, faithful_pure]
    intro a ⟨ha, even⟩ b hb
    exact ⟨encR_of_fields hw ho ‹_› (by simp) ha hb, rfl, even⟩
  all_goals
    simp only [faithful_bind, mustBeZero_eq_ok, faithful_pure]
    intros
    exact ⟨encR_of_fields hw ho ‹_› (by simp [*]) (by simp [*]) (by simp [*]), rfl, rfl⟩

theorem faithful_decodeMlast (ho : w % 128 = 0x63) : Faithful w (decodeMlast w) := by
  unfold decodeMlast
  split
  case h_2 => exact faithful_error
  simp only [faithful_bind, mustBeZero_eq_ok, xpair_eq_ok, faithful_pure]
  intro _ high b ⟨hb, even⟩
  refine ⟨encR_of_fields hw ho ‹_› (by simp) ?_ hb, rfl, even⟩
  rw [BitVec.toNat_ofNat]
  omega

theorem faithful_decodeEngine (ho : w % 128 = 0x68) : Faithful w (decodeEngine w) := by
  unfold decodeEngine
  split
  case h_5 => exact faithful_error
  case h_1 | h_2 =>
    simp only [faithful_bind, mustBeZero_eq_ok, xreg_eq_ok, faithful_pure]
    intro _ hd _ hb _ eight a ha
    exact ⟨encR_of_fields hw ho ‹_› hd ha hb, rfl, beq_iff_eq.2 (ha ▸ eight)⟩
  all_goals
    simp only [faithful_bind, mustBeZero_eq_ok, xreg_eq_ok, kreg_eq_ok, faithful_pure]
    intros
    exact ⟨encR_of_fields hw ho ‹_› ‹_› ‹_› ‹_›, rfl, rfl⟩

theorem faithful_decodeTack (ho : w % 128 = 0x69) : Faithful w (decodeTack w) := by
  unfold decodeTack
  split
  case h_4 => exact faithful_error
  all_goals
    simp only [faithful_bind, mustBeZero_eq_ok, xreg_eq_ok, kreg_eq_ok, faithful_pure]
    intros
    exact ⟨encR_of_fields hw ho ‹_› ‹_› ‹_› ‹_›, rfl, rfl⟩

/-! The other formats. An instruction `mk` of a format is given with what its word is. -/

theorem faithful_decodeImm {mk : BitVec 13 → XIx → XIx → Instr} (ho : w % 128 = op)
    (enc : ∀ imm a d, encodeNat (mk imm a d) = encI op d.toNat a.toNat imm.toNat ∧ (mk imm a d).hasWord = true ∧
      (mk imm a d).wf = true) : Faithful w (decodeImm mk w) := by
  simp only [decodeImm, faithful_bind, xreg_eq_ok, faithful_pure]
  intro d hd a ha
  obtain ⟨word, ok⟩ := enc (BitVec.ofNat 13 (wordField w 31 19)) a d
  exact ⟨word.trans (encI_of_fields hw ho hd ha (wordField_toNat rfl)), ok⟩

theorem faithful_decodeShift {mk : BitVec 6 → XIx → XIx → Instr} (ho : w % 128 = op)
    (enc : ∀ n a d, encodeNat (mk n a d) = encI op d.toNat a.toNat n.toNat ∧ (mk n a d).hasWord = true ∧
      (mk n a d).wf = true) : Faithful w (decodeShift mk w) := by
  simp only [decodeShift, faithful_bind, mustBeZero_eq_ok, xreg_eq_ok, faithful_pure]
  intro _ high d hd a ha
  obtain ⟨word, ok⟩ := enc (BitVec.ofNat 6 (fieldB w)) a d
  refine ⟨word.trans (encI_of_fields hw ho hd ha ?_), ok⟩
  simp only [fieldB, wordField, BitVec.toNat_ofNat] at high ⊢
  omega

theorem faithful_decodeUpper {mk : BitVec 19 → XIx → Instr} (ho : w % 128 = op)
    (enc : ∀ imm d, encodeNat (mk imm d) = encU op d.toNat imm.toNat ∧ (mk imm d).hasWord = true ∧
      (mk imm d).wf = true) : Faithful w (decodeUpper mk w) := by
  simp only [decodeUpper, faithful_bind, xreg_eq_ok, faithful_pure]
  intro d hd
  obtain ⟨word, ok⟩ := enc (BitVec.ofNat 19 (wordField w 31 13)) d
  exact ⟨word.trans (encU_of_fields hw ho hd (wordField_toNat rfl)), ok⟩

theorem faithful_decodeBranch {mk : BitVec 13 → XIx → XIx → Instr} (ho : w % 128 = op)
    (enc : ∀ off b a, encodeNat (mk off b a) = encI op a.toNat b.toNat off.toNat ∧ (mk off b a).hasWord = true ∧
      (mk off b a).wf = true) : Faithful w (decodeBranch mk w) := by
  simp only [decodeBranch, faithful_bind, xreg_eq_ok, faithful_pure]
  intro a ha b hb
  obtain ⟨word, ok⟩ := enc (BitVec.ofNat 13 (wordField w 31 19)) b a
  exact ⟨word.trans (encI_of_fields hw ho ha hb (wordField_toNat rfl)), ok⟩

theorem faithful_decodeMaskBranch {mk : BitVec 13 → VIx → Instr} (ho : w % 128 = op)
    (enc : ∀ off a, encodeNat (mk off a) = encI op a.toNat 0 off.toNat ∧ (mk off a).hasWord = true ∧
      (mk off a).wf = true) : Faithful w (decodeMaskBranch mk w) := by
  simp only [decodeMaskBranch, faithful_bind, mustBeZero_eq_ok, faithful_pure]
  intro _ hb
  obtain ⟨word, ok⟩ := enc (BitVec.ofNat 13 (wordField w 31 19)) (vreg (fieldD w))
  exact ⟨word.trans (encI_of_fields hw ho (wordField_toNat rfl) hb (wordField_toNat rfl)), ok⟩

theorem faithful_decodeScalarMem {mk : BitVec 8 → Orient → GIx → XIx → XIx → Instr} (ho : w % 128 = op)
    (enc : ∀ off o g b d, encodeNat (mk off o g b d) = encM op d.toNat b.toNat g.toNat o.code off.toNat ∧
      (mk off o g b d).hasWord = true ∧ (mk off o g b d).wf = true) : Faithful w (decodeScalarMem mk w) := by
  simp only [decodeScalarMem, mFields, faithful_bind, xreg_eq_ok, orientOf_eq_ok, faithful_pure]
  intro d hd o hr
  obtain ⟨word, ok⟩ := enc (BitVec.ofNat 8 (wordField w 31 24)) o (BitVec.ofNat 4 (wordField w 21 18))
    (BitVec.ofNat 5 (wordField w 17 13)) d
  exact ⟨word.trans (encM_of_fields hw ho hd (wordField_toNat rfl) (wordField_toNat rfl) hr (wordField_toNat rfl)), ok⟩

theorem faithful_decodeVectorMem {mk : BitVec 8 → Orient → GIx → XIx → VIx → Instr} (ho : w % 128 = op)
    (enc : ∀ off o g b d, encodeNat (mk off o g b d) = encM op d.toNat b.toNat g.toNat o.code off.toNat ∧
      (mk off o g b d).hasWord = true ∧ (mk off o g b d).wf = true) : Faithful w (decodeVectorMem mk w) := by
  simp only [decodeVectorMem, mFields, faithful_bind, orientOf_eq_ok, faithful_pure]
  intro o hr
  obtain ⟨word, ok⟩ := enc (BitVec.ofNat 8 (wordField w 31 24)) o (BitVec.ofNat 4 (wordField w 21 18))
    (BitVec.ofNat 5 (wordField w 17 13)) (vreg (fieldD w))
  exact ⟨word.trans (encM_of_fields hw ho (by simp) (wordField_toNat rfl) (wordField_toNat rfl) hr (wordField_toNat
    rfl)), ok⟩

theorem faithful_decodeIndexed {mk : VIx → Order → GIx → XIx → VIx → Instr} (ho : w % 128 = op)
    (enc : ∀ x o g b d, encodeNat (mk x o g b d) = encM op d.toNat b.toNat g.toNat o.code x.toNat ∧
      (mk x o g b d).hasWord = true ∧ (mk x o g b d).wf = true) : Faithful w (decodeIndexed mk w) := by
  simp only [decodeIndexed, mFields, faithful_bind, mustBeZero_eq_ok, orderOf_eq_ok, faithful_pure]
  intro _ high o hr
  obtain ⟨word, ok⟩ := enc (vreg (wordField w 29 24)) o (BitVec.ofNat 4 (wordField w 21 18))
    (BitVec.ofNat 5 (wordField w 17 13)) (vreg (fieldD w))
  refine ⟨word.trans (encM_of_fields hw ho (by simp) (wordField_toNat rfl) (wordField_toNat rfl) hr ?_), ok⟩
  simp only [vreg, wordField, BitVec.toNat_ofNat] at high ⊢
  omega

theorem faithful_decodeWhole {mk : BitVec 8 → GIx → XIx → VIx → Instr} (ho : w % 128 = op)
    (enc : ∀ off g b d, encodeNat (mk off g b d) = encM op d.toNat b.toNat g.toNat 0 off.toNat ∧
      (mk off g b d).hasWord = true ∧ (mk off g b d).wf = true) : Faithful w (decodeWhole mk w) := by
  simp only [decodeWhole, mFields, faithful_bind, rowOnly_eq_ok, faithful_pure]
  intro _ hr
  obtain ⟨word, ok⟩ := enc (BitVec.ofNat 8 (wordField w 31 24)) (BitVec.ofNat 4 (wordField w 21 18))
    (BitVec.ofNat 5 (wordField w 17 13)) (vreg (fieldD w))
  exact ⟨word.trans (encM_of_fields hw ho (by simp) (wordField_toNat rfl) (wordField_toNat rfl) hr (wordField_toNat
    rfl)), ok⟩

theorem faithful_decodeScale {mk : BitVec 8 → GIx → XIx → KIx → Instr} (ho : w % 128 = op)
    (enc : ∀ off g b d, encodeNat (mk off g b d) = encM op d.toNat b.toNat g.toNat 0 off.toNat ∧
      (mk off g b d).hasWord = true ∧ (mk off g b d).wf = true) : Faithful w (decodeScale mk w) := by
  simp only [decodeScale, mFields, faithful_bind, kreg_eq_ok, rowOnly_eq_ok, faithful_pure]
  intro d hd _ hr
  obtain ⟨word, ok⟩ := enc (BitVec.ofNat 8 (wordField w 31 24)) (BitVec.ofNat 4 (wordField w 21 18))
    (BitVec.ofNat 5 (wordField w 17 13)) d
  exact ⟨word.trans (encM_of_fields hw ho hd (wordField_toNat rfl) (wordField_toNat rfl) hr (wordField_toNat rfl)), ok⟩

theorem faithful_decodeSegMove (ho : w % 128 = 0x2A) : Faithful w (decodeSegMove w) := by
  simp only [decodeSegMove, faithful_bind, mustBeZero_eq_ok, kreg_eq_ok]
  intro _ high g hg
  have half := halfOf_code (Nat.mod_lt (fieldF w) Nat.two_pos)
  split
  case isTrue mfg =>
    simp only [faithful_bind, mustBeZero_eq_ok, xreg_eq_ok, faithful_pure]
    intro _ hb d hd
    exact ⟨encR_of_fields hw ho (by omega) hd hg hb, rfl, rfl⟩
  case isFalse mtg =>
    simp only [faithful_bind, mustBeZero_eq_ok, xreg_eq_ok, faithful_pure]
    intro _ hd b hb
    exact ⟨encR_of_fields hw ho (by omega) hd hg hb, rfl, rfl⟩

theorem faithful_decodeFence (ho : w % 128 = 0x2C) : Faithful w (decodeFence w) := by
  simp only [decodeFence, faithful_bind, mustBeZero_eq_ok, fenceKindOf_eq_ok, scopeOf_eq_ok, faithful_pure]
  intro _ hd _ ha _ hb k hk sc hs
  refine ⟨encR_of_fields hw ho ?_ hd ha hb, rfl, rfl⟩
  simp only [fieldF, wordField] at hk hs ⊢
  omega

theorem faithful_decodeBar (ho : w % 128 = 0x2F) : Faithful w (decodeBar w) := by
  simp only [decodeBar, faithful_bind, mustBeZero_eq_ok, scopeOf_eq_ok, faithful_pure]
  intro _ hd _ ha _ hb _ low sc hs
  refine ⟨encR_of_fields hw ho ?_ hd ha hb, rfl, rfl⟩
  simp only [fieldF, wordField] at low hs ⊢
  omega

theorem faithful_decodeWaitc (ho : w % 128 = 0x2D) : Faithful w (decodeWaitc w) := by
  simp only [decodeWaitc, faithful_bind, mustBeZero_eq_ok, faithful_pure]
  intro _ hd _ high
  refine ⟨encU_of_fields hw ho hd ?_, rfl, rfl⟩
  simp only [wordField, BitVec.toNat_ofNat] at high ⊢
  omega

theorem faithful_decodeMma (ho : w % 128 = 0x61) : Faithful w (decodeMma w) := by
  simp only [decodeMma, faithful_bind, flowOf_eq_ok, matOpOf_eq_ok (wordField_lt w 27 27) (wordField_lt w 18 13),
    matOpOf_eq_ok (wordField_lt w 28 28) (wordField_lt w 24 19), fieldA, fieldB, faithful_pure]
  intro df hf a ⟨hp, ha, oka⟩ b ⟨hq, hb, okb⟩
  have hz := bit_eq_toNat_beq (wordField_lt w 29 29)
  exact ⟨encT_of_fields hw ho (by simp) ha hb hf hp hq hz, rfl, Bool.and_eq_true_iff.2 ⟨oka, okb⟩⟩

theorem faithful_decodeMmas (ho : w % 128 = 0x62) : Faithful w (decodeMmas w) := by
  simp only [decodeMmas, faithful_bind, flowOf_eq_ok, mustBeZero_eq_ok,
    matOpOf_eq_ok (wordField_lt w 28 28) (wordField_lt w 24 19), fieldB, faithful_pure]
  intro df hf _ hp b ⟨hq, hb, okb⟩
  have hz := bit_eq_toNat_beq (wordField_lt w 29 29)
  exact ⟨encT_of_fields hw ho (by simp) (by simp) hb hf hp hq hz, rfl, okb⟩

theorem faithful_decodeVamo (ho : w % 128 = 0x5B) : Faithful w (decodeVamo w) := by
  rw [decodeVamo_eq]
  simp only [faithful_bind, mustBeZero_eq_ok, orderOf_eq_ok, faithful_pure]
  intro _ high _ even o hr
  have scope := ascopeOf_code (wordField_lt w 28 27)
  have off : wordField w 31 24 = wordField w 26 24 + (ascopeOf (wordField w 28 27)).code * 2 ^ 3 := by
    rw [scope]
    simp only [wordField] at high ⊢
    omega
  have pair : evenNum (vreg (fieldD w)) = true := by rw [evenNum_iff, toNat_vreg_fieldD]; exact even
  obtain ⟨enc, word, wf⟩ := vamoOf_word (wordField_lt w 26 24) (ascopeOf (wordField w 28 27)) o
    (BitVec.ofNat 4 (wordField w 21 18)) (BitVec.ofNat 5 (wordField w 17 13)) (vreg (fieldD w))
  exact ⟨enc.trans (encM_of_fields hw ho (by simp) (wordField_toNat rfl) (wordField_toNat rfl) hr off), word,
    wf.trans pair⟩

theorem faithful_decodeAmo (ho : w % 128 = 0x1B) : Faithful w (decodeAmo w) := by
  rw [decodeAmo_eq]
  split
  · exact faithful_error
  case isFalse below =>
  simp only [faithful_bind, faithful_pure]
  intro d hd loc hloc
  obtain ⟨hd, even⟩ : fieldD w = d.toNat ∧ (wordField w 27 24 = 9 → evenNum d = true) := by
    split at hd
    · exact (xpair_eq_ok.1 hd).imp_right fun even _ => even
    · exact ⟨xreg_eq_ok.1 hd, fun h => absurd h ‹_›⟩
  obtain ⟨enc, word, wf⟩ := amoOf_word (Nat.lt_of_not_le below) loc (amoWidthOf (wordField w 30 30))
    (BitVec.ofNat 5 (wordField w 17 13)) d
  exact ⟨enc.trans (encAmo_of_fields hw ho hd hloc), word, wf.2 even⟩

end

/-- The seven majors of the rounding forms end in their rounding code (12 R236). -/
theorem major_eq_rcode {w base : Nat} (hb : base % 8 = 0) (lo : base ≤ w % 128) (hi : w % 128 < base + 7) :
    w % 128 = base + (rcodeOf (w % 8)).code := by
  rw [rcodeOf_code (by omega)]
  omega

section
variable {w op : Nat} (hw : w < 2 ^ 32)
include hw

theorem faithful_mfc (ho : w % 128 = 0x28) : Faithful w (decodeNat w) := by
  rw [decodeNat_mfc ho]
  simp only [faithful_bind, mustBeZero_eq_ok, xreg_eq_ok, cregOf_eq_ok, faithful_pure]
  intro _ ha _ high d hd c hc
  refine ⟨encI_of_fields hw ho hd ha ?_, rfl, rfl⟩
  simp only [wordField] at high hc ⊢
  omega

theorem faithful_mtc (ho : w % 128 = 0x29) : Faithful w (decodeNat w) := by
  rw [decodeNat_mtc ho]
  simp only [faithful_bind, mustBeZero_eq_ok, xreg_eq_ok, cregOf_eq_ok, faithful_pure]
  intro _ hd _ high a ha c hc
  refine ⟨encI_of_fields hw ho hd ha ?_, rfl, rfl⟩
  simp only [wordField] at high hc ⊢
  omega

theorem faithful_vtag (ho : w % 128 = 0x31) : Faithful w (decodeNat w) := by
  rw [decodeNat_vtag ho]
  simp only [faithful_bind, mustBeZero_eq_ok, faithful_pure]
  intro _ ha _ high
  refine ⟨encI_of_fields hw ho (by simp) ha ?_, rfl, rfl⟩
  simp only [wordField, BitVec.toNat_ofNat] at high ⊢
  omega

theorem faithful_vidx (ho : w % 128 = 0x33) : Faithful w (decodeNat w) := by
  rw [decodeNat_vidx ho]
  refine faithful_pure.2 ⟨?_, rfl, rfl⟩
  rw [encodeNat, toNat_vreg_fieldD]
  simp only [fieldD, wordField, BitVec.toNat_ofNat]
  omega

theorem faithful_vcmp (ho : w % 128 = 0x34) : Faithful w (decodeNat w) := by
  rw [decodeNat_vcmp ho]
  simp only [faithful_bind, condOf_eq_ok, faithful_pure]
  intro c hf
  exact ⟨encR_of_fields hw ho hf (by simp) (by simp) (by simp), rfl, rfl⟩

theorem faithful_vpf (ho : w % 128 = 0x5E) : Faithful w (decodeNat w) := by
  rw [decodeNat_vpf ho]
  simp only [mFields, faithful_bind, mustBeZero_eq_ok, orientOf_eq_ok, faithful_pure]
  intro _ hd o hr
  exact ⟨encM_of_fields hw ho hd (wordField_toNat rfl) (wordField_toNat rfl) hr (wordField_toNat rfl), rfl, rfl⟩

theorem faithful_mshape (ho : w % 128 = 0x60) : Faithful w (decodeNat w) := by
  rw [decodeNat_mshape ho]
  simp only [faithful_bind, mustBeZero_eq_ok, faithful_pure]
  intro _ hd _ high
  refine ⟨encU_of_fields hw ho hd ?_, rfl, rfl⟩
  simp only [wordField, BitVec.toNat_ofNat] at high ⊢
  omega

/-- The cases stand in the order of the opcode map. -/
theorem faithful_decodeNat : Faithful w (decodeNat w) := by
  unfold decodeNat
  split
  case h_1 => exact faithful_decodeScalar hw ‹_›
  case h_2 | h_3 | h_4 | h_5 | h_6 | h_7 | h_32 => exact faithful_decodeImm hw ‹_› fun _ _ _ => ⟨rfl, rfl, rfl⟩
  case h_8 | h_9 | h_10 => exact faithful_decodeShift hw ‹_› fun _ _ _ => ⟨rfl, rfl, rfl⟩
  case h_11 | h_12 | h_31 => exact faithful_decodeUpper hw ‹_› fun _ _ => ⟨rfl, rfl, rfl⟩
  case h_13 | h_14 | h_15 | h_16 | h_17 | h_18 | h_19 | h_20 | h_21 | h_22 | h_23 =>
    exact faithful_decodeScalarMem hw ‹_› fun _ _ _ _ _ => ⟨rfl, rfl, rfl⟩
  case h_24 => exact faithful_decodeAmo hw ‹_›
  case h_25 | h_26 | h_27 | h_28 | h_29 | h_30 => exact faithful_decodeBranch hw ‹_› fun _ _ _ => ⟨rfl, rfl, rfl⟩
  case h_33 => exact decodeNat_mfc ‹_› ▸ faithful_mfc hw ‹_›
  case h_34 => exact decodeNat_mtc ‹_› ▸ faithful_mtc hw ‹_›
  case h_35 => exact faithful_decodeSegMove hw ‹_›
  case h_36 => exact faithful_decodeTrap hw ‹_›
  case h_37 => exact faithful_decodeFence hw ‹_›
  case h_38 => exact faithful_decodeWaitc hw ‹_›
  case h_39 => exact faithful_decodeWaita hw ‹_›
  case h_40 => exact faithful_decodeBar hw ‹_›
  case h_41 => exact faithful_decodeVsetl hw ‹_›
  case h_42 => exact decodeNat_vtag ‹_› ▸ faithful_vtag hw ‹_›
  case h_43 => exact faithful_decodeLogic hw ‹_›
  case h_44 => exact decodeNat_vidx ‹_› ▸ faithful_vidx hw ‹_›
  case h_45 => exact decodeNat_vcmp ‹_› ▸ faithful_vcmp hw ‹_›
  case h_46 | h_47 => exact faithful_decodeMaskBranch hw ‹_› fun _ _ => ⟨rfl, rfl, rfl⟩
  case h_48 | h_49 | h_50 | h_51 | h_52 | h_53 | h_54 =>
    exact faithful_decodeArith hw (major_eq_rcode rfl (by omega) (by omega))
  case h_55 => exact faithful_decodeTransform hw ‹_›
  case h_56 | h_57 | h_58 | h_59 | h_60 | h_61 | h_62 =>
    exact faithful_decodeConvert hw (major_eq_rcode rfl (by omega) (by omega))
  case h_63 | h_64 | h_65 | h_66 | h_67 | h_68 | h_71 =>
    exact faithful_decodeVectorMem hw ‹_› fun _ _ _ _ _ => ⟨rfl, rfl, rfl⟩
  case h_69 | h_70 => exact faithful_decodeIndexed hw ‹_› fun _ _ _ _ _ => ⟨rfl, rfl, rfl⟩
  case h_72 | h_73 => exact faithful_decodeWhole hw ‹_› fun _ _ _ _ => ⟨rfl, rfl, rfl⟩
  case h_74 => exact faithful_decodeVamo hw ‹_›
  case h_75 | h_76 => exact faithful_decodeScale hw ‹_› fun _ _ _ _ => ⟨rfl, rfl, rfl⟩
  case h_77 => exact decodeNat_vpf ‹_› ▸ faithful_vpf hw ‹_›
  case h_78 => exact faithful_decodeScratch hw ‹_›
  case h_79 => exact decodeNat_mshape ‹_› ▸ faithful_mshape hw ‹_›
  case h_80 => exact faithful_decodeMma hw ‹_›
  case h_81 => exact faithful_decodeMmas hw ‹_›
  case h_82 => exact faithful_decodeMlast hw ‹_›
  case h_83 => exact faithful_decodeEngine hw ‹_›
  case h_84 => exact faithful_decodeTack hw ‹_›
  case h_85 => exact faithful_error
end

/-- Settles O4: every check of a word's major opcode passes only on the fields that the word of the instruction has. -/
theorem encodeOfDecodeIsIdentity : Obligations.EncodeOfDecodeIsIdentity := by
  intro w i h
  obtain ⟨word, ok⟩ := faithful_decodeNat w.isLt i h
  exact ⟨by rw [encode, word, BitVec.ofNat_toNat, BitVec.setWidth_eq], ok⟩

/-! ## The word of an instruction decodes to it -/

/-! ### A register's number and a suffix's code read back -/

theorem xreg_toNat (r : XIx) : xreg r.toNat = .ok r := xreg_eq_ok.2 rfl
theorem kreg_toNat (r : BitVec 4) : kreg r.toNat = .ok r := kreg_eq_ok.2 rfl
theorem vreg_toNat (r : VIx) : vreg r.toNat = r := BitVec.ofNat_toNat 6 r
theorem xpair_toNat {r : XIx} (h : evenNum r = true) : xpair r.toNat = .ok r := xpair_eq_ok.2 ⟨rfl, h⟩
theorem mustBeZero_zero : mustBeZero 0 = .ok () := rfl
theorem rowOnly_zero : rowOnly 0 = .ok () := rfl
theorem orientOf_code (o : Orient) : orientOf o.code = .ok o := orientOf_eq_ok.2 rfl
theorem orderOf_code (o : Order) : orderOf o.code = .ok o := orderOf_eq_ok.2 rfl
theorem scopeOf_code (a : Scope) : scopeOf a.code = .ok a := scopeOf_eq_ok.2 rfl
theorem fenceKindOf_code (k : FenceKind) : fenceKindOf k.code = .ok k := fenceKindOf_eq_ok.2 rfl
theorem flowOf_code (f : Flow) : flowOf f.code = .ok f := flowOf_eq_ok.2 rfl
theorem condOf_code (c : Cond) : condOf c.code = .ok c := condOf_eq_ok.2 rfl
theorem cregOf_num (c : CReg) : cregOf c.num = .ok c := cregOf_eq_ok.2 rfl
theorem rcodeOf_code_self (r : RCode) : rcodeOf r.code = r := by cases r <;> rfl
theorem ascopeOf_code_self (a : AScope) : ascopeOf a.code = a := by cases a <;> rfl
theorem halfOf_code_self (a : Half) : halfOf a.code = a := by cases a <;> rfl

theorem ofNat_toNat_self {n : Nat} (b : BitVec n) : BitVec.ofNat n b.toNat = b := by simp

theorem creg_num_lt_32 (c : CReg) : c.num < 32 := by cases c <;> decide

theorem xix_lt (r : XIx) : r.toNat < 64 := by omega
theorem vix_lt (r : VIx) : r.toNat < 64 := r.isLt
theorem kix_lt (r : BitVec 4) : r.toNat < 64 := by omega

theorem decode_encode (i : Instr) : decode (encode i) = decodeNat (encodeNat i % 2 ^ 32) := by
  rw [decode, encode, BitVec.toNat_ofNat]

theorem rcodeOf_major {r : RCode} {w base : Nat} (hb : base % 8 = 0) (h : w % 128 = base + r.code) :
    rcodeOf (w % 8) = r := by
  have := rcode_code_lt r
  rw [show w % 8 = r.code by omega, rcodeOf_code_self]


theorem arithMajor_lt (r : RCode) : 0x38 + r.code < 128 := by
  have := rcode_code_lt r
  omega

theorem convertMajor_lt (r : RCode) : 0x48 + r.code < 128 := by
  have := rcode_code_lt r
  omega

section
variable {d a b f : Nat} {h : Hint} {r : RCode} (hd : d < 64) (ha : a < 64) (hb : b < 64) (hf : f < 32)
include hd ha hb hf

theorem decodeNat_arithWord :
    decodeNat (encR (0x38 + r.code) d a b f h) = decodeArith (encR (0x38 + r.code) d a b f h) ∧
      rcodeOf (encR (0x38 + r.code) d a b f h % 8) = r := by
  obtain ⟨-, major, -⟩ := encR_fields (h := h) (arithMajor_lt r) hd ha hb hf
  exact ⟨decodeNat_arith major, rcodeOf_major rfl major⟩

theorem decodeNat_convertWord :
    decodeNat (encR (0x48 + r.code) d a b f h) = decodeConvert (encR (0x48 + r.code) d a b f h) ∧
      rcodeOf (encR (0x48 + r.code) d a b f h % 8) = r := by
  obtain ⟨-, major, -⟩ := encR_fields (h := h) (convertMajor_lt r) hd ha hb hf
  exact ⟨decodeNat_convert major, rcodeOf_major rfl major⟩

end

/-! ### The other formats. A decoder is given as what the opcode map names at its major. -/

section
variable {i : Instr} {op : Nat} (ho : op < 128)
include ho

theorem decode_imm {mk : BitVec 13 → XIx → XIx → Instr} {imm : BitVec 13} {a d : XIx}
    (enc : encodeNat i = encI op d.toNat a.toNat imm.toNat) (map : ∀ w, w % 128 = op → decodeNat w = decodeImm mk w) :
    decodeNat (encodeNat i % 2 ^ 32) = .ok (mk imm a d) := by
  obtain ⟨fits, major, fd, fa, fi, -⟩ := encI_fields ho (xix_lt d) (xix_lt a) imm.isLt
  rw [enc, fits, map _ major, decodeImm, fd, fa, fi, xreg_toNat, xreg_toNat, ofNat_toNat_self]
  rfl

theorem decode_shift {mk : BitVec 6 → XIx → XIx → Instr} {n : BitVec 6} {a d : XIx}
    (enc : encodeNat i = encI op d.toNat a.toNat n.toNat) (map : ∀ w, w % 128 = op → decodeNat w = decodeShift mk w) :
    decodeNat (encodeNat i % 2 ^ 32) = .ok (mk n a d) := by
  obtain ⟨fits, major, fd, fa, -, fb, high, -⟩ := encI_fields ho (xix_lt d) (xix_lt a) (show n.toNat < 2 ^ 13 by omega)
  rw [enc, fits, map _ major, decodeShift, fd, fa, fb, high, Nat.div_eq_of_lt n.isLt, Nat.mod_eq_of_lt n.isLt,
    mustBeZero_zero, xreg_toNat, xreg_toNat, ofNat_toNat_self]
  rfl

theorem decode_branch {mk : BitVec 13 → XIx → XIx → Instr} {off : BitVec 13} {b a : XIx}
    (enc : encodeNat i = encI op a.toNat b.toNat off.toNat) (map : ∀ w, w % 128 = op → decodeNat w = decodeBranch mk
      w) :
    decodeNat (encodeNat i % 2 ^ 32) = .ok (mk off b a) := by
  obtain ⟨fits, major, fd, fa, fi, -⟩ := encI_fields ho (xix_lt a) (xix_lt b) off.isLt
  rw [enc, fits, map _ major, decodeBranch, fd, fa, fi, xreg_toNat, xreg_toNat, ofNat_toNat_self]
  rfl

theorem decode_maskBranch {mk : BitVec 13 → VIx → Instr} {off : BitVec 13} {a : VIx}
    (enc : encodeNat i = encI op a.toNat 0 off.toNat) (map : ∀ w, w % 128 = op → decodeNat w = decodeMaskBranch mk w) :
    decodeNat (encodeNat i % 2 ^ 32) = .ok (mk off a) := by
  obtain ⟨fits, major, fd, fa, fi, -⟩ := encI_fields ho (vix_lt a) (by decide : 0 < 64) off.isLt
  rw [enc, fits, map _ major, decodeMaskBranch, fd, fa, fi, mustBeZero_zero, vreg_toNat, ofNat_toNat_self]
  rfl

theorem decode_upper {mk : BitVec 19 → XIx → Instr} {imm : BitVec 19} {d : XIx}
    (enc : encodeNat i = encU op d.toNat imm.toNat) (map : ∀ w, w % 128 = op → decodeNat w = decodeUpper mk w) :
    decodeNat (encodeNat i % 2 ^ 32) = .ok (mk imm d) := by
  obtain ⟨fits, major, fd, fi⟩ := encU_fields ho (xix_lt d) imm.isLt
  rw [enc, fits, map _ major, decodeUpper, fd, fi, xreg_toNat, ofNat_toNat_self]
  rfl

theorem decode_scalarMem {mk : BitVec 8 → Orient → GIx → XIx → XIx → Instr} {off : BitVec 8} {o : Orient} {g : GIx}
    {b d : XIx} (enc : encodeNat i = encM op d.toNat b.toNat g.toNat o.code off.toNat)
    (map : ∀ w, w % 128 = op → decodeNat w = decodeScalarMem mk w) :
    decodeNat (encodeNat i % 2 ^ 32) = .ok (mk off o g b d) := by
  obtain ⟨fits, major, fd, fb, fg, fo, fi⟩ := encM_fields ho (xix_lt d) b.isLt g.isLt (orient_code_lt o) off.isLt
  rw [enc, fits, map _ major, decodeScalarMem, mFields, fd, fb, fg, fo, fi, xreg_toNat, orientOf_code, ofNat_toNat_self,
    ofNat_toNat_self, ofNat_toNat_self]
  rfl

theorem decode_vectorMem {mk : BitVec 8 → Orient → GIx → XIx → VIx → Instr} {off : BitVec 8} {o : Orient} {g : GIx}
    {b : XIx} {d : VIx} (enc : encodeNat i = encM op d.toNat b.toNat g.toNat o.code off.toNat)
    (map : ∀ w, w % 128 = op → decodeNat w = decodeVectorMem mk w) :
    decodeNat (encodeNat i % 2 ^ 32) = .ok (mk off o g b d) := by
  obtain ⟨fits, major, fd, fb, fg, fo, fi⟩ := encM_fields ho (vix_lt d) b.isLt g.isLt (orient_code_lt o) off.isLt
  rw [enc, fits, map _ major, decodeVectorMem, mFields, fd, fb, fg, fo, fi, vreg_toNat, orientOf_code, ofNat_toNat_self,
    ofNat_toNat_self, ofNat_toNat_self]
  rfl

theorem decode_indexed {mk : VIx → Order → GIx → XIx → VIx → Instr} {x : VIx} {o : Order} {g : GIx} {b : XIx} {d : VIx}
    (enc : encodeNat i = encM op d.toNat b.toNat g.toNat o.code x.toNat)
    (map : ∀ w, w % 128 = op → decodeNat w = decodeIndexed mk w) :
    decodeNat (encodeNat i % 2 ^ 32) = .ok (mk x o g b d) := by
  have ord := order_code_lt o
  obtain ⟨fits, major, fd, fb, fg, fo, fi⟩ :=
    encM_fields ho (vix_lt d) b.isLt g.isLt (show o.code < 4 by omega) (show x.toNat < 256 by omega)
  have high : wordField (encM op d.toNat b.toNat g.toNat o.code x.toNat) 31 30 = 0 := by
    simp only [wordField] at fi ⊢
    omega
  have fx : wordField (encM op d.toNat b.toNat g.toNat o.code x.toNat) 29 24 = x.toNat := by
    simp only [wordField] at fi ⊢
    omega
  rw [enc, fits, map _ major, decodeIndexed, mFields, high, fx, fd, fb, fg, fo, mustBeZero_zero, vreg_toNat, vreg_toNat,
    orderOf_code, ofNat_toNat_self, ofNat_toNat_self]
  rfl

theorem decode_whole {mk : BitVec 8 → GIx → XIx → VIx → Instr} {off : BitVec 8} {g : GIx} {b : XIx} {d : VIx}
    (enc : encodeNat i = encM op d.toNat b.toNat g.toNat 0 off.toNat)
    (map : ∀ w, w % 128 = op → decodeNat w = decodeWhole mk w) :
    decodeNat (encodeNat i % 2 ^ 32) = .ok (mk off g b d) := by
  obtain ⟨fits, major, fd, fb, fg, fo, fi⟩ := encM_fields ho (vix_lt d) b.isLt g.isLt (by decide : 0 < 4) off.isLt
  rw [enc, fits, map _ major, decodeWhole, mFields, fd, fb, fg, fo, fi, vreg_toNat, rowOnly_zero, ofNat_toNat_self,
    ofNat_toNat_self, ofNat_toNat_self]
  rfl

theorem decode_scale {mk : BitVec 8 → GIx → XIx → KIx → Instr} {off : BitVec 8} {g : GIx} {b : XIx} {d : KIx}
    (enc : encodeNat i = encM op d.toNat b.toNat g.toNat 0 off.toNat)
    (map : ∀ w, w % 128 = op → decodeNat w = decodeScale mk w) :
    decodeNat (encodeNat i % 2 ^ 32) = .ok (mk off g b d) := by
  obtain ⟨fits, major, fd, fb, fg, fo, fi⟩ := encM_fields ho (kix_lt d) b.isLt g.isLt (by decide : 0 < 4) off.isLt
  rw [enc, fits, map _ major, decodeScale, mFields, fd, fb, fg, fo, fi, kreg_toNat, rowOnly_zero, ofNat_toNat_self,
    ofNat_toNat_self, ofNat_toNat_self]
  rfl

end

/-! ### The instructions with a format of their own -/

theorem decode_vsetl (h : Hint) (d a : XIx) (b : VIx) :
    decodeNat (encodeNat (.vsetl h d a b) % 2 ^ 32) = .ok (.vsetl h d a b) := by
  simp only [encodeNat, encR_fields, xix_lt, vix_lt, Nat.reduceLT, decodeNat_vsetl, decodeVsetl, xreg_toNat, vreg_toNat]
  rfl

theorem decode_mlast {h : Hint} {g : GIx} {d : VIx} {b : XIx} (wf : evenNum b = true) :
    decodeNat (encodeNat (.mlast h g d b) % 2 ^ 32) = .ok (.mlast h g d b) := by
  simp only [encodeNat, encR_fields, xix_lt, vix_lt, kix_lt, Nat.reduceLT, decodeNat_mlast, decodeMlast, vreg_toNat,
    xpair_toNat wf, Nat.div_eq_of_lt g.isLt, mustBeZero_zero, ofNat_toNat_self]
  rfl

theorem decode_vdqmx (h : Hint) (r : RCode) (d a : VIx) (k : KIx) (half : Half) :
    decodeNat (encodeNat (.vdqmx h r d a k half) % 2 ^ 32) = .ok (.vdqmx h r d a k half) := by
  have := half_code_lt half
  have bound : k.toNat + 16 * half.code < 64 := by omega
  have high : (k.toNat + 16 * half.code) / 32 = 0 := by omega
  have low : (k.toNat + 16 * half.code) % 16 = k.toNat := by omega
  have bit : (k.toNat + 16 * half.code) / 16 = half.code := by omega
  simp only [encodeNat, encR_fields, convertMajor_lt, vix_lt, bound, Nat.reduceLT, decodeNat_convertWord, decodeConvert,
    vreg_toNat, high, low, bit, mustBeZero_zero, halfOf_code_self, ofNat_toNat_self]
  rfl

theorem decode_kmov (h : Hint) (f : KmovForm) : decodeNat (encodeNat (.kmov h f) % 2 ^ 32) = .ok (.kmov h f) := by
  cases f with
  | kk d a =>
    simp only [encodeNat, encKmov, encR_fields, kix_lt, Nat.reduceLT, decodeNat_transform, decodeTransform,
      Nat.reduceDiv, Nat.reduceMod, mustBeZero_zero, kreg_toNat]
    rfl
  | vk d a m =>
    have := m.isLt
    have bound : 1 + 4 * m.toNat < 64 := by omega
    have high : (1 + 4 * m.toNat) / 16 = 0 := by omega
    have form : (1 + 4 * m.toNat) % 4 = 1 := by omega
    have window : (1 + 4 * m.toNat) / 4 % 4 = m.toNat := by omega
    simp only [encodeNat, encKmov, encR_fields, vix_lt, kix_lt, bound, Nat.reduceLT, decodeNat_transform,
      decodeTransform, high, form, window, mustBeZero_zero, kreg_toNat, vreg_toNat, ofNat_toNat_self]
    rfl
  | kv d a m =>
    have := m.isLt
    have bound : 2 + 4 * m.toNat < 64 := by omega
    have high : (2 + 4 * m.toNat) / 16 = 0 := by omega
    have form : (2 + 4 * m.toNat) % 4 = 2 := by omega
    have window : (2 + 4 * m.toNat) / 4 % 4 = m.toNat := by omega
    simp only [encodeNat, encKmov, encR_fields, vix_lt, kix_lt, bound, Nat.reduceLT, decodeNat_transform,
      decodeTransform, high, form, window, mustBeZero_zero, kreg_toNat, vreg_toNat, ofNat_toNat_self]
    rfl

theorem decode_vcmp (h : Hint) (c : Cond) (d a b : VIx) :
    decodeNat (encodeNat (.vcmp h c d a b) % 2 ^ 32) = .ok (.vcmp h c d a b) := by
  have bound : c.code < 32 := (cond_code_lt c).trans (by decide)
  simp only [encodeNat, encR_fields, vix_lt, bound, Nat.reduceLT, decodeNat_vcmp, vreg_toNat, condOf_code]
  rfl

theorem decode_mfg (h : Hint) (half : Half) (g : GIx) (d : XIx) :
    decodeNat (encodeNat (.mfg h half g d) % 2 ^ 32) = .ok (.mfg h half g d) := by
  cases half <;>
    (simp only [encodeNat, Half.code, encR_fields, xix_lt, kix_lt, Nat.reduceLT, decodeNat_segMove, decodeSegMove,
      Nat.reduceDiv, Nat.reduceMod, mustBeZero_zero, kreg_toNat, xreg_toNat]
     rfl)

theorem decode_mtg (h : Hint) (half : Half) (g : GIx) (b : XIx) :
    decodeNat (encodeNat (.mtg h half g b) % 2 ^ 32) = .ok (.mtg h half g b) := by
  cases half <;>
    (simp only [encodeNat, Half.code, encR_fields, xix_lt, kix_lt, Nat.reduceLT, Nat.reduceAdd, decodeNat_segMove,
      decodeSegMove, Nat.reduceDiv, Nat.reduceMod, mustBeZero_zero, kreg_toNat, xreg_toNat]
     rfl)

theorem decode_fence (h : Hint) (sc : Scope) (k : FenceKind) :
    decodeNat (encodeNat (.fence h sc k) % 2 ^ 32) = .ok (.fence h sc k) := by
  have hs := scope_code_lt sc
  have hk := fence_code_lt k
  have bound : k.code + 4 * sc.code < 32 := by omega
  have kind : (k.code + 4 * sc.code) % 4 = k.code := by omega
  have scope : (k.code + 4 * sc.code) / 4 = sc.code := by omega
  simp only [encodeNat, encR_fields, bound, Nat.reduceLT, decodeNat_fence, decodeFence, kind, scope, mustBeZero_zero,
    fenceKindOf_code, scopeOf_code]
  rfl

theorem decode_bar (h : Hint) (sc : Scope) : decodeNat (encodeNat (.bar h sc) % 2 ^ 32) = .ok (.bar h sc) := by
  have hs := scope_code_lt sc
  have bound : 4 * sc.code < 32 := by omega
  simp only [encodeNat, encR_fields, bound, Nat.reduceLT, decodeNat_bar, decodeBar, Nat.mul_mod_right,
    Nat.mul_div_cancel_left, Nat.zero_lt_succ, mustBeZero_zero, scopeOf_code]
  rfl

theorem decode_mfc (c : CReg) (d : XIx) : decodeNat (encodeNat (.mfc c d) % 2 ^ 32) = .ok (.mfc c d) := by
  have hc := creg_num_lt_32 c
  have bound : c.num < 2 ^ 13 := creg_num_lt c
  simp only [encodeNat, encI_fields, xix_lt, bound, Nat.reduceLT, decodeNat_mfc, Nat.div_eq_of_lt hc,
    Nat.mod_eq_of_lt hc, mustBeZero_zero, xreg_toNat, cregOf_num]
  rfl

theorem decode_mtc (c : CReg) (a : XIx) : decodeNat (encodeNat (.mtc c a) % 2 ^ 32) = .ok (.mtc c a) := by
  have hc := creg_num_lt_32 c
  have bound : c.num < 2 ^ 13 := creg_num_lt c
  simp only [encodeNat, encI_fields, xix_lt, bound, Nat.reduceLT, decodeNat_mtc, Nat.div_eq_of_lt hc,
    Nat.mod_eq_of_lt hc, mustBeZero_zero, xreg_toNat, cregOf_num]
  rfl

theorem decode_vtag (t : BitVec 8) (d : VIx) : decodeNat (encodeNat (.vtag t d) % 2 ^ 32) = .ok (.vtag t d) := by
  have bound : t.toNat < 2 ^ 13 := by omega
  simp only [encodeNat, encI_fields, vix_lt, bound, Nat.reduceLT, decodeNat_vtag, Nat.div_eq_of_lt t.isLt,
    Nat.mod_eq_of_lt t.isLt, mustBeZero_zero, vreg_toNat, ofNat_toNat_self]
  rfl

theorem decode_waitc (l st c m : BitVec 4) :
    decodeNat (encodeNat (.waitc l st c m) % 2 ^ 32) = .ok (.waitc l st c m) := by
  obtain ⟨fits, major, fd, fi⟩ := encU_fields (op := 0x2D) (d := 0)
    (imm := l.toNat + st.toNat * 2 ^ 4 + c.toNat * 2 ^ 8 + m.toNat * 2 ^ 12) (by decide) (by decide) (by omega)
  rw [encodeNat, fits, decodeNat_waitc major, decodeWaitc, fd]
  generalize encU 0x2D 0 _ = w at fi
  have fields : wordField w 31 29 = 0 ∧ wordField w 16 13 = l.toNat ∧ wordField w 20 17 = st.toNat ∧
      wordField w 24 21 = c.toNat ∧ wordField w 28 25 = m.toNat := by
    simp only [wordField] at fi ⊢
    omega
  simp only [fields, mustBeZero_zero, ofNat_toNat_self]
  rfl

theorem decode_mshape (depth : BitVec 4) (cols rows : BitVec 7) :
    decodeNat (encodeNat (.mshape depth cols rows) % 2 ^ 32) = .ok (.mshape depth cols rows) := by
  obtain ⟨fits, major, fd, fi⟩ := encU_fields (op := 0x60) (d := 0)
    (imm := rows.toNat + cols.toNat * 2 ^ 7 + depth.toNat * 2 ^ 14) (by decide) (by decide) (by omega)
  rw [encodeNat, fits, decodeNat_mshape major, fd]
  generalize encU 0x60 0 _ = w at fi
  have fields : wordField w 31 31 = 0 ∧ wordField w 30 27 = depth.toNat ∧ wordField w 26 20 = cols.toNat ∧
      wordField w 19 13 = rows.toNat := by
    simp only [wordField] at fi ⊢
    omega
  simp only [fields, mustBeZero_zero, ofNat_toNat_self]
  rfl

theorem decode_vidx (step : BitVec 9) (start : BitVec 10) (d : VIx) :
    decodeNat (encodeNat (.vidx step start d) % 2 ^ 32) = .ok (.vidx step start d) := by
  have hs := step.isLt
  have hb := start.isLt
  have hd := d.isLt
  rw [encodeNat, Nat.mod_eq_of_lt (by omega), decodeNat_vidx (by omega)]
  have fields : wordField (0x33 + d.toNat * 2 ^ 7 + start.toNat * 2 ^ 13 + step.toNat * 2 ^ 23) 31 23 = step.toNat ∧
      wordField (0x33 + d.toNat * 2 ^ 7 + start.toNat * 2 ^ 13 + step.toNat * 2 ^ 23) 22 13 = start.toNat ∧
      fieldD (0x33 + d.toNat * 2 ^ 7 + start.toNat * 2 ^ 13 + step.toNat * 2 ^ 23) = d.toNat := by
    simp only [fieldD, wordField]
    omega
  simp only [fields, vreg_toNat, ofNat_toNat_self]
  rfl

theorem decode_vpf (off : BitVec 8) (o : Orient) (g : GIx) (b : XIx) :
    decodeNat (encodeNat (.vpf off o g b) % 2 ^ 32) = .ok (.vpf off o g b) := by
  obtain ⟨fits, major, fd, fb, fg, fo, fi⟩ :=
    encM_fields (op := 0x5E) (d := 0) (by decide) (by decide) b.isLt g.isLt (orient_code_lt o) off.isLt
  rw [encodeNat, fits, decodeNat_vpf major, mFields, fd, fb, fg, fo, fi, mustBeZero_zero, orientOf_code,
    ofNat_toNat_self, ofNat_toNat_self, ofNat_toNat_self]
  rfl

theorem matOpOf_spBit {a : MatOp} (h : a.wf = true) : matOpOf a.spBit a.field = .ok a :=
  (matOpOf_eq_ok (matOp_spBit_lt a) (matOp_field_lt a)).2 ⟨rfl, rfl, h⟩

theorem decode_mma {h : Hint} {z : Bool} {df : Flow} {d : VIx} {a b : MatOp} (wa : a.wf = true) (wb : b.wf = true) :
    decodeNat (encodeNat (.mma h z df d a b) % 2 ^ 32) = .ok (.mma h z df d a b) := by
  obtain ⟨fits, major, fd, fa, fb, fdf, fp, fq, fz, fh⟩ := encT_fields (op := 0x61) (h := h) (by decide) (vix_lt d)
    (matOp_field_lt a) (matOp_field_lt b) ((flow_code_lt df).trans (by decide)) (matOp_spBit_lt a) (matOp_spBit_lt b)
    (Bool.toNat_lt z)
  rw [encodeNat, fits, decodeNat_mma major, decodeMma, fd, fa, fb, fdf, fp, fq, fz, fh, flowOf_code, matOpOf_spBit wa,
    matOpOf_spBit wb, vreg_toNat]
  cases z <;> rfl

theorem decode_mmas {h : Hint} {z : Bool} {df : Flow} {d a : VIx} {b : MatOp} (wb : b.wf = true) :
    decodeNat (encodeNat (.mmas h z df d a b) % 2 ^ 32) = .ok (.mmas h z df d a b) := by
  obtain ⟨fits, major, fd, fa, fb, fdf, fp, fq, fz, fh⟩ := encT_fields (op := 0x62) (h := h) (by decide) (vix_lt d)
    (vix_lt a) (matOp_field_lt b) ((flow_code_lt df).trans (by decide)) (by decide : 0 < 2) (matOp_spBit_lt b)
    (Bool.toNat_lt z)
  rw [encodeNat, fits, decodeNat_mmas major, decodeMmas, fd, fa, fb, fdf, fp, fq, fz, fh, flowOf_code, matOpOf_spBit wb,
    vreg_toNat, vreg_toNat, mustBeZero_zero]
  cases z <;> rfl

theorem decode_vamo {n : Nat} (hn : n < 8) {sc : AScope} {o : Order} {g : GIx} {b : XIx} {d : VIx}
    (even : evenNum d = true) :
    decodeNat (encodeNat (vamoOf n sc o g b d) % 2 ^ 32) = .ok (vamoOf n sc o g b d) := by
  have hs := ascope_code_lt sc
  have hr := order_code_lt o
  obtain ⟨fits, major, fd, fb, fg, fo, fi⟩ := encM_fields (op := 0x5B) (by decide) (vix_lt d) b.isLt g.isLt
    (show o.code < 4 by omega) (show n + sc.code * 2 ^ 3 < 256 by omega)
  rw [(vamoOf_word hn ..).1, fits, decodeNat_vamo major, decodeVamo_eq, fd, fb, fg, fo]
  generalize encM 0x5B d.toNat b.toNat g.toNat o.code _ = w at fi
  have fields : wordField w 31 29 = 0 ∧ wordField w 28 27 = sc.code ∧ wordField w 26 24 = n := by
    simp only [wordField] at fi ⊢
    omega
  simp only [fields, (evenNum_iff d).1 even, mustBeZero_zero, orderOf_code, ascopeOf_code_self, vreg_toNat,
    ofNat_toNat_self]
  rfl

theorem amoWidthOf_bit_self (w : AmoWidth) : amoWidthOf (amoWidthBit w) = w := by cases w <;> rfl

theorem amoWidthBit_lt (w : AmoWidth) : amoWidthBit w < 2 := by cases w <;> decide

/-- What the fields of a scalar atomic's word hold. -/
theorem encAmo_fields {n : Nat} (hn : n < 11) (loc : AmoLoc) (w : AmoWidth) (b d : XIx) :
    encAmo loc w b d n % 2 ^ 32 = encAmo loc w b d n ∧ encAmo loc w b d n % 128 = 0x1B ∧
      fieldD (encAmo loc w b d n) = d.toNat ∧ wordField (encAmo loc w b d n) 17 13 = b.toNat ∧
      wordField (encAmo loc w b d n) 27 24 = n ∧ wordField (encAmo loc w b d n) 30 30 = amoWidthBit w ∧
      amoLocOf (encAmo loc w b d n) = .ok loc := by
  have hw := amoWidthBit_lt w
  cases loc with
  | mem sc o g =>
    have hs := ascope_code_lt sc
    rw [encAmo_mem]
    obtain ⟨fits, major, fd, fb, fg, fo, fi⟩ := encM_fields (op := 0x1B) (by decide) (xix_lt d) b.isLt g.isLt
      (orient_code_lt o) (show n + sc.code * 2 ^ 4 + amoWidthBit w * 2 ^ 6 < 256 by omega)
    refine ⟨fits, major, fd, fb, ?_⟩
    rw [amoLocOf, fg, fo]
    generalize encM 0x1B d.toNat b.toNat g.toNat o.code _ = v at fi
    have fields : wordField v 31 31 = 0 ∧ wordField v 29 28 = sc.code ∧ wordField v 27 24 = n ∧
        wordField v 30 30 = amoWidthBit w := by
      simp only [wordField] at fi ⊢
      omega
    obtain ⟨sp, scope, fn, fw⟩ := fields
    refine ⟨fn, fw, ?_⟩
    rw [sp, scope, orientOf_code, ascopeOf_code_self, ofNat_toNat_self]
    rfl
  | sp =>
    rw [encAmo_sp]
    obtain ⟨fits, major, fd, fb, fg, fo, fi⟩ := encM_fields (op := 0x1B) (g := 0) (o := 0) (by decide) (xix_lt d) b.isLt
      (by decide) (by decide) (show n + amoWidthBit w * 2 ^ 6 + 2 ^ 7 < 256 by omega)
    refine ⟨fits, major, fd, fb, ?_⟩
    rw [amoLocOf, fg, fo]
    generalize encM 0x1B d.toNat b.toNat 0 0 _ = v at fi
    have fields : wordField v 31 31 = 1 ∧ wordField v 29 28 = 0 ∧ wordField v 27 24 = n ∧
        wordField v 30 30 = amoWidthBit w := by
      simp only [wordField] at fi ⊢
      omega
    obtain ⟨sp, scope, fn, fw⟩ := fields
    refine ⟨fn, fw, ?_⟩
    rw [sp, scope]
    rfl

theorem decode_amo {n : Nat} (hn : n < 11) {loc : AmoLoc} {w : AmoWidth} {b d : XIx} (even : n = 9 → evenNum d = true) :
    decodeNat (encodeNat (amoOf n loc w b d) % 2 ^ 32) = .ok (amoOf n loc w b d) := by
  obtain ⟨fits, major, fd, fb, fn, fw, floc⟩ := encAmo_fields hn loc w b d
  have reg : (if n = 9 then xpair d.toNat else xreg d.toNat) = .ok d := by
    split
    · exact xpair_toNat (even ‹_›)
    · exact xreg_toNat d
  rw [(amoOf_word hn ..).1, fits, decodeNat_amo major, decodeAmo_eq, fd, fb, fn, fw, floc, if_neg (by omega), reg,
    amoWidthOf_bit_self, ofNat_toNat_self]
  rfl

/-! ### Every instruction -/

/-- The cases are grouped by the decoder of their major; the last ones are the device's own steps, which have no word. -/
theorem decode_encode_self {i : Instr} (hw : i.hasWord = true) (wf : i.wf = true) : decode (encode i) = .ok i := by
  rw [decode_encode]
  cases i
  case add | sub | and | or | xor | sll | srl | sra | slt | sltn | min | max | minn | maxn | clz | ctz | popc | mul
      | mulh | mulhn | div | divn | rem | remn =>
    simp only [encodeNat, encR_fields, xix_lt, Nat.reduceLT, decodeNat_scalar, decodeScalar, xreg_toNat,
      mustBeZero_zero]
    rfl
  case trap | brk | rts =>
    simp only [encodeNat, encR_fields, Nat.reduceLT, decodeNat_trap, decodeTrap, mustBeZero_zero]
    rfl
  case waita | waitaAny =>
    simp only [encodeNat, encR_fields, xix_lt, Nat.reduceLT, decodeNat_waita, decodeWaita, xreg_toNat]
    rfl
  case vand | vor | vxor | vnot | vshl | vshr | vshra | vwsl | vwsr | vfsl | vfsr | vsel | vmov | vsplat | vmvx | vmxv
      | vperm | vrev | vmcnt | vmfst | vrand | vror | vrxor =>
    simp only [encodeNat, encR_fields, xix_lt, vix_lt, Nat.reduceLT, decodeNat_logic, decodeLogic, xreg_toNat,
      vreg_toNat, mustBeZero_zero]
    rfl
  case vslu | vsld =>
    simp only [encodeNat, encR_fields, xix_lt, vix_lt, Nat.reduceLT, decodeNat_logic, decodeLogic, vreg_toNat,
      xpair_toNat wf]
    rfl
  case vadd | vsub | vrsub | vmul | vmulh | vdiv | vrem | vmin | vmax | vabs | vneg | vfma | vfms | vfnma | vfnms
      | vsqrt | vrcp | vrsq | vexp2 | vlog2 | vsin | vcos | vtanh | vrsum | vrmin | vrmax | vrdot =>
    simp only [encodeNat, encR_fields, arithMajor_lt, vix_lt, Nat.reduceLT, decodeNat_arithWord, decodeArith,
      vreg_toNat, mustBeZero_zero]
    rfl
  case vcvt | vqmx | vqef =>
    simp only [encodeNat, encR_fields, convertMajor_lt, vix_lt, Nat.reduceLT, decodeNat_convertWord, decodeConvert,
      vreg_toNat, mustBeZero_zero]
    rfl
  case vunpk | vpkb | vlut | vexpd | vcmpr =>
    simp only [encodeNat, encR_fields, xix_lt, vix_lt, Nat.reduceLT, decodeNat_transform, decodeTransform, xreg_toNat,
      vreg_toNat, mustBeZero_zero]
    rfl
  case spld | spst =>
    simp only [encodeNat, encR_fields, xix_lt, vix_lt, Nat.reduceLT, decodeNat_scratch, decodeScratch, vreg_toNat,
      xreg_toNat, xpair_toNat wf]
    rfl
  case sxins | sxlkp | sxacc | sxdrn | sxclr =>
    simp only [encodeNat, encR_fields, vix_lt, Nat.reduceLT, decodeNat_scratch, decodeScratch, vreg_toNat,
      mustBeZero_zero]
    rfl
  case xchain | xstat =>
    simp only [encodeNat, encR_fields, xix_lt, kix_lt, Nat.reduceLT, decodeNat_engine, decodeEngine, xreg_toNat,
      kreg_toNat, mustBeZero_zero]
    rfl
  case xcp h a | xcpm h a =>
    have eight : mustBeZero (a.toNat % 8) = .ok () := mustBeZero_eq_ok.2 (beq_iff_eq.1 wf)
    simp only [encodeNat, encR_fields, xix_lt, Nat.reduceLT, decodeNat_engine, decodeEngine, xreg_toNat, eight,
      mustBeZero_zero]
    rfl
  case spawn | join | endt =>
    simp only [encodeNat, encR_fields, xix_lt, kix_lt, Nat.reduceLT, decodeNat_tack, decodeTack, xreg_toNat, kreg_toNat,
      mustBeZero_zero]
    rfl
  case addi | andi | ori | xori | slti | sltin | jalr =>
    exact decode_imm (by decide) rfl fun w h => by unfold decodeNat; rw [h]; rfl
  case slli | srli | srai => exact decode_shift (by decide) rfl fun w h => by unfold decodeNat; rw [h]; rfl
  case lih | addpc | jal => exact decode_upper (by decide) rfl fun w h => by unfold decodeNat; rw [h]; rfl
  case beq | bne | blt | bge | bltn | bgen =>
    exact decode_branch (by decide) rfl fun w h => by unfold decodeNat; rw [h]; rfl
  case vbany | vbnone => exact decode_maskBranch (by decide) rfl fun w h => by unfold decodeNat; rw [h]; rfl
  case ldb | ldh | ldw | ldd | ldbn | ldhn | ldwn | stb | sth | stw | std =>
    exact decode_scalarMem (by decide) rfl fun w h => by unfold decodeNat; rw [h]; rfl
  case vld | vst | vlds | vsts | vld2 | vst2 | vldf =>
    exact decode_vectorMem (by decide) rfl fun w h => by unfold decodeNat; rw [h]; rfl
  case vldx | vstx => exact decode_indexed (by decide) rfl fun w h => by unfold decodeNat; rw [h]; rfl
  case vldw | vstw => exact decode_whole (by decide) rfl fun w h => by unfold decodeNat; rw [h]; rfl
  case kld | kst => exact decode_scale (by decide) rfl fun w h => by unfold decodeNat; rw [h]; rfl
  case amoadd => exact decode_amo (n := 0) (by decide) nofun
  case amoand => exact decode_amo (n := 1) (by decide) nofun
  case amoor => exact decode_amo (n := 2) (by decide) nofun
  case amoxor => exact decode_amo (n := 3) (by decide) nofun
  case amomin => exact decode_amo (n := 4) (by decide) nofun
  case amomax => exact decode_amo (n := 5) (by decide) nofun
  case amominn => exact decode_amo (n := 6) (by decide) nofun
  case amomaxn => exact decode_amo (n := 7) (by decide) nofun
  case amoswp => exact decode_amo (n := 8) (by decide) nofun
  case amocas => exact decode_amo (n := 9) (by decide) fun _ => wf
  case amofadd => exact decode_amo (n := 10) (by decide) nofun
  case vamoadd => exact decode_vamo (n := 0) (by decide) wf
  case vamomin => exact decode_vamo (n := 1) (by decide) wf
  case vamomax => exact decode_vamo (n := 2) (by decide) wf
  case vamoand => exact decode_vamo (n := 3) (by decide) wf
  case vamoor => exact decode_vamo (n := 4) (by decide) wf
  case vamoxor => exact decode_vamo (n := 5) (by decide) wf
  case vamoswp => exact decode_vamo (n := 6) (by decide) wf
  case vamofadd => exact decode_vamo (n := 7) (by decide) wf
  case mfc => exact decode_mfc ..
  case mtc => exact decode_mtc ..
  case mfg => exact decode_mfg ..
  case mtg => exact decode_mtg ..
  case fence => exact decode_fence ..
  case bar => exact decode_bar ..
  case waitc => exact decode_waitc ..
  case vsetl => exact decode_vsetl ..
  case vtag => exact decode_vtag ..
  case vidx => exact decode_vidx ..
  case vcmp => exact decode_vcmp ..
  case kmov => exact decode_kmov ..
  case vdqmx => exact decode_vdqmx ..
  case vpf => exact decode_vpf ..
  case mshape => exact decode_mshape ..
  case mma =>
    obtain ⟨wa, wb⟩ := Bool.and_eq_true_iff.1 wf
    exact decode_mma wa wb
  case mmas => exact decode_mmas wf
  case mlast => exact decode_mlast wf
  all_goals cases hw

/-- Settles O3: the fields of the word of each instruction are its operands, and the decoder reads them back. -/
theorem decodeOfEncodeIsIdentity : Obligations.DecodeOfEncodeIsIdentity := fun _ => decode_encode_self

end Sys2Proof


namespace Sys2Proof.Machine

open Sys2Proof.Slice0

/-! # A word that decodes to nothing (12 R238, 10 R187) -/

/-- A hart that handles no trap, owes no deferred store trap and runs, with a word at its pc that decodes to nothing,
takes the trap of an illegal instruction. -/
theorem selectHart_undecoded {s s' : State} {core slot w : Nat} {h : Hart} {e : DecodeError}
    (hh : s.hart? (hkey core slot) = some h) (hr : h.run = .running) (ht : h.trap = none)
    (hd : State.deferredDue { s with cur := hkey core slot } = false)
    (hf : fetch h { s with cur := hkey core slot } = .ok w s') (he : decodeNat w = .error e) :
    s.selectHart core slot = .settled (.next (takeTrap { cause := 0x01, word := BitVec.ofNat 32 w } s')) := by
  unfold State.selectHart
  simp only [hh, ht, hd, hr, Bool.and_false, Bool.false_eq_true, if_false]
  unfold selectFetched
  simp only [hf, he]
  rfl

/-! # Scalar forms that write a register (12 R227, 14 R254) -/

theorem writeX_writes {d : XIx} {f : Hart → Word} {s t : State} {h : Hart} (hm : s.me = some h)
    (run : writeX d f s = .next t) : ∃ w, t = s.setMe (wrote h d w) :=
  ⟨f h, Host.Outcome.next.inj (run.symm.trans (by rw [writeX_next d f hm, wrote_eq]))⟩

/-- A division writes its destination, and accrues DZ when its divisor is zero (14 R256). -/
theorem division_writes {d a b : XIx} {f : Word → Word → Word} {s t : State} {h : Hart} (hm : s.me = some h)
    (run : division d a b f s = .next t) :
    ∃ w, t = s.setMe (wrote h d w) ∨ t = s.setMe ((wrote h d w).accrue (BitVec.ofNat 8 fDZ)) := by
  by_cases zero : h.getX b = 0
  · refine ⟨BitVec.allOnes 64, .inr (Host.Outcome.next.inj (run.symm.trans ?_))⟩
    rw [division_zero d a b f hm zero, wrote_eq]
    rfl
  · refine ⟨f (h.getX a) (h.getX b), .inl (Host.Outcome.next.inj (run.symm.trans ?_))⟩
    rw [division_next d a b f hm zero, wrote_eq]

/-- What a scalar register or immediate form does when it goes on: it writes its destination, and a division by zero
accrues DZ (14 R256). -/
theorem exec_scalarForm {i : Instr} {d : XIx} {s t : State} {h : Hart} (hi : scalarForm i = some d)
    (hm : s.me = some h) (run : exec i s = .next t) :
    ∃ w, t = s.setMe (wrote h d w) ∨
      divides i = true ∧ t = s.setMe ((wrote h d w).accrue (BitVec.ofNat 8 fDZ)) := by
  have divided {a b : XIx} {f : Word → Word → Word} (hd : divides i = true) (e : division d a b f s = .next t) :
      ∃ w, t = s.setMe (wrote h d w) ∨
        divides i = true ∧ t = s.setMe ((wrote h d w).accrue (BitVec.ofNat 8 fDZ)) :=
    (division_writes hm e).imp fun _ => .imp_right (.intro hd)
  cases i
  case div e _ a b =>
    cases hi
    exact divided rfl (show execDiv d a b s = _ from run)
  case divn e _ a b =>
    cases hi
    exact divided rfl (show execDivn d a b s = _ from run)
  case rem e _ a b =>
    cases hi
    exact divided rfl (show execRem d a b s = _ from run)
  case remn e _ a b =>
    cases hi
    exact divided rfl (show execRemn d a b s = _ from run)
  case add | sub | and | or | xor | sll | srl | sra | slt | sltn | min | max | minn | maxn | clz | ctz | popc | mul
      | mulh | mulhn | addi | andi | ori | xori | slti | sltin | slli | srli | srai | lih | addpc | mfg =>
    cases hi
    change writeX d _ s = _ at run
    exact (writeX_writes hm run).imp fun _ => .inl
  all_goals cases hi

/-- Replacing the current hart changes nothing else of the machine. -/
theorem othersKept_setMe (s : State) (g : Hart) : othersKept s (s.setMe g) :=
  ⟨rfl, rfl, rfl, rfl, rfl, rfl, rfl, rfl, rfl, rfl, rfl, fun k hk => by rw [State.hart?_setMe, if_neg hk]⟩

/-- Of a hart, writing a scalar register changes its scalar registers, its pc and its count of instructions alone. -/
theorem wrote_fields (h : Hart) (d : XIx) (w : Word) :
    ∃ x, wrote h d w = { h with x := x, pc := h.pc + 4, seq := h.seq + 1 } := by
  obtain ⟨x, e⟩ := h.setX_only d w
  exact ⟨x, by rw [wrote_eq, e]; rfl⟩

theorem wrote_getX_other (h : Hart) {d r : XIx} (w : Word) (hr : r ≠ d) : (wrote h d w).getX r = h.getX r := by
  rw [wrote_eq]
  exact h.getX_setX_other d r w hr

/-! # Control and segment registers (12 R228, R229; 14 R268, R269) -/

/-! ### What finds the registers (18 R334) -/

theorem Hart.settleMats_sameScalars (h : Hart) : h.settleMats.sameScalars h :=
  Hart.sameScalars_trans (g := h.mats.foldl Hart.finishMat h) rfl
    (Hart.foldl_sameScalars _ Hart.finishMat_sameScalars _ h)

theorem atCtl_sameScalars (h : Hart) (c : CReg) : (atCtl h c).sameScalars h := by
  unfold atCtl
  split
  · exact h.settleMats_sameScalars
  · exact h.sameScalars_refl

theorem atCtl_getX (h : Hart) (c : CReg) (r : XIx) : (atCtl h c).getX r = h.getX r := by
  obtain ⟨x, -⟩ := Hart.sameScalars_fields (atCtl_sameScalars h c)
  rw [Hart.getX, Hart.getX, x]

/-! ### A privileged instruction in user mode (10 R187) -/

theorem supervisorOnly_iff (c : CReg) : supervisorOnly c = true ↔ supervisors c := by
  cases c <;> simp [supervisorOnly, supervisors]

/-- The value of the trap is the instruction's word. -/
theorem privileged_trapped {s : State} {h : Hart} (i : Instr) (hm : s.me = some h) :
    trapped s (takeTrap (privilegedTrap i) s) h 0x02 (BitVec.ofNat 64 (encode i).toNat) :=
  takeTrap_trapped (privilegedTrap i) hm

theorem namesSupervisors_iff {h : Hart} {c : CReg} :
    (supervisorOnly c && h.user) = true ↔ supervisors c ∧ h.user = true := by
  rw [Bool.and_eq_true, supervisorOnly_iff]

theorem execMfc_privileged {s : State} {h : Hart} {c : CReg} (hm : s.me = some h) (hp : supervisors c ∧ h.user = true)
    (d : XIx) : exec (.mfc c d) s = .next (takeTrap (privilegedTrap (.mfc c d)) s) :=
  (withHart_some _ hm).trans (if_pos (namesSupervisors_iff.2 hp))

theorem execMfc_next {s : State} {h : Hart} {c : CReg} (hm : s.me = some h) (hp : ¬(supervisors c ∧ h.user = true))
    (d : XIx) : completes (.mfc c d) s (wrote (atCtl h c) d (s.readCtl (atCtl h c) c)) := by
  rw [wrote_eq]
  exact (withHart_some _ hm).trans (if_neg (mt namesSupervisors_iff.1 hp))

theorem execMtc_privileged {s : State} {h : Hart} {c : CReg} (hm : s.me = some h) (hp : supervisors c ∧ h.user = true)
    (a : XIx) : exec (.mtc c a) s = .next (takeTrap (privilegedTrap (.mtc c a)) s) :=
  (withHart_some _ hm).trans (if_pos (namesSupervisors_iff.2 hp))

theorem execMtc_next {s : State} {h : Hart} {c : CReg} (hm : s.me = some h) (hp : ¬(supervisors c ∧ h.user = true))
    (a : XIx) : completes (.mtc c a) s
      { atCtl h c with ctl := (atCtl h c).ctl.write c (h.getX a), pc := h.pc + 4, seq := h.seq + 1 } := by
  obtain ⟨-, -, -, -, pc, -, seq, -⟩ := Hart.sameScalars_fields (atCtl_sameScalars h c)
  rw [← atCtl_getX h c a, ← pc, ← seq]
  exact (withHart_some _ hm).trans (if_neg (mt namesSupervisors_iff.1 hp))

/-! ### What MTC writes (12 R229) -/

theorem ctlMask_bits (c : CReg) : ∀ i, i < 64 → (ctlMask c).getLsbD i = writable c i := by
  cases c <;> decide

theorem held_write_same (k : Ctrl) (c : CReg) (w : Word) : held (k.write c w) c = w &&& ctlMask c := by
  cases c <;> simp [Ctrl.write, held, ctlMask]

theorem held_write_other (k : Ctrl) {c q : CReg} (w : Word) (hq : q ≠ c) : held (k.write c w) q = held k q := by
  cases c <;> cases q <;> simp_all [Ctrl.write, held]

/-! ### What MFC reads (12 R228, 01 R11) -/

/-- The location of a hart, field by field. -/
theorem hartId_fields (key : Nat) :
    let w := (BitVec.ofNat 64 (hartId key)).toNat
    w % 8 = slotOf key ∧ w / 8 % 8 = coreOf key % 8 ∧ w / 64 % 16 = coreOf key % 96 / 8 ∧
      (coreOf key < 384 → w / 1024 = coreOf key / 96) := by
  simp only [hartId, slotOf, dieOf, BitVec.toNat_ofNat, Nat.shiftLeft_eq]
  omega

theorem held_readCtl (s : State) (h : Hart) {c : CReg} (hc : c ∉ [.lpart, .hartid, .regionid, .cyc]) :
    s.readCtl h c = held h.ctl c := by
  cases c <;> simp_all [State.readCtl, held]

/-! ### Halves of segment registers (01 R21) -/

theorem segMask_eq {i : Nat} (hi : i < 128) : segMask.getLsbD i =
    (decide (64 ≤ i ∧ i < 121) || decide (60 ≤ i ∧ i < 64) || decide (6 ≤ i ∧ i < 57)) := by
  rw [Bool.eq_iff_iff, segMask_bits i hi]
  simp only [Bool.or_eq_true, decide_eq_true_eq, or_assoc]

theorem setHalf_bits (g : BitVec 128) (half : Half) (w : Word) {i : Nat} (hi : i < 128) :
    (setHalf g half w).getLsbD i =
      ((decide (64 ≤ i ∧ i < 121) || decide (60 ≤ i ∧ i < 64) || decide (6 ≤ i ∧ i < 57)) &&
        (match half with
          | .lo => if i < 64 then w.getLsbD i else g.getLsbD i
          | .hi => if i < 64 then g.getLsbD i else w.getLsbD (i - 64))) := by
  unfold setHalf
  rw [BitVec.getLsbD_and, segMask_eq hi, Bool.and_comm, BitVec.getLsbD_ofNat, decide_eq_true hi, Bool.true_and]
  congr 1
  cases half with
  | lo => simp [testBit_put, BitVec.getLsbD]
  | hi =>
    simp only [testBit_put, BitVec.getLsbD]
    grind

theorem execMfg_next {s : State} {h : Hart} (hm : s.me = some h) (e : Hint) (half : Half) (g : GIx) (r : XIx) :
    completes (.mfg e half g r) s (wrote h r (segHalf (h.getG g.toNat) half)) := by
  rw [wrote_eq]
  exact writeX_next r (fun h => segHalf (h.getG g.toNat) half) hm

theorem execMtg_privileged {s : State} {h : Hart} {g : GIx} (hm : s.me = some h) (hp : g = 0 ∧ h.user = true)
    (e : Hint) (half : Half) (r : XIx) :
    exec (.mtg e half g r) s = .next (takeTrap (privilegedTrap (.mtg e half g r)) s) :=
  (withHart_some _ hm).trans (if_pos (by simpa using hp))

theorem execMtg_next {s : State} {h : Hart} {g : GIx} (hm : s.me = some h) (hp : ¬(g = 0 ∧ h.user = true)) (e : Hint)
    (half : Half) (r : XIx) : completes (.mtg e half g r) s
      { h.setG g.toNat (setHalf (h.getG g.toNat) half (h.getX r)) with pc := h.pc + 4, seq := h.seq + 1 } := by
  rw [← h.setG_pc g.toNat (setHalf (h.getG g.toNat) half (h.getX r)),
    ← h.setG_seq g.toNat (setHalf (h.getG g.toNat) half (h.getX r))]
  exact (withHart_some _ hm).trans (if_neg (by simpa using hp))

theorem readControlRegister : ReadControlRegister := by
  intro s h c d hm
  refine ⟨fun hp => ⟨_, execMfc_privileged hm hp d, privileged_trapped _ hm⟩, fun hp => ⟨_, execMfc_next hm hp d, ?_⟩⟩
  cases c
  case lpart => exact Nat.mod_eq_of_lt (by omega)
  case hartid => exact hartId_fields s.cur
  case regionid =>
    have fits : fld (s.readPA h.blk 64) 255 236 < 2 ^ 64 := (Nat.mod_lt _ (Nat.two_pow_pos 20)).trans (by decide)
    exact (Nat.mod_eq_of_lt fits).trans (fld_eq_div_mod _ _ _)
  case cyc => trivial
  all_goals exact held_readCtl s _ (by decide)

theorem writeControlRegister : WriteControlRegister := by
  intro s h c a hm
  refine ⟨fun hp => ⟨_, execMtc_privileged hm hp a, privileged_trapped _ hm⟩, fun hp =>
    ⟨_, execMtc_next hm hp a, fun i hi => ?_, fun q hq => held_write_other _ _ hq⟩⟩
  rw [held_write_same, BitVec.getLsbD_and, ctlMask_bits c i hi, Bool.and_comm]

theorem segmentRegisterMoves : SegmentRegisterMoves := by
  intro s h e g r hm
  refine ⟨execMfg_next hm e .lo g r, execMfg_next hm e .hi g r, fun zero user half => ?_, fun hp half => ?_⟩
  · exact ⟨_, execMtg_privileged hm ⟨zero, user⟩ e half r, privileged_trapped _ hm⟩
  · exact ⟨_, execMtg_next hm hp e half r, fun i hi => setHalf_bits _ half _ hi⟩

end Sys2Proof.Machine

namespace Sys2Proof

open Sys2Proof.Machine Sys2Proof.Slice0

/-- Settles O5: each word is decoded. -/
theorem workedWordsDecode : Obligations.WorkedWordsDecode :=
  ⟨rfl, rfl, rfl, rfl, rfl, rfl, rfl, rfl, rfl, rfl, rfl, rfl, rfl, rfl, rfl⟩

/-- Settles O2: the turn at the head of the agenda is followed to the fetch, and the trap that the decoder's refusal
raises to its entry. -/
theorem illegalWordTraps : Obligations.IllegalWordTraps := by
  intro s core slot late rest h w s' e h' ha ht hh hr hn hd hf hw he hs
  have run : step s = .next (takeTrap { cause := 0x01, word := BitVec.ofNat 32 w } s') := by
    rw [step_agenda_hart ha, hartTurn_falls ht, selectHart_undecoded hh hr hn hd hf he]
    cases State.ready exec { s with ticks := s.ticks + 1, agenda := rest } core slot <;> rfl
  obtain ⟨⟨g, me, user, pc, -, -, -, -, -, -, ctl, -⟩, -⟩ := takeTrap_trapped _ hs
  have value : trapValue { cause := 0x01, word := BitVec.ofNat 32 w } = BitVec.ofNat 64 w :=
    congrArg (BitVec.ofNat 64) (Nat.mod_eq_of_lt hw)
  exact ⟨_, g, run, me, by rw [ctl]; rfl, by rw [ctl]; exact value, by rw [ctl], user, pc⟩

/-- Settles O8: a form that goes on has written its destination in the current hart, and a division by zero has accrued
DZ. -/
theorem scalarRegisterFrame : Obligations.ScalarRegisterFrame := by
  intro i d s t h hi hm run
  obtain ⟨w, rfl | ⟨div, rfl⟩⟩ := exec_scalarForm hi hm run
  all_goals
    refine ⟨othersKept_setMe s _, _, State.me_setMe s _, fun r hr => wrote_getX_other h w hr, rfl, ?_⟩
    obtain ⟨x, e⟩ := wrote_fields h d w
    rw [e]
  · exact ⟨rfl, rfl, rfl, rfl, rfl, rfl, rfl, .inl rfl, rfl, rfl, rfl, rfl, rfl, rfl, rfl, rfl⟩
  · exact ⟨rfl, rfl, rfl, rfl, rfl, rfl, rfl, .inr ⟨div, rfl⟩, rfl, rfl, rfl, rfl, rfl, rfl, rfl, rfl⟩

/-- Settles O16: a read gives the held word, a write the fields of the register's mask, and a half of a segment register
its fields. -/
theorem specialRegisterMoves : Obligations.SpecialRegisterMoves :=
  ⟨readControlRegister, writeControlRegister, segmentRegisterMoves⟩

end Sys2Proof
